-- ==== Sys2Proof/Word.lean ====
section
/-! DEFINITION. The word types of the Z880 and their plainest arithmetic (R5, R50, R160). -/

namespace Sys2Proof

/-- A g register, an address, a CSR (R50, R53). -/
abbrev Word := BitVec 64
/-- One byte of memory. -/
abbrev Byte := BitVec 8
/-- An instruction word or a configuration word (R16, R35). -/
abbrev W32 := BitVec 32
/-- A v register or the payload of a token (R50, R160). -/
abbrev Vec512 := BitVec 512

end Sys2Proof
end

