-- ==== Sys2Proof/Syntax.lean ====
section
/-! DEFINITION. The abstract instructions: one constructor per row of spec/opcode_table.json. The first 145 are the
thread's instruction words (R16 to R34); the rest are the steps of the hardware, the host, the firmware and the physical
world, whose arguments carry what is decided outside the machine. -/

namespace Sys2Proof

/-- A g register number (R18: all five bits). -/
abbrev GReg := BitVec 5
/-- A v register number (R18). -/
abbrev VReg := BitVec 4
/-- A k register number (R18). -/
abbrev KReg := BitVec 3
/-- A channel slot (R18). -/
abbrev ChSlot := BitVec 3

/-- The types of the shared type-code table (R20). Code 15 is reserved and has no constructor. -/
inductive Ty where
  | f32 | bf16 | f16 | e4m3 | e5m2 | qx4 | s8 | n8 | s16 | n16 | s32 | n32 | s64 | n64 | e8m0
deriving DecidableEq, Repr

/-- The rounding codes 0 to 4 (R13, R21). -/
inductive Rnd where
  | rn | rz | rp | rm | rs
deriving DecidableEq, Repr

/-- Qualifiers of LD and LDV (R26). -/
inductive LdQual where
  | plain | acq | fresh
deriving DecidableEq, Repr

/-- Qualifiers of ST and STV (R26). -/
inductive StQual where
  | plain | rel
deriving DecidableEq, Repr

/-- The order field of AMO, RST and RAT (R27). -/
inductive MemOrder where
  | relaxed | acq | rel | acqrel
deriving DecidableEq, Repr

/-- The operation field of AMO and RAT (R27). -/
inductive AmoOp where
  | swap | add | and | or | xor | min | max | cas | fadd
deriving DecidableEq, Repr

/-- FENCE kind (R28). -/
inductive FenceKind where
  | full | acq | rel
deriving DecidableEq, Repr

/-- FENCE scope (R28, R119). -/
inductive FenceScope where
  | aliases | thread | core | cluster | package | domain
deriving DecidableEq, Repr

/-- The operation of VRED (R34). -/
inductive RedOp where
  | add | min | max | and | or | xor
deriving DecidableEq, Repr

/-- A tile or edge node of a physical core. `core` is 132 times the cluster plus the physical core (R172); `tile` is
12 times the row plus the column for a tile (R150), 96 plus the row for a west edge node and 104 plus the row for an
east edge node (R152). -/
structure TileLoc where
  core : Nat
  tile : Nat
deriving DecidableEq, Repr

/-- What a configuration read or scrub meets in the protected store (R232, R233). -/
inductive StoreError where
  | clean | singleBit | doubleBit
  | potSingle (granule : Nat)
  | potDouble (granule : Nat)
deriving DecidableEq, Repr

/-- What the code of a memory tier finds at a granule that a reply reads: nothing, an error it corrects, or one it cannot
correct, at a physical address (R302). -/
inductive TierError where
  | clean
  | corrected (pa : Nat)
  | uncorrectable (pa : Nat)
deriving DecidableEq, Repr

/-- The reply that comes next of those on their way to a core, and what the code of the tier finds where it reads (R282, R302). -/
structure ReplyRead where
  n : Nat
  err : TierError
deriving DecidableEq, Repr

/-- A flit on a die-to-die link: its traffic class and its bytes as they arrive (R293). -/
structure DieFlit where
  cls : Nat
  bytes : List Byte
deriving DecidableEq, Repr

/-- An imprecise report either arrives (the n-th in flight) or is taken by its thread (R140). -/
inductive ReportMove where
  | deliver (n : Nat)
  | take (tid : Nat)
deriving DecidableEq, Repr

/-- Who asks the trusted firmware (R329): the host through SVCREQ, or a thread through its service ports. -/
inductive SvcSrc where
  | host
  | thread (tid : Nat)
deriving DecidableEq, Repr

/-- A plain register write of the host: function `fn` is 16 times the link plus the function number (R320), the offset
lies in region 0 or in region 2 (R321). -/
inductive RegWrite where
  | mgmt (fn off : Nat) (v : Word)
  | window (fn off : Nat) (bytes : List Byte)
deriving DecidableEq, Repr

/-- A base address region of a function: region 0, 2 or 4 (R320). -/
inductive Bar where
  | registers
  | windows
  | aperture
deriving DecidableEq, Repr

/-- What a host read names: a region of a function (R320). -/
structure HostRegion where
  bar : Bar
  fn : Nat
deriving DecidableEq, Repr

/-- A unit that self-test found bad (R296): a tile, a link of a tile by its port, the sequencer, a decoder or an edge node of a
physical core. -/
inductive BadUnit where
  | tile (core tile : Nat)
  | link (core tile port : Nat)
  | sequencer (core : Nat)
  | decoder (core : Nat)
  | edgeNode (core : Nat)
deriving DecidableEq, Repr

/-- What a power-up finds (R295 to R297, R327): the module input in units of 10 mV over the 10 ms of phase 1, whether every
die-to-die link and every memory device trains, the bad units, and the lowest passing voltage code of each physical core and
band (a band that is not listed passes at code 0). -/
structure SelfTest where
  input : BitVec 16
  linksTrain : Bool
  memoryTrains : Bool
  bad : List BadUnit
  calib : List (Nat × Nat × Nat)
deriving DecidableEq, Repr

/-- The instructions: one constructor per row of the table of operations and events; the events without arguments stand
last. -/
inductive Instr where
  /-- ADD (R92). -/
  | add (ty : Ty) (d a b : GReg)
  /-- SUB (R92). -/
  | sub (ty : Ty) (d a b : GReg)
  /-- MUL (R92). -/
  | mul (ty : Ty) (d a b : GReg)
  /-- MULH (R92). -/
  | mulh (ty : Ty) (d a b : GReg)
  /-- DIV (R93). -/
  | div (ty : Ty) (d a b : GReg)
  /-- REM (R93). -/
  | rem (ty : Ty) (d a b : GReg)
  /-- ADDS (R92). -/
  | adds (ty : Ty) (d a b : GReg)
  /-- SUBS (R92). -/
  | subs (ty : Ty) (d a b : GReg)
  /-- AND (R92). -/
  | and (ty : Ty) (d a b : GReg)
  /-- OR (R92). -/
  | or (ty : Ty) (d a b : GReg)
  /-- XOR (R92). -/
  | xor (ty : Ty) (d a b : GReg)
  /-- ANDN (R92). -/
  | andn (ty : Ty) (d a b : GReg)
  /-- SLL (R94). -/
  | sll (ty : Ty) (d a b : GReg)
  /-- SRL (R94). -/
  | srl (ty : Ty) (d a b : GReg)
  /-- SRA (R94). -/
  | sra (ty : Ty) (d a b : GReg)
  /-- ROTL (R94). -/
  | rotl (ty : Ty) (d a b : GReg)
  /-- SEQ (R92). -/
  | seq (ty : Ty) (d a b : GReg)
  /-- SLT (R92). -/
  | slt (ty : Ty) (d a b : GReg)
  /-- SLE (R92). -/
  | sle (ty : Ty) (d a b : GReg)
  /-- MIN (R92). -/
  | min (ty : Ty) (d a b : GReg)
  /-- MAX (R92). -/
  | max (ty : Ty) (d a b : GReg)
  /-- SEL (R92). -/
  | sel (ty : Ty) (d a b : GReg)
  /-- BFX (R95). -/
  | bfx (ty : Ty) (d a b : GReg)
  /-- BFI (R95). -/
  | bfi (ty : Ty) (d a b : GReg)
  /-- CLZ (R92). -/
  | clz (ty : Ty) (d a : GReg)
  /-- POPC (R92). -/
  | popc (ty : Ty) (d a : GReg)
  /-- ADDI (R97). -/
  | addi (d a : GReg) (imm : BitVec 16)
  /-- ANDI (R97). -/
  | andi (d a : GReg) (imm : BitVec 16)
  /-- ORI (R97). -/
  | ori (d a : GReg) (imm : BitVec 16)
  /-- XORI (R97). -/
  | xori (d a : GReg) (imm : BitVec 16)
  /-- SLTI (R97). -/
  | slti (d a : GReg) (imm : BitVec 16)
  /-- LUI (R97). -/
  | lui (d : GReg) (h : BitVec 2) (imm : BitVec 16)
  /-- ADDPC (R97). -/
  | addpc (d : GReg) (imm : BitVec 16)
  /-- SLLI (R97). -/
  | slli (d a : GReg) (n : BitVec 6)
  /-- SRLI (R97). -/
  | srli (d a : GReg) (n : BitVec 6)
  /-- SRAI (R97). -/
  | srai (d a : GReg) (n : BitVec 6)
  /-- ROTLI (R97). -/
  | rotli (d a : GReg) (n : BitVec 6)
  /-- BEQ (R99). -/
  | beq (a b : GReg) (off : BitVec 16)
  /-- BNE (R99). -/
  | bne (a b : GReg) (off : BitVec 16)
  /-- BLT (R99). -/
  | blt (a b : GReg) (off : BitVec 16)
  /-- BGE (R99). -/
  | bge (a b : GReg) (off : BitVec 16)
  /-- BLTN (R99). -/
  | bltn (a b : GReg) (off : BitVec 16)
  /-- BGEN (R99). -/
  | bgen (a b : GReg) (off : BitVec 16)
  /-- J (R100). -/
  | j (off : BitVec 26)
  /-- JL (R100). -/
  | jl (off : BitVec 26)
  /-- JLR (R100). -/
  | jlr (d a : GReg) (imm : BitVec 16)
  /-- LOOP (R101). -/
  | loop (a : GReg) (off : BitVec 16)
  /-- LD (R116). -/
  | ld (q : LdQual) (size : BitVec 3) (d base : GReg) (off : BitVec 11)
  /-- ST (R116). -/
  | st (q : StQual) (size : BitVec 3) (d base : GReg) (off : BitVec 11)
  /-- LDV (R116). -/
  | ldv (q : LdQual) (v : VReg) (base : GReg) (off : BitVec 11)
  /-- STV (R116). -/
  | stv (q : StQual) (v : VReg) (base : GReg) (off : BitVec 11)
  /-- LDW (R117). -/
  | ldw (size : BitVec 3) (d base : GReg) (off : BitVec 11)
  /-- LDC (R117). -/
  | ldc (size : BitVec 3) (d base : GReg) (off : BitVec 11)
  /-- STF (R117). -/
  | stf (size : BitVec 3) (d base : GReg) (off : BitVec 11)
  /-- CLRF (R117). -/
  | clrf (base : GReg) (off : BitVec 11)
  /-- AMO (R118). -/
  | amo (op : AmoOp) (ord : MemOrder) (ty : Ty) (d a b : GReg)
  /-- FENCE (R119). -/
  | fence (kind : FenceKind) (scope : FenceScope)
  /-- RST (R120). -/
  | rst (ord : MemOrder) (ty : Ty) (a b : GReg)
  /-- RAT (R120). -/
  | rat (op : AmoOp) (ord : MemOrder) (ty : Ty) (d a b : GReg)
  /-- SEND (R121). -/
  | send (ch : ChSlot) (b : GReg)
  /-- RECV (R121). -/
  | recv (d : GReg) (ch : ChSlot)
  /-- BIND_IN (R121). -/
  | bindIn (ch : ChSlot) (b : GReg) (slot : ChSlot)
  /-- BIND_OUT (R121). -/
  | bindOut (ch : ChSlot) (b : GReg) (slot : ChSlot)
  /-- UNBIND (R121). -/
  | unbind (ch : ChSlot)
  /-- POLL (R121). -/
  | poll (d : GReg) (ch : ChSlot)
  /-- BIND_PORT (R121). -/
  | bindPort (ch : ChSlot) (b : GReg)
  /-- JOIN (R122). -/
  | join (d a : GReg)
  /-- LEAVE (R122). -/
  | leave (a : GReg)
  /-- GBAR (R122). -/
  | gbar (a : GReg)
  /-- GSIZE (R122). -/
  | gsize (d a : GReg)
  /-- GRANK (R122). -/
  | grank (d a : GReg)
  /-- XNEW (R124). -/
  | xnew (d a : GReg)
  /-- XFREE (R124). -/
  | xfree (a : GReg)
  /-- XREQ (R128). -/
  | xreq (d a b : GReg)
  /-- XWAIT (R128). -/
  | xwait (a : GReg)
  /-- XTRY (R128). -/
  | xtry (d a : GReg)
  /-- XGIVE (R128). -/
  | xgive (a b : GReg)
  /-- XSWAP (R128). -/
  | xswap (a b : GReg)
  /-- XDROP (R128). -/
  | xdrop (a : GReg)
  /-- XREL (R128). -/
  | xrel (a : GReg)
  /-- XSTAT (R128). -/
  | xstat (d a : GReg)
  /-- KSET (R130). -/
  | kset (k : KReg) (a b : GReg)
  /-- KSTEP (R130). -/
  | kstep (k : KReg) (a : GReg)
  /-- KGET (R130). -/
  | kget (d : GReg) (k : KReg) (part : BitVec 1)
  /-- RDRAW (R130). -/
  | rdraw (d : GReg) (k : KReg) (b : GReg) (index : BitVec 4)
  /-- BCINIT (R132). -/
  | bcinit (a b : GReg)
  /-- BCPOST (R132). -/
  | bcpost (a b : GReg)
  /-- BCWAIT (R132). -/
  | bcwait (d a : GReg)
  /-- CFGLD (R223). -/
  | cfgld (d a b : GReg)
  /-- CFGSWAP (R225). -/
  | cfgswap (a : GReg)
  /-- CFGDROP (R225). -/
  | cfgdrop (a : GReg)
  /-- LAUNCH (R270). -/
  | launch (wave : Bool) (a b : GReg)
  /-- LWAIT (R272). -/
  | lwait (a : GReg)
  /-- INJECT (R273). -/
  | inject (a b : GReg)
  /-- MARK (R274). -/
  | mark (a : GReg)
  /-- COPY (R278). -/
  | copy (d a : GReg)
  /-- CPWAIT (R279). -/
  | cpwait (a : GReg)
  /-- RATE (R252). -/
  | rate (d a b : GReg)
  /-- SOLVE (R253). -/
  | solve (d a : GReg)
  /-- RSTAT (R254). -/
  | rstat (d a b : GReg)
  /-- TRAP (R133). -/
  | trap (n : BitVec 7)
  /-- RETT (R133). -/
  | rett
  /-- CSRR (R133). -/
  | csrr (d : GReg) (csr : BitVec 7)
  /-- CSRW (R133). -/
  | csrw (d a : GReg) (csr : BitVec 7)
  /-- CSRS (R133). -/
  | csrs (d a : GReg) (csr : BitVec 7)
  /-- CSRC (R133). -/
  | csrc (d a : GReg) (csr : BitVec 7)
  /-- SPAWN (R133). -/
  | spawn (d a : GReg) (off : BitVec 12)
  /-- EXIT (R61). -/
  | exit
  /-- YIELD (R133). -/
  | yield
  /-- WAIT (R133). -/
  | wait (a : GReg)
  /-- WAITANY (R133). -/
  | waitany (d a : GReg)
  /-- MIGRATE (R133). -/
  | migrate (a : GReg)
  /-- BRK (R133). -/
  | brk (n : BitVec 7)
  /-- NOP (R133). -/
  | nop
  /-- CHKERR (R133). -/
  | chkerr (d : GReg)
  /-- VADD (R105). -/
  | vadd (rnd : Rnd) (sat : Bool) (ty : Ty) (d a b : VReg)
  /-- VSUB (R105). -/
  | vsub (rnd : Rnd) (sat : Bool) (ty : Ty) (d a b : VReg)
  /-- VMUL (R105). -/
  | vmul (rnd : Rnd) (sat : Bool) (ty : Ty) (d a b : VReg)
  /-- VFMA (R105). -/
  | vfma (rnd : Rnd) (sat : Bool) (ty : Ty) (d a b : VReg)
  /-- VMIN (R105). -/
  | vmin (rnd : Rnd) (sat : Bool) (ty : Ty) (d a b : VReg)
  /-- VMAX (R105). -/
  | vmax (rnd : Rnd) (sat : Bool) (ty : Ty) (d a b : VReg)
  /-- VABS (R105). -/
  | vabs (rnd : Rnd) (sat : Bool) (ty : Ty) (d a : VReg)
  /-- VNEG (R105). -/
  | vneg (rnd : Rnd) (sat : Bool) (ty : Ty) (d a : VReg)
  /-- VAND (R106). -/
  | vand (rnd : Rnd) (sat : Bool) (ty : Ty) (d a b : VReg)
  /-- VOR (R106). -/
  | vor (rnd : Rnd) (sat : Bool) (ty : Ty) (d a b : VReg)
  /-- VXOR (R106). -/
  | vxor (rnd : Rnd) (sat : Bool) (ty : Ty) (d a b : VReg)
  /-- VSHL (R106). -/
  | vshl (rnd : Rnd) (sat : Bool) (ty : Ty) (d a b : VReg)
  /-- VSHR (R106). -/
  | vshr (rnd : Rnd) (sat : Bool) (ty : Ty) (d a b : VReg)
  /-- VSRA (R106). -/
  | vsra (rnd : Rnd) (sat : Bool) (ty : Ty) (d a b : VReg)
  /-- VCMPEQ (R107). -/
  | vcmpeq (rnd : Rnd) (sat : Bool) (ty : Ty) (d a b : VReg)
  /-- VCMPLT (R107). -/
  | vcmplt (rnd : Rnd) (sat : Bool) (ty : Ty) (d a b : VReg)
  /-- VCMPLE (R107). -/
  | vcmple (rnd : Rnd) (sat : Bool) (ty : Ty) (d a b : VReg)
  /-- VSEL (R107). -/
  | vsel (rnd : Rnd) (sat : Bool) (ty : Ty) (d a b : VReg)
  /-- VEXP2 (R86). -/
  | vexp2 (rnd : Rnd) (sat : Bool) (ty : Ty) (d a : VReg)
  /-- VLOG2 (R87). -/
  | vlog2 (rnd : Rnd) (sat : Bool) (ty : Ty) (d a : VReg)
  /-- VRCP (R88). -/
  | vrcp (rnd : Rnd) (sat : Bool) (ty : Ty) (d a : VReg)
  /-- VRSQRT (R89). -/
  | vrsqrt (rnd : Rnd) (sat : Bool) (ty : Ty) (d a : VReg)
  /-- VMULH (R106). -/
  | vmulh (rnd : Rnd) (sat : Bool) (ty : Ty) (d a b : VReg)
  /-- VCVT (R109). -/
  | vcvt (rnd : Rnd) (dt st : Ty) (d a : VReg) (k : KReg) (cg : BitVec 4)
  /-- VPERM (R111). -/
  | vperm (ty : Ty) (d a b : VReg)
  /-- VBCAST (R111). -/
  | vbcast (ty : Ty) (d : VReg) (g : GReg)
  /-- VINS (R111). -/
  | vins (ty : Ty) (d : VReg) (g : GReg) (e : BitVec 6)
  /-- VEXT (R111). -/
  | vext (ty : Ty) (d : GReg) (a : VReg) (e : BitVec 6)
  /-- VROT (R111). -/
  | vrot (ty : Ty) (d a : VReg) (n : BitVec 6)
  /-- VRED (R111). -/
  | vred (op : RedOp) (ty : Ty) (d a : VReg)
  /-- WAKE_WORD (R57). -/
  | wakeWord (n : Nat)
  /-- SLICE_EXPIRY (R59). -/
  | sliceExpiry (tid : Nat)
  /-- WAIT_COUNT_EXPIRY (R133). -/
  | waitCountExpiry (tid : Nat)
  /-- INSTRUCTION_LINE_FILL (R64). -/
  | instructionLineFill (core n : Nat)
  /-- STORE_DRAIN (R66). -/
  | storeDrain (core n : Nat)
  /-- IMPRECISE_REPORT (R140). -/
  | impreciseReport (m : ReportMove)
  /-- RELEASE_WALK (R129). -/
  | releaseWalk (cl obj : Nat)
  /-- LAUNCH_ADMISSION (R268). -/
  | launchAdmission (cl : Nat)
  /-- LAUNCH_END (R271). -/
  | launchEnd (cl h : Nat)
  /-- CHECKPOINT_COMPLETE (R274). -/
  | checkpointComplete (cl h : Nat)
  /-- PREEMPTION_COMPLETE (R276). -/
  | preemptionComplete (cl h : Nat)
  /-- COPY_TILE (R278). -/
  | copyTile (cl n : Nat)
  /-- COPY_FORWARD (R290). -/
  | copyForward (core : Nat)
  /-- MONITOR_WINDOW_END (R255). -/
  | monitorWindowEnd (core : Nat) (temp : Int)
  /-- REGULATOR_SETTLED (R257). -/
  | regulatorSettled (cl : Nat)
  /-- SETTLE_TIMEOUT (R257). -/
  | settleTimeout (cl : Nat)
  /-- TELEMETRY_SAMPLE (R262). -/
  | telemetrySample (cl : Nat) (codes : List (Nat × Nat))
  /-- DROOP (R263). -/
  | droop (input : BitVec 16)
  /-- DROOP_RECOVERY (R263). -/
  | droopRecovery (input : BitVec 16)
  /-- INPUT_BELOW_38V (R330). -/
  | inputBelow38V (input : BitVec 16)
  /-- QUIESCE (R330). -/
  | quiesce (input : BitVec 16)
  /-- SEQUENCER_STOP (R330). -/
  | sequencerStop (timeUp : Bool)
  /-- INPUT_RESTORED (R330). -/
  | inputRestored (input : BitVec 16)
  /-- THERMAL_TRIP (R331). -/
  | thermalTrip (core : Nat) (temp : Int)
  /-- REPLICA_FAILURE (R297). -/
  | replicaFailure (core : Nat)
  /-- CONFIG_SCRUB (R232). -/
  | configScrub (loc : TileLoc) (err : StoreError)
  /-- CONFIG_RELOAD (R233). -/
  | configReload (cl h : Nat)
  /-- TILE_SWAP (R229). -/
  | tileSwap (loc : TileLoc)
  /-- TILE_CONFIG_TOKEN (R226). -/
  | tileConfigToken (cl h : Nat)
  /-- LOAD_COMPLETE (R223). -/
  | loadComplete (cl h : Nat)
  /-- SOLVE_COMPLETE (R253). -/
  | solveComplete (tid : Nat)
  /-- STAGE_FIRING (R157). -/
  | stageFiring (loc : TileLoc) (stage : Nat)
  /-- SWITCH_FORWARD (R153). -/
  | switchForward (loc : TileLoc) (word : Nat)
  /-- SCRATCHPAD_WRITE (R205). -/
  | scratchpadWrite (loc : TileLoc)
  /-- STREAM_BUFFER_PUSH (R207). -/
  | streamBufferPush (loc : TileLoc)
  /-- STREAM_BUFFER_POP (R207). -/
  | streamBufferPop (loc : TileLoc)
  /-- ATOMIC_PIPELINE_UPDATE (R209). -/
  | atomicPipelineUpdate (loc : TileLoc)
  /-- MANDOLINE_WINDOW (R213). -/
  | mandolineWindow (loc : TileLoc)
  /-- CONTROLLER_PERMIT (R166). -/
  | controllerPermit (loc : TileLoc)
  /-- CONTROLLER_DONE (R166). -/
  | controllerDone (loc : TileLoc)
  /-- STEER (R170). -/
  | steer (loc : TileLoc) (node : Nat)
  /-- MERGE (R170). -/
  | merge (loc : TileLoc) (node : Nat)
  /-- LOOP_CARRY (R170). -/
  | loopCarry (loc : TileLoc) (node : Nat)
  /-- SPOUT_READ_ROUND (R218). -/
  | spoutReadRound (loc : TileLoc)
  /-- SPOUT_WRITE_ROUND (R218). -/
  | spoutWriteRound (loc : TileLoc)
  /-- SPOUT_REINJECT (R234). -/
  | spoutReinject (loc : TileLoc)
  /-- INDIRECT_GATHER (R305). -/
  | indirectGather (loc : TileLoc)
  /-- NETWORK_PORT_TRANSFER (R171). -/
  | networkPortTransfer (loc : TileLoc)
  /-- TRANSLATION_WALK (R308). -/
  | translationWalk (rim n : Nat)
  /-- MEMORY_ATOMIC (R303). -/
  | memoryAtomic (n : Nat)
  /-- MEMORY_REPLY (R282). -/
  | memoryReply (core : Nat) (reply : ReplyRead)
  /-- INVALIDATE_COMPLETE (R310). -/
  | invalidateComplete
  /-- DIE_LINK_FLIT (R293). -/
  | dieLinkFlit (link : Nat) (flit : DieFlit)
  /-- PEER_FLIT (R353). -/
  | peerFlit (link : Nat) (bytes : List Byte)
  /-- LINK_RETRAIN (R354). -/
  | linkRetrain (link : Nat) (lockLost failed : Bool)
  /-- MESSAGE_TRANSIT (R360). -/
  | messageTransit (n : Nat)
  /-- PEER_RST (R356). -/
  | peerRst (n : Nat)
  /-- PEER_RAT (R356). -/
  | peerRat (n : Nat)
  /-- PEER_COPY_DATA (R356). -/
  | peerCopyData (n : Nat)
  /-- PEER_REDUCING_DATA (R363). -/
  | peerReducingData (n : Nat)
  /-- PEER_CHANNEL_TOKEN (R362). -/
  | peerChannelToken (n : Nat)
  /-- ACKNOWLEDGEMENT (R356). -/
  | acknowledgement (n : Nat)
  /-- RAT_REPLY (R359). -/
  | ratReply (n : Nat)
  /-- HORIZON (R358). -/
  | horizon (n : Nat)
  /-- REPLAY_TIMEOUT (R357). -/
  | replayTimeout (chip : Nat)
  /-- POWER_ON (R327). -/
  | powerOn (report : SelfTest)
  /-- CAP (R332). -/
  | cap (v : Word)
  /-- HBEAT (R332). -/
  | hbeat (v : Word)
  /-- PREEMPT (R276). -/
  | preempt (v : Word)
  /-- RESUME (R276). -/
  | resume (v : Word)
  /-- FQRESUME (R313). -/
  | fqresume (v : Word)
  /-- LCT_WRITE (R282). -/
  | lctWrite (v : Word)
  /-- NEWCTL (R335). -/
  | newctl (v : Word)
  /-- VERIFY_IMAGE (R314). -/
  | verifyImage (src : SvcSrc)
  /-- ATTESTATION_QUOTE (R329). -/
  | attestationQuote (src : SvcSrc)
  /-- WRITE_ENTRY (R361). -/
  | writeEntry (src : SvcSrc)
  /-- READ_FABRIC_STATE (R361). -/
  | readFabricState (src : SvcSrc)
  /-- RESTORE_FABRIC_STATE (R361). -/
  | restoreFabricState (src : SvcSrc)
  /-- PUBLISH_HORIZON (R361). -/
  | publishHorizon (src : SvcSrc)
  /-- SET_RETENTION_LOG (R361). -/
  | setRetentionLog (src : SvcSrc)
  /-- INSTALL_GENERAL_FIRMWARE (R329). -/
  | installGeneralFirmware (src : SvcSrc)
  /-- INGRESS_TAIL_WRITE (R323). -/
  | ingressTailWrite (win : Nat) (v : Word)
  /-- EGRESS_HEAD_WRITE (R321). -/
  | egressHeadWrite (win : Nat) (v : Word)
  /-- ATTACHMENT_WRITE (R323). -/
  | attachmentWrite (egress : Bool) (win : Nat) (v : Word)
  /-- INGRESS_PUSH (R323). -/
  | ingressPush (win : Nat)
  /-- EGRESS_SLOT_WRITE (R325). -/
  | egressSlotWrite (win : Nat)
  /-- APERTURE_READ (R320). -/
  | apertureRead (region : HostRegion) (off len : Nat)
  /-- APERTURE_WRITE (R320). -/
  | apertureWrite (fn off : Nat) (bytes : List Byte)
  /-- MSIX_UNMASK (R322). -/
  | msixUnmask (fn vec : Nat)
  /-- REGISTER_WRITE (R334). -/
  | registerWrite (w : RegWrite)
  /-- UNDEFINED_INSTRUCTION (R47). -/
  | undefinedInstruction (w : W32)
  /-- OCCUPANCY_EXCHANGE (R243). -/
  | occupancyExchange (loc : TileLoc) (word : Nat)
  /-- LINK_TRAINED (R354). -/
  | linkTrained (link lanes : Nat) (expected : BitVec 12)
  /-- POT_ZEROING_COMPLETE (R283). -/
  | potZeroingComplete (core : Nat)
  /-- CEILING_RAISE (R262). -/
  | ceilingRaise (cl budget : Nat) (ceilings : List (Nat × Nat × Nat))
  /-- RESET (R301). -/
  | reset
  /-- CLEAR_FAULT_RECORD (R286). -/
  | clearFaultRecord
  /-- INVALIDATE_CONTEXT (R310). -/
  | invalidateContext
  /-- INVALIDATE_RANGE (R310). -/
  | invalidateRange
  /-- RESET_CONTEXT (R54). -/
  | resetContext
  /-- SVCRSP (R334). -/
  | svcrsp
  /-- HOLD_UP_EXHAUSTED (R330). -/
  | holdUpExhausted
  /-- CAP_FLOOR_TIMEOUT (R332). -/
  | capFloorTimeout
deriving DecidableEq, Repr

end Sys2Proof
end

