-- ==== Sys2Proof/WellFormed.lean ====
section
/-! DEFINITION. Which abstract instructions have an encoding: the operand rules of R18 to R34 that the types of
`Instr` do not already say. An event has no word and is always well formed. -/

namespace Sys2Proof

/-- The type codes of R20. -/
def Ty.code : Ty → BitVec 4
  | .f32 => 0 | .bf16 => 1 | .f16 => 2 | .e4m3 => 3 | .e5m2 => 4 | .qx4 => 5 | .s8 => 6 | .n8 => 7
  | .s16 => 8 | .n16 => 9 | .s32 => 10 | .n32 => 11 | .s64 => 12 | .n64 => 13 | .e8m0 => 14

/-- Bits of one element of a type (R69, R71, R72); a QX4 slot is 4 bits (R74). -/
def Ty.width : Ty → Nat
  | .f32 => 32 | .bf16 => 16 | .f16 => 16 | .e4m3 => 8 | .e5m2 => 8 | .qx4 => 4 | .s8 => 8 | .n8 => 8
  | .s16 => 16 | .n16 => 16 | .s32 => 32 | .n32 => 32 | .s64 => 64 | .n64 => 64 | .e8m0 => 8

/-- Elements of a type per 512-bit token (R103). -/
def Ty.lanes (t : Ty) : Nat := 512 / t.width

/-- The integer types, codes 6 to 13 (R23, R91). -/
def Ty.isInt : Ty → Bool
  | .s8 | .n8 | .s16 | .n16 | .s32 | .n32 | .s64 | .n64 => true
  | _ => false

/-- The signed integer types (R20). -/
def Ty.isSigned : Ty → Bool
  | .s8 | .s16 | .s32 | .s64 => true
  | _ => false

/-- The integer types of vector instructions (R103). -/
def Ty.isVInt : Ty → Bool
  | .s8 | .n8 | .s16 | .n16 | .s32 | .n32 => true
  | _ => false

/-- The floating types of vector arithmetic (R103). -/
def Ty.isVFloat : Ty → Bool
  | .f32 | .bf16 | .f16 => true
  | _ => false

/-- The types VPERM, VBCAST, VINS, VEXT and VROT accept (R103). -/
def Ty.isPerm : Ty → Bool
  | .qx4 | .s64 | .n64 => false
  | _ => true

/-- The integer types of the atomics other than FADD (R27). -/
def Ty.isAtomic : Ty → Bool
  | .s32 | .n32 | .s64 | .n64 => true
  | _ => false

/-- The type an atomic operation accepts (R27). -/
def amoTypeOk (op : AmoOp) (ty : Ty) : Bool :=
  if op = .fadd then ty = .f32 || ty = .bf16 else ty.isAtomic

/-- Rounding, saturation and type of VADD, VSUB, VMUL (R105, R106). -/
def vArithOk (rnd : Rnd) (ty : Ty) : Bool :=
  (ty.isVFloat && rnd ≠ .rs) || (ty.isVInt && rnd = .rn)

/-- Fields of an operation that neither rounds nor saturates and takes every vector type (R105, R107). -/
def vPlainOk (rnd : Rnd) (sat : Bool) (ty : Ty) : Bool :=
  (ty.isVFloat || ty.isVInt) && rnd = .rn && !sat

/-- Fields of an integer-only operation without a saturating form (R106). -/
def vIntOk (rnd : Rnd) (sat : Bool) (ty : Ty) : Bool :=
  ty.isVInt && rnd = .rn && !sat

/-- Fields of a transcendental (R105). -/
def vTransOk (rnd : Rnd) (sat : Bool) (ty : Ty) : Bool :=
  ty.isVFloat && !sat && rnd ≠ .rs && (ty ≠ .f32 || rnd = .rn)

/-- The CSR numbers that exist (R31). -/
def csrExists (n : BitVec 7) : Bool :=
  n.toNat ≤ 0x0C || (0x10 ≤ n.toNat && n.toNat ≤ 0x17)

/-- An instruction word of the thread obeys the field rules of R18 to R34; an event is not encoded at all. -/
def wellFormed : Instr → Bool
  | .add ty _ _ _ | .sub ty _ _ _ | .mul ty _ _ _ | .mulh ty _ _ _ | .div ty _ _ _ | .rem ty _ _ _
  | .adds ty _ _ _ | .subs ty _ _ _ | .and ty _ _ _ | .or ty _ _ _ | .xor ty _ _ _ | .andn ty _ _ _
  | .sll ty _ _ _ | .srl ty _ _ _ | .sra ty _ _ _ | .rotl ty _ _ _ | .seq ty _ _ _ | .slt ty _ _ _
  | .sle ty _ _ _ | .min ty _ _ _ | .max ty _ _ _ | .sel ty _ _ _ => ty.isInt
  | .clz ty _ _ | .popc ty _ _ => ty.isInt
  | .bfx ty _ _ _ | .bfi ty _ _ _ => ty = .s64 || ty = .n64
  | .loop a _ => a ≠ 0
  | .ld _ size _ _ _ | .ldw size _ _ _ | .ldc size _ _ _ | .stf size _ _ _ => size ≠ 7
  | .st _ size _ _ _ => size.toNat ≤ 3
  | .amo op _ ty _ _ _ | .rat op _ ty _ _ _ => amoTypeOk op ty
  | .rst ord ty _ _ => (ord = .relaxed || ord = .rel) && ty.isAtomic
  | .fence kind scope => scope ≠ .aliases || kind = .full
  | .csrr _ csr | .csrw _ _ csr | .csrs _ _ csr | .csrc _ _ csr => csrExists csr
  | .vadd rnd _ ty _ _ _ | .vsub rnd _ ty _ _ _ | .vmul rnd _ ty _ _ _ => vArithOk rnd ty
  | .vfma rnd _ ty _ _ _ => ty.isVFloat && rnd ≠ .rs
  | .vmin rnd sat ty _ _ _ | .vmax rnd sat ty _ _ _ | .vcmpeq rnd sat ty _ _ _ | .vcmplt rnd sat ty _ _ _
  | .vcmple rnd sat ty _ _ _ | .vsel rnd sat ty _ _ _ => vPlainOk rnd sat ty
  | .vabs rnd sat ty _ _ => rnd = .rn && ((ty.isVFloat && !sat) || (ty.isVInt && ty.isSigned))
  | .vneg rnd sat ty _ _ => rnd = .rn && ((ty.isVFloat && !sat) || ty.isVInt)
  | .vand rnd sat ty _ _ _ | .vor rnd sat ty _ _ _ | .vxor rnd sat ty _ _ _ | .vshl rnd sat ty _ _ _
  | .vshr rnd sat ty _ _ _ | .vsra rnd sat ty _ _ _ | .vmulh rnd sat ty _ _ _ => vIntOk rnd sat ty
  | .vexp2 rnd sat ty _ _ | .vlog2 rnd sat ty _ _ | .vrcp rnd sat ty _ _ | .vrsqrt rnd sat ty _ _ =>
      vTransOk rnd sat ty
  | .vcvt rnd dt st _ _ k cg =>
      dt ≠ .qx4 && st ≠ .qx4 && (dt ≠ .e8m0 || rnd ≠ .rs) && (rnd = .rs || (cg = 0 && k = 0))
  | .vperm ty _ _ _ | .vbcast ty _ _ => ty.isPerm
  | .vins ty _ _ e | .vext ty _ _ e | .vrot ty _ _ e => ty.isPerm && e.toNat < ty.lanes
  | .vred op ty _ _ =>
      match op with
      | .add | .min | .max => ty.isVFloat || ty.isVInt
      | .and | .or | .xor => ty.isVInt
  | .addi .. | .andi .. | .ori .. | .xori .. | .slti .. | .lui .. | .addpc .. | .slli .. | .srli .. | .srai ..
  | .rotli .. | .beq .. | .bne .. | .blt .. | .bge .. | .bltn .. | .bgen .. | .j .. | .jl .. | .jlr .. | .ldv ..
  | .stv .. | .clrf .. | .send .. | .recv .. | .bindIn .. | .bindOut .. | .unbind .. | .poll .. | .bindPort ..
  | .join .. | .leave .. | .gbar .. | .gsize .. | .grank .. | .xnew .. | .xfree .. | .xreq .. | .xwait .. | .xtry ..
  | .xgive .. | .xswap .. | .xdrop .. | .xrel .. | .xstat .. | .kset .. | .kstep .. | .kget .. | .rdraw ..
  | .bcinit .. | .bcpost .. | .bcwait .. | .cfgld .. | .cfgswap .. | .cfgdrop .. | .launch .. | .lwait ..
  | .inject .. | .mark .. | .copy .. | .cpwait .. | .rate .. | .solve .. | .rstat .. | .trap .. | .rett | .spawn ..
  | .exit | .yield | .wait .. | .waitany .. | .migrate .. | .brk .. | .nop | .chkerr .. | .wakeWord ..
  | .sliceExpiry .. | .waitCountExpiry .. | .instructionLineFill .. | .storeDrain .. | .impreciseReport ..
  | .releaseWalk .. | .launchAdmission .. | .launchEnd .. | .checkpointComplete .. | .preemptionComplete ..
  | .copyTile .. | .copyForward .. | .monitorWindowEnd .. | .regulatorSettled .. | .settleTimeout ..
  | .telemetrySample .. | .droop .. | .droopRecovery .. | .inputBelow38V .. | .quiesce .. | .sequencerStop ..
  | .inputRestored .. | .holdUpExhausted | .thermalTrip .. | .capFloorTimeout | .replicaFailure .. | .configScrub ..
  | .configReload .. | .tileSwap .. | .tileConfigToken .. | .loadComplete .. | .solveComplete .. | .stageFiring ..
  | .switchForward .. | .scratchpadWrite .. | .streamBufferPush .. | .streamBufferPop .. | .atomicPipelineUpdate ..
  | .mandolineWindow .. | .controllerPermit .. | .controllerDone .. | .steer .. | .merge .. | .loopCarry ..
  | .spoutReadRound .. | .spoutWriteRound .. | .spoutReinject .. | .indirectGather .. | .networkPortTransfer ..
  | .translationWalk .. | .invalidateComplete | .memoryAtomic .. | .memoryReply .. | .dieLinkFlit .. | .peerFlit ..
  | .linkRetrain .. | .messageTransit .. | .peerRst .. | .peerRat .. | .peerCopyData .. | .peerReducingData ..
  | .peerChannelToken .. | .acknowledgement .. | .ratReply .. | .horizon .. | .replayTimeout .. | .powerOn ..
  | .reset | .clearFaultRecord | .invalidateContext | .invalidateRange | .resetContext | .cap .. | .hbeat ..
  | .preempt .. | .resume .. | .fqresume .. | .lctWrite .. | .newctl .. | .svcrsp | .verifyImage ..
  | .attestationQuote .. | .writeEntry .. | .readFabricState .. | .restoreFabricState .. | .publishHorizon ..
  | .setRetentionLog .. | .installGeneralFirmware .. | .ingressTailWrite .. | .egressHeadWrite ..
  | .attachmentWrite .. | .ingressPush .. | .egressSlotWrite .. | .apertureRead .. | .apertureWrite ..
  | .msixUnmask .. | .registerWrite .. | .undefinedInstruction .. | .occupancyExchange .. | .linkTrained ..
  | .potZeroingComplete .. | .ceilingRaise .. => true

end Sys2Proof
end

