-- ==== Sys2Proof/Decode.lean ====
section
/-! DEFINITION. The instruction words (R16 to R34, R47): decoding, total on every word, and encoding. -/

namespace Sys2Proof

/-! ## Fields and codes -/

/-- The field of a word that starts at bit `lo` and has `n` bits (R17). -/
def field (w : W32) (lo n : Nat) : BitVec n := w.extractLsb' lo n

/-- The type a code names (R20). -/
def Ty.ofCode (c : BitVec 4) : Option Ty :=
  match c.toNat with
  | 0 => some .f32
  | 1 => some .bf16
  | 2 => some .f16
  | 3 => some .e4m3
  | 4 => some .e5m2
  | 5 => some .qx4
  | 6 => some .s8
  | 7 => some .n8
  | 8 => some .s16
  | 9 => some .n16
  | 10 => some .s32
  | 11 => some .n32
  | 12 => some .s64
  | 13 => some .n64
  | 14 => some .e8m0
  | _ => none

/-- The rounding code (R13, R21). -/
def Rnd.code : Rnd → BitVec 3
  | .rn => 0 | .rz => 1 | .rp => 2 | .rm => 3 | .rs => 4

/-- The rounding a code names (R21). -/
def Rnd.ofCode (c : BitVec 3) : Option Rnd :=
  match c.toNat with
  | 0 => some .rn
  | 1 => some .rz
  | 2 => some .rp
  | 3 => some .rm
  | 4 => some .rs
  | _ => none

/-- The qualifier of LD and LDV (R26). -/
def LdQual.code : LdQual → BitVec 2
  | .plain => 0 | .acq => 1 | .fresh => 2

/-- The load qualifier a code names (R26). -/
def LdQual.ofCode (c : BitVec 2) : Option LdQual :=
  match c.toNat with
  | 0 => some .plain
  | 1 => some .acq
  | 2 => some .fresh
  | _ => none

/-- The qualifier of ST and STV (R26). -/
def StQual.code : StQual → BitVec 2
  | .plain => 0 | .rel => 1

/-- The store qualifier a code names (R26). -/
def StQual.ofCode (c : BitVec 2) : Option StQual :=
  match c.toNat with
  | 0 => some .plain
  | 1 => some .rel
  | _ => none

/-- The order field fn[10:8] (R27). -/
def MemOrder.code : MemOrder → BitVec 3
  | .relaxed => 0 | .acq => 1 | .rel => 2 | .acqrel => 3

/-- The order a code names (R27). -/
def MemOrder.ofCode (c : BitVec 3) : Option MemOrder :=
  match c.toNat with
  | 0 => some .relaxed
  | 1 => some .acq
  | 2 => some .rel
  | 3 => some .acqrel
  | _ => none

/-- The operation field fn[7:4] (R27). -/
def AmoOp.code : AmoOp → BitVec 4
  | .swap => 0 | .add => 1 | .and => 2 | .or => 3 | .xor => 4 | .min => 5 | .max => 6 | .cas => 7 | .fadd => 8

/-- The operation a code names (R27). -/
def AmoOp.ofCode (c : BitVec 4) : Option AmoOp :=
  match c.toNat with
  | 0 => some .swap
  | 1 => some .add
  | 2 => some .and
  | 3 => some .or
  | 4 => some .xor
  | 5 => some .min
  | 6 => some .max
  | 7 => some .cas
  | 8 => some .fadd
  | _ => none

/-- The kind of a FENCE (R28). -/
def FenceKind.code : FenceKind → BitVec 2
  | .full => 0 | .acq => 1 | .rel => 2

/-- The fence kind a code names (R28). -/
def FenceKind.ofCode (c : BitVec 2) : Option FenceKind :=
  match c.toNat with
  | 0 => some .full
  | 1 => some .acq
  | 2 => some .rel
  | _ => none

/-- The scope of a FENCE (R28). -/
def FenceScope.code : FenceScope → BitVec 3
  | .aliases => 0 | .thread => 1 | .core => 2 | .cluster => 3 | .package => 4 | .domain => 5

/-- The fence scope a code names (R28). -/
def FenceScope.ofCode (c : BitVec 3) : Option FenceScope :=
  match c.toNat with
  | 0 => some .aliases
  | 1 => some .thread
  | 2 => some .core
  | 3 => some .cluster
  | 4 => some .package
  | 5 => some .domain
  | _ => none

/-- The operation immediate of VRED (R34). -/
def RedOp.code : RedOp → BitVec 6
  | .add => 0 | .min => 1 | .max => 2 | .and => 3 | .or => 4 | .xor => 5

/-- The reduction an immediate names (R34). -/
def RedOp.ofCode (c : BitVec 6) : Option RedOp :=
  match c.toNat with
  | 0 => some .add
  | 1 => some .min
  | 2 => some .max
  | 3 => some .and
  | 4 => some .or
  | 5 => some .xor
  | _ => none

/-! ## Decoding -/

/-- Why a word is not an instruction: the check of R19 that fails. All four raise ILLEGAL. -/
inductive Reject where
  | major | secondary | zeroField | operand
deriving DecidableEq, Repr

/-- The last two checks of R19: fields that must be zero, then types and rounding codes. -/
def finish (zeros : Bool) (i : Instr) : Except Reject Instr :=
  if !zeros then .error .zeroField else if wellFormed i then .ok i else .error .operand

/-- Continue with a code's meaning, or reject with the check that the code belongs to. -/
def withCode {α : Type} (why : Reject) (o : Option α) (k : α → Except Reject Instr) : Except Reject Instr :=
  match o with
  | some x => k x
  | none => .error why

/-- The register fields of formats T3 and TS (R17). -/
def fD (w : W32) : BitVec 5 := field w 21 5
/-- Bits [20:16] (R17). -/
def fA (w : W32) : BitVec 5 := field w 16 5
/-- Bits [15:11] (R17). -/
def fB (w : W32) : BitVec 5 := field w 11 5
/-- Bits [15:0] (R17). -/
def fImm (w : W32) : BitVec 16 := field w 0 16
/-- A channel slot or k register in a 5-bit field (R18). -/
def low3 (r : BitVec 5) : BitVec 3 := r.extractLsb' 0 3
/-- The upper bits of such a field, which must be zero (R18). -/
def hi3Zero (r : BitVec 5) : Bool := r.extractLsb' 3 2 = 0

/-- Major 0x01 (R23). -/
def decodeInt (w : W32) : Except Reject Instr :=
  withCode .operand (Ty.ofCode (field w 0 4)) fun ty =>
  match (field w 4 7).toNat with
  | 0 => finish true (.add ty (fD w) (fA w) (fB w))
  | 1 => finish true (.sub ty (fD w) (fA w) (fB w))
  | 2 => finish true (.mul ty (fD w) (fA w) (fB w))
  | 3 => finish true (.mulh ty (fD w) (fA w) (fB w))
  | 4 => finish true (.div ty (fD w) (fA w) (fB w))
  | 5 => finish true (.rem ty (fD w) (fA w) (fB w))
  | 6 => finish true (.adds ty (fD w) (fA w) (fB w))
  | 7 => finish true (.subs ty (fD w) (fA w) (fB w))
  | 8 => finish true (.and ty (fD w) (fA w) (fB w))
  | 9 => finish true (.or ty (fD w) (fA w) (fB w))
  | 10 => finish true (.xor ty (fD w) (fA w) (fB w))
  | 11 => finish true (.andn ty (fD w) (fA w) (fB w))
  | 12 => finish true (.sll ty (fD w) (fA w) (fB w))
  | 13 => finish true (.srl ty (fD w) (fA w) (fB w))
  | 14 => finish true (.sra ty (fD w) (fA w) (fB w))
  | 15 => finish true (.rotl ty (fD w) (fA w) (fB w))
  | 16 => finish true (.seq ty (fD w) (fA w) (fB w))
  | 17 => finish true (.slt ty (fD w) (fA w) (fB w))
  | 18 => finish true (.sle ty (fD w) (fA w) (fB w))
  | 19 => finish true (.min ty (fD w) (fA w) (fB w))
  | 20 => finish true (.max ty (fD w) (fA w) (fB w))
  | 21 => finish true (.sel ty (fD w) (fA w) (fB w))
  | 22 => finish true (.bfx ty (fD w) (fA w) (fB w))
  | 23 => finish true (.bfi ty (fD w) (fA w) (fB w))
  | 24 => finish (fB w = 0) (.clz ty (fD w) (fA w))
  | 25 => finish (fB w = 0) (.popc ty (fD w) (fA w))
  | _ => .error .secondary

/-- Major 0x09, the immediate shifts (R24). -/
def decodeShift (w : W32) : Except Reject Instr :=
  match (field w 6 2).toNat with
  | 0 => finish (field w 8 8 = 0) (.slli (fD w) (fA w) (field w 0 6))
  | 1 => finish (field w 8 8 = 0) (.srli (fD w) (fA w) (field w 0 6))
  | 2 => finish (field w 8 8 = 0) (.srai (fD w) (fA w) (field w 0 6))
  | _ => finish (field w 8 8 = 0) (.rotli (fD w) (fA w) (field w 0 6))

/-- Majors 0x14 to 0x17, LD, ST, LDV and STV (R25, R26). -/
def decodeLoadStore (major : Nat) (w : W32) : Except Reject Instr :=
  match major with
  | 0x14 => withCode .secondary (LdQual.ofCode (field w 0 2)) fun q =>
      finish true (.ld q (field w 2 3) (fD w) (fA w) (field w 5 11))
  | 0x15 => withCode .secondary (StQual.ofCode (field w 0 2)) fun q =>
      finish true (.st q (field w 2 3) (fD w) (fA w) (field w 5 11))
  | 0x16 => withCode .secondary (LdQual.ofCode (field w 0 2)) fun q =>
      finish (field w 2 3 = 0 && field w 25 1 = 0) (.ldv q (field w 21 4) (fA w) (field w 5 11))
  | _ => withCode .secondary (StQual.ofCode (field w 0 2)) fun q =>
      finish (field w 2 3 = 0 && field w 25 1 = 0) (.stv q (field w 21 4) (fA w) (field w 5 11))

/-- Majors 0x18 and 0x19, the full-empty words (R25, R26). -/
def decodeFullEmpty (major : Nat) (w : W32) : Except Reject Instr :=
  match major, (field w 0 2).toNat with
  | 0x18, 0 => finish true (.ldw (field w 2 3) (fD w) (fA w) (field w 5 11))
  | 0x18, 1 => finish true (.ldc (field w 2 3) (fD w) (fA w) (field w 5 11))
  | 0x19, 0 => finish true (.stf (field w 2 3) (fD w) (fA w) (field w 5 11))
  | 0x19, 1 => finish (field w 2 3 = 0 && fD w = 0) (.clrf (fA w) (field w 5 11))
  | _, _ => .error .secondary

/-- Major 0x1A (R27). -/
def decodeAmo (w : W32) : Except Reject Instr :=
  withCode .secondary (MemOrder.ofCode (field w 8 3)) fun ord =>
  withCode .secondary (AmoOp.ofCode (field w 4 4)) fun op =>
  withCode .operand (Ty.ofCode (field w 0 4)) fun ty =>
  finish true (.amo op ord ty (fD w) (fA w) (fB w))

/-- Major 0x1C (R27). -/
def decodeRemote (w : W32) : Except Reject Instr :=
  withCode .secondary (MemOrder.ofCode (field w 8 3)) fun ord =>
  withCode .operand (Ty.ofCode (field w 0 4)) fun ty =>
  match (field w 4 4).toNat with
  | 15 => finish (fD w = 0) (.rst ord ty (fA w) (fB w))
  | _ => withCode .secondary (AmoOp.ofCode (field w 4 4)) fun op =>
      finish true (.rat op ord ty (fD w) (fA w) (fB w))

/-- Major 0x1B (R28). -/
def decodeFence (w : W32) : Except Reject Instr :=
  withCode .secondary (FenceKind.ofCode (field w 3 2)) fun kind =>
  withCode .secondary (FenceScope.ofCode (field w 0 3)) fun scope =>
  finish (field w 5 21 = 0) (.fence kind scope)

/-- Major 0x1D (R29). -/
def decodeChannel (w : W32) : Except Reject Instr :=
  let lo := field w 0 4
  match (field w 4 7).toNat with
  | 0 => finish (fD w = 0 && hi3Zero (fA w) && lo = 0) (.send (low3 (fA w)) (fB w))
  | 1 => finish (fB w = 0 && hi3Zero (fA w) && lo = 0) (.recv (fD w) (low3 (fA w)))
  | 2 => finish (fD w = 0 && hi3Zero (fA w) && field w 3 1 = 0) (.bindIn (low3 (fA w)) (fB w) (field w 0 3))
  | 3 => finish (fD w = 0 && hi3Zero (fA w) && field w 3 1 = 0) (.bindOut (low3 (fA w)) (fB w) (field w 0 3))
  | 4 => finish (fD w = 0 && fB w = 0 && hi3Zero (fA w) && lo = 0) (.unbind (low3 (fA w)))
  | 5 => finish (fB w = 0 && hi3Zero (fA w) && lo = 0) (.poll (fD w) (low3 (fA w)))
  | 6 => finish (fD w = 0 && hi3Zero (fA w) && lo = 0) (.bindPort (low3 (fA w)) (fB w))
  | _ => .error .secondary

/-- Major 0x1E (R29). -/
def decodeGroup (w : W32) : Except Reject Instr :=
  let lo := field w 0 4
  match (field w 4 7).toNat with
  | 0 => finish (fB w = 0 && lo = 0) (.join (fD w) (fA w))
  | 1 => finish (fD w = 0 && fB w = 0 && lo = 0) (.leave (fA w))
  | 2 => finish (fD w = 0 && fB w = 0 && lo = 0) (.gbar (fA w))
  | 3 => finish (fB w = 0 && lo = 0) (.gsize (fD w) (fA w))
  | 4 => finish (fB w = 0 && lo = 0) (.grank (fD w) (fA w))
  | _ => .error .secondary

/-- Major 0x1F (R29). -/
def decodeObject (w : W32) : Except Reject Instr :=
  let lo := field w 0 4
  match (field w 4 7).toNat with
  | 0 => finish (fB w = 0 && lo = 0) (.xnew (fD w) (fA w))
  | 1 => finish (fD w = 0 && fB w = 0 && lo = 0) (.xfree (fA w))
  | 2 => finish (lo = 0) (.xreq (fD w) (fA w) (fB w))
  | 3 => finish (fD w = 0 && fB w = 0 && lo = 0) (.xwait (fA w))
  | 4 => finish (fB w = 0 && lo = 0) (.xtry (fD w) (fA w))
  | 5 => finish (fD w = 0 && lo = 0) (.xgive (fA w) (fB w))
  | 6 => finish (fD w = 0 && lo = 0) (.xswap (fA w) (fB w))
  | 7 => finish (fD w = 0 && fB w = 0 && lo = 0) (.xdrop (fA w))
  | 8 => finish (fD w = 0 && fB w = 0 && lo = 0) (.xrel (fA w))
  | 9 => finish (fB w = 0 && lo = 0) (.xstat (fD w) (fA w))
  | _ => .error .secondary

/-- Major 0x20 (R29). -/
def decodeKey (w : W32) : Except Reject Instr :=
  let lo := field w 0 4
  match (field w 4 7).toNat with
  | 0 => finish (hi3Zero (fD w) && lo = 0) (.kset (low3 (fD w)) (fA w) (fB w))
  | 1 => finish (hi3Zero (fD w) && fB w = 0 && lo = 0) (.kstep (low3 (fD w)) (fA w))
  | 2 => finish (hi3Zero (fA w) && fB w = 0 && field w 1 3 = 0) (.kget (fD w) (low3 (fA w)) (field w 0 1))
  | 3 => finish (hi3Zero (fA w)) (.rdraw (fD w) (low3 (fA w)) (fB w) lo)
  | _ => .error .secondary

/-- Major 0x21 (R29). -/
def decodeBarrier (w : W32) : Except Reject Instr :=
  let lo := field w 0 4
  match (field w 4 7).toNat with
  | 0 => finish (fD w = 0 && lo = 0) (.bcinit (fA w) (fB w))
  | 1 => finish (fD w = 0 && lo = 0) (.bcpost (fA w) (fB w))
  | 2 => finish (fB w = 0 && lo = 0) (.bcwait (fD w) (fA w))
  | _ => .error .secondary

/-- Major 0x22 (R29). -/
def decodeConfig (w : W32) : Except Reject Instr :=
  let lo := field w 0 4
  match (field w 4 7).toNat with
  | 0 => finish (lo = 0) (.cfgld (fD w) (fA w) (fB w))
  | 1 => finish (fD w = 0 && fB w = 0 && lo = 0) (.cfgswap (fA w))
  | 2 => finish (fD w = 0 && fB w = 0 && lo = 0) (.cfgdrop (fA w))
  | 3 => finish (fD w = 0 && field w 1 3 = 0) (.launch (field w 0 1 = 1) (fA w) (fB w))
  | 4 => finish (fD w = 0 && fB w = 0 && lo = 0) (.lwait (fA w))
  | 5 => finish (fD w = 0 && lo = 0) (.inject (fA w) (fB w))
  | 6 => finish (fD w = 0 && fB w = 0 && lo = 0) (.mark (fA w))
  | _ => .error .secondary

/-- Major 0x23 (R29). -/
def decodeCopy (w : W32) : Except Reject Instr :=
  let lo := field w 0 4
  match (field w 4 7).toNat with
  | 0 => finish (fB w = 0 && lo = 0) (.copy (fD w) (fA w))
  | 1 => finish (fD w = 0 && fB w = 0 && lo = 0) (.cpwait (fA w))
  | _ => .error .secondary

/-- Major 0x24 (R29). -/
def decodeRate (w : W32) : Except Reject Instr :=
  let lo := field w 0 4
  match (field w 4 7).toNat with
  | 0 => finish (lo = 0) (.rate (fD w) (fA w) (fB w))
  | 1 => finish (fB w = 0 && lo = 0) (.solve (fD w) (fA w))
  | 2 => finish (lo = 0) (.rstat (fD w) (fA w) (fB w))
  | _ => .error .secondary

/-- Major 0x25 (R30). -/
def decodeSystem (w : W32) : Except Reject Instr :=
  let p := field w 0 7
  match (field w 7 4).toNat with
  | 0 => finish (fD w = 0 && fA w = 0 && fB w = 0) (.trap p)
  | 1 => finish (fD w = 0 && fA w = 0 && fB w = 0 && p = 0) (.rett)
  | 2 => finish (fA w = 0 && fB w = 0) (.csrr (fD w) p)
  | 3 => finish (fB w = 0) (.csrw (fD w) (fA w) p)
  | 4 => finish (fB w = 0) (.csrs (fD w) (fA w) p)
  | 5 => finish (fB w = 0) (.csrc (fD w) (fA w) p)
  | 7 => finish (true) (.spawn (fD w) (fA w) (fB w ++ p))
  | 8 => finish (fD w = 0 && fA w = 0 && fB w = 0 && p = 0) (.exit)
  | 9 => finish (fD w = 0 && fA w = 0 && fB w = 0 && p = 0) (.yield)
  | 10 => finish (fD w = 0 && fB w = 0 && p = 0) (.wait (fA w))
  | 11 => finish (fB w = 0 && p = 0) (.waitany (fD w) (fA w))
  | 12 => finish (fD w = 0 && fB w = 0 && p = 0) (.migrate (fA w))
  | 13 => finish (fD w = 0 && fA w = 0 && fB w = 0) (.brk p)
  | 14 => finish (fD w = 0 && fA w = 0 && fB w = 0 && p = 0) (.nop)
  | 15 => finish (fA w = 0 && fB w = 0 && p = 0) (.chkerr (fD w))
  | _ => .error .secondary

/-- The vector register fields of format TV (R17). -/
def fVd (w : W32) : BitVec 4 := field w 22 4
/-- Bits [21:18] (R17). -/
def fVa (w : W32) : BitVec 4 := field w 18 4
/-- Bits [17:14] (R17). -/
def fVb (w : W32) : BitVec 4 := field w 14 4

/-- Major 0x26 (R32). -/
def decodeVector (w : W32) : Except Reject Instr :=
  withCode .operand (Ty.ofCode (field w 0 4)) fun ty =>
  withCode .operand (Rnd.ofCode (field w 11 3)) fun rnd =>
  let sat : Bool := field w 10 1 = 1
  if rnd = .rs then .error .operand else
  match (field w 4 6).toNat with
  | 0 => finish true (.vadd rnd sat ty (fVd w) (fVa w) (fVb w))
  | 1 => finish true (.vsub rnd sat ty (fVd w) (fVa w) (fVb w))
  | 2 => finish true (.vmul rnd sat ty (fVd w) (fVa w) (fVb w))
  | 3 => finish true (.vfma rnd sat ty (fVd w) (fVa w) (fVb w))
  | 4 => finish true (.vmin rnd sat ty (fVd w) (fVa w) (fVb w))
  | 5 => finish true (.vmax rnd sat ty (fVd w) (fVa w) (fVb w))
  | 6 => finish (fVb w = 0) (.vabs rnd sat ty (fVd w) (fVa w))
  | 7 => finish (fVb w = 0) (.vneg rnd sat ty (fVd w) (fVa w))
  | 8 => finish true (.vand rnd sat ty (fVd w) (fVa w) (fVb w))
  | 9 => finish true (.vor rnd sat ty (fVd w) (fVa w) (fVb w))
  | 10 => finish true (.vxor rnd sat ty (fVd w) (fVa w) (fVb w))
  | 11 => finish true (.vshl rnd sat ty (fVd w) (fVa w) (fVb w))
  | 12 => finish true (.vshr rnd sat ty (fVd w) (fVa w) (fVb w))
  | 13 => finish true (.vsra rnd sat ty (fVd w) (fVa w) (fVb w))
  | 14 => finish true (.vcmpeq rnd sat ty (fVd w) (fVa w) (fVb w))
  | 15 => finish true (.vcmplt rnd sat ty (fVd w) (fVa w) (fVb w))
  | 16 => finish true (.vcmple rnd sat ty (fVd w) (fVa w) (fVb w))
  | 17 => finish true (.vsel rnd sat ty (fVd w) (fVa w) (fVb w))
  | 18 => finish (fVb w = 0) (.vexp2 rnd sat ty (fVd w) (fVa w))
  | 19 => finish (fVb w = 0) (.vlog2 rnd sat ty (fVd w) (fVa w))
  | 20 => finish (fVb w = 0) (.vrcp rnd sat ty (fVd w) (fVa w))
  | 21 => finish (fVb w = 0) (.vrsqrt rnd sat ty (fVd w) (fVa w))
  | 22 => finish true (.vmulh rnd sat ty (fVd w) (fVa w) (fVb w))
  | _ => .error .secondary

/-- Major 0x27, VCVT (R33). -/
def decodeVcvt (w : W32) : Except Reject Instr :=
  withCode .operand (Rnd.ofCode (field w 8 3)) fun rnd =>
  withCode .operand (Ty.ofCode (field w 4 4)) fun dt =>
  withCode .operand (Ty.ofCode (field w 0 4)) fun st =>
  finish true (.vcvt rnd dt st (fVd w) (fVa w) (field w 11 3) (field w 14 4))

/-- Major 0x28 (R34). -/
def decodePermute (w : W32) : Except Reject Instr :=
  withCode .operand (Ty.ofCode (field w 0 4)) fun ty =>
  let e := field w 4 6
  match (field w 10 4).toNat with
  | 0 => finish (e = 0) (.vperm ty (fVd w) (fVa w) (fVb w))
  | 1 => finish (e = 0 && field w 14 3 = 0) (.vbcast ty (fVd w) (field w 17 5))
  | 2 => finish (field w 14 3 = 0) (.vins ty (fVd w) (field w 17 5) e)
  | 3 => finish (field w 14 3 = 0) (.vext ty (field w 17 5) (fVd w) e)
  | 4 => finish (fVb w = 0) (.vrot ty (fVd w) (fVa w) e)
  | 5 => withCode .secondary (RedOp.ofCode e) fun op => finish (fVb w = 0) (.vred op ty (fVd w) (fVa w))
  | _ => .error .secondary

/-- Decode one instruction word (R16, R19, R22). Every word either is exactly one well-formed instruction or is rejected
by the name of the check it fails; a rejected word raises ILLEGAL (R47). -/
def decode (w : W32) : Except Reject Instr :=
  match (field w 26 6).toNat with
  | 0x01 => decodeInt w
  | 0x02 => finish true (.addi (fD w) (fA w) (fImm w))
  | 0x03 => finish true (.andi (fD w) (fA w) (fImm w))
  | 0x04 => finish true (.ori (fD w) (fA w) (fImm w))
  | 0x05 => finish true (.xori (fD w) (fA w) (fImm w))
  | 0x06 => finish true (.slti (fD w) (fA w) (fImm w))
  | 0x07 => finish (field w 18 3 = 0) (.lui (fD w) (field w 16 2) (fImm w))
  | 0x08 => finish (fA w = 0) (.addpc (fD w) (fImm w))
  | 0x09 => decodeShift w
  | 0x0A => finish true (.beq (fD w) (fA w) (fImm w))
  | 0x0B => finish true (.bne (fD w) (fA w) (fImm w))
  | 0x0C => finish true (.blt (fD w) (fA w) (fImm w))
  | 0x0D => finish true (.bge (fD w) (fA w) (fImm w))
  | 0x0E => finish true (.bltn (fD w) (fA w) (fImm w))
  | 0x0F => finish true (.bgen (fD w) (fA w) (fImm w))
  | 0x10 => finish true (.j (field w 0 26))
  | 0x11 => finish true (.jl (field w 0 26))
  | 0x12 => finish true (.jlr (fD w) (fA w) (fImm w))
  | 0x13 => finish (fA w = 0) (.loop (fD w) (fImm w))
  | 0x14 => decodeLoadStore 0x14 w
  | 0x15 => decodeLoadStore 0x15 w
  | 0x16 => decodeLoadStore 0x16 w
  | 0x17 => decodeLoadStore 0x17 w
  | 0x18 => decodeFullEmpty 0x18 w
  | 0x19 => decodeFullEmpty 0x19 w
  | 0x1A => decodeAmo w
  | 0x1B => decodeFence w
  | 0x1C => decodeRemote w
  | 0x1D => decodeChannel w
  | 0x1E => decodeGroup w
  | 0x1F => decodeObject w
  | 0x20 => decodeKey w
  | 0x21 => decodeBarrier w
  | 0x22 => decodeConfig w
  | 0x23 => decodeCopy w
  | 0x24 => decodeRate w
  | 0x25 => decodeSystem w
  | 0x26 => decodeVector w
  | 0x27 => decodeVcvt w
  | 0x28 => decodePermute w
  | _ => .error .major

/-- The instruction word in four bytes, little-endian (R16). -/
def wordOfBytes (b : List Byte) : W32 :=
  b.getD 3 0 ++ b.getD 2 0 ++ b.getD 1 0 ++ b.getD 0 0

/-- The four bytes of a word, lowest address first (R16). -/
def bytesOfWord (w : W32) : List Byte :=
  [w.extractLsb' 0 8, w.extractLsb' 8 8, w.extractLsb' 16 8, w.extractLsb' 24 8]

/-- Decode the instruction at the head of a byte sequence: the instruction and the bytes after it. -/
def decodeBytes (b : List Byte) : Except Reject (Instr × List Byte) :=
  match decode (wordOfBytes b) with
  | .ok i => .ok (i, b.drop 4)
  | .error e => .error e

/-- The instruction the decoder reads from a word whose bits are numbered as the opcode table numbers them. -/
def decodeTableWord (_nbits w : Nat) : Option Instr :=
  match decodeBytes (bytesOfWord (BitVec.ofNat 32 w)) with
  | .ok (i, _) => some i
  | .error _ => none

/-! ## Encoding -/

/-- Format T3 (R17). -/
def packT3 (op : BitVec 6) (d a b : BitVec 5) (fn : BitVec 7) (ty : BitVec 4) : W32 := op ++ d ++ a ++ b ++ fn ++ ty
/-- Format T3 with the order and operation of an atomic (R27). -/
def packAtom (op : BitVec 6) (d a b : BitVec 5) (ord : BitVec 3) (fn : BitVec 4) (ty : BitVec 4) : W32 :=
  op ++ d ++ a ++ b ++ ord ++ fn ++ ty
/-- Formats TI and TB (R17). -/
def packTI (op : BitVec 6) (d a : BitVec 5) (imm : BitVec 16) : W32 := op ++ d ++ a ++ imm
/-- Format TJ (R17). -/
def packTJ (op : BitVec 6) (off : BitVec 26) : W32 := op ++ off
/-- Format TM (R17). -/
def packTM (op : BitVec 6) (d base : BitVec 5) (off : BitVec 11) (size : BitVec 3) (q : BitVec 2) : W32 :=
  op ++ d ++ base ++ off ++ size ++ q
/-- Format TS with a function in sub[10:4] (R29). -/
def packTS (op : BitVec 6) (d a b : BitVec 5) (fn : BitVec 7) (lo : BitVec 4) : W32 := op ++ d ++ a ++ b ++ fn ++ lo
/-- Format TS with a function in sub[10:7] (R30). -/
def packSys (d a b : BitVec 5) (fn : BitVec 4) (p : BitVec 7) : W32 := (0x25 : BitVec 6) ++ d ++ a ++ b ++ fn ++ p
/-- Format TV of major 0x26 (R32). -/
def packTV (vd va vb : BitVec 4) (rnd : BitVec 3) (sat : Bool) (fn : BitVec 6) (ty : BitVec 4) : W32 :=
  (0x26 : BitVec 6) ++ vd ++ va ++ vb ++ rnd ++ BitVec.ofBool sat ++ fn ++ ty
/-- Format TV of major 0x28 with vector operands (R34). -/
def packVP (vd va vb : BitVec 4) (fn : BitVec 4) (e : BitVec 6) (ty : BitVec 4) : W32 :=
  (0x28 : BitVec 6) ++ vd ++ va ++ vb ++ fn ++ e ++ ty
/-- Format TV of major 0x28 with a g register (R34). -/
def packVG (v : BitVec 4) (g : BitVec 5) (fn : BitVec 4) (e : BitVec 6) (ty : BitVec 4) : W32 :=
  (0x28 : BitVec 6) ++ v ++ g ++ (0 : BitVec 3) ++ fn ++ e ++ ty
/-- Format TV of major 0x27 (R33). -/
def packVC (vd va cg : BitVec 4) (k rnd : BitVec 3) (dt st : BitVec 4) : W32 :=
  (0x27 : BitVec 6) ++ vd ++ va ++ cg ++ k ++ rnd ++ dt ++ st
/-- The word of FENCE (R28). -/
def packFence (kind : BitVec 2) (scope : BitVec 3) : W32 := (0x1B : BitVec 6) ++ (0 : BitVec 21) ++ kind ++ scope
/-- A channel slot or k register in a 5-bit field (R18). -/
def wide3 (x : BitVec 3) : BitVec 5 := (0 : BitVec 2) ++ x

/-- The word of an instruction (R16 to R34); an event has none. -/
def encode : Instr → Option W32
  | .add ty d a b => some (packT3 0x01 d a b 0 ty.code)
  | .sub ty d a b => some (packT3 0x01 d a b 1 ty.code)
  | .mul ty d a b => some (packT3 0x01 d a b 2 ty.code)
  | .mulh ty d a b => some (packT3 0x01 d a b 3 ty.code)
  | .div ty d a b => some (packT3 0x01 d a b 4 ty.code)
  | .rem ty d a b => some (packT3 0x01 d a b 5 ty.code)
  | .adds ty d a b => some (packT3 0x01 d a b 6 ty.code)
  | .subs ty d a b => some (packT3 0x01 d a b 7 ty.code)
  | .and ty d a b => some (packT3 0x01 d a b 8 ty.code)
  | .or ty d a b => some (packT3 0x01 d a b 9 ty.code)
  | .xor ty d a b => some (packT3 0x01 d a b 10 ty.code)
  | .andn ty d a b => some (packT3 0x01 d a b 11 ty.code)
  | .sll ty d a b => some (packT3 0x01 d a b 12 ty.code)
  | .srl ty d a b => some (packT3 0x01 d a b 13 ty.code)
  | .sra ty d a b => some (packT3 0x01 d a b 14 ty.code)
  | .rotl ty d a b => some (packT3 0x01 d a b 15 ty.code)
  | .seq ty d a b => some (packT3 0x01 d a b 16 ty.code)
  | .slt ty d a b => some (packT3 0x01 d a b 17 ty.code)
  | .sle ty d a b => some (packT3 0x01 d a b 18 ty.code)
  | .min ty d a b => some (packT3 0x01 d a b 19 ty.code)
  | .max ty d a b => some (packT3 0x01 d a b 20 ty.code)
  | .sel ty d a b => some (packT3 0x01 d a b 21 ty.code)
  | .bfx ty d a b => some (packT3 0x01 d a b 22 ty.code)
  | .bfi ty d a b => some (packT3 0x01 d a b 23 ty.code)
  | .clz ty d a => some (packT3 0x01 d a 0 24 ty.code)
  | .popc ty d a => some (packT3 0x01 d a 0 25 ty.code)
  | .addi d a imm => some (packTI 0x02 d a imm)
  | .andi d a imm => some (packTI 0x03 d a imm)
  | .ori d a imm => some (packTI 0x04 d a imm)
  | .xori d a imm => some (packTI 0x05 d a imm)
  | .slti d a imm => some (packTI 0x06 d a imm)
  | .lui d h imm => some (packTI 0x07 d ((0 : BitVec 3) ++ h) imm)
  | .addpc d imm => some (packTI 0x08 d 0 imm)
  | .slli d a n => some (packTI 0x09 d a ((0 : BitVec 8) ++ (0 : BitVec 2) ++ n))
  | .srli d a n => some (packTI 0x09 d a ((0 : BitVec 8) ++ (1 : BitVec 2) ++ n))
  | .srai d a n => some (packTI 0x09 d a ((0 : BitVec 8) ++ (2 : BitVec 2) ++ n))
  | .rotli d a n => some (packTI 0x09 d a ((0 : BitVec 8) ++ (3 : BitVec 2) ++ n))
  | .beq a b off => some (packTI 0x0A a b off)
  | .bne a b off => some (packTI 0x0B a b off)
  | .blt a b off => some (packTI 0x0C a b off)
  | .bge a b off => some (packTI 0x0D a b off)
  | .bltn a b off => some (packTI 0x0E a b off)
  | .bgen a b off => some (packTI 0x0F a b off)
  | .j off => some (packTJ 0x10 off)
  | .jl off => some (packTJ 0x11 off)
  | .jlr d a imm => some (packTI 0x12 d a imm)
  | .loop a off => some (packTI 0x13 a 0 off)
  | .ld q size d base off => some (packTM 0x14 d base off size q.code)
  | .st q size d base off => some (packTM 0x15 d base off size q.code)
  | .ldv q v base off => some (packTM 0x16 ((0 : BitVec 1) ++ v) base off 0 q.code)
  | .stv q v base off => some (packTM 0x17 ((0 : BitVec 1) ++ v) base off 0 q.code)
  | .ldw size d base off => some (packTM 0x18 d base off size 0)
  | .ldc size d base off => some (packTM 0x18 d base off size 1)
  | .stf size d base off => some (packTM 0x19 d base off size 0)
  | .clrf base off => some (packTM 0x19 0 base off 0 1)
  | .amo op ord ty d a b => some (packAtom 0x1A d a b ord.code op.code ty.code)
  | .fence kind scope => some (packFence kind.code scope.code)
  | .rst ord ty a b => some (packAtom 0x1C 0 a b ord.code 15 ty.code)
  | .rat op ord ty d a b => some (packAtom 0x1C d a b ord.code op.code ty.code)
  | .send ch b => some (packTS 0x1D 0 (wide3 ch) b 0 0)
  | .recv d ch => some (packTS 0x1D d (wide3 ch) 0 1 0)
  | .bindIn ch b slot => some (packTS 0x1D 0 (wide3 ch) b 2 ((0 : BitVec 1) ++ slot))
  | .bindOut ch b slot => some (packTS 0x1D 0 (wide3 ch) b 3 ((0 : BitVec 1) ++ slot))
  | .unbind ch => some (packTS 0x1D 0 (wide3 ch) 0 4 0)
  | .poll d ch => some (packTS 0x1D d (wide3 ch) 0 5 0)
  | .bindPort ch b => some (packTS 0x1D 0 (wide3 ch) b 6 0)
  | .join d a => some (packTS 0x1E d a 0 0 0)
  | .leave a => some (packTS 0x1E 0 a 0 1 0)
  | .gbar a => some (packTS 0x1E 0 a 0 2 0)
  | .gsize d a => some (packTS 0x1E d a 0 3 0)
  | .grank d a => some (packTS 0x1E d a 0 4 0)
  | .xnew d a => some (packTS 0x1F d a 0 0 0)
  | .xfree a => some (packTS 0x1F 0 a 0 1 0)
  | .xreq d a b => some (packTS 0x1F d a b 2 0)
  | .xwait a => some (packTS 0x1F 0 a 0 3 0)
  | .xtry d a => some (packTS 0x1F d a 0 4 0)
  | .xgive a b => some (packTS 0x1F 0 a b 5 0)
  | .xswap a b => some (packTS 0x1F 0 a b 6 0)
  | .xdrop a => some (packTS 0x1F 0 a 0 7 0)
  | .xrel a => some (packTS 0x1F 0 a 0 8 0)
  | .xstat d a => some (packTS 0x1F d a 0 9 0)
  | .kset k a b => some (packTS 0x20 (wide3 k) a b 0 0)
  | .kstep k a => some (packTS 0x20 (wide3 k) a 0 1 0)
  | .kget d k part => some (packTS 0x20 d (wide3 k) 0 2 ((0 : BitVec 3) ++ part))
  | .rdraw d k b index => some (packTS 0x20 d (wide3 k) b 3 index)
  | .bcinit a b => some (packTS 0x21 0 a b 0 0)
  | .bcpost a b => some (packTS 0x21 0 a b 1 0)
  | .bcwait d a => some (packTS 0x21 d a 0 2 0)
  | .cfgld d a b => some (packTS 0x22 d a b 0 0)
  | .cfgswap a => some (packTS 0x22 0 a 0 1 0)
  | .cfgdrop a => some (packTS 0x22 0 a 0 2 0)
  | .launch wave a b => some (packTS 0x22 0 a b 3 ((0 : BitVec 3) ++ BitVec.ofBool wave))
  | .lwait a => some (packTS 0x22 0 a 0 4 0)
  | .inject a b => some (packTS 0x22 0 a b 5 0)
  | .mark a => some (packTS 0x22 0 a 0 6 0)
  | .copy d a => some (packTS 0x23 d a 0 0 0)
  | .cpwait a => some (packTS 0x23 0 a 0 1 0)
  | .rate d a b => some (packTS 0x24 d a b 0 0)
  | .solve d a => some (packTS 0x24 d a 0 1 0)
  | .rstat d a b => some (packTS 0x24 d a b 2 0)
  | .trap n => some (packSys 0 0 0 0 n)
  | .rett => some (packSys 0 0 0 1 0)
  | .csrr d csr => some (packSys d 0 0 2 csr)
  | .csrw d a csr => some (packSys d a 0 3 csr)
  | .csrs d a csr => some (packSys d a 0 4 csr)
  | .csrc d a csr => some (packSys d a 0 5 csr)
  | .spawn d a off => some (packSys d a (off.extractLsb' 7 5) 7 (off.extractLsb' 0 7))
  | .exit => some (packSys 0 0 0 8 0)
  | .yield => some (packSys 0 0 0 9 0)
  | .wait a => some (packSys 0 a 0 10 0)
  | .waitany d a => some (packSys d a 0 11 0)
  | .migrate a => some (packSys 0 a 0 12 0)
  | .brk n => some (packSys 0 0 0 13 n)
  | .nop => some (packSys 0 0 0 14 0)
  | .chkerr d => some (packSys d 0 0 15 0)
  | .vadd rnd sat ty d a b => some (packTV d a b rnd.code sat 0 ty.code)
  | .vsub rnd sat ty d a b => some (packTV d a b rnd.code sat 1 ty.code)
  | .vmul rnd sat ty d a b => some (packTV d a b rnd.code sat 2 ty.code)
  | .vfma rnd sat ty d a b => some (packTV d a b rnd.code sat 3 ty.code)
  | .vmin rnd sat ty d a b => some (packTV d a b rnd.code sat 4 ty.code)
  | .vmax rnd sat ty d a b => some (packTV d a b rnd.code sat 5 ty.code)
  | .vabs rnd sat ty d a => some (packTV d a 0 rnd.code sat 6 ty.code)
  | .vneg rnd sat ty d a => some (packTV d a 0 rnd.code sat 7 ty.code)
  | .vand rnd sat ty d a b => some (packTV d a b rnd.code sat 8 ty.code)
  | .vor rnd sat ty d a b => some (packTV d a b rnd.code sat 9 ty.code)
  | .vxor rnd sat ty d a b => some (packTV d a b rnd.code sat 10 ty.code)
  | .vshl rnd sat ty d a b => some (packTV d a b rnd.code sat 11 ty.code)
  | .vshr rnd sat ty d a b => some (packTV d a b rnd.code sat 12 ty.code)
  | .vsra rnd sat ty d a b => some (packTV d a b rnd.code sat 13 ty.code)
  | .vcmpeq rnd sat ty d a b => some (packTV d a b rnd.code sat 14 ty.code)
  | .vcmplt rnd sat ty d a b => some (packTV d a b rnd.code sat 15 ty.code)
  | .vcmple rnd sat ty d a b => some (packTV d a b rnd.code sat 16 ty.code)
  | .vsel rnd sat ty d a b => some (packTV d a b rnd.code sat 17 ty.code)
  | .vexp2 rnd sat ty d a => some (packTV d a 0 rnd.code sat 18 ty.code)
  | .vlog2 rnd sat ty d a => some (packTV d a 0 rnd.code sat 19 ty.code)
  | .vrcp rnd sat ty d a => some (packTV d a 0 rnd.code sat 20 ty.code)
  | .vrsqrt rnd sat ty d a => some (packTV d a 0 rnd.code sat 21 ty.code)
  | .vmulh rnd sat ty d a b => some (packTV d a b rnd.code sat 22 ty.code)
  | .vcvt rnd dt st d a k cg => some (packVC d a cg k rnd.code dt.code st.code)
  | .vperm ty d a b => some (packVP d a b 0 0 ty.code)
  | .vbcast ty d g => some (packVG d g 1 0 ty.code)
  | .vins ty d g e => some (packVG d g 2 e ty.code)
  | .vext ty d a e => some (packVG a d 3 e ty.code)
  | .vrot ty d a n => some (packVP d a 0 4 n ty.code)
  | .vred op ty d a => some (packVP d a 0 5 op.code ty.code)
  | .wakeWord .. | .sliceExpiry .. | .waitCountExpiry .. | .instructionLineFill .. | .storeDrain ..
  | .impreciseReport .. | .releaseWalk .. | .launchAdmission .. | .launchEnd .. | .checkpointComplete ..
  | .preemptionComplete .. | .copyTile .. | .copyForward .. | .monitorWindowEnd .. | .regulatorSettled ..
  | .settleTimeout .. | .telemetrySample .. | .droop .. | .droopRecovery .. | .inputBelow38V .. | .quiesce ..
  | .sequencerStop .. | .inputRestored .. | .holdUpExhausted | .thermalTrip .. | .capFloorTimeout
  | .replicaFailure .. | .configScrub .. | .configReload .. | .tileSwap .. | .tileConfigToken .. | .loadComplete ..
  | .solveComplete .. | .stageFiring .. | .switchForward .. | .scratchpadWrite .. | .streamBufferPush ..
  | .streamBufferPop .. | .atomicPipelineUpdate .. | .mandolineWindow .. | .controllerPermit .. | .controllerDone ..
  | .steer .. | .merge .. | .loopCarry .. | .spoutReadRound .. | .spoutWriteRound .. | .spoutReinject ..
  | .indirectGather .. | .networkPortTransfer .. | .translationWalk .. | .invalidateComplete | .memoryAtomic ..
  | .memoryReply .. | .dieLinkFlit .. | .peerFlit .. | .linkRetrain .. | .messageTransit .. | .peerRst ..
  | .peerRat .. | .peerCopyData .. | .peerReducingData .. | .peerChannelToken .. | .acknowledgement .. | .ratReply ..
  | .horizon .. | .replayTimeout .. | .powerOn .. | .reset | .clearFaultRecord | .invalidateContext
  | .invalidateRange | .resetContext | .cap .. | .hbeat .. | .preempt .. | .resume .. | .fqresume .. | .lctWrite ..
  | .newctl .. | .svcrsp | .verifyImage .. | .attestationQuote .. | .writeEntry .. | .readFabricState ..
  | .restoreFabricState .. | .publishHorizon .. | .setRetentionLog .. | .installGeneralFirmware ..
  | .ingressTailWrite .. | .egressHeadWrite .. | .attachmentWrite .. | .ingressPush .. | .egressSlotWrite ..
  | .apertureRead .. | .apertureWrite .. | .msixUnmask .. | .registerWrite .. | .undefinedInstruction ..
  | .occupancyExchange .. | .linkTrained .. | .potZeroingComplete .. | .ceilingRaise .. => none

end Sys2Proof
end

