-- ==== Sys2Proof/Config.lean ====
section
/-! DEFINITION. What an implementation fixes and what the specification names without defining: constants of the package, and
opaque functions of which nothing can be proved (log 4). -/

namespace Sys2Proof.Config

/-- The signature that the firmware writes in a quote (R329): leaf and message give the bytes (log 4). -/
opaque hssSign : Nat → List Byte → List Byte

/-- The bytes over which the running trivet image and general firmware are measured (R329, log 4). -/
opaque measured : List Byte → List Byte → List Byte

/-- Size of an image of general firmware, whose layout the specification does not give (R329, log 4). -/
opaque firmwareBytes : Nat

/-- Whether bytes are laid out as an image of general firmware (R329 status 3, log 4). -/
opaque firmwareWellFormed : List Byte → Bool

/-- The signed message and the two-level signature of a firmware image, whose layout the specification does not give (R328,
log 4). -/
opaque signedParts : List Byte → List Byte × List Byte

/-- The root key in the boot ROM (R328, log 4). -/
opaque rootKey : List Byte

/-- The supply current in microamperes per telemetry code step of a rail, from the signed board table (R260): cluster, physical
core (log 4). -/
opaque currentStep : Nat → Nat → Nat

/-- The distance in bytes of the two save slots of a context's save area, which the specification does not give (log 4). -/
opaque saveSlotBytes : Nat

/-- Free values: what is decided where the specification leaves a choice open and the state lists none, by a counter of the
state (log 2). -/
opaque freeChoice : Nat → Nat

end Sys2Proof.Config
end

