-- ==== Sys2Proof/Machine/State.lean ====
section
/-! DEFINITION. The state of the whole package as plain data, the reasons a step can stop, and the state right after
reset. Tables are association lists kept in rising order of their keys; an entry that is not listed has the default of its
table, so nothing the size of the device is ever written out. Keys used throughout: a physical core is 132 times its cluster
plus its number (R172); a logical core is 128 times its cluster plus its number (R281). -/

namespace Sys2Proof.Machine

open Sys2Proof

/-- A finite table: keys strictly rising. -/
abbrev Tbl (α : Type) := List (Nat × α)

/-- Bytes by address, addresses strictly rising, no entry equal to what an unlisted byte reads as (zero, R300). -/
abbrev Memory := List Host.Cell

/-- A set of naturals, strictly rising: the granules that are full, or poisoned (R203, R302). -/
abbrev NatSet := List Nat

/-- The reasons a step can fault. The machine itself never stops: every error of a program is a trap (R137), every error
of a graph a rejection or a check-interval bit (R142, R226). -/
inductive Fault where
  /-- Never raised: the spec names no event after which the package has no next state. Safe. -/
  | none
deriving DecidableEq, Repr

/-- The reasons a step can be refused. -/
inductive Refusal where
  /-- An instruction whose meaning is not written; raised only by arms of `exec`. Safe. -/
  | notModelled (mnemonic : String)
deriving DecidableEq, Repr

/-! ## Tokens -/

/-- Token kinds (R160); `reserved` is kind 7. -/
inductive TokKind where
  | data | streamEnd | config | endOfTile | marker | bound | control | reserved
deriving DecidableEq, Repr

/-- A token: 512 bits of payload and its side-band (R160). -/
structure Tok where
  kind : TokKind
  tag : Bool
  level : BitVec 4
  seq : BitVec 24
  payload : Vec512
deriving DecidableEq, Repr

/-! ## Threads (R48 to R67) -/

/-- A key register or a launch's key slot (R52). -/
structure KeyReg where
  valid : Bool
  tensor : BitVec 24
  step : BitVec 32
  seed : BitVec 64
deriving DecidableEq, Repr

/-- One channel slot of a thread, as the context image lays it out (R67). `desc` is the port descriptor's index: 1 the
request port, 2 the reply port of the trusted firmware, 16 plus the near port for a peer stream port. -/
structure ChanEnd where
  peer : BitVec 16
  pslot : BitVec 3
  out : Bool
  bound : Bool
  port : Bool
  desc : BitVec 16
deriving DecidableEq, Repr

/-- The causes of R137, in the order of their codes 0x01 to 0x14. -/
inductive Cause where
  | illegal | privilege | align | page | protect | potrange | channel | handle | keyreuse | poison | watch | logfull
  | diverge | bcover | cfgreject | migrated | brk | swtrap | slice | rate
deriving DecidableEq, Repr

/-- An imprecise report or a queued warning (R140). `slot` is the queue entry it belongs to: 0 to 3 the watch indices, 4
CFGREJECT, 5 RATE, 6 MIGRATED; 7 a remote fault, which never merges; 8 a queued KEYREUSE
and 9 a queued BCOVER (log 13). -/
structure Report where
  cause : Cause
  warning : Bool
  precise : Bool
  engine : BitVec 8
  tvalue : Word
  slot : Nat
deriving DecidableEq, Repr

/-- Why a thread waits (R57) or is held out of the ready set (R62). -/
inductive WaitReason where
  | send (slot : Nat)
  | recv (slot : Nat)
  | count
  | waitany
  | place (handle : Word)
  | granule (key : Nat)
  | presence (pa : Nat)
  | rim (n : Nat)
  | barrier (key : Nat)
  | group (n : Nat)
  | launchEnd (h : Nat)
  | copyDone (n : Nat)
  | inject (h : Nat)
  | line
  | storeBuffer
  | remote
  | atomic
  | ratReply (chip : Nat) (seq : BitVec 32) (dest : Nat) (ty : Ty) (acq : Bool)
  | solve
  | load
  | decisionLog
deriving DecidableEq, Repr

/-- The live states of R56; an exited thread has no record. -/
inductive RunState where
  | ready
  | waiting (r : WaitReason)
deriving DecidableEq, Repr

/-- Where the record stands: a resident slot (0 to 31) or a spilled record (0 to 15) (R49). -/
inductive Seat where
  | resident (slot : Nat)
  | spilled (record : Nat)
deriving DecidableEq, Repr

/-- One thread (R50, R53), its place in the sequencer, and what the sequencer keeps for it. -/
structure Thread where
  g : Vector Word 32
  v : Vector Vec512 16
  k : Vector KeyReg 8
  ch : Vector ChanEnd 8
  pc : Word
  status : Word
  tcause : Word
  tvalue : Word
  tvec : Word
  tpc : Word
  slice : BitVec 32
  histSel : BitVec 5
  watchAddr : Vector Word 4
  watchMask : Vector Word 4
  xreqOrdinal : Word
  ctx : Nat
  lcore : Nat
  seat : Seat
  run : RunState
  waitedSlots : Nat
  waitLeft : Nat
  waitArmed : Bool
  readySince : Nat
  reports : List Report
  sliceDue : Bool
  remotePending : List (Nat × BitVec 32)
  lastRemoteFault : Nat
  queue : Option Nat
  migrateTo : Option Nat
deriving DecidableEq, Repr

/-- A word or token waiting in a sequencer's channel buffer, with the ordinal of its arrival (R133). -/
structure ChanWord where
  at_ : Nat
  word : Word
deriving DecidableEq, Repr

/-- What the sequencers hold of one channel end, keyed 8 times the thread plus the slot (R121): its other end has gone,
and, for a receiving end, the words waiting. -/
structure Chan where
  gone : Bool
  words : List ChanWord
deriving DecidableEq, Repr

/-- A group (R122): members with their ranks, and the generation in progress, if any: the members it counts and those of
them that have arrived. `passed` holds the members that a completed generation released and that have not yet re-tested. -/
structure Group where
  members : List (Nat × Nat)
  counted : List Nat
  arrived : List Nat
  passed : List Nat
deriving DecidableEq, Repr

/-! ## Contexts (R54) -/

/-- The fault record (R286). -/
structure FaultRecord where
  tid : BitVec 16
  cause : BitVec 8
  count : BitVec 32
  tpc : Word
  tvalue : Word
deriving DecidableEq, Repr

/-- The state of one of the 64 contexts (R53, R54, R131, R143, R266, R286, R306, R334). -/
structure Ctx where
  cir : BitVec 4
  unfolded : BitVec 4
  logBase : Word
  logHead : Word
  logMode : Word
  history : List (BitVec 24 × BitVec 32)
  sliceLen : BitVec 32
  fault : FaultRecord
  root : Word
  save : Word
  energy : Nat
  shared : Bool
  invBase : Word
  invLen : Word
  invBusy : Option (Nat × Nat)
deriving DecidableEq, Repr

/-! ## The sync unit (R123 to R129, R384) -/

/-- Place states (R125); a free entry is not listed. -/
inductive PlaceState where
  | queued | granted | abandoned
deriving DecidableEq, Repr

/-- A place entry (R123). `round` is the round of a ranked place (R127, R128). -/
structure Place where
  obj : Nat
  owner : Nat
  requester : Nat
  ordinal : Word
  round : Nat
  rank : Nat
  state : PlaceState
deriving DecidableEq, Repr

/-- An exclusive object (R124 to R129). `queue` is the list that the queue links form; `walking` says a release walk is
under way, and `walkTid` whose instruction started it. -/
structure SyncObj where
  ranked : Bool
  ranks : Nat
  round : Nat
  nextRank : Nat
  queue : List Nat
  granted : Option Nat
  walking : Bool
  walkTid : Nat
  ctx : Nat
deriving DecidableEq, Repr

/-! ## Configurations (R35 to R45) -/

/-- A switch word (R39). -/
structure SwitchWord where
  dest : Nat
  src : Nat
  slots : Nat
  vc : Nat
  more : Bool
  pass : Bool
deriving DecidableEq, Repr

/-- A stage operation word with its extension words (R35, R37). -/
structure StageCfg where
  cls : Nat
  op : Nat
  srcA : Nat
  srcB : Nat
  ty : Nat
  rnd : Nat
  sat : Bool
  md : Nat
  out : Nat
  ext : List W32
deriving DecidableEq, Repr

/-- A controller node word (R44). -/
structure NodeCfg where
  kind : Nat
  children : Nat
  bound : Bool
  window : Nat
  parent : Nat
  trip : Nat
deriving DecidableEq, Repr

/-- The pot modes and their mode words (R43). -/
inductive PotMode where
  | scratch (full : Bool)
  | stream (capacity : Nat) (preload : List Vec512)
  | atomic (bank lo bits : Nat)
  | mandoline (k s d width ty : Nat)
  | host (nodes : List NodeCfg)
deriving DecidableEq, Repr

/-- One dimension of a stream parameter block (R45): tensor extent, tile extent, signed stride in bytes. -/
structure Dim where
  extent : Nat
  tile : Nat
  stride : Int
deriving DecidableEq, Repr

/-- An edge stream node's block: memory mode (R45, R215), network port (R171) or indirect gather (R305). -/
inductive EdgeCfg where
  | spout (write : Bool) (ty round base fill : Nat) (dims : List Dim)
  | port (send : Bool) (peerCore peerEdge peerRow vc : Nat)
  | gather (ty round base fill rows rowLen : Nat) (signed : Bool) (stride : Int)
deriving DecidableEq, Repr

/-- The kind of a tile's configuration (R42). -/
inductive TileKind where
  | pan (stages : List StageCfg)
  | pot (mode : PotMode)
  | pass
  | edge (cfg : EdgeCfg)
deriving DecidableEq, Repr

/-- A configuration a tile holds, active or shadow: the handle it belongs to, its entry in the tile table, the words and
the CRC word recorded as signature (R232), and what the words say. -/
structure TileCfg where
  handle : Nat
  entry : Nat
  words : List W32
  sig : W32
  kind : TileKind
  switches : List SwitchWord
deriving DecidableEq, Repr

/-! ## Element state -/

/-- Counters of a sieve (R198). -/
structure SieveCounts where
  tokIn : Nat
  tokOut : Nat
  elIn : Nat
  elOut : Nat
  dropped : Nat
  resident : Nat
  padded : Nat
  winIn : Nat
  winKept : Nat
deriving DecidableEq, Repr

/-- A plane entry of a dot stage (R191): its scale token, its data tokens in order, and whether its stream-end has come. -/
structure Plane where
  scale : Option Tok
  toks : List Tok
  surplus : Bool
  complete : Bool
deriving DecidableEq, Repr

/-- A pan stage (R155, R175, R177, R180, R191): the slot from the previous stage, own feedback, the holding buffer (`hold`
holds tokens, `outq` tokens still to emit), its count and tag, the latched scale token with the element tokens it
still covers, the dot planes, whether a plane entry is due, the sieve's counters, and the ordinal of the last marker that
has passed it. -/
structure StageSt where
  slot : Option Tok
  fb : Option Tok
  hold : List Tok
  outq : List Tok
  holdTag : Bool
  scaleA : Option Tok
  leftA : Nat
  active : Plane
  shadow : Plane
  planeDue : Bool
  sieve : SieveCounts
  marks : Nat
deriving DecidableEq, Repr

/-- A controller node (R166, R170): credit, started, finished, issued and returned per child, whether a loop is under way
with its bound, queued selects each with its error tag, and the loop-carry's position. -/
structure NodeSt where
  credit : Nat
  started : Nat
  finished : Nat
  issued : Tbl Nat
  returned : Tbl Nat
  looping : Bool
  remaining : Nat
  selects : List (Bool × Bool)
  carryLeft : Nat
  carryFirst : Bool
deriving DecidableEq, Repr

/-- A control message inside one pot, or one that has arrived at it (R165): `child` is the index of the child a done comes
from. -/
structure CtlMsg where
  done : Bool
  node : Nat
  child : Nat
  count : Nat
deriving DecidableEq, Repr

/-- What a pot element keeps (R205, R207, R208, R211, R213): write cursors per channel, the channel served last, channels
whose level-15 end is held, the tokens of a stream buffer (or delay lines), the end that follows a preload, the count of
preloaded tokens left (`row` of a stream buffer), mandoline position, output sequence, misroutes, per channel the repaired
sequence that is awaited and how often a sequence arrived tagged, per channel the last marker's ordinal, and how many tokens a
stream buffer has stored (the next one takes the place of that number modulo its capacity, log 76). -/
structure PotSt where
  cursors : Tbl Nat
  lastVc : Nat
  heldEnds : NatSet
  fifo : List Tok
  preloadEnd : Option Tok
  row : Nat
  col : Nat
  lines : List (Nat × Tok)
  outq : List Tok
  nextSeq : BitVec 24
  misroute : Nat
  awaitSeq : Tbl (BitVec 24)
  taggedOnce : List (Nat × Nat)
  marked : Tbl Nat
  pushed : Nat
deriving DecidableEq, Repr

/-- What an edge node keeps (R216 to R218, R234, R305): the tile and the token within it that its stream has reached, the next
sequence, the data tokens of a translated round still to be read, tokens read and not yet emitted (for a receiving network
port the 8 tokens it buffers), the re-injection window, tokens collected for writing (for a reading node those to be emitted
again, for a gather its index token), the round being committed, the fault entry it is held by, the stream engine it uses, a
pending re-injection request, what a sink awaits under R234, whether operands are on their way, and whether it has ended. -/
structure EdgeSt where
  tile : Nat
  pos : Nat
  seq : BitVec 24
  roundLeft : Nat
  pending : List Tok
  window : List Tok
  collected : List Tok
  committing : List Tok
  faulted : Option Nat
  engine : Option Nat
  reinject : Option (BitVec 24)
  awaitSeq : Option (BitVec 24)
  awaitReply : Bool
  ended : Bool
  taggedOnce : List (Nat × Nat)
deriving DecidableEq, Repr

/-- Conservation counters of a boundary link (R243, R259) and its back-pressure clocks (R255). -/
structure Bound where
  sent : Nat
  taken : Nat
  takenKnown : Nat
  dropped : Nat
  bpWindow : Nat
  bpLast : Nat
deriving DecidableEq, Repr

/-- One tile or edge node: its two configurations (R229), whether its sources run (R225), what has drained, the queues of
the links and inputs its switch words drive (keyed 8 times the destination plus the channel, R154), the wire-throughs of a
multicast that have passed the token standing before it on to their readers (log 80), element state, and whether
its pot is in scratchpad mode while no configuration puts it in one (R383, log 7). -/
structure Tile where
  active : Option TileCfg
  shadow : Option TileCfg
  loading : Option (Nat × List Byte)
  armed : Bool
  running : Bool
  ended : NatSet
  links : Tbl (List Tok)
  forks : NatSet
  bounds : Tbl Bound
  stages : Tbl StageSt
  pot : PotSt
  nodes : Tbl NodeSt
  ctl : List CtlMsg
  edge : EdgeSt
  credit : Nat
  tagAll : Bool
  marks : Nat
  injected : BitVec 24
  scratch : Bool
deriving DecidableEq, Repr

/-! ## Cores and islands -/

/-- One entry of a store buffer (R66): `rel` marks a releasing store, `allVa` one that an acquire or an .acq fence of its
thread has followed, which the thread's loads then find through every virtual address (R349). -/
structure StoreEntry where
  tid : Nat
  ctx : Nat
  va : Nat
  pa : Nat
  bytes : List Byte
  rel : Bool
  allVa : Bool
deriving DecidableEq, Repr

/-- One line of the global-read buffer or one instruction line: context, virtual and physical address of the line divided by
64, bytes. -/
structure Line where
  ctx : Nat
  line : Nat
  pline : Nat
  bytes : List Byte
deriving DecidableEq, Repr

/-- A waiting LDW or LDC at a pot granule (R117), and where the instruction that waits stands. -/
structure Waiter where
  key : Nat
  tid : Nat
  pc : Word
  consume : Bool
  since : Nat
deriving DecidableEq, Repr

/-- A copy's pot write, or its barrier arrival, that has been resolved and not yet performed (R290): the copy (4,096 times its
cluster plus its number), its context, operation and type, the logical core, the pot address, the value, whether it is the
first write of a granule that its tile covers whole, whether the value comes from a poisoned granule, and, of an arrival, the
byte count that arrives. -/
structure HeldWrite where
  copy : Nat
  ctx : Nat
  op : Nat
  ty : Nat
  lcore : Nat
  addr : Nat
  value : Nat
  clears : Bool
  bad : Bool
  arrival : Option Nat
deriving DecidableEq, Repr

/-- A fraction p/q of the master clock (R242). -/
structure Frac where
  p : Nat
  q : Nat
deriving DecidableEq, Repr

/-- A memory reply on its way to a tile with the region tag of its request (R282): operands of a reading round, or the
acknowledgement of a write. -/
structure MemReply where
  tile : Nat
  tag : Nat
  handle : Nat
  operands : Option (List Tok)
deriving DecidableEq, Repr

/-- One physical core: sequencer (R62 to R66), tiles, decoders (R228), pot memory (R202, R203), counters (R254), island
(R241 to R265) and self-test verdict (R296 to R298). -/
structure Core where
  lastSlot : Nat
  stopped : Bool
  stores : List StoreEntry
  readBuf : List Line
  lines : List Line
  fills : List (Nat × Nat)
  waiters : List Waiter
  tiles : Tbl Tile
  dicts : Tbl (List W32)
  cfgPath : Tbl (List Tok)
  pots : Memory
  full : NatSet
  poisoned : NatSet
  replies : List MemReply
  zeroing : Option Nat
  held : List HeldWrite
  joinDrops : Nat
  corrected : Nat
  staleReplies : Nat
  repaired : Nat
  finals : Nat
  frac : Frac
  code : Nat
  table : Tbl Nat
  powerCeil : Frac
  thermCeil : Frac
  temp : Int
  hotWindows : Nat
  coolWindows : Nat
  thermalRequest : Bool
  firings : Nat
  starved : Nat
  pressed : Nat
  lastFirings : Nat
  lastStarved : Nat
  lastPressed : Nat
  retired : NatSet
  status : Nat
  reason : Nat
deriving DecidableEq, Repr

/-! ## Handles, launches, copies -/

/-- The states of a graph handle (R222). -/
inductive HandleState where
  | free | loading | loaded | rejected | active | frozen
deriving DecidableEq, Repr

/-- A tile-table entry as placed: physical core of the load, tile, logical core, byte offset of the stream, and, once its tile
has accepted it, its configuration: the elements that the checks and the solver see (R163, R245). -/
structure Placed where
  loc : TileLoc
  lcore : Nat
  stream : Nat
  copyB : Bool
  cfg : Option TileCfg
deriving DecidableEq, Repr

/-- A solution of SOLVE (R245 to R251): fraction and voltage code per logical core. -/
structure Solution where
  islands : Tbl (Frac × Nat)
deriving DecidableEq, Repr

/-- A graph handle (R220 to R223, R252 to R256). -/
structure Handle where
  state : HandleState
  ctx : Nat
  loader : Nat
  dest : Nat
  image : Word
  imageLen : Nat
  originCore : Nat
  rowOff : Nat
  colOff : Nat
  duplicate : Option Nat
  entries : List Placed
  next : Nat
  dictToks : List (Nat × Nat × Tok)
  toDecoder : List Tok
  heard : List Byte
  tokens : List Tok
  pendingFail : Option (Nat × Nat)
  accepted : Nat
  reason : Nat
  badTile : Nat
  badWord : Nat
  dropping : Bool
  armed : Bool
  rate : Option (Nat × Nat)
  result : Word
  solution : Option Solution
  steps : Nat
  due : Bool
  ratios : Tbl (Nat × Nat)
  snapBounds : Tbl (Nat × Nat × Nat × Nat)
  snapSieves : Tbl SieveCounts
  launched : Bool
deriving DecidableEq, Repr

/-- The states of a launch (R268 to R276). -/
inductive LaunchState where
  | queued | starting | running | suspended | ended
deriving DecidableEq, Repr

/-- One saved record of a checkpoint (R274, R275): the element state of one tile as its marker passed. -/
structure SaveRec where
  core : Nat
  tile : Nat
  saved : Tile
deriving DecidableEq, Repr

/-- A save slot: marker ordinal, records, completeness (R275). -/
structure SaveSlot where
  ordinal : Nat
  recs : List SaveRec
  complete : Bool
deriving DecidableEq, Repr

/-- The latest launch of a handle (R270 to R276). `threads` counts those that are still to be created. -/
structure Launch where
  state : LaunchState
  ctx : Nat
  tid : Nat
  queue : Nat
  wave : Bool
  entry : Word
  threads : Nat
  keys : Vector KeyReg 8
  status0 : Bool
  tvec : Word
  marks : Nat
  marksDone : Nat
  slots : Tbl SaveSlot
  reports : Tbl (BitVec 4)
  acks : Nat
  preempting : Bool
  quiesced : Bool
  reloading : Bool
  halted : Bool
  resumed : Bool
deriving DecidableEq, Repr

/-- A copy in progress (R277 to R279): the checked descriptor, whether its destination lies at logical chip 0 (log 81), the next
tile, how many runs of it have gone to a peer, the messages awaiting acknowledgement, the fault entry that suspends it. -/
structure Copy where
  ctx : Nat
  user : Bool
  tid : Nat
  op : Nat
  ty : Nat
  src : Word
  dst : Word
  barrier : Word
  toZero : Bool
  fill : BitVec 32
  dims : List (Nat × Nat × Int × Int)
  next : Nat
  sent : Nat
  unacked : List (Nat × BitVec 32)
  suspended : Option Nat
  done : Bool
deriving DecidableEq, Repr

/-- A rate step in progress (R250, R257): the new fractions and codes of the islands it changes, the launch it starts (an
admission step), whether it is the retry of an abandoned one. -/
structure RateStep where
  handle : Nat
  admission : Bool
  islands : Tbl (Frac × Nat)
  retried : Bool
  counts : List Nat
deriving DecidableEq, Repr

/-- An entry of the logical core table (R281), and what its core has seen since it was allocated: whether a thread on it has
ended, and whether a configuration on it has been dropped (R283). -/
structure LctEntry where
  tag : BitVec 16
  migrating : Bool
  allocated : Bool
  ctx : BitVec 6
  phys : BitVec 8
  ended : Bool
  dropped : Bool
deriving DecidableEq, Repr

/-- One cluster (fabric die). -/
structure Cluster where
  lct : Tbl LctEntry
  objects : Tbl SyncObj
  objGens : Tbl Nat
  places : Tbl Place
  placeGens : Tbl Nat
  handles : Tbl Handle
  handleGens : Tbl Nat
  queues : Tbl (List Nat)
  deficits : Tbl Int
  lastQueue : Nat
  launches : Tbl Launch
  copies : Tbl Copy
  copyGens : Tbl Nat
  step : Option RateStep
  resolveDue : Option (Nat × List Nat × Bool)
  retry : Option RateStep
  budget : Nat
  energy : Nat
  energyMark : Nat
  owner : Option Nat
  samples : List Nat
deriving DecidableEq, Repr

/-! ## Rim dies and global memory -/

/-- A buffered translation (R309): the page, its size in bits (16 or 21) and the leaf entry. -/
structure TlbEntry where
  ctx : Nat
  vpage : Nat
  bits : Nat
  leaf : Word
deriving DecidableEq, Repr

/-- The kinds of access the permissions of R308 tell apart. -/
inductive Access where
  | read | write | atomic | fetch
deriving DecidableEq, Repr

/-- The outcome of a walk: a physical address, or PAGE or PROTECT with its reason and level (R308). -/
inductive WalkResult where
  | ok (pa : Nat)
  | fail (protect : Bool) (reason level : Nat)
deriving DecidableEq, Repr

/-- An outstanding walk (R309) with its result once it has one. -/
structure Walk where
  ctx : Nat
  va : Nat
  acc : Access
  user : Bool
  loc : TileLoc
  result : Option WalkResult
deriving DecidableEq, Repr

/-- A deferred token of a presence page (R311, R312); `woken` where a fill has woken the engine read that it stands for. -/
structure Deferred where
  pa : Nat
  ctx : Nat
  va : Nat
  tid : Nat
  pc : Word
  consume : Bool
  since : Nat
  loc : Option TileLoc
  woken : Bool
deriving DecidableEq, Repr

/-- One rim die. -/
structure Rim where
  tlb : List TlbEntry
  walks : List Walk
  deferred : List Deferred
  engines : Tbl TileLoc
  corrected : Nat
deriving DecidableEq, Repr

/-- A thread's atomic on its way to the memory-side unit (R118, R303). -/
structure AtomicReq where
  tid : Nat
  pa : Nat
  va : Word
  op : AmoOp
  ty : Ty
  operand : Word
  compare : Word
  dest : Nat
  ord : MemOrder
deriving DecidableEq, Repr

/-! ## Fabric (R352 to R365) -/

/-- A message slot of R355, with the requester's bookkeeping laid out in `payload` as 64 bytes. -/
structure Msg where
  dest : BitVec 8
  src : BitVec 8
  type : BitVec 4
  ctx : BitVec 6
  seq : BitVec 32
  port : BitVec 16
  requester : BitVec 16
  payload : List Byte
deriving DecidableEq, Repr

/-- Link states (R354). -/
inductive LinkState where
  | up | training | down
deriving DecidableEq, Repr

/-- A flit as sent: its sequence and the messages in its slots (R352). -/
structure Flit where
  seq : BitVec 12
  msgs : List Msg
deriving DecidableEq, Repr

/-- A flit as it goes on a link (R352): its sequence, the sequence it acknowledges through, nak, kind, and its messages. -/
structure OutFlit where
  seq : BitVec 12
  through : BitVec 12
  nak : Bool
  kind : BitVec 2
  msgs : List Msg
deriving DecidableEq, Repr

/-- One end of a peer link (R352 to R354), with the flits that it has put on the link, the newest last. -/
structure PeerLink where
  state : LinkState
  lanes : Nat
  nextSeq : BitVec 12
  expected : BitVec 12
  retry : List Flit
  sendNak : Bool
  naks : Nat
  nakSeq : BitVec 12
  failures : Nat
  waiting : List Msg
  wire : List OutFlit
deriving DecidableEq, Repr

/-- What a destination keeps for one source chip (R356, R359): applied-through, the window, retained RAT replies, the accesses
that failed, the link its messages come by. -/
structure SourceSt where
  applied : BitVec 32
  window : List Msg
  replies : List (BitVec 32 × Word)
  failed : List (BitVec 32 × Cause)
  link : Nat
  horizonA : BitVec 32
  horizonN : BitVec 32
deriving DecidableEq, Repr

/-- What a source keeps for one destination chip (R357, R358): next sequence, replay buffer, the retained messages by sequence
with the place of each in the retention log, the last acknowledgement since the chip's entry was last moved or released, the
link that last carried a message. -/
structure DestSt where
  nextSeq : BitVec 32
  replay : List Msg
  retained : List (BitVec 32 × Nat)
  acked : Option (BitVec 32)
  lastLink : Option Nat
deriving DecidableEq, Repr

/-- A stream port 1 to 63 (R362): the descriptor that binds it, the binding thread, its direction, the tokens its receiving
end buffers with the ordinals of their arrival, and for a block end the block with the position of its stream. -/
structure StreamPort where
  desc : Word
  tid : Nat
  send : Bool
  buffer : List (Nat × Tok)
  cfg : Option EdgeCfg
  edge : EdgeSt
deriving DecidableEq, Repr

/-- A die-to-die link direction (R293): flits delivered of each traffic class, the classes whose next flit is a retry, and the
retries asked for. -/
structure DieLink where
  delivered : Tbl Nat
  retry : NatSet
  retries : Nat
deriving DecidableEq, Repr

/-- The fabric side of the package. -/
structure Fabric where
  links : Tbl PeerLink
  identity : Tbl Word
  sources : Tbl SourceSt
  dests : Tbl DestSt
  inbox : List Msg
  transit : List (Nat × Msg)
  dropped : Nat
  transitDropped : Tbl Nat
  ports : Tbl StreamPort
  snapshot : List (Nat × BitVec 32 × BitVec 32 × BitVec 32 × BitVec 32)
  logAddr : Nat
  logSize : Option Nat
  awaiting : Bool
  dieLinks : Tbl DieLink
deriving DecidableEq, Repr

/-! ## Host, management, firmware -/

/-- An ingress or egress window (R321): slots as side-band and payload, and its registers. -/
structure Window where
  slots : Tbl (BitVec 32 × Vec512)
  head : Nat
  tail : Nat
  atth : Word
  atts : Word
  werr : BitVec 3
deriving DecidableEq, Repr

/-- An MSI-X message as the host receives it (R322): its vector, and the address and data that the table gives it. -/
structure MsixMsg where
  vec : Nat
  addr : Word
  data : BitVec 32
deriving DecidableEq, Repr

/-- MSI-X state of one function (R322): the address and data of each vector, masked vectors, pending vectors, messages
delivered. -/
structure Msix where
  vectors : Tbl (Word × BitVec 32)
  masked : NatSet
  pending : NatSet
  sent : List MsixMsg
deriving DecidableEq, Repr

/-- The management registers of R334 that hold a value of their own, whether ceilings are held for a droop (R263), and the
completions the host has received. -/
structure Mgmt where
  ready : Word
  input : Word
  droop : Bool
  capBudget : BitVec 16
  capFloor : Bool
  capSeq : BitVec 32
  capSeen : Bool
  ctxSel : BitVec 6
  lctSel : BitVec 8
  preBusy : Bool
  preRefused : Bool
  fqBase : Word
  fqSize : BitVec 16
  fqTail : BitVec 16
  fqHead : BitVec 16
  presBase : Word
  apBase : Word
  apFault : BitVec 32
  vfCtx : Tbl (BitVec 7)
  svcReq : List Word
  svcRsp : List Word
  newPc : Word
  newRefused : Bool
  newTid : BitVec 16
  hostReads : List (Option (List Byte))
deriving DecidableEq, Repr

/-- One copy of a signed image in module flash (R326): its bytes, and whether its signature verifies against the root key
(R328). -/
structure FlashCopy where
  bytes : List Byte
  signed : Bool
deriving DecidableEq, Repr

/-- Module flash (R326): the power-up ordinal, the HSS state counter, the trip record, copies A and B of the trivet image and of
the general firmware, and the signed board table: whether its signature verifies, floor and maximum budget (R332, R334), the
physical identifier (R334), the public keys of the key slots (R314). -/
structure Flash where
  ordinal : BitVec 32
  hssCounter : Nat
  trip : Bool
  trivetA : FlashCopy
  trivetB : FlashCopy
  firmwareA : FlashCopy
  firmwareB : FlashCopy
  boardSigned : Bool
  keys : Tbl (List Byte)
  floor : BitVec 16
  maximum : BitVec 16
  physId : BitVec 10
deriving DecidableEq, Repr

/-- The trusted firmware (R314, R328, R329): its image and the general firmware as they run, quotes made, attestation available,
the request and reply buffers of each thread's service ports, the contexts of threads that have exited and left requests behind
(under numbers from 65,536 on), the logical number it has assigned. -/
structure Trivet where
  image : List Byte
  firmware : List Byte
  quotes : Nat
  attest : Bool
  requests : Tbl (List Word)
  replies : Tbl (List ChanWord)
  exited : Tbl Nat
  chip : BitVec 8
  assigned : Bool
deriving DecidableEq, Repr

/-- The power state of the module (R327, R330, R331): off or in reset, running, quiescing (sources stopped), holding
(issue stopped, tiers in self-refresh). -/
inductive Power where
  | off | running | quiescing | holding
deriving DecidableEq, Repr

/-- What moves next: one island clock of a logical core, or an event. -/
inductive Move where
  | slot (lcore : Nat)
  | event (i : Instr)
deriving DecidableEq, Repr

/-- A wake word on its way to a sequencer (R57). -/
structure Wake where
  tid : Nat
  reason : WaitReason
deriving DecidableEq, Repr

/-- The package. -/
structure State where
  schedule : List Move
  focus : Nat
  rota : Nat
  cur : Nat
  oracle : List Nat
  choices : Nat
  arrivals : Nat
  threads : Tbl Thread
  chans : Tbl Chan
  groups : Tbl Group
  wakes : List Wake
  reports : List (Nat × Report)
  contexts : Tbl Ctx
  clusters : Tbl Cluster
  cores : Tbl Core
  mem : Memory
  poison : NatSet
  rims : Tbl Rim
  atomics : List AtomicReq
  fabric : Fabric
  ingress : Tbl Window
  egress : Tbl Window
  msix : Tbl Msix
  mgmt : Mgmt
  flash : Flash
  trivet : Trivet
  power : Power
deriving DecidableEq, Repr

/-! ## The state after reset -/

/-- Nothing is linked, buffered or assigned (R300, R334, R360). -/
def Fabric.reset : Fabric :=
  { links := [], identity := [], sources := [], dests := [], inbox := [], transit := [], dropped := 0,
    transitDropped := [], ports := [], snapshot := [], logAddr := 0, logSize := none,
    awaiting := false, dieLinks := [] }

/-- The management registers at the reset values of R334; where R334 gives a dash the value is log 3's. -/
def Mgmt.reset : Mgmt :=
  { ready := 0, input := 0, droop := false, capBudget := 0, capFloor := true, capSeq := 0, capSeen := false, ctxSel := 0,
    lctSel := 0, preBusy := false, preRefused := false, fqBase := 0,
    fqSize := 0, fqTail := 0, fqHead := 0, presBase := 0, apBase := 0, apFault := 0, vfCtx := [],
    svcReq := [], svcRsp := [], newPc := 0, newRefused := false, newTid := 0, hostReads := [] }

/-- Module flash as log 3 names it: nothing is recorded, every copy is empty and verifies, and the board table verifies and holds
no key, zero floor, the rated maximum of R3 and physical identifier 0. -/
def Flash.reset : Flash :=
  let copy : FlashCopy := { bytes := [], signed := true }
  { ordinal := 0, hssCounter := 0, trip := false, trivetA := copy, trivetB := copy, firmwareA := copy, firmwareB := copy,
    boardSigned := true, keys := [], floor := 0, maximum := 2400, physId := 0 }

/-- The trusted firmware before it has run. -/
def Trivet.reset : Trivet :=
  { image := [], firmware := [], quotes := 0, attest := false, requests := [], replies := [], exited := [], chip := 0, assigned := false }

/-- The package right after reset (R54, R300, R301, R334): the ready flag is clear, no thread, queue, object or place
exists, every memory reads zero, every register holds its reset value. -/
def State.reset : State :=
  { schedule := [], focus := 0, rota := 0, cur := 0, oracle := [], choices := 0, arrivals := 0, threads := [], chans := [],
    groups := [], wakes := [], reports := [], contexts := [], clusters := [], cores := [], mem := [], poison := [],
    rims := [], atomics := [], fabric := Fabric.reset, ingress := [], egress := [], msix := [], mgmt := Mgmt.reset,
    flash := Flash.reset, trivet := Trivet.reset, power := .off }

end Sys2Proof.Machine
end

