-- ==== Sys2Proof/Machine/Tables.lean ====
section
/-! DEFINITION. The plainest operations: tables, sets, bytes of memory, and the accessors of the state. -/

namespace Sys2Proof.Machine

open Sys2Proof

/-! ## Tables and sets -/

/-- The entry of a table at a key. -/
def tget {α : Type} : Tbl α → Nat → Option α
  | [], _ => none
  | (k, v) :: r, n => if k = n then some v else tget r n

/-- The entry of a table at a key, or a default. -/
def tgetD {α : Type} (t : Tbl α) (n : Nat) (d : α) : α := (tget t n).getD d

/-- Set an entry; the keys stay rising. -/
def tset {α : Type} : Tbl α → Nat → α → Tbl α
  | [], n, x => [(n, x)]
  | (k, v) :: r, n, x => if n < k then (n, x) :: (k, v) :: r else if n = k then (n, x) :: r else (k, v) :: tset r n x

/-- Remove an entry. -/
def tdel {α : Type} : Tbl α → Nat → Tbl α
  | [], _ => []
  | (k, v) :: r, n => if k = n then tdel r n else (k, v) :: tdel r n

/-- Change an entry, from a default if it is not listed. -/
def tmod {α : Type} (t : Tbl α) (n : Nat) (d : α) (f : α → α) : Tbl α := tset t n (f (tgetD t n d))

/-- Change every entry. -/
def tmap {α : Type} (t : Tbl α) (f : Nat → α → α) : Tbl α := t.map fun (k, v) => (k, f k v)

/-- The smallest number from `lo` on, below `lo + n`, that a predicate accepts. -/
def firstFrom (p : Nat → Bool) (lo : Nat) : Nat → Option Nat
  | 0 => none
  | n + 1 => if p lo then some lo else firstFrom p (lo + 1) n

/-- The smallest key from `lo` on that a table with rising keys does not list. -/
def freeKey {α : Type} (lo : Nat) : Tbl α → Nat
  | [] => lo
  | (k, _) :: r => if k < lo then freeKey lo r else if k = lo then freeKey (lo + 1) r else lo

/-- Membership in a set. -/
def nsMem : NatSet → Nat → Bool
  | [], _ => false
  | k :: r, n => k = n || nsMem r n

/-- Insertion into a set; it stays rising. -/
def nsAdd : NatSet → Nat → NatSet
  | [], n => [n]
  | k :: r, n => if n < k then n :: k :: r else if n = k then k :: r else k :: nsAdd r n

/-- Removal from a set. -/
def nsDel : NatSet → Nat → NatSet
  | [], _ => []
  | k :: r, n => if k = n then nsDel r n else k :: nsDel r n

/-- Insertion or removal. -/
def nsPut (s : NatSet) (n : Nat) (b : Bool) : NatSet := if b then nsAdd s n else nsDel s n

/-! ## Bytes -/

/-- One byte of memory; an unlisted byte reads zero (R300). -/
def mread : Memory → Nat → Byte
  | [], _ => 0
  | (k, v) :: r, a => if k = a then v else mread r a

/-- Write one byte; a zero is not listed. -/
def mwrite : Memory → Nat → Byte → Memory
  | [], a, b => if b = 0 then [] else [(a, b)]
  | (k, v) :: r, a, b =>
    if a < k then (if b = 0 then (k, v) :: r else (a, b) :: (k, v) :: r)
    else if a = k then (if b = 0 then r else (a, b) :: r)
    else (k, v) :: mwrite r a b

/-- n bytes from an address on. -/
def mreads (m : Memory) (a : Nat) : Nat → List Byte
  | 0 => []
  | n + 1 => mread m a :: mreads m (a + 1) n

/-- Write bytes from an address on. -/
def mwrites (m : Memory) (a : Nat) : List Byte → Memory
  | [] => m
  | b :: bs => mwrites (mwrite m a b) (a + 1) bs

/-- Clear n bytes from an address on. -/
def mclear (m : Memory) (a n : Nat) : Memory := m.filter fun (k, _) => !(a ≤ k && k < a + n)

/-- The canonical form of memory: addresses strictly rising and no listed zero (R300). -/
def Memory.wf : Memory → Bool
  | [] => true
  | [(_, b)] => b ≠ 0
  | (k, b) :: (k', b') :: r => b ≠ 0 && k < k' && Memory.wf ((k', b') :: r)

/-- A little-endian number of bytes (R5). -/
def leNat : List Byte → Nat
  | [] => 0
  | b :: bs => b.toNat + 256 * leNat bs

/-- The n little-endian bytes of a number (R5). -/
def leBytes : Nat → Nat → List Byte
  | 0, _ => []
  | n + 1, x => BitVec.ofNat 8 (x % 256) :: leBytes n (x / 256)

/-- Overlay bytes that stand at address `a2` on bytes that stand at address `a1`. -/
def overlay (a1 : Nat) (b1 : List Byte) (a2 : Nat) (b2 : List Byte) : List Byte :=
  b1.zipIdx.map fun (b, i) => if a2 ≤ a1 + i then b2.getD (a1 + i - a2) b else b

/-- A number in a 64-bit word. -/
def w64 (n : Nat) : Word := BitVec.ofNat 64 n

/-- Bits [hi:lo] of a word as a number. -/
def bits (x : Word) (hi lo : Nat) : Nat := x.toNat / 2 ^ lo % 2 ^ (hi + 1 - lo)

/-- Bit i of a word. -/
def bit (x : Word) (i : Nat) : Bool := x.toNat / 2 ^ i % 2 = 1

/-! ## Records that are not listed -/

/-- An invalid key register (R52). -/
def KeyReg.none : KeyReg := { valid := false, tensor := 0, step := 0, seed := 0 }

/-- An unbound channel slot (R67). -/
def ChanEnd.none : ChanEnd := { peer := 0, pslot := 0, out := false, bound := false, port := false, desc := 0 }

/-- A fault record that holds nothing (R286). -/
def FaultRecord.none : FaultRecord := { tid := 0, cause := 0, count := 0, tpc := 0, tvalue := 0 }

/-- A context after its reset (R54); the registers of R334 stand at their reset values. -/
def Ctx.reset : Ctx :=
  { cir := 0, unfolded := 0, logBase := 0, logHead := 0, logMode := 0, history := [], sliceLen := 65536,
    fault := FaultRecord.none, root := 0, save := 0, energy := 0, shared := false,
    invBase := 0, invLen := 0, invBusy := none }

/-- A channel end that holds nothing. -/
def Chan.none : Chan := { gone := false, words := [] }

/-- A group without members (R122). -/
def Group.none : Group := { members := [], counted := [], arrived := [], passed := [] }

/-- A core after power-up (R300); its island runs at 1/64, as an island no solved handle uses (R247, log 6). -/
def Core.reset : Core :=
  { lastSlot := 31, stopped := false, stores := [], readBuf := [], lines := [], fills := [], waiters := [], tiles := [],
    dicts := [], cfgPath := [], pots := [], full := [], poisoned := [], replies := [], zeroing := none, held := [],
    joinDrops := 0, corrected := 0, staleReplies := 0, repaired := 0, finals := 0, frac := { p := 1, q := 64 }, code := 0,
    table := [], powerCeil := { p := 1, q := 1 }, thermCeil := { p := 1, q := 1 }, temp := 0, hotWindows := 0,
    coolWindows := 0, thermalRequest := false, firings := 0, starved := 0, pressed := 0,
    lastFirings := 0, lastStarved := 0, lastPressed := 0, retired := [], status := 0, reason := 0 }

/-- A table entry before power-up has filled it: no backing (log 3). -/
def LctEntry.none : LctEntry := { tag := 0, migrating := false, allocated := false, ctx := 0, phys := 0xFF, ended := false, dropped := false }

/-- A cluster after power-up (R300, R384, R269). -/
def Cluster.reset : Cluster :=
  { lct := [], objects := [], objGens := [], places := [], placeGens := [], handles := [], handleGens := [], queues := [],
    deficits := [], lastQueue := 15, launches := [], copies := [], copyGens := [], step := none, resolveDue := none,
    retry := none, budget := 0, energy := 0, energyMark := 0, owner := none, samples := [] }

/-- A rim die after power-up (R300). -/
def Rim.reset : Rim := { tlb := [], walks := [], deferred := [], engines := [], corrected := 0 }

/-- No sieve has counted (R198). -/
def SieveCounts.zero : SieveCounts :=
  { tokIn := 0, tokOut := 0, elIn := 0, elOut := 0, dropped := 0, resident := 0, padded := 0, winIn := 0, winKept := 0 }

/-- The zero token (R175). -/
def Tok.zero : Tok := { kind := .data, tag := false, level := 0, seq := 0, payload := 0 }

/-- A plane of zero patterns (R191). -/
def Plane.zero : Plane := { scale := none, toks := [], surplus := false, complete := false }

/-- A stage at the start of a configuration period (R175, R191, R198). -/
def StageSt.start : StageSt :=
  { slot := none, fb := none, hold := [], outq := [], holdTag := false, scaleA := none, leftA := 0,
    active := Plane.zero, shadow := Plane.zero, planeDue := true, sieve := SieveCounts.zero, marks := 0 }

/-- A controller node at the start of a configuration period (R164, R166). -/
def NodeSt.start : NodeSt :=
  { credit := 0, started := 0, finished := 0, issued := [], returned := [], looping := false, remaining := 0,
    selects := [], carryLeft := 0, carryFirst := true }

/-- A pot element at activation (R205, R207, R213). -/
def PotSt.start : PotSt :=
  { cursors := [], lastVc := 6, heldEnds := [], fifo := [], preloadEnd := none, row := 0, col := 0, lines := [], outq := [],
    nextSeq := 0, misroute := 0, awaitSeq := [], taggedOnce := [], marked := [], pushed := 0 }

/-- An edge node at activation (R216). -/
def EdgeSt.start : EdgeSt :=
  { tile := 0, pos := 0, seq := 0, roundLeft := 0, pending := [], window := [], collected := [],
    committing := [], faulted := none, engine := none, reinject := none, awaitSeq := none, awaitReply := false,
    ended := false, taggedOnce := [] }

/-- Counters of a boundary link that has carried nothing (R259). -/
def Bound.zero : Bound := { sent := 0, taken := 0, takenKnown := 0, dropped := 0, bpWindow := 0, bpLast := 0 }

/-- A tile without configuration (R229). -/
def Tile.empty : Tile :=
  { active := none, shadow := none, loading := none, armed := false, running := false,  ended := [],
    links := [], forks := [], bounds := [], stages := [], pot := PotSt.start, nodes := [], ctl := [], edge := EdgeSt.start, credit := 0,
    tagAll := false, marks := 0, injected := 0, scratch := true }

/-- A window with empty registers (R321). -/
def Window.reset : Window := { slots := [], head := 0, tail := 0, atth := 0, atts := 0, werr := 0 }

/-- An MSI-X table with no vector masked or pending (log 3). -/
def Msix.reset : Msix := { vectors := [], masked := [], pending := [], sent := [] }

/-! ## Accessors -/

/-- A live thread. -/
def State.thread? (s : State) (tid : Nat) : Option Thread := tget s.threads tid
/-- Write a thread's record. -/
def State.setThread (s : State) (tid : Nat) (t : Thread) : State := { s with threads := tset s.threads tid t }
/-- Change a live thread. -/
def State.modThread (s : State) (tid : Nat) (f : Thread → Thread) : State :=
  match s.thread? tid with
  | some t => s.setThread tid (f t)
  | none => s

/-- A physical core, by 132 times its cluster plus its number. -/
def State.core (s : State) (c : Nat) : Core := tgetD s.cores c Core.reset
/-- Write a physical core. -/
def State.setCore (s : State) (c : Nat) (k : Core) : State := { s with cores := tset s.cores c k }
/-- Change a physical core. -/
def State.modCore (s : State) (c : Nat) (f : Core → Core) : State := s.setCore c (f (s.core c))

/-- A cluster. -/
def State.cluster (s : State) (c : Nat) : Cluster := tgetD s.clusters c Cluster.reset
/-- Write a cluster. -/
def State.setCluster (s : State) (c : Nat) (k : Cluster) : State := { s with clusters := tset s.clusters c k }
/-- Change a cluster. -/
def State.modCluster (s : State) (c : Nat) (f : Cluster → Cluster) : State := s.setCluster c (f (s.cluster c))

/-- A context. -/
def State.ctx (s : State) (c : Nat) : Ctx := tgetD s.contexts c Ctx.reset
/-- Write a context. -/
def State.setCtx (s : State) (c : Nat) (k : Ctx) : State := { s with contexts := tset s.contexts c k }
/-- Change a context. -/
def State.modCtx (s : State) (c : Nat) (f : Ctx → Ctx) : State := s.setCtx c (f (s.ctx c))

/-- A rim die. -/
def State.rim (s : State) (c : Nat) : Rim := tgetD s.rims c Rim.reset
/-- Write a rim die. -/
def State.setRim (s : State) (c : Nat) (k : Rim) : State := { s with rims := tset s.rims c k }
/-- Change a rim die. -/
def State.modRim (s : State) (c : Nat) (f : Rim → Rim) : State := s.setRim c (f (s.rim c))

/-- The table entry of a logical core, by 128 times its cluster plus its number (R281). -/
def State.lct (s : State) (lc : Nat) : LctEntry := tgetD (s.cluster (lc / 128)).lct (lc % 128) LctEntry.none
/-- Write a table entry. -/
def State.setLct (s : State) (lc : Nat) (e : LctEntry) : State :=
  s.modCluster (lc / 128) fun c => { c with lct := tset c.lct (lc % 128) e }

/-- A logical core has a physical core behind it (R298). -/
def State.backed (s : State) (lc : Nat) : Bool := (s.lct lc).phys.toNat < 132

/-- The physical core behind a logical core, by 132 times its cluster plus its number (R281); a number that no physical core
has where there is none behind it. -/
def State.phys (s : State) (lc : Nat) : Nat :=
  if s.backed lc then 132 * (lc / 128) + (s.lct lc).phys.toNat else 10000 + lc

/-- The logical core that a physical core backs, if any. -/
def State.logical (s : State) (pc : Nat) : Option Nat :=
  match (s.cluster (pc / 132)).lct.find? fun (_, e) => e.phys.toNat = pc % 132 with
  | some (i, _) => some (128 * (pc / 132) + i)
  | none => none

/-- A tile or edge node. -/
def State.tile (s : State) (l : TileLoc) : Tile := tgetD (s.core l.core).tiles l.tile Tile.empty
/-- Write a tile. -/
def State.setTile (s : State) (l : TileLoc) (t : Tile) : State :=
  s.modCore l.core fun c => { c with tiles := tset c.tiles l.tile t }
/-- Change a tile. -/
def State.modTile (s : State) (l : TileLoc) (f : Tile → Tile) : State := s.setTile l (f (s.tile l))

/-- A graph handle, by cluster and number (R222). -/
def State.handle? (s : State) (cl h : Nat) : Option Handle := tget (s.cluster cl).handles h
/-- Write a handle. -/
def State.setHandle (s : State) (cl h : Nat) (x : Handle) : State :=
  s.modCluster cl fun c => { c with handles := tset c.handles h x }
/-- The latest launch of a handle (R272). -/
def State.launch? (s : State) (cl h : Nat) : Option Launch := tget (s.cluster cl).launches h
/-- Write a launch. -/
def State.setLaunch (s : State) (cl h : Nat) (x : Launch) : State :=
  s.modCluster cl fun c => { c with launches := tset c.launches h x }

/-- Take the next open choice: the next one listed, else a free value (log 2). -/
def State.choose (s : State) : Nat × State :=
  (s.oracle.headD (Config.freeChoice s.choices), { s with oracle := s.oracle.tail, choices := s.choices + 1 })

/-- Take the next ordinal of arrival. -/
def State.arrive (s : State) : Nat × State := (s.arrivals, { s with arrivals := s.arrivals + 1 })

/-- A generation after the next free (R384): 1, 2, …, 255, 1. -/
def nextGen (g : Nat) : Nat := g % 255 + 1

end Sys2Proof.Machine
end

