-- ==== Sys2Proof/Machine/Flags.lean ====
section
/-! DEFINITION. Status bits. No instruction sets arithmetic flags (R90); the bits are those of STATUS (R53), the check-interval
bits of the context (R142, R143), and the status a trap entry and its return give (R133, R138). -/

namespace Sys2Proof.Machine

open Sys2Proof

/-- STATUS[0]: system privilege (R53). -/
def Thread.system (t : Thread) : Bool := bit t.status 0
/-- STATUS[1]: the thread is in a trap handler (R53). -/
def Thread.inTrap (t : Thread) : Bool := bit t.status 1
/-- STATUS[3]: slice expiry raises SLICE (R53). -/
def Thread.sliceTraps (t : Thread) : Bool := bit t.status 3

/-- STATUS at trap entry: [2] takes [0], then [0] and [1] are set (R138). -/
def statusOnEntry (st : Word) : Word := w64 (st.toNat / 8 * 8 + (if bit st 0 then 4 else 0) + 3)

/-- STATUS after RETT: [0] takes [2], [1] is cleared (R133). -/
def statusOnReturn (st : Word) : Word := w64 (st.toNat / 4 * 4 + (if bit st 2 then 1 else 0))

/-- The cause codes of R137. -/
def Cause.code : Cause → Nat
  | .illegal => 0x01 | .privilege => 0x02 | .align => 0x03 | .page => 0x04 | .protect => 0x05 | .potrange => 0x06
  | .channel => 0x07 | .handle => 0x08 | .keyreuse => 0x09 | .poison => 0x0A | .watch => 0x0B | .logfull => 0x0C
  | .diverge => 0x0D | .bcover => 0x0E | .cfgreject => 0x0F | .migrated => 0x10 | .brk => 0x11 | .swtrap => 0x12
  | .slice => 0x13 | .rate => 0x14

/-- TCAUSE as trap entry writes it (R53, R138). -/
def tcauseWord (cause : Cause) (precise warning : Bool) (engine : Nat) : Word :=
  w64 (engine % 256 * 2 ^ 16 + (if precise then 2 ^ 9 else 0) + (if warning then 2 ^ 8 else 0) + cause.code)

/-- A check-interval report of a graph: bit i of CIR, kept by the number of markers that have passed the element, until a
fold takes it in (R142, R143). -/
def reportCir (s : State) (cl h marks i : Nat) : State :=
  match s.launch? cl h with
  | some l => s.setLaunch cl h { l with reports := tmod l.reports marks 0 fun b => b ||| BitVec.ofNat 4 (2 ^ i) }
  | none => s

/-- The union of check-interval bits. -/
def cirUnion (r : List (Nat × BitVec 4)) : BitVec 4 := r.foldl (fun acc (_, b) => acc ||| b) 0

/-- The reports of a launch's completed work, all of them once it has ended, and the others (R143). -/
def splitReports (l : Launch) : Tbl (BitVec 4) × Tbl (BitVec 4) :=
  if l.state = .ended then (l.reports, []) else l.reports.partition fun (k, _) => k < l.marksDone

/-- Fold the reports of the completed work of a context into its bits (R143). -/
def foldContext (s : State) (ctx : Nat) : State :=
  let done := s.clusters.flatMap fun (_, c) => c.launches.flatMap fun (_, l) =>
    if l.ctx = ctx then (splitReports l).1 else []
  let s := { s with
    clusters := tmap s.clusters fun _ c => { c with
      launches := tmap c.launches fun _ l => if l.ctx = ctx then { l with reports := (splitReports l).2 } else l } }
  s.modCtx ctx fun c => { c with cir := c.cir ||| c.unfolded ||| cirUnion done, unfolded := 0 }

/-- Fold every report of one launch into its context's bits (R143, R272). -/
def foldLaunch (s : State) (cl h : Nat) : State :=
  match s.launch? cl h with
  | some l => (s.setLaunch cl h { l with reports := [] }).modCtx l.ctx fun c => { c with cir := c.cir ||| cirUnion l.reports }
  | none => s

/-- Every report of a launch joins the completed work of its context (R143). -/
def completeReports (s : State) (cl h : Nat) : State :=
  match s.launch? cl h with
  | some l =>
    (s.setLaunch cl h { l with reports := [] }).modCtx l.ctx fun c => { c with unfolded := c.unfolded ||| cirUnion l.reports }
  | none => s

end Sys2Proof.Machine
end

