-- ==== Sys2Proof/Machine/Number.lean ====
section
/-! DEFINITION. Number formats (R68 to R75), conversions and rounding (R76 to R79, R82), the keyed generator (R80, R81).
A pattern is the natural number below two to the width of its type; an exact value is sign, magnitude and power of two. -/

namespace Sys2Proof.Machine

open Sys2Proof

/-- An exact value: (-1)^neg × m × 2^e, an infinity, or a NaN with its sign. -/
inductive Num where
  | nan (neg : Bool)
  | inf (neg : Bool)
  | fin (neg : Bool) (m : Nat) (e : Int)
deriving DecidableEq, Repr

/-- A floating format of R69: bits of exponent and fraction, bias, largest finite magnitude, infinity if it has one, and
the canonical NaN of R70 without its sign. -/
structure FloatFmt where
  exp : Nat
  frac : Nat
  bias : Nat
  maxFinite : Nat
  infinity : Option Nat
  nan : Nat
deriving DecidableEq, Repr

/-- The floating formats (R69, R70). -/
def floatFmt : Ty → Option FloatFmt
  | .f32 => some { exp := 8, frac := 23, bias := 127, maxFinite := 0x7F7FFFFF, infinity := some 0x7F800000, nan := 0x7FC00000 }
  | .bf16 => some { exp := 8, frac := 7, bias := 127, maxFinite := 0x7F7F, infinity := some 0x7F80, nan := 0x7FC0 }
  | .f16 => some { exp := 5, frac := 10, bias := 15, maxFinite := 0x7BFF, infinity := some 0x7C00, nan := 0x7E00 }
  | .e4m3 => some { exp := 4, frac := 3, bias := 7, maxFinite := 0x7E, infinity := none, nan := 0x7F }
  | .e5m2 => some { exp := 5, frac := 2, bias := 15, maxFinite := 0x7B, infinity := some 0x7C, nan := 0x7E }
  | _ => none

/-- A natural read as a w-bit two's-complement number (R71). -/
def sextNat (w p : Nat) : Int :=
  if p % 2 ^ w < 2 ^ (w - 1) then (p % 2 ^ w : Nat) else (p % 2 ^ w : Nat) - (2 ^ w : Nat)

/-- An integer reduced modulo 2^w (R71, R91). -/
def wrapInt (w : Nat) (x : Int) : Nat := (x % (2 ^ w : Nat)).toNat

/-- The value of an integer pattern by its signedness (R71, R91). -/
def intVal (ty : Ty) (p : Nat) : Int :=
  if ty.isSigned then sextNat ty.width p else (p % 2 ^ ty.width : Nat)

/-- Smallest value of an integer type (R71). -/
def intMin (ty : Ty) : Int := if ty.isSigned then -(2 ^ (ty.width - 1) : Nat) else 0
/-- Largest value of an integer type (R71). -/
def intMax (ty : Ty) : Int := if ty.isSigned then (2 ^ (ty.width - 1) : Nat) - 1 else (2 ^ ty.width : Nat) - 1

/-- Limit a value to the range of an integer type (R92). -/
def clampTo (ty : Ty) (x : Int) : Int := if x < intMin ty then intMin ty else if intMax ty < x then intMax ty else x

/-- An integer as an exact value. -/
def numOfInt (x : Int) : Num := .fin (x < 0) x.natAbs 0

/-- The sign bit of a floating pattern. -/
def signOf (f : FloatFmt) (p : Nat) : Bool := p / 2 ^ (f.exp + f.frac) % 2 = 1

/-- A magnitude with a sign. -/
def signed (f : FloatFmt) (neg : Bool) (mag : Nat) : Nat := if neg then mag + 2 ^ (f.exp + f.frac) else mag

/-- The exact value of a floating pattern (R68, R69). Its exponent is the spacing of the format there. -/
def floatVal (f : FloatFmt) (p : Nat) : Num :=
  let neg := signOf f p
  let mag := p % 2 ^ (f.exp + f.frac)
  let E := mag / 2 ^ f.frac
  let F := mag % 2 ^ f.frac
  if mag ≤ f.maxFinite then
    if E = 0 then .fin neg F (1 - (f.bias : Int) - f.frac)
    else .fin neg (2 ^ f.frac + F) ((E : Int) - f.bias - f.frac)
  else if f.infinity = some mag then .inf neg
  else .nan neg

/-- The exact value of a pattern of a type; e8m0 as R72. A QX4 slot alone has no value (R74) and reads as zero here. -/
def value (ty : Ty) (p : Nat) : Num :=
  match floatFmt ty with
  | some f => floatVal f p
  | none =>
    if ty.isInt then numOfInt (intVal ty p)
    else if ty = .e8m0 then (if p % 256 = 255 then .nan false else .fin false 1 ((p % 256 : Nat) - 127))
    else .fin false 0 0

/-- The canonical NaN of a type with a sign (R70). -/
def nanOf (ty : Ty) (neg : Bool) : Nat :=
  match floatFmt ty with
  | some f => signed f neg f.nan
  | none => if ty = .e8m0 then 255 else 0

/-- m / 2^shift rounded to a natural under a rounding code, with the draw for code 4 (R76, R82). -/
def roundShift (rnd : Rnd) (neg : Bool) (m shift w : Nat) : Nat :=
  let kept := m / 2 ^ shift
  let rem := m % 2 ^ shift
  let up : Bool :=
    match rnd with
    | .rn => 2 ^ shift < 2 * rem || (2 * rem = 2 ^ shift && rem ≠ 0 && kept % 2 = 1)
    | .rz => false
    | .rp => rem ≠ 0 && !neg
    | .rm => rem ≠ 0 && neg
    | .rs =>
      let j := Nat.min shift 32
      2 ^ j ≤ rem / 2 ^ (shift - j) + w % 2 ^ j
  if up then kept + 1 else kept

/-- m × 2^e in units of 2^q, rounded (R76, R82). -/
def roundGrid (rnd : Rnd) (neg : Bool) (m : Nat) (e q : Int) (w : Nat) : Nat :=
  if q ≤ e then m * 2 ^ (e - q).toNat else roundShift rnd neg m (q - e).toNat w

/-- What a finite value past the largest finite becomes (R77). -/
def overflowTo (f : FloatFmt) (rnd : Rnd) (sat neg : Bool) : Nat :=
  let infinite := signed f neg (f.infinity.getD f.nan)
  let largest := signed f neg f.maxFinite
  if sat then largest else
  match rnd with
  | .rn => infinite
  | .rz => largest
  | .rp => if neg then largest else infinite
  | .rm => if neg then infinite else largest
  | .rs => largest

/-- A finite value rounded into a floating format (R77, R82). -/
def roundFloat (f : FloatFmt) (rnd : Rnd) (sat neg : Bool) (m : Nat) (e : Int) (w : Nat) : Nat :=
  if m = 0 then signed f neg 0 else
  let q : Int := max ((Nat.log2 m : Int) + e - f.frac) (1 - (f.bias : Int) - f.frac)
  let mag := roundGrid rnd neg m e q w + (q + f.frac + f.bias - 1).toNat * 2 ^ f.frac
  if f.maxFinite < mag then overflowTo f rnd sat neg else signed f neg mag

/-- A conversion to e8m0 (R78). -/
def toE8m0 (rnd : Rnd) : Num → Nat
  | .fin _ m e =>
    if m = 0 then 0 else
    let l : Int := (Nat.log2 m : Int) + e
    let l := if rnd = .rp ∧ m ≠ 2 ^ Nat.log2 m then l + 1 else l
    if l + 127 < 0 then 0 else if 254 < l + 127 then 254 else (l + 127).toNat
  | _ => 255

/-- An exact value converted into a type (R76 to R78, R82). For an integer type under code 4, where R82's largest_finite has no
meaning given, the result is clamped to the type's range as R76 has it, down to the least value of an s type (DEDUCED, log 74). -/
def roundTo (ty : Ty) (rnd : Rnd) (sat : Bool) (w : Nat) (x : Num) : Nat :=
  match floatFmt ty with
  | some f =>
    match x with
    | .nan neg => signed f neg f.nan
    | .inf neg =>
      match f.infinity with
      | some i => signed f neg i
      | none => if sat then signed f neg f.maxFinite else signed f neg f.nan
    | .fin neg m e => roundFloat f rnd sat neg m e w
  | none =>
    if ty.isInt then
      match x with
      | .nan _ => 0
      | .inf neg => wrapInt ty.width (if neg then intMin ty else intMax ty)
      | .fin neg m e =>
        let k : Int := roundGrid rnd neg m e 0 w
        wrapInt ty.width (clampTo ty (if neg then -k else k))
    else toE8m0 rnd x

/-- A conversion of one element (R76 to R79, R82). -/
def convert (st dt : Ty) (rnd : Rnd) (sat : Bool) (w p : Nat) : Nat :=
  if st.isInt && dt.isInt then
    wrapInt dt.width (if sat then clampTo dt (intVal st p) else intVal st p)
  else roundTo dt rnd sat w (value st p)

/-! ## The keyed generator -/

/-- One round of R80. -/
def drawRound (c1 x y : BitVec 32) : BitVec 32 × BitVec 32 :=
  let x := x * 0x9E3779B1#32
  let x := x ^^^ (x >>> 16) ^^^ y
  let y := y * 0x85EBCA6B#32
  let y := y ^^^ (y >>> 13) ^^^ x ^^^ c1
  (x, y)

/-- keyed_draw (R80). -/
def keyedDraw (s1 s0 : BitVec 32) (t : BitVec 24) (p : BitVec 32) (c : BitVec 48) (d : BitVec 8) : BitVec 32 :=
  let c1 : BitVec 32 := (c.extractLsb' 32 16).zeroExtend 32
  let c0 : BitVec 32 := c.extractLsb' 0 32
  let a := drawRound c1 (c0 ^^^ s0) ((p ^^^ s1) + (t ++ d))
  let b := drawRound c1 a.1 a.2
  b.1 ^^^ b.2

/-- The draw of a key register at a coordinate (R81). -/
def keyDraw (k : KeyReg) (c : BitVec 48) (d : BitVec 8) : BitVec 32 :=
  keyedDraw (k.seed.extractLsb' 32 32) (k.seed.extractLsb' 0 32) k.tensor k.step c d

/-! ## Decimal constants of R85 -/

/-- The f32 pattern nearest to (-1)^neg × digits / 10^places (R85). -/
def f32OfDecimal (neg : Bool) (digits places : Nat) : Nat :=
  let q := digits * 2 ^ 96 / 10 ^ places
  let sticky := if digits * 2 ^ 96 % 10 ^ places = 0 then 0 else 1
  roundTo .f32 .rn false 0 (.fin neg (2 * q + sticky) (-97))

end Sys2Proof.Machine
end

