-- ==== Sys2Proof/Machine/Lanes.lean ====
section
/-! DEFINITION. Element arithmetic shared by the vector instructions (R103 to R107, R111) and the pan stages (R174 to R199):
elements of a 512-bit token, floating and integer lane operations, the four transcendentals (R85 to R89), reductions, and the
dot sum (R83). -/

namespace Sys2Proof.Machine

open Sys2Proof

/-- The elements of a token, element e at bits [w(e+1)-1 : we] (R51, R103). -/
def elems (w : Nat) (x : Vec512) : List Nat := (List.range (512 / w)).map fun e => x.toNat / 2 ^ (w * e) % 2 ^ w

/-- One element of a token (R51). -/
def elem (w : Nat) (x : Vec512) (e : Nat) : Nat := x.toNat / 2 ^ (w * e) % 2 ^ w

/-- A natural of which element e occupies bits [w(e+1)-1 : we] (R51). -/
def packNat (w : Nat) (es : List Nat) : Nat := es.foldr (fun e acc => acc * 2 ^ w + e % 2 ^ w) 0

/-- A token made of elements; elements past the 512 bits are dropped, missing ones are zero (R51). -/
def pack (w : Nat) (es : List Nat) : Vec512 := BitVec.ofNat 512 (packNat w es)

/-- The 64 bytes of a token, lowest address first (R5, R160). -/
def tokBytes (x : Vec512) : List Byte := (elems 8 x).map (BitVec.ofNat 8)

/-- A token of up to 64 bytes (R160). -/
def bytesTok (b : List Byte) : Vec512 := pack 8 (b.map BitVec.toNat)

/-! ## Exact arithmetic -/

/-- The sign turned over. -/
def Num.negate : Num → Num
  | .nan n => .nan n
  | .inf n => .inf (!n)
  | .fin n m e => .fin (!n) m e

/-- A signed integer times a power of two. -/
def numOf (x : Int) (e : Int) : Num := .fin (x < 0) x.natAbs e

/-- The exact sum of two finite values with the zero signs of R105. -/
def addFin (rnd : Rnd) (n1 : Bool) (m1 : Nat) (e1 : Int) (n2 : Bool) (m2 : Nat) (e2 : Int) : Num :=
  let e := min e1 e2
  let a : Int := (m1 * 2 ^ (e1 - e).toNat : Nat)
  let b : Int := (m2 * 2 ^ (e2 - e).toNat : Nat)
  let s := (if n1 then -a else a) + (if n2 then -b else b)
  if s = 0 then
    if m1 = 0 ∧ m2 = 0 ∧ n1 = n2 then .fin n1 0 0 else .fin (rnd = .rm) 0 0
  else numOf s e

/-- The exact sum of two values (R105). -/
def addNum (rnd : Rnd) : Num → Num → Num
  | .nan _, _ => .nan false
  | _, .nan _ => .nan false
  | .inf a, .inf b => if a = b then .inf a else .nan false
  | .inf a, .fin _ _ _ => .inf a
  | .fin _ _ _, .inf b => .inf b
  | .fin n1 m1 e1, .fin n2 m2 e2 => addFin rnd n1 m1 e1 n2 m2 e2

/-- The exact product of two values (R105). -/
def mulNum : Num → Num → Num
  | .nan _, _ => .nan false
  | _, .nan _ => .nan false
  | .inf a, .inf b => .inf (a != b)
  | .inf a, .fin b m _ => if m = 0 then .nan false else .inf (a != b)
  | .fin b m _, .inf a => if m = 0 then .nan false else .inf (a != b)
  | .fin n1 m1 e1, .fin n2 m2 e2 => .fin (n1 != n2) (m1 * m2) (e1 + e2)

/-- An arithmetic result in a type: NaN canonical with sign 0 (R70), an operand's infinity whatever the saturate bit (R105),
otherwise rounded once (R77). -/
def result (ty : Ty) (rnd : Rnd) (sat : Bool) : Num → Nat
  | .nan _ => nanOf ty false
  | .inf n => roundTo ty rnd false 0 (.inf n)
  | .fin n m e => roundTo ty rnd sat 0 (.fin n m e)

/-! ## Floating lanes (R105, R107) -/

/-- A pattern is a NaN. -/
def isNan (ty : Ty) (p : Nat) : Bool :=
  match value ty p with
  | .nan _ => true
  | _ => false

/-- The order of floating patterns that are not NaN, with -0 equal to +0 (R107). -/
def floatKey (ty : Ty) (p : Nat) : Int :=
  let h := 2 ^ (ty.width - 1)
  if h ≤ p then -((p - h : Nat) : Int) else (p : Int)

/-- a = b of floating patterns (R107). -/
def fEq (ty : Ty) (a b : Nat) : Bool := !isNan ty a && !isNan ty b && floatKey ty a = floatKey ty b
/-- a < b of floating patterns (R107). -/
def fLt (ty : Ty) (a b : Nat) : Bool := !isNan ty a && !isNan ty b && floatKey ty a < floatKey ty b
/-- a ≤ b of floating patterns (R107). -/
def fLe (ty : Ty) (a b : Nat) : Bool := !isNan ty a && !isNan ty b && floatKey ty a ≤ floatKey ty b

/-- a stands below b with -0 below +0 (R105). -/
def fBelow (ty : Ty) (a b : Nat) : Bool :=
  floatKey ty a < floatKey ty b || (floatKey ty a = floatKey ty b && 2 ^ (ty.width - 1) ≤ a && b < 2 ^ (ty.width - 1))

/-- Minimum (R105). -/
def fMin (ty : Ty) (a b : Nat) : Nat := if isNan ty a || isNan ty b then nanOf ty false else if fBelow ty b a then b else a
/-- Maximum (R105). -/
def fMax (ty : Ty) (a b : Nat) : Nat := if isNan ty a || isNan ty b then nanOf ty false else if fBelow ty a b then b else a
/-- Absolute value: only the sign bit changes (R70, R105). -/
def fAbs (ty : Ty) (a : Nat) : Nat := a % 2 ^ (ty.width - 1)
/-- Negation: only the sign bit changes (R70, R105). -/
def fNeg (ty : Ty) (a : Nat) : Nat :=
  if 2 ^ (ty.width - 1) ≤ a then a - 2 ^ (ty.width - 1) else a + 2 ^ (ty.width - 1)
/-- Sum, rounded once (R105). -/
def fAdd (ty : Ty) (rnd : Rnd) (sat : Bool) (a b : Nat) : Nat := result ty rnd sat (addNum rnd (value ty a) (value ty b))
/-- Difference, rounded once (R105). -/
def fSub (ty : Ty) (rnd : Rnd) (sat : Bool) (a b : Nat) : Nat :=
  result ty rnd sat (addNum rnd (value ty a) (value ty b).negate)
/-- Product, rounded once (R105). -/
def fMul (ty : Ty) (rnd : Rnd) (sat : Bool) (a b : Nat) : Nat := result ty rnd sat (mulNum (value ty a) (value ty b))
/-- a × b + c, rounded once (R105). -/
def fFma (ty : Ty) (rnd : Rnd) (sat : Bool) (a b c : Nat) : Nat :=
  result ty rnd sat (addNum rnd (mulNum (value ty a) (value ty b)) (value ty c))

/-! ## Transcendentals (R85 to R89), on f32 patterns -/

/-- f32 multiplication of a definition's step (R85). -/
def mul32 (a b : Nat) : Nat := fMul .f32 .rn false a b
/-- f32 addition of a definition's step (R85). -/
def add32 (a b : Nat) : Nat := fAdd .f32 .rn false a b
/-- f32 subtraction of a definition's step (R85). -/
def sub32 (a b : Nat) : Nat := fSub .f32 .rn false a b
/-- A finite f32 pattern times 2^k with a sign, rounded once. -/
def scale32 (neg : Bool) (p : Nat) (k : Int) : Nat :=
  match value .f32 p with
  | .fin _ m e => roundTo .f32 .rn false 0 (.fin neg m (e + k))
  | .inf _ => roundTo .f32 .rn false 0 (.inf neg)
  | .nan _ => nanOf .f32 false
/-- The f32 pattern of m in x = m × 2^e with 1 ≤ m < 2 (R85). -/
def mant32 (m : Nat) : Nat := roundTo .f32 .rn false 0 (.fin false m (-(Nat.log2 m : Int)))
/-- 1.0, 0.5 and 1.5 in f32. -/
def one32 : Nat := f32OfDecimal false 1 0
/-- 0.5. -/
def half32 : Nat := f32OfDecimal false 5 1
/-- 1.5. -/
def threeHalves32 : Nat := f32OfDecimal false 15 1

/-- A Horner evaluation p × g + c step by step (R86, R87). -/
def horner32 (g p : Nat) (cs : List Nat) : Nat := cs.foldl (fun p c => add32 (mul32 p g) c) p

/-- exp2 (R86). -/
def exp2f (x : Nat) : Nat :=
  match value .f32 x with
  | .nan _ => nanOf .f32 false
  | .inf neg => if neg then 0 else 0x7F800000
  | .fin neg m e =>
    if 0x43800000 ≤ x % 2 ^ 31 then (if neg then 0 else 0x7F800000) else
    let k : Int := roundGrid .rn neg m e 0 0
    let n := if neg then -k else k
    let g := roundTo .f32 .rn false 0 (addNum .rn (.fin neg m e) (numOf (-n) 0))
    let p := horner32 g (f32OfDecimal false 154035304 12)
      [f32OfDecimal false 133335581 11, f32OfDecimal false 961812911 11, f32OfDecimal false 555041087 10,
        f32OfDecimal false 240226507 9, f32OfDecimal false 693147181 9, one32]
    scale32 false p n

/-- The estimate and three steps of R88 on 1 ≤ m < 2. -/
def rcpSteps (m : Nat) : Nat :=
  let y := add32 (mul32 (f32OfDecimal true 470588235 9) m) (f32OfDecimal false 141176471 8)
  let f := fun y => add32 y (mul32 y (sub32 one32 (mul32 m y)))
  f (f (f y))

/-- rcp (R88). -/
def rcpf (x : Nat) : Nat :=
  match value .f32 x with
  | .nan _ => nanOf .f32 false
  | .inf neg => if neg then 0x80000000 else 0
  | .fin neg m e =>
    if m = 0 then (if neg then 0xFF800000 else 0x7F800000) else
    scale32 neg (rcpSteps (mant32 m)) (-(e + (Nat.log2 m : Int)))

/-- log2 (R87). -/
def log2f (x : Nat) : Nat :=
  match value .f32 x with
  | .nan _ => nanOf .f32 false
  | .inf neg => if neg then nanOf .f32 false else 0x7F800000
  | .fin neg m e =>
    if m = 0 then 0xFF800000 else if neg then nanOf .f32 false else
    let m1 := mant32 m
    let e1 := e + (Nat.log2 m : Int)
    let big : Bool := 0x3FB504F3 < m1
    let mm := if big then scale32 false m1 (-1) else m1
    let ee := if big then e1 + 1 else e1
    let z := mul32 (sub32 mm one32) (rcpf (add32 mm one32))
    let q := horner32 (mul32 z z) (f32OfDecimal false 320598898 9)
      [f32OfDecimal false 412198583 9, f32OfDecimal false 577078017 9, f32OfDecimal false 961796694 9,
        f32OfDecimal false 288539008 8]
    add32 (roundTo .f32 .rn false 0 (numOf ee 0)) (mul32 q z)

/-- rsqrt (R89). -/
def rsqrtf (x : Nat) : Nat :=
  match value .f32 x with
  | .nan _ => nanOf .f32 false
  | .inf neg => if neg then nanOf .f32 false else 0
  | .fin neg m e =>
    if m = 0 then (if neg then 0xFF800000 else 0x7F800000) else if neg then nanOf .f32 false else
    let e1 := e + (Nat.log2 m : Int)
    let odd : Bool := e1 % 2 ≠ 0
    let mm := if odd then scale32 false (mant32 m) 1 else mant32 m
    let ee := if odd then e1 - 1 else e1
    let y0 := horner32 mm (f32OfDecimal false 571428571 10) [f32OfDecimal true 452380952 9, f32OfDecimal false 139523810 8]
    let h := mul32 half32 mm
    let f := fun y => mul32 y (sub32 threeHalves32 (mul32 h (mul32 y y)))
    scale32 false (f (f (f y0))) (-(ee / 2))

/-- A transcendental on a floating type: bf16 and f16 go through f32 and round at the end (R85). -/
def viaF32 (f : Nat → Nat) (ty : Ty) (rnd : Rnd) (a : Nat) : Nat :=
  if ty = .f32 then f a else convert .f32 ty rnd false 0 (f (convert ty .f32 .rn false 0 a))

/-! ## Integer lanes (R94, R106, R107) -/

/-- A result wrapped, or clamped when the operation saturates (R106). -/
def intResult (ty : Ty) (sat : Bool) (x : Int) : Nat := wrapInt ty.width (if sat then clampTo ty x else x)
/-- The high half of the product (R92, R106). -/
def mulHigh (ty : Ty) (a b : Nat) : Nat := wrapInt ty.width (intVal ty a * intVal ty b / (2 ^ ty.width : Nat))
/-- Shift left by an unsigned amount (R94). -/
def shiftL (w a n : Nat) : Nat := if n < w then a * 2 ^ n % 2 ^ w else 0
/-- Logical shift right (R94). -/
def shiftR (w a n : Nat) : Nat := if n < w then a % 2 ^ w / 2 ^ n else 0
/-- Arithmetic shift right (R94). -/
def shiftA (w a n : Nat) : Nat := wrapInt w (sextNat w a / (2 ^ Nat.min n w : Nat))
/-- Rotate left (R94). -/
def rotL (w a n : Nat) : Nat := (a % 2 ^ w * 2 ^ (n % w) + a % 2 ^ w / 2 ^ (w - n % w)) % 2 ^ w
/-- All ones where the relation holds (R107). -/
def maskOf (w : Nat) (b : Bool) : Nat := if b then 2 ^ w - 1 else 0

/-- The lane operations that vector instructions and stages share. -/
inductive LaneOp where
  | add | sub | mul | fma | min | max | abs | neg | mulh | adds | subs | and | or | xor | not | andn | shl | shr | sra
  | eq | ne | lt | le | exp2 | log2 | rcp | rsqrt
deriving DecidableEq, Repr

/-- A lane operation on floating patterns (R105, R107, R184, R185). -/
def floatLane (op : LaneOp) (ty : Ty) (rnd : Rnd) (sat : Bool) (a b c : Nat) : Nat :=
  match op with
  | .add | .adds => fAdd ty rnd sat a b
  | .sub | .subs => fSub ty rnd sat a b
  | .mul | .mulh => fMul ty rnd sat a b
  | .fma => fFma ty rnd sat a b c
  | .min => fMin ty a b
  | .max => fMax ty a b
  | .abs => fAbs ty a
  | .neg => fNeg ty a
  | .eq => maskOf ty.width (fEq ty a b)
  | .ne => maskOf ty.width (!fEq ty a b)
  | .lt => maskOf ty.width (fLt ty a b)
  | .le => maskOf ty.width (fLe ty a b)
  | .exp2 => viaF32 exp2f ty rnd a
  | .log2 => viaF32 log2f ty rnd a
  | .rcp => viaF32 rcpf ty rnd a
  | .rsqrt => viaF32 rsqrtf ty rnd a
  | .and => Nat.land a b
  | .or => Nat.lor a b
  | .xor => Nat.xor a b
  | .not => 2 ^ ty.width - 1 - a
  | .andn => Nat.land a (2 ^ ty.width - 1 - b)
  | .shl => shiftL ty.width a b
  | .shr => shiftR ty.width a b
  | .sra => shiftA ty.width a b

/-- A lane operation on integer patterns (R106, R107, R183, R185, R186). -/
def intLane (op : LaneOp) (ty : Ty) (sat : Bool) (a b : Nat) : Nat :=
  let x := intVal ty a
  let y := intVal ty b
  match op with
  | .add => intResult ty sat (x + y)
  | .sub => intResult ty sat (x - y)
  | .adds => intResult ty true (x + y)
  | .subs => intResult ty true (x - y)
  | .mul => intResult ty sat (x * y)
  | .mulh => mulHigh ty a b
  | .min => if y < x then b else a
  | .max => if x < y then b else a
  | .abs => intResult ty sat (x.natAbs : Int)
  | .neg => intResult ty sat (-x)
  | .and => Nat.land a b
  | .or => Nat.lor a b
  | .xor => Nat.xor a b
  | .not => 2 ^ ty.width - 1 - a % 2 ^ ty.width
  | .andn => Nat.land a (2 ^ ty.width - 1 - b % 2 ^ ty.width)
  | .shl => shiftL ty.width a b
  | .shr => shiftR ty.width a b
  | .sra => shiftA ty.width a b
  | .eq => maskOf ty.width (x = y)
  | .ne => maskOf ty.width (x ≠ y)
  | .lt => maskOf ty.width (x < y)
  | .le => maskOf ty.width (x ≤ y)
  | .fma | .exp2 | .log2 | .rcp | .rsqrt => a

/-- A lane operation by the kind of its type. -/
def laneOp (op : LaneOp) (ty : Ty) (rnd : Rnd) (sat : Bool) (a b c : Nat) : Nat :=
  if ty.isVFloat then floatLane op ty rnd sat a b c else intLane op ty sat a b

/-- A lane operation over whole tokens: element e from the operands' elements e (R104, R174). -/
def laneMap (op : LaneOp) (ty : Ty) (rnd : Rnd) (sat : Bool) (a b c : Vec512) : Vec512 :=
  pack ty.width ((List.range ty.lanes).map fun e =>
    laneOp op ty rnd sat (elem ty.width a e) (elem ty.width b e) (elem ty.width c e))

/-- One step of a reduction in ascending order (R111, R193). -/
def reduceStep (op : RedOp) (ty : Ty) (acc x : Nat) : Nat :=
  let l : LaneOp := match op with
    | .add => .add | .min => .min | .max => .max | .and => .and | .or => .or | .xor => .xor
  laneOp l ty .rn false acc x 0

/-- A reduction of elements in ascending order (R111, R193). -/
def reduceList (op : RedOp) (ty : Ty) : List Nat → Nat
  | [] => 0
  | x :: xs => xs.foldl (reduceStep op ty) x

/-! ## The dot sum (R83) -/

/-- The largest exponent of the nonzero finite terms, or the start value. -/
def topExp (ts : List Num) : Option Int :=
  ts.foldl (fun acc t =>
    match t with
    | .fin _ m e =>
      if m = 0 then acc else
      let l : Int := (Nat.log2 m : Int) + e
      match acc with
      | none => some l
      | some a => some (max a l)
    | _ => acc) none

/-- A finite term truncated toward minus infinity to units of 2^(E-72) (R83 step 3). -/
def alignTerm (E : Int) : Num → Int
  | .fin neg m e =>
    let s := e + 72 - E
    let x : Int := if neg then -(m : Int) else m
    if 0 ≤ s then x * (2 ^ s.toNat : Nat) else x / (2 ^ (-s).toNat : Nat)
  | _ => 0

/-- dot_sum (R83): the f32 pattern of a sum of exact terms. -/
def dotSum (ts : List Num) : Nat :=
  let nan := ts.any fun t => match t with | .nan _ => true | _ => false
  let pinf := ts.any fun t => t = .inf false
  let ninf := ts.any fun t => t = .inf true
  if nan || (pinf && ninf) then nanOf .f32 false
  else if pinf then 0x7F800000
  else if ninf then 0xFF800000
  else match topExp ts with
    | none => 0
    | some E =>
      let s := ts.foldl (fun acc t => acc + alignTerm E t) 0
      if s = 0 then 0 else roundTo .f32 .rn false 0 (numOf s (E - 72))

end Sys2Proof.Machine
end

