-- ==== Sys2Proof/Machine/Operands.lean ====
section
/-! DEFINITION. Operands of the thread's instructions: registers (R50, R90), immediates and targets (R24, R97, R99), effective
addresses (R25, R113), integer operands and results by type (R91), bit fields (R95), and what an atomic computes (R118). -/

namespace Sys2Proof.Machine

open Sys2Proof

/-- Read a g register; g0 reads zero (R50). -/
def readG (t : Thread) (r : GReg) : Word := if r = 0 then 0 else t.g[r.toNat]'r.isLt

/-- Write a g register; a write to g0 is discarded (R50, R90). -/
def writeG (t : Thread) (r : GReg) (x : Word) : Thread := if r = 0 then t else { t with g := t.g.set r.toNat x r.isLt }

/-- Read a v register (R50). -/
def readV (t : Thread) (r : VReg) : Vec512 := t.v[r.toNat]'r.isLt

/-- Write a v register (R50). -/
def writeV (t : Thread) (r : VReg) (x : Vec512) : Thread := { t with v := t.v.set r.toNat x r.isLt }

/-- Read a key register (R50). -/
def readK (t : Thread) (r : KReg) : KeyReg := t.k[r.toNat]'r.isLt

/-- Write a key register (R50). -/
def writeK (t : Thread) (r : KReg) (x : KeyReg) : Thread := { t with k := t.k.set r.toNat x r.isLt }

/-- Word 0 of a key register (R52). -/
def keyWord0 (k : KeyReg) : Word :=
  w64 ((if k.valid then 2 ^ 63 else 0) + k.tensor.toNat * 2 ^ 32 + k.step.toNat)

/-- A sign-extended field (R24). -/
def sx {n : Nat} (x : BitVec n) : Word := x.signExtend 64
/-- A zero-extended field (R24). -/
def zx {n : Nat} (x : BitVec n) : Word := x.setWidth 64

/-- A word offset from the address of the instruction (R24, R99). -/
def wordTarget {n : Nat} (pc : Word) (off : BitVec n) : Word := pc + 4 * sx off

/-- The effective address of a memory word (R25, R113). -/
def effAddr (t : Thread) (base : GReg) (off : BitVec 11) (width : Nat) : Word := readG t base + sx off * w64 width

/-- Access width of a size code (R25). -/
def sizeWidth (size : BitVec 3) : Nat := 2 ^ (size.toNat % 4)
/-- A size code extends the sign (R25). -/
def sizeSigned (size : BitVec 3) : Bool := 4 ≤ size.toNat

/-- A loaded number of some bytes, extended to 64 bits (R116). -/
def loadValue (signed : Bool) (b : List Byte) : Word :=
  if signed then BitVec.ofInt 64 (sextNat (8 * b.length) (leNat b)) else w64 (leNat b)

/-! ## Integer operations (R91 to R95) -/

/-- The low bits of a register as a pattern of a type's width (R91). -/
def pattern (ty : Ty) (x : Word) : Nat := x.toNat % 2 ^ ty.width

/-- A register read at a type's width, signed or unsigned (R91). -/
def operand (ty : Ty) (x : Word) : Int := intVal ty (pattern ty x)

/-- A pattern of a type's width extended to 64 bits (R91). -/
def extendTy (ty : Ty) (p : Nat) : Word :=
  if ty.isSigned then BitVec.ofInt 64 (sextNat ty.width p) else w64 (p % 2 ^ ty.width)

/-- An exact result reduced to the width and extended (R91). -/
def intResultW (ty : Ty) (x : Int) : Word := extendTy ty (wrapInt ty.width x)

/-- A compare's result (R92). -/
def flag01 (b : Bool) : Word := if b then 1 else 0

/-- The quotient of R93. -/
def quotient (a b : Int) : Int := if b = 0 then -1 else a.tdiv b

/-- The remainder of R93. -/
def remainder (a b : Int) : Int := if b = 0 then a else a.tmod b

/-- Number of leading zero bits of a pattern of a width (R92). -/
def leadingZeros (w p : Nat) : Nat := if p = 0 then w else w - 1 - Nat.log2 p

/-- Number of one bits among the low bits of a pattern (R92). -/
def onesCount (w p : Nat) : Nat := ((List.range w).filter fun i => p / 2 ^ i % 2 = 1).length

/-- Position and length of a bit field (R95). -/
def fieldSpan (gb : Word) : Nat × Nat :=
  let pos := bits gb 5 0
  let len := bits gb 12 6
  (pos, if pos + len ≤ 64 then len else 64 - pos)

/-- Extraction of a bit field (R95). -/
def extractField (ty : Ty) (a gb : Word) : Word :=
  let (pos, len) := fieldSpan gb
  let f := a.toNat / 2 ^ pos % 2 ^ len
  if len = 0 then 0 else if ty.isSigned then BitVec.ofInt 64 (sextNat len f) else w64 f

/-- Insertion of a bit field into a register (R95). -/
def insertField (old a gb : Word) : Word :=
  let (pos, len) := fieldSpan gb
  let x := old.toNat
  w64 (x - x / 2 ^ pos % 2 ^ len * 2 ^ pos + a.toNat % 2 ^ len * 2 ^ pos)

/-- LUI's value: the immediate at bit 16h, the sign taken from bit 16h + 15 (R97). -/
def luiValue (imm : BitVec 16) (h : BitVec 2) : Word := BitVec.ofInt 64 (imm.toInt * 2 ^ (16 * h.toNat))

/-! ## Atomics (R118) -/

/-- What an atomic writes, by the old value, the operand and the compare value, as patterns of the type's width (R118). -/
def amoNew (op : AmoOp) (ty : Ty) (old operand compare : Nat) : Nat :=
  let b := operand % 2 ^ ty.width
  match op with
  | .swap => b
  | .add => (old + b) % 2 ^ ty.width
  | .and => old &&& b
  | .or => old ||| b
  | .xor => old ^^^ b
  | .min => if intVal ty b < intVal ty old then b else old
  | .max => if intVal ty old < intVal ty b then b else old
  | .cas => if old = compare % 2 ^ ty.width then b else old
  | .fadd => fAdd ty .rn false old b

/-- The old value as it is returned: f32 and bf16 patterns zero-extended (R118). -/
def amoOld (ty : Ty) (old : Nat) : Word := extendTy ty old

end Sys2Proof.Machine
end

