-- ==== Sys2Proof/Machine/Space.lean ====
section
/-! DEFINITION. Addresses: translation (R306 to R309), pots (R113, R150, R202, R203), presence bits (R311), the store buffer and
the global-read buffer of a sequencer (R65, R66), and wake words (R57). -/

namespace Sys2Proof.Machine

open Sys2Proof

/-! ## Wake words (R57) -/

/-- Send a wake word to every thread whose wait reason a predicate accepts. -/
def wakeWhere (s : State) (p : WaitReason → Bool) : State :=
  { s with wakes := s.wakes ++ s.threads.filterMap fun (tid, t) =>
      match t.run with
      | .waiting r => if p r then some { tid := tid, reason := r } else none
      | .ready => none }

/-- Send a wake word to one thread for the reason it waits for, if the predicate accepts it. -/
def wakeOne (s : State) (tid : Nat) (p : WaitReason → Bool) : State :=
  match s.thread? tid with
  | some t =>
    match t.run with
    | .waiting r => if p r then { s with wakes := s.wakes ++ [{ tid := tid, reason := r }] } else s
    | .ready => s
  | none => s

/-- A resident slot of a logical core that no thread holds. -/
def freeSlot (s : State) (lc : Nat) : Option Nat :=
  firstFrom (fun i => !(s.threads.any fun (_, t) => t.lcore = lc && t.seat = .resident i)) 0 32

/-- A thread's record stands in the local store (R49). -/
def Thread.isSpilled (t : Thread) : Bool := match t.seat with
  | .spilled _ => true
  | .resident _ => false

/-- Where a thread that becomes ready stands: a spilled one takes a resident slot that is free (R58). -/
def readySeat (s : State) (t : Thread) : Seat :=
  if t.isSpilled then ((freeSlot s t.lcore).map Seat.resident).getD t.seat else t.seat

/-- End a wait: the thread becomes ready, or spilled-ready where no resident slot is free (R57, R58). -/
def endWait (s : State) (tid : Nat) : State :=
  match s.thread? tid with
  | some t => ({ s with arrivals := s.arrivals + 1 }).setThread tid
      { t with run := .ready, waitedSlots := 0, readySince := s.arrivals, seat := readySeat s t }
  | none => s

/-- The spilled-ready thread of a core that became so first (R58). -/
def oldestSpilled (s : State) (lc : Nat) : Option (Nat × Thread) :=
  s.threads.foldl (fun (acc : Option (Nat × Thread)) (tid, t) =>
    if t.lcore = lc && t.isSpilled && t.run = .ready then
      match acc with
      | some (_, a) => if t.readySince < a.readySince then some (tid, t) else acc
      | none => some (tid, t)
    else acc) none

/-- A slot of a core has become free: the oldest spilled-ready thread takes it (R58). -/
def seatOldest (s : State) (lc : Nat) : State :=
  match oldestSpilled s lc, freeSlot s lc with
  | some (tid, t), some i => s.setThread tid { t with seat := .resident i }
  | _, _ => s

/-- Let the held threads of a logical core back into the ready set when a predicate accepts what holds them (R62, R66). -/
def release (s : State) (p : Nat → Thread → WaitReason → Bool) : State :=
  { s with threads := tmap s.threads fun tid t =>
      match t.run with
      | .waiting r => if p tid t r then { t with run := .ready, waitedSlots := 0 } else t
      | .ready => t }

/-! ## Physical memory -/

/-- First address past the G tier (R318). -/
def gEnd : Nat := 0x2000000000
/-- First address of the L tier (R318). -/
def lStart : Nat := 0x10000000000
/-- First address past the L tier (R318). -/
def lEnd : Nat := 0x1C000000000

/-- An address lies in populated memory (R318). -/
def populated (pa : Nat) : Bool := pa < gEnd || (lStart ≤ pa && pa < lEnd)

/-- The granules that n bytes from an address touch (R203, R302). -/
def granules (a n : Nat) : List Nat :=
  if n = 0 then [] else (List.range ((a + n - 1) / 16 + 1 - a / 16)).map (· + a / 16)

/-- The granules that n bytes from an address cover whole. -/
def wholeGranules (a n : Nat) : List Nat := (granules a n).filter fun g => a ≤ 16 * g && 16 * g + 16 ≤ a + n

/-- Write bytes to the tiers; a whole granule clears its poison mark (R302). -/
def State.writeMem (s : State) (pa : Nat) (b : List Byte) : State :=
  { s with mem := mwrites s.mem pa b, poison := (wholeGranules pa b.length).foldl nsDel s.poison }

/-- The device of its tier that holds an address: 256 bytes each across the 32 of the G tier, and across the 8 of the L tier
(R302). -/
def tierDevice (pa : Nat) : Nat := if pa < lStart then pa / 256 % 32 else (pa - lStart) / 256 % 8

/-- The rim die that owns a physical address, and performs the accesses to it whichever die has translated them (R294, R302).
DESIGN CHOICE (log 82): R302 gives each rim die half of a tier's devices and not which; here rim die 0 has the lower half. -/
def ownerRim (pa : Nat) : Nat := if pa < lStart then tierDevice pa / 16 else tierDevice pa / 4

/-- Bytes of the tiers. -/
def State.readMem (s : State) (pa n : Nat) : List Byte := mreads s.mem pa n

/-- The first poisoned granule of the tiers among n bytes (R302). -/
def State.poisonAt (s : State) (pa n : Nat) : Option Nat := (granules pa n).find? (nsMem s.poison)

/-! ## Translation (R306 to R309) -/

/-- The address field of an entry, bits [47:8] (R307). -/
def entryAddr (e : Word) : Nat := bits e 47 8 * 256

/-- A leaf that allows an access gives the address, otherwise the finding of R308. -/
def leafCheck (leaf : Word) (nbits va : Nat) (acc : Access) (user : Bool) : WalkResult :=
  let lv := if nbits = 16 then 3 else 2
  let allowed := (match acc with
    | .read => bit leaf 2
    | .write => bit leaf 3
    | .atomic => bit leaf 2 && bit leaf 3
    | .fetch => bit leaf 4) && (!user || bit leaf 5)
  let pa := entryAddr leaf + va % 2 ^ nbits
  if !allowed then .fail true 3 lv
  else if !populated pa then .fail true 4 lv
  else .ok pa

/-- What a walk finds at one level: a failure, a leaf with its page size, or the next table (R308). -/
inductive LevelFinding where
  | fail (protect : Bool) (reason : Nat)
  | leaf (e : Word) (nbits : Nat)
  | table (pa : Nat)
deriving DecidableEq, Repr

/-- Read one entry of a walk (R306 to R308). -/
def walkLevel (m : Memory) (level base idx : Nat) : LevelFinding :=
  let a := base + 8 * idx
  if !populated a then .fail true 4 else
  let e := w64 (leNat (mreads m a 8))
  if !bit e 0 then .fail false 1
  else if bits e 63 48 ≠ 0 ∨ bit e 7 then .fail false 2
  else if bit e 1 then
    if level = 3 then (if bits e 15 8 ≠ 0 then .fail false 2 else .leaf e 16)
    else if level = 2 then (if bits e 20 8 ≠ 0 ∨ bit e 6 then .fail false 2 else .leaf e 21)
    else .fail false 2
  else
    if level = 3 ∨ bits e 6 2 ≠ 0 then .fail false 2
    else if level ≠ 2 ∧ bits e 15 8 ≠ 0 then .fail false 2
    else .table (entryAddr e)

/-- Walk from a level down; the levels left to read bound the recursion (R306). -/
def walkFrom (m : Memory) (va : Nat) : Nat → Nat → Nat → Except WalkResult (Word × Nat)
  | 0, level, _ => .error (.fail false 2 level)
  | left + 1, level, base =>
    let idx := match level with
      | 0 => va / 2 ^ 47 % 32
      | 1 => va / 2 ^ 34 % 8192
      | 2 => va / 2 ^ 21 % 8192
      | _ => va / 2 ^ 16 % 32
    match walkLevel m level base idx with
    | .fail p r => .error (.fail p r level)
    | .leaf e n => .ok (e, n)
    | .table pa => walkFrom m va left (level + 1) pa

/-- A walk from a context's root to its leaf (R306 to R308). -/
def walk (m : Memory) (root : Word) (va : Nat) : Except WalkResult (Word × Nat) := walkFrom m va 4 0 (entryAddr root)

/-- The rim die that translates an address (R294). -/
def rimOf (va : Nat) : Nat := va / 2 ^ 21 % 2

/-- A buffered translation (R309). -/
def tlbHit (s : State) (ctx va : Nat) : Option TlbEntry :=
  (s.rim (rimOf va)).tlb.find? fun e => e.ctx = ctx && e.vpage = va / 2 ^ e.bits

/-- Buffer a successful translation; the buffer holds 16,384 (R309). -/
def tlbFill (s : State) (ctx va : Nat) (leaf : Word) (nbits : Nat) : State :=
  s.modRim (rimOf va) fun r =>
    { r with tlb := ({ ctx := ctx, vpage := va / 2 ^ nbits, bits := nbits, leaf := leaf } :: r.tlb).take 16384 }

/-- The n-th walk of a rim die ends: a translation is buffered, a failure is kept for the round that asked (R308, R309). -/
def endWalk (s : State) (rim n : Nat) : State :=
  match (s.rim rim).walks[n]? with
  | none => s
  | some w =>
    if w.result.isSome then s else
    let keep := fun (r : WalkResult) => s.modRim rim fun x => { x with walks := x.walks.set n { w with result := some r } }
    match walk s.mem (s.ctx w.ctx).root w.va with
    | .error r => keep r
    | .ok (leaf, nbits) =>
      match leafCheck leaf nbits w.va w.acc w.user with
      | .ok _ => tlbFill (s.modRim rim fun x => { x with walks := x.walks.eraseIdx n }) w.ctx w.va leaf nbits
      | r => keep r

/-- The walk that a request has to wait for: that of its page, or, while all 64 walks run, the first of them (R309). -/
def walkAwaited (r : Rim) (ctx va : Nat) : Option Nat :=
  let runs := r.walks.zipIdx.filter fun (w, _) => w.result.isNone
  match runs.find? fun (w, _) => w.ctx = ctx && w.va / 2 ^ 16 = va / 2 ^ 16 with
  | some (_, n) => some n
  | none => if 64 ≤ runs.length then runs.head?.map Prod.snd else none

/-- A request that has to wait for a walk is served when that walk has ended: the walk ends here, with the request that waited for
it (R309; the delay itself is no event of the model, log 83). -/
def awaitWalk (s : State) (ctx va : Nat) : State :=
  match walkAwaited (s.rim (rimOf va)) ctx va with
  | some n => endWalk s (rimOf va) n
  | none => s

/-- Translate an address through the buffer or a walk (R308, R309). -/
def translateNow (s : State) (ctx va : Nat) (acc : Access) (user : Bool) : WalkResult × Bool × State :=
  match tlbHit s ctx va with
  | some e => (leafCheck e.leaf e.bits va acc user, bit e.leaf 6, s)
  | none =>
    match walk s.mem (s.ctx ctx).root va with
    | .error r => (r, false, s)
    | .ok (leaf, nbits) =>
      match leafCheck leaf nbits va acc user with
      | .ok pa => (.ok pa, bit leaf 6, tlbFill s ctx va leaf nbits)
      | r => (r, false, s)

/-- Translate an address: the finding, whether its page has the presence attribute, and the state with what is buffered; a page
that is being walked is not walked a second time (R308, R309). -/
def translate (s : State) (ctx va : Nat) (acc : Access) (user : Bool) : WalkResult × Bool × State :=
  translateNow (if (tlbHit s ctx va).isSome then s else awaitWalk s ctx va) ctx va acc user

/-- The cause of a failed walk (R308). -/
def walkCause : WalkResult → Cause
  | .fail protect _ _ => if protect then .protect else .page
  | .ok _ => .page

/-! ## Pots (R113, R150, R202, R203) -/

/-- The tile that is a pot index (R150). -/
def potTile (p : Nat) : Nat := 12 * (p / 6) + 2 * (p % 6) + (if p / 6 % 2 = 0 then 1 else 0)

/-- The pot index of a pot's tile (R150). -/
def potIndex (tile : Nat) : Nat := 6 * (tile / 12) + tile % 12 / 2

/-- A pot is in scratchpad mode: its active configuration says so, or, where that gives the pot no mode, the mode that the last
configuration with one has left (R113, R383, log 7). -/
def isScratch (t : Tile) : Bool :=
  match t.active with
  | some c =>
    match c.kind with
    | .pot (.scratch _) => true
    | .pot _ => false
    | _ => t.scratch
  | none => t.scratch

/-- Write bytes of a pot; a whole granule clears its poison bit (R203). -/
def State.potWrite (s : State) (core addr : Nat) (b : List Byte) : State :=
  s.modCore core fun c =>
    { c with pots := mwrites c.pots addr b, poisoned := (wholeGranules addr b.length).foldl nsDel c.poisoned }

/-- Bytes of a pot. -/
def State.potRead (s : State) (core addr n : Nat) : List Byte := mreads (s.core core).pots addr n

/-- The first poisoned granule among n bytes of a pot (R203). -/
def State.potPoison (s : State) (core addr n : Nat) : Option Nat := (granules addr n).find? (nsMem (s.core core).poisoned)

/-- The key of a granule for waiters: core and granule. -/
def granuleKey (core addr : Nat) : Nat := core * 2 ^ 19 + addr / 16

/-- Set a granule full or empty (R117, R205). -/
def State.setFull (s : State) (core addr : Nat) (full : Bool) : State :=
  s.modCore core fun c => { c with full := nsPut c.full (addr / 16) full }

/-- The LDC that a fill satisfies: the one whose wait began first, ties to the lower identifier (R117). -/
def firstConsumer (ws : List Waiter) : Option Nat :=
  (ws.foldl (fun (acc : Option Waiter) w =>
    if !w.consume then acc else
    match acc with
    | none => some w
    | some a => if w.since < a.since ∨ (w.since = a.since ∧ w.tid < a.tid) then some w else acc) none).map Waiter.tid

/-- Wake the waiters of a full granule: every LDW and one LDC (R117). -/
def wakeGranule (s : State) (core addr : Nat) : State :=
  let k := granuleKey core addr
  let ws := (s.core core).waiters.filter fun w => w.key = k
  let c := firstConsumer ws
  (ws.filter fun w => !w.consume || c = some w.tid).foldl (fun s w => wakeOne s w.tid (· = .granule k)) s

/-- Fill a granule and wake its waiters (R117). -/
def State.fill (s : State) (core addr : Nat) : State := wakeGranule (s.setFull core addr true) core addr

/-! ## Presence bits (R311) -/

/-- Address and bit of the presence bit of a granule (R311). -/
def presenceBit (s : State) (pa : Nat) : Nat × Nat :=
  (s.mgmt.presBase.toNat + pa / 2 ^ 16 * 512 + pa / 16 % 4096 / 8, pa / 16 % 8)

/-- A granule of a presence page is full (R311). -/
def present (s : State) (pa : Nat) : Bool :=
  let (a, i) := presenceBit s pa
  (mread s.mem a).toNat / 2 ^ i % 2 = 1

/-- Set or clear a presence bit (R311). -/
def setPresent (s : State) (pa : Nat) (full : Bool) : State :=
  let (a, i) := presenceBit s pa
  let b := (mread s.mem a).toNat
  let on := b / 2 ^ i % 2 = 1
  let b' := if full then (if on then b else b + 2 ^ i) else (if on then b - 2 ^ i else b)
  { s with mem := mwrite s.mem a (BitVec.ofNat 8 b') }

/-- The deferred tokens that a rim die holds (R312). -/
def rimTokens : Nat := 4096

/-- The tokens in use at a rim die: an engine read that a fill has woken is no longer deferred (R312). -/
def Rim.inUse (r : Rim) : Nat := (r.deferred.filter fun d => !d.woken).length

/-- Reads that were held back from a rim die go on where it has a token free (R312). -/
def rimRoom (s : State) : State :=
  wakeWhere s fun r => match r with
    | .rim n => (s.rim n).inUse < rimTokens
    | _ => false

/-- Wake what a fill of a presence granule wakes: every deferred LDW and engine read and one LDC (R312). An engine read is woken
as one that reads the granule full, whatever its bit becomes meanwhile. A read that is held back before a rim die tries again,
since it no longer defers if the granule is its own (R312, R351). -/
def wakePresent (s : State) (pa : Nat) : State :=
  let g := pa / 16
  let ds := (s.rim 0).deferred ++ (s.rim 1).deferred
  let here := ds.filter fun d => d.pa / 16 = g
  let ws : List Waiter := here.filterMap fun d =>
    if d.loc.isNone then some { key := g, tid := d.tid, pc := d.pc, consume := d.consume, since := d.since } else none
  let c := firstConsumer ws
  let s := (ws.filter fun w => !w.consume || c = some w.tid).foldl
    (fun s w => wakeOne s w.tid (· = .presence (16 * g))) s
  let wake := fun (r : Rim) => { r with deferred := r.deferred.map fun d => if d.pa / 16 = g && d.loc.isSome then { d with woken := true } else d }
  wakeWhere ((s.modRim 0 wake).modRim 1 wake) fun r => match r with
    | .rim _ => true
    | _ => false

/-- Fill a presence granule (R311, R312). -/
def fillPresent (s : State) (pa : Nat) : State := wakePresent (setPresent s pa true) pa

/-! ## Where an access lands (R113) -/

/-- A place in a pot, or a physical address with its page's presence attribute. -/
inductive Loc where
  | pot (core addr : Nat)
  | glob (pa : Nat) (presence : Bool)
deriving DecidableEq, Repr

/-- The logical core that a pot address names in a cluster (R113). -/
def potCore (cl : Nat) (ea : Word) : Nat := 128 * cl + bits ea 29 23

/-- The checks of R113 on an effective address, in order; the trap's value is always the address. -/
def resolve (s : State) (t : Thread) (ea : Word) (width : Nat) (acc : Access) : Except Cause (Loc × State) :=
  if ea.toNat % width ≠ 0 then .error .align
  else if bit ea 63 then
    if bits ea 62 30 ≠ 0 ∨ 47 < bits ea 22 17 then .error .potrange else
    let lc := potCore (t.lcore / 128) ea
    let e := s.lct lc
    if !e.allocated ∨ e.ctx.toNat ≠ t.ctx then .error .protect else
    let core := s.phys lc
    if !isScratch (s.tile { core := core, tile := potTile (bits ea 22 17) }) then .error .potrange
    else .ok (.pot core (bits ea 22 0), s)
  else if bits ea 62 52 ≠ 0 then .error .protect
  else
    match translate s t.ctx ea.toNat acc (!bit t.status 0) with
    | (.ok pa, presence, s') => .ok (.glob pa presence, s')
    | (r, _, _) => .error (walkCause r)

/-! ## Sequencer buffers (R65, R66) -/

/-- The physical core that runs a thread. -/
def State.coreOf (s : State) (t : Thread) : Nat := s.phys t.lcore

/-- An acquire by a thread: every line of the sequencer's global-read buffer goes (R65, R114), and the thread's stores that
have not drained are found through every virtual address from now on (R66, R349). -/
def acquire (s : State) (core tid : Nat) : State :=
  s.modCore core fun c =>
    { c with readBuf := [], stores := c.stores.map fun e => if e.tid = tid then { e with allVa := true } else e }

/-- A thread has stores that have not drained (R66). -/
def hasStores (s : State) (core tid : Nat) : Bool := (s.core core).stores.any fun e => e.tid = tid

/-- Overlay a store on the lines of the same virtual address in a read buffer (R66). -/
def patchLines (lines : List Line) (ctx va : Nat) (b : List Byte) : List Line :=
  lines.map fun l => if l.ctx = ctx then { l with bytes := overlay (64 * l.line) l.bytes va b } else l

/-- A thread has releasing stores that have not drained (R338). -/
def hasReleases (s : State) (core tid : Nat) : Bool := (s.core core).stores.any fun e => e.tid = tid && e.rel

/-- The lines that hold the location of a store under another virtual address (R349). -/
def otherVaLine (e : StoreEntry) (l : Line) : Bool := l.pline = e.pa / 64 && !(l.ctx = e.ctx && l.line = e.va / 64)

/-- Perform a store that stood in the store buffer: lines of its virtual address are updated; a store that its thread finds
through every address takes the lines of its other addresses with it (R66, R349). -/
def performStore (s : State) (core : Nat) (e : StoreEntry) : State :=
  (s.writeMem e.pa e.bytes).modCore core fun c =>
    { c with readBuf := patchLines (if e.allVa then c.readBuf.filter fun l => !otherVaLine e l else c.readBuf) e.ctx e.va e.bytes }

/-- A thread that was held for the store buffer of this core may issue again (R66). -/
def releaseStores (s : State) (core : Nat) : State :=
  release s fun _ t r => r = .storeBuffer && s.phys t.lcore = core

/-- Drain every store of a thread, in program order (R61, R66). -/
def drainThread (s : State) (core tid : Nat) : State :=
  let mine := (s.core core).stores.filter fun e => e.tid = tid
  let s1 := s.modCore core fun c => { c with stores := c.stores.filter fun e => e.tid ≠ tid }
  releaseStores (mine.foldl (performStore · core) s1) core

/-- Drain the whole store buffer of a core, oldest first (R285). -/
def drainCore (s : State) (core : Nat) : State :=
  let all := (s.core core).stores
  let s1 := s.modCore core fun c => { c with stores := [] }
  releaseStores (all.foldl (performStore · core) s1) core

/-- A buffered line of a core's global-read buffer (R65). -/
def lineOf (s : State) (core ctx line : Nat) : Option Line :=
  (s.core core).readBuf.find? fun l => l.ctx = ctx && l.line = line

/-- Put a line into the read buffer of 512 lines (R65). -/
def fillLine (s : State) (core ctx line pline : Nat) (b : List Byte) : State :=
  s.modCore core fun c =>
    { c with readBuf := ({ ctx := ctx, line := line, pline := pline, bytes := b } ::
        c.readBuf.filter fun l => !(l.ctx = ctx && l.line = line)).take 512 }

/-- A store of a thread laid over bytes that it loads: through the same virtual address, and through every address of the
location once an acquire or an .acq fence has followed the store (R66, R349). -/
def forwardOne (tid ctx va pa : Nat) (b : List Byte) (e : StoreEntry) : List Byte :=
  if e.tid = tid && e.ctx = ctx then overlay va (if e.allVa then overlay pa b e.pa e.bytes else b) e.va e.bytes else b

/-- The undrained stores of a thread laid over bytes that it loads (R66). -/
def forward (s : State) (core tid ctx va pa : Nat) (b : List Byte) : List Byte :=
  (s.core core).stores.foldl (forwardOne tid ctx va pa) b

/-- How a load treats the read buffer: plain, bypass and refill, or acquire (R65, R116). -/
def loadGlobal (s : State) (core tid ctx va pa n : Nat) (q : LdQual) : List Byte × State :=
  let line := va / 64
  let fresh := fun (s : State) => s.readMem (pa - va % 64) 64
  match q with
  | .plain =>
    match lineOf s core ctx line with
    | some l =>
      let (miss, s') := s.choose
      if miss = 0 then (forward s' core tid ctx va pa ((l.bytes.drop (va % 64)).take n), s')
      else (forward s' core tid ctx va pa (s'.readMem pa n), fillLine s' core ctx line (pa / 64) (fresh s'))
    | none => (forward s core tid ctx va pa (s.readMem pa n), fillLine s core ctx line (pa / 64) (fresh s))
  | .fresh => (forward s core tid ctx va pa (s.readMem pa n), fillLine s core ctx line (pa / 64) (fresh s))
  | .acq => (forward s core tid ctx va pa (s.readMem pa n), acquire s core tid)

end Sys2Proof.Machine
end

