-- ==== Sys2Proof/Machine/Migrate.lean ====
section
/-! DEFINITION. Migration: which requests may be honoured (R133, R284) and the exchange of two cores (R285, R290). -/

namespace Sys2Proof.Machine

open Sys2Proof

/-- A report on its way to a thread's sequencer (R140). -/
def sendReport (s : State) (tid : Nat) (r : Report) : State := { s with reports := s.reports ++ [(tid, r)] }

/-- A report joins a thread's queue; one whose entry is queued already is absorbed (R140). -/
def queueReport (t : Thread) (r : Report) : Thread :=
  if r.slot ≠ 7 && t.reports.any fun q => q.slot = r.slot then t else { t with reports := t.reports ++ [r] }

/-- What holds a thread out of the ready set without being a wait of R57: no report ends it (R62, R66, R120). -/
def WaitReason.held : WaitReason → Bool
  | .storeBuffer | .remote | .atomic | .ratReply _ _ _ _ _ | .solve | .load => true
  | _ => false

/-- The turns a thread had registered at pots and presence pages go (R117). -/
def clearTurns (s : State) (tid : Nat) : State :=
  { s with
    cores := tmap s.cores fun _ c => { c with waiters := c.waiters.filter fun w => w.tid ≠ tid }
    rims := tmap s.rims fun _ r => { r with deferred := r.deferred.filter fun d => d.tid ≠ tid || d.loc.isSome } }

/-- The full granules at which a thread has an LDC's turn: cores with pot granules, and granules of presence pages. -/
def fullTurns (s : State) (tid : Nat) : List (Nat × Nat) × List Nat :=
  (s.cores.flatMap fun (n, c) => c.waiters.filterMap fun w =>
      if w.tid = tid && w.consume && nsMem c.full (w.key % 2 ^ 19) then some (n, w.key % 2 ^ 19) else none,
   s.rims.flatMap fun (_, r) => r.deferred.filterMap fun d =>
      if d.tid = tid && d.consume && d.loc.isNone && present s d.pa then some (d.pa / 16) else none)

/-- A thread gives up its turns: where a fill was its to consume, the one that is next in turn is woken for it (R117). -/
def dropTurns (s : State) (tid : Nat) : State :=
  let (ps, gs) := fullTurns s tid
  gs.foldl (fun s g => wakePresent s (16 * g)) (ps.foldl (fun s (n, g) => wakeGranule s n (16 * g)) (rimRoom (clearTurns s tid)))

/-- A report arrives at a thread's sequencer: it is queued, and ends a wait unless the thread is in a handler (R140). -/
def deliverReport (s : State) (tid : Nat) (r : Report) : State :=
  match s.thread? tid with
  | none => s
  | some t =>
    let s := s.setThread tid (queueReport t r)
    match t.run with
    | .ready => s
    | .waiting w => if t.inTrap || w.held then s else endWait (dropTurns s tid) tid

/-- The queue whose launch created a thread is charged one instruction (R269). -/
def chargeQueue (s : State) (t : Thread) : State :=
  match t.queue with
  | none => s
  | some q => s.modCluster (t.lcore / 128) fun c => { c with deficits := tmod c.deficits q 65536 (· - 1) }

/-- A thread after a completed instruction: SLICE is charged one (R59). A CSR write of SLICE is charged like any other
instruction, after its write: n − 1 is left of n (log 53). -/
def advance (t : Thread) (pc : Word) : Thread :=
  let left := if t.slice = 0 then 0 else t.slice - 1
  { t with pc := pc, slice := left, sliceDue := left = 0, run := .ready, waitedSlots := 0 }

/-- The group whose completed generation has released a thread that waits in its GBAR, outside a handler (R122). -/
def releasedBy (s : State) (t : Thread) (tid : Nat) : Option Nat :=
  match t.run with
  | .waiting (.group n) => if !t.inTrap && (tgetD s.groups n Group.none).passed.contains tid then some n else none
  | _ => none

/-- GBAR completes for a member that its generation has released (R122, R285 step 5). -/
def completeGbar (s : State) (tid : Nat) : State :=
  match s.thread? tid with
  | none => s
  | some t =>
    match releasedBy s t tid with
    | none => s
    | some n =>
      let s := { s with groups := tmod s.groups n Group.none fun g => { g with passed := g.passed.filter (· ≠ tid) } }
      chargeQueue ((endWait (acquire s (s.coreOf t) tid) tid).modThread tid fun x => advance x (t.pc + 4)) t

/-- A switch word of a configuration reads or drives a port of the array's north or south edge (R152, R172). -/
def wordDirect (tile : Nat) (w : SwitchWord) : Bool :=
  (tile < 12 && (w.dest = 0 || w.src = 0)) || (84 ≤ tile && tile < 96 && (w.dest = 2 || w.src = 2))

/-- A stage reads a port, numbered from 1 for north: as an input, or as the plane input of a dot stage (R155, R190). -/
def stageNames (g : StageCfg) (port : Nat) : Bool := g.srcA = port || g.srcB = port || (g.cls = 6 && g.md % 8 = port)

/-- A stage word reads the north or south port of a tile at the array's edge (R152, R155, R190). -/
def stageDirect (tile : Nat) (g : StageCfg) : Bool :=
  (tile < 12 && stageNames g 1) || (84 ≤ tile && tile < 96 && stageNames g 3)

/-- A configuration uses a direct neighbour link (R172). -/
def cfgDirect (tile : Nat) (c : TileCfg) : Bool :=
  c.switches.any (wordDirect tile) || (match c.kind with
    | .pan st => st.any (stageDirect tile)
    | _ => false)

/-- A launch occupies a core: it is starting or running (R268, R284). -/
def runsOn (s : State) (lc : Nat) : Bool :=
  (s.cluster (lc / 128)).launches.any fun (h, l) =>
    (l.state = .starting || l.state = .running) && (match s.handle? (lc / 128) h with
      | some x => x.entries.any fun e => e.lcore = lc
      | none => false)

/-- A configuration load is in progress on a core (R284). -/
def loadsOn (s : State) (lc : Nat) : Bool :=
  (s.cluster (lc / 128)).handles.any fun (_, x) => x.state = .loading && x.entries.any fun e => e.lcore = lc

/-- A core may not be exchanged with another now (R284). -/
def deferred (s : State) (lc other : Nat) : Bool :=
  let c := s.core (s.phys lc)
  let bad := (s.core (s.phys other)).retired
  runsOn s lc || loadsOn s lc ||
  c.tiles.any fun (i, t) =>
    (match t.active with
      | some a => cfgDirect i a || nsMem bad i
      | none => false) ||
    (match t.shadow with
      | some a => cfgDirect i a || nsMem bad i
      | none => false)

/-- Exchange two physical cores in a location (R285). -/
def swapLoc (a b : Nat) (l : TileLoc) : TileLoc :=
  if l.core = a then { l with core := b } else if l.core = b then { l with core := a } else l

/-- Exchange two physical cores in a wait key (R285). -/
def swapKey (a b key : Nat) : Nat :=
  if key / 2 ^ 19 = a then b * 2 ^ 19 + key % 2 ^ 19 else if key / 2 ^ 19 = b then a * 2 ^ 19 + key % 2 ^ 19 else key

/-- Exchange two physical cores in a wait reason (R285). -/
def swapReason (a b : Nat) : WaitReason → WaitReason
  | .granule k => .granule (swapKey a b k)
  | .barrier k => .barrier (swapKey a b k)
  | r => r

/-- The portable state of `y` on the silicon of `x` (R285 steps 2 and 3). -/
def moveOnto (x y : Core) (a b : Nat) : Core :=
  { x with
    fills := y.fills, tiles := y.tiles, dicts := y.dicts, cfgPath := y.cfgPath, pots := y.pots, full := y.full, poisoned := y.poisoned,
    replies := y.replies, joinDrops := y.joinDrops, corrected := y.corrected, staleReplies := y.staleReplies,
    repaired := y.repaired, finals := y.finals,
    waiters := y.waiters.map fun w => { w with key := swapKey a b w.key } }

/-- Drain a core's stores and drop its read buffer and instruction lines (R285 step 1). -/
def settleCore (s : State) (core : Nat) : State :=
  (drainCore s core).modCore core fun c => { c with readBuf := [], lines := [] }

/-- Rewrite every record that names a tile of the two cores (R285 step 3). -/
def swapNames (s : State) (a b : Nat) : State :=
  let rim := fun (r : Rim) => { r with
    walks := r.walks.map fun w => { w with loc := swapLoc a b w.loc },
    deferred := r.deferred.map fun d => { d with loc := d.loc.map (swapLoc a b) },
    engines := tmap r.engines fun _ l => swapLoc a b l }
  let cl := fun (c : Cluster) => { c with
    handles := tmap c.handles fun _ h => { h with entries := h.entries.map fun e => { e with loc := swapLoc a b e.loc } },
    launches := tmap c.launches fun _ l => { l with
      slots := tmap l.slots fun _ v => { v with
        recs := v.recs.map fun r => { r with core := (swapLoc a b { core := r.core, tile := r.tile }).core } } } }
  let s := (s.modRim 0 rim).modRim 1 rim
  let s := s.modCluster (a / 132) cl
  let port := fun (p : StreamPort) =>
    if p.desc.extractLsb 31 30 = 1 then
      { p with edge := { p.edge with tile := (swapLoc a b { core := p.edge.tile, tile := p.edge.pos }).core } }
    else p
  { s with
    fabric := { s.fabric with ports := tmap s.fabric.ports fun _ p => port p }
    wakes := s.wakes.map fun w => { w with reason := swapReason a b w.reason }
    threads := tmap s.threads fun _ t =>
      match t.run with
      | .waiting r => { t with run := .waiting (swapReason a b r) }
      | .ready => t }

/-- The exchange of two logical cores of one cluster (R285 steps 1 to 4). -/
def exchange (s : State) (S T : Nat) : State :=
  let a := s.phys S
  let b := s.phys T
  let s := settleCore (settleCore s a) b
  let x := s.core a
  let y := s.core b
  let s := (s.setCore a (moveOnto x y a b)).setCore b (moveOnto y x a b)
  let s := swapNames s a b
  let eS := s.lct S
  let eT := s.lct T
  (s.setLct S { eS with phys := eT.phys, migrating := false }).setLct T { eT with phys := eS.phys, migrating := false }

/-- A core has no live thread and no active configuration (R284). -/
def idleCore (s : State) (lc : Nat) : Bool :=
  !(s.threads.any fun (_, t) => t.lcore = lc) && !((s.core (s.phys lc)).tiles.any fun (_, t) => t.active.isSome)

/-- The target of a thermal request: the coolest idle core of the same context, ties to the lower number (R284). -/
def thermalTarget (s : State) (lc : Nat) : Option Nat :=
  let ctx := (s.lct lc).ctx
  let cands := (s.cluster (lc / 128)).lct.filterMap fun (i, e) =>
    let k := 128 * (lc / 128) + i
    if k ≠ lc ∧ e.allocated ∧ e.ctx = ctx ∧ e.phys.toNat < 132 ∧ idleCore s k then some k else none
  cands.foldl (fun acc k =>
    match acc with
    | none => some k
    | some m => if (s.core (s.phys k)).temp < (s.core (s.phys m)).temp then some k else some m) none

/-- The unhonoured MIGRATE requests of the threads on a core: thread and target (R133). -/
def migrateRequests (s : State) (lc : Nat) : List (Nat × Nat) :=
  s.threads.filterMap fun (tid, t) => if t.lcore = lc then t.migrateTo.map fun T => (tid, T) else none

/-- Honour a thread's MIGRATE request, or drop it, or leave it pending while it is deferred; the report comes after the
requester's GBAR (R284, R285). -/
def honourMigrate (lc : Nat) (s : State) (r : Nat × Nat) : State :=
  let (tid, T) := r
  let e := s.lct T
  let clear := fun (s : State) => s.modThread tid fun t => { t with migrateTo := none }
  if !e.allocated ∨ e.ctx ≠ (s.lct lc).ctx ∨ 132 ≤ e.phys.toNat then clear s
  else if deferred s lc T || deferred s T lc then s
  else
    let old := (s.lct lc).phys
    let v := w64 (T % 128 + 2 ^ 8 * old.toNat + 2 ^ 16 * e.phys.toNat)
    deliverReport (completeGbar (clear (exchange s lc T)) tid) tid
      { cause := .migrated, warning := true, precise := false, engine := 0, tvalue := v, slot := 6 }

/-- Honour a core's thermal request, unless it is deferred or has no target (R265, R284). -/
def honourThermal (s : State) (lc : Nat) : State :=
  if !(s.core (s.phys lc)).thermalRequest then s else
  match thermalTarget s lc with
  | some T =>
    if deferred s lc T || deferred s T lc then s
    else exchange (s.modCore (s.phys lc) fun c => { c with thermalRequest := false }) lc T
  | none => s

/-- The honouring point of one core: the requests of its threads, then its thermal request (R284, R285). -/
def honour (s : State) (lc : Nat) : State := honourThermal ((migrateRequests s lc).foldl (honourMigrate lc) s) lc

/-- The honouring point of R284: a generation completes for these members. -/
def honourAll (s : State) (members : List Nat) : State :=
  let cores := members.filterMap fun tid => (s.thread? tid).map Thread.lcore
  cores.dedup.foldl honour s

/-- A core holds no thread and no configuration, nor loads one (R283). -/
def vacant (s : State) (lc : Nat) : Bool :=
  !(s.threads.any fun (_, t) => t.lcore = lc) && !loadsOn s lc &&
  !((s.core (s.phys lc)).tiles.any fun (_, t) => t.active.isSome || t.shadow.isSome)

/-- A core that holds no thread and no configuration leaves its context: its pots are zeroed before another has it (R276,
R283). -/
def leaveCore (s : State) (lc : Nat) : State :=
  let e := s.lct lc
  if !vacant s lc || !e.allocated then s
  else (s.setLct lc { e with allocated := false, ended := false, dropped := false }).modCore (s.phys lc) fun c =>
    { c with zeroing := some e.ctx.toNat }

/-- A core leaves its context when its last thread has ended and its configurations are dropped (R283, log 44). -/
def leaveSpent (s : State) (lc : Nat) : State :=
  if (s.lct lc).ended && (s.lct lc).dropped then leaveCore s lc else s

/-- A thread on a core has ended (R283). -/
def threadEnded (s : State) (lc : Nat) : State := leaveSpent (s.setLct lc { s.lct lc with ended := true }) lc

/-- A configuration on a core has been dropped (R283). -/
def graphDropped (s : State) (lc : Nat) : State := leaveSpent (s.setLct lc { s.lct lc with dropped := true }) lc

end Sys2Proof.Machine
end

