-- ==== Sys2Proof/Machine/Sync.lean ====
section
/-! DEFINITION. What the sync unit and the sequencers keep for threads: the decision log (R134 to R136), exclusive objects and
places (R123 to R129), channels (R121), groups (R122), the key history (R131), and the creation and the end of a thread
(R49, R55, R61). -/

namespace Sys2Proof.Machine

open Sys2Proof

/-- Why an instruction does not complete: a precise trap with its value (R137), or a wait; the state a wait leaves holds
what the waiting instruction has registered (an arrival at a group, its turn at a granule), never a register. -/
inductive Stop where
  | trap (c : Cause) (v : Word)
  | wait (r : WaitReason) (s : State)
deriving DecidableEq, Repr

/-! ## The decision log (R134 to R136) -/

/-- Who decides: the context, whether the entry is accessed with user privilege, and whether a fault is passed over because
the thread retires by a nested trap (R136). -/
structure Decider where
  ctx : Nat
  user : Bool
  quiet : Bool
deriving DecidableEq, Repr

/-- A log entry (R134). -/
structure LogEntry where
  kind : Nat
  slot : Nat
  num : Nat
  cl : Nat
  tid : Nat
  val : Nat
deriving DecidableEq, Repr

/-- The thread whose instruction decides. -/
def Thread.decider (t : Thread) : Decider := { ctx := t.ctx, user := !bit t.status 0, quiet := false }

/-- LOGMODE[1:0], with mode 3 treated as off (R53). -/
def logMode (c : Ctx) : Nat := let m := bits c.logMode 1 0; if m = 3 then 0 else m

/-- LOGMODE with a new mode (R53, R136). -/
def withLogMode (c : Ctx) (m : Nat) : Ctx := { c with logMode := w64 (c.logMode.toNat / 4 * 4 + m) }

/-- The 16 bytes of an entry (R134). -/
def entryBytes (e : LogEntry) : List Byte :=
  leBytes 8 (e.kind + 2 ^ 8 * e.slot + 2 ^ 16 * e.num + 2 ^ 28 * e.cl + 2 ^ 32 * e.tid) ++ leBytes 8 (e.val % 2 ^ 32)

/-- The entry that 16 bytes hold (R134). -/
def entryOf (b : List Byte) : LogEntry :=
  let w := leNat (b.take 8)
  { kind := w % 256, slot := w / 2 ^ 8 % 256, num := w / 2 ^ 16 % 4096, cl := w / 2 ^ 28 % 2, tid := w / 2 ^ 32 % 65536,
    val := leNat ((b.drop 8).take 4) }

/-- The physical address of entry i, through the context's translation (R136). -/
def entryLoc (s : State) (d : Decider) (i : Nat) (acc : Access) : Except Stop (Nat × State) :=
  let va := w64 ((s.ctx d.ctx).logBase.toNat + 16 * i)
  if bits va 63 52 ≠ 0 then .error (.trap .protect va) else
  match translate s d.ctx va.toNat acc d.user with
  | (.ok pa, _, s') => .ok (pa, s')
  | (r, _, _) => .error (.trap (walkCause r) va)

/-- Write the next entry of the log (R134, R136). -/
def logWrite (s : State) (d : Decider) (e : LogEntry) : Except Stop State :=
  let c := s.ctx d.ctx
  let head := bits c.logHead 31 0
  if bits c.logHead 63 32 ≤ head then .error (.trap .logfull c.logHead) else
  match entryLoc s d head .write with
  | .error x => .error x
  | .ok (pa, s') =>
    .ok ((s'.writeMem pa (entryBytes e)).modCtx d.ctx fun c =>
      { c with logHead := w64 (bits c.logHead 63 32 * 2 ^ 32 + (head + 1)) })

/-- A wait that the state of the log can end: for an entry, or a WAITANY's, which waits for the logged slot while its context
replays (R136). -/
def WaitReason.onLog (r : WaitReason) : Bool := r = .decisionLog || r = .waitany

/-- The log has become incomplete: mode 3, which is treated as off, so that threads that wait on the log look again (R136). -/
def logLost (s : State) (d : Decider) : State := wakeWhere (s.modCtx d.ctx (withLogMode · 3)) WaitReason.onLog

/-- Record a decision while LOGMODE is 1 (R136). -/
def logRecord (s : State) (d : Decider) (e : LogEntry) : Except Stop State :=
  if logMode (s.ctx d.ctx) ≠ 1 then .ok s else
  match logWrite s d e with
  | .ok s' => .ok s'
  | .error x => if d.quiet then .ok (logLost s d) else .error x

/-- When the replay cursor has reached LOGHEAD, recording continues (R136). -/
def logTurn (c : Ctx) : Ctx :=
  if logMode c = 2 ∧ bits c.logHead 31 0 ≤ bits c.logMode 63 32 then withLogMode c 1 else c

/-- The entry that a replaying context must follow next, with its index; none when the context does not replay (R136). -/
def logNext (s : State) (d : Decider) : Except Stop (Option (Nat × LogEntry) × State) :=
  let s := s.modCtx d.ctx logTurn
  let c := s.ctx d.ctx
  if logMode c ≠ 2 then .ok (none, s) else
  let i := bits c.logMode 63 32
  match entryLoc s d i .read with
  | .ok (pa, s') => .ok (some (i, entryOf (s'.readMem pa 16)), s')
  | .error x => if d.quiet then .ok (none, logLost s d) else .error x

/-- A replayed decision has been made: the cursor advances, and threads that wait on the log look again (R136). -/
def logConsume (s : State) (d : Decider) : State :=
  wakeWhere (s.modCtx d.ctx fun c => logTurn { c with logMode := w64 (c.logMode.toNat + 2 ^ 32) }) WaitReason.onLog

/-! ## Objects and places (R123 to R129) -/

/-- A place entry that was never used (R384). -/
def Place.free : Place :=
  { obj := 0, owner := 0, requester := 0, ordinal := 0, round := 0, rank := 0, state := .abandoned }

/-- A handle of the sync unit: an object handle when the index is zero (R123). -/
def syncHandle (gen obj idx cl : Nat) : Word := w64 (gen * 2 ^ 56 + obj * 2 ^ 44 + idx * 2 ^ 29 + cl * 2 ^ 28)

/-- The generation of a place entry (R384). -/
def Cluster.placeGen (c : Cluster) (i : Nat) : Nat := tgetD c.placeGens i 1
/-- The generation of an object (R384). -/
def Cluster.objGen (c : Cluster) (n : Nat) : Nat := tgetD c.objGens n 1

/-- Change an object. -/
def modObj (s : State) (cl n : Nat) (f : SyncObj → SyncObj) : State :=
  s.modCluster cl fun c =>
    match tget c.objects n with
    | some o => { c with objects := tset c.objects n (f o) }
    | none => c

/-- Change a place. -/
def modPlace (s : State) (cl i : Nat) (f : Place → Place) : State :=
  s.modCluster cl fun c =>
    match tget c.places i with
    | some p => { c with places := tset c.places i (f p) }
    | none => c

/-- Free a place entry; its generation moves on (R123, R125, R384). -/
def freePlace (s : State) (cl i : Nat) : State :=
  s.modCluster cl fun c =>
    { c with places := tdel c.places i, placeGens := tset c.placeGens i (nextGen (c.placeGen i)) }

/-- What stands where an object decides next (R126, R127). -/
inductive WalkHead where
  | nobody
  | abandoned (i : Nat)
  | queued (i : Nat)
deriving DecidableEq, Repr

/-- The place an object decides about next: the first of the queue, or in ranked mode the place of the next rank of this
round (R126, R127). -/
def walkHead (c : Cluster) (o : SyncObj) : WalkHead :=
  let here := if o.ranked then
      o.queue.find? fun i => match tget c.places i with
        | some p => p.round = o.round && p.rank = o.nextRank
        | none => false
    else o.queue.head?
  match here with
  | none => .nobody
  | some i => match tget c.places i with
    | some p => if p.state = .abandoned then .abandoned i else .queued i
    | none => .nobody

/-- The next rank passes; after rank n − 1 the round ends (R127). -/
def passRank (o : SyncObj) : SyncObj :=
  if !o.ranked then o
  else if o.ranks ≤ o.nextRank + 1 then { o with nextRank := 0, round := o.round + 1 }
  else { o with nextRank := o.nextRank + 1 }

/-- Grant a queued place and send its owner the wake word (R125). -/
def grantPlace (s : State) (cl n i : Nat) : State :=
  let c := s.cluster cl
  let s := modObj s cl n fun o => { o with queue := o.queue.filter (· ≠ i), granted := some i, walking := false }
  let s := modPlace s cl i fun p => { p with state := .granted }
  match tget c.places i with
  | some p => wakeOne s p.owner (· = .place (syncHandle (c.placeGen i) n i cl))
  | none => s

/-- The log entry of a grant (R134, R135). -/
def grantEntry (s : State) (cl n i : Nat) : LogEntry :=
  match tget (s.cluster cl).places i with
  | some p => { kind := 1, slot := 0, num := n, cl := cl, tid := p.requester, val := p.ordinal.toNat % 2 ^ 32 }
  | none => { kind := 1, slot := 0, num := n, cl := cl, tid := 0, val := 0 }

/-- A place that a walk has reached is granted; an arrival-mode grant is a logged decision of its event, if that event logs
(R129, R134). -/
def grantReached (s : State) (d : Option Decider) (ranked : Bool) (cl n i : Nat) : Except Stop State :=
  match d with
  | some d => if ranked then .ok (grantPlace s cl n i)
              else (logRecord s d (grantEntry s cl n i)).map fun s => grantPlace s cl n i
  | none => .ok (grantPlace s cl n i)

/-- An abandoned entry is passed and freed (R127, R129). -/
def passPlace (s : State) (cl n i : Nat) : State :=
  modObj (freePlace s cl i) cl n fun o => passRank { o with queue := o.queue.filter (· ≠ i) }

/-- Up to `left` abandoned entries are passed and freed; a queued place that is reached is granted (R129). -/
def walkObject (d : Option Decider) (cl n : Nat) : Nat → State → Except Stop State
  | left, s =>
    let c := s.cluster cl
    match tget c.objects n with
    | none => .ok s
    | some o =>
      match walkHead c o with
      | .nobody => .ok (modObj s cl n fun o => { o with walking := false })
      | .queued i => grantReached s d o.ranked cl n i
      | .abandoned i =>
        match left with
        | 0 => .ok s
        | left + 1 =>
          walkObject d cl n left (passPlace s cl n i)
termination_by structural left => left

/-- A walk that may grant nothing, because the context replays: up to `left` abandoned entries are passed and freed (R129,
R136). -/
def passAbandoned (cl n : Nat) : Nat → State → State
  | 0, s => s
  | left + 1, s =>
    match tget (s.cluster cl).objects n with
    | none => s
    | some o => match walkHead (s.cluster cl) o with
      | .abandoned i => passAbandoned cl n left (passPlace s cl n i)
      | _ => s

/-- The arrival-mode objects of a context at which a queued place may be granted, by cluster and number. -/
def idleObjects (s : State) (ctx : Nat) : List (Nat × Nat) :=
  [0, 1].flatMap fun cl => (s.cluster cl).objects.filterMap fun (n, o) =>
    if !o.ranked && o.ctx = ctx && o.granted.isNone && !o.walking && o.queue ≠ [] then some (cl, n) else none

/-- A place is the one that a logged grant names: the requester and the XREQ ordinal match, wherever it is queued (R136). -/
def logNames (e : LogEntry) (p : Place) : Bool := p.requester = e.tid && p.ordinal.toNat % 2 ^ 32 = e.val

/-- The queued place that a logged grant names, with its cluster and its object (R136). -/
def loggedPlace (s : State) (ctx : Nat) (e : LogEntry) : Option (Nat × Nat × Nat) :=
  (idleObjects s ctx).findSome? fun (cl, n) => match tget (s.cluster cl).objects n with
    | some o => (o.queue.find? fun i => match tget (s.cluster cl).places i with
        | some p => p.state = .queued && logNames e p
        | none => false).map fun i => (cl, n, i)
    | none => none

/-- Fold a step that can stop over a list. -/
def foldStop {α : Type} (f : State → α → Except Stop State) : List α → State → Except Stop State
  | [], s => .ok s
  | x :: xs, s => match f s x with
    | .ok s' => foldStop f xs s'
    | .error e => .error e

/-- The walk of one object whose grant the log withheld (R136). -/
def regrantOne (d : Decider) (s : State) (o : Nat × Nat) : Except Stop State :=
  walkObject (some d) o.1 o.2 (s.cluster o.1).places.length s

/-- A context no longer replays: the grants that the log withheld are made (R136). -/
def regrant (s : State) (d : Decider) : Except Stop State := foldStop (regrantOne d) (idleObjects s d.ctx) s

/-- While a grant is due and the next logged decision is a grant that can be made, make it; an entry that cannot be read, or a
record that cannot be made once the log has ended, stops the instruction before any of its grants (R136). -/
def replayGrants (d : Decider) : Nat → State → Except Stop State
  | 0, s => .ok s
  | left + 1, s =>
    if idleObjects s d.ctx = [] then .ok s else
    match logNext s d with
    | .error x => .error x
    | .ok (none, s') => regrant s' d
    | .ok (some (_, e), s') =>
      if e.kind ≠ 1 then .ok s' else
      match loggedPlace s' d.ctx e with
      | none => .ok s'
      | some (cl, n, i) => replayGrants d left (logConsume (grantPlace s' cl n i) d)

/-- A bound on the grants one event can make. -/
def grantBound (s : State) : Nat := (s.cluster 0).places.length + (s.cluster 1).places.length + 1

/-- The context of a decider replays. -/
def replaying (s : State) (d : Decider) : Bool := logMode (logTurn (s.ctx d.ctx)) = 2

/-- The walks of a context's arrival-mode objects run to the queued place they reach, which the log is to grant (R129, R136). -/
def endWalks (s : State) (ctx : Nat) : State :=
  [0, 1].foldl (fun s cl => (s.cluster cl).objects.foldl (fun s (n, o) =>
    if o.ranked || o.ctx ≠ ctx || !o.walking then s
    else modObj (passAbandoned cl n o.queue.length s) cl n fun o => { o with walking := false }) s) s

/-- A step of the log's own, which can take no trap: where it would stop, it leaves the state as it is (log 18). -/
def orStay (s : State) (r : Except Stop State) : State := match r with
  | .ok s' => s'
  | .error _ => s

/-- LOGMODE has been written: threads that wait on the log look again; the grants that the log now allows are made, if their
entries can be read and, outside replay, recorded (R136, log 18). -/
def logModeWritten (s : State) (d : Decider) : State :=
  let s := wakeWhere (s.modCtx d.ctx logTurn) WaitReason.onLog
  if replaying s d then
    let s := endWalks s d.ctx
    orStay s (replayGrants d (grantBound s) s)
  else (idleObjects s d.ctx).foldl (fun s o => orStay s (regrantOne d s o)) s

/-- A decision is due at an object on which nothing is granted: in replay the abandoned entries are passed and the logged
grants are made, otherwise the walk runs to its end, or in mode 0 after a release starts for the sync unit to carry on (R129,
R134, R136). -/
def decide (s : State) (d : Decider) (cl n : Nat) (atOnce : Bool) (tid : Nat) : Except Stop State :=
  match tget (s.cluster cl).objects n with
  | none => .ok s
  | some o =>
    if o.granted.isSome then .ok s
    else if !o.ranked && replaying s d then replayGrants d (grantBound s) (passAbandoned cl n o.queue.length s)
    else if o.walking then .ok s
    else
      let s := s.modCtx d.ctx (if o.ranked then id else logTurn)
      if atOnce || (!o.ranked && logMode (s.ctx d.ctx) = 1) then walkObject (some d) cl n o.queue.length s
      else .ok (modObj s cl n fun o => { o with walking := true, walkTid := tid })

/-- Release a granted place: the entry is freed, its rank passes, and the walk starts (R127, R129). -/
def releasePlace (s : State) (d : Decider) (cl i tid : Nat) : Except Stop State :=
  match tget (s.cluster cl).places i with
  | none => .ok s
  | some p => decide (modObj (freePlace s cl i) cl p.obj fun o => passRank { o with granted := none }) d cl p.obj false tid

/-- Abandon a queued place; no decision is due, since a place that could be granted has been (R125, R127, R128). -/
def abandonPlace (s : State) (cl i : Nat) : State := modPlace s cl i fun p => { p with state := .abandoned }

/-- The abandoned entries at the head of an object on which nothing is granted are passed: only a replay leaves a queued place
there (R129, R136). -/
def passIdle (s : State) (cl n : Nat) : State :=
  match tget (s.cluster cl).objects n with
  | some o => if o.granted.isSome || o.walking then s else passAbandoned cl n o.queue.length s
  | none => s

/-- The place that the log names next may not be dropped: the index of its entry, if this is it (R136). -/
def dropsLogged (s : State) (d : Decider) (p : Place) : Except Stop (Option Nat × State) :=
  match logNext s d with
  | .error e => .error e
  | .ok (some (i, e), s) => .ok (if e.kind = 1 && logNames e p then some i else none, s)
  | .ok (none, s) => .ok (none, s)

/-- Drop a queued place: DIVERGE where it is the place of the next logged grant, unless the thread can take no trap (R136). -/
def dropQueued (s : State) (d : Decider) (cl i : Nat) : Except Stop State :=
  match tget (s.cluster cl).places i with
  | none => .ok s
  | some p =>
    let ranked := match tget (s.cluster cl).objects p.obj with
      | some o => o.ranked
      | none => true
    if ranked || d.quiet then .ok (abandonPlace s cl i) else
    match dropsLogged s d p with
    | .error e => .error e
    | .ok (some k, _) => .error (.trap .diverge (w64 k))
    | .ok (none, s) => .ok (passIdle (abandonPlace s cl i) cl p.obj)

/-- Places of a cluster that a thread owns in a state, by rising index. -/
def ownedPlaces (s : State) (cl tid : Nat) (st : PlaceState) : List Nat :=
  (s.cluster cl).places.filterMap fun (i, p) => if p.owner = tid ∧ p.state = st then some i else none

/-- Step 2 of R61: places not yet granted are abandoned, granted places are released. -/
def exitPlaces (s : State) (d : Decider) (tid : Nat) : Except Stop State :=
  let each : Nat → State → Except Stop State := fun cl s =>
    let held := ownedPlaces s cl tid .granted
    match foldStop (fun s i => dropQueued s d cl i) (ownedPlaces s cl tid .queued) s with
    | .error e => .error e
    | .ok s => foldStop (fun s i => releasePlace s d cl i tid) held s
  match each 0 s with
  | .error e => .error e
  | .ok s => each 1 s

/-- The live object a handle names (R128). -/
def objectOf (s : State) (cl : Nat) (h : Word) : Option (Nat × SyncObj) :=
  let n := bits h 55 44
  if bits h 43 29 ≠ 0 ∨ bits h 28 28 ≠ cl ∨ bits h 27 0 ≠ 0 then none else
  match tget (s.cluster cl).objects n with
  | some o => if (s.cluster cl).objGen n = bits h 63 56 then some (n, o) else none
  | none => none

/-- What a place handle names (R128): a handle that names none, a stale one or one of a free entry, or a live place. -/
inductive PlaceRef where
  | malformed
  | stale
  | live (i : Nat) (p : Place)
deriving DecidableEq, Repr

/-- The place a handle names (R123, R128). -/
def placeOf (s : State) (cl : Nat) (h : Word) : PlaceRef :=
  let i := bits h 43 29
  if bits h 28 28 ≠ cl ∨ bits h 27 0 ≠ 0 then .malformed else
  match tget (s.cluster cl).places i with
  | some p =>
    if (s.cluster cl).placeGen i ≠ bits h 63 56 then .stale else if p.obj = bits h 55 44 then .live i p else .malformed
  | none => .stale

/-- The place of a handle, which the thread must own (R128). -/
def ownPlace (s : State) (t : Thread) (tid : Nat) (h : Word) : Except Stop (Nat × Place) :=
  match placeOf s (t.lcore / 128) h with
  | .live i p => if p.owner = tid then .ok (i, p) else .error (.trap .handle h)
  | _ => .error (.trap .handle h)

/-- XREQ's place for a request of a rank: its round, this one or, if its rank has passed, the next (R127); behind an
abandoned request of the same rank that has yet to be passed (log 12). -/
def requestRound (c : Cluster) (o : SyncObj) (rank : Nat) : Nat :=
  let start := o.round + (if rank < o.nextRank then 1 else 0)
  let taken := fun r => o.queue.any fun i => match tget c.places i with
    | some p => p.rank = rank && p.round = r
    | none => false
  (firstFrom (fun r => !taken r) start (o.queue.length + 1)).getD start

/-- A rank whose place is queued or granted (R129). -/
def rankHeld (c : Cluster) (o : SyncObj) (rank : Nat) : Bool :=
  (o.queue ++ o.granted.toList).any fun i => match tget c.places i with
    | some p => p.rank = rank && p.state ≠ .abandoned
    | none => false

/-! ## Channels (R121) -/

/-- The key of a thread's slot. -/
def chanKey (tid slot : Nat) : Nat := 8 * tid + slot
/-- What a sequencer holds of a slot. -/
def State.chan (s : State) (tid slot : Nat) : Chan := tgetD s.chans (chanKey tid slot) Chan.none
/-- Write what a sequencer holds of a slot. -/
def State.setChan (s : State) (tid slot : Nat) (c : Chan) : State := { s with chans := tset s.chans (chanKey tid slot) c }
/-- Drop what a sequencer holds of a slot. -/
def State.dropChan (s : State) (tid slot : Nat) : State := { s with chans := tdel s.chans (chanKey tid slot) }

/-- A channel slot of a thread. -/
def Thread.chEnd (t : Thread) (slot : Nat) : ChanEnd := t.ch.toList.getD slot ChanEnd.none
/-- Write a channel slot. -/
def Thread.setEnd (t : Thread) (slot : Nat) (e : ChanEnd) : Thread := { t with ch := t.ch.setIfInBounds slot e }

/-- The other end of a formed channel: the peer and its slot (R121). -/
def formed (s : State) (tid slot : Nat) : Option (Nat × Nat) :=
  match s.thread? tid with
  | none => none
  | some t =>
    let e := t.chEnd slot
    if !e.bound || e.port || (s.chan tid slot).gone then none else
    match s.thread? e.peer.toNat with
    | none => none
    | some p =>
      let q := p.chEnd e.pslot.toNat
      if p.ctx = t.ctx && q.bound && !q.port && !(s.chan e.peer.toNat e.pslot.toNat).gone && q.peer.toNat = tid &&
          q.pslot.toNat = slot && q.out ≠ e.out
      then some (e.peer.toNat, e.pslot.toNat) else none

/-- Wake a thread that waits on a slot (R57). -/
def wakeSlot (s : State) (tid slot : Nat) : State :=
  wakeOne s tid fun r => r = .send slot || r = .recv slot || r = .waitany

/-- A word reaches a receiving end (R121, R133). -/
def chanPush (s : State) (tid slot : Nat) (w : Word) : State :=
  let c := s.chan tid slot
  let (at_, s) := s.arrive
  wakeSlot (s.setChan tid slot { c with words := c.words ++ [{ at_ := at_, word := w }] }) tid slot

/-- An end whose other end has gone (R121). -/
def markGone (s : State) (tid slot : Nat) : State :=
  wakeSlot (s.setChan tid slot { s.chan tid slot with gone := true }) tid slot

/-- A stream port is unbound: its binding goes, and what a block end holds at the rim dies, where core 1000 stands for the
ports (R304, R362). -/
def dropPort (s : State) (n : Nat) : State :=
  let l : TileLoc := { core := 1000, tile := n }
  { s with
    fabric := { s.fabric with ports := tdel s.fabric.ports n }
    rims := tmap s.rims fun _ r => { r with
      engines := r.engines.filter fun (_, x) => x ≠ l, walks := r.walks.filter fun w => w.loc ≠ l,
      deferred := r.deferred.filter fun d => d.loc ≠ some l } }

/-- Unbind a slot: the other end learns of it, waiting words of a receiving end are discarded (R121). -/
def unbindSlot (s : State) (tid slot : Nat) : State :=
  match s.thread? tid with
  | none => s
  | some t =>
    let e := t.chEnd slot
    if !e.bound then s else
    let other := formed s tid slot
    let s := (s.dropChan tid slot).setThread tid (t.setEnd slot ChanEnd.none)
    let s := if e.port then
        (if e.desc = 1 then s
         else if e.desc = 2 then { s with trivet := { s.trivet with replies := tdel s.trivet.replies tid } }
         else dropPort s (e.desc.toNat - 16))
      else s
    match other with
    | some (p, q) => markGone s p q
    | none => s

/-- Every end that names a thread that has gone (R121). -/
def orphanEnds (s : State) (tid : Nat) : State :=
  s.threads.foldl (fun s (p, t) =>
    (List.range 8).foldl (fun s q =>
      let e := t.chEnd q
      if e.bound && !e.port && e.peer.toNat = tid then markGone s p q else s) s) s

/-! ## Groups (R122) -/

/-- A group. -/
def State.group (s : State) (n : Nat) : Group := tgetD s.groups n Group.none
/-- Write a group; one without members is not listed (R122). -/
def State.setGroup (s : State) (n : Nat) (g : Group) : State :=
  { s with groups := if g.members = [] then tdel s.groups n else tset s.groups n g }

/-- A thread is a member. -/
def Group.has (g : Group) (tid : Nat) : Bool := g.members.any fun (m, _) => m = tid
/-- A member's rank. -/
def Group.rank (g : Group) (tid : Nat) : Option Nat := (g.members.find? fun (m, _) => m = tid).map Prod.snd
/-- The groups a thread belongs to. -/
def groupsOf (s : State) (tid : Nat) : List Nat := s.groups.filterMap fun (n, g) => if g.has tid then some n else none

/-- A generation is in progress and every member it counts has arrived (R122). -/
def Group.full (g : Group) : Bool := g.counted ≠ [] && g.counted.all fun m => g.arrived.contains m

/-- The generation advances: its members are released and their cores' migrations honoured (R122, R284); members that joined
during it and have arrived begin the next one. -/
def advanceGroup (s : State) (n : Nat) : State :=
  let g := s.group n
  let late := g.arrived.filter fun m => !g.counted.contains m
  let g' := { g with
    passed := g.passed.filter (fun m => !g.counted.contains m) ++ g.counted,
    counted := if late = [] then [] else g.members.map Prod.fst,
    arrived := late }
  honourAll (wakeWhere (s.setGroup n g') (· = .group n)) g.counted

/-- A thread leaves a group; a generation that waited for it alone completes (R122). -/
def leaveGroup (s : State) (tid n : Nat) : State :=
  let g := s.group n
  if !g.has tid then s else
  let out := fun (l : List Nat) => l.filter (· ≠ tid)
  let g' := { members := g.members.filter fun (m, _) => m ≠ tid, counted := out g.counted, arrived := out g.arrived,
              passed := out g.passed }
  let s := s.setGroup n g'
  if g'.full || (g.counted ≠ [] && g'.counted = [] && g'.arrived ≠ []) then advanceGroup s n else s

/-! ## Keys (R131) -/

/-- A retired pair enters the context's history of 32 (R131). -/
def retireKey (s : State) (ctx : Nat) (k : KeyReg) : State :=
  if k.valid then s.modCtx ctx fun c => { c with history := ((k.tensor, k.step) :: c.history).take 32 } else s

/-- A pair is in use: in the history, in another valid key register of the thread, or in a valid key slot of a launch of
the context that is queued or running (R131). -/
def keyUsed (s : State) (t : Thread) (own : Nat) (k : KeyReg) : Bool :=
  let same := fun (x : KeyReg) => x.valid && x.tensor = k.tensor && x.step = k.step
  (s.ctx t.ctx).history.contains (k.tensor, k.step) ||
  (t.k.toList.zipIdx.any fun (x, i) => i ≠ own && same x) ||
  s.clusters.any fun (_, c) => c.launches.any fun (_, l) =>
    l.ctx = t.ctx && (l.state = .queued || l.state = .starting || l.state = .running) && l.keys.toList.any same

/-! ## Creation and end of threads (R49, R55, R61) -/

/-- A spilled record of a logical core that no thread holds. -/
def freeRecord (s : State) (lc : Nat) : Option Nat :=
  firstFrom (fun i => !(s.threads.any fun (_, t) => t.lcore = lc && t.seat = .spilled i)) 0 16

/-- Free records of a logical core (R49). -/
def freeRecords (s : State) (lc : Nat) : Nat := 48 - (s.threads.filter fun (_, t) => t.lcore = lc).length

/-- An identifier that a live thread, a place entry, a channel binding or a group names (R49). -/
def tidNamed (s : State) (n : Nat) : Bool :=
  (s.thread? n).isSome ||
  (s.clusters.any fun (_, c) => c.places.any fun (_, p) => p.owner = n || p.requester = n) ||
  (s.threads.any fun (_, t) => t.ch.toList.any fun e => e.bound && !e.port && e.peer.toNat = n) ||
  s.groups.any fun (_, g) => g.has n

/-- The lowest free identifier (R48, R49). -/
def freeTid (s : State) : Option Nat :=
  firstFrom (fun n => !tidNamed s n) 1 0xFFFE

/-- The slice length of a context; 0 is taken as 1 (R54). -/
def sliceLen (c : Ctx) : BitVec 32 := if c.sliceLen = 0 then 1 else c.sliceLen

/-- A thread as it is created (R50, R53, R55): every register zero but the program counter, g1, g2, STATUS[0] and TVEC. Bits
[1:0] of the program counter are zero (R50), where the target that SPAWN forms has others (DESIGN CHOICE, log 86). -/
def newThread (s : State) (ctx lc : Nat) (seat : Seat) (pc g1 g2 : Word) (system : Bool) (tvec : Word) (queue : Option Nat) :
    Thread :=
  { g := ((Vector.replicate 32 0).setIfInBounds 1 g1).setIfInBounds 2 g2, v := Vector.replicate 16 0,
    k := Vector.replicate 8 KeyReg.none, ch := Vector.replicate 8 ChanEnd.none, pc := w64 (pc.toNat / 4 * 4),
    status := if system then 1 else 0, tcause := 0, tvalue := 0, tvec := tvec, tpc := 0, slice := sliceLen (s.ctx ctx),
    histSel := 0, watchAddr := Vector.replicate 4 0, watchMask := Vector.replicate 4 0, xreqOrdinal := 0, ctx := ctx,
    lcore := lc, seat := seat, run := .ready, waitedSlots := 0, waitLeft := 0, waitArmed := false, readySince := s.arrivals,
    reports := [], sliceDue := false, remotePending := [], lastRemoteFault := 0, queue := queue,
    migrateTo := none }

/-- Create a thread on a logical core: in a free resident slot, else in a spilled record; none when the core has no record
or the package no identifier (R55, R58). Its first read comes after what its creator's release follows: the core's global reads
are fetched again (R345). -/
def createThread (s : State) (ctx lc : Nat) (pc g1 g2 : Word) (system : Bool) (tvec : Word) (queue : Option Nat) :
    Option (Nat × State) :=
  let seat := match freeSlot s lc with
    | some i => some (Seat.resident i)
    | none => (freeRecord s lc).map Seat.spilled
  match freeTid s, seat with
  | some tid, some seat =>
    let s := s.modCore (s.phys lc) fun c => { c with readBuf := [] }
    some (tid, ({ s with arrivals := s.arrivals + 1 }).setThread tid (newThread s ctx lc seat pc g1 g2 system tvec queue))
  | _, _ => none

/-- Words that a thread has sent on its request port and that are not yet taken stay for the firmware, under a number of their
own from 65,536 on (R61 step 5, R314, log 24). -/
def leaveRequests (s : State) (tid : Nat) : State :=
  match s.thread? tid, tgetD s.trivet.requests tid [] with
  | some t, w :: r =>
    let n := 65536 + s.arrivals
    { s with
      arrivals := s.arrivals + 1
      trivet := { s.trivet with
        requests := tset (tdel s.trivet.requests tid) n (w :: r), exited := tset s.trivet.exited n t.ctx } }
  | _, _ => { s with trivet := { s.trivet with requests := tdel s.trivet.requests tid } }

/-- A thread's record goes, with everything on its way to it (R61 step 6). -/
def freeRecordOf (s : State) (tid : Nat) : State :=
  let s := leaveRequests (dropTurns s tid) tid
  { s with
    threads := tdel s.threads tid
    wakes := s.wakes.filter fun w => w.tid ≠ tid
    reports := s.reports.filter fun (n, _) => n ≠ tid
    trivet := { s.trivet with replies := tdel s.trivet.replies tid } }

/-- The six steps of R61; the groups are left by rising number and the key registers' pairs enter the history from k0 on
(log 55). The slot that the thread held goes to the oldest spilled-ready thread (R58); a core that its last thread leaves may
leave its context (R283). -/
def retireThread (s : State) (tid : Nat) (quiet : Bool) : Except Stop State :=
  match s.thread? tid with
  | none => .ok s
  | some t =>
    match exitPlaces (drainThread s (s.coreOf t) tid) { t.decider with quiet := quiet } tid with
    | .error e => .error e
    | .ok s =>
      let s := (groupsOf s tid).foldl (fun s n => leaveGroup s tid n) s
      let s := t.k.toList.foldl (fun s k => retireKey s t.ctx k) s
      let s := (List.range 8).foldl (fun s i => unbindSlot s tid i) s
      .ok (threadEnded (seatOldest (orphanEnds (freeRecordOf s tid) tid) t.lcore) t.lcore)

end Sys2Proof.Machine
end

