-- ==== Sys2Proof/Machine/Ops.lean ====
section
/-! DEFINITION. The operations that the meanings share: taking a trap and returning from it (R137 to R141), watchpoints (R145 to
R147), the completion of an instruction (R59, R90), control and status registers (R53, R133), and a thread's access to memory
(R113 to R118). -/

namespace Sys2Proof.Machine

open Sys2Proof

/-- The outcome type of every meaning. -/
abbrev Result := Host.Outcome State Fault Refusal

/-! ## Taking a trap and returning (R138, R133) -/

/-- Trap entry: the cause, the value and the address are saved, the status changes, and the handler is next (R138). -/
def enterTrap (t : Thread) (cause : Cause) (value tpc : Word) (precise warning : Bool) (engine : Nat) : Thread :=
  { t with
    tcause := tcauseWord cause precise warning engine, tvalue := value, tpc := tpc, status := statusOnEntry t.status,
    pc := t.tvec, run := .ready, waitedSlots := 0, waitArmed := false }

/-- Return from a trap: the address, the privilege and the in-trap bit (R133). -/
def returnFromTrap (t : Thread) : Thread := { t with pc := t.tpc, status := statusOnReturn t.status }

/-- The fault record of a context after a nested trap: the first one's values and a count (R286). -/
def recordFault (r : FaultRecord) (tid : Nat) (cause : Cause) (tpc value : Word) : FaultRecord :=
  let n := if r.count = BitVec.allOnes 32 then r.count else r.count + 1
  if r.count = 0 then { tid := BitVec.ofNat 16 tid, cause := BitVec.ofNat 8 cause.code, count := n, tpc := tpc, tvalue := value }
  else { r with count := n }

/-- A nested trap: the fault is recorded and the thread retires (R141). -/
def nestedTrap (s : State) (tid : Nat) (t : Thread) (cause : Cause) (value : Word) : State :=
  let s := s.modCtx t.ctx fun c => { c with fault := recordFault c.fault tid cause t.pc value }
  match retireThread s tid true with
  | .ok s' => s'
  | .error _ => s

/-- The queue entry of a warning raised in a handler (log 13). -/
def warningSlot (c : Cause) : Nat := if c = .keyreuse then 8 else 9

/-- A precise trap at the thread's program counter, or a warning after its instruction (R137, R138, R140, R141). -/
def takeTrap (s : State) (tid : Nat) (cause : Cause) (value : Word) (warning : Bool) : State :=
  match s.thread? tid with
  | none => s
  | some t =>
    if !t.inTrap then s.setThread tid (enterTrap t cause value t.pc true warning 0)
    else if warning then
      s.setThread tid (queueReport t
        { cause := cause, warning := true, precise := true, engine := 0, tvalue := value, slot := warningSlot cause })
    else nestedTrap s tid t cause value

/-- The oldest queued report is taken before the next instruction, at an instruction boundary: not while an instruction of the
thread is under way (R140). While its slice trap is due the thread takes no report: SLICE comes first (DESIGN CHOICE, log 11).
-/
def takeReport (s : State) (tid : Nat) : State :=
  match s.thread? tid with
  | none => s
  | some t =>
    match t.reports with
    | [] => s
    | r :: rest =>
      if t.inTrap ∨ t.run ≠ .ready ∨ (t.sliceDue && t.sliceTraps) then s
      else s.setThread tid
        (enterTrap { t with reports := rest } r.cause r.tvalue t.pc r.precise r.warning r.engine.toNat)

/-! ## Watchpoints (R145 to R147) -/

/-- The kinds of access watchpoints tell apart: a load, a store or atomic or CLRF, an LDC, a write by an engine or peer. -/
inductive WatchKind where
  | load | store | both | engine
deriving DecidableEq, Repr

/-- Whether a mask selects a kind (R145, R147). -/
def maskSelects (mask : Word) (k : WatchKind) : Bool :=
  bit mask 10 && (match k with
    | .load => bit mask 8
    | .store => bit mask 9
    | .both => bit mask 8 || bit mask 9
    | .engine => bit mask 9 && bit mask 11)

/-- Whether watchpoint i matches an access of n bytes (R145). -/
def watchHits (addr mask : Word) (ea n : Nat) (k : WatchKind) : Bool :=
  maskSelects mask k && (List.range 8).any fun b =>
    let a := addr.toNat / 8 * 8 + b
    bit mask b && ea ≤ a && a < ea + n

/-- The lowest watchpoint an access matches, with the doubleword (R146). -/
def watchMatch (t : Thread) (ea n : Nat) (k : WatchKind) : Option (Nat × Word) :=
  match (List.range 4).find? fun i => watchHits (t.watchAddr.toList.getD i 0) (t.watchMask.toList.getD i 0) ea n k with
  | some i => some (i, w64 ((t.watchAddr.toList.getD i 0).toNat / 8 * 8 + i))
  | none => none

/-- A write by an engine or a peer in an address form of a context: imprecise WATCH reports (R147). A pot address names a pot
of the thread's own cluster (R113), so one in cluster `cl` concerns the threads of that cluster. -/
def watchEngine (s : State) (ctx cl ea n engine : Nat) : State :=
  s.threads.foldl (fun s (tid, t) =>
    if t.ctx ≠ ctx || (2 ^ 63 ≤ ea && t.lcore / 128 ≠ cl) then s else
    match watchMatch t ea n .engine with
    | some (i, v) => sendReport s tid
        { cause := .watch, warning := false, precise := false, engine := BitVec.ofNat 8 engine, tvalue := v, slot := i }
    | none => s) s

/-! ## Completing an instruction (R59, R90) -/

/-- What an instruction that completes leaves: the state, the change of the thread's record, the next program counter, the
access that watchpoints see, and a trap taken after it (a warning or SWTRAP). -/
structure Effect where
  state : State
  regs : Thread → Thread
  pc : Word
  watch : Option (Word × Nat × WatchKind)
  after : Option (Cause × Word × Bool)

/-- The next instruction in sequence. -/
def seqPc (t : Thread) : Word := t.pc + 4

/-- An effect on the thread's registers alone. -/
def Effect.onRegs (s : State) (t : Thread) (f : Thread → Thread) : Effect :=
  { state := s, regs := f, pc := seqPc t, watch := none, after := none }

/-- The trap that follows a completed instruction: its warning or SWTRAP, else a watchpoint match (R138, R146). -/
def afterTrap (t : Thread) (e : Effect) : Option (Cause × Word × Bool) :=
  match e.after with
  | some a => some a
  | none => match e.watch with
    | none => none
    | some (ea, n, k) => match watchMatch t ea.toNat n k with
      | some (_, v) => some (.watch, v, false)
      | none => none

/-- An instruction completes and is charged, also one after which its own watchpoint match is taken (R59, R146, log 53). A warning,
SWTRAP or WATCH that follows it is taken first, and a SLICE trap that it brings due is then a nested trap: R59 takes SLICE before
the thread's next instruction, which is the handler's first (DEDUCED, log 11). -/
def finish (tid : Nat) (t : Thread) (e : Effect) : State :=
  let s := chargeQueue (e.state.modThread tid fun x => advance (e.regs x) e.pc) t
  match afterTrap t e with
  | none => s
  | some (c, v, w) => takeTrap s tid c v w

/-- Run an instruction on the thread that issues: it completes, waits, or traps (R57, R90, R138). DESIGN CHOICE (log 73): the count
of issue slots spent waiting starts at 0 each time that the thread begins to wait, so also when a woken instruction tests its
condition again and waits again; R58 does not say over which waits it counts. -/
def perform (s : State) (f : State → Thread → Except Stop Effect) : Result :=
  match s.thread? s.cur with
  | none => .next s
  | some t =>
    match f s t with
    | .ok e => .next (finish s.cur t e)
    | .error (.trap c v) => .next (takeTrap s s.cur c v false)
    | .error (.wait r s') => .next (s'.modThread s.cur fun x => { x with run := .waiting r, waitedSlots := 0 })

/-- Run an instruction that only computes in registers and always completes (R90). -/
def regStep (s : State) (f : Thread → Thread) : Result :=
  match s.thread? s.cur with
  | none => .next s
  | some t => .next (chargeQueue (s.setThread s.cur (advance (f t) (seqPc t))) t)

/-- Run a branch: registers and the next program counter (R99 to R101). -/
def branchStep (s : State) (f : Thread → Thread) (target : Thread → Word) : Result :=
  match s.thread? s.cur with
  | none => .next s
  | some t => .next (chargeQueue (s.setThread s.cur (advance (f t) (target t))) t)

/-- The instruction word of an instruction, which TVALUE holds for ILLEGAL and PRIVILEGE (R137). -/
def instrWord (i : Instr) : Word := match encode i with
  | some w => w.setWidth 64
  | none => 0

/-- A trap of the instruction itself. -/
def trapWith {α : Type} (c : Cause) (v : Word) : Except Stop α := .error (.trap c v)

/-! ## Releases and waits (R66, R114) -/

/-- A release: earlier stores have drained, or the thread is held until they have (R66, R114). -/
def drained (s : State) (t : Thread) : Except Stop Unit :=
  if hasStores s (s.coreOf t) s.cur then .error (.wait .storeBuffer s) else .ok ()

/-- A release that is itself an access: earlier remote operations have been acknowledged as well (R338). -/
def released (s : State) (t : Thread) : Except Stop Unit :=
  match drained s t with
  | .error e => .error e
  | .ok () => if t.remotePending = [] then .ok () else .error (.wait .remote s)

/-- An access that a plain store may follow late but a releasing store may not: the thread is held until its releasing stores
have drained (R338). -/
def afterReleases (s : State) (t : Thread) : Except Stop Unit :=
  if hasReleases s (s.coreOf t) s.cur then .error (.wait .storeBuffer s) else .ok ()

/-- Acquire for the thread that issues (R65, R114). -/
def acquireFor (s : State) (t : Thread) : State := acquire s (s.coreOf t) s.cur

/-! ## Memory (R113 to R118) -/

/-- Wake the barrier waits of the granules that a pot write touches: the barrier acts on the values stored (R132). -/
def potStore (s : State) (core addr : Nat) (b : List Byte) : State :=
  (granules addr b.length).foldl (fun s g => wakeWhere s (· = .barrier (granuleKey core (16 * g)))) (s.potWrite core addr b)

/-- The checks of R113, as a stop. -/
def located (s : State) (t : Thread) (ea : Word) (width : Nat) (acc : Access) : Except Stop (Loc × State) :=
  match resolve s t ea width acc with
  | .ok r => .ok r
  | .error c => trapWith c ea

/-- Bytes of a location without the read buffer, with the POISON check (R137, R203, R302). -/
def peek (s : State) (ea : Word) (loc : Loc) (n : Nat) : Except Stop (List Byte) :=
  let check := fun (p : Option Nat) (a : Nat) (b : List Byte) => match p with
    | some g => trapWith Cause.poison (w64 (ea.toNat + 16 * g - a))
    | none => Except.ok b
  match loc with
  | .pot core a => check (s.potPoison core a n) a (s.potRead core a n)
  | .glob pa _ => check (s.poisonAt pa n) pa (s.readMem pa n)

/-- What a load waits for: a plain global load for nothing; a pot load or a load with .fresh for the thread's releasing stores;
a global load that acquires for every store of the thread (R338). -/
def loadHold (s : State) (t : Thread) (loc : Loc) (q : LdQual) : Except Stop Unit :=
  match loc, q with
  | .pot _ _, _ => afterReleases s t
  | .glob _ _, .plain => .ok ()
  | .glob _ _, .fresh => afterReleases s t
  | .glob _ _, .acq => drained s t

/-- A thread's load (R65, R66, R116, R338). -/
def loadBytes (s : State) (t : Thread) (ea : Word) (n : Nat) (q : LdQual) : Except Stop (List Byte × State) :=
  match located s t ea n .read with
  | .error e => .error e
  | .ok (loc, s) =>
    match loadHold s t loc q with
    | .error e => .error e
    | .ok () =>
      match peek s ea loc n with
      | .error e => .error e
      | .ok b =>
        match loc with
        | .pot _ _ => .ok (b, if q = .acq then acquireFor s t else s)
        | .glob pa _ => .ok (loadGlobal s (s.coreOf t) s.cur t.ctx ea.toNat pa n q)

/-- What a store waits for: a releasing one for the thread's earlier stores and remote operations; a plain pot store for its
releasing stores (R114, R338). -/
def storeHold (s : State) (t : Thread) (loc : Loc) (q : StQual) : Except Stop Unit :=
  match loc, q with
  | _, .rel => released s t
  | .pot _ _, .plain => afterReleases s t
  | .glob _ _, .plain => .ok ()

/-- A thread's plain or releasing store (R66, R116). -/
def storeBytes (s : State) (t : Thread) (ea : Word) (b : List Byte) (q : StQual) : Except Stop State :=
  match located s t ea b.length .write with
  | .error e => .error e
  | .ok (loc, s) =>
    match storeHold s t loc q with
    | .error e => .error e
    | .ok () =>
      match loc with
      | .pot core a => .ok (potStore s core a b)
      | .glob pa _ =>
        let core := s.coreOf t
        if 64 ≤ (s.core core).stores.length then .error (.wait .storeBuffer s)
        else .ok (s.modCore core fun c =>
          { c with stores := c.stores ++
              [{ tid := s.cur, ctx := t.ctx, va := ea.toNat, pa := pa, bytes := b, rel := q = .rel, allVa := false }] })

/-- A granule of the location is full; a global page must carry the presence attribute (R117). -/
def isFull (s : State) (ea : Word) (loc : Loc) : Except Stop Bool :=
  match loc with
  | .pot core a => .ok (nsMem (s.core core).full (a / 16))
  | .glob pa true => .ok (present s pa)
  | .glob _ false => trapWith .protect ea

/-- Set the granule's full-empty bit without waking anyone. -/
def putFull (s : State) (loc : Loc) (full : Bool) : State :=
  match loc with
  | .pot core a => s.setFull core a full
  | .glob pa _ => setPresent s pa full

/-- Fill the granule and wake its waiters (R117, R312). -/
def fillLoc (s : State) (loc : Loc) : State :=
  match loc with
  | .pot core a => s.fill core a
  | .glob pa _ => fillPresent s pa

/-- A global write performed at once: memory, the sequencer's own lines (R66, R303). -/
def writeThrough (s : State) (core ctx va pa : Nat) (b : List Byte) : State :=
  (s.writeMem pa b).modCore core fun c => { c with readBuf := patchLines c.readBuf ctx va b }

/-- The wait reason and the turns of a granule (R117, R312). -/
def granuleWait (loc : Loc) : WaitReason :=
  match loc with
  | .pot core a => .granule (granuleKey core a)
  | .glob pa _ => .presence (pa / 16 * 16)

/-- The turns registered at a granule. -/
def turnsAt (s : State) (loc : Loc) : List Waiter :=
  match loc with
  | .pot core a => (s.core core).waiters.filter fun w => w.key = granuleKey core a
  | .glob pa _ =>
    ((s.rim 0).deferred ++ (s.rim 1).deferred).filterMap fun d =>
      if d.pa / 16 = pa / 16 ∧ d.loc.isNone then some { key := pa / 16, tid := d.tid, pc := d.pc, consume := d.consume, since := d.since }
      else none

/-- The rim die before which a thread's read that would defer is held back: all its tokens are in use, and none is the
thread's (R312). -/
def rimHold (s : State) (loc : Loc) : Option Nat :=
  match loc with
  | .pot _ _ => none
  | .glob pa _ =>
    let n := ownerRim pa
    if rimTokens ≤ (s.rim n).inUse ∧ !(turnsAt s loc).any (fun w => w.tid = s.cur) then some n else none

/-- Register a thread's turn at a granule, unless it has one (R117, R312). -/
def takeTurn (s : State) (t : Thread) (ea : Word) (loc : Loc) (consume : Bool) : State :=
  if (turnsAt s loc).any fun w => w.tid = s.cur then s else
  let (n, s) := s.arrive
  match loc with
  | .pot core a => s.modCore core fun c =>
      { c with waiters := c.waiters ++ [{ key := granuleKey core a, tid := s.cur, pc := t.pc, consume := consume, since := n }] }
  | .glob pa _ => s.modRim (ownerRim pa) fun r =>
      { r with deferred := r.deferred ++
          [{ pa := pa, ctx := t.ctx, va := ea.toNat, tid := s.cur, pc := t.pc, consume := consume, since := n, loc := none, woken := false }] }

/-- An LDC that is not first in turn must let an earlier one consume (R117). -/
def outOfTurn (s : State) (loc : Loc) : Bool :=
  match firstConsumer (turnsAt s loc) with
  | some w => w ≠ s.cur
  | none => false

/-- What LDW and LDC wait for before they test the bit: a pot access for the thread's releasing stores, a global one for every
store of the thread (R117, R338). -/
def fullHold (s : State) (t : Thread) (loc : Loc) : Except Stop Unit :=
  match loc with
  | .pot _ _ => afterReleases s t
  | .glob _ _ => drained s t

/-- LDW and LDC (R117). -/
def loadFull (s : State) (t : Thread) (ea : Word) (n : Nat) (consume : Bool) : Except Stop (List Byte × State) :=
  match located s t ea n (if consume then .atomic else .read) with
  | .error e => .error e
  | .ok (loc, s) =>
    match isFull s ea loc with
    | .error e => .error e
    | .ok full =>
      match fullHold s t loc with
      | .error e => .error e
      | .ok () =>
        if !full || (consume && outOfTurn s loc) then
          match rimHold s loc with
          | some n => .error (.wait (.rim n) s)
          | none => .error (.wait (granuleWait loc) (takeTurn s t ea loc consume))
        else
        match peek s ea loc n with
        | .error e => .error e
        | .ok b =>
          let s := rimRoom (clearTurns s s.cur)
          .ok (b, acquireFor (if consume then putFull s loc false else s) t)

/-- STF: write and fill as one step, once earlier stores have drained (R117). -/
def storeFull (s : State) (t : Thread) (ea : Word) (b : List Byte) : Except Stop State :=
  match located s t ea b.length .write with
  | .error e => .error e
  | .ok (loc, s) =>
    match isFull s ea loc with
    | .error e => .error e
    | .ok _ =>
      match released s t with
      | .error e => .error e
      | .ok () =>
        match loc with
        | .pot core a => .ok (fillLoc (potStore s core a b) loc)
        | .glob pa _ => .ok (fillLoc (writeThrough s (s.coreOf t) t.ctx ea.toNat pa b) loc)

/-- CLRF (R117). -/
def clearFull (s : State) (t : Thread) (ea : Word) : Except Stop State :=
  match located s t ea 1 .write with
  | .error e => .error e
  | .ok (loc, s) =>
    match isFull s ea loc with
    | .error e => .error e
    | .ok _ => .ok (putFull s loc false)

/-! ## Control and status registers (R53, R133) -/

/-- COREID (R53). -/
def coreId (s : State) (t : Thread) : Word :=
  w64 (t.lcore % 128 + 2 ^ 7 * (t.lcore / 128 % 2) + (if t.system then 2 ^ 8 * ((s.lct t.lcore).phys.toNat) else 0) +
    2 ^ 16 * s.trivet.chip.toNat)

/-- KEYHIST (R53). -/
def keyHist (s : State) (t : Thread) : Word :=
  let i := t.histSel.toNat
  match (s.ctx t.ctx).history[i]? with
  | some (x, p) => w64 (2 ^ 63 + i * 2 ^ 56 + x.toNat * 2 ^ 32 + p.toNat)
  | none => w64 (i * 2 ^ 56)

/-- Read a control and status register (R53). -/
def readCsr (s : State) (tid : Nat) (t : Thread) (csr : Nat) : Word :=
  let c := s.ctx t.ctx
  match csr with
  | 0x00 => t.status
  | 0x01 => t.tcause
  | 0x02 => t.tvalue
  | 0x03 => t.tvec
  | 0x04 => t.tpc
  | 0x05 => c.cir.setWidth 64
  | 0x06 => t.slice.setWidth 64
  | 0x07 => w64 (tid % 65536 + 2 ^ 16 * (t.ctx % 64))
  | 0x08 => coreId s t
  | 0x09 => c.logBase
  | 0x0A => c.logHead
  | 0x0B => c.logMode
  | 0x0C => keyHist s t
  | _ => if 0x10 ≤ csr ∧ csr < 0x14 then t.watchAddr.toList.getD (csr - 0x10) 0
         else if 0x14 ≤ csr ∧ csr < 0x18 then t.watchMask.toList.getD (csr - 0x14) 0 else 0

/-- The read-only registers a write of which is ILLEGAL: TCAUSE, THREADID, COREID (R53, R133). A write of TVALUE, which R53 marks
RO and the row of R133 does not name, is ignored (R6; DEDUCED, log 71). -/
def csrReadOnly (csr : Nat) : Bool := csr = 0x01 || csr = 0x07 || csr = 0x08

/-- The registers a write of which needs system privilege (R53). -/
def csrSystem (csr : Nat) : Bool :=
  csr = 0x00 || csr = 0x03 || csr = 0x04 || csr = 0x06 || csr = 0x09 || csr = 0x0A || csr = 0x0B

/-- A word with its low bits cleared. -/
def clearLow (x : Word) (n : Nat) : Word := w64 (x.toNat / 2 ^ n * 2 ^ n)

/-- LOGMODE as a write leaves it: the mode, the replay bit and the replay cursor (R53, R136). -/
def logModeWrite (x : Word) : Word := w64 (bits x 63 32 * 2 ^ 32 + bits x 2 0)

/-- The part of a register write that the thread's record holds (R53). -/
def writeCsrThread (t : Thread) (csr : Nat) (x : Word) : Thread :=
  match csr with
  | 0x00 => { t with status := w64 (x.toNat % 16) }
  | 0x03 => { t with tvec := clearLow x 2 }
  | 0x04 => { t with tpc := clearLow x 2 }
  | 0x06 => { t with slice := x.setWidth 32 }
  | 0x0C => { t with histSel := BitVec.ofNat 5 (bits x 60 56) }
  | _ => if 0x10 ≤ csr ∧ csr < 0x14 then { t with watchAddr := t.watchAddr.setIfInBounds (csr - 0x10) x }
         else if 0x14 ≤ csr ∧ csr < 0x18 then
           { t with watchMask := t.watchMask.setIfInBounds (csr - 0x14) (w64 (x.toNat % 4096)) }
         else t

/-- The part of a register write that the context holds (R53, R54). -/
def writeCsrCtx (s : State) (ctx csr : Nat) (x : Word) : State :=
  match csr with
  | 0x09 => s.modCtx ctx fun c => { c with logBase := clearLow x 6 }
  | 0x0A => s.modCtx ctx fun c => { c with logHead := x }
  | 0x0B => logModeWritten (s.modCtx ctx fun c => { c with logMode := logModeWrite x }) { ctx := ctx, user := false, quiet := false }
  | _ => s

/-- How CSRW, CSRS and CSRC form the new value (R133). -/
inductive CsrOp where
  | write | set | clear
deriving DecidableEq, Repr

/-- The new value of a register (R133). -/
def csrNew (op : CsrOp) (old ga : Word) : Word :=
  match op with
  | .write => ga
  | .set => old ||| ga
  | .clear => old &&& ~~~ga

/-- CSRW, CSRS and CSRC; a set or clear by g0 is a read (R133). -/
def csrAccess (s : State) (t : Thread) (i : Instr) (op : CsrOp) (d a : GReg) (csr : BitVec 7) : Except Stop Effect :=
  let n := csr.toNat
  let old := readCsr s s.cur t n
  let ga := readG t a
  if op ≠ .write ∧ a = 0 then .ok (.onRegs s t fun x => writeG x d old)
  else if csrReadOnly n then trapWith .illegal (instrWord i)
  else if csrSystem n && !t.system then trapWith .privilege (instrWord i)
  else if n = 0x05 then
    let s := if op = .clear then s else s.modCtx t.ctx fun c => { c with cir := c.cir &&& ~~~(ga.setWidth 4) }
    .ok (.onRegs s t fun x => writeG x d old)
  else
    let v := csrNew op old ga
    .ok (.onRegs (writeCsrCtx s t.ctx n v) t fun x => writeG (writeCsrThread x n v) d old)

end Sys2Proof.Machine
end

