-- ==== Sys2Proof/Machine/Atomic.lean ====
section
/-! DEFINITION. Atomics and fences (R118, R119, R303). -/

namespace Sys2Proof.Machine

open Sys2Proof

/-- An order has an acquire part (R114). -/
def acquires : MemOrder → Bool
  | .acq | .acqrel => true
  | _ => false

/-- An order has a release part (R114). -/
def releases : MemOrder → Bool
  | .rel | .acqrel => true
  | _ => false

/-- Bytes of an atomic access. -/
def atomWidth (ty : Ty) : Nat := ty.width / 8

/-- AMO: in a pot the bank performs it at once; on a global address it goes to the memory-side unit once the thread's earlier
stores have drained, and the thread is held until the old value returns (R118, R303). -/
def execAmo (op : AmoOp) (ord : MemOrder) (ty : Ty) (d a b : GReg) (s : State) : Result :=
  perform s fun s t =>
    let n := atomWidth ty
    let ea := readG t a
    match located s t ea n .atomic with
    | .error e => .error e
    | .ok (loc, s) =>
      match loc with
      | .pot core addr =>
        match peek s ea loc n with
        | .error e => .error e
        | .ok bs =>
          match (if releases ord then released s t else afterReleases s t) with
          | .error e => .error e
          | .ok () =>
            let old := leNat bs
            let new := amoNew op ty old (readG t b).toNat (readG t d).toNat
            let s := potStore s core addr (leBytes n new)
            let s := if acquires ord then acquireFor s t else s
            .ok { Effect.onRegs s t (fun x => writeG x d (amoOld ty old)) with watch := some (ea, n, .store) }
      | .glob pa _ =>
        match peek s ea loc n, (if releases ord then released s t else drained s t) with
        | .error e, _ => .error e
        | _, .error e => .error e
        | .ok _, .ok () =>
          .error (.wait .atomic { s with atomics := s.atomics ++
            [{ tid := s.cur, pa := pa, va := ea, op := op, ty := ty, operand := readG t b, compare := readG t d,
               dest := d.toNat, ord := ord }] })

/-- MEMORY_ATOMIC: the memory-side unit performs a queued atomic and its thread completes with the old value (R118, R303). A
poisoned granule gives POISON (R137). -/
def execMemoryAtomic (k : Nat) (s : State) : Result :=
  match s.atomics[k]? with
  | none => .next s
  | some r =>
    let s := { s with atomics := s.atomics.eraseIdx k }
    match s.thread? r.tid with
    | none => .next s
    | some t =>
      let n := atomWidth r.ty
      match s.poisonAt r.pa n with
      | some g => .next (takeTrap s r.tid .poison (w64 (r.va.toNat + 16 * g - r.pa)) false)
      | none =>
        let old := leNat (s.readMem r.pa n)
        let new := amoNew r.op r.ty old r.operand.toNat r.compare.toNat
        let s := writeThrough s (s.coreOf t) t.ctx r.va.toNat r.pa (leBytes n new)
        let s := if acquires r.ord then acquire s (s.coreOf t) r.tid else s
        .next (finish r.tid t
          { Effect.onRegs s t (fun x => writeG x (BitVec.ofNat 5 r.dest) (amoOld r.ty old)) with
            watch := some (r.va, n, .store) })

/-- FENCE: the release part waits for earlier stores, and at domain scope for the acknowledgement of earlier remote
operations; every kind but .rel empties the global-read buffer and orders the thread's accesses through other virtual
addresses (R119, R349). -/
def execFence (kind : FenceKind) (scope : FenceScope) (s : State) : Result :=
  perform s fun s t =>
    match (if kind = .acq then .ok () else drained s t) with
    | .error e => .error e
    | .ok () =>
      if kind ≠ .acq ∧ scope = .domain ∧ t.remotePending ≠ [] then .error (.wait .remote s)
      else .ok (.onRegs (if kind = .rel then s else acquireFor s t) t id)

end Sys2Proof.Machine
end

