-- ==== Sys2Proof/Machine/Barriers.lean ====
section
/-! DEFINITION. Byte-counting barriers in a pot granule (R132). -/

namespace Sys2Proof.Machine

open Sys2Proof

/-- The fields of a barrier (R132). -/
structure Barrier where
  count : Int
  posts : Nat
  isOver : Bool
  complete : Bool
deriving DecidableEq, Repr

/-- The barrier that a granule holds (R132). -/
def barrierAt (s : State) (core addr : Nat) : Barrier :=
  let b := s.potRead core addr 11
  { count := sextNat 64 (leNat (b.take 8)), posts := leNat ((b.drop 8).take 2), isOver := leNat (b.drop 10) % 2 = 1,
    complete := leNat (b.drop 10) / 2 % 2 = 1 }

/-- The flags after a post or an arrival: complete is set or cleared, over once set stays (R132). -/
def recompute (b : Barrier) : Barrier :=
  { b with complete := b.posts = 0 && b.count = 0, isOver := b.isOver || (b.posts = 0 && b.count < 0) }

/-- Write a barrier's first 11 bytes; a wait on it looks again (R132). Bytes 11 to 15 stay as they stand, also at BCINIT
(log 54). -/
def putBarrier (s : State) (core addr : Nat) (b : Barrier) : State :=
  potStore s core addr (leBytes 8 (wrapInt 64 b.count) ++ leBytes 2 b.posts ++
    leBytes 1 ((if b.isOver then 1 else 0) + if b.complete then 2 else 0))

/-- An arrival of bytes at a barrier (R132). -/
def barrierArrive (s : State) (core addr bytes : Nat) : State :=
  let b := barrierAt s core addr
  putBarrier s core addr (recompute { b with count := sextNat 64 (wrapInt 64 (b.count - bytes)) })

/-- The barrier that an operand names: 16-byte aligned, in a pot, and the checks of R113 (R132). -/
def barrierOf (s : State) (t : Thread) (ga : Word) : Except Stop (Nat × Nat × State) :=
  if ga.toNat % 16 ≠ 0 then trapWith .align ga
  else if !bit ga 63 then trapWith .protect ga
  else match located s t ga 16 .write with
    | .error e => .error e
    | .ok (.pot core a, s) => .ok (core, a, s)
    | .ok (.glob _ _, _) => trapWith .protect ga

/-- BCINIT: a release (R132). -/
def execBcinit (a b : GReg) (s : State) : Result :=
  perform s fun s t =>
    match barrierOf s t (readG t a), released s t with
    | .error e, _ => .error e
    | _, .error e => .error e
    | .ok (core, addr, s), .ok () =>
      .ok (.onRegs (putBarrier s core addr
        (recompute { count := 0, posts := bits (readG t b) 15 0, isOver := false, complete := false })) t id)

/-- BCPOST: a release (R132). -/
def execBcpost (a b : GReg) (s : State) : Result :=
  perform s fun s t =>
    match barrierOf s t (readG t a), released s t with
    | .error e, _ => .error e
    | _, .error e => .error e
    | .ok (core, addr, s), .ok () =>
      let x := barrierAt s core addr
      .ok (.onRegs (putBarrier s core addr
        (recompute { x with count := sextNat 64 (wrapInt 64 (x.count + (readG t b).toNat)), posts := x.posts - 1 })) t id)

/-- BCWAIT: waits until over or complete is set, over tested first; an acquire (R132). -/
def execBcwait (d a : GReg) (s : State) : Result :=
  perform s fun s t =>
    let ga := readG t a
    match barrierOf s t ga, afterReleases s t with
    | .error e, _ => .error e
    | _, .error e => .error e
    | .ok (core, addr, s), .ok () =>
      let b := barrierAt s core addr
      if b.isOver then
        .ok { Effect.onRegs (putBarrier (acquireFor s t) core addr { b with isOver := false }) t
                (fun x => writeG x d (w64 (wrapInt 64 b.count))) with after := some (.bcover, ga, true) }
      else if b.complete then .ok (.onRegs (acquireFor s t) t fun x => writeG x d 0)
      else .error (.wait (.barrier (granuleKey core addr)) s)

end Sys2Proof.Machine
end

