-- ==== Sys2Proof/Machine/Branch.lean ====
section
/-! DEFINITION. Branches, jumps and LOOP (R99 to R102). -/

namespace Sys2Proof.Machine

open Sys2Proof

/-- Where a conditional branch goes (R99). -/
def branchTo (t : Thread) (taken : Bool) (off : BitVec 16) : Word :=
  if taken then wordTarget t.pc off else seqPc t

/-- BEQ (R99). -/
def execBeq (a b : GReg) (off : BitVec 16) (s : State) : Result :=
  branchStep s id fun t => branchTo t (readG t a = readG t b) off

/-- BNE (R99). -/
def execBne (a b : GReg) (off : BitVec 16) (s : State) : Result :=
  branchStep s id fun t => branchTo t (readG t a ≠ readG t b) off

/-- BLT: signed (R99). -/
def execBlt (a b : GReg) (off : BitVec 16) (s : State) : Result :=
  branchStep s id fun t => branchTo t ((readG t a).slt (readG t b)) off

/-- BGE: signed (R99). -/
def execBge (a b : GReg) (off : BitVec 16) (s : State) : Result :=
  branchStep s id fun t => branchTo t (!(readG t a).slt (readG t b)) off

/-- BLTN: unsigned (R99). -/
def execBltn (a b : GReg) (off : BitVec 16) (s : State) : Result :=
  branchStep s id fun t => branchTo t ((readG t a).ult (readG t b)) off

/-- BGEN: unsigned (R99). -/
def execBgen (a b : GReg) (off : BitVec 16) (s : State) : Result :=
  branchStep s id fun t => branchTo t (!(readG t a).ult (readG t b)) off

/-- J (R100). -/
def execJ (off : BitVec 26) (s : State) : Result :=
  branchStep s id fun t => wordTarget t.pc off

/-- JL: g31 takes the address after this word (R100). -/
def execJl (off : BitVec 26) (s : State) : Result :=
  branchStep s (fun t => writeG t 31 (seqPc t)) fun t => wordTarget t.pc off

/-- JLR: the target from the old ga; a target that is not a word address raises ALIGN (R100). -/
def execJlr (d a : GReg) (imm : BitVec 16) (s : State) : Result :=
  perform s fun s t =>
    let target := readG t a + sx imm
    if target.toNat % 4 ≠ 0 then trapWith .align target
    else .ok { Effect.onRegs s t (fun x => writeG x d (seqPc t)) with pc := target }

/-- LOOP: the trip counter falls, and the branch is taken while it is not zero (R101). -/
def execLoop (a : GReg) (off : BitVec 16) (s : State) : Result :=
  branchStep s (fun t => if readG t a = 0 then t else writeG t a (readG t a - 1)) fun t =>
    branchTo t (readG t a ≠ 0 && readG t a ≠ 1) off

end Sys2Proof.Machine
end

