-- ==== Sys2Proof/Machine/Signals.lean ====
section
/-! DEFINITION. What the device tells system software of itself: MSI-X messages (R322) and the translation fault queue (R313,
R334); and runs of bytes through a context's translation. -/

namespace Sys2Proof.Machine

open Sys2Proof

/-! ## MSI-X (R322) -/

/-- The MSI-X state of a function. -/
def State.msixOf (s : State) (fn : Nat) : Msix := tgetD s.msix fn Msix.reset

/-- The message of a vector (R322). -/
def Msix.message (m : Msix) (vec : Nat) : MsixMsg :=
  let e := tgetD m.vectors vec (0, 0)
  { vec := vec, addr := e.1, data := e.2 }

/-- A vector of a function fires: a masked one becomes pending (R322). -/
def fire (s : State) (vec fn : Nat) : State :=
  let m := s.msixOf fn
  let m' := if nsMem m.masked vec then { m with pending := nsAdd m.pending vec } else { m with sent := m.sent ++ [m.message vec] }
  { s with msix := tset s.msix fn m' }

/-- The physical functions of the two links (R319, R320). -/
def physicalFns : List Nat := [0, 16]

/-- A vector of both physical functions fires. -/
def firePhysical (s : State) (vec : Nat) : State := physicalFns.foldl (fun s fn => fire s vec fn) s

/-- A change of READY or of INPUT[18:16] reaches every function (R322). -/
def fireEvery (s : State) : State := (List.range 32).foldl (fun s fn => fire s 0 fn) s

/-! ## Translation fault queue (R313, R334) -/

/-- The queue has no free entry. -/
def fqFull (s : State) : Bool :=
  s.mgmt.fqSize = 0 || (s.mgmt.fqTail.toNat + 1) % s.mgmt.fqSize.toNat = s.mgmt.fqHead.toNat

/-- Agents of a fault-queue entry (R313). -/
inductive FqAgent where
  | edge | copy | engine | peer
deriving DecidableEq, Repr

/-- The agent's code (R313). -/
def FqAgent.code : FqAgent → Nat
  | .edge => 1
  | .copy => 2
  | .engine => 3
  | .peer => 4

/-- The code of an access (R313). -/
def accessCode : Access → Nat
  | .read => 0
  | .fetch => 0
  | .write => 1
  | .atomic => 2

/-- A fault as the queue records it. -/
structure EngineFault where
  va : Nat
  ctx : Nat
  reason : Nat
  level : Nat
  acc : Access
  agent : FqAgent
  id : Nat
deriving DecidableEq, Repr

/-- The 32 bytes of an entry (R313). -/
def faultBytes (f : EngineFault) : List Byte :=
  leBytes 8 f.va ++ leBytes 1 (f.ctx % 64) ++ leBytes 1 f.reason ++ leBytes 1 (accessCode f.acc) ++ leBytes 1 f.agent.code ++
    leBytes 4 f.id ++ leBytes 1 f.level ++ List.replicate 15 0

/-- Write an entry for an agent that has room for one: its index, and the state (R313, R322). -/
def fqWrite (s : State) (f : EngineFault) : Nat × State :=
  let i := s.mgmt.fqTail.toNat
  let s := s.writeMem (s.mgmt.fqBase.toNat + 32 * i) (faultBytes f)
  let s := { s with mgmt := { s.mgmt with
    fqTail := BitVec.ofNat 16 ((i + 1) % s.mgmt.fqSize.toNat) } }
  (i, firePhysical s 0)

/-! ## Pre-emption commands (R276, R334) -/

/-- The pre-emption in progress is over: PRESTAT[0] clears (R322, R334). -/
def preemptDone (s : State) : State :=
  if s.mgmt.preBusy then firePhysical { s with mgmt := { s.mgmt with preBusy := false } } 0 else s

/-! ## Energy (R266) -/

/-- Cores of a cluster are held by two or more contexts. -/
def sharedCluster (s : State) (cl : Nat) : Bool :=
  1 < (((s.cluster cl).lct.filterMap fun (_, e) => if e.allocated then some e.ctx else none).dedup).length

/-- A context switch of a cluster: the energy since the last one goes to the outgoing context, with its shared flag where the
cluster is shared (R266). -/
def switchContext (s : State) (cl ctx : Nat) : State :=
  let c := s.cluster cl
  if c.owner = some ctx then s else
  let shared := sharedCluster s cl
  let s := s.modCluster cl fun c => { c with owner := some ctx, energyMark := c.energy }
  match c.owner with
  | none => s
  | some o => s.modCtx o fun x => { x with energy := x.energy + (c.energy - c.energyMark), shared := x.shared || shared }

/-! ## Bytes through a translation -/

/-- Read n bytes from a virtual address on; a failed walk names the address it met. -/
def readVirt (ctx : Nat) (user : Bool) : Nat → Nat → State → Except (Nat × WalkResult) (List Byte × State)
  | 0, _, s => .ok ([], s)
  | n + 1, va, s =>
    match translate s ctx (va % 2 ^ 52) .read user with
    | (.ok pa, _, s) =>
      match readVirt ctx user n (va + 1) s with
      | .ok (b, s') => .ok (mread s.mem pa :: b, s')
      | .error e => .error e
    | (r, _, _) => .error (va % 2 ^ 52, r)

/-- The physical addresses of n bytes, if every one may be written. -/
def mapVirt (ctx : Nat) (user : Bool) : Nat → Nat → State → Option (List Nat × State)
  | 0, _, s => some ([], s)
  | n + 1, va, s =>
    match translate s ctx (va % 2 ^ 52) .write user with
    | (.ok pa, _, s) => (mapVirt ctx user n (va + 1) s).map fun (l, s) => (pa :: l, s)
    | _ => none

/-- The granules that elements of a width cover whole: the sum of the distinct elements in each (R203, R311). -/
def coveredBy (w : Nat) (as : List Nat) : List Nat :=
  let as := as.dedup
  ((as.map (· / 16)).dedup).filter fun g => 16 ≤ w * (as.filter fun a => a / 16 = g).length

/-- Write bytes at physical addresses; a granule that is covered whole loses its poison mark (R302). -/
def writePhys (s : State) (l : List (Nat × Byte)) : State :=
  { s with mem := l.foldl (fun m (a, x) => mwrite m a x) s.mem
           poison := (coveredBy 1 (l.map Prod.fst)).foldl nsDel s.poison }

/-- Write bytes from a virtual address on, all or none. -/
def writeVirt (s : State) (ctx : Nat) (user : Bool) (va : Nat) (b : List Byte) : Option State :=
  (mapVirt ctx user b.length va s).map fun (l, s) => writePhys s (l.zip b)

end Sys2Proof.Machine
end

