-- ==== Sys2Proof/Machine/Fabric.lean ====
section
/-! DEFINITION. The fabric: identity tables and routes (R360), peer links and flits (R352 to R354), messages with their replay
buffers (R355, R357, R358), and the exactly-once window of a destination (R356, R359). -/

namespace Sys2Proof.Machine

open Sys2Proof

/-! ## CRC-32C (log 5) -/

/-- One bit of the reflected division by the Castagnoli polynomial (log 5). -/
def crcBit (c : Nat) : Nat := if c % 2 = 1 then (c / 2) ^^^ 0x82F63B78 else c / 2

/-- Eight bits. -/
def crcByte (c : Nat) (b : Byte) : Nat := (List.range 8).foldl (fun c _ => crcBit c) (c ^^^ b.toNat)

/-- CRC-32C of bytes (log 5). -/
def crc32c (bs : List Byte) : Nat := bs.foldl crcByte 0xFFFFFFFF ^^^ 0xFFFFFFFF

/-! ## Identity table and routes (R360) -/

/-- The identity entry of a logical chip. -/
def identity (s : State) (chip : Nat) : Word := tgetD s.fabric.identity chip 0
/-- The entry is valid (R360). -/
def idValid (s : State) (chip : Nat) : Bool := bit (identity s chip) 48
/-- This package holds the number (R360). -/
def idSelf (s : State) (chip : Nat) : Bool := bit (identity s chip) 49
/-- Messages for the chip stay in replay buffers (R360). -/
def idHeld (s : State) (chip : Nat) : Bool := bit (identity s chip) 50

/-- A link before it has trained (R354, log 9). -/
def PeerLink.reset : PeerLink :=
  { state := .training, lanes := 0, nextSeq := 0, expected := 0, retry := [], sendNak := false, naks := 0, nakSeq := 0,
    failures := 0, waiting := [], wire := [] }

/-- A peer link. -/
def State.link (s : State) (l : Nat) : PeerLink := tgetD s.fabric.links l PeerLink.reset
/-- Write a peer link. -/
def State.setLink (s : State) (l : Nat) (p : PeerLink) : State :=
  { s with fabric := { s.fabric with links := tset s.fabric.links l p } }

/-- The lowest-numbered link that is up and leads towards a chip (R360). -/
def routeLink (s : State) (chip : Nat) : Option Nat :=
  (List.range 16).find? fun l => bit (identity s chip) (16 + l) && (s.link l).state = .up

/-! ## Slots and flits (R352, R355) -/

/-- Bytes cut or filled with zeros to a length. -/
def fitTo (n : Nat) (b : List Byte) : List Byte := (b ++ List.replicate n 0).take n

/-- Slots that a message takes: one, or two where its payload is longer than 64 bytes (log 10). -/
def Msg.slots (m : Msg) : Nat := if m.payload.length ≤ 64 then 1 else 2

/-- A slot of a message: the header of 16 bytes and 64 bytes of payload (R355). -/
def msgSlotBytes (m : Msg) (payload : List Byte) : List Byte :=
  fitTo 80 (leBytes 1 m.dest.toNat ++ leBytes 1 m.src.toNat ++ leBytes 1 m.type.toNat ++ leBytes 1 m.ctx.toNat ++
    leBytes 4 m.seq.toNat ++ leBytes 2 m.port.toNat ++ leBytes 2 m.requester.toNat ++ List.replicate 4 0 ++ payload)

/-- The bytes of a message's slots, each with the message's header (R355, log 10). -/
def msgBytes (m : Msg) : List Byte :=
  if m.slots = 1 then msgSlotBytes m m.payload else msgSlotBytes m (m.payload.take 64) ++ msgSlotBytes m (m.payload.drop 64)

/-- A message slot of 80 bytes (R355). -/
def msgOfSlot (b : List Byte) : Msg :=
  { dest := BitVec.ofNat 8 (leNat (b.take 1)), src := BitVec.ofNat 8 (leNat ((b.drop 1).take 1)),
    type := BitVec.ofNat 4 (leNat ((b.drop 2).take 1) % 16), ctx := BitVec.ofNat 6 (leNat ((b.drop 3).take 1)),
    seq := BitVec.ofNat 32 (leNat ((b.drop 4).take 4)), port := BitVec.ofNat 16 (leNat ((b.drop 8).take 2)),
    requester := BitVec.ofNat 16 (leNat ((b.drop 10).take 2)), payload := (b.drop 16).take 64 }

/-- A slot is the first of two: copy or reducing data of more than 48 bytes (log 10). -/
def Msg.goesOn (m : Msg) : Bool :=
  (m.type.toNat = 2 || m.type.toNat = 3) && 48 < leNat ((m.payload.drop 8).take 1)

/-- The messages of so many slots (R355, log 10). -/
def msgsOfSlots : Nat → List Byte → List Msg
  | 0, _ => []
  | 1, b => [msgOfSlot b]
  | n + 2, b =>
    let m := msgOfSlot b
    if m.goesOn then { m with payload := m.payload ++ (b.drop 96).take 16 } :: msgsOfSlots n (b.drop 160)
    else m :: msgsOfSlots (n + 1) (b.drop 80)

/-- The 256 bytes of a flit (R352). -/
def OutFlit.bytes (f : OutFlit) : List Byte :=
  let head := f.seq.toNat + 2 ^ 12 * f.through.toNat + (if f.nak then 2 ^ 24 else 0) + 2 ^ 25 * f.kind.toNat +
    2 ^ 27 * (f.msgs.map Msg.slots).sum
  let b := fitTo 252 (leBytes 8 head ++ f.msgs.flatMap msgBytes)
  b ++ leBytes 4 (crc32c b)

/-- Put a flit on a link: it carries the acknowledgement and the nak of the moment (R352, R353). -/
def putFlit (p : PeerLink) (kind : BitVec 2) (seq : BitVec 12) (msgs : List Msg) : PeerLink :=
  { p with wire := p.wire ++ [{ seq := seq, through := p.expected - 1, nak := p.sendNak, kind := kind, msgs := msgs }],
           sendNak := false }

/-- The first waiting messages that fit in a number of slots. -/
def fitMsgs : Nat → List Msg → List Msg
  | _, [] => []
  | room, m :: r => if m.slots ≤ room then m :: fitMsgs (room - m.slots) r else []

/-- Waiting messages leave in flits of up to three slots while the retry buffer has room (R352, R353). -/
def pumpLink : Nat → PeerLink → PeerLink
  | 0, p => p
  | n + 1, p =>
    if p.state ≠ .up ∨ p.waiting = [] ∨ 512 ≤ p.retry.length then p else
    let ms := fitMsgs 3 p.waiting
    let p := putFlit p 0 p.nextSeq ms
    pumpLink n { p with nextSeq := p.nextSeq + 1, retry := p.retry ++ [{ seq := p.nextSeq, msgs := ms }],
                        waiting := p.waiting.drop ms.length }

/-- Every flit of the retry buffer goes again, in order (R353). -/
def resendFlits (p : PeerLink) : PeerLink := p.retry.foldl (fun p f => putFlit p 0 f.seq f.msgs) p

/-- An idle flit carries the acknowledgement where no other flit has gone since the link's wire was so long (R352, R353). -/
def answerLink (n : Nat) (p : PeerLink) : PeerLink :=
  if p.state = .up ∧ p.wire.length = n then putFlit p 1 p.nextSeq [] else p

/-- Put a message on a link. -/
def linkSend (s : State) (l : Nat) (m : Msg) : State :=
  let p := s.link l
  let p := { p with waiting := p.waiting ++ [m] }
  s.setLink l (pumpLink p.waiting.length p)

/-! ## Sending (R355, R357, R358) -/

/-- What is kept for a destination before anything was sent; the first sequence is 1 (R355, log 9). -/
def DestSt.reset : DestSt := { nextSeq := 1, replay := [], retained := [], acked := none, lastLink := none }

/-- What is kept for a destination chip. -/
def State.dest (s : State) (chip : Nat) : DestSt := tgetD s.fabric.dests chip DestSt.reset
/-- Write it. -/
def State.setDest (s : State) (chip : Nat) (d : DestSt) : State :=
  { s with fabric := { s.fabric with dests := tset s.fabric.dests chip d } }

/-- What is kept for a source chip before anything arrived (R356). -/
def SourceSt.reset : SourceSt := 
  { applied := 0, window := [], replies := [], failed := [], link := 0, horizonA := 0, horizonN := 0 }

/-- What is kept for a source chip. -/
def State.source (s : State) (chip : Nat) : SourceSt := tgetD s.fabric.sources chip SourceSt.reset
/-- Write it. -/
def State.setSource (s : State) (chip : Nat) (d : SourceSt) : State :=
  { s with fabric := { s.fabric with sources := tset s.fabric.sources chip d } }

/-- A message for the package's own number is delivered locally; a package that has taken the number and has not restored the
fabric state drops it (R360, R365, log 43). -/
def takeOwn (s : State) (m : Msg) : State :=
  if s.fabric.awaiting then s else { s with fabric := { s.fabric with inbox := s.fabric.inbox ++ [m] } }

/-- Send a message by the route of the moment: to the package itself, over a link, or not at all while the entry is held,
not valid or without a link that is up (R360). -/
def emitMsg (s : State) (m : Msg) : State :=
  let chip := m.dest.toNat
  if !idValid s chip then s
  else if idSelf s chip then takeOwn s m
  else if idHeld s chip then s
  else match routeLink s chip with
    | some l =>
      let s := linkSend s l m
      if m.type.toNat < 5 then s.setDest chip { s.dest chip with lastLink := some l } else s
    | none => s

/-- Messages that retention keeps, over all destinations. -/
def retainedCount (s : State) : Nat := (s.fabric.dests.map fun (_, d) => d.retained.length).sum

/-- Messages that are not acknowledged, over all destinations: each will take a place of the retention log. -/
def replayCount (s : State) : Nat := (s.fabric.dests.map fun (_, d) => d.replay.length).sum

/-- A destination takes one more message: its replay buffer of 64 and the retention log, where there is one, have room
(R357, R358). -/
def canSend (s : State) (chip : Nat) : Bool :=
  (s.dest chip).replay.length < 64 &&
  (match s.fabric.logSize with
   | none => true
   | some n => retainedCount s + replayCount s < n)

/-- Number a message of types 0 to 4, keep it in the replay buffer and send it (R355, R357). -/
def sendNumbered (s : State) (m : Msg) : BitVec 32 × State :=
  let d := s.dest m.dest.toNat
  let m := { m with seq := d.nextSeq, src := s.trivet.chip }
  let s := s.setDest m.dest.toNat { d with nextSeq := d.nextSeq + 1, replay := d.replay ++ [m] }
  (d.nextSeq, emitMsg s m)

/-- s ≤ A modulo 2^32 (R356). -/
def seqLe (q a : BitVec 32) : Bool := (a - q).toNat < 2 ^ 31

/-- Bytes of a place of the retention log: a message of two slots (R358, log 43). -/
def logPlace : Nat := 160

/-- A free place of the retention log: the lowest that no retained message has (R358, log 43). -/
def freeLogPlace (s : State) : Option Nat :=
  match s.fabric.logSize with
  | none => none
  | some n =>
    let used := s.fabric.dests.flatMap fun (_, d) => d.retained.map Prod.snd
    ((List.range (Nat.min n (used.length + 1))).map fun i => s.fabric.logAddr + logPlace * i).find? fun a => !used.contains a

/-- Keep an acknowledged message in the retention log, where there is one (R358). -/
def retainMsg (chip : Nat) (s : State) (m : Msg) : State :=
  match freeLogPlace s with
  | none => s
  | some a =>
    (s.writeMem a (msgBytes m)).setDest chip { s.dest chip with retained := (s.dest chip).retained ++ [(m.seq, a)] }

/-- The messages of a place of the retention log. -/
def logMsg (s : State) (a : Nat) : List Msg := (msgsOfSlots 2 (s.readMem a logPlace)).take 1

/-- The retained messages that the destination has not acknowledged since its entry was last moved or released (R365). -/
def owedMsgs (s : State) (chip : Nat) : List Msg :=
  let d := s.dest chip
  (d.retained.filter fun (q, _) => match d.acked with
    | some a => !seqLe q a
    | none => true).flatMap fun (_, a) => logMsg s a

/-- Send what a destination has not acknowledged again, in sequence order: what it is owed of the retention log, and the whole
replay buffer (R357, R365). -/
def resendAll (s : State) (chip : Nat) : State := (owedMsgs s chip ++ (s.dest chip).replay).foldl emitMsg s

/-! ## The payload of a message (log 10) -/

/-- 64 payload bytes (R355). -/
def pad64 (b : List Byte) : List Byte := fitTo 64 b

/-- The payload of RST and RAT: address, operand, compare value, operation, type (log 10). -/
def accessPayload (addr : Nat) (operand compare : Word) (op : AmoOp) (ty : Ty) : List Byte :=
  pad64 (leBytes 8 addr ++ leBytes 8 operand.toNat ++ leBytes 8 compare.toNat ++ leBytes 1 op.code.toNat ++
    leBytes 1 ty.code.toNat)

/-- The payload of copy and reducing data: address, length, operation, type, then up to 64 bytes, the last 16 of them in a
second slot (R363, log 10). -/
def dataPayload (addr : Nat) (op : Nat) (ty : Ty) (data : List Byte) : List Byte :=
  fitTo (if data.length ≤ 48 then 64 else 80)
    (leBytes 8 addr ++ leBytes 1 data.length ++ leBytes 1 op ++ leBytes 1 ty.code.toNat ++ List.replicate 5 0 ++ data)

/-- A number in the payload. -/
def payloadNat (m : Msg) (off n : Nat) : Nat := leNat ((m.payload.drop off).take n)

/-- The type in byte 25 or 10 of a payload; a code that no type has reads as n64 (log 10). -/
def payloadTy (m : Msg) (off : Nat) : Ty := (Ty.ofCode (BitVec.ofNat 4 (payloadNat m off 1 % 16))).getD .n64

/-- The operation in byte 24 of a payload; a code that no operation has reads as an exchange (log 10). -/
def payloadOp (m : Msg) : AmoOp := (AmoOp.ofCode (BitVec.ofNat 4 (payloadNat m 24 1 % 16))).getD .swap

/-- A message with its sequence and source still to be filled in. -/
def mkMsg (dest : Nat) (type : Nat) (ctx port requester : Nat) (payload : List Byte) : Msg :=
  { dest := BitVec.ofNat 8 dest, src := 0, type := BitVec.ofNat 4 type, ctx := BitVec.ofNat 6 ctx, seq := 0,
    port := BitVec.ofNat 16 port, requester := BitVec.ofNat 16 requester, payload := payload }

/-! ## Applying (R356, R359) -/

/-- The operation of copy and reducing data as an atomic; a move is an exchange (R277, R363). -/
def copyOp (op : Nat) (ty : Ty) : AmoOp :=
  match op with
  | 1 => if ty = .f32 || ty = .bf16 then .fadd else .add
  | 2 => .min
  | 3 => .max
  | _ => .swap

/-- What combining an element of a copy gives; minimum and maximum of f32 follow R105 (R277, R278, log 14). -/
def combineElem (op : Nat) (ty : Ty) (old v : Nat) : Nat :=
  if ty.isVFloat then
    (match op with
     | 1 => fAdd ty .rn false old v
     | 2 => fMin ty old v
     | 3 => fMax ty old v
     | _ => v % 2 ^ ty.width)
  else amoNew (copyOp op ty) ty old v 0

/-- Bytes written to the tiers by an engine or a peer: presence granules that are covered whole become full (R311). -/
def engineWrite (s : State) (pa : Nat) (b : List Byte) (presence : Bool) : State :=
  let s := s.writeMem pa b
  if presence then (wholeGranules pa b.length).foldl (fun s g => fillPresent s (16 * g)) s else s

/-- A store of a peer: of 8 bytes into a presence page it fills its granule and wakes who waits there, a narrower one leaves the
bit (R311, R364, log 26). -/
def peerStore (s : State) (pa : Nat) (b : List Byte) (presence : Bool) : State :=
  let s := s.writeMem pa b
  if presence && 8 ≤ b.length then fillPresent s pa else s

/-- Apply reducing elements one by one (R363). -/
def reduceInto (s : State) (pa : Nat) (op : Nat) (ty : Ty) (data : List Byte) : State :=
  let w := ty.width / 8
  (List.range (data.length / w)).foldl (fun s i =>
    let a := pa + i * w
    let old := leNat (s.readMem a w)
    s.writeMem a (leBytes w (combineElem op ty old (leNat ((data.drop (i * w)).take w))))) s

/-- The outcome of one application. -/
inductive Applied where
  | done (s : State) (reply : Option Word)
  | failed (s : State) (c : Cause)
  | blocked
deriving DecidableEq, Repr

/-- The token of a channel message: kind, tag and level stand in the requester field (log 10). -/
def msgTok (m : Msg) (seq : BitVec 24) : Tok :=
  { kind := match m.requester.toNat % 8 with
      | 0 => .data
      | 1 => .streamEnd
      | 2 => .config
      | 3 => .endOfTile
      | 4 => .marker
      | 5 => .bound
      | 6 => .control
      | _ => .reserved,
    tag := m.requester.toNat / 8 % 2 = 1, level := BitVec.ofNat 4 (m.requester.toNat / 16), seq := seq,
    payload := bytesTok m.payload }

/-- A stream port (R362). -/
def State.port? (s : State) (n : Nat) : Option StreamPort := tget s.fabric.ports n
/-- Write a stream port. -/
def State.setPort (s : State) (n : Nat) (p : StreamPort) : State :=
  { s with fabric := { s.fabric with ports := tset s.fabric.ports n p } }

/-- The slot of a thread that is bound to a stream port. -/
def portSlot (t : Thread) (n : Nat) : Option Nat :=
  (List.range 8).find? fun i => (t.chEnd i).bound && (t.chEnd i).port && (t.chEnd i).desc.toNat = 16 + n

/-- A channel token enters a port's buffer of 64, if the port is bound, receives and names the sender (R356, R362). -/
def applyToken (s : State) (m : Msg) : Applied :=
  let n := m.port.toNat
  match s.port? n with
  | none => .blocked
  | some p =>
    if bits p.desc 15 8 ≠ m.src.toNat ∨ bits p.desc 21 16 ≠ m.requester.toNat / 256 % 64 ∨ p.send ∨ 64 ≤ p.buffer.length then .blocked
    else
      let (a, s) := s.arrive
      let s := s.setPort n { p with buffer := p.buffer ++ [(a, msgTok m 0)] }
      match (s.thread? p.tid).bind fun t => portSlot t n with
      | some slot => .done (wakeSlot s p.tid slot) none
      | none => .done s none

/-- A peer's access that faults is written to the fault queue as agent 4, where an entry is free (R313, log 42). -/
def peerFault (s : State) (m : Msg) (va : Nat) (acc : Access) (r : WalkResult) : State :=
  match r with
  | .fail _ reason level =>
    if fqFull s then s else
    (fqWrite s { va := va, ctx := m.ctx.toNat, reason := reason, level := level, acc := acc, agent := .peer,
                 id := (s.source m.src.toNat).link }).2
  | .ok _ => s

/-- Apply a message: the write, the atomic or the token, in the translation of its context with user privilege (R355, R356). -/
def applyMsg (s : State) (m : Msg) : Applied :=
  let ctx := m.ctx.toNat
  let va := payloadNat m 0 8
  let at_ := fun (acc : Access) (f : State → Nat → Bool → State × Option Word) =>
    match translate s ctx (va % 2 ^ 52) acc true with
    | (.ok pa, pres, s) => let (s, r) := f s pa pres; Applied.done s r
    | (r, _, s) => .failed (peerFault s m (va % 2 ^ 52) acc r) (walkCause r)
  let watch := fun (s : State) (n : Nat) => watchEngine s ctx 0 (va % 2 ^ 52) n 0xE0
  match m.type.toNat with
  | 0 =>
    let n := (payloadTy m 25).width / 8
    at_ .write fun s pa pres =>
      (watch (peerStore s pa (leBytes n (payloadNat m 8 8)) pres) n, none)
  | 1 =>
    let ty := payloadTy m 25
    let n := ty.width / 8
    at_ .atomic fun s pa _ =>
      let old := leNat (s.readMem pa n)
      (watch (s.writeMem pa (leBytes n (amoNew (payloadOp m) ty old (payloadNat m 8 8) (payloadNat m 16 8)))) n,
        some (w64 old))
  | 2 =>
    let data := (m.payload.drop 16).take (payloadNat m 8 1)
    at_ .write fun s pa pres => (watch (engineWrite s pa data pres) data.length, none)
  | 3 =>
    let data := (m.payload.drop 16).take (payloadNat m 8 1)
    at_ .atomic fun s pa _ => (watch (reduceInto s pa (payloadNat m 9 1) (payloadTy m 10) data) data.length, none)
  | _ => applyToken s m

/-- An acknowledgement of A; it names the sequence and the cause of the last seven failed accesses that the horizon has not
passed (R356, R120, log 10). -/
def ackMsg (dest : Nat) (a : BitVec 32) (failed : List (BitVec 32 × Cause)) : Msg :=
  let last := failed.drop (failed.length - 7)
  mkMsg dest 5 0 0 0 (pad64 (leBytes 4 a.toNat ++ last.flatMap fun (q, c) => leBytes 4 c.code ++ leBytes 4 q.toNat))

/-- The failed accesses that an acknowledgement names. -/
def ackFailures (m : Msg) : List (BitVec 32 × Cause) :=
  (List.range 7).filterMap fun i =>
    let q := BitVec.ofNat 32 (payloadNat m (8 + 8 * i) 4)
    match payloadNat m (4 + 8 * i) 4 with
    | 0x04 => some (q, .page)
    | 0x05 => some (q, .protect)
    | _ => none

/-- The reply of an applied RAT, under the RAT's sequence (R355, R359). -/
def replyMsg (dest : Nat) (q : BitVec 32) (requester : BitVec 16) (old : Word) : Msg :=
  { mkMsg dest 6 0 0 requester.toNat (pad64 (leBytes 8 old.toNat)) with seq := q }

/-- Own source number on a message. -/
def fromHere (s : State) (m : Msg) : Msg := { m with src := s.trivet.chip }

/-- Acknowledge a chip's messages through A (R356). -/
def sendAck (s : State) (chip : Nat) : State :=
  emitMsg s (fromHere s (ackMsg chip (s.source chip).applied (s.source chip).failed))

/-- A held message is applied: A advances past it (R356). -/
def passHeld (s : State) (chip : Nat) (m : Msg) (replies : List (BitVec 32 × Word)) (failed : List (BitVec 32 × Cause)) : State :=
  let d := s.source chip
  s.setSource chip { d with applied := m.seq, window := d.window.filter fun x => x.seq ≠ m.seq,
                            replies := d.replies ++ replies, failed := d.failed ++ failed }

/-- Apply held messages in sequence order while the next is there; each failed access is acknowledged at once (R356, R120). -/
def applyHeld (chip : Nat) : Nat → State → State
  | 0, s => s
  | n + 1, s =>
    match (s.source chip).window.find? fun m => m.seq = (s.source chip).applied + 1 with
    | none => s
    | some m =>
      match applyMsg s m with
      | .blocked => s
      | .failed s c => applyHeld chip n (sendAck (passHeld s chip m [] [(m.seq, c)]) chip)
      | .done s none => applyHeld chip n (passHeld s chip m [] [])
      | .done s (some old) =>
        let s := passHeld s chip m [(m.seq, old)] []
        applyHeld chip n (emitMsg s (fromHere s (replyMsg chip m.seq m.requester old)))

/-- Apply what a chip's window holds in sequence, and acknowledge it where something was applied (R356). -/
def advanceSource (s : State) (chip : Nat) : State :=
  let s' := applyHeld chip 64 s
  if (s'.source chip).applied = (s.source chip).applied then s else sendAck s' chip

/-- A stream port has room, or is bound: the messages that waited for it are applied (R356, R362). -/
def retrySources (s : State) : State :=
  s.fabric.sources.foldl (fun s (c, d) => if d.window = [] then s else advanceSource s c) s

/-- A numbered message arrives (R356, R359). -/
def arriveNumbered (s : State) (m : Msg) : State :=
  let chip := m.src.toNat
  let d := s.source chip
  if seqLe m.seq d.applied then
    let s := match d.replies.find? fun (q, _) => q = m.seq with
      | some (q, old) => if m.type.toNat = 1 then emitMsg s (fromHere s (replyMsg chip q m.requester old)) else s
      | none => s
    sendAck s chip
  else if 64 < (m.seq - d.applied).toNat ∨ d.window.any (fun x => x.seq.toNat % 64 = m.seq.toNat % 64) then s
  else advanceSource (s.setSource chip { d with window := d.window ++ [m] }) chip

/-- Wake the threads that wait for room at a destination (R121, R357, R358). -/
def wakeSenders (s : State) : State := release s fun _ t r => match r with
  | .remote => true
  | .send i => (t.chEnd i).port && 16 ≤ (t.chEnd i).desc.toNat
  | _ => false

end Sys2Proof.Machine
end

