-- ==== Sys2Proof/Machine/Channels.lean ====
section
/-! DEFINITION. Channels, service ports and stream ports as threads use them (R121, R133, R314, R329, R362). -/

namespace Sys2Proof.Machine

open Sys2Proof

/-- The request port of the trusted firmware (R314). -/
def requestPort : Nat := 1
/-- The reply port of the trusted firmware (R314). -/
def replyPort : Nat := 2

/-- CHANNEL with its slot (R137). -/
def channelTrap {α : Type} (slot : ChSlot) : Except Stop α := trapWith .channel (w64 slot.toNat)

/-- A slot is bound to a stream port that joins a graph pot or a parameter block to the fabric: the slot keeps the binding and is
no end of the channel (R362). -/
def joinsOther (s : State) (e : ChanEnd) : Bool :=
  e.bound && e.port && 16 ≤ e.desc.toNat &&
  (match s.port? (e.desc.toNat - 16) with
   | some p => bits p.desc 31 30 ≠ 0
   | none => false)

/-- The words waiting at a receiving end, with the ordinals of their arrival: a channel's, the firmware's replies, or the
first words of a stream port's tokens (R121, R314, R362). -/
def waitingWords (s : State) (tid : Nat) (t : Thread) (slot : Nat) : List ChanWord :=
  let e := t.chEnd slot
  if !e.port then (s.chan tid slot).words
  else if e.desc.toNat = replyPort then tgetD s.trivet.replies tid []
  else match s.port? (e.desc.toNat - 16) with
    | some p => p.buffer.map fun (a, k) => { at_ := a, word := k.payload.setWidth 64 }
    | none => []

/-- The oldest word leaves a receiving end; a stream port takes what waited for the place (R121, R356). -/
def dropWord (s : State) (tid : Nat) (t : Thread) (slot : Nat) : State :=
  let e := t.chEnd slot
  if !e.port then
    let c := s.chan tid slot
    wakeSlot (s.setChan tid slot { c with words := c.words.tail }) e.peer.toNat e.pslot.toNat
  else if e.desc.toNat = replyPort then
    { s with trivet := { s.trivet with replies := tmod s.trivet.replies tid [] List.tail } }
  else match s.port? (e.desc.toNat - 16) with
    | some p => retrySources (s.setPort (e.desc.toNat - 16) { p with buffer := p.buffer.tail })
    | none => s

/-- Free places of a sending end; none while it cannot take a word (R121, R314, R357). -/
def freePlaces (s : State) (tid : Nat) (t : Thread) (slot : Nat) : Nat :=
  let e := t.chEnd slot
  if !e.port then
    match formed s tid slot with
    | some (p, q) => 8 - (s.chan p q).words.length
    | none => 0
  else if e.desc.toNat = requestPort then 8 - (tgetD s.trivet.requests tid []).length
  else match s.port? (e.desc.toNat - 16) with
    | some p => 64 - (s.dest (bits p.desc 15 8)).replay.length
    | none => 0

/-- A word enters a sending end (R121, R314, R362). -/
def sendWord (s : State) (tid : Nat) (t : Thread) (slot : Nat) (w : Word) : State :=
  let e := t.chEnd slot
  if !e.port then
    match formed s tid slot with
    | some (p, q) => chanPush s p q w
    | none => s
  else if e.desc.toNat = requestPort then
    { s with trivet := { s.trivet with requests := tmod s.trivet.requests tid [] (· ++ [w]) } }
  else match s.port? (e.desc.toNat - 16) with
    | some p => (sendNumbered s (mkMsg (bits p.desc 15 8) 4 t.ctx (bits p.desc 21 16) ((e.desc.toNat - 16) * 256)
        (pad64 (leBytes 8 w.toNat)))).2
    | none => s

/-- SEND: waits while the end is pending or full; a release (R121). -/
def execSend (ch : ChSlot) (b : GReg) (s : State) : Result :=
  perform s fun s t =>
    let slot := ch.toNat
    let e := t.chEnd slot
    if !e.bound ∨ !e.out ∨ (!e.port ∧ (s.chan s.cur slot).gone) ∨ joinsOther s e then channelTrap ch
    else if freePlaces s s.cur t slot = 0 then .error (.wait (.send slot) s)
    else if e.port ∧ e.desc.toNat ≥ 16 ∧ !canSend s (match s.port? (e.desc.toNat - 16) with
        | some p => bits p.desc 15 8
        | none => 0) then .error (.wait .remote s)
    else match drained s t with
      | .error x => .error x
      | .ok () => .ok (.onRegs (sendWord s s.cur t slot (readG t b)) t id)

/-- RECV: waits while the end is pending or empty; an acquire (R121). -/
def execRecv (d : GReg) (ch : ChSlot) (s : State) : Result :=
  perform s fun s t =>
    let slot := ch.toNat
    let e := t.chEnd slot
    if !e.bound ∨ e.out ∨ joinsOther s e then channelTrap ch
    else match waitingWords s s.cur t slot with
      | [] => if !e.port ∧ (s.chan s.cur slot).gone then channelTrap ch else .error (.wait (.recv slot) s)
      | w :: _ => .ok (.onRegs (acquireFor (dropWord s s.cur t slot) t) t fun x => writeG x d w.word)

/-- BIND.in and BIND.out (R121). -/
def bindSlot (s : State) (t : Thread) (ch : ChSlot) (b : GReg) (slot : ChSlot) (out : Bool) : Except Stop Effect :=
  let tid := bits (readG t b) 15 0
  let live := match s.thread? tid with
    | some p => p.ctx = t.ctx
    | none => false
  let taken : Bool := match formed s tid slot.toNat with
    | some (p, _) => p != s.cur
    | none => false
  if (t.chEnd ch.toNat).bound ∨ tid = 0 ∨ tid = 0xFFFF ∨ !live ∨ taken then channelTrap ch else
  let e : ChanEnd := { peer := BitVec.ofNat 16 tid, pslot := slot, out := out, bound := true, port := false, desc := 0 }
  let s := (s.dropChan s.cur ch.toNat).setThread s.cur (t.setEnd ch.toNat e)
  let s := match formed s s.cur ch.toNat with
    | some (p, q) => wakeSlot (wakeSlot s p q) s.cur ch.toNat
    | none => s
  .ok (.onRegs s t id)

/-- BIND_IN (R121). -/
def execBindIn (ch : ChSlot) (b : GReg) (slot : ChSlot) (s : State) : Result :=
  perform s fun s t => bindSlot s t ch b slot false

/-- BIND_OUT (R121). -/
def execBindOut (ch : ChSlot) (b : GReg) (slot : ChSlot) (s : State) : Result :=
  perform s fun s t => bindSlot s t ch b slot true

/-- UNBIND (R121). -/
def execUnbind (ch : ChSlot) (s : State) : Result :=
  perform s fun s t => .ok (.onRegs (unbindSlot s s.cur ch.toNat) t id)

/-- POLL: never waits; 0 while pending, all ones if the slot is unbound (R121), 0 of a slot that is no end (R362, log 22). -/
def execPoll (d : GReg) (ch : ChSlot) (s : State) : Result :=
  perform s fun s t =>
    let e := t.chEnd ch.toNat
    let v : Word := if !e.bound then BitVec.allOnes 64
      else if joinsOther s e then 0
      else if e.out then w64 (freePlaces s s.cur t ch.toNat)
      else w64 (waitingWords s s.cur t ch.toNat).length
    .ok (.onRegs s t fun x => writeG x d v)

/-! ## WAITANY (R133, R134, R136) -/

/-- The slots of a mask. -/
def maskSlots (mask : Nat) : List Nat := (List.range 8).filter fun i => mask / 2 ^ i % 2 = 1

/-- A slot is not a formed or pending receiving end (R133): unbound, sending, no end itself (R362), or its other end has gone and
no word waits. -/
def notReceiving (s : State) (tid : Nat) (t : Thread) (slot : Nat) : Bool :=
  let e := t.chEnd slot
  !e.bound || e.out || joinsOther s e || (!e.port && (s.chan tid slot).gone && (waitingWords s tid t slot).isEmpty)

/-- The slot whose oldest word arrived first; ties go to the lower slot (R133). -/
def firstSlot (s : State) (tid : Nat) (t : Thread) (slots : List Nat) : Option Nat :=
  (slots.foldl (fun (acc : Option (Nat × Nat)) i =>
    match waitingWords s tid t i, acc with
    | [], _ => acc
    | w :: _, none => some (w.at_, i)
    | w :: _, some (a, j) => if w.at_ < a then some (w.at_, i) else some (a, j)) none).map Prod.snd

/-- WAITANY: the first word to arrive wins, recorded or replayed by the decision log (R133, R134, R136). An empty mask gives CHANNEL
with TVALUE 0: R137 asks for a slot number and no slot is named (DESIGN CHOICE, log 72). -/
def execWaitany (d a : GReg) (s : State) : Result :=
  perform s fun s t =>
    let slots := maskSlots (bits (readG t a) 7 0)
    match (if slots = [] then some 0 else slots.find? fun i => notReceiving s s.cur t i) with
    | some bad => trapWith .channel (w64 bad)
    | none =>
      match logNext s t.decider with
      | .error e => .error e
      | .ok (some (i, e), s) =>
        if e.kind ≠ 2 ∨ e.tid ≠ s.cur then .error (.wait .decisionLog s)
        else if !slots.contains e.slot then trapWith .diverge (w64 i)
        else if (waitingWords s s.cur t e.slot).isEmpty then .error (.wait .waitany s)
        else
          let s := logConsume s t.decider
          (replayGrants t.decider (grantBound s) s).map fun s => .onRegs s t fun x => writeG x d (w64 e.slot)
      | .ok (none, s) =>
        match firstSlot s s.cur t slots with
        | none => .error (.wait .waitany s)
        | some i =>
          match logRecord s t.decider { kind := 2, slot := i, num := 0, cl := t.lcore / 128, tid := s.cur, val := 0 } with
          | .error e => .error e
          | .ok s => .ok (.onRegs s t fun x => writeG x d (w64 i))

end Sys2Proof.Machine
end

