-- ==== Sys2Proof/Machine/Scaled.lean ====
section
/-! DEFINITION. Block-scaled formats (R73 to R75): decoding MX and QX4 elements, and the quantiser of R188. -/

namespace Sys2Proof.Machine

open Sys2Proof

/-- A value times a power of two. -/
def scaleNum (k : Int) : Num → Num
  | .fin n m e => .fin n m (e + k)
  | x => x

/-- The value of an MX element under the scale S (R73); S = 0xFF makes every element NaN. -/
def mxVal (ty : Ty) (S p : Nat) : Num :=
  if S = 255 then .nan false else
  match ty with
  | .s8 => scaleNum ((S : Int) - 127 - 6) (numOfInt (sextNat 8 p))
  | _ => scaleNum ((S : Int) - 127) (value ty p)

/-- The slots of a QX4 block from slot j on, `skip` of which are payload (R74). -/
def qx4Go (S : Nat) (skip j : Nat) : List Nat → List Num
  | [] => []
  | c :: rest =>
    if 0 < skip then .fin false 0 0 :: qx4Go S (skip - 1) (j + 1) rest
    else if c ≠ 8 then scaleNum ((S : Int) - 127) (numOfInt (sextNat 4 c)) :: qx4Go S 0 (j + 1) rest
    else if j ≤ 29 then
      scaleNum ((S : Int) - 127) (value .e4m3 (rest.getD 0 0 * 16 + rest.getD 1 0)) :: qx4Go S 2 (j + 1) rest
    else .nan false :: qx4Go S 0 (j + 1) rest

/-- The 32 elements of a QX4 block (R74). -/
def qx4Block (S : Nat) (slots : List Nat) : List Num :=
  if S = 255 then slots.map fun _ => .nan false else qx4Go S 0 0 slots

/-- A block holds an escape that R75 calls illegal: slot 30 or 31 holds the escape code outside a payload. -/
def qx4Illegal (skip j : Nat) : List Nat → Bool
  | [] => false
  | c :: rest =>
    if 0 < skip then qx4Illegal (skip - 1) (j + 1) rest
    else if c = 8 then (if j ≤ 29 then qx4Illegal 2 (j + 1) rest else true)
    else qx4Illegal 0 (j + 1) rest

/-- Cut a list into pieces of n (n positive); `fuel` pieces at most. -/
def chunks {α : Type} (n : Nat) : Nat → List α → List (List α)
  | 0, _ => []
  | fuel + 1, l => if l.isEmpty then [] else l.take n :: chunks n fuel (l.drop n)

/-- The scale of block b of element token t in a scale token (R180). -/
def scaleOf (lanes : Nat) (scale : Vec512) (t b : Nat) : Nat := elem 8 scale (t * (lanes / 32) + b)

/-- The elements of a scaled token: number `t` of its group, under the latched scale token, or under 0xFF when none is
expected to hold (R73, R74, R180). -/
def scaledElems (ty : Ty) (scale : Option Vec512) (t : Nat) (x : Vec512) : List Num :=
  let es := elems ty.width x
  let bs := chunks 32 (ty.lanes / 32) es
  (bs.zipIdx.map fun (blk, b) =>
    let S := match scale with
      | some s => scaleOf ty.lanes s t b
      | none => 255
    if ty = .qx4 then qx4Block S blk else blk.map (mxVal ty S)).flatten

/-- A QX4 token holds an illegal escape in some block (R75). -/
def tokIllegal (ty : Ty) (x : Vec512) : Bool :=
  ty = .qx4 && (chunks 32 4 (elems 4 x)).any (qx4Illegal 0 0)

/-! ## The quantiser (R188) -/

/-- floor(log2 |x|) of a nonzero finite value. -/
def log2Num : Num → Int
  | .fin _ m e => (Nat.log2 m : Int) + e
  | _ => 0

/-- |a| < |b| of finite values. -/
def magLt : Num → Num → Bool
  | .fin _ m1 e1, .fin _ m2 e2 =>
    let e := min e1 e2
    m1 * 2 ^ (e1 - e).toNat < m2 * 2 ^ (e2 - e).toNat
  | _, _ => false

/-- A value is zero. -/
def Num.isZero : Num → Bool
  | .fin _ m _ => m = 0
  | _ => false

/-- A value is finite. -/
def Num.isFin : Num → Bool
  | .fin _ _ _ => true
  | _ => false

/-- The largest magnitude of a list of finite values. -/
def maxMag (xs : List Num) : Num := xs.foldl (fun a x => if magLt a x then x else a) (.fin false 0 0)

/-- A scale byte from an exponent, limited to 0 to 254 (R188). -/
def clampScale (e : Int) : Nat := if e < 0 then 0 else if 254 < e then 254 else e.toNat

/-- A finite value rounded to an integer and limited to a magnitude (R188). -/
def roundInt (rnd : Rnd) (w lim : Nat) : Num → Int
  | .fin neg m e =>
    let k := Nat.min (roundGrid rnd neg m e 0 w) lim
    if neg then -(k : Int) else k
  | _ => 0

/-- The largest exponent of an MX destination (R188). -/
def emax : Ty → Int
  | .e4m3 => 8
  | .e5m2 => 15
  | _ => 0

/-- One block of an MX destination: its scale and its 32 patterns; `draw` gives each element's draw (R188). -/
def quantMx (dst : Ty) (rnd : Rnd) (draw : Nat → Nat) (xs : List Num) : Nat × List Nat :=
  if xs.any (fun x => !x.isFin) then (255, xs.map fun _ => 0) else
  let m := maxMag xs
  if m.isZero then (0, xs.map fun _ => 0) else
  let S := clampScale (log2Num m - emax dst + 127)
  (S, xs.zipIdx.map fun (x, i) =>
    let y := scaleNum (127 - (S : Int)) x
    if dst = .s8 then wrapInt 8 (roundInt rnd (draw i) 127 (scaleNum 6 y)) else roundTo dst rnd true (draw i) y)

/-- q(x, S) of R188. -/
def qx4Round (rnd : Rnd) (w S : Nat) (x : Num) : Int := roundInt rnd w 7 (scaleNum (127 - (S : Int)) x)

/-- One block of a QX4 destination (R188). -/
def quantQx4 (rnd : Rnd) (draw : Nat → Nat) (xs : List Num) : Nat × List Nat :=
  if xs.any (fun x => !x.isFin) then (255, xs.map fun _ => 0) else
  let m := maxMag xs
  let j := xs.findIdx fun x => !magLt x m
  let m2 := maxMag (xs.eraseIdx j)
  let S2 := clampScale (log2Num m2 - 2 + 127)
  let plain (i S : Nat) (x : Num) : Nat := wrapInt 4 (qx4Round rnd (draw i) S x)
  let q0 (i : Nat) : Bool := qx4Round rnd (draw i) S2 (xs.getD i (.fin false 0 0)) = 0
  if j ≤ 29 && !m2.isZero && !magLt m (scaleNum 4 m2) && q0 (j + 1) && q0 (j + 2) then
    let o := roundTo .e4m3 rnd true (draw j) (scaleNum (127 - (S2 : Int)) (xs.getD j (.fin false 0 0)))
    (S2, xs.zipIdx.map fun (x, i) =>
      if i = j then 8 else if i = j + 1 then o / 16 else if i = j + 2 then o % 16 else plain i S2 x)
  else
    let S := if m.isZero then 0 else clampScale (log2Num m - 2 + 127)
    (S, xs.zipIdx.map fun (x, i) => plain i S x)

/-- The blocks of one element token: scales in block order and the token's patterns (R188). -/
def quantToken (dst : Ty) (rnd : Rnd) (draw : Nat → Nat) (xs : List Num) : List Nat × Vec512 :=
  let bs := (chunks 32 (dst.lanes / 32) xs).zipIdx.map fun (blk, b) =>
    let d := fun i => draw (32 * b + i)
    if dst = .qx4 then quantQx4 rnd d blk else quantMx dst rnd d blk
  (bs.map Prod.fst, pack dst.width (bs.map Prod.snd).flatten)

end Sys2Proof.Machine
end

