-- ==== Sys2Proof/Machine/Words.lean ====
section
/-! DEFINITION. Configuration words: what they say (R35, R39, R42 to R45, R171, R305) and when they are rejected (R38, R40,
R43 to R45, R156, R201, R207, R212, R215, R226). -/

namespace Sys2Proof.Machine

open Sys2Proof

/-- Bits [hi:lo] of a number. -/
def nbits (x hi lo : Nat) : Nat := x / 2 ^ lo % 2 ^ (hi + 1 - lo)

/-! ## Stage words (R35 to R38, R176, R201) -/

/-- The fields of a stage word with its extension words (R35). -/
def stageOf (w : W32) (ext : List W32) : StageCfg :=
  let x := w.toNat
  { cls := nbits x 31 27, op := nbits x 26 22, srcA := nbits x 21 19, srcB := nbits x 18 16, ty := nbits x 15 12,
    rnd := nbits x 11 9, sat := nbits x 8 8 = 1, md := nbits x 7 4, out := nbits x 3 2, ext := ext }

/-- The idle stage (R176). -/
def idleStage : StageCfg :=
  { cls := 0, op := 0, srcA := 0, srcB := 0, ty := 0, rnd := 0, sat := false, md := 0, out := 3, ext := [] }

/-- A stage never fires (R176). -/
def StageCfg.idle (g : StageCfg) : Bool := g = idleStage

/-- Number of operations of each class (R36). -/
def classOps (cls : Nat) : Nat :=
  match cls with
  | 0 => 1 | 1 => 10 | 2 => 12 | 3 => 6 | 4 => 8 | 5 => 3 | 6 => 1 | 7 => 3 | 8 => 3 | 9 => 1 | 10 => 3 | 11 => 1 | _ => 0

/-- What an operation asks of source B (R183 to R199, R201): zero, required, or either. -/
inductive SourceB where
  | zero | required | either
deriving DecidableEq, Repr

/-- The demand of an operation on source B. -/
def sourceB (cls op : Nat) : SourceB :=
  match cls with
  | 0 | 5 | 7 | 9 | 11 => .zero
  | 1 => if op = 6 ∨ op = 7 then .zero else .required
  | 2 => if 6 ≤ op then .zero else .required
  | 3 => if op = 5 then .zero else .required
  | 4 => if op = 3 then .zero else .required
  | 8 => if op = 0 then .zero else .required
  | 10 => if op = 2 then .required else .either
  | _ => .either

/-- The integer lane types s8 to n32, by code (R183). -/
def laneInt (ty : Nat) : Bool := 6 ≤ ty && ty ≤ 11
/-- The floating lane types, by code (R184). -/
def laneFloat (ty : Nat) : Bool := ty ≤ 2

/-- Elements of a token of a type, by code (R174). -/
def lanesOf (ty : Nat) : Nat := match Ty.ofCode (BitVec.ofNat 4 ty) with
  | some t => t.lanes
  | none => 16

/-- Type, rounding, saturate and modifier fit the operation (R182 to R201). -/
def stageFields (g : StageCfg) : Bool :=
  let plain := g.rnd = 0 && !g.sat
  match g.cls with
  | 0 => g.ty = 0 && plain && g.md = 0
  | 1 => laneInt g.ty && g.rnd = 0 && g.md = 0 && (!g.sat || g.op ≤ 2 || g.op = 6 || g.op = 7) &&
      !(g.op = 6 && g.ty % 2 = 1)
  | 2 => laneFloat g.ty && g.md = 0 &&
      (if g.op ≤ 3 then true else if g.op ≤ 7 then plain else !g.sat && (g.ty ≠ 0 || g.rnd = 0))
  | 3 => (laneInt g.ty || laneFloat g.ty) && plain && g.md = 0
  | 4 => laneInt g.ty && plain && g.md = 0
  | 5 =>
    if g.op = 0 then (g.ty ≤ 4 || laneInt g.ty) && g.md < 8
    else 3 ≤ g.ty && g.ty ≤ 6 && 8 ≤ g.md && g.md < 12 && g.md ≠ 11 && (g.op = 2 || !g.sat)
  | 6 =>
    plain && 1 ≤ g.md % 8 && g.md % 8 ≤ 4 &&
      (if 8 ≤ g.md then g.ty = 3 || g.ty = 4 || g.ty = 5 || g.ty = 6
       else g.ty = 1 || g.ty = 2 || g.ty = 3 || g.ty = 4 || g.ty = 6 || g.ty = 7)
  | 7 => (laneInt g.ty || laneFloat g.ty) && plain && g.md < 8 && 2 ≤ lanesOf g.ty / 2 ^ g.md
  | 8 => g.ty ≠ 5 && plain && g.md = 0
  | 9 => (laneFloat g.ty || g.ty = 8 || g.ty = 10) && g.md ≤ 4 && (g.rnd = 0 || laneFloat g.ty)
  | 10 => (laneInt g.ty || g.ty ≤ 4) && plain && g.md = 0
  | _ => (g.ty = 0 || g.ty = 10) && plain && g.md = 0

/-- Extension words that a stage needs (R37). -/
def extNeed (g : StageCfg) : Nat :=
  (if g.srcA = 6 ∨ g.srcB = 6 then 1 else 0) + (if g.cls = 2 ∧ g.op = 3 then 1 else 0) +
  (if g.cls = 3 ∧ g.op = 5 then 2 else 0) + (if (g.cls = 5 ∧ g.rnd = 4) ∨ (g.cls = 8 ∧ g.op = 0) then 2 else 0) +
  (if g.cls = 10 ∨ g.cls = 11 then 1 else 0)

/-- The last extension word as a number. -/
def StageCfg.lastExt (g : StageCfg) : Nat := (g.ext.getLastD 0).toNat

/-- The fields of the last extension word (R37, R38, R199). -/
def extFields (g : StageCfg) : Bool :=
  let x := g.lastExt
  if g.cls = 5 ∧ g.rnd = 4 then nbits x 31 19 = 0
  else if g.cls = 10 then
    1 ≤ nbits x 7 0 && nbits x 7 0 ≤ 64 && nbits x 15 8 ≤ nbits x 7 0 && nbits x 23 16 ≤ 64 && nbits x 31 24 = 0
  else if g.cls = 11 then nbits x 15 0 ≠ 0 && nbits x 31 16 = 0
  else true

/-- A stage word alone is accepted at a position; `prev` is the stage before it (R36, R38, R176, R201). -/
def stageWordOk (n : Nat) (prev : Option StageCfg) (g : StageCfg) : Bool :=
  g.op < classOps g.cls &&
  (g.idle ||
   (g.ty ≠ 12 && g.ty ≠ 13 && g.ty ≠ 15 && g.rnd ≤ 4 && (g.rnd ≠ 4 || g.cls = 5) &&
    !((g.srcA = 5 || g.srcB = 5) && (match prev with
      | none => true
      | some p => p.out = 3)) &&
    (if n = 6 then g.out = 1 || g.out = 3 else g.out = 0 || g.out = 3) &&
    (g.cls ≠ 10 || n = 6) && g.srcA ≠ 0 && (g.cls ≠ 6 || g.srcA ≤ 5) &&
    (match sourceB g.cls g.op with
     | .zero => g.srcB = 0
     | .required => g.srcB ≠ 0
     | .either => true) &&
    stageFields g))

/-- Cross-token whisks among stages (R196). -/
def crossWhisks (gs : List StageCfg) : Nat := (gs.filter fun g => g.cls = 9 && g.md = 4).length
/-- Dot stages among stages (R38). -/
def dotStages (gs : List StageCfg) : Nat := (gs.filter fun g => g.cls = 6).length

/-- The first rejected word of a pan's stages, counted in words from the first stage word (R38, R201, R226). `counts` are the
extension counts that the stage words give. -/
def stagesBad (gs : List StageCfg) : Nat → Nat → List (StageCfg × Nat) → Option Nat
  | _, _, [] => none
  | i, off, (g, count) :: rest =>
    let before := gs.take i
    if !stageWordOk (i + 1) (before.getLast?) g || count ≠ extNeed g || 1 < dotStages (before ++ [g]) ||
        3 < crossWhisks (before ++ [g]) then some off
    else if g.ext.length = count && !extFields g then some (off + count)
    else stagesBad gs (i + 1) (off + 1 + count) rest

/-- Read six stages from words: each with its extension words and their count, how many words are taken, and whether the
words run out (R37, R42). -/
def readStages : Nat → List W32 → List (StageCfg × Nat) × Nat × Bool
  | 0, _ => ([], 0, false)
  | _ + 1, [] => ([], 0, true)
  | n + 1, w :: ws =>
    let k := w.toNat % 4
    if ws.length < k then ([(stageOf w ws, k)], 1 + ws.length, true) else
    let (gs, used, short) := readStages n (ws.drop k)
    ((stageOf w (ws.take k), k) :: gs, used + 1 + k, short)

/-! ## Switch words (R39, R40, R156) -/

/-- The fields of a switch word (R39). -/
def switchOf (x : Nat) : SwitchWord :=
  { dest := nbits x 15 13, src := nbits x 12 10, slots := nbits x 9 7, vc := nbits x 6 4, more := nbits x 3 3 = 1,
    pass := nbits x 2 2 = 1 }

/-- Switch words, two to a word (R42). -/
def switchHalves (ws : List W32) : List Nat := ws.flatMap fun w => [w.toNat % 2 ^ 16, w.toNat / 2 ^ 16]

/-- The word before position k continues a chain. -/
def linked (sw : List SwitchWord) (k : Nat) : Bool := 0 < k && ((sw[k - 1]?).map SwitchWord.more).getD false

/-- The chain that begins at word k: it and the words it continues to (R39). -/
def chainFrom : List SwitchWord → List SwitchWord
  | [] => []
  | w :: r => if w.more then w :: chainFrom r else [w]

/-- The chains of a switch set: position of the first word, and the words (R39). -/
def chainsOf (sw : List SwitchWord) : List (Nat × List SwitchWord) :=
  (List.range sw.length).filterMap fun k => if linked sw k then none else some (k, chainFrom (sw.drop k))

/-- The first word of the chain that a word belongs to. -/
def chainHead (sw : List SwitchWord) (k : Nat) : Option SwitchWord :=
  ((chainsOf sw).find? fun (i, c) => i ≤ k && k < i + c.length).bind fun (_, c) => c.head?

/-- The word that selects the channel of a port for an input, 4 for inputs A and 5 for inputs B: the word which names the port
as the source of this input, or else of the other (R155, log 61). -/
def selectedWord (sw : List SwitchWord) (dest port : Nat) : Option SwitchWord :=
  (sw.find? fun w => w.dest = dest && w.src = port).or (sw.find? fun w => (w.dest = 4 || w.dest = 5) && w.src = port)

/-- The channel of a port that an input reads (R155). -/
def selectedVc (sw : List SwitchWord) (dest port : Nat) : Nat := ((selectedWord sw dest port).map SwitchWord.vc).getD 0

/-- Ports and channels that the inputs A and B of a stage read (R155). -/
def dataReads (sw : List SwitchWord) (g : StageCfg) : List (Nat × Nat) :=
  let port : Nat → Nat → List (Nat × Nat) := fun dest c => if 1 ≤ c ∧ c ≤ 4 then [(c - 1, selectedVc sw dest (c - 1))] else []
  port 4 g.srcA ++ port 5 g.srcB

/-- The port and channel of a stage's plane input (R190). -/
def planeReads (g : StageCfg) : List (Nat × Nat) :=
  if g.cls = 6 ∧ 1 ≤ g.md % 8 ∧ g.md % 8 ≤ 4 then [(g.md % 8 - 1, 6)] else []

/-- A pan stage's port reads: port and virtual channel (R155, R190). -/
def stageReads (sw : List SwitchWord) (g : StageCfg) : List (Nat × Nat) := dataReads sw g ++ planeReads g

/-- A chain's first word forwards what a stage of the pan reads, and the chain does not begin with destination 4 or 5 (R156
row 2); a plane input shares its channel with no chain (R190). -/
def clashes (sw : List SwitchWord) (gs : List StageCfg) (w : SwitchWord) : Bool :=
  (gs.any fun g => (planeReads g).contains (w.src, w.vc)) ||
  (w.dest ≠ 4 && w.dest ≠ 5 && gs.any fun g => (dataReads sw g).contains (w.src, w.vc))

/-- A later word of a chain has another source than the first: for a port or a local source the channel is part of it (R153,
R156, log 61). -/
def otherSource (sw : List SwitchWord) (k : Nat) (w : SwitchWord) : Bool :=
  match chainHead sw (k - 1) with
  | some x => w.src ≠ x.src || (w.src ≠ 4 && w.vc ≠ x.vc)
  | none => false

/-- One word of a switch set is rejected (R40, R42, R156). `raw` is its 16 bits, `kind` the tile kind of the header, `count`
the number of words that the header gives. -/
def switchBad (kind count : Nat) (sw : List SwitchWord) (gs : List StageCfg) (k raw : Nat) : Bool :=
  let w := switchOf raw
  let before := sw.take k
  raw % 4 ≠ 0 || before.any (fun x => x.dest = w.dest && x.vc = w.vc) || (w.src = 6 && w.slots ≠ 0) ||
  ((w.dest = 7 || w.src = 7) && w.vc ≠ 7) || (kind = 1 && (w.dest = 4 || w.dest = 5 || w.src = 4)) ||
  (kind = 0 && (w.dest = 6 || w.src = 5)) || (w.more && k + 1 = count) ||
  (w.pass && (4 ≤ w.dest || w.src = 4 || w.src = 5 || w.src = 7)) || (kind = 2 && !w.pass) ||
  (linked sw k && otherSource sw k w) ||
  (!linked sw k && w.src < 4 && (chainsOf sw).any fun (i, c) =>
    i < k && (match c with
      | x :: _ => x.src = w.src && x.vc = w.vc
      | [] => false)) ||
  (kind = 0 && w.src = 4 && (match gs.getLast? with
    | some g => g.out = 0 || g.out = 3
    | none => false)) ||
  (kind = 0 && !linked sw k && w.src < 4 && clashes sw gs w)

/-- The first rejected word of a switch set; a whole set that lacks a source-4 word is rejected at its first (R40, R156). -/
def switchesBad (kind count : Nat) (gs : List StageCfg) (raws : List Nat) : Option Nat :=
  let sw := raws.map switchOf
  match (raws.zipIdx.find? fun (raw, k) => switchBad kind count sw gs k raw).map Prod.snd with
  | some k => some k
  | none =>
    if raws.length < count then none else
    match gs.getLast? with
    | some g => if (g.out = 1 || g.out = 2) && !(sw.any fun w => w.src = 4) then some 0 else none
    | none => none

/-- The push and pop words that a stream buffer needs: one push, and one pop or none for an egress pot (R207, R325). -/
def streamPortsOk (sw : List SwitchWord) : Bool :=
  (sw.filter fun w => w.dest = 6).length = 1 &&
  ((chainsOf sw).filter fun (_, c) => (c.head?.map SwitchWord.src) = some 5).length ≤ 1

/-! ## Pot, node and edge words (R43 to R45) -/

/-- A type by its code; the reserved code reads as f32 where the word has been checked (R20). -/
def tyOf (code : Nat) : Ty := (Ty.ofCode (BitVec.ofNat 4 code)).getD .f32

/-- The mode word of a pot is accepted (R43, R212). -/
def potWordOk (mode x : Nat) : Bool :=
  match mode with
  | 0 => x < 2
  | 1 => nbits x 31 24 = 0 && nbits x 11 0 < 2048 && nbits x 23 12 ≤ nbits x 11 0 + 1
  | 2 => nbits x 31 11 = 0 && 4 ≤ nbits x 8 3 && nbits x 8 3 ≤ 16
  | 3 =>
    let k := nbits x 3 0
    let w := nbits x 23 12
    let ty := nbits x 27 24
    nbits x 31 28 = 0 && 1 ≤ k && k ≤ 8 && 1 ≤ nbits x 7 4 && nbits x 7 4 ≤ 8 && 1 ≤ nbits x 11 8 && nbits x 11 8 ≤ 8 &&
      1 ≤ w && (ty ≤ 4 || laneInt ty) && ((k - 1) * nbits x 11 8 + 1) * ((w + lanesOf ty - 1) / lanesOf ty) ≤ 2048
  | _ => true

/-- The mode of a pot from its mode word, its preloaded tokens and its nodes (R43). -/
def potModeOf (mode x : Nat) (pre : List Vec512) (nodes : List NodeCfg) : PotMode :=
  match mode with
  | 0 => .scratch (x % 2 = 1)
  | 1 => .stream (nbits x 11 0 + 1) pre
  | 2 => .atomic (nbits x 2 0) (nbits x 8 3) (nbits x 10 9)
  | 3 => .mandoline (nbits x 3 0) (nbits x 7 4) (nbits x 11 8) (nbits x 23 12) (nbits x 27 24)
  | _ => .host nodes

/-- The fields of a controller-node word (R44). -/
def nodeOf (x : Nat) : NodeCfg :=
  { kind := nbits x 31 29, children := nbits x 28 26, bound := nbits x 25 25 = 1, window := nbits x 22 20,
    parent := nbits x 19 16, trip := nbits x 15 0 }

/-- A controller-node word at index i is accepted (R44, R169). -/
def nodeOk (i x : Nat) : Bool :=
  let n := nodeOf x
  n.kind ≠ 7 && nbits x 24 23 = 0 && (!n.bound || n.kind = 3) && (n.window = 0 || n.kind ≤ 2) &&
  (2 < n.kind || n.children ≠ 0) && (n.kind < 4 || i ≠ 3) && (n.parent < 4 || n.parent = 15) &&
  (if n.kind = 3 ∧ !n.bound then n.trip ≠ 0 else n.trip = 0)

/-- A number read as 32-bit two's complement. -/
def s32Of (x : Nat) : Int := sextNat 32 x

/-- The base address of a block (R45). -/
def blockBase (ws : List Nat) : Nat := ws.getD 1 0 + 2 ^ 32 * nbits (ws.getD 2 0) 19 0

/-- The element types of a block (R215). -/
def edgeType (code : Nat) : Bool := code ≠ 5 && code ≠ 12 && code ≠ 13 && code ≠ 15

/-- The dimensions of a block (R45). -/
def dimsOf (ws : List Nat) (n : Nat) : List Dim :=
  (List.range n).map fun i =>
    { extent := ws.getD (4 + 3 * i) 0, tile := ws.getD (5 + 3 * i) 0, stride := s32Of (ws.getD (6 + 3 * i) 0) }

/-- Words of a block by its word 0 (R45, R171, R305). -/
def edgeNeed (w0 : Nat) : Nat :=
  match nbits w0 30 27 with
  | 0 => 2
  | 15 => 7
  | d => 4 + 3 * d

/-- The rejected words of an edge node's block among those that are there; a wrong length counts at word 0, a block that an
error cut short lacks none (R45, R171, R215, R305). -/
def edgeCands (ws : List Nat) (whole : Bool) : List Nat :=
  let w := fun (i : Nat) => ws.getD i 0
  let d := nbits (w 0) 30 27
  let ty := nbits (w 0) 26 23
  let width := (tyOf ty).width / 8
  let check := fun (i : Nat) (bad : Bool) => if bad ∧ i < ws.length then [i] else []
  let length := if (whole ∧ ws.length ≠ edgeNeed (w 0)) ∨ (ws ≠ [] ∧ edgeNeed (w 0) < ws.length) then [0] else []
  if d = 0 then length ++ check 0 (nbits (w 0) 30 0 ≠ 0) ++ check 1 (nbits (w 1) 31 14 ≠ 0)
  else if 11 ≤ d ∧ d ≤ 14 then [0]
  else
    length ++ check 0 (nbits (w 0) 10 0 ≠ 0 || !edgeType ty || (d = 15 && nbits (w 0) 31 31 = 1)) ++
      check 1 (blockBase ws % width ≠ 0) ++ check 2 (nbits (w 2) 31 20 ≠ 0) ++
      (if d = 15 then
        check 5 (nbits (w 5) 15 0 = 0 || (nbits (w 5) 19 16 ≠ 10 && nbits (w 5) 19 16 ≠ 11) || nbits (w 5) 31 20 ≠ 0) ++
          check 6 (s32Of (w 6) % (width : Int) ≠ 0)
       else
        (dimsOf ws d).zipIdx.flatMap fun (x, i) =>
          check (5 + 3 * i) (x.tile = 0 || 65535 < x.tile) ++ check (6 + 3 * i) (x.stride % (width : Int) ≠ 0))

/-- The first rejected word of an edge node's whole block, or what it says (R45, R171, R215, R305). -/
def edgeOf (ws : List Nat) : Except Nat EdgeCfg :=
  match edgeCands ws true with
  | i :: r => .error (r.foldl Nat.min i)
  | [] =>
    let w0 := ws.getD 0 0
    let w1 := ws.getD 1 0
    let d := nbits w0 30 27
    let ty := nbits w0 26 23
    let round := nbits w0 22 11 + 1
    let base := blockBase ws
    let fill := ws.getD 3 0
    let w5 := ws.getD 5 0
    .ok (if d = 0 then .port (nbits w0 31 31 = 1) (nbits w1 6 0) (nbits w1 7 7) (nbits w1 10 8) (nbits w1 13 11)
      else if d = 15 then
        .gather ty round base fill (ws.getD 4 0) (nbits w5 15 0) (nbits w5 19 16 = 10) (s32Of (ws.getD 6 0))
      else .spout (nbits w0 31 31 = 1) ty round base fill (dimsOf ws d))

/-! ## Tiles (R42, R226) -/

/-- The header fits its kind and the position: `edge` for an edge-node entry, `odd` for a tile of odd parity (R42, R226). -/
def headerOk (x : Nat) (edge odd : Bool) : Bool :=
  let kind := nbits x 31 30
  let mode := nbits x 19 16
  let nodes := nbits x 22 20
  nbits x 25 23 = 0 && nbits x 15 0 = 0 && nbits x 29 26 ≤ 12 &&
  (if kind = 1 then mode ≤ 4 && (if mode = 4 then 1 ≤ nodes && nodes ≤ 4 else nodes = 0) else mode = 0 && nodes = 0) &&
  (if edge then kind = 3 && nbits x 29 26 = 0 else kind ≠ 3 && (kind ≠ 0 || !odd) && (kind ≠ 1 || odd))

/-- The kind, the switch words and the rejection candidates of a tile's words, header first; a candidate is a word index and
a reason (R42, R226). -/
structure TileWords where
  kind : TileKind
  switches : List SwitchWord
  cands : List (Nat × Nat)
deriving DecidableEq, Repr

/-- Words and the switch set that follows at a position (R42). -/
def readSwitches (kind : Nat) (gs : List StageCfg) (words : List W32) (at_ count : Nat) :
    List SwitchWord × List (Nat × Nat) :=
  let body := (words.drop at_).take ((count + 1) / 2)
  let halves := switchHalves body
  let raws := halves.take count
  let odd := if count % 2 = 1 ∧ halves.getD count 0 ≠ 0 then [(at_ + count / 2, 8)] else []
  let bad := match switchesBad kind count gs raws with
    | some k => [(at_ + k / 2, 8)]
    | none => []
  (raws.map switchOf, odd ++ bad)

/-- A preloaded token of 16 words (R42). -/
def preload (ws : List W32) : Vec512 := pack 32 (ws.map BitVec.toNat)

/-- Preloaded tokens (R42, R208). -/
def preloads (ws : List W32) : Nat → List Vec512
  | 0 => []
  | n + 1 => preload (ws.take 16) :: preloads (ws.drop 16) n

/-- The body of a pan (R42). -/
def panWords (words : List W32) (nsw : Nat) : TileWords :=
  let (gcs, used, short) := readStages 6 (words.drop 1)
  let gs := gcs.map Prod.fst
  let bad := match stagesBad gs 0 1 gcs with
    | some k => [(k, 7)]
    | none => []
  if short then { kind := .pass, switches := [], cands := bad ++ [(words.length, 5)] } else
  let at_ := 1 + used
  let (sw, sbad) := readSwitches 0 gs words at_ nsw
  let stop := at_ + (nsw + 1) / 2
  { kind := .pan gs, switches := sw,
    cands := bad ++ sbad ++ (if words.length = stop then [] else [(Nat.min stop words.length, 5)]) }

/-- A data route to a node that passes no data (R161, R169): the first such word of a pot in controller-host mode. -/
def hostRouteBad (sw : List SwitchWord) (nodes : List NodeCfg) : Option Nat :=
  sw.findIdx? fun w => w.dest = 6 && w.vc < 6 && (match nodes[w.vc / 2]? with
    | some n => n.kind < 4
    | none => true)

/-- The body of a pot (R42 to R44, R207). -/
def potWords (words : List W32) (nsw mode nodes : Nat) : TileWords :=
  let (sw, sbad) := readSwitches 1 [] words 1 nsw
  let at_ := 1 + (nsw + 1) / 2
  let mw := ((words[at_]?).getD 0).toNat
  let has := at_ < words.length
  let ports := if mode = 1 ∧ at_ ≤ words.length ∧ !streamPortsOk sw then [(1, 8)] else []
  let mbad := if mode < 4 ∧ has ∧ !potWordOk mode mw then [(at_, 9)] else []
  let pre := if mode = 1 ∧ has ∧ potWordOk mode mw then nbits mw 23 12 else 0
  let nat_ := at_ + (if mode < 4 then 1 else 0) + 16 * pre
  let nws := (words.drop nat_).take nodes
  let nbad := match nws.zipIdx.find? fun (w, i) => !nodeOk i w.toNat with
    | some (_, i) => [(nat_ + i, 10)]
    | none => []
  let rbad := match hostRouteBad sw (nws.map fun w => nodeOf w.toNat) with
    | some k => if mode = 4 then [(1 + k / 2, 8)] else []
    | none => []
  let stop := nat_ + nodes
  { kind := .pot (potModeOf mode mw (preloads (words.drop (at_ + 1)) pre) (nws.map fun w => nodeOf w.toNat)),
    switches := sw,
    cands := sbad ++ ports ++ rbad ++ mbad ++ nbad ++ (if words.length = stop then [] else [(Nat.min stop words.length, 5)]) }

/-- The body of a pass-through tile (R42). -/
def passWords (words : List W32) (nsw : Nat) : TileWords :=
  let (sw, sbad) := readSwitches 2 [] words 1 nsw
  let stop := 1 + (nsw + 1) / 2
  { kind := .pass, switches := sw,
    cands := sbad ++ (if words.length = stop then [] else [(Nat.min stop words.length, 5)]) }

/-- The body of an edge node; `whole` says that no error ended the stream before its end (R45). -/
def edgeWords (words : List W32) (whole : Bool) : TileWords :=
  let ws := (words.drop 1).map BitVec.toNat
  { kind := match edgeOf ws with
      | .ok c => .edge c
      | .error _ => .pass,
    switches := [], cands := (edgeCands ws whole).map fun i => (1 + i, 11) }

/-- The order of reasons at one word: the CRC word comes after the 0xF9 code at which a body ends short (R41, R226). -/
def reasonRank (r : Nat) : Nat := if r = 1 then 16 else r

/-- The first candidate in stream order: least word index, then the order of reasons at one word (R226). -/
def firstCand (cs : List (Nat × Nat)) : Option (Nat × Nat) :=
  cs.foldl (fun acc c => match acc with
    | none => some c
    | some a => if c.1 < a.1 ∨ (c.1 = a.1 ∧ reasonRank c.2 < reasonRank a.2) then some c else some a) none

/-- The bytes of words, little-endian (R41). -/
def wordBytes (ws : List W32) : List Byte := ws.flatMap fun w => leBytes 4 w.toNat

/-- The verdict of a tile on its words, the CRC word, and the error that ended the stream, if one did: the first failure, or
the configuration (R226). -/
def tileVerdict (words : List W32) (crc : W32) (err : Option (Nat × Nat)) (edge odd : Bool) :
    Except (Nat × Nat) (TileKind × List SwitchWord) :=
  match words with
  | [] => .error (err.getD (0, 5))
  | h :: _ =>
    let x := h.toNat
    if !headerOk x edge odd then .error ((firstCand (err.toList ++ [(0, 6)])).getD (0, 6)) else
    let t := match nbits x 31 30 with
      | 0 => panWords words (nbits x 29 26)
      | 1 => potWords words (nbits x 29 26) (nbits x 19 16) (nbits x 22 20)
      | 2 => passWords words (nbits x 29 26)
      | _ => edgeWords words err.isNone
    let sum := if err.isNone ∧ crc32c (wordBytes words) ≠ crc.toNat then [(words.length, 1)] else []
    match firstCand (err.toList ++ t.cands ++ sum) with
    | some c => .error c
    | none => .ok (t.kind, t.switches)

end Sys2Proof.Machine
end

