-- ==== Sys2Proof/Machine/Save.lean ====
section
/-! DEFINITION. Save slots (R275): the side-band of a token as bytes (R160), the records of a tile's element state, the bytes of
a slot, and the state that a slot in memory gives back. What R275 leaves open of a record (how counters and positions stand in
it) is log 20. -/

namespace Sys2Proof.Machine

open Sys2Proof

/-! ## Tokens as bytes (R160, R275) -/

/-- The code of a token kind (R160). -/
def kindCode : TokKind → Nat
  | .data => 0
  | .streamEnd => 1
  | .config => 2
  | .endOfTile => 3
  | .marker => 4
  | .bound => 5
  | .control => 6
  | .reserved => 7

/-- The token kind of a code (R160). -/
def kindOf (n : Nat) : TokKind :=
  [TokKind.data, .streamEnd, .config, .endOfTile, .marker, .bound, .control].getD n .reserved

/-- A side-band (R160). -/
def sideBand (k : Tok) : Nat :=
  k.seq.toNat + 2 ^ 24 * k.level.toNat + (if k.tag then 2 ^ 28 else 0) + 2 ^ 29 * kindCode k.kind

/-- The 68 bytes of a token: its payload and its side-band (R275). -/
def slotToken (k : Tok) : List Byte := tokBytes k.payload ++ leBytes 4 (sideBand k)

/-- The token of 68 bytes. -/
def tokenOf (b : List Byte) : Tok :=
  let x := leNat ((b.drop 64).take 4)
  { kind := kindOf (x / 2 ^ 29 % 8), tag := x.testBit 28, level := BitVec.ofNat 4 (x / 2 ^ 24), seq := BitVec.ofNat 24 x,
    payload := BitVec.ofNat 512 (leNat (b.take 64)) }

/-! ## Numbers and tokens of an element's state -/

/-- What an element saves: numbers, and tokens. -/
abbrev Saved := List Nat × List Tok

/-- Numbers. -/
def saveNums (ns : List Nat) : Saved := (ns, [])
/-- Tokens, with their number. -/
def saveToks (ks : List Tok) : Saved := ([ks.length], ks)
/-- Numbers, with their number. -/
def saveList (ns : List Nat) : Saved := (ns.length :: ns, [])
/-- Pairs, with their number. -/
def savePairs (ps : List (Nat × Nat)) : Saved := (ps.length :: ps.flatMap fun p => [p.1, p.2], [])
/-- One after the other. -/
def saveAll (xs : List Saved) : Saved := (xs.flatMap Prod.fst, xs.flatMap Prod.snd)

/-- Take one number. -/
def loadNum (x : Saved) : Nat × Saved := (x.1.headD 0, x.1.tail, x.2)
/-- Take a truth value. -/
def loadBool (x : Saved) : Bool × Saved := (x.1.headD 0 = 1, x.1.tail, x.2)
/-- Take tokens. -/
def loadToks (x : Saved) : List Tok × Saved := (x.2.take (x.1.headD 0), x.1.tail, x.2.drop (x.1.headD 0))
/-- Take a token that may be absent. -/
def loadTok (x : Saved) : Option Tok × Saved := ((loadToks x).1.head?, (loadToks x).2)
/-- Take as many numbers as a number says. -/
def loadList (x : Saved) : List Nat × Saved := (x.1.tail.take (x.1.headD 0), x.1.tail.drop (x.1.headD 0), x.2)

/-- Numbers two by two. -/
def pairUp : List Nat → List (Nat × Nat)
  | a :: b :: r => (a, b) :: pairUp r
  | _ => []

/-- Take pairs. -/
def loadPairs (x : Saved) : List (Nat × Nat) × Saved :=
  (pairUp (x.1.tail.take (2 * x.1.headD 0)), x.1.tail.drop (2 * x.1.headD 0), x.2)

/-- Numbers as control tokens of eight numbers each. -/
def numToks : Nat → List Nat → List Tok
  | 0, _ => []
  | n + 1, ns => if ns = [] then [] else
    { Tok.zero with kind := .control, payload := pack 64 (ns.take 8) } :: numToks n (ns.drop 8)

/-- What an element saves, as the tokens of its record: how many numbers, the numbers, the tokens (log 20). -/
def savedToks (x : Saved) : List Tok :=
  let ns := x.1.length :: x.1
  numToks ns.length ns ++ x.2

/-- What the tokens of a record say. -/
def toksSaved (ks : List Tok) : Saved :=
  let n := ((ks.head?.map fun k => elems 64 k.payload).getD []).headD 0
  let m := (n + 8) / 8
  (((ks.take m).flatMap fun k => elems 64 k.payload).tail.take n, ks.drop m)

/-- A truth value as a number. -/
def bitNum (b : Bool) : Nat := if b then 1 else 0

/-! ## Element state -/

/-- The state of a stage: feedback, holding buffer, scale latch, planes, sieve counters (R177, R180, R191, R198). -/
def saveStage (t : StageSt) : Saved :=
  let plane := fun (p : Plane) =>
    saveAll [saveToks p.scale.toList, saveToks p.toks, saveNums [bitNum p.surplus, bitNum p.complete]]
  let c := t.sieve
  saveAll [saveToks t.slot.toList, saveToks t.fb.toList, saveToks t.hold, saveToks t.outq, saveNums [bitNum t.holdTag],
    saveToks t.scaleA.toList, saveNums [t.leftA], plane t.active, plane t.shadow, saveNums [bitNum t.planeDue],
    saveNums [c.tokIn, c.tokOut, c.elIn, c.elOut, c.dropped, c.resident, c.padded, c.winIn, c.winKept, t.marks]]

/-- A dot plane from a record. -/
def loadPlane (x : Saved) : Plane × Saved :=
  let (scale, x) := loadTok x
  let (toks, x) := loadToks x
  let (surplus, x) := loadBool x
  let (complete, x) := loadBool x
  ({ scale := scale, toks := toks, surplus := surplus, complete := complete }, x)

/-- A stage from a record. -/
def loadStage (x : Saved) : StageSt :=
  let (slot, x) := loadTok x
  let (fb, x) := loadTok x
  let (hold, x) := loadToks x
  let (outq, x) := loadToks x
  let (holdTag, x) := loadBool x
  let (scaleA, x) := loadTok x
  let (leftA, x) := loadNum x
  let (active, x) := loadPlane x
  let (shadow, x) := loadPlane x
  let (planeDue, x) := loadBool x
  let n := fun (i : Nat) => x.1.getD i 0
  { slot := slot, fb := fb, hold := hold, outq := outq, holdTag := holdTag, scaleA := scaleA, leftA := leftA, active := active,
    shadow := shadow, planeDue := planeDue, marks := n 9,
    sieve := { tokIn := n 0, tokOut := n 1, elIn := n 2, elOut := n 3, dropped := n 4, resident := n 5, padded := n 6,
               winIn := n 7, winKept := n 8 } }

/-- The state of a pot's mode element: cursors, buffered tokens, delay lines, and their counters (R205, R208, R211, R213). -/
def savePot (p : PotSt) : Saved :=
  saveAll [savePairs p.cursors, saveNums [p.lastVc], saveList p.heldEnds, saveToks p.fifo, saveToks p.preloadEnd.toList,
    saveNums [p.row, p.col], saveList (p.lines.map Prod.fst), (([], p.lines.map Prod.snd) : Saved), saveToks p.outq,
    saveNums [p.nextSeq.toNat, p.misroute], savePairs (p.awaitSeq.map fun (v, n) => (v, n.toNat)), savePairs p.taggedOnce,
    savePairs p.marked, saveNums [p.pushed]]

/-- A pot's mode element from a record. -/
def loadPot (x : Saved) : PotSt :=
  let (cursors, x) := loadPairs x
  let (lastVc, x) := loadNum x
  let (heldEnds, x) := loadList x
  let (fifo, x) := loadToks x
  let (preloadEnd, x) := loadTok x
  let (row, x) := loadNum x
  let (col, x) := loadNum x
  let (keys, x) := loadList x
  let lines := keys.zip x.2
  let x : Saved := (x.1, x.2.drop keys.length)
  let (outq, x) := loadToks x
  let (nextSeq, x) := loadNum x
  let (misroute, x) := loadNum x
  let (awaits, x) := loadPairs x
  let (once, x) := loadPairs x
  let (marked, x) := loadPairs x
  let (pushed, _) := loadNum x
  { cursors := cursors, lastVc := lastVc, heldEnds := heldEnds, fifo := fifo, preloadEnd := preloadEnd, row := row, col := col,
    lines := lines, outq := outq, nextSeq := BitVec.ofNat 24 nextSeq, misroute := misroute,
    awaitSeq := awaits.map fun (v, n) => (v, BitVec.ofNat 24 n), taggedOnce := once, marked := marked, pushed := pushed }

/-- The state of a controller node: its counts, its loop, its selects (R166, R168, R170). -/
def saveNode (n : NodeSt) : Saved :=
  saveAll [saveNums [n.credit, n.started, n.finished], savePairs n.issued, savePairs n.returned,
    saveNums [bitNum n.looping, n.remaining], savePairs (n.selects.map fun (a, b) => (bitNum a, bitNum b)),
    saveNums [n.carryLeft, bitNum n.carryFirst]]

/-- A controller node from a record. -/
def loadNode (x : Saved) : NodeSt :=
  let (credit, x) := loadNum x
  let (started, x) := loadNum x
  let (finished, x) := loadNum x
  let (issued, x) := loadPairs x
  let (returned, x) := loadPairs x
  let (looping, x) := loadBool x
  let (remaining, x) := loadNum x
  let (selects, x) := loadPairs x
  let (carryLeft, x) := loadNum x
  let (carryFirst, _) := loadBool x
  { credit := credit, started := started, finished := finished, issued := issued, returned := returned, looping := looping,
    remaining := remaining, selects := selects.map fun (a, b) => (a = 1, b = 1), carryLeft := carryLeft, carryFirst := carryFirst }

/-- The state of an edge node: stream position, window, tokens (R216 to R218, R234, R305). -/
def saveEdge (e : EdgeSt) : Saved :=
  saveAll [saveNums [e.tile, e.pos, e.seq.toNat, e.roundLeft, bitNum e.ended], saveToks e.pending, saveToks e.window,
    saveToks e.collected, saveToks e.committing, saveList (e.awaitSeq.toList.map BitVec.toNat), savePairs e.taggedOnce]

/-- An edge node from a record: it holds no engine, and no fault. -/
def loadEdge (x : Saved) : EdgeSt :=
  let (tile, x) := loadNum x
  let (pos, x) := loadNum x
  let (seq, x) := loadNum x
  let (roundLeft, x) := loadNum x
  let (ended, x) := loadBool x
  let (pending, x) := loadToks x
  let (window, x) := loadToks x
  let (collected, x) := loadToks x
  let (committing, x) := loadToks x
  let (awaits, x) := loadList x
  let (once, _) := loadPairs x
  { EdgeSt.start with
    tile := tile, pos := pos, seq := BitVec.ofNat 24 seq, roundLeft := roundLeft, ended := ended, pending := pending,
    window := window, collected := collected, committing := committing,
    awaitSeq := awaits.head?.map (BitVec.ofNat 24), taggedOnce := once }

/-- The tokens of links and inputs: each with its key and length, then the tokens (R168, R275). -/
def saveLinks (q : Tbl (List Tok)) : Saved :=
  saveAll [savePairs (q.map fun (key, ks) => (key, ks.length)), (([], q.flatMap Prod.snd) : Saved)]

/-- Tokens dealt to keys in turn. -/
def dealToks : List (Nat × Nat) → List Tok → Tbl (List Tok)
  | [], _ => []
  | (key, n) :: r, ks => (key, ks.take n) :: dealToks r (ks.drop n)

/-- What a tile holds beside its elements: the channels that have ended, the wire-throughs already served, credit, its source's
position, control messages, and the tokens in the links that it drives and in its inputs (R168). -/
def saveRest (t : Tile) : Saved :=
  saveAll [saveNums [t.credit, t.injected.toNat], saveList t.ended, saveList t.forks,
    saveList (t.ctl.flatMap fun m => [bitNum m.done, m.node, m.child, m.count]), saveLinks t.links]

/-- Control messages from numbers. -/
def ctlOf : List Nat → List CtlMsg
  | d :: n :: c :: k :: r => { done := d = 1, node := n, child := c, count := k } :: ctlOf r
  | _ => []

/-- What a tile holds beside its elements, from a record. -/
def loadRest (t : Tile) (x : Saved) : Tile :=
  let (credit, x) := loadNum x
  let (injected, x) := loadNum x
  let (ended, x) := loadList x
  let (forks, x) := loadList x
  let (ctl, x) := loadList x
  let (keys, x) := loadPairs x
  { t with credit := credit, injected := BitVec.ofNat 24 injected, ended := ended, forks := forks, ctl := ctlOf ctl, links := dealToks keys x.2 }

/-! ## Records of a tile (R275) -/

/-- A record: its unit (a stage 1 to 6, a node 0 to 3, 0 a mode element or an edge node, 7 the tile itself), its virtual
channel, its tokens. -/
structure SlotRec where
  lcore : Nat
  row : Nat
  col : Nat
  unit : Nat
  vc : Nat
  toks : List Tok
deriving DecidableEq, Repr

/-- The row and column of a tile or edge node in a record (R221, R275). -/
def recordPlace (tile : Nat) : Nat × Nat :=
  if tile < 96 then (tile / 12, tile % 12) else if tile < 104 then (tile - 96, 12) else (tile - 104, 13)

/-- The channel of a mode element or an edge node: that of its input's word, or of its stream. -/
def elementVc (c : TileCfg) : Nat := match c.kind with
  | .edge (.port _ _ _ _ vc) => vc
  | .pot _ => ((c.switches.find? fun w => w.dest = 6).map SwitchWord.vc).getD 0
  | _ => 0

/-- The records of a tile that runs a configuration (R274, R275). -/
def tileRecords (lcore tile : Nat) (c : TileCfg) (t : Tile) : List SlotRec :=
  let (row, col) := recordPlace tile
  let one := fun (unit vc : Nat) (x : Saved) => ({ lcore := lcore, row := row, col := col, unit := unit, vc := vc, toks := savedToks x } : SlotRec)
  one 7 0 (saveRest t) :: match c.kind with
    | .pan _ => t.stages.map fun (i, st) => one i 0 (saveStage st)
    | .pot (.host _) => t.nodes.map fun (i, n) => one i 7 (saveNode n)
    | .pot _ => [one 0 (elementVc c) (savePot t.pot)]
    | .pass => []
    | .edge _ => [one 0 (elementVc c) (saveEdge t.edge)]

/-- A tile with the state that a record gives. -/
def loadRecord (k : TileKind) (t : Tile) (r : SlotRec) : Tile :=
  let x := toksSaved r.toks
  if r.unit = 7 then loadRest t x else
  match k with
  | .pan _ => { t with stages := tset t.stages r.unit (loadStage x) }
  | .pot (.host _) => { t with nodes := tset t.nodes r.unit (loadNode x) }
  | .pot _ => { t with pot := loadPot x }
  | .pass => t
  | .edge _ => { t with edge := loadEdge x }

/-! ## Slots in memory (R275) -/

/-- The bytes of a record: header and tokens (R275). -/
def recordBytes (r : SlotRec) : List Byte :=
  leBytes 8 (r.lcore % 128 + 2 ^ 7 * r.row + 2 ^ 11 * r.col + 2 ^ 15 * r.unit + 2 ^ 18 * r.vc + 2 ^ 32 * r.toks.length) ++
    r.toks.flatMap slotToken

/-- The records of a slot: of each tile that has written to it (R274, R275). -/
def slotRecords (s : State) (v : SaveSlot) : List SlotRec :=
  v.recs.flatMap fun r => match (s.tile { core := r.core, tile := r.tile }).active with
    | some c => tileRecords ((s.logical r.core).getD 0) r.tile c r.saved
    | none => []

/-- A graph handle's word: generation, number, cluster (R222). -/
def handleWord (gen h cl : Nat) : Word := w64 (gen * 2 ^ 56 + h * 2 ^ 46 + cl * 2 ^ 28)

/-- The bytes of a slot (R275). -/
def slotBytes (handle : Word) (ordinal : Nat) (complete : Bool) (rs : List SlotRec) : List Byte :=
  leBytes 8 handle.toNat ++ leBytes 8 ordinal ++ leBytes 4 rs.length ++ [if complete then 1 else 0] ++ List.replicate 43 0 ++
    rs.flatMap recordBytes

/-- The save slot of an ordinal: slots alternate (R275). -/
def slotOf (ordinal : Nat) : Nat := (ordinal + 1) % 2

/-- The address of a slot of a context's save area; none where system software has given it none (R275, log 20). -/
def slotAddr (s : State) (ctx i : Nat) : Option Nat :=
  let a := (s.ctx ctx).save.toNat
  if a = 0 then none else some (a + i * Config.saveSlotBytes)

/-- The slot goes to the context's save area, as far as it is there (R275). -/
def writeSlot (s : State) (cl h ctx : Nat) (v : SaveSlot) : State :=
  match slotAddr s ctx (slotOf v.ordinal) with
  | none => s
  | some a =>
    let b := slotBytes (handleWord (tgetD (s.cluster cl).handleGens h 1) h cl) v.ordinal v.complete (slotRecords s v)
    if populated a && populated (a + b.length - 1) then s.writeMem a b else s

/-- Tokens of 68 bytes each. -/
def readTokens (m : Memory) : Nat → Nat → List Tok
  | 0, _ => []
  | n + 1, a => tokenOf (mreads m a 68) :: readTokens m n (a + 68)

/-- Records from an address on. -/
def readRecords (m : Memory) : Nat → Nat → List SlotRec
  | 0, _ => []
  | n + 1, a =>
    let x := leNat (mreads m a 8)
    let k := x / 2 ^ 32 % 2 ^ 16
    { lcore := x % 2 ^ 7, row := nbits x 10 7, col := nbits x 14 11, unit := nbits x 17 15, vc := nbits x 20 18,
      toks := readTokens m k (a + 8) } :: readRecords m n (a + 8 + 68 * k)

/-- The records of a complete slot of a handle and an ordinal, where one stands at an address (R275). -/
def readSlot (s : State) (a : Nat) (handle : Word) (ordinal : Nat) : Option (List SlotRec) :=
  let b := s.readMem a 64
  if leNat (b.take 8) = handle.toNat ∧ leNat ((b.drop 8).take 8) = ordinal ∧ leNat ((b.drop 20).take 1) = 1 then
    some (readRecords s.mem (leNat ((b.drop 16).take 4)) (a + 64))
  else none

/-- The state that records give a tile: none where no record is its own. -/
def slotTile (rs : List SlotRec) (lcore tile : Nat) (k : TileKind) : Option Tile :=
  let mine := rs.filter fun r => r.lcore = lcore % 128 && (r.row, r.col) = recordPlace tile
  if mine = [] then none else some (mine.foldl (loadRecord k) Tile.empty)

end Sys2Proof.Machine
end

