-- ==== Sys2Proof/Machine/Net.lean ====
section
/-! DEFINITION. Links and switch words: the array's geometry (R150 to R152, R172), heads and free slots through wire-throughs
(R153, R154), the drops of R161 and R162, drain points (R229), and what a tile's counters note. -/

namespace Sys2Proof.Machine

open Sys2Proof

/-! ## Geometry (R150 to R152, R172) -/

/-- The port that faces a port: north and south, east and west. -/
def facing (port : Nat) : Nat := (port + 2) % 4

/-- The tile or edge node at the other end of a port, ports 0 north, 1 east, 2 south, 3 west (R151, R152, R172). -/
def neighbour (l : TileLoc) (port : Nat) : Option TileLoc :=
  let p := l.core % 132
  if l.tile < 96 then
    let row := l.tile / 12
    let col := l.tile % 12
    match port with
    | 0 => if 0 < row then some { l with tile := l.tile - 12 }
           else if 12 ≤ p then some { core := l.core - 12, tile := 84 + col } else none
    | 1 => if col < 11 then some { l with tile := l.tile + 1 } else some { l with tile := 104 + row }
    | 2 => if row < 7 then some { l with tile := l.tile + 12 }
           else if p < 120 then some { core := l.core + 12, tile := col } else none
    | _ => if 0 < col then some { l with tile := l.tile - 1 } else some { l with tile := 96 + row }
  else if l.tile < 104 then (if port = 1 then some { l with tile := 12 * (l.tile - 96) } else none)
  else if l.tile < 112 then (if port = 3 then some { l with tile := 12 * (l.tile - 104) + 11 } else none)
  else none

/-- The port of an edge node that joins it to its tile (R152). -/
def edgePort (tile : Nat) : Nat := if tile < 104 then 1 else 3

/-- Slots of the link that an edge node drives (log 15). -/
def edgeSlots : Nat := 1

/-- Row plus column of a tile is odd: a pot's place (R150). -/
def oddTile (tile : Nat) : Bool := (tile / 12 + tile % 12) % 2 = 1

/-! ## Queues -/

/-- The key of a link or input that a word drives. -/
def linkKey (dest vc : Nat) : Nat := 8 * dest + vc

/-- The switch words of the active configuration. -/
def Tile.words (t : Tile) : List SwitchWord := match t.active with
  | some c => c.switches
  | none => []

/-- The tokens of a link or input. -/
def Tile.queue (t : Tile) (key : Nat) : List Tok := tgetD t.links key []
/-- The counters of a boundary link. -/
def Tile.bound (t : Tile) (key : Nat) : Bound := tgetD t.bounds key Bound.zero

/-- The link crosses to another core (R243). -/
def crosses (l : TileLoc) (dest : Nat) : Bool := match neighbour l dest with
  | some n => n.core ≠ l.core
  | none => false

/-- The chain of a tile that reads a port and channel (R155). -/
def readerChain (t : Tile) (port vc : Nat) : Option (Nat × List SwitchWord) :=
  (chainsOf t.words).find? fun (_, c) => match c with
    | w :: _ => w.src = port && w.vc = vc
    | [] => false

/-- The chain of a tile that drives a link, and its word for it. -/
def driverChain (t : Tile) (dest vc : Nat) : Option (List SwitchWord × SwitchWord) :=
  (chainsOf t.words).findSome? fun (_, c) => (c.find? fun w => w.dest = dest && w.vc = vc).map fun w => (c, w)

/-- A token that the first switch it reaches drops: kind 7, control off channel 7, data on channel 7 (R161, R162). -/
def misplaced (k : Tok) (vc : Nat) : Bool :=
  k.kind = .reserved || (k.kind = .control && vc ≠ 7) || (k.kind = .data && vc = 7)

/-- A stream-end of level 15. -/
def Tok.last (k : Tok) : Bool := k.kind = .streamEnd && k.level = 15
/-- A stream-end of level 1 or above. -/
def Tok.ends (k : Tok) : Bool := k.kind = .streamEnd && k.level ≠ 0

/-! ## Counters (R142, R158, R162) -/

/-- A check-interval bit of the launch whose configuration a tile runs (R142, R143). -/
def noteCir (s : State) (l : TileLoc) (i : Nat) : State :=
  let t := s.tile l
  match t.active with
  | some c => reportCir s (l.core / 132) c.handle t.marks i
  | none => s

/-- A token is dropped: the core's join-drop counter and CIR[3] (R158, R162). -/
def noteDrop (s : State) (l : TileLoc) : State :=
  noteCir (s.modCore l.core fun c => { c with joinDrops := c.joinDrops + 1 }) l 3

/-- A firing in the core's monitor window (R255). -/
def noteFiring (s : State) (l : TileLoc) : State := s.modCore l.core fun c => { c with firings := c.firings + 1 }

/-- A check-interval bit of a stage, which counts the markers that have passed it itself (R142, R143). -/
def noteStageCir (s : State) (l : TileLoc) (marks i : Nat) : State :=
  match (s.tile l).active with
  | some c => reportCir s (l.core / 132) c.handle marks i
  | none => s

/-- An element that has data on some inputs and not on all (R255, log 17). -/
def noteStarved (s : State) (l : TileLoc) : State := s.modCore l.core fun c => { c with starved := c.starved + 1 }

/-! ## Free slots and pushes (R153, R154) -/

/-- A word's destination has a free slot; through a wire-through, the condition of the chain that reads it (R154). -/
def wordFree (s : State) : Nat → TileLoc → SwitchWord → Bool
  | 0, _, _ => false
  | fuel + 1, l, w =>
    let t := s.tile l
    let key := linkKey w.dest w.vc
    if 4 ≤ w.dest then (t.queue key).length < w.slots
    else if w.slots = 0 then
      t.queue key = [] && (match neighbour l w.dest with
        | some n => match readerChain (s.tile n) (facing w.dest) w.vc with
          | some (_, c) => !nsMem (s.tile n).ended (linkKey (facing w.dest) w.vc) && c.all fun x => wordFree s fuel n x
          | none => false
        | none => false)
    else if crosses l w.dest then (t.bound key).sent - (t.bound key).takenKnown < w.slots
    else (t.queue key).length < w.slots

/-- A bound on the wire-throughs of a route (R163). -/
def routeFuel : Nat := 16

/-- A word of 0 slots that ends at a reader: an input of depth 0 of its own tile, an element of the next tile, or a chain there
with such a word. No token stands in it; its reader takes the token from where it stands before the chain (R153, R154). -/
def pullWord (s : State) : Nat → TileLoc → SwitchWord → Bool
  | 0, _, _ => false
  | fuel + 1, l, w =>
    w.slots = 0 && (4 ≤ w.dest || (match neighbour l w.dest with
      | some n => match readerChain (s.tile n) (facing w.dest) w.vc with
        | some (_, c) => c.any fun x => pullWord s fuel n x
        | none => true
      | none => false))

/-- The other words of a chain that end at readers which have not had the token before the chain yet. -/
def pullsLeft (s : State) (fuel : Nat) (l : TileLoc) (c : List SwitchWord) (w : SwitchWord) : List SwitchWord :=
  c.filter fun y => y ≠ w && pullWord s fuel l y && !nsMem (s.tile l).forks (linkKey y.dest y.vc)

/-- A word's reader may have the token before its chain: not a second time, and the last of the chain's readers only while the
chain's other destinations are free, so that the token leaves through every word (R154, R157; the readers of a multicast one
after another, log 80). -/
def pullOpen (s : State) (fuel : Nat) (l : TileLoc) (c : List SwitchWord) (w : SwitchWord) : Bool :=
  !nsMem (s.tile l).forks (linkKey w.dest w.vc) &&
  ((pullWord s fuel l w && pullsLeft s fuel l c w ≠ []) ||
   c.all fun y => y = w || nsMem (s.tile l).forks (linkKey y.dest y.vc) || wordFree s fuel l y)

/-- Every destination of a chain is free (R157). -/
def chainFree (s : State) (l : TileLoc) (c : List SwitchWord) : Bool := c.all fun w => wordFree s routeFuel l w

/-- Append a token to a link or input (R243 for a boundary link). -/
def enqueue (s : State) (l : TileLoc) (key : Nat) (k : Tok) (boundary : Bool) : State :=
  s.modTile l fun t =>
    { t with
      links := tset t.links key (t.queue key ++ [k]),
      bounds := if boundary then tset t.bounds key { t.bound key with sent := (t.bound key).sent + 1 } else t.bounds }

/-- A reader of a port or local input has taken a token; a stream-end of level 15 ends that input (R229). -/
def markTaken (s : State) (l : TileLoc) (key : Nat) (k : Tok) : State :=
  if k.last then s.modTile l fun t => { t with ended := nsAdd t.ended key } else s

/-- A token leaves through a word; a wire-through passes it on in the same clock (R153, R154, R162). -/
def wordPush (k : Tok) : Nat → State → TileLoc → SwitchWord → State
  | 0, s, _, _ => s
  | fuel + 1, s, l, w =>
    if w.dest < 4 ∧ w.slots = 0 then
      match neighbour l w.dest with
      | none => s
      | some n =>
        match readerChain (s.tile n) (facing w.dest) w.vc with
        | none => s
        | some (_, c) =>
          if misplaced k w.vc then noteDrop s n
          else c.foldl (fun s x => wordPush k fuel s n x) (markTaken s n (linkKey (facing w.dest) w.vc) k)
    else enqueue s l (linkKey w.dest w.vc) k (w.dest < 4 && crosses l w.dest)

/-- A token leaves through every word of a chain (R39). -/
def chainPush (s : State) (l : TileLoc) (c : List SwitchWord) (k : Tok) : State :=
  c.foldl (fun s w => wordPush k routeFuel s l w) s

/-! ## Heads and takes (R153 to R155) -/

/-- The head at a port's channel: of the link's queue, or through a wire-through of the link before it, while its reader may
have it (R154). An input that has taken its level-15 stream-end has no head until the next period
(R229). -/
def portHead (s : State) : Nat → TileLoc → Nat → Nat → Option Tok
  | 0, _, _, _ => none
  | fuel + 1, l, port, vc =>
    if nsMem (s.tile l).ended (linkKey port vc) then none else
    match neighbour l port with
    | none => none
    | some n =>
      let t := s.tile n
      match t.queue (linkKey (facing port) vc) with
      | k :: _ => some k
      | [] =>
        match driverChain t (facing port) vc with
        | none => none
        | some (c, w) =>
          if w.slots ≠ 0 then none else
          match c with
          | x :: _ =>
            if x.src < 4 ∧ pullOpen s fuel n c w then
              match portHead s fuel n x.src x.vc with
              | some k => if misplaced k x.vc then none else some k
              | none => none
            else none
          | [] => none

/-- A reader has the token, which stays before its chain for the other readers (R154, log 80). -/
def markFork (s : State) (l : TileLoc) (w : SwitchWord) : State :=
  s.modTile l fun t => { t with forks := nsAdd t.forks (linkKey w.dest w.vc) }

/-- The token has left through a chain: what its readers had of it is forgotten. -/
def clearForks (s : State) (l : TileLoc) (c : List SwitchWord) : State :=
  s.modTile l fun t => { t with forks := c.foldl (fun f y => nsDel f (linkKey y.dest y.vc)) t.forks }

/-- Take the head at a port's channel (R154). -/
def portTake : Nat → State → TileLoc → Nat → Nat → Option (Tok × State)
  | 0, _, _, _, _ => none
  | fuel + 1, s, l, port, vc =>
    match neighbour l port with
    | none => none
    | some n =>
      let t := s.tile n
      let key := linkKey (facing port) vc
      match t.queue key with
      | k :: r =>
        let s := s.modTile n fun t =>
          { t with
            links := tset t.links key r,
            bounds := if n.core ≠ l.core then tset t.bounds key { t.bound key with taken := (t.bound key).taken + 1 }
                      else t.bounds }
        some (k, markTaken s l (linkKey port vc) k)
      | [] =>
        match driverChain t (facing port) vc with
        | none => none
        | some (c, w) =>
          match c with
          | x :: _ =>
            if pullsLeft s fuel n c w ≠ [] then
              (portHead s fuel n x.src x.vc).map fun k => (k, markTaken (markFork s n w) l (linkKey port vc) k)
            else
              let rest := c.filter fun y => y ≠ w && !pullWord s fuel n y
              match portTake fuel s n x.src x.vc with
              | some (k, s) =>
                let s := rest.foldl (fun s y => wordPush k fuel s n y) (clearForks s n c)
                some (k, markTaken s l (linkKey port vc) k)
              | none => none
          | [] => none

/-- Where an element reads: a port's channel, or an input queue of its own tile (R153, R155). -/
inductive Input where
  | port (p vc : Nat)
  | queue (key : Nat)
  | through (c : List SwitchWord) (w : SwitchWord)
  | prev (stage : Nat)
deriving DecidableEq, Repr

/-- The head of an input. -/
def inputHead (s : State) (l : TileLoc) : Input → Option Tok
  | .port p v => portHead s routeFuel l p v
  | .queue key => if nsMem (s.tile l).ended key then none else ((s.tile l).queue key).head?
  | .through c w =>
    match c with
    | x :: _ =>
      if x.src < 4 && pullOpen s routeFuel l c w then
        match portHead s routeFuel l x.src x.vc with
        | some k => if misplaced k x.vc then none else some k
        | none => none
      else none
    | [] => none
  | .prev i => (tgetD (s.tile l).stages i StageSt.start).slot

/-- Take the head of an input. -/
def inputTake (s : State) (l : TileLoc) (i : Input) : State :=
  match i with
  | .port p v => match portTake routeFuel s l p v with
    | some (_, s) => s
    | none => s
  | .queue key =>
    match (s.tile l).queue key with
    | k :: r => markTaken (s.modTile l fun t => { t with links := tset t.links key r }) l key k
    | [] => s
  | .through c w =>
    match c with
    | x :: _ =>
      if pullsLeft s routeFuel l c w ≠ [] then markFork s l w
      else match portTake routeFuel s l x.src x.vc with
        | some (k, s) => chainPush (clearForks s l c) l (c.filter fun y => y ≠ w && !pullWord s routeFuel l y) k
        | none => s
    | [] => s
  | .prev i => s.modTile l fun t => { t with stages := tmod t.stages i StageSt.start fun x => { x with slot := none } }

/-- An input of a tile that a word with a destination of 4 to 7 feeds: read through when its depth is 0 (R153). -/
def localInput (t : Tile) (dest vc : Nat) : Option Input :=
  match driverChain t dest vc with
  | none => none
  | some (c, w) =>
    if w.slots ≠ 0 then some (.queue (linkKey dest vc)) else some (.through c w)

/-! ## Emissions (R153, R159, R233) -/

/-- The chains that carry a source's emissions; a stage's are those of source 4, a pot's those of source 5 on a channel. -/
def sourceChains (t : Tile) (src : Nat) (vc : Option Nat) : List (List SwitchWord) :=
  (chainsOf t.words).filterMap fun (_, c) => match c with
    | w :: _ => if w.src = src && (match vc with
        | some v => w.vc == v
        | none => true) then some c else none
    | [] => none

/-- A frozen tile tags what it emits (R233). -/
def emitTag (t : Tile) (k : Tok) : Tok := if t.tagAll then { k with tag := true } else k

/-- Every destination of a source is free. -/
def sourceFree (s : State) (l : TileLoc) (src : Nat) (vc : Option Nat) : Bool :=
  (sourceChains (s.tile l) src vc).all (chainFree s l)

/-- Emit a token on a source. -/
def sourcePush (s : State) (l : TileLoc) (src : Nat) (vc : Option Nat) (k : Tok) : State :=
  let t := s.tile l
  (sourceChains t src vc).foldl (fun s c => chainPush s l c (emitTag t k)) s

/-- An edge node's output link has a free slot (R152, log 15). -/
def edgeFree (s : State) (l : TileLoc) (vc : Nat) : Bool :=
  ((s.tile l).queue (linkKey (edgePort l.tile) vc)).length < edgeSlots

/-- An edge node emits a token to its tile. -/
def edgePush (s : State) (l : TileLoc) (vc : Nat) (k : Tok) : State :=
  enqueue s l (linkKey (edgePort l.tile) vc) (emitTag (s.tile l) k) false

/-- One more clock in which the sender of a boundary link is back-pressured (R255). -/
def pressBound (s : State) (l : TileLoc) (key : Nat) : State := s.modTile l fun t =>
  { t with bounds := tset t.bounds key { t.bound key with bpWindow := (t.bound key).bpWindow + 1 } }

/-- The boundary links without a free slot that a word leads to, itself or through wire-throughs (R153, R255). -/
def fullCrossings (s : State) : Nat → TileLoc → SwitchWord → List (TileLoc × Nat)
  | 0, _, _ => []
  | fuel + 1, l, w =>
    if 4 ≤ w.dest then []
    else if crosses l w.dest then (if wordFree s routeFuel l w then [] else [(l, linkKey w.dest w.vc)])
    else if w.slots ≠ 0 then []
    else match neighbour l w.dest with
      | none => []
      | some n => match readerChain (s.tile n) (facing w.dest) w.vc with
        | some (_, c) => c.flatMap fun x => fullCrossings s fuel n x
        | none => []

/-- A sender is back-pressured at each boundary link among these that is full (R255, log 17). -/
def noteFull (s : State) (l : TileLoc) (cs : List (List SwitchWord)) : State :=
  (cs.flatten.flatMap (fullCrossings s routeFuel l)).dedup.foldl (fun s (n, key) => pressBound s n key) s

/-- An element's output lacks a free slot (R255, log 17). -/
def notePressed (s : State) (l : TileLoc) (cs : List (List SwitchWord)) : State :=
  noteFull (s.modCore l.core fun c => { c with pressed := c.pressed + 1 }) l cs

/-! ## Markers (R274, R275) -/

/-- The ordinal that a marker carries (R274). -/
def markerOrdinal (k : Tok) : Nat := k.payload.toNat % 2 ^ 64

/-- A save slot that holds nothing yet (R275). -/
def SaveSlot.fresh (ordinal : Nat) : SaveSlot := { ordinal := ordinal, recs := [], complete := false }

/-- The slot that an ordinal's records go to; it is overwritten by the first record of a newer ordinal (R275). -/
def Launch.slotFor (x : Launch) (ordinal : Nat) : SaveSlot :=
  match tget x.slots (slotOf ordinal) with
  | some v => if v.ordinal = ordinal then v else SaveSlot.fresh ordinal
  | none => SaveSlot.fresh ordinal

/-- The record of a tile as it is before its first element writes to it: the inputs that have ended, the credit and the
injected tokens as they stand (R274). -/
def Tile.record (t : Tile) : Tile := { Tile.empty with ended := t.ended, credit := t.credit, injected := t.injected }

/-- An element writes its state to the launch's current save slot as a marker passes it: the launch's record of the slot, and
the slot in memory, incomplete as yet (R274, R275). -/
def saveElement (s : State) (l : TileLoc) (ordinal : Nat) (f : Tile → Tile) : State :=
  match (s.tile l).active with
  | none => s
  | some c =>
    let cl := l.core / 132
    match s.launch? cl c.handle with
    | none => s
    | some x =>
      let v := x.slotFor ordinal
      let old := match v.recs.find? fun r => r.core = l.core && r.tile = l.tile with
        | some r => r.saved
        | none => (s.tile l).record
      let rest := v.recs.filter fun r => !(r.core = l.core && r.tile = l.tile)
      let v := { v with recs := rest ++ [{ core := l.core, tile := l.tile, saved := f old }] }
      writeSlot (s.setLaunch cl c.handle { x with slots := tset x.slots (slotOf ordinal) v }) cl c.handle x.ctx v

/-- One more marker is due at every source of a running launch (R274). -/
def markLaunch (s : State) (cl h : Nat) : State :=
  match s.launch? cl h with
  | some x => s.setLaunch cl h { x with marks := x.marks + 1 }
  | none => s

/-- A checkpoint marker of an ordinal (R274). -/
def markerTok (m : Nat) : Tok := { Tok.zero with kind := .marker, payload := BitVec.ofNat 512 (m % 2 ^ 64) }

/-- The launch of the configuration that a tile runs, while it runs. -/
def runningLaunch (s : State) (l : TileLoc) : Option Launch :=
  match (s.tile l).active with
  | some c => match s.launch? (l.core / 132) c.handle with
    | some x => if x.state = .running then some x else none
    | none => none
  | none => none

/-- The ordinal of the marker that a source has yet to inject; the next one waits until the slot before its own is complete
(R274, R275). -/
def dueMark (s : State) (l : TileLoc) : Option Nat :=
  match runningLaunch s l with
  | some x =>
    let m := (s.tile l).marks
    if m < x.marks ∧ m ≤ x.marksDone then some (m + 1) else none
  | none => none

/-- Every source stops after this marker: pre-emption (R276), a quiesce (R330), a reload (R233), a disagreement (R235). -/
def stopsAfter (x : Launch) : Bool := x.preempting || x.quiesced || x.reloading || x.halted

/-- A source has injected the marker after which its launch has every source stop. It takes nothing more either: the slot holds
what it held at the marker, and the stream is cut there (R276). -/
def sourceStopped (s : State) (l : TileLoc) : Bool :=
  match runningLaunch s l with
  | some x => stopsAfter x && x.marks ≤ (s.tile l).marks
  | none => false

/-- A source that has injected a marker stops if the launch says so (R276). -/
def stopAfterMark (s : State) (l : TileLoc) : State :=
  if sourceStopped s l then s.modTile l fun t => { t with running := false } else s

/-! ## Governed elements (R167) -/

/-- The tile has a control-sink word (R167). -/
def hasControlSink (t : Tile) : Bool := t.words.any fun w => w.dest = 7

/-- The element of a tile may fire: it is not governed, or its credit is above zero (R167). A pot in controller-host mode is
not governed; its nodes take the control sink. -/
def governedOk (t : Tile) : Bool :=
  match t.active with
  | some c => match c.kind with
    | .pot (.host _) => true
    | _ => !hasControlSink t || 0 < t.credit
  | none => false

/-! ## Control tokens (R164, R165) -/

/-- The payload of a control token (R165): kind, node, select, count. -/
def controlPayload (kind node : Nat) (select : Bool) (count : Nat) : Vec512 :=
  BitVec.ofNat 512 (kind + 4 * node + (if select then 16 else 0) + 256 * count)

/-- A control token (R165). -/
def controlTok (kind node count : Nat) : Tok :=
  { kind := .control, tag := false, level := 0, seq := 0, payload := controlPayload kind node false count }

/-- The handle of a tile's active configuration; 0 on an idle tile. -/
def tileHandle (t : Tile) : Nat := match t.active with
  | some c => c.handle
  | none => 0

/-- A tile as a handle's graph has it: one that has not swapped yet counts with the handle's shadow, so that the controller
tree of a graph is the same whichever of its tiles have swapped (R164, R229). -/
def State.viewTile (s : State) (h : Nat) (l : TileLoc) : Tile :=
  let t := s.tile l
  match t.shadow with
  | some c => if c.handle = h then { t with active := some c } else t
  | none => t

/-- The tile whose control sink a chain of channel 7 reaches (R164). -/
def controlEnd (s : State) (h : Nat) : Nat → TileLoc → SwitchWord → Option TileLoc
  | 0, _, _ => none
  | fuel + 1, l, w =>
    if w.dest = 7 then some l
    else if 4 ≤ w.dest then none
    else match neighbour l w.dest with
      | none => none
      | some n => match readerChain (s.viewTile h n) (facing w.dest) 7 with
        | some (_, c) => c.findSome? fun x => controlEnd s h fuel n x
        | none => none

/-- The tile whose control source feeds a port's channel 7 (R164). -/
def controlStart (s : State) (h : Nat) : Nat → TileLoc → Nat → Option TileLoc
  | 0, _, _ => none
  | fuel + 1, l, port =>
    match neighbour l port with
    | none => none
    | some n => match driverChain (s.viewTile h n) (facing port) 7 with
      | some (x :: _, _) => if x.src = 7 then some n else if x.src < 4 then controlStart s h fuel n x.src else none
      | _ => none

/-- A bound on the length of a control route. -/
def controlFuel : Nat := 256

/-- The tile at the other end of a tile's control-sink route (R164). -/
def controlParent (s : State) (l : TileLoc) : Option TileLoc :=
  match driverChain (s.tile l) 7 7 with
  | some (x :: _, _) => if x.src < 4 then controlStart s (tileHandle (s.tile l)) controlFuel l x.src else none
  | _ => none

/-- The tile that a control-source word of a tile reaches (R164). -/
def controlReach (s : State) (l : TileLoc) (w : SwitchWord) : Option TileLoc :=
  controlEnd s (tileHandle (s.tile l)) controlFuel l w

/-- The nodes of a pot in controller-host mode. -/
def hostNodes (t : Tile) : List NodeCfg :=
  match t.active with
  | some c => match c.kind with
    | .pot (.host ns) => ns
    | _ => []
  | none => []

/-- A child of a node: a node of the same pot, or the tile that a control-source word reaches (R164). -/
inductive Child where
  | node (i : Nat)
  | word (c : List SwitchWord)
deriving DecidableEq, Repr

/-- Nodes of a pot whose parent is a node of it, by rising index (R164). -/
def innerChildren (ns : List NodeCfg) (n : Nat) : List Nat :=
  (ns.zipIdx.filter fun (x, _) => x.parent = n).map Prod.snd

/-- The control-source words that lead to children: a word that leads back to the parent's pot is not one (R164, log 16). -/
def childWords (s : State) (l : TileLoc) : List (List SwitchWord) :=
  let up := controlParent s l
  (sourceChains (s.tile l) 7 none).filter fun c =>
    !(match c with
      | w :: _ => (controlReach s l w).isSome && controlReach s l w = up &&
          (match up with
           | some p => hostNodes (s.viewTile (tileHandle (s.tile l)) p) ≠ []
           | none => false)
      | [] => false)

/-- The children of node n: its inner ones, then its share of the words, which are dealt to the nodes in rising order
(R164, log 16). -/
def childrenOf (s : State) (l : TileLoc) (n : Nat) : List Child :=
  let ns := hostNodes (s.tile l)
  let want := fun i => ((ns[i]?).map NodeCfg.children).getD 0 - (innerChildren ns i).length
  let skip := ((List.range n).map want).sum
  (innerChildren ns n).map Child.node ++ (((childWords s l).drop skip).take (want n)).map Child.word

/-- The node and child index of a pot that a tile's dones belong to (R164). -/
def childIndex (s : State) (l from_ : TileLoc) : Option (Nat × Nat) :=
  (List.range (hostNodes (s.tile l)).length).findSome? fun n =>
    ((childrenOf s l n).zipIdx.find? fun (c, _) => match c with
      | .word (w :: _) => controlReach s l w = some from_
      | _ => false).map fun (_, j) => (n, j)

/-- Put a control message into a pot. -/
def postCtl (s : State) (l : TileLoc) (m : CtlMsg) : State := s.modTile l fun t => { t with ctl := t.ctl ++ [m] }

/-- The chain of a tile's control source that takes dones to its parent, where a word does (R164, R167, log 16). -/
def doneChain (s : State) (l : TileLoc) : Option (List SwitchWord) :=
  let t := s.tile l
  (sourceChains t 7 none).find? fun c => hostNodes t = [] || !(childWords s l).contains c

/-- A done to the parent over the control link has a free slot; one that goes back over the link itself needs none (R157, R167,
log 16). -/
def sendFree (s : State) (l : TileLoc) : Bool := match doneChain s l with
  | some c => chainFree s l c
  | none => true

/-- A done to the parent over the control link: through the tile's own control source where a word takes it to the parent,
else back over the link itself (R167, log 16). -/
def sendDone (s : State) (l : TileLoc) (count : Nat) : State :=
  match doneChain s l with
  | some c =>
    let node := match c with
      | w :: _ => match controlReach s l w with
        | some p => ((childIndex s p l).map Prod.fst).getD 0
        | none => 0
      | [] => 0
    chainPush s l c (controlTok 0 node count)
  | none =>
    match controlParent s l with
    | none => s
    | some p => match childIndex s p l with
      | some (n, j) => postCtl s p { done := true, node := n, child := j, count := count }
      | none => s

/-- The element of a tile is governed (R167). -/
def governed (t : Tile) : Bool :=
  hasControlSink t && (match t.active with
    | some c => match c.kind with
      | .pot (.host _) => false
      | _ => true
    | none => false)

/-- The done that emitting a token would send has a free slot (R157, R167). -/
def doneFree (s : State) (l : TileLoc) (k : Tok) : Bool :=
  !(k.ends && governed (s.tile l)) || sendFree s l

/-- A governed element has emitted a token: each stream-end of level 1 or above costs a credit and sends a done (R167). -/
def chargeCredit (s : State) (l : TileLoc) (k : Tok) : State :=
  let t := s.tile l
  if k.ends && governed t then sendDone (s.setTile l { t with credit := t.credit - 1 }) l 1 else s

end Sys2Proof.Machine
end

