-- ==== Sys2Proof/Machine/Stages.lean ====
section
/-! DEFINITION. Pan stages (R157 to R159, R174 to R199): operands, what each class computes, its state and end action, and the
firing. -/

namespace Sys2Proof.Machine

open Sys2Proof

/-! ## Operands (R175) -/

/-- An extension word (R37). -/
def StageCfg.word (g : StageCfg) (i : Nat) : Nat := (g.ext.getD i 0).toNat

/-- Extension words before the ones of the operation itself: the constant's (R37). -/
def StageCfg.skip (g : StageCfg) : Nat := if g.srcA = 6 ∨ g.srcB = 6 then 1 else 0

/-- A 32-bit word in every lane (R175). -/
def inLanes (x : Nat) : Vec512 := pack 32 (List.replicate 16 x)

/-- The constant of a stage (R175). -/
def StageCfg.const (g : StageCfg) : Vec512 := inLanes (g.word 0)

/-- The payload of a source, given its head if it is a named input (R175). -/
def operandOf (g : StageCfg) (st : StageSt) (code : Nat) (head : Option Tok) : Vec512 :=
  if code = 6 then g.const
  else if code = 7 then ((st.fb.map Tok.payload).getD 0)
  else (head.map Tok.payload).getD 0

/-- The input that a source code names at stage i: a port on channel 0, or, where a word with destination 4 or 5 names the port,
the input that the word feeds, which is that channel's one reader (R153, R155). -/
def stageInput (t : Tile) (i code dest : Nat) : Option Input :=
  if code = 5 then some (.prev i)
  else if 1 ≤ code ∧ code ≤ 4 then
    match selectedWord t.words dest (code - 1) with
    | some w => localInput t w.dest w.vc
    | none => some (.port (code - 1) 0)
  else none

/-- The named inputs of a stage: A and then B (R158). -/
def namedInputs (t : Tile) (i : Nat) (g : StageCfg) : List Input :=
  let a := stageInput t i g.srcA 4
  let b := stageInput t i g.srcB 5
  if a = b then a.toList else a.toList ++ b.toList

/-! ## The join rule (R158) -/

/-- Precedence of non-data heads, higher first to keep (R158). -/
def headRank (k : Tok) : Nat :=
  match k.kind with
  | .config => 100
  | .marker => 90
  | .streamEnd => 50 + k.level.toNat
  | .endOfTile => 20
  | .bound => 10
  | _ => 0

/-- What the heads of a join call for: wait (`starved` if some but not all are there), drop the heads at these positions, or
fire, on data or on one kind. -/
inductive Join where
  | wait (starved : Bool)
  | drop (is : List Nat)
  | data
  | same
deriving DecidableEq, Repr

/-- Positions of a list that a test accepts. -/
def positions {α : Type} (p : α → Bool) (l : List α) : List Nat := (l.zipIdx.filter fun (x, _) => p x).map Prod.snd

/-- The head at a position stands lowest in precedence; ties go to the first (R158). -/
def lowest (hs : List Tok) : Nat :=
  (hs.zipIdx.foldl (fun (acc : Nat × Nat) (k, i) => if headRank k < acc.1 then (headRank k, i) else acc) (1000, 0)).2

/-- The join rule (R158). -/
def joinHeads (hs : List (Option Tok)) : Join :=
  let isData := fun (h : Option Tok) => match h with
    | some k => k.kind = .data
    | none => false
  let isOther := fun (h : Option Tok) => match h with
    | some k => k.kind ≠ .data
    | none => false
  if hs.any isOther && hs.any isData then .drop (positions isData hs)
  else if hs.any Option.isNone then .wait (hs.any Option.isSome)
  else if hs.all isData then .data
  else
    let ks := hs.filterMap id
    match ks with
    | k :: r => if r.all fun x => x.kind = k.kind && (k.kind ≠ .streamEnd || x.level = k.level) then .same
                else .drop [lowest ks]
    | [] => .data

/-! ## What classes compute on one token each (R182 to R186, R193 to R195) -/

/-- Lane operation of a class and op, if it has one (R183 to R186). -/
def stageLane (cls op : Nat) : Option LaneOp :=
  match cls, op with
  | 1, 0 => some .add | 1, 1 => some .sub | 1, 2 => some .mul | 1, 3 => some .mulh | 1, 4 => some .min | 1, 5 => some .max
  | 1, 6 => some .abs | 1, 7 => some .neg | 1, 8 => some .adds | 1, 9 => some .subs
  | 2, 0 => some .add | 2, 1 => some .sub | 2, 2 => some .mul | 2, 3 => some .fma | 2, 4 => some .min | 2, 5 => some .max
  | 2, 6 => some .abs | 2, 7 => some .neg | 2, 8 => some .exp2 | 2, 9 => some .log2 | 2, 10 => some .rcp
  | 2, 11 => some .rsqrt
  | 3, 0 => some .eq | 3, 1 => some .ne | 3, 2 => some .lt | 3, 3 => some .le
  | 4, 0 => some .and | 4, 1 => some .or | 4, 2 => some .xor | 4, 3 => some .not | 4, 4 => some .andn | 4, 5 => some .shl
  | 4, 6 => some .shr | 4, 7 => some .sra
  | _, _ => none

/-- The rounding of a stage (R21). -/
def rndOf (code : Nat) : Rnd := (Rnd.ofCode (BitVec.ofNat 3 code)).getD .rn

/-- clamp: min(max(a, lo), hi), NaN canonical (R185). -/
def clampLane (ty : Ty) (a lo hi : Nat) : Nat :=
  laneOp .min ty .rn false (laneOp .max ty .rn false a lo 0) hi 0

/-- Reduce in 2^m parts (R193). -/
def reduceParts (op : RedOp) (ty : Ty) (m : Nat) (a : Vec512) : Vec512 :=
  let g := ty.lanes / 2 ^ m
  pack ty.width ((List.range (2 ^ m)).map fun j => reduceList op ty (((elems ty.width a).drop (j * g)).take g))

/-- perm: 32-bit lanes by a pattern (R194). -/
def permLanes (pattern : Nat) (a : Vec512) : Vec512 :=
  pack 32 ((List.range 16).map fun l => elem 32 a (pattern / 2 ^ (4 * l) % 16))

/-- The lane-mode butterfly (R195). -/
def whiskLanes (ty : Ty) (rnd : Rnd) (sat : Bool) (d : Nat) (a : Vec512) : Vec512 :=
  pack ty.width ((List.range ty.lanes).map fun e =>
    if e / d % 2 = 0 then laneOp .add ty rnd sat (elem ty.width a e) (elem ty.width a (e + d)) 0
    else laneOp .sub ty rnd sat (elem ty.width a (e - d)) (elem ty.width a e) 0)

/-- The reduction of a reduce stage (R193). -/
def reduceOp (op : Nat) : RedOp := match op with
  | 0 => .add
  | 1 => .max
  | _ => .min

/-- The result of an operation that makes one token of one (R182 to R186, R193 to R195). -/
def stageResult (g : StageCfg) (a b : Vec512) : Vec512 :=
  let ty := tyOf g.ty
  let rnd := rndOf g.rnd
  match stageLane g.cls g.op with
  | some op => laneMap op ty rnd g.sat a b (inLanes (g.word g.skip))
  | none =>
    match g.cls with
    | 3 =>
      if g.op = 4 then pack ty.width ((List.range ty.lanes).map fun e =>
        if elem ty.width a e ≠ 0 then elem ty.width b e else 0)
      else pack ty.width ((List.range ty.lanes).map fun e =>
        clampLane ty (elem ty.width a e) (elem ty.width (inLanes (g.word g.skip)) e)
          (elem ty.width (inLanes (g.word (g.skip + 1))) e))
    | 7 => reduceParts (reduceOp g.op) ty g.md a
    | 8 =>
      let n := elem 32 b 0
      if g.op = 0 then permLanes (g.word g.skip + 2 ^ 32 * g.word (g.skip + 1)) a
      else pack ty.width ((List.range ty.lanes).map fun e =>
        elem ty.width a (if g.op = 1 then (e + n) % ty.lanes else n % ty.lanes))
    | 9 => whiskLanes ty rnd g.sat (2 ^ g.md) a
    | _ => a

/-! ## Convert (R187 to R189) -/

/-- Source type of cvt, by modifier [6:4] (R187). -/
def cvtSource (m : Nat) : Ty :=
  match m % 8 with
  | 0 => .f32 | 1 => .bf16 | 2 => .f16 | 3 => .e4m3 | 4 => .e5m2 | 5 => .s8 | 6 => .n8 | _ => .s32

/-- The floating type of modifier [5:4] of quant and dequant (R188, R189). -/
def quantSide (m : Nat) : Ty :=
  match m % 4 with
  | 0 => .f32 | 1 => .bf16 | _ => .f16

/-- The coordinate base of a keyed stage (R37). -/
def coordBase (g : StageCfg) : Nat := g.word (g.ext.length - 2) + 2 ^ 32 * nbits (g.word (g.ext.length - 1)) 15 0

/-- The key slot of a keyed stage (R37). -/
def keySlot (g : StageCfg) : Nat := nbits (g.word (g.ext.length - 1)) 18 16

/-- The draw of an element: zero unless the stage rounds by key (R81, R187). -/
def stageDraw (g : StageCfg) (key : KeyReg) (offset e : Nat) : Nat :=
  if g.rnd = 4 then (keyDraw key (BitVec.ofNat 48 (coordBase g + offset + e)) 0).toNat else 0

/-- Elements converted into one token (R187). -/
def cvtToken (g : StageCfg) (key : KeyReg) (offset : Nat) (es : List Nat) : Vec512 :=
  let dt := tyOf g.ty
  pack dt.width (es.zipIdx.map fun (x, e) =>
    convert (cvtSource g.md) dt (rndOf g.rnd) g.sat (stageDraw g key offset e) x)

/-- A data token (R160). -/
def dataTok (tag : Bool) (level : Nat) (seq : BitVec 24) (x : Vec512) : Tok :=
  { kind := .data, tag := tag, level := BitVec.ofNat 4 level, seq := seq, payload := x }

/-- The token of a narrowing cvt from its held inputs, the missing ones zero, with the level of the input that completes it
(R180, R187). -/
def narrowTok (g : StageCfg) (key : KeyReg) (held : List Tok) (tag : Bool) (level : Nat) (seq : BitVec 24) : Tok :=
  let st := cvtSource g.md
  let dt := tyOf g.ty
  let es := (held.flatMap fun k => elems st.width k.payload) ++ List.replicate dt.lanes 0
  dataTok tag level seq (cvtToken g key (seq.toNat * dt.lanes) (es.take dt.lanes))

/-- The parts of a widening cvt, each with the token's level (R180, R187). -/
def widenToks (g : StageCfg) (key : KeyReg) (k : Tok) : List Tok :=
  let st := cvtSource g.md
  let dt := tyOf g.ty
  (List.range (st.lanes / dt.lanes)).map fun j =>
    dataTok k.tag k.level.toNat k.seq (cvtToken g key (k.seq.toNat * st.lanes + j * dt.lanes)
      (((elems st.width k.payload).drop (j * dt.lanes)).take dt.lanes))

/-- Inputs that make one element token of quant (R188). -/
def quantRatio (g : StageCfg) : Nat := (tyOf g.ty).lanes / (quantSide g.md).lanes

/-- The element tokens of quant from groups of its inputs; `end_` is the sequence of a stream-end that flushes (R179, R188). -/
def quantGroup (g : StageCfg) (key : KeyReg) (held : List Tok) (tag : Bool) (end_ : Option (BitVec 24)) : List Tok :=
  let dst := tyOf g.ty
  let src := quantSide g.md
  let r := quantRatio g
  let groups := chunks r 4 held
  let made := groups.map fun ks =>
    let seq := end_.getD (((ks.getLast?).map Tok.seq).getD 0)
    let xs := ks.flatMap fun k => (elems src.width k.payload).map (value src)
    let xs := (xs ++ List.replicate dst.lanes (.fin false 0 0)).take dst.lanes
    let (scales, x) := quantToken dst (rndOf g.rnd) (stageDraw g key (seq.toNat * dst.lanes)) xs
    (scales, dataTok false 0 seq x)
  let first := ((made.head?).map fun m => m.2.seq).getD 0
  dataTok tag made.length first (pack 8 (made.map Prod.fst).flatten) :: made.map Prod.snd

/-- The parts of a dequant from element token number `n` of its group (R189, R180, R75). -/
def dequantToks (g : StageCfg) (key : KeyReg) (scale : Option Tok) (n : Nat) (k : Tok) : List Tok :=
  let st := tyOf g.ty
  let dt := quantSide g.md
  let xs := scaledElems st (scale.map Tok.payload) n k.payload
  let tag := k.tag || tokIllegal st k.payload || (match scale with
    | some s => s.tag
    | none => true)
  (List.range (st.lanes / dt.lanes)).map fun j =>
    let offset := k.seq.toNat * st.lanes + j * dt.lanes
    dataTok tag 0 k.seq (pack dt.width ((((xs.drop (j * dt.lanes)).take dt.lanes).zipIdx).map fun (x, e) =>
      roundTo dt (rndOf g.rnd) g.sat (stageDraw g key offset e) x))

/-! ## Dot (R190 to R192) -/

/-- The stage reads a scaled input: a dot or dequant with modifier bit 7 (R180). -/
def StageCfg.scaled (g : StageCfg) : Bool := 8 ≤ g.md && (g.cls = 6 || (g.cls = 5 && g.op = 2))

/-- The weights of a plane, element p is weight (p / 16, p mod 16) (R190, R191). -/
def planeWeights (ty : Ty) (scaled : Bool) (p : Plane) : List Num :=
  ((List.range 16).map fun j =>
    let x := (((p.toks[j]?).map Tok.payload).getD 0)
    if scaled then scaledElems ty (some (((p.scale.map Tok.payload).getD 0))) j x
    else (elems ty.width x).map (value ty)).flatten

/-- A plane holds a tagged token (R192). -/
def Plane.tagged (p : Plane) : Bool := p.toks.any Tok.tag || (match p.scale with
  | some k => k.tag
  | none => false)

/-- The 16 lanes of a dot firing (R192). -/
def dotResult (g : StageCfg) (p : Plane) (as : List Num) (b : Vec512) : Vec512 :=
  let ty := tyOf g.ty
  let ws := planeWeights ty (8 ≤ g.md) p
  let col := fun o => (as.zipIdx.map fun (a, i) => mulNum a (ws.getD (16 * i + o) (.fin false 0 0)))
  pack 32 ((List.range 16).map fun o => dotSum (col o ++ [value .f32 (elem 32 b o)]))

/-- The 16 lanes of an integer dot firing (R83, R192). -/
def dotInts (g : StageCfg) (p : Plane) (a b : Vec512) : Vec512 :=
  let ty := tyOf g.ty
  let ws := (p.toks.flatMap fun k => elems 8 k.payload).map (intVal ty)
  let as := (elems 8 a).map (intVal ty)
  pack 32 ((List.range 16).map fun o =>
    wrapInt 32 (sextNat 32 (elem 32 b o) + ((as.zipIdx.map fun (x, i) => x * ws.getD (16 * i + o) 0).sum)))

/-- A plane input takes one token, if it has one and the shadow plane is not complete (R191). -/
def absorbPlane (s : State) (l : TileLoc) (i : Nat) (g : StageCfg) : State :=
  let inp := Input.port (g.md % 8 - 1) 6
  let st := tgetD (s.tile l).stages i StageSt.start
  if st.shadow.complete then s else
  match inputHead s l inp with
  | none => s
  | some k =>
    let s := inputTake s l inp
    let s := if k.kind = .data && k.tag then noteStageCir s l st.marks 0 else s
    let put := fun (p : Plane) => s.modTile l fun t => { t with stages := tset t.stages i { st with shadow := p } }
    let p := st.shadow
    match k.kind with
    | .streamEnd => put { p with complete := true }
    | .data =>
      if 8 ≤ g.md && p.scale.isNone then put { p with scale := some k }
      else if p.toks.length < 16 then put { p with toks := p.toks ++ [k] }
      else put { p with surplus := true }
    | .marker => s
    | _ => noteStageCir (s.modCore l.core fun c => { c with joinDrops := c.joinDrops + 1 }) l st.marks 3

/-- An entry that only keeps the active plane (R191). -/
def Plane.keeps (p : Plane) : Bool := p.toks = [] && p.scale.isNone

/-- Take a complete entry: the new state of the planes, and whether its length is wrong (R191). -/
def takePlane (st : StageSt) : StageSt × Bool :=
  let p := st.shadow
  if p.keeps then ({ st with shadow := Plane.zero, planeDue := false }, false)
  else ({ st with active := p, shadow := Plane.zero, planeDue := false }, p.toks.length ≠ 16 || p.surplus)

/-! ## Sieve and accumulator (R197 to R199) -/

/-- An element is kept (R197). -/
def sieveKeeps (op : Nat) (ty : Ty) (a b : Nat) : Bool :=
  match op with
  | 0 =>
    if ty.isInt then 0 ≤ intVal ty a
    else (match value ty a with
      | .nan _ => false
      | .inf neg => !neg
      | .fin neg m _ => !neg || m = 0)
  | 1 =>
    if ty.isInt then a ≠ 0
    else (match value ty a with
      | .fin _ m _ => m ≠ 0
      | _ => true)
  | _ => b ≠ 0

/-- The result of a stage's firing: its new state, the tokens it emits in order, and whether CIR[3] is set, and CIR[0]. -/
structure Fired where
  st : StageSt
  out : List Tok
  mismatch : Bool
  poisoned : Bool := false

/-- The running count of a stage, held as the sequence of a token in its holding buffer or feedback slot (R177). -/
def heldCount (k : Option Tok) : Nat := (k.map fun k => k.seq.toNat).getD 0

/-- A sieve's firing; the token in its holding buffer has the number of its elements as sequence (R177, R197, R198). -/
def fireSieve (g : StageCfg) (st : StageSt) (a b : Vec512) (tag : Bool) (level : Nat) (seq : BitVec 24) : Fired :=
  let ty := tyOf g.ty
  let E := ty.lanes
  let kept := ((elems ty.width a).zip (elems ty.width b)).filterMap fun (x, y) => if sieveKeeps g.op ty x y then some x else none
  let res := ((st.hold.head?.map fun k => (elems ty.width k.payload).take k.seq.toNat).getD []) ++ kept
  let full : Bool := E ≤ res.length
  let left := if full then res.drop E else res
  let tag := tag || st.holdTag
  let c := st.sieve
  { st := { st with
      hold := if left = [] then [] else [dataTok false 0 (BitVec.ofNat 24 left.length) (pack ty.width left)],
      holdTag := if full then false else tag,
      sieve := { c with
        tokIn := c.tokIn + 1, tokOut := c.tokOut + (if full then 1 else 0), elIn := c.elIn + E,
        elOut := c.elOut + (if full then E else 0), dropped := c.dropped + (E - kept.length), resident := left.length,
        winIn := c.winIn + E, winKept := c.winKept + kept.length } },
    out := if full then [dataTok tag level seq (pack ty.width (res.take E))] else [], mismatch := false }

/-- An accumulator's firing: the running sum stands in the feedback slot, with the running count as its sequence (R177, R199,
R84). -/
def fireAcc (g : StageCfg) (st : StageSt) (a : Vec512) (tag : Bool) (level : Nat) (seq : BitVec 24) : Fired :=
  let ty := tyOf g.ty
  let n := nbits g.lastExt 15 0
  let old := ((st.fb.map Tok.payload).getD 0)
  let count := heldCount st.fb
  let sum := if count = 0 then a else laneMap .add ty .rn false old a 0
  let tag := tag || st.holdTag
  let keep := fun (m : Nat) => some (dataTok tag 0 (BitVec.ofNat 24 m) sum)
  if count + 1 = n then
    { st := { st with fb := keep 0, holdTag := false }, out := [dataTok tag level seq sum], mismatch := false }
  else { st := { st with fb := keep (count + 1), holdTag := tag }, out := [], mismatch := false }

/-! ## Cross-token whisk (R196) -/

/-- The distance of a cross-token whisk: the k-th of its pan pairs tokens at 2^(k-1) (R196). -/
def crossDistance (gs : List StageCfg) (i : Nat) : Nat := 2 ^ (crossWhisks (gs.take i) - 1)

/-- The sum or difference token of a pair, with the side-band of its position (R196). -/
def whiskTok (g : StageCfg) (op : LaneOp) (a b pos : Tok) : Tok :=
  { pos with kind := .data, payload := laneMap op (tyOf g.ty) (rndOf g.rnd) g.sat a.payload b.payload 0 }

/-- The holding buffer of a cross-token whisk: a token whose sequence is the position in the group, then the held tokens
(R177). -/
def crossHold (j : Nat) (ks : List Tok) : List Tok :=
  if j = 0 ∧ ks = [] then [] else { Tok.zero with seq := BitVec.ofNat 24 j } :: ks

/-- One token enters a cross-token whisk at distance D (R196). -/
def fireCross (g : StageCfg) (D : Nat) (st : StageSt) (k : Tok) : Fired :=
  let j := heldCount st.hold.head?
  let held := st.hold.tail
  if j < D then
    let due := j < held.length
    { st := { st with hold := crossHold (j + 1) ((if due then held.tail else held) ++ [k]) },
      out := if due then (held.head?).toList else [], mismatch := false }
  else
    let a := (held[j - D]?).getD Tok.zero
    { st := { st with hold := crossHold ((j + 1) % (2 * D)) (held.set (j - D) (whiskTok g .sub a k k)) },
      out := [whiskTok g .add a k a], mismatch := false }

/-- Feed tokens into a cross-token whisk; gives what it emits (R196). -/
def feedCross (g : StageCfg) (D : Nat) : List Tok → StageSt → List Tok × StageSt
  | [], st => ([], st)
  | k :: ks, st =>
    let f := fireCross g D st k
    let (out, st') := feedCross g D ks f.st
    (f.out ++ out, st')

/-- The end action of a cross-token whisk (R196). -/
def endCross (g : StageCfg) (D : Nat) (st : StageSt) (seq : BitVec 24) : List Tok × StageSt :=
  let j := heldCount st.hold.head?
  let zeros := if j = 0 then [] else List.replicate (2 * D - j) { Tok.zero with seq := seq }
  let (out, st') := feedCross g D zeros st
  (out ++ st'.hold.tail, { st' with hold := [] })

/-! ## The firing (R157, R178, R179) -/

/-- The launch's key register of a keyed stage (R81, R270). -/
def launchKey (s : State) (l : TileLoc) (slot : Nat) : KeyReg :=
  match (s.tile l).active with
  | some c => match s.launch? (l.core / 132) c.handle with
    | some x => (x.keys.toList[slot]?).getD KeyReg.none
    | none => KeyReg.none
  | none => KeyReg.none

/-- A firing on data: `a` and `b` are the heads of inputs A and B, the same one where one input serves both (R182 to R199). A
token made of constants and own feedback alone has sequence and level 0 (DESIGN CHOICE, log 88). -/
def fireData (gs : List StageCfg) (i : Nat) (g : StageCfg) (key : KeyReg) (st : StageSt) (a b : Option Tok) : Fired :=
  let first := a.or b
  let tag := (match a with
      | some k => k.tag
      | none => false) || (match b with
      | some k => k.tag
      | none => false)
  let seq := (first.map Tok.seq).getD 0
  let level := (first.map fun k => k.level.toNat).getD 0
  let A := operandOf g st g.srcA a
  let B := if g.srcB = 0 then 0 else operandOf g st g.srcB b
  let k := first.getD Tok.zero
  let one := fun (st : StageSt) (x : Tok) => ({ st := st, out := [x], mismatch := false } : Fired)
  match g.cls with
  | 5 =>
    match g.op with
    | 0 =>
      let sw := (cvtSource g.md).width
      let dw := (tyOf g.ty).width
      if sw = dw then
        one st (dataTok tag level seq (cvtToken g key (seq.toNat * (tyOf g.ty).lanes) (elems sw A)))
      else if sw < dw then { st := st, out := widenToks g key { k with payload := A }, mismatch := false }
      else
        let held := st.hold ++ [{ k with payload := A }]
        let tag := tag || st.holdTag
        if held.length = sw / dw then
          { st := { st with hold := [], holdTag := false }, out := [narrowTok g key held tag level seq], mismatch := false }
        else { st := { st with hold := held, holdTag := tag }, out := [], mismatch := false }
    | 1 =>
      let held := st.hold ++ [{ k with payload := A }]
      let tag := tag || st.holdTag
      if held.length = 4 * quantRatio g then
        { st := { st with hold := [], holdTag := false }, out := quantGroup g key held tag none, mismatch := false }
      else { st := { st with hold := held, holdTag := tag }, out := [], mismatch := false }
    | _ =>
      let scale := if st.leftA = 0 then none else st.scaleA
      let n := match st.scaleA with
        | some x => x.level.toNat - st.leftA
        | none => 0
      { st := { st with leftA := st.leftA - 1 }, out := dequantToks g key scale n { k with payload := A },
        mismatch := false }
  | 6 =>
    let ty := tyOf g.ty
    let (st, wrong) := if st.planeDue then takePlane st else (st, false)
    let scale := if st.leftA = 0 then none else st.scaleA
    let n := match st.scaleA with
      | some x => x.level.toNat - st.leftA
      | none => 0
    let tag := tag || st.active.tagged || (g.scaled && (tokIllegal ty A || (match scale with
      | some x => x.tag
      | none => true))) || (g.scaled && st.active.toks.any fun p => tokIllegal ty p.payload)
    let x := if !g.scaled && (g.ty = 6 || g.ty = 7) then dotInts g st.active A B
      else dotResult g st.active
        (if g.scaled then scaledElems ty (scale.map Tok.payload) n A else (elems ty.width A).map (value ty)) B
    { st := { st with leftA := if g.scaled then st.leftA - 1 else st.leftA }, out := [dataTok tag level seq x],
      mismatch := wrong }
  | 9 => if g.md = 4 then fireCross g (crossDistance gs i) st { k with payload := A }
         else one st (dataTok tag level seq (stageResult g A B))
  | 10 => fireSieve g st A B tag level seq
  | 11 => fireAcc g st A tag level seq
  | 0 => one st { k with payload := A }
  | _ => one st (dataTok tag level seq (stageResult g A B))

/-- The end action of a stage before it forwards a stream-end of level 1 or above: the tokens it emits and whether the
stream's length was wrong (R178, R187 to R199). -/
def endAction (gs : List StageCfg) (i : Nat) (g : StageCfg) (key : KeyReg) (st : StageSt) (seq : BitVec 24) : Fired :=
  match g.cls with
  | 5 =>
    if st.hold = [] then { st := st, out := [], mismatch := false }
    else if g.op = 0 then
      { st := { st with hold := [], holdTag := false }, out := [narrowTok g key st.hold st.holdTag 0 seq], mismatch := false }
    else { st := { st with hold := [], holdTag := false }, out := quantGroup g key st.hold st.holdTag (some seq),
           mismatch := false }
  | 9 =>
    if g.md = 4 then
      let (out, st') := endCross g (crossDistance gs i) st seq
      { st := st', out := out, mismatch := heldCount st.hold.head? ≠ 0 }
    else { st := st, out := [], mismatch := false }
  | 10 =>
    match st.hold with
    | k :: _ =>
      let c := st.sieve
      { st := { st with
          hold := [], holdTag := false,
          sieve := { c with tokOut := c.tokOut + 1, elOut := c.elOut + k.seq.toNat, resident := 0,
                            padded := c.padded + ((tyOf g.ty).lanes - k.seq.toNat) } },
        out := [dataTok st.holdTag 0 seq k.payload], mismatch := false }
    | [] => { st := st, out := [], mismatch := false }
  | 11 =>
    if heldCount st.fb = 0 then { st := st, out := [], mismatch := false }
    else { st := { st with fb := none, holdTag := false },
           out := [dataTok st.holdTag 0 seq (((st.fb.map Tok.payload).getD 0))], mismatch := true }
  | _ => { st := st, out := [], mismatch := false }

/-- A stage's output has a free slot (R155, R176). -/
def stageOutFree (s : State) (l : TileLoc) (i : Nat) (g : StageCfg) : Bool :=
  match g.out with
  | 0 => (tgetD (s.tile l).stages (i + 1) StageSt.start).slot.isNone
  | 1 => sourceFree s l 4 none
  | _ => true

/-- The last stage of a pan that fires: its emissions are the element's (R167, log 16). -/
def lastStage (gs : List StageCfg) : Nat :=
  ((positions (fun g => !g.idle) gs).getLast?.map (· + 1)).getD 0

/-- What a stage keeps of a token it emits: feedback, the scale and plane expectations, the ordinal of a marker (R175, R177,
R180, R191). An accumulator's feedback slot holds its sum, which fireAcc keeps. -/
def keepEmitted (g : StageCfg) (st : StageSt) (k : Tok) : StageSt :=
  match k.kind with
  | .data => if g.cls = 11 then st else { st with fb := some k }
  | .streamEnd =>
    let st := { st with leftA := 0 }
    if k.ends then { st with fb := none, planeDue := k.level ≠ 15 } else st
  | .marker => { st with marks := markerOrdinal k }
  | _ => st

/-- A stage emits a token (R157, R159, R167, R175, R274). -/
def stageEmit (s : State) (l : TileLoc) (gs : List StageCfg) (i : Nat) (g : StageCfg) (k : Tok) : State :=
  let t := s.tile l
  let k := emitTag t k
  let st := tgetD t.stages i StageSt.start
  let s := if k.kind = .marker then
      saveElement s l (markerOrdinal k) fun old => { old with stages := tset old.stages i st }
    else s
  let s := s.modTile l fun t =>
    { t with
      stages := tset t.stages i (keepEmitted g st k),
      ended := if k.last then nsAdd t.ended (100 + i) else t.ended,
      marks := if k.kind = .marker then markerOrdinal k else t.marks }
  let s := match g.out with
    | 0 => s.modTile l fun t => { t with stages := tmod t.stages (i + 1) StageSt.start fun x => { x with slot := some k } }
    | 1 => sourcePush s l 4 none k
    | _ => s
  noteFiring (if i = lastStage gs then chargeCredit s l k else s) l

/-- Emit the first of the tokens that a firing produced; the others wait in the holding buffer (R178). -/
def stageFinish (s : State) (l : TileLoc) (gs : List StageCfg) (i : Nat) (g : StageCfg) (f : Fired) : State :=
  let s := if f.mismatch then noteStageCir s l f.st.marks 3 else s
  let s := if f.poisoned then noteStageCir s l f.st.marks 0 else s
  match f.out with
  | [] => noteFiring (s.modTile l fun t => { t with stages := tset t.stages i f.st }) l
  | k :: r => stageEmit (s.modTile l fun t => { t with stages := tset t.stages i { f.st with outq := r } }) l gs i g k

/-- The chains that a stage's output waits for. -/
def stageChains (s : State) (l : TileLoc) (g : StageCfg) : List (List SwitchWord) :=
  if g.out = 1 then sourceChains (s.tile l) 4 none else []

/-- The stage may emit a token: its output has a free slot, and so has the done that the token sends (R157, R167). -/
def mayEmit (s : State) (l : TileLoc) (gs : List StageCfg) (i : Nat) (g : StageCfg) (k : Tok) : Bool :=
  stageOutFree s l i g && (i ≠ lastStage gs || doneFree s l k)

/-- Take a firing's heads and complete it, if its output allows (R157). -/
def stageTake (s : State) (l : TileLoc) (gs : List StageCfg) (i : Nat) (g : StageCfg) (ins : List Input) (f : Fired) : State :=
  if !(f.out.head?.all fun k => mayEmit s l gs i g k) then notePressed s l (stageChains s l g) else
  let s := ins.foldl (fun s x => inputTake s l x) s
  let slot := (tgetD (s.tile l).stages i StageSt.start).slot
  stageFinish s l gs i g { f with st := { f.st with slot := slot } }

/-- A firing on one non-data kind (R158, R161, R178). -/
def stageOther (s : State) (l : TileLoc) (gs : List StageCfg) (i : Nat) (g : StageCfg) (ins : List Input) (hs : List Tok) :
    State :=
  let st := tgetD (s.tile l).stages i StageSt.start
  match hs with
  | [] => s
  | h :: _ =>
    if h.kind = .control ∨ h.kind = .reserved then
      noteDrop (ins.foldl (fun s x => inputTake s l x) s) l
    else
      let k := { h with tag := hs.any Tok.tag }
      if h.ends then
        let f := endAction gs i g (launchKey s l (keySlot g)) st h.seq
        stageTake s l gs i g ins { f with out := f.out ++ [k] }
      else stageTake s l gs i g ins { st := st, out := [k], mismatch := false }

/-- The stage is quant (R188). -/
def StageCfg.isQuant (g : StageCfg) : Bool := g.cls = 5 && g.op = 1

/-- The tag of a token that a stage consumes goes to the next token that it emits (R179). -/
def tagFirst : List Tok → List Tok
  | [] => []
  | k :: r => { k with tag := true } :: r

/-- quant takes a data token into its holding buffer, or, where its source is the constant or its own feedback, that operand,
which never holds it back (R175); the tokens of a complete group wait to be emitted, the scale token in a firing of its own and
the others beside the next group's inputs (R188, R200). A tagged token that is taken while tokens of the former group wait tags
the next of those (R179). -/
def quantTake (s : State) (l : TileLoc) (gs : List StageCfg) (i : Nat) (g : StageCfg) : State :=
  let ins := namedInputs (s.tile l) i g
  let hs := ins.map (inputHead s l)
  if joinHeads hs ≠ .data then s else
  let k := hs.head?.join
  let s := ins.foldl (fun s x => inputTake s l x) s
  let st := tgetD (s.tile l).stages i StageSt.start
  let early := k.any Tok.tag && st.outq ≠ []
  let f := fireData gs i g (launchKey s l (keySlot g)) st (if early then k.map fun k => { k with tag := false } else k) none
  let s := if k.any Tok.tag then noteStageCir s l st.marks 0 else s
  s.modTile l fun t => { t with stages := tset t.stages i { f.st with outq := (if early then tagFirst st.outq else st.outq) ++ f.out } }

/-- A stage whose heads call for action (R157, R158, R180, R191); one that consumes a tagged data token notes CIR[0] (R142). -/
def stageAct (s : State) (l : TileLoc) (gs : List StageCfg) (i : Nat) (g : StageCfg) : State :=
  let t := s.tile l
  let st := tgetD t.stages i StageSt.start
  let ins := namedInputs t i g
  let hs := ins.map (inputHead s l)
  let scaleHead := match ins, hs with
    | x :: _, some k :: _ => if g.scaled && k.kind = .data && k.level ≠ 0 then some (x, k) else none
    | _, _ => none
  match scaleHead with
  | some (x, k) =>
    let s := (inputTake s l x).modTile l fun t =>
      { t with stages := tmod t.stages i StageSt.start fun y => { y with scaleA := some k, leftA := k.level.toNat } }
    if k.tag then noteStageCir s l st.marks 0 else s
  | none =>
    match joinHeads hs with
    | .wait starved => if starved then noteStarved s l else s
    | .drop is => is.foldl (fun s n => match ins[n]? with
        | some x => noteDrop (inputTake s l x) l
        | none => s) (noteFiring s l)
    | .same => stageOther s l gs i g ins (hs.filterMap id)
    | .data =>
      if g.cls = 6 && st.planeDue && !st.shadow.complete then noteStarved s l
      else if g.isQuant then noteFiring (quantTake s l gs i g) l else
      let a := if 1 ≤ g.srcA ∧ g.srcA ≤ 5 then (hs.head?).join else none
      let b := if 1 ≤ g.srcB ∧ g.srcB ≤ 5 then (hs.getLast?).join else none
      stageTake s l gs i g ins
        { fireData gs i g (launchKey s l (keySlot g)) st a b with poisoned := hs.any fun k => k.any Tok.tag }

/-- STAGE_FIRING: one island clock of a pan stage (R157). -/
def execStageFiring (l : TileLoc) (i : Nat) (s : State) : Result :=
  let t := s.tile l
  match t.active with
  | none => .next s
  | some c =>
    match c.kind with
    | .pan gs =>
      match gs[i - 1]? with
      | none => .next s
      | some g =>
        if i = 0 ∨ g.idle ∨ !governedOk t then .next s else
        let s := if g.cls = 6 then absorbPlane s l i g else s
        let st := tgetD (s.tile l).stages i StageSt.start
        match st.outq with
        | k :: r =>
          if mayEmit s l gs i g k then
            let s := stageEmit (s.modTile l fun t => { t with stages := tset t.stages i { st with outq := r } }) l gs i g k
            .next (if g.isQuant ∧ k.level = 0 ∧ st.outq.all (·.kind = .data) then quantTake s l gs i g else s)
          else .next (notePressed s l (stageChains s l g))
        | [] => .next (stageAct s l gs i g)
    | _ => .next s

end Sys2Proof.Machine
end

