-- ==== Sys2Proof/Machine/Pots.lean ====
section
/-! DEFINITION. Switch words that forward (R153, R162), boundary exchanges (R243), and the mode elements of pots: scratchpad
(R205, R206), stream buffer (R207, R208), atomic pipeline (R209 to R211), mandoline (R212 to R214), with what sinks do with
tagged tokens (R234). -/

namespace Sys2Proof.Machine

open Sys2Proof

/-! ## Switches and boundaries -/

/-- A pass-through tile notes the markers that pass it (R143). -/
def passMark (s : State) (l : TileLoc) (k : Tok) : State :=
  s.modTile l fun t =>
    if k.kind == .marker && (match t.active with
        | some c => c.kind == .pass
        | none => false) then { t with marks := markerOrdinal k } else t

/-- A token is dropped at the receiving switch of a boundary link: its counter (R162, R259). -/
def noteBoundDrop (s : State) (l : TileLoc) (port vc : Nat) : State :=
  match neighbour l port with
  | some n =>
    let key := linkKey (facing port) vc
    if n.core = l.core then s else s.modTile n fun t =>
      { t with bounds := tset t.bounds key { t.bound key with dropped := (t.bound key).dropped + 1 } }
  | none => s

/-- SWITCH_FORWARD: a chain forwards the head of its port, or drops it (R153, R161, R162). -/
def execSwitchForward (l : TileLoc) (word : Nat) (s : State) : Result :=
  match (chainsOf (s.tile l).words).find? fun (i, _) => i = word with
  | some (_, w :: r) =>
    if 4 ≤ w.src then .next s else
    match portHead s routeFuel l w.src w.vc with
    | none => .next s
    | some k =>
      if misplaced k w.vc then
        match portTake routeFuel s l w.src w.vc with
        | some (_, s) => .next (noteDrop (noteBoundDrop s l w.src w.vc) l)
        | none => .next s
      else if chainFree s l (w :: r) then
        match portTake routeFuel s l w.src w.vc with
        | some (k, s) => .next (passMark (chainPush s l (w :: r) k) l k)
        | none => .next s
      else .next (noteFull s l [w :: r])
  | _ => .next s

/-- The counters of a network channel's sender (R171, R243). -/
def networkKey : Nat := 64

/-- OCCUPANCY_EXCHANGE: the sender of a boundary link learns how many of its tokens have been taken (R243); word 12 names the
network channel of an edge node. -/
def execOccupancyExchange (l : TileLoc) (word : Nat) (s : State) : Result :=
  let learn := fun (key : Nat) => s.modTile l fun t =>
    { t with bounds := tset t.bounds key { t.bound key with takenKnown := (t.bound key).taken } }
  match (s.tile l).words[word]? with
  | some w => .next (if w.dest < 4 ∧ crosses l w.dest then learn (linkKey w.dest w.vc) else s)
  | none => .next (if word = 12 ∧ 96 ≤ l.tile then learn networkKey else s)

/-! ## Pots -/

/-- The mode of a pot. -/
def potMode (t : Tile) : Option PotMode :=
  match t.active with
  | some c => match c.kind with
    | .pot m => some m
    | _ => none
  | none => none

/-- The first byte of a pot's memory in its core (R202). -/
def potBase (tile : Nat) : Nat := potIndex tile * 2 ^ 17

/-- Change a pot's element state. -/
def modPot (s : State) (l : TileLoc) (f : PotSt → PotSt) : State := s.modTile l fun t => { t with pot := f t.pot }

/-- The input of local channel v (R153). -/
def localChannel (t : Tile) (v : Nat) : Option Input := localInput t 6 v

/-- The head of local channel v. -/
def localHead (s : State) (l : TileLoc) (v : Nat) : Option Tok := (localChannel (s.tile l) v).bind (inputHead s l)

/-- Take the head of local channel v; a stream-end of level 15 ends the channel (R205, R229). -/
def localTake (s : State) (l : TileLoc) (v : Nat) (k : Tok) : State :=
  match localChannel (s.tile l) v with
  | some i => markTaken (inputTake s l i) l (linkKey 6 v) k
  | none => s

/-- Local channels that a route drives, in the order of the switch words that drive them (R158, R205). -/
def drivenChannels (t : Tile) : List Nat :=
  let vs := (t.words.filterMap fun w => if w.dest = 6 && w.vc < 7 then some w.vc else none).eraseDups
  vs.filter fun v => match driverChain t 6 v with
    | some (w :: _, _) => w.src ≠ 6
    | _ => false

/-! ## Tagged tokens at sinks (R234) -/

/-- An element has the counts 1, 1, 1 and reads neither own feedback nor a holding buffer (R200, R234). -/
def statelessStage (g : StageCfg) : Bool :=
  g.srcA ≠ 7 && g.srcB ≠ 7 &&
  (match g.cls with
   | 0 | 1 | 2 | 3 | 4 | 7 | 8 => true
   | 5 => g.op = 0 && (cvtSource g.md).width = (tyOf g.ty).width
   | 6 => g.md < 8
   | 9 => g.md < 4
   | _ => false)

/-- Where a token at an input may come from on a path that R234 traces back: the spouts, or none when the path is stateful.
The places still to trace are a port's channel of a tile, or the output of a tile's stage. -/
inductive Place0 where
  | port (l : TileLoc) (p vc : Nat)
  | chain (l : TileLoc) (c : List SwitchWord)
  | stage (l : TileLoc) (i : Nat)
deriving DecidableEq, Repr

/-- The places before an element's inputs. -/
def beforeInput (l : TileLoc) : Input → List Place0
  | .port p v => [.port l p v]
  | .queue _ => []
  | .through c _ => [.chain l c]
  | .prev i => [.stage l (i - 1)]

/-- The places before an input that a switch word feeds. -/
def beforeLocal (t : Tile) (l : TileLoc) (dest vc : Nat) : List Place0 :=
  match driverChain t dest vc with
  | some (c, _) => [.chain l c]
  | none => []

/-- One step back: the reading spouts reached and the places before, or none where the path is stateful, or leads through a tile
that does not run the sink's graph `h`, whose paths are those of its load (R234). -/
def stepBack (s : State) (h : Nat) : Place0 → Option (List TileLoc × List Place0)
  | .port l p v =>
    match neighbour l p with
    | none => none
    | some n =>
      if (s.tile n).active.map TileCfg.handle ≠ some h then none
      else if 96 ≤ n.tile then
        (match (s.tile n).active with
         | some c => match c.kind with
           | .edge (.spout false _ _ _ _ _) => some ([n], [])
           | _ => none
         | none => none)
      else match driverChain (s.tile n) (facing p) v with
        | some (c, _) => some ([], [.chain n c])
        | none => none
  | .chain l c =>
    match c with
    | w :: _ =>
      if w.src < 4 then some ([], [.port l w.src w.vc])
      else if w.src = 4 then some ([], [.stage l 6])
      else if w.src = 5 then
        (match potMode (s.tile l) with
         | some (.stream _ pre) =>
           if pre = [] then (match ((s.tile l).words.find? fun x => x.dest = 6) with
             | some x => some ([], beforeLocal (s.tile l) l 6 x.vc)
             | none => none) else none
         | _ => none)
      else none
    | [] => none
  | .stage l i =>
    match (s.tile l).active with
    | some c => match c.kind with
      | .pan gs => match gs[i - 1]? with
        | some g =>
          if !statelessStage g then none else
          let t := s.tile l
          let one := fun (code dest : Nat) => match stageInput t i code dest with
            | some (.queue _) => match selectedWord t.words dest (code - 1) with
              | some w => beforeLocal t l w.dest w.vc
              | none => []
            | some x => beforeInput l x
            | none => []
          some ([], (one g.srcA 4 ++ one g.srcB 5).dedup)
        | none => none
      | _ => none
    | none => none

/-- The reading spouts behind places, when every path is stateless (R234). -/
def spoutsBehind (s : State) (h : Nat) : Nat → List Place0 → Option (List TileLoc)
  | 0, _ => none
  | _ + 1, [] => some []
  | fuel + 1, x :: xs =>
    match stepBack s h x with
    | none => none
    | some (found, more) => (spoutsBehind s h fuel (more ++ xs)).map (found ++ ·)

/-- The inputs of a place no longer count as ended (R234). -/
def reopenAt (s : State) : Place0 → State
  | .port l p v => s.modTile l fun t => { t with ended := nsDel t.ended (linkKey p v) }
  | .chain l c => s.modTile l fun t =>
      { t with ended := (fun e => if (c.head?.map SwitchWord.src) = some 5 then nsDel e 100 else e)
                 ((c.filter fun w => 4 ≤ w.dest).foldl (fun e w => nsDel e (linkKey w.dest w.vc)) t.ended) }
  | .stage l i => s.modTile l fun t => { t with ended := nsDel t.ended (100 + i) }

/-- A stream-end of level 15 that is discarded is emitted again: every input behind these places that it has passed takes tokens
again until it does (R234). -/
def reopenBack (h : Nat) : Nat → List Place0 → State → State
  | 0, _, s => s
  | _ + 1, [], s => s
  | fuel + 1, x :: xs, s => match stepBack s h x with
    | some (_, more) => reopenBack h fuel (more ++ xs) (reopenAt s x)
    | none => reopenBack h fuel xs (reopenAt s x)

/-- What a sink does with a tagged data token: the spouts that are asked to emit again from its sequence, or none when the
discard is final (R234). `times` is how often this sequence has arrived tagged. -/
def repairFrom (s : State) (h : Nat) (places : List Place0) (n : BitVec 24) (times : Nat) : Option (List TileLoc) :=
  if 3 ≤ times then none else
  match spoutsBehind s h 1024 places with
  | some (x :: xs) =>
    if (x :: xs).all fun e => (s.tile e).edge.window.any fun k => k.kind = .data && k.seq = n then some (x :: xs) else none
  | _ => none

/-- Ask spouts to emit again from a sequence (R234). -/
def askRepair (s : State) (es : List TileLoc) (n : BitVec 24) : State :=
  let earlier := fun (e : EdgeSt) => match e.reinject with
    | some m => if (e.window.find? fun k => k.kind = .data && (k.seq = n || k.seq = m)).any (·.seq = m) then m else n
    | none => n
  es.foldl (fun s e => s.modTile e fun t => { t with edge := { t.edge with reinject := some (earlier t.edge) } }) s

/-- A discard that is repaired is counted (R234). -/
def noteRepair (s : State) (l : TileLoc) : State := s.modCore l.core fun c => { c with repaired := c.repaired + 1 }

/-- A final discard is counted and sets CIR[1] (R234). -/
def noteFinal (s : State) (l : TileLoc) (marks : Nat) : State :=
  noteStageCir (s.modCore l.core fun c => { c with finals := c.finals + 1 }) l marks 1

/-- The count of tagged arrivals of a sequence on a channel. -/
def taggedTimes (once : List (Nat × Nat)) (key : Nat) : Nat := ((once.find? fun (k, _) => k = key).map Prod.snd).getD 0
/-- Write the count. -/
def setTagged (once : List (Nat × Nat)) (key n : Nat) : List (Nat × Nat) :=
  (once.filter fun (k, _) => k ≠ key) ++ (if n = 0 then [] else [(key, n)])

/-- What a sink remembers under R234: the sequence it awaits, and how often a sequence has arrived tagged. -/
structure SinkMemo where
  await : Option (BitVec 24)
  once : List (Nat × Nat)
deriving DecidableEq, Repr

/-- What a sink does with a token (R234): it acts on it, drops it because it comes again, or drops it for good. -/
inductive Verdict0 where
  | takes
  | again
  | lost
deriving DecidableEq, Repr

/-- The decision of R234 on a token: the state, what the sink remembers, and what becomes of the token. -/
def sinkDecide (s : State) (l : TileLoc) (marks : Nat) (places : List Place0) (m : SinkMemo) (ch : Nat) (k : Tok) :
    State × SinkMemo × Verdict0 :=
  let key := ch * 2 ^ 24 + k.seq.toNat
  let h := tileHandle (s.tile l)
  let awaited := match m.await with
    | some n => k.seq = n
    | none => true
  if !awaited then (if k.last then reopenBack h 1024 places s else s, m, .again)
  else if k.kind = .data && k.tag then
    let times := taggedTimes m.once key + 1
    match repairFrom s h places k.seq times with
    | some es => (noteRepair (askRepair s es k.seq) l, { await := some k.seq, once := setTagged m.once key times }, .again)
    | none => (noteFinal s l marks, { await := none, once := setTagged m.once key 0 }, .lost)
  else (s, { await := none, once := setTagged m.once key 0 }, .takes)

/-! ## Duplicated sinks (R235) -/

/-- What duplicate placement makes of a sink: nothing, the sink of copy B, the sink of copy A with its partner, or a sink that
writes nothing more after a disagreement. -/
inductive SinkRole where
  | plain
  | copyB
  | copyA (partner : TileLoc)
  | halted
deriving DecidableEq, Repr

/-- The role of a sink (R235). -/
def sinkRole (s : State) (l : TileLoc) : SinkRole :=
  match (s.tile l).active with
  | none => .plain
  | some c =>
    let cl := l.core / 132
    match s.handle? cl c.handle with
    | none => .plain
    | some h =>
      if h.duplicate.isNone then .plain
      else if ((s.launch? cl c.handle).map Launch.halted).getD false then .halted
      else match h.entries[c.entry]? with
        | some e =>
          if e.copyB then .copyB
          else match h.entries[c.entry + h.entries.length / 2]? with
            | some p => .copyA p.loc
            | none => .plain
        | none => .plain

/-- Two tokens agree (R235). Markers that the copies inject at different positions differ as any other tokens do (DESIGN CHOICE,
log 89). -/
def agree (a b : Tok) : Bool := a.payload = b.payload && a.kind = b.kind && a.seq = b.seq

/-- The first disagreement: nothing more is written, CIR[2], and a marker from every source (R235). -/
def mismatch (s : State) (l : TileLoc) (marks : Nat) : State :=
  match (s.tile l).active with
  | none => s
  | some c =>
    let cl := l.core / 132
    let s := noteStageCir s l marks 2
    let s := markLaunch s cl c.handle
    match s.launch? cl c.handle with
    | some x => s.setLaunch cl c.handle { x with halted := true }
    | none => s

/-! ## Scratchpad (R205, R206) -/

/-- The byte count of an end-of-tile token (R206). -/
def tileBytes (k : Tok) : Nat := k.payload.toNat % 2 ^ 64
/-- The bytes that R206 makes zero are zero. -/
def tileClean (k : Tok) : Bool := k.payload.toNat / 2 ^ 96 = 0

/-- The cursor of channel v (R205). -/
def cursorOf (p : PotSt) (v : Nat) : Nat := tgetD p.cursors v (0x4000 * v)
/-- The cursor after a token (R205). -/
def nextCursor (v c : Nat) : Nat := 0x4000 * v + (c + 64) % 0x4000

/-- Every driven channel has shown a marker: the ordinal that the sink holds (R274). -/
def sinkMarks (t : Tile) : Nat :=
  match drivenChannels t with
  | [] => 0
  | v :: r => r.foldl (fun m x => Nat.min m (tgetD t.pot.marked x 0)) (tgetD t.pot.marked v 0)

/-- The four granules of a token of a pot are poisoned, or not (R203). -/
def setPoison (s : State) (core a : Nat) (on : Bool) : State := s.modCore core fun c =>
  { c with poisoned := [0, 1, 2, 3].foldl (fun p d => if on then nsAdd p (a / 16 + d) else nsDel p (a / 16 + d)) c.poisoned }

/-- A data token at its cursor: written whole, its granules full, their waiters woken, their poison clear; of a tagged token, whose
discard is final, the granules are full and poisoned, and no byte is written (R203, R205, R234, log 27). A pot element is no agent
of R147's table, so that no watchpoint reports its writes (log 60). -/
def scratchData (s : State) (l : TileLoc) (v : Nat) (k : Tok) : State :=
  let c := cursorOf (s.tile l).pot v
  let a := potBase l.tile + c
  let s := if k.tag then setPoison s l.core a true else potStore s l.core a (tokBytes k.payload)
  let s := [0, 16, 32, 48].foldl (fun s d => s.fill l.core (a + d)) s
  modPot s l fun p => { p with cursors := tset p.cursors v (nextCursor v c) }

/-- An end-of-tile token arrives at the pot's barrier (R205, R206). -/
def scratchTile (s : State) (l : TileLoc) (v : Nat) (k : Tok) : State :=
  let s := barrierArrive s l.core (potBase l.tile + 0x1FFF0) (tileBytes k)
  if tileClean k then s else noteStageCir s l (tgetD (s.tile l).pot.marked v 0) 3

/-- The non-data kinds that a scratchpad forwards or consumes (R205); a marker is remembered by its channel. -/
def scratchOther (s : State) (l : TileLoc) (v : Nat) (k : Tok) : State :=
  let s := if k.kind = .marker then
      let s := modPot s l fun p => { p with marked := tset p.marked v (markerOrdinal k) }
      let t := s.tile l
      let m := sinkMarks t
      if t.marks < m then
        (saveElement s l m fun old => { old with pot := t.pot }).modTile l fun t => { t with marks := m }
      else s
    else s
  let t := s.tile l
  if sourceChains t 5 (some v) = [] then s else chargeCredit (sourcePush s l 5 (some v) k) l k

/-- What a scratchpad does with a token of a channel has the slots that it needs, and its credit (R157, R167, R205). -/
def scratchFree (s : State) (l : TileLoc) (v : Nat) (k : Tok) : Bool :=
  k.kind = .data || k.kind = .endOfTile || (sourceFree s l 5 (some v) && doneFree s l k)

/-- A channel's head can be acted on: what it forwards has a free slot (R205), and its partner, which may fire, has a token that
can be acted on too (R167, R235). -/
def scratchReady (s : State) (l : TileLoc) (v : Nat) : Bool :=
  match localHead s l v with
  | none => false
  | some k =>
    scratchFree s l v k &&
    (match sinkRole s l with
     | .copyA p => governedOk (s.tile p) && (localHead s p v).any (scratchFree s p v)
     | .copyB => false
     | _ => true)

/-- Channels in the order in which a scratchpad visits them (R205). -/
def scratchOrder (t : Tile) : List Nat := (List.range 7).map fun d => (t.pot.lastVc + 1 + d) % 7

/-- The channels that a scratchpad passes over for want of a slot, before the one it serves, are back-pressured (R205, R255). -/
def scratchPressed (s : State) (l : TileLoc) : State :=
  let late := ((scratchOrder (s.tile l)).takeWhile fun v => !scratchReady s l v).filter fun v =>
    (localHead s l v).any fun k => !scratchFree s l v k
  if late = [] then s else notePressed s l (late.flatMap fun v => sourceChains (s.tile l) 5 (some v))

/-- What a sink that writes nothing more does with a token: it passes on what is neither data nor an end of tile (R205, R235). -/
def scratchPass (s : State) (l : TileLoc) (v : Nat) (k : Tok) : State :=
  if k.kind = .data ∨ k.kind = .endOfTile then s else scratchOther s l v k

/-- A scratchpad acts on a token, and on a duplicated graph its partner on the one that agrees with it; a repair asks the spouts of
both copies (R205, R206, R234, R235). -/
def scratchTake (s : State) (l : TileLoc) (v : Nat) (k : Tok) (other : Option (TileLoc × Tok)) : State :=
  let p := (s.tile l).pot
  let behind := fun (l : TileLoc) => beforeLocal (s.tile l) l 6 v
  let (s, m, verdict) := sinkDecide s l (tgetD p.marked v 0) (behind l ++ (other.map fun (p, _) => behind p).getD [])
    { await := tget p.awaitSeq v, once := p.taggedOnce } v k
  let s := modPot s l fun p =>
    { p with
      awaitSeq := match m.await with
        | some n => tset p.awaitSeq v n
        | none => tdel p.awaitSeq v,
      taggedOnce := m.once }
  if verdict = .again then s else
  let s := other.elim s fun (p, k') => scratchPass s p v k'
  match k.kind with
    | .data => scratchData s l v k
    | .endOfTile => scratchTile s l v k
    | _ => scratchOther s l v k

/-- SCRATCHPAD_WRITE: one head, channels in cyclic order after the one served last; on a disagreement neither copy's token is
written, and what else the sinks hold they hold (R205, R234, R235). -/
def execScratchpadWrite (l : TileLoc) (s : State) : Result :=
  let t := s.tile l
  match potMode t with
  | some (.scratch _) =>
    if !governedOk t then .next s else
    match (scratchOrder t).find? (scratchReady s l) with
    | none => .next (scratchPressed s l)
    | some v =>
      match localHead s l v with
      | none => .next s
      | some k =>
        let s := scratchPressed s l
        let s := modPot (noteFiring (localTake s l v k) l) l fun p => { p with lastVc := v }
        match sinkRole s l with
        | .plain => .next (scratchTake s l v k none)
        | .halted => .next (scratchPass s l v k)
        | .copyB => .next s
        | .copyA p =>
          match localHead s p v with
          | none => .next s
          | some k' =>
            let s := localTake s p v k'
            if !agree k k' then
              .next (scratchPass (scratchPass (mismatch s l (tgetD (s.tile l).pot.marked v 0)) l v k) p v k')
            else .next (scratchTake s l v k (some (p, k')))
  | _ => .next s

/-! ## Stream buffer (R207, R208) -/

/-- The push word of a stream buffer (R207). -/
def pushWord (t : Tile) : Option SwitchWord := t.words.find? fun w => w.dest = 6
/-- Its push route has source none: the pot is a source (R219, R273). -/
def isSourcePot (t : Tile) : Bool := match pushWord t with
  | some w => w.src = 6
  | none => false
/-- It has no pop port: an egress pot (R325). -/
def isEgressPot (t : Tile) : Bool := sourceChains t 5 none = []

/-- The space count of a stream buffer (R207, R208). -/
def spaceOf (t : Tile) : Nat := match potMode t with
  | some (.stream cap _) => cap - t.pot.fifo.length
  | _ => 0

/-- The granules of a token's place in a pot. -/
def placeFoul (s : State) (l : TileLoc) (place : Nat) : Bool :=
  [0, 1, 2, 3].any fun d => nsMem (s.core l.core).poisoned (potBase l.tile / 16 + 4 * place + d)

/-- A token is stored at a place of a pot: its granules are written whole (R203). -/
def storePlace (s : State) (l : TileLoc) (place : Nat) : State := setPoison s l.core (potBase l.tile + 64 * place) false

/-- The capacity of a stream buffer (R207). -/
def streamCap (t : Tile) : Nat := match potMode t with
  | some (.stream cap _) => cap
  | _ => 1

/-- A token is stored in a stream buffer, in the next of its places in the pot's banks (R203, R207, log 76). -/
def bufferStore (s : State) (l : TileLoc) (k : Tok) : State :=
  let t := s.tile l
  modPot (storePlace s l (t.pot.pushed % streamCap t)) l fun p => { p with fifo := p.fifo ++ [k], pushed := p.pushed + 1 }

/-- The next token that a stream buffer pops, and the element state after it (R207, R208). -/
def popNext (p : PotSt) : Option (Tok × PotSt) :=
  if 0 < p.row then
    match p.fifo with
    | k :: r => some (k, { p with fifo := r, row := p.row - 1 })
    | [] => none
  else match p.preloadEnd with
    | some k => some (k, { p with preloadEnd := none })
    | none => match p.fifo with
      | k :: r => some (k, { p with fifo := r })
      | [] => none

/-- The next token leaves a stream buffer; read from a poisoned place it is tagged, and CIR[0] noted (R142, R203, R207). -/
def bufferPop (s : State) (l : TileLoc) : Option (Tok × State) :=
  let t := s.tile l
  (popNext t.pot).map fun (k, p) =>
    let foul := p.fifo.length ≠ t.pot.fifo.length && placeFoul s l ((t.pot.pushed - t.pot.fifo.length) % streamCap t)
    let s := modPot s l fun _ => p
    if foul then ({ k with tag := true }, noteStageCir s l t.marks 0) else (k, s)

/-- A token enters a source's stream buffer with the next sequence number of its stream (R273). -/
def pushSource (s : State) (l : TileLoc) (k : Tok) : State :=
  (bufferStore s l { k with seq := (s.tile l).injected }).modTile l fun t => { t with injected := t.injected + 1 }

/-- A stream port is bound to a pot of the graph that the tile runs: near end 1 at this tile, with the handle and the generation
that its descriptor names (R362). -/
def portMeets (s : State) (l : TileLoc) (p : StreamPort) : Bool :=
  bits p.desc 31 30 = 1 && p.edge.tile = l.core && p.edge.pos = l.tile &&
  (s.tile l).active.map TileCfg.handle = some (bits p.desc 41 32) && tgetD (s.cluster (l.core / 132)).handleGens (bits p.desc 41 32) 1 = bits p.desc 50 43

/-- Take a token of the stream port that is bound to a source pot, if there is one (R362). -/
def portFeed (s : State) (l : TileLoc) : Option (Tok × State) :=
  s.fabric.ports.findSome? fun (n, p) =>
    if portMeets s l p ∧ !p.send then
      match p.buffer with
      | (_, k) :: r => some (k, retrySources (s.setPort n { p with buffer := r }))
      | [] => none
    else none

/-- STREAM_BUFFER_PUSH: a pushed token is stored when there is space (R207); a source takes from its stream port (R362). -/
def execStreamBufferPush (l : TileLoc) (s : State) : Result :=
  let t := s.tile l
  match potMode t, pushWord t with
  | some (.stream _ _), some w =>
    if spaceOf t = 0 ∨ !governedOk t then .next s
    else if w.src = 6 then
      (if sourceStopped s l then .next s else match portFeed s l with
       | some (k, s) => .next (noteFiring (pushSource s l k) l)
       | none => .next s)
    else
      match localHead s l w.vc with
      | none => .next s
      | some k =>
        .next (noteFiring (bufferStore (localTake s l w.vc k) l k) l)
  | _, _ => .next s

/-- A marker passes a stream buffer: a source's tokens are its stream's; another's come again from before it (R274). -/
def saveStream (s : State) (l : TileLoc) (k : Tok) : State :=
  let t := s.tile l
  let keep : PotSt := if isSourcePot t then t.pot else { t.pot with fifo := [], preloadEnd := none, row := 0 }
  (saveElement s l (markerOrdinal k) fun old => { old with pot := keep, injected := t.injected }).modTile l fun t =>
    { t with marks := markerOrdinal k }

/-- An egress pot's next token leaves its buffer, if the element may fire and the done that the token sends has a free slot
(R157, R167, R229, R274). -/
def egressPop (s : State) (l : TileLoc) : Option (Tok × State) :=
  match bufferPop s l with
  | some (k, s') => if governedOk (s.tile l) && doneFree s l k then some (k, s') else none
  | none => none

/-- An egress pot emits a token, and holds it if it is a marker or the end of its stream (R167, R234, R274, R325). -/
def egressHold (s : State) (l : TileLoc) (k : Tok) : State :=
  let s := if k.last then s.modTile l fun t => { t with ended := nsAdd t.ended 100 } else s
  chargeCredit (if k.kind = .marker then saveStream s l k else s) l k

/-- The places before an egress pot. -/
def behindEgress (s : State) (l : TileLoc) : List Place0 := match pushWord (s.tile l) with
  | some w => beforeLocal (s.tile l) l 6 w.vc
  | none => []

/-- What an egress pot, as a sink, does with its next token: the token to publish, if it is to be published (R234, R235,
R325); none while it has no token that it can act on. -/
def egressTake (s : State) (l : TileLoc) : Option (Option Tok × State) :=
  match egressPop s l with
  | none => none
  | some (k, s) =>
    let decided := fun (s : State) (other : Option (TileLoc × Tok)) =>
      let p := (s.tile l).pot
      let behind := behindEgress s l ++ (other.map fun (p, _) => behindEgress s p).getD []
      let (s, m, verdict) := sinkDecide s l (s.tile l).marks behind { await := tget p.awaitSeq 0, once := p.taggedOnce } 0 k
      let s := modPot s l fun p =>
        { p with
          awaitSeq := match m.await with
            | some n => tset p.awaitSeq 0 n
            | none => tdel p.awaitSeq 0,
          taggedOnce := m.once }
      if verdict = .again then (none, s) else
      let s := other.elim s fun (p, k') => egressHold s p k'
      if verdict = .takes then (some k, egressHold s l k) else (none, s)
    match sinkRole s l with
    | .plain => some (decided s none)
    | .halted => some (none, egressHold s l k)
    | .copyB => none
    | .copyA p =>
      match egressPop s p with
      | none => none
      | some (k', s) =>
        if agree k k' then some (decided s (some (p, k')))
        else some (none, egressHold (egressHold (mismatch s l (s.tile l).marks) l k) p k')

/-- A token leaves through a sending stream port (R357, R362, log 10). -/
def portSend (s : State) (n : Nat) (p : StreamPort) (ctx : Nat) (k : Tok) : State :=
  let req := kindCode k.kind + (if k.tag then 8 else 0) + 16 * k.level.toNat + 256 * n
  (sendNumbered s (mkMsg (bits p.desc 15 8) 4 ctx (bits p.desc 21 16) req (tokBytes k.payload))).2

/-- The context of a tile's configuration. -/
def tileCtx (s : State) (l : TileLoc) : Nat := match (s.tile l).active with
  | some c => ((s.handle? (l.core / 132) c.handle).map Handle.ctx).getD 0
  | none => 0

/-- An egress pot that is bound to a sending stream port gives it its next token while a place is free (R357, R362). -/
def egressToPort (s : State) (l : TileLoc) : State :=
  match s.fabric.ports.find? fun (_, p) => portMeets s l p && p.send with
  | none => s
  | some (n, p) =>
    if !canSend s (bits p.desc 15 8) then s else
    match egressTake s l with
    | none => s
    | some (none, s) => s
    | some (some k, s) => portSend s n p (tileCtx s l) k

/-- Wake the threads that wait to inject into a source (R57, R273). -/
def wakeInject (s : State) (l : TileLoc) : State :=
  match (s.tile l).active with
  | some c => wakeWhere s (· = .inject c.handle)
  | none => s

/-- STREAM_BUFFER_POP: the oldest token leaves when the pop route has a free slot; a source waits for its launch, and injects
the marker that is due (R207, R208, R225, R274). -/
def execStreamBufferPop (l : TileLoc) (s : State) : Result :=
  let t := s.tile l
  match potMode t with
  | some (.stream _ _) =>
    if isEgressPot t then .next (match sinkRole s l, egressPop s l with
      | .halted, some (k, s) => egressHold s l k
      | _, _ => egressToPort s l)
    else if (isSourcePot t && !t.running) || !governedOk t then .next s
    else if let some m := (if isSourcePot t then dueMark s l else none) then
      (if !sourceFree s l 5 none then .next (notePressed s l (sourceChains t 5 none))
       else
         let k := markerTok m
         .next (noteFiring (stopAfterMark (sourcePush (saveStream s l k) l 5 none k) l) l))
    else match bufferPop s l with
      | none => .next s
      | some (k, popped) =>
        if !(sourceFree s l 5 none && doneFree s l k) then .next (notePressed s l (sourceChains t 5 none)) else
        let s := popped.modTile l fun t => { t with ended := if k.last then nsAdd t.ended 100 else t.ended }
        let s := if k.kind = .marker then saveStream s l k else s
        let s := chargeCredit (sourcePush s l 5 none k) l k
        .next (noteFiring (if isSourcePot t then wakeInject s l else s) l)
  | _ => .next s

/-! ## Atomic pipeline (R209 to R211) -/

/-- An update record (R209). -/
structure UpdateRec where
  off : Nat
  op : Nat
  ty : Nat
  zero : Nat
  operand : Nat
deriving DecidableEq, Repr

/-- The four records of an update token (R209). -/
def recordsOf (x : Vec512) : List UpdateRec :=
  (List.range 4).map fun j =>
    let r := x.toNat / 2 ^ (128 * j) % 2 ^ 128
    { off := r % 2 ^ 32, op := r / 2 ^ 32 % 256, ty := r / 2 ^ 40 % 256, zero := r / 2 ^ 48 % 2 ^ 16, operand := r / 2 ^ 64 }

/-- A record as 128 bits. -/
def recordBits (r : UpdateRec) : Nat := r.off + 2 ^ 32 * r.op + 2 ^ 40 * r.ty + 2 ^ 48 * r.zero + 2 ^ 64 * (r.operand % 2 ^ 64)

/-- Operation and type of a record, if they are listed (R209). -/
def recordOp (r : UpdateRec) : Option (AmoOp × Ty) :=
  match AmoOp.ofCode (BitVec.ofNat 4 (r.op % 16)), Ty.ofCode (BitVec.ofNat 4 (r.ty % 16)) with
  | some op, some ty =>
    if 16 ≤ r.op ∨ 16 ≤ r.ty ∨ op = .cas then none
    else if op = .fadd then (if ty = .f32 ∨ ty = .bf16 then some (op, ty) else none)
    else if ty = .s32 ∨ ty = .n32 ∨ ty = .s64 ∨ ty = .n64 then some (op, ty) else none
  | _, _ => none

/-- The operation of a record that the pot applies (R211); none when it is misrouted. -/
def recordApplies (bank lo nb : Nat) (r : UpdateRec) : Option (AmoOp × Ty) :=
  match recordOp r with
  | some (op, ty) =>
    if r.zero = 0 ∧ r.off % (ty.width / 8) = 0 ∧ r.off < 0x20000 ∧ r.off / 2 ^ lo % 2 ^ nb = bank % 2 ^ nb then some (op, ty)
    else none
  | none => none

/-- Apply records in order: the state, the reply records, and whether the reply is tagged and a poisoned granule was read
(R209 to R211, R203). -/
def applyRecords (l : TileLoc) (bank lo nb : Nat) : List UpdateRec → State → State × List UpdateRec × Bool × Bool
  | [], s => (s, [], false, false)
  | r :: rs, s =>
    if r.op = 0xFF then
      let (s, out, tag, bad) := applyRecords l bank lo nb rs s
      (s, r :: out, tag, bad)
    else match recordApplies bank lo nb r with
      | none =>
        let s := modPot s l fun p => { p with misroute := p.misroute + 1 }
        let (s, out, _, bad) := applyRecords l bank lo nb rs s
        (s, { r with operand := 0 } :: out, true, bad)
      | some (op, ty) =>
        let n := ty.width / 8
        let a := potBase l.tile + r.off
        let old := leNat (s.potRead l.core a n)
        let poison := (s.potPoison l.core a n).isSome
        let s := potStore s l.core a (leBytes n (amoNew op ty old r.operand 0))
        let (s, out, tag, bad) := applyRecords l bank lo nb rs s
        (s, { r with operand := old } :: out, tag || poison, bad || poison)

/-! ## The joined inputs of a pot (R157, R158, R161) -/

/-- What a pot's local channels 0 to 6 call for: nothing more, after what the join drops; or a firing on these heads (R158). -/
def potJoin (s : State) (l : TileLoc) : Except State (List (Nat × Tok)) :=
  let vs := drivenChannels (s.tile l)
  let hs := vs.map (localHead s l)
  let drop := fun (s : State) (i : Nat) => match vs[i]?, hs[i]? with
    | some v, some (some k) => noteDrop (localTake s l v k) l
    | _, _ => s
  if vs = [] then .error s else
  match joinHeads hs with
  | .wait starved => .error (if starved then noteStarved s l else s)
  | .drop is => .error (is.foldl drop (noteFiring s l))
  | _ => .ok (vs.zip (hs.filterMap id))

/-- Take the heads of a firing. -/
def potTakes (s : State) (l : TileLoc) (ks : List (Nat × Tok)) : State := ks.foldl (fun s (v, k) => localTake s l v k) s

/-- The one copy that a firing on a non-data kind emits: the first input's, its error tag the OR of all (R158). -/
def joined (ks : List (Nat × Tok)) : Option Tok :=
  ks.head?.map fun (_, k) => { k with tag := ks.any fun (_, x) => x.tag }

/-- A pot's chains of source 5 that carry what its local channels 0 to 6 make: none of channel 7, which carries no data (R162,
log 78). -/
def dataChains (t : Tile) : List (List SwitchWord) :=
  (sourceChains t 5 none).filter fun c => (c.head?.map SwitchWord.vc) ≠ some 7

/-- They are free. -/
def dataFree (s : State) (l : TileLoc) : Bool := (dataChains (s.tile l)).all (chainFree s l)

/-- Emit a token on them. -/
def dataPush (s : State) (l : TileLoc) (k : Tok) : State :=
  let t := s.tile l
  (dataChains t).foldl (fun s c => chainPush s l c (emitTag t k)) s

/-- A marker passes a pot's element, which saves its state the first time that it does (R274). -/
def potMark (s : State) (l : TileLoc) (k : Tok) : State :=
  let t := s.tile l
  if k.kind ≠ .marker ∨ markerOrdinal k ≤ t.marks then s else
  (saveElement s l (markerOrdinal k) fun old => { old with pot := t.pot }).modTile l fun t => { t with marks := markerOrdinal k }

/-- The head of local channel 7, a bound or another token that the element does not act on, is forwarded on channel 7, or
consumed where no word takes it (R153, R161, log 78). -/
def potSeven (s : State) (l : TileLoc) : Option State :=
  match localHead s l 7 with
  | none => none
  | some k =>
    if !(sourceFree s l 5 (some 7) && doneFree s l k) then none
    else
      let s := potMark (noteFiring (localTake s l 7 k) l) l k
      let s := if k.last && drivenChannels (s.tile l) = [] then s.modTile l fun t => { t with ended := nsAdd t.ended 100 } else s
      some (chargeCredit (sourcePush s l 5 (some 7) k) l k)

/-- A head of local channel 7 that stays for want of a free slot: a back-pressure clock (R255). -/
def sevenPressed (s : State) (l : TileLoc) : State :=
  if (localHead s l 7).isSome then notePressed s l (sourceChains (s.tile l) 5 (some 7)) else s

/-- Forward a token that a mode element does not act on, or consume it (R161); an end-of-tile token whose zero bytes are not
zero goes on tagged, with CIR[3] (R206). -/
def potForward (s : State) (l : TileLoc) (k : Tok) : State :=
  let foul := k.kind = .endOfTile && !tileClean k
  let s := if foul then noteStageCir s l (s.tile l).marks 3 else s
  let k := if foul then { k with tag := true } else k
  let s := potMark s l k
  let s := if k.last then s.modTile l fun t => { t with ended := nsAdd t.ended 100 } else s
  chargeCredit (dataPush s l k) l k

/-- The records of an update token are applied: the state and the reply token (R209, R210); a tagged token is poisoned data that
the pot has consumed (R142, R160, log 78). -/
def updateToken (s : State) (l : TileLoc) (bank lo nb : Nat) (k : Tok) : State × Tok :=
  let (s, out, tag, bad) := applyRecords l bank lo nb (recordsOf k.payload) s
  let x := BitVec.ofNat 512 ((out.zipIdx.map fun (r, j) => recordBits r * 2 ^ (128 * j)).sum)
  (if bad || k.tag then noteStageCir s l (s.tile l).marks 0 else s, { k with payload := x, tag := k.tag || tag })

/-- The update tokens of a firing's inputs in the order of their switch words: the state and their replies (R158, R209). -/
def updateTokens (l : TileLoc) (bank lo nb : Nat) : List Tok → State → State × List Tok
  | [], s => (s, [])
  | k :: ks, s =>
    let (s, x) := updateToken s l bank lo nb k
    let (s, xs) := updateTokens l bank lo nb ks s
    (s, x :: xs)

/-- ATOMIC_PIPELINE_UPDATE: the four records of an update token, and its reply; with several channels the heads join, and the
replies after the first follow in firings of their own (R157, R158, R209 to R211, log 78). -/
def execAtomicPipelineUpdate (l : TileLoc) (s : State) : Result :=
  let t := s.tile l
  match potMode t with
  | some (.atomic bank lo nb) =>
    if !governedOk t then .next s else
    match t.pot.outq with
    | k :: r =>
      if !dataFree s l then .next (notePressed s l (dataChains t))
      else .next (dataPush (modPot (noteFiring s l) l fun p => { p with outq := r }) l k)
    | [] => match potSeven s l with
      | some s => .next s
      | none =>
        let s := sevenPressed s l
        match potJoin s l with
        | .error s => .next s
        | .ok ks => match joined ks with
          | none => .next s
          | some k =>
            if !(dataFree s l && doneFree s l k) then .next (notePressed s l (dataChains t)) else
            let s := noteFiring (potTakes s l ks) l
            if k.kind ≠ .data then .next (potForward s l k) else
            let (s, xs) := updateTokens l bank lo nb (ks.map Prod.snd) s
            let s := modPot s l fun p => { p with outq := xs.tail }
            .next (xs.head?.elim s (dataPush s l))
  | _ => .next s

/-! ## Mandoline (R212 to R214) -/

/-- Tokens of a row (R212). -/
def rowToks (width ty : Nat) : Nat := (width + lanesOf ty - 1) / lanesOf ty

/-- The windows that token j of input row `row` completes (R213): the K tokens in ascending order, by row and column. -/
def windowKeys (k st d T : Nat) (row j : Nat) : List Nat :=
  let span := (k - 1) * d
  if row < span ∨ (row - span) % st ≠ 0 then [] else (List.range k).map fun i => (row - span + i * d) * T + j

/-- The token of a key in the delay lines. -/
def lineTok (p : PotSt) (key : Nat) : Tok := ((p.lines.find? fun (n, _) => n = key).map Prod.snd).getD Tok.zero

/-- Store token j of the current row, and queue the window tokens it completes, numbered on; `foul` when one of them was read
from a poisoned place (R203, R213). -/
def mandolinePut (k st d T : Nat) (foul : Bool) (p : PotSt) (x : Tok) : PotSt :=
  let row := p.row
  let p := { p with lines := p.lines ++ [(row * T + p.col, x)] }
  let ws := (windowKeys k st d T row p.col).map (lineTok p)
  let tag := foul || ws.any Tok.tag
  let outs := ws.zipIdx.map fun (w, i) => { w with tag := tag, level := 0, kind := TokKind.data, seq := p.nextSeq + BitVec.ofNat 24 i }
  let wrap := p.col + 1 = T
  { p with
    outq := p.outq ++ outs, nextSeq := p.nextSeq + BitVec.ofNat 24 ws.length,
    row := if wrap then row + 1 else row, col := if wrap then 0 else p.col + 1,
    lines := if wrap then p.lines.filter fun (key, _) => row + 1 < key / T + ((k - 1) * d + 1) else p.lines }

/-- The place in the pot's banks of a key of the delay lines (R212, log 76). -/
def linePlace (k d T key : Nat) : Nat := key % (((k - 1) * d + 1) * T)

/-- A token enters the delay lines in the pot's banks; a poisoned place that a window reads tags it, with CIR[0], and so does a
tagged token (R142, R160, R203, R213, log 78). -/
def mandolineStore (k st d T : Nat) (s : State) (l : TileLoc) (x : Tok) : State :=
  let t := s.tile l
  let foul := (windowKeys k st d T t.pot.row t.pot.col).dropLast.any fun key => placeFoul s l (linePlace k d T key)
  let s := storePlace s l (linePlace k d T (t.pot.row * T + t.pot.col))
  let s := if foul || x.tag then noteStageCir s l t.marks 0 else s
  modPot s l fun p => mandolinePut k st d T foul p x

/-- Complete a row with zero-pattern tokens (R214). -/
def mandolinePad (k st d T : Nat) (l : TileLoc) : Nat → State → State
  | 0, s => s
  | n + 1, s => if (s.tile l).pot.col = 0 then s else mandolinePad k st d T l n (mandolineStore k st d T s l Tok.zero)

/-- The next row token may be taken: the window tokens still to be emitted do not exceed what one row leaves behind, so that a
group of s rows needs max(s, K) × T firings (R213). -/
def mandolineTakes (k T : Nat) (p : PotSt) : Bool := p.outq.length ≤ (k - 1) * T

/-- What a mandoline takes of its heads, before it emits: row tokens, in the order of their switch words, with the windows they
complete, or, when nothing waits to be emitted, another kind, which waits in its turn; a stream-end completes the row (R158, R213,
R214). A token of another kind keeps the sequence number that it came with, R213 numbering what the element makes (DESIGN CHOICE,
log 84). -/
def mandolineTake (k st d T : Nat) (s : State) (l : TileLoc) : State :=
  let p := (s.tile l).pot
  match potJoin s l with
  | .error s => s
  | .ok ks => match joined ks with
    | none => s
    | some x =>
      if x.kind = .data then
        if mandolineTakes k T p then (ks.map Prod.snd).foldl (fun s x => mandolineStore k st d T s l x) (potTakes s l ks)
        else s
      else if p.outq ≠ [] then s
      else if x.ends then
        let s := potTakes s l ks
        let s := if p.col ≠ 0 then noteStageCir s l (s.tile l).marks 3 else s
        modPot (mandolinePad k st d T l T s) l fun p => { p with lines := [], row := 0, col := 0, outq := p.outq ++ [x] }
      else modPot (potTakes s l ks) l fun p => { p with outq := [x] }

/-- MANDOLINE_WINDOW: a firing takes at most one row token and emits at most one token, the window tokens in their order
(R213, R214). -/
def execMandolineWindow (l : TileLoc) (s : State) : Result :=
  match potMode (s.tile l) with
  | some (.mandoline k st d width ty) =>
    if !governedOk (s.tile l) then .next s
    else match potSeven s l with
      | some s => .next s
      | none =>
        let s := sevenPressed s l
        let s' := mandolineTake k st d (rowToks width ty) s l
        match (s'.tile l).pot.outq with
        | [] => .next (match potJoin s l with
          | .ok _ => noteFiring s' l
          | .error _ => s')
        | x :: r =>
          if !(dataFree s l && doneFree s l x) then .next (notePressed s l (dataChains (s.tile l))) else
          let s := noteFiring (modPot s' l fun p => { p with outq := r }) l
          .next (if x.kind = .data then dataPush s l x else potForward s l x)
  | _ => .next s

end Sys2Proof.Machine
end

