-- ==== Sys2Proof/Machine/Nodes.lean ====
section
/-! DEFINITION. Controller nodes (R164 to R170): permits, dones, selects, and the nodes that pass data. -/

namespace Sys2Proof.Machine

open Sys2Proof

/-! ## Nodes of a pot -/

/-- The state of a node. -/
def Tile.node (t : Tile) (i : Nat) : NodeSt := tgetD t.nodes i NodeSt.start
/-- Change a node. -/
def modNode (s : State) (l : TileLoc) (i : Nat) (f : NodeSt → NodeSt) : State :=
  s.modTile l fun t => { t with nodes := tmod t.nodes i NodeSt.start f }

/-- The most that one control token counts (R165). -/
def ctlMost : Nat := 4095

/-- The node that a permit over a control link is for: the lowest node of the pot whose parent is over the link (R164). -/
def linkNode (ns : List NodeCfg) : Nat := (ns.findIdx? fun n => n.parent = 15).getD 0

/-- The control sink's token of a tile. -/
def ctlHead (s : State) (l : TileLoc) : Option Tok := (localInput (s.tile l) 7 7).bind (inputHead s l)
/-- Take it. -/
def ctlTake (s : State) (l : TileLoc) : State := match localInput (s.tile l) 7 7 with
  | some i => inputTake s l i
  | none => s

/-- The fields of a control token (R165): kind, node, select, count. -/
def ctlKind (k : Tok) : Nat := k.payload.toNat % 4
/-- Target node. -/
def ctlNode (k : Tok) : Nat := k.payload.toNat / 4 % 4
/-- Select bit. -/
def ctlSelect (k : Tok) : Bool := k.payload.toNat / 16 % 2 = 1
/-- Count. -/
def ctlCount (k : Tok) : Nat := k.payload.toNat / 256 % 4096

/-- A permit to child j of node i (R166). -/
def permitChild (s : State) (l : TileLoc) (i j c : Nat) : State :=
  let s' := modNode s l i fun n => { n with issued := tmod n.issued j 0 (· + c) }
  match (childrenOf s l i)[j]? with
  | some (.node m) => postCtl s' l { done := false, node := m, child := 0, count := c }
  | some (.word (w :: r)) =>
    let dest := match controlReach s l w with
      | some p => linkNode (hostNodes (s.tile p))
      | none => 0
    chainPush s' l (w :: r) (controlTok 1 dest c)
  | _ => s'

/-- A permit to child j of node i has a free slot; inside the pot it needs none (R157). -/
def permitFree (s : State) (l : TileLoc) (i j : Nat) : Bool := match (childrenOf s l i)[j]? with
  | some (.word c) => chainFree s l c
  | _ => true

/-- A done of a node to its parent has a free slot: inside the pot it needs none (R157, R166). -/
def nodeDoneFree (s : State) (l : TileLoc) (i : Nat) : Bool :=
  (match (hostNodes (s.tile l))[i]? with
   | some n => n.parent < 4
   | none => true) || sendFree s l

/-- A done of node i to its parent; a root has none (R164, R166). -/
def doneParent (s : State) (l : TileLoc) (i c : Nat) : State :=
  if c = 0 then s else
  let ns := hostNodes (s.tile l)
  match ns[i]? with
  | none => s
  | some n =>
    if n.parent < 4 then
      match (innerChildren ns n.parent).findIdx? (· = i) with
      | some j => postCtl s l { done := true, node := n.parent, child := j, count := c }
      | none => s
    else sendDone s l c

/-! ## Starting iterations (R166, R168) -/

/-- A chain, fan or ring node can admit (R166). -/
def canAdmit (n : NodeCfg) (x : NodeSt) : Bool :=
  n.kind ≤ 2 && 0 < x.credit && (n.window = 0 || x.started - x.finished < n.window)

/-- The children that iteration t gives permits to (R166). -/
def issueTo (n : NodeCfg) (t : Nat) : List Nat :=
  match n.kind with
  | 0 => [0]
  | 1 => List.range n.children
  | _ => [t % n.children]

/-- Issue iteration t (R166). -/
def issueIteration (s : State) (l : TileLoc) (i : Nat) (n : NodeCfg) (t : Nat) : State :=
  (issueTo n t).foldl (fun s j => permitChild s l i j 1) s

/-- Admit one iteration (R166). -/
def admitOne (s : State) (l : TileLoc) (i : Nat) (n : NodeCfg) : State :=
  let t := ((s.tile l).node i).started
  issueIteration (modNode s l i fun x => { x with credit := x.credit - 1, started := x.started + 1 }) l i n t

/-- The bound token at the head of local channel 7 (R168). -/
def boundHead (s : State) (l : TileLoc) : Option Tok := localHead s l 7

/-- A loop generator starts a loop of N iterations, or answers an empty one (R166). -/
def startLoop (s : State) (l : TileLoc) (i N : Nat) : State :=
  let s := modNode s l i fun x => { x with credit := x.credit - 1 }
  if N = 0 then doneParent s l i 1
  else modNode s l i fun x => { x with looping := true, remaining := N, issued := [], returned := [] }

/-- The child of a looping generator that still lacks permits, with how many come next (R165, R166). -/
def loopOwes (n : NodeCfg) (x : NodeSt) : Option (Nat × Nat) :=
  if n.kind ≠ 3 ∨ !x.looping then none else
  ((List.range n.children).find? fun j => tgetD x.issued j 0 < x.remaining).map fun j =>
    (j, Nat.min ctlMost (x.remaining - tgetD x.issued j 0))

/-- A loop generator that may take a permit (R166). -/
def loopIdle (n : NodeCfg) (x : NodeSt) : Bool := n.kind = 3 && !x.looping && 0 < x.credit

/-- A marker passes a controller pot: its nodes record their counters (R168, R274). -/
def nodeMark (s : State) (l : TileLoc) (k : Tok) : State :=
  if k.kind ≠ .marker then s else
  let t := s.tile l
  (saveElement s l (markerOrdinal k) fun old => { old with nodes := t.nodes, ctl := t.ctl }).modTile l fun t =>
    { t with marks := markerOrdinal k }

/-- A head of local channel 7 that no loop generator takes: a marker, a stream-end or a bound that no generator of the pot
reads is forwarded where a word takes it, and consumed otherwise (R161, R168). -/
def passBound (s : State) (l : TileLoc) : Option State :=
  match boundHead s l with
  | none => none
  | some k =>
    if k.kind = .bound && (hostNodes (s.tile l)).any NodeCfg.bound then none
    else if !sourceFree s l 5 (some 7) then none
    else some (sourcePush (nodeMark (localTake s l 7 k) l k) l 5 (some 7) k)

/-- What a node does next, if it can do something without a further token (R166, R168): the state after it, and whether all that
it emits has a free slot (R157). -/
def nodeStart (s : State) (l : TileLoc) (i : Nat) (n : NodeCfg) : Option (State × Bool) :=
  let x := (s.tile l).node i
  if canAdmit n x then some (admitOne s l i n, (issueTo n x.started).all (permitFree s l i))
  else match loopOwes n x with
    | some (j, c) => some (permitChild s l i j c, permitFree s l i j)
    | none =>
      if !loopIdle n x then none
      else if !n.bound then some (startLoop s l i n.trip, n.trip ≠ 0 || nodeDoneFree s l i)
      else match boundHead s l with
        | none => none
        | some k =>
          let N := k.payload.toNat % 2 ^ 32
          if k.kind = .bound then some (startLoop (localTake s l 7 k) l i N, N ≠ 0 || nodeDoneFree s l i) else none

/-- What the nodes of a pot can start. -/
def nodeStarts (s : State) (l : TileLoc) : List (State × Bool) :=
  (hostNodes (s.tile l)).zipIdx.filterMap fun (n, i) => nodeStart s l i n

/-- The first node that can start something and has the slots for it, or else what passes on channel 7. -/
def firstStart (s : State) (l : TileLoc) : Option State :=
  (((nodeStarts s l).find? Prod.snd).map Prod.fst).or (passBound s l)

/-! ## Receiving control tokens -/

/-- A node takes a permit: a loop-carry starts its loop, any other node's credit rises (R166, R167, R170). -/
def givePermit (s : State) (l : TileLoc) (i c : Nat) : State :=
  match (hostNodes (s.tile l))[i]? with
  | none => noteDrop s l
  | some n =>
    if n.kind = 6 then modNode s l i fun x => { x with carryLeft := c, carryFirst := true }
    else modNode s l i fun x => { x with credit := x.credit + c }

/-- A node may take a permit now: a loop-carry takes one when it is idle (R170). -/
def permitReady (s : State) (l : TileLoc) (i : Nat) : Bool :=
  match (hostNodes (s.tile l))[i]? with
  | some n => n.kind ≠ 6 || ((s.tile l).node i).carryLeft = 0
  | none => true

/-- A select reaches a node, with the error tag of its token (R159, R169, R170). -/
def giveSelect (s : State) (l : TileLoc) (i : Nat) (b tag : Bool) : State :=
  match (hostNodes (s.tile l))[i]? with
  | some n => if n.kind = 4 ∨ n.kind = 5 then modNode s l i fun x => { x with selects := x.selects ++ [(b, tag)] } else noteDrop s l
  | none => noteDrop s l

/-- The tile hosts controller nodes. -/
def isHost (t : Tile) : Bool := hostNodes t ≠ []

/-- The control sink's head, taken and acted on, unless it is a done for a node or a permit that must wait (R162, R165 to
R167). -/
def sinkPermit (s : State) (l : TileLoc) : State :=
  match ctlHead s l with
  | none => s
  | some k =>
    let host := isHost (s.tile l)
    let taken := ctlTake s l
    if k.kind ≠ .control then noteDrop taken l
    else match ctlKind k with
      | 0 => if host && ctlCount k ≠ 0 then s else noteDrop taken l
      | 1 =>
        if ctlCount k = 0 then noteDrop taken l
        else if !host then taken.modTile l fun t => { t with credit := t.credit + ctlCount k }
        else if permitReady s l (ctlNode k) then givePermit taken l (ctlNode k) (ctlCount k) else s
      | 2 => if host then giveSelect taken l (ctlNode k) (ctlSelect k) k.tag else noteDrop taken l
      | _ => noteDrop taken l

/-- The first permit in the pot whose node may take it. -/
def nextPermit (s : State) (l : TileLoc) : Option (Nat × CtlMsg) :=
  ((s.tile l).ctl.zipIdx.find? fun (m, _) => !m.done && permitReady s l m.node).map fun (m, i) => (i, m)

/-- CONTROLLER_PERMIT: a node starts what its credit allows and its slots take, else a permit or select is taken (R157, R164 to
R168); a node that lacks a slot is back-pressured (R255). -/
def execControllerPermit (l : TileLoc) (s : State) : Result :=
  if (s.tile l).active.isNone then .next s
  else match firstStart s l with
    | some s' => .next (noteFiring s' l)
    | none =>
      let s := if nodeStarts s l = [] then s else notePressed s l (sourceChains (s.tile l) 7 none)
      match nextPermit s l with
      | some (i, m) => .next (givePermit (s.modTile l fun t => { t with ctl := t.ctl.eraseIdx i }) l m.node m.count)
      | none => .next (sinkPermit s l)

/-! ## Dones (R166) -/

/-- Iterations of a ring that are complete from number u on, up to a bound (R166). -/
def ringDone (k : Nat) (returned : Tbl Nat) : Nat → Nat → Nat
  | 0, _ => 0
  | n + 1, u => if u / k < tgetD returned (u % k) 0 then ringDone k returned n (u + 1) + 1 else 0

/-- The least returned count over the children of a fan. -/
def leastReturned (k : Nat) (returned : Tbl Nat) : Nat :=
  match (List.range k).map fun j => tgetD returned j 0 with
  | [] => 0
  | a :: r => r.foldl Nat.min a

/-- Iterations that a fan or ring can report beyond those it has (R166). -/
def unreported (n : NodeCfg) (x : NodeSt) : Nat :=
  match n.kind with
  | 1 => Nat.min ctlMost (leastReturned n.children x.returned - x.finished)
  | 2 => ringDone n.children x.returned ctlMost x.finished
  | _ => 0

/-- Report complete iterations to the parent (R166). -/
def reportDone (s : State) (l : TileLoc) (i : Nat) (n : NodeCfg) : State :=
  let c := unreported n ((s.tile l).node i)
  doneParent (modNode s l i fun x => { x with finished := x.finished + c }) l i c

/-- A done of c iterations from child j of node i (R166). -/
def takeDone (s : State) (l : TileLoc) (i j c : Nat) : State :=
  match (hostNodes (s.tile l))[i]? with
  | none => noteDrop s l
  | some n =>
    let x := (s.tile l).node i
    if n.children ≤ j ∨ tgetD x.issued j 0 ≤ tgetD x.returned j 0 then noteDrop s l else
    let s := modNode s l i fun x => { x with returned := tmod x.returned j 0 (· + c) }
    match n.kind with
    | 0 =>
      if j + 1 < n.children then permitChild s l i (j + 1) c
      else doneParent (modNode s l i fun x => { x with finished := x.finished + c }) l i c
    | 1 | 2 => reportDone s l i n
    | _ =>
      let y := (s.tile l).node i
      if (List.range n.children).all fun j => y.remaining ≤ tgetD y.returned j 0 then
        doneParent (modNode s l i fun x => { x with looping := false, remaining := 0 }) l i 1
      else s

/-- What node i emits on a done of c iterations from its child j has a free slot (R157, R166). -/
def takeFree (s : State) (l : TileLoc) (i j c : Nat) : Bool :=
  match (hostNodes (s.tile l))[i]? with
  | none => true
  | some n =>
    let x := (s.tile l).node i
    let y := { x with returned := tmod x.returned j 0 (· + c) }
    if n.children ≤ j ∨ tgetD x.issued j 0 ≤ tgetD x.returned j 0 then true
    else match n.kind with
      | 0 => if j + 1 < n.children then permitFree s l i (j + 1) else nodeDoneFree s l i
      | 1 | 2 => unreported n y = 0 || nodeDoneFree s l i
      | _ => !((List.range n.children).all fun j => y.remaining ≤ tgetD y.returned j 0) || nodeDoneFree s l i

/-- A node that has iterations to report (R165: a larger count travels as several tokens), and a free slot for the done. -/
def owing (s : State) (l : TileLoc) : Option (Nat × NodeCfg) :=
  ((hostNodes (s.tile l)).zipIdx.find? fun (n, i) => unreported n ((s.tile l).node i) ≠ 0 && nodeDoneFree s l i).map
    fun (n, i) => (i, n)

/-- The done at the control sink with the node and child that it is for: it comes from the tile whose control source feeds the sink
(R164). -/
def sinkDoneAt (s : State) (l : TileLoc) : Option (Tok × Option (Nat × Nat)) :=
  match ctlHead s l with
  | some k =>
    if k.kind ≠ .control ∨ ctlKind k ≠ 0 ∨ ctlCount k = 0 ∨ !isHost (s.tile l) then none
    else some (k, (controlParent s l).bind (childIndex s l))
  | none => none

/-- The done at the control sink, taken and acted on, unless what its node emits lacks a slot (R157, R164). -/
def sinkDone (s : State) (l : TileLoc) : State :=
  match sinkDoneAt s l with
  | some (k, some (i, j)) =>
    if takeFree s l i j (ctlCount k) then noteFiring (takeDone (ctlTake s l) l i j (ctlCount k)) l
    else notePressed s l (sourceChains (s.tile l) 7 none)
  | some (_, none) => noteDrop (ctlTake s l) l
  | none => s

/-- The first done in the pot whose node has the slots for what it emits. -/
def nextDone (s : State) (l : TileLoc) : Option (Nat × CtlMsg) :=
  ((s.tile l).ctl.zipIdx.find? fun (m, _) => m.done && takeFree s l m.node m.child m.count).map fun (m, i) => (i, m)

/-- CONTROLLER_DONE: a node reports, or a done from a child is taken, as far as its node has the slots for what it emits (R157,
R166). -/
def execControllerDone (l : TileLoc) (s : State) : Result :=
  if !isHost (s.tile l) then .next s
  else match owing s l with
    | some (i, n) => .next (noteFiring (reportDone s l i n) l)
    | none => match nextDone s l with
      | some (i, m) =>
        .next (noteFiring (takeDone (s.modTile l fun t => { t with ctl := t.ctl.eraseIdx i }) l m.node m.child m.count) l)
      | none =>
        .next (sinkDone (if (s.tile l).ctl.any CtlMsg.done then notePressed s l (sourceChains (s.tile l) 7 none) else s) l)

/-! ## Nodes that pass data (R169, R170) -/

/-- The node at an index, if it is of a kind. -/
def nodeAt (s : State) (l : TileLoc) (i kind : Nat) : Option NodeSt :=
  match (hostNodes (s.tile l))[i]? with
  | some n => if n.kind = kind then some ((s.tile l).node i) else none
  | none => none

/-- The output of a node has free slots for a token, and so has the done that the token sends (R157, R167). -/
def nodeFree (s : State) (l : TileLoc) (i v : Nat) (k : Tok) : Bool :=
  sourceFree s l 5 (some v) && (!(k.ends && 0 < ((s.tile l).node i).credit) || nodeDoneFree s l i)

/-- A token with the error tag of the select that passes it; a token of another kind keeps its own (R159). -/
def withTag (k : Tok) (tag : Bool) : Tok := if k.kind = .data then { k with tag := k.tag || tag } else k

/-- A node of a pot has consumed a tagged data token, which carries corrupted or poisoned data (R142, R160, log 78). -/
def noteTainted (s : State) (l : TileLoc) (k : Tok) : State := if k.kind = .data && k.tag then noteCir s l 0 else s

/-- A node fires and emits a token on a local channel; a stream-end it was permitted costs a credit (R167, R255). -/
def nodeEmit (s : State) (l : TileLoc) (i v : Nat) (k : Tok) : State :=
  let s := sourcePush (noteFiring s l) l 5 (some v) k
  if k.ends && 0 < ((s.tile l).node i).credit then
    doneParent (modNode s l i fun x => { x with credit := x.credit - 1 }) l i 1
  else s

/-- STEER: the head of input 0 goes to the output that the select names (R170). -/
def execSteer (l : TileLoc) (node : Nat) (s : State) : Result :=
  match nodeAt s l node 4 with
  | none => .next s
  | some x =>
    match localHead s l (2 * node), x.selects with
    | some k, (b, tag) :: r =>
      let out := 2 * node + (if b then 1 else 0)
      if !nodeFree s l node out k then .next (notePressed s l (sourceChains (s.tile l) 5 (some out))) else
      let s := modNode (localTake s l (2 * node) k) l node fun x => { x with selects := r }
      .next (nodeEmit (nodeMark (noteTainted s l (withTag k tag)) l k) l node out (withTag k tag))
    | some _, [] => .next (noteStarved s l)
    | none, _ :: _ => .next (noteStarved s l)
    | none, [] => .next s

/-- MERGE: the head of the selected input goes to output 0 (R170). -/
def execMerge (l : TileLoc) (node : Nat) (s : State) : Result :=
  match nodeAt s l node 5 with
  | none => .next s
  | some x =>
    match x.selects with
    | [] =>
      .next (if (localHead s l (2 * node)).isSome || (localHead s l (2 * node + 1)).isSome then noteStarved s l else s)
    | (b, tag) :: r =>
      let v := 2 * node + (if b then 1 else 0)
      match localHead s l v with
      | none => .next (noteStarved s l)
      | some k =>
        if !nodeFree s l node (2 * node) k then
          .next (notePressed s l (sourceChains (s.tile l) 5 (some (2 * node))))
        else
          let s := modNode (localTake s l v k) l node fun x => { x with selects := r }
          .next (nodeEmit (nodeMark (noteTainted s l (withTag k tag)) l k) l node (2 * node) (withTag k tag))

/-- LOOP_CARRY: the initial value, the back edges and the exit of a loop; a non-data head of input 0 passes to both outputs
when it is idle (R170). A firing waits for the outputs that it emits on (R157). DESIGN CHOICE (log 77): R170 gives the node no
dones; each head of input 1 ends one iteration of the loop, for which the node, as any node that takes permits, sends done(1) to its
parent. -/
def execLoopCarry (l : TileLoc) (node : Nat) (s : State) : Result :=
  match nodeAt s l node 6 with
  | none => .next s
  | some x =>
    let (in0, in1) := (2 * node, 2 * node + 1)
    let free := fun (v : Nat) => sourceFree s l 5 (some v)
    let pressed := fun (v : Nat) => Host.Outcome.next (notePressed s l (sourceChains (s.tile l) 5 (some v)))
    if x.carryLeft = 0 ∨ x.carryFirst then
      match localHead s l in0 with
      | none => .next s
      | some k =>
        if x.carryLeft = 0 then
          if k.kind = .data then .next s
          else if !free in0 then pressed in0
          else if !free in1 then pressed in1
          else
            let s := noteFiring (nodeMark (localTake s l in0 k) l k) l
            .next (sourcePush (sourcePush s l 5 (some in0) k) l 5 (some in1) k)
        else if k.kind ≠ .data then .next s
        else if !free in0 then pressed in0
        else
          let s := modNode (noteTainted (localTake s l in0 k) l k) l node fun x => { x with carryFirst := false }
          .next (sourcePush (noteFiring s l) l 5 (some in0) k)
    else
      match localHead s l in1 with
      | none => .next s
      | some k =>
        let out := if x.carryLeft = 1 then in1 else in0
        if !(free out && nodeDoneFree s l node) then pressed out else
        let s := modNode (noteFiring (noteTainted (localTake s l in1 k) l k) l) l node fun x => { x with carryLeft := x.carryLeft - 1 }
        .next (doneParent (sourcePush (nodeMark s l k) l 5 (some out) k) l node 1)

/-! ## Roots (R164) -/

/-- The roots of a pot: nodes whose parent is over a control link that leads to no controller (R164). -/
def rootNodes (s : State) (l : TileLoc) : List Nat :=
  let up := match controlParent s l with
    | some p => isHost (s.viewTile (tileHandle (s.tile l)) p)
    | none => false
  if up then [] else ((hostNodes (s.tile l)).zipIdx.filter fun (n, _) => n.parent = 15).map Prod.snd

/-- The launch's permit to each root of a pot (R164). -/
def permitRoots (s : State) (l : TileLoc) : State :=
  (rootNodes s l).foldl (fun s i => postCtl s l { done := false, node := i, child := 0, count := 1 }) s

end Sys2Proof.Machine
end

