-- ==== Sys2Proof/Machine/Edges.lean ====
section
/-! DEFINITION. Edge stream nodes: spouts and their rounds (R215 to R218), re-injection (R234), indirect gathers (R305), network
ports (R171), the walks and memory replies they wait for (R282, R308, R309, R313), and block ends of stream ports (R362). A
place is a tile of a core, or, with core 1000, a stream port. -/

namespace Sys2Proof.Machine

open Sys2Proof

/-! ## Places -/

/-- The core number that stands for the stream ports. -/
def portCore : Nat := 1000

/-- What an edge node or a block end runs. -/
def edgeCfg (s : State) (l : TileLoc) : Option EdgeCfg :=
  if l.core = portCore then (s.port? l.tile).bind StreamPort.cfg
  else match (s.tile l).active with
    | some c => match c.kind with
      | .edge e => some e
      | _ => none
    | none => none

/-- Its state. -/
def edgeSt (s : State) (l : TileLoc) : EdgeSt :=
  if l.core = portCore then ((s.port? l.tile).map StreamPort.edge).getD EdgeSt.start else (s.tile l).edge

/-- Change its state. -/
def modEdge (s : State) (l : TileLoc) (f : EdgeSt → EdgeSt) : State :=
  if l.core = portCore then
    match s.port? l.tile with
    | some p => s.setPort l.tile { p with edge := f p.edge }
    | none => s
  else s.modTile l fun t => { t with edge := f t.edge }

/-- The context of its accesses, and whether they have user privilege: that of the thread that launched or bound it. -/
def edgeWho (s : State) (l : TileLoc) : Nat × Bool :=
  if l.core = portCore then
    match (s.port? l.tile).bind fun p => s.thread? p.tid with
    | some t => (t.ctx, !t.system)
    | none => (0, true)
  else match runningLaunch s l with
    | some x => (x.ctx, !x.status0)
    | none => (tileCtx s l, true)

/-- It runs: a tile's sources wait for their launch (R225). -/
def edgeRuns (s : State) (l : TileLoc) : Bool := l.core = portCore || (s.tile l).running

/-- The output has a free place. -/
def edgeOutFree (s : State) (l : TileLoc) : Bool :=
  if l.core = portCore then
    match s.port? l.tile with
    | some p => canSend s (bits p.desc 15 8)
    | none => false
  else edgeFree s l 0

/-- Emit a token. -/
def edgeEmit (s : State) (l : TileLoc) (k : Tok) : State :=
  if l.core = portCore then
    match s.port? l.tile with
    | some p => portSend s l.tile p (edgeWho s l).1 k
    | none => s
  else noteFiring (edgePush s l 0 k) l

/-- The head of the input. -/
def edgeHead (s : State) (l : TileLoc) : Option Tok :=
  if l.core = portCore then (s.port? l.tile).bind fun p => p.buffer.head?.map Prod.snd
  else portHead s routeFuel l (edgePort l.tile) 0

/-- Take the head of the input. -/
def edgeTake (s : State) (l : TileLoc) : State :=
  if l.core = portCore then
    match s.port? l.tile with
    | some p => retrySources (s.setPort l.tile { p with buffer := p.buffer.tail })
    | none => s
  else match portTake routeFuel s l (edgePort l.tile) 0 with
    | some (_, s) => s
    | none => s

/-- A check-interval bit of a node's launch; of a block end, of the context of the thread that bound it (R142, R362). -/
def noteEdgeCir (s : State) (l : TileLoc) (i : Nat) : State :=
  if l.core = portCore then s.modCtx (edgeWho s l).1 fun k => { k with unfolded := k.unfolded ||| BitVec.ofNat 4 (2 ^ i) }
  else noteCir s l i

/-- The agent of a fault-queue entry and its number (R313). -/
def edgeAgent (s : State) (l : TileLoc) : FqAgent × Nat :=
  if l.core = portCore then
    (.peer, match s.port? l.tile with
      | some p => (routeLink s (bits p.desc 15 8)).getD 0
      | none => 0)
  else if let some (.gather ..) := edgeCfg s l then (.engine, ((edgeSt s l).engine).getD 0)
  else (.edge, l.core / 132 + 2 * (((s.logical l.core).getD 0) % 128) + 256 * (l.tile - 96))

/-! ## Stream order (R215, R216, R305) -/

/-- One step of a round: a data token with the address of each lane (none takes the fill value) and whether it is tagged, or
another token. -/
inductive Item where
  | data (elems : List (Option Nat)) (tag : Bool)
  | tok (k : Tok)
deriving DecidableEq, Repr

/-- Tiles along a dimension (R215). -/
def Dim.grid (d : Dim) : Nat := Nat.max 1 ((d.extent + d.tile - 1) / d.tile)
/-- Tiles of a block. -/
def tileCount (ds : List Dim) : Nat := (ds.map Dim.grid).foldl (· * ·) 1
/-- Elements of a tile. -/
def tileElems (ds : List Dim) : Nat := (ds.map Dim.tile).foldl (· * ·) 1
/-- Data tokens of a tile (R216). -/
def tileToks (ty : Nat) (ds : List Dim) : Nat := (tileElems ds + lanesOf ty - 1) / lanesOf ty

/-- The byte offset of element e of a tile, or none outside the tensor (R215, R216). -/
def elemOffset : List Dim → Nat → Nat → Int → Option Int
  | [], _, _, acc => some acc
  | d :: r, tile, e, acc =>
    let x := tile % d.grid * d.tile + e % d.tile
    if x < d.extent then elemOffset r (tile / d.grid) (e / d.tile) (acc + x * d.stride) else none

/-- An address of 52 bits (R215). -/
def wrap52 (x : Int) : Nat := (x % (2 ^ 52 : Int)).toNat

/-- The lanes of token `pos` of a tile (R216). -/
def tileLanes (ty base : Nat) (ds : List Dim) (tile pos : Nat) : List (Option Nat) :=
  (List.range (lanesOf ty)).map fun i =>
    let e := pos * lanesOf ty + i
    if tileElems ds ≤ e ∨ tileCount ds ≤ tile then none
    else (elemOffset ds tile e 0).map fun o => wrap52 (base + o)

/-- An end-of-tile token (R206). -/
def endOfTile (bytes tile : Nat) : Tok :=
  { Tok.zero with kind := .endOfTile, payload := BitVec.ofNat 512 (bytes % 2 ^ 64 + 2 ^ 64 * (tile % 2 ^ 32)) }

/-- The byte count of a tile (R216). -/
def tileByteCount (ty : Nat) (ds : List Dim) : Nat := tileElems ds * ((tyOf ty).width / 8)

/-- The token of a reading spout at a position, and the position after it (R216). -/
def spoutItem (ty base : Nat) (ds : List Dim) (p : Nat × Nat) : Option (Item × (Nat × Nat)) :=
  if tileCount ds ≤ p.1 then
    if p.2 = 0 then some (.tok { Tok.zero with kind := .streamEnd, level := 15 }, (p.1, 1)) else none
  else if p.2 < tileToks ty ds then some (.data (tileLanes ty base ds p.1 p.2) false, (p.1, p.2 + 1))
  else some (.tok (endOfTile (tileByteCount ty ds) p.1), (p.1 + 1, 0))

/-- The row token of a gather at a position of its index token (R305). -/
def gatherItem (ty base rows rowLen : Nat) (signed : Bool) (stride : Int) (k : Tok) (p : Nat × Nat) :
    Option (Item × (Nat × Nat)) :=
  let per := (rowLen + lanesOf ty - 1) / lanesOf ty
  if 16 * per ≤ p.2 then none else
  let raw := k.payload.toNat / 2 ^ (32 * (p.2 / per)) % 2 ^ 32
  let ix : Int := if signed then sextNat 32 raw else raw
  let inTable := 0 ≤ ix && ix < (rows : Int)
  let lanes := (List.range (lanesOf ty)).map fun i =>
    let e := p.2 % per * lanesOf ty + i
    if inTable && e < rowLen then some (wrap52 (base + ix * stride + (e * ((tyOf ty).width / 8) : Nat))) else none
  some (.data lanes k.tag, (p.1, p.2 + 1))

/-- The stream of a node: what comes at a position. -/
def edgeItem (c : EdgeCfg) (e : EdgeSt) : Nat × Nat → Option (Item × (Nat × Nat)) :=
  match c with
  | .spout _ ty _ base _ ds => spoutItem ty base ds
  | .gather ty _ base _ rows rowLen signed stride => match e.collected with
    | k :: _ => gatherItem ty base rows rowLen signed stride k
    | [] => fun _ => none
  | .port _ _ _ _ _ => fun _ => none

/-- The items from a position on, up to a number of data tokens and what directly follows them. -/
def takeItems (f : Nat × Nat → Option (Item × (Nat × Nat))) : Nat → Nat → Nat × Nat → List Item
  | 0, _, _ => []
  | fuel + 1, left, p =>
    match f p with
    | none => []
    | some (.data xs t, p') => if left = 0 then [] else .data xs t :: takeItems f fuel (left - 1) p'
    | some (.tok k, p') => .tok k :: takeItems f fuel left p'

/-- Type, round, base address and fill value of a block. -/
def EdgeCfg.block : EdgeCfg → Nat × Nat × Nat × Nat
  | .spout _ ty round base fill _ => (ty, round, base, fill)
  | .gather ty round base fill _ _ _ _ => (ty, round, base, fill)
  | .port _ _ _ _ _ => (0, 0, 0, 0)

/-- The next items of a node, up to a number of data tokens. -/
def nextItems (c : EdgeCfg) (e : EdgeSt) (left : Nat) : List Item :=
  takeItems (edgeItem c e) (2 * left + 2) left (e.tile, e.pos)

/-- The addresses that items read. -/
def itemAddrs (is : List Item) : List Nat := is.flatMap fun
  | .data xs _ => xs.filterMap id
  | .tok _ => []

/-- Data tokens among items. -/
def dataCount (is : List Item) : Nat := (is.filter fun
  | .data _ _ => true
  | .tok _ => false).length

/-! ## Engines (R304) -/

/-- Take the lowest free stream engine from a number on; none while every one is busy (R304, R305). -/
def takeEngine (s : State) (l : TileLoc) (rim lo : Nat) : Option State :=
  if (edgeSt s l).engine.isSome then some s else
  (firstFrom (fun n => (tget (s.rim rim).engines n).isNone) lo (64 - lo)).map fun n =>
    modEdge (s.modRim rim fun r => { r with engines := tset r.engines n l }) l fun e => { e with engine := some n }

/-- Everything that a place holds at the rim dies goes: engine, walks, deferred reads. -/
def leaveRims (s : State) (l : TileLoc) : State :=
  let out := fun (r : Rim) => { r with
    engines := r.engines.filter fun (_, x) => x ≠ l, walks := r.walks.filter fun w => w.loc ≠ l,
    deferred := r.deferred.filter fun d => d.loc ≠ some l }
  modEdge (rimRoom ((s.modRim 0 out).modRim 1 out)) l fun e => { e with engine := none }

/-! ## Pages of a round (R218, R309, R313) -/

/-- What is known of a page. -/
inductive PageView where
  | ok
  | fault (r : WalkResult)
  | missing (walking : Bool)
deriving DecidableEq, Repr

/-- What is known of the page of an address. -/
def pageView (s : State) (l : TileLoc) (ctx : Nat) (user : Bool) (acc : Access) (va : Nat) : PageView :=
  match tlbHit s ctx va with
  | some e => match leafCheck e.leaf e.bits va acc user with
    | .ok _ => .ok
    | r => .fault r
  | none =>
    let same := (s.rim (rimOf va)).walks.filter fun w => w.ctx = ctx && w.va / 2 ^ 16 = va / 2 ^ 16
    match same.find? fun w => w.loc = l && w.result.isSome with
    | some w => .fault (w.result.getD (.fail false 1 0))
    | none => .missing (same.any fun w => w.result.isNone)

/-- Start the walk of a page, unless it is being walked or 64 walks run (R309). -/
def startWalk (s : State) (l : TileLoc) (ctx : Nat) (user : Bool) (acc : Access) (va : Nat) : State :=
  match pageView s l ctx user acc va with
  | .missing false =>
    s.modRim (rimOf va) fun r =>
      if 64 ≤ (r.walks.filter fun w => w.result.isNone).length then r
      else { r with walks := r.walks ++ [{ ctx := ctx, va := va, acc := acc, user := user, loc := l, result := none }] }
  | _ => s

/-- The first address of each page among addresses, in order. -/
def pageHeads : List Nat → List Nat → List Nat
  | _, [] => []
  | seen, a :: r => if seen.contains (a / 2 ^ 16) then pageHeads seen r else a :: pageHeads (a / 2 ^ 16 :: seen) r

/-- The state of a round's translation (R218). -/
inductive RoundView where
  | ready
  | waits
  | fault (va : Nat) (r : WalkResult)
deriving DecidableEq, Repr

/-- Translate every page of a round: walks are started, and the round is ready, waits, or has a fault once every walk is
done (R218, R313). -/
def prepareRound (s : State) (l : TileLoc) (acc : Access) (vas : List Nat) : RoundView × State :=
  let (ctx, user) := edgeWho s l
  let heads := pageHeads [] vas
  let s := heads.foldl (fun s va => startWalk s l ctx user acc va) s
  let views := heads.map fun va => (va, pageView s l ctx user acc va)
  if views.any fun (_, v) => match v with
    | .missing _ => true
    | _ => false then (.waits, s)
  else match views.findSome? fun (va, v) => match v with
    | .fault r => some (va, r)
    | _ => none with
  | some (va, r) => (.fault va r, s)
  | none => (.ready, s)

/-- A round is voided: its fault goes to the queue, and the node waits for the resume; with a full queue it holds (R218,
R313). -/
def voidRound (s : State) (l : TileLoc) (acc : Access) (va : Nat) (r : WalkResult) : State :=
  if fqFull s then s else
  let (reason, level) := match r with
    | .fail _ reason level => (reason, level)
    | .ok _ => (0, 0)
  let (agent, id) := edgeAgent s l
  let (i, s) := fqWrite s { va := va, ctx := (edgeWho s l).1, reason := reason, level := level, acc := acc, agent := agent,
                            id := id }
  let drop := fun (x : Rim) => { x with walks := x.walks.filter fun w => w.loc ≠ l }
  modEdge ((s.modRim 0 drop).modRim 1 drop) l fun e => { e with faulted := some i }

/-- A translated access. -/
def edgePa (s : State) (l : TileLoc) (acc : Access) (va : Nat) : Option (Nat × Bool × State) :=
  let (ctx, user) := edgeWho s l
  match translate s ctx va acc user with
  | (.ok pa, pres, s) => some (pa, pres, s)
  | _ => none

/-! ## Reading (R216, R218, R311) -/

/-- What reading items gives: tokens without sequence numbers, where the reading stops: the empty granule of a presence page,
or an address that no longer translates; and whether poisoned data was read. -/
structure ReadOut where
  toks : List Tok
  stop : Option (Nat × Option Nat)
  poisoned : Bool
  state : State
deriving DecidableEq, Repr

/-- A fill has woken a node's read of a granule, which then reads it as full (R312). -/
def wokenRead (s : State) (l : TileLoc) (pa : Nat) : Bool :=
  ((s.rim 0).deferred ++ (s.rim 1).deferred).any fun d => d.woken && d.loc = some l && d.pa / 16 = pa / 16

/-- Read the lanes of a token: values, an empty granule, poison (R302, R311). -/
def readLanes (l : TileLoc) (width fill : Nat) : List (Option Nat) → State →
    List Nat × Option (Nat × Option Nat) × Bool × State
  | [], s => ([], none, false, s)
  | none :: r, s =>
    let (vs, stop, bad, s) := readLanes l width fill r s
    (fill % 2 ^ (8 * width) :: vs, stop, bad, s)
  | some va :: r, s =>
    match edgePa s l .read va with
    | none => ([], some (va, none), false, s)
    | some (pa, pres, s) =>
      if pres && !present s pa && !wokenRead s l pa then ([], some (va, some pa), false, s) else
      let v := leNat (s.readMem pa width)
      let p := (s.poisonAt pa width).isSome
      let (vs, stop, bad, s) := readLanes l width fill r s
      (v :: vs, stop, bad || p, s)

/-- Read items in order up to the first empty granule (R216, R312). -/
def readItems (l : TileLoc) (ty fill : Nat) : List Item → State → ReadOut
  | [], s => { toks := [], stop := none, poisoned := false, state := s }
  | .tok k :: r, s =>
    let o := readItems l ty fill r s
    { o with toks := k :: o.toks }
  | .data xs tag :: r, s =>
    let width := (tyOf ty).width / 8
    let (vs, stop, bad, s) := readLanes l width fill xs s
    match stop with
    | some x => { toks := [], stop := some x, poisoned := false, state := s }
    | none =>
      let k := { Tok.zero with tag := tag || bad, payload := pack (8 * width) vs }
      let o := readItems l ty fill r s
      { o with toks := k :: o.toks, poisoned := bad || o.poisoned }

/-- Number tokens on from a sequence (R216). -/
def numberToks (n : BitVec 24) (ks : List Tok) : List Tok := ks.zipIdx.map fun (k, i) => { k with seq := n + BitVec.ofNat 24 i }

/-- A node's reads are no longer deferred; with `keep`, those that a fill has woken stay so until they are delivered (R312). -/
def dropReads (s : State) (l : TileLoc) (keep : Bool) : State :=
  let out := fun (r : Rim) => { r with deferred := r.deferred.filter fun d => d.loc ≠ some l || (keep && d.woken) }
  rimRoom ((s.modRim 0 out).modRim 1 out)

/-- Leave a deferred read at an empty granule; with 4,096 in use it is held back (R312). -/
def deferRead (s : State) (l : TileLoc) (va pa : Nat) : State :=
  (dropReads s l true).modRim (ownerRim pa) fun r =>
    if rimTokens ≤ r.inUse then r
    else { r with deferred := r.deferred ++
      [{ pa := pa, ctx := (edgeWho s l).1, va := va, tid := 0, pc := 0, consume := false, since := 0, loc := some l,
         woken := false }] }

/-- The region tag of a core (R282). -/
def coreTag (s : State) (core : Nat) : Nat := match s.logical core with
  | some lc => (s.lct lc).tag.toNat
  | none => 0

/-- Operands on their way to a node (R282); a block end of a port takes them at once. -/
def sendOperands (s : State) (l : TileLoc) (ks : List Tok) : State :=
  if l.core = portCore then modEdge s l fun e => { e with pending := ks }
  else
    let h := match (s.tile l).active with
      | some c => c.handle
      | none => 0
    let s := s.modCore l.core fun c =>
      { c with replies := c.replies ++ [{ tile := l.tile, tag := coreTag s l.core, handle := h, operands := some ks }] }
    modEdge s l fun e => { e with awaitReply := true }

/-- The operands of the translated part of a round are read, as far as no granule is empty (R216, R218, R312). -/
def readPart (s : State) (l : TileLoc) (c : EdgeCfg) : State :=
  let e := edgeSt s l
  let (ty, _, _, fill) := c.block
  let items := nextItems c e e.roundLeft
  let o := readItems l ty fill items s
  let got := items.take o.toks.length
  let s := match o.stop with
    | some (va, some pa) => if o.toks = [] then deferRead o.state l va pa else o.state
    | some (_, none) => if o.toks = [] then modEdge o.state l fun e => { e with roundLeft := 0 } else o.state
    | none => o.state
  if o.toks = [] then s else
  let s := dropReads (if o.poisoned then noteEdgeCir s l 0 else s) l false
  sendOperands (modEdge s l fun e => { e with roundLeft := e.roundLeft - dataCount got }) l (numberToks e.seq o.toks)

/-- Keep the last 64 tokens (R216). -/
def keepWindow (w : List Tok) (k : Tok) : List Tok := (w ++ [k]).drop (w.length - 63)

/-- Emit the next token that has been read; the stream moves on (R216). -/
def emitPending (s : State) (l : TileLoc) (c : EdgeCfg) (k : Tok) : State :=
  if !edgeOutFree s l then (if l.core = portCore then s else notePressed s l []) else
  let s := modEdge (edgeEmit s l k) l fun e =>
    let p := match edgeItem c e (e.tile, e.pos) with
      | some (_, p) => p
      | none => (e.tile, e.pos)
    { e with pending := e.pending.tail, window := keepWindow e.window k, seq := e.seq + 1, tile := p.1, pos := p.2,
             ended := k.last }
  if k.last then leaveRims s l else s

/-- A round begins: an engine, then every page (R218, R304). -/
def beginRound (s : State) (l : TileLoc) (c : EdgeCfg) (lo : Nat) : State :=
  let (_, round, base, _) := c.block
  match takeEngine s l (rimOf base) lo with
  | none => s
  | some s =>
    let items := nextItems c (edgeSt s l) round
    if items = [] then s else
    match prepareRound s l .read (itemAddrs items) with
    | (.waits, s) => s
    | (.fault va r, s) => voidRound s l .read va r
    | (.ready, s) => readPart (modEdge s l fun e => { e with roundLeft := dataCount items }) l c

/-- One step of a node that reads. -/
def readStep (s : State) (l : TileLoc) (c : EdgeCfg) (lo : Nat) : State :=
  let e := edgeSt s l
  if e.faulted.isSome || e.awaitReply then s
  else match e.pending with
    | k :: _ => emitPending s l c k
    | [] => if 0 < e.roundLeft then readPart s l c else beginRound s l c lo

/-- A source injects its marker: its position is recorded, and it may stop (R274, R276). The marker is an emitted token: it
stands in the window, so that a re-injection sends it again (R216, R234). -/
def edgeMark (s : State) (l : TileLoc) (m : Nat) : State :=
  if !edgeFree s l 0 then notePressed s l [] else
  let keep := { (s.tile l).edge with pending := [], roundLeft := 0, collected := [], engine := none, awaitReply := false }
  let s := saveElement s l m fun old => { old with edge := keep }
  let k := { markerTok m with seq := (s.tile l).edge.seq }
  stopAfterMark ((edgeEmit s l k).modTile l fun t =>
    { t with marks := m, edge := { t.edge with window := keepWindow t.edge.window k } }) l

/-- SPOUT_READ_ROUND: a marker that is due, a token of the round, or the next round (R216, R218, R274). -/
def execSpoutReadRound (l : TileLoc) (s : State) : Result :=
  match edgeCfg s l with
  | some (.spout false ty round base fill ds) =>
    let e := edgeSt s l
    if !edgeRuns s l || e.ended then .next s
    else if e.reinject.isSome || (l.core ≠ portCore && e.collected ≠ []) then .next s
    else match (if l.core = portCore then none else dueMark s l) with
      | some m => .next (edgeMark s l m)
      | none => .next (readStep s l (.spout false ty round base fill ds) 0)
  | _ => .next s

/-- SPOUT_REINJECT: the window from the sequence asked for is emitted again, in order (R216, R234). -/
def execSpoutReinject (l : TileLoc) (s : State) : Result :=
  match edgeCfg s l with
  | some (.spout false _ _ _ _ _) =>
    let s := match (edgeSt s l).reinject with
      | some n => modEdge s l fun e =>
          { e with reinject := none, collected := e.window.dropWhile fun k => !(k.kind = .data && k.seq = n) }
      | none => s
    match (edgeSt s l).collected with
    | k :: r =>
      if edgeOutFree s l then .next (modEdge (edgeEmit s l k) l fun e => { e with collected := r })
      else .next (if l.core = portCore then s else notePressed s l [])
    | [] => .next s
  | _ => .next s

/-- INDIRECT_GATHER: rows of the index token, or the next head: an index token, or another token that is forwarded (R305). -/
def execIndirectGather (l : TileLoc) (s : State) : Result :=
  match edgeCfg s l with
  | some (.gather ty round base fill rows rowLen signed stride) =>
    let c : EdgeCfg := .gather ty round base fill rows rowLen signed stride
    let e := edgeSt s l
    if e.ended then .next s
    else if e.collected ≠ [] then
      if e.pending = [] && !e.awaitReply && e.roundLeft = 0 && (edgeItem c e (e.tile, e.pos)).isNone then
        .next (modEdge s l fun e => { e with collected := [], tile := 0, pos := 0 })
      else .next (readStep s l c 48)
    else match edgeHead s l with
      | none => .next s
      | some k =>
        if k.kind = .data then
          let s := edgeTake s l
          let s := if k.tag then noteEdgeCir s l 0 else s
          .next (modEdge s l fun e => { e with collected := [k], tile := 0, pos := 0 })
        else if !edgeFree s l 0 then .next (notePressed s l [])
        else
          let s := edgeTake s l
          let s := if k.kind = .marker then
              (saveElement s l (markerOrdinal k) fun old => { old with edge := { EdgeSt.start with seq := e.seq } }).modTile l
                fun t => { t with marks := markerOrdinal k }
            else s
          let s := edgeEmit s l { k with seq := e.seq }
          let s := modEdge s l fun e => { e with seq := if k.kind = .marker then e.seq else e.seq + 1, ended := k.last }
          .next (if k.last then leaveRims s l else s)
  | _ => .next s

/-! ## Writing (R217, R218, R234) -/

/-- The position of the data token after a position. -/
def nextData (ty : Nat) (ds : List Dim) (p : Nat × Nat) : Nat × Nat :=
  if p.2 + 1 < tileToks ty ds then (p.1, p.2 + 1) else (p.1 + 1, 0)

/-- What a data token writes: runs of bytes, each within a page (R217). -/
def tokenRuns (width : Nat) (lanes : List (Option Nat)) (x : Vec512) : List (Nat × List Byte) :=
  let each := lanes.zipIdx.filterMap fun (a, i) => a.map fun a => (a, leBytes width (x.toNat / 2 ^ (8 * width * i)))
  (each.foldl (fun (acc : List (Nat × List Byte)) (a, b) => match acc with
    | (a', b') :: r => if a' + b'.length = a ∧ a % 2 ^ 16 ≠ 0 then (a', b' ++ b) :: r else (a, b) :: acc
    | [] => [(a, b)]) []).reverse

/-- The data tokens of a round that write, from a position on: the addresses of their lanes, and what they hold. A tagged token,
whose discard is final, has its place in the order and writes nothing (R217, R234, log 27). -/
def roundToks (ty base : Nat) (ds : List Dim) : Nat × Nat → List Tok → List (List (Option Nat) × Vec512)
  | _, [] => []
  | p, k :: r => (if k.tag then [] else [(tileLanes ty base ds p.1 p.2, k.payload)]) ++ roundToks ty base ds (nextData ty ds p) r

/-- The tokens of a round that write: those with an element inside the tensor (R216, R217). -/
def writingTokens (ty base : Nat) (ds : List Dim) : Nat × Nat → List Tok → Nat
  | _, [] => 0
  | p, k :: r =>
    (if !k.tag && (tileLanes ty base ds p.1 p.2).any Option.isSome then 1 else 0) + writingTokens ty base ds (nextData ty ds p) r

/-- The identifier of the stream engine of a node (R147). -/
def engineId (base : Nat) (e : EdgeSt) : Nat := 64 * rimOf base + e.engine.getD 0

/-- Write a run (R217, R147). -/
def writeRun (l : TileLoc) (id : Nat) (s : State) (run : Nat × List Byte) : State :=
  match edgePa s l .write run.1 with
  | none => s
  | some (pa, _, s) => watchEngine (s.writeMem pa run.2) (edgeWho s l).1 0 run.1 run.2.length id

/-- The granules that the lanes of a token cover whole, in whatever order its strides take them, lose their poison marks, and
become full in a presence page (R302, R311). -/
def coverLanes (l : TileLoc) (width : Nat) (lanes : List (Option Nat)) (s : State) : State :=
  let at_ := lanes.filterMap fun a => a.bind fun va => (edgePa s l .write va).map fun (pa, pres, _) => (pa, pres)
  let s := { s with poison := (coveredBy width (at_.map Prod.fst)).foldl nsDel s.poison }
  (coveredBy width ((at_.filter Prod.snd).map Prod.fst)).foldl (fun s g => fillPresent s (16 * g)) s

/-- Write a data token: its runs, then the granules that they cover (R217, R311). -/
def writeToken (l : TileLoc) (id ty : Nat) (s : State) (k : List (Option Nat) × Vec512) : State :=
  let width := (tyOf ty).width / 8
  coverLanes l width k.1 ((tokenRuns width k.1 k.2).foldl (writeRun l id) s)

/-- Each write raises the launch's count of acknowledgements, which replies lower (R217, R282). -/
def raiseAcks (s : State) (l : TileLoc) (n : Nat) : State :=
  if l.core = portCore then s else
  match (s.tile l).active with
  | none => s
  | some c =>
    let cl := l.core / 132
    let tag := coreTag s l.core
    let s := s.modCore l.core fun k =>
      { k with replies := k.replies ++ List.replicate n { tile := l.tile, tag := tag, handle := c.handle, operands := none } }
    match s.launch? cl c.handle with
    | some x => s.setLaunch cl c.handle { x with acks := x.acks + n }
    | none => s

/-- Commit the round that has been collected (R217, R218). -/
def commitRound (s : State) (l : TileLoc) (ty base : Nat) (ds : List Dim) : State :=
  match takeEngine s l (rimOf base) 0 with
  | none => s
  | some s =>
    let e := edgeSt s l
    let ks := roundToks ty base ds (e.tile, e.pos) e.committing
    let runs := ks.flatMap fun (lanes, x) => tokenRuns ((tyOf ty).width / 8) lanes x
    match prepareRound s l .write (runs.map Prod.fst) with
    | (.waits, s) => s
    | (.fault va r, s) => voidRound s l .write va r
    | (.ready, s) =>
      let s := ks.foldl (writeToken l (engineId base e) ty) s
      let p := e.committing.foldl (fun p _ => nextData ty ds p) (e.tile, e.pos)
      raiseAcks (modEdge s l fun e => { e with committing := [], tile := p.1, pos := p.2 }) l
        (writingTokens ty base ds (e.tile, e.pos) e.committing)

/-- A writing spout, or a block end, takes a token that is to be written or consumed (R217, R274, R362). -/
def writeTake (s : State) (l : TileLoc) (ty : Nat) (ds : List Dim) (k : Tok) : State :=
  match k.kind with
  | .data => modEdge s l fun e => { e with collected := e.collected ++ [k] }
  | .endOfTile => if tileBytes k = tileByteCount ty ds ∧ tileClean k then s else noteEdgeCir s l 3
  | .marker =>
    if l.core = portCore then s else
    (saveElement s l (markerOrdinal k) fun old => { old with edge := { (s.tile l).edge with engine := none } }).modTile l
      fun t => { t with marks := markerOrdinal k }
  | .streamEnd => if k.level = 15 then leaveRims (modEdge s l fun e => { e with ended := true }) l else s
  | _ => s

/-- What a sink that writes nothing more does with a token that is not data (R217, R235). -/
def writePass (s : State) (l : TileLoc) (ty : Nat) (ds : List Dim) (k : Tok) : State :=
  if k.kind = .data then s else writeTake s l ty ds k

/-- The place before a writing spout. -/
def behindEdge (l : TileLoc) : Place0 := .port l (edgePort l.tile) 0

/-- R234 at a writing spout, then the token's effect, and on a duplicated graph its partner's (R235); a tagged token at a block end
is discarded for good, no reading spout standing behind it. -/
def writeSink (s : State) (l : TileLoc) (ty : Nat) (ds : List Dim) (k : Tok) (other : Option (TileLoc × Tok)) : State :=
  if l.core = portCore then writeTake (if k.kind = .data && k.tag then noteEdgeCir s l 1 else s) l ty ds k else
  let e := edgeSt s l
  let behind := behindEdge l :: (other.map fun (p, _) => behindEdge p).toList
  let (s, m, verdict) := sinkDecide s l (s.tile l).marks behind { await := e.awaitSeq, once := e.taggedOnce } 0 k
  let s := modEdge s l fun e => { e with awaitSeq := m.await, taggedOnce := m.once }
  if verdict = .again then s
  else writeTake (other.elim s fun (p, k') => writePass s p ty ds k') l ty ds k

/-- A head that must wait: data while both buffers are full, a marker or the last stream-end until every write has been made. -/
def writeBlocked (e : EdgeSt) (round : Nat) (k : Tok) : Bool :=
  if k.kind = .data then round ≤ e.collected.length
  else (k.kind = .marker || k.last) && (e.collected ≠ [] || e.committing ≠ [])

/-- Take the head of a writing spout: a firing of its element (R157, R255). -/
def writeFire (s : State) (l : TileLoc) : State :=
  let s := edgeTake s l
  if l.core = portCore then s else noteFiring s l

/-- A writing spout takes its head, if it may: both copies' heads on a duplicated graph; on a disagreement neither is written,
and what else the sinks hold they hold (R217, R234, R235). On a duplicated graph a tagged token is compared before it is
discarded, a point that R234 and R235 leave open (DESIGN CHOICE, log 89). -/
def writeNext (s : State) (l : TileLoc) (ty round : Nat) (ds : List Dim) : State :=
  match edgeHead s l with
  | none => s
  | some k =>
    if writeBlocked (edgeSt s l) round k then s
    else match (if l.core = portCore then SinkRole.plain else sinkRole s l) with
      | .plain => writeSink (writeFire s l) l ty ds k none
      | .halted => writePass (writeFire s l) l ty ds k
      | .copyB => s
      | .copyA p =>
        match edgeHead s p with
        | none => s
        | some k' =>
          let s := writeFire (writeFire s l) p
          if !agree k k' then writePass (writePass (mismatch s l (s.tile l).marks) l ty ds k) p ty ds k'
          else writeSink s l ty ds k (some (p, k'))

/-- A full round, or what has been collected before a marker or the last end, moves to the buffer that commits once that is
free (R218). -/
def writeSwap (s : State) (l : TileLoc) (round : Nat) : State :=
  let e := edgeSt s l
  let flush := match edgeHead s l with
    | some k => k.kind = .marker || k.last
    | none => false
  if e.committing = [] && (e.collected.length = round || (flush && e.collected ≠ [])) then
    modEdge s l fun e => { e with committing := e.collected, collected := [] }
  else s

/-- SPOUT_WRITE_ROUND: the round that commits goes on, unless a fault holds it; the other buffer takes the next token the
while; a full one follows (R217, R218, R234, R235). -/
def execSpoutWriteRound (l : TileLoc) (s : State) : Result :=
  match edgeCfg s l with
  | some (.spout true ty round base _ ds) =>
    let e := edgeSt s l
    if e.ended then .next s
    else
      let s := if e.committing ≠ [] && e.faulted.isNone then commitRound s l ty base ds else s
      .next (writeSwap (writeNext s l ty round ds) l round)
  | _ => .next s

/-! ## Network ports (R171, R243) -/

/-- The edge node that a network port names. -/
def networkPeer (s : State) (l : TileLoc) (core edge row : Nat) : TileLoc :=
  { core := s.phys (128 * (l.core / 132) + core), tile := (if edge = 0 then 96 else 104) + row }

/-- A port is named back by a port of the other direction (R171). -/
def namedBack (s : State) (l p : TileLoc) (send : Bool) : Bool :=
  match edgeCfg s p with
  | some (.port send' core edge row _) => send' != send && networkPeer s p core edge row = l
  | _ => false

/-- A sending port takes a token from its tile (R171). -/
def networkSend (s : State) (l p : TileLoc) (vc : Nat) : State :=
  match portHead s routeFuel l (edgePort l.tile) vc with
  | none => s
  | some _ =>
    let b := (s.tile l).bound networkKey
    if 8 ≤ b.sent - b.takenKnown then pressBound (notePressed s l []) l networkKey else
    match portTake routeFuel s l (edgePort l.tile) vc with
    | none => s
    | some (k, s) =>
      let s := s.modTile l fun t =>
        { t with bounds := tset t.bounds networkKey { t.bound networkKey with sent := (t.bound networkKey).sent + 1 },
                 marks := if k.kind = .marker then markerOrdinal k else t.marks, edge := { t.edge with ended := k.last } }
      noteFiring (modEdge s p fun e => { e with pending := e.pending ++ [k] }) l

/-- A receiving port gives a token to its tile, up to its level-15 stream-end; what its buffer holds after that is of the next
period, and waits for the swap (R171, R229). -/
def networkReceive (s : State) (l p : TileLoc) (vc : Nat) : State :=
  match (edgeSt s l).pending with
  | [] => s
  | k :: r =>
    if (edgeSt s l).ended then s
    else if !edgeFree s l vc then notePressed s l [] else
    let s := (edgePush s l vc k).modTile l fun t =>
      { t with edge := { t.edge with pending := r, ended := k.last },
               marks := if k.kind = .marker then markerOrdinal k else t.marks }
    noteFiring (s.modTile p fun t =>
      { t with bounds := tset t.bounds networkKey { t.bound networkKey with taken := (t.bound networkKey).taken + 1 } }) l

/-- NETWORK_PORT_TRANSFER: one token of a channel, at its sending or its receiving port (R171). -/
def execNetworkPortTransfer (l : TileLoc) (s : State) : Result :=
  match edgeCfg s l with
  | some (.port send core edge row vc) =>
    let p := networkPeer s l core edge row
    if !namedBack s l p send then .next s
    else .next (if send then networkSend s l p vc else networkReceive s l p vc)
  | _ => .next s

/-! ## Walks and replies -/

/-- TRANSLATION_WALK: a walk of a rim die ends; a translation is buffered, a failure is kept for the round (R308, R309). -/
def execTranslationWalk (rim n : Nat) (s : State) : Result := .next (endWalk s rim n)

/-- What the code of a tier has found: a corrected error is counted at the rim die that owns its address, one that it cannot correct
marks the granule poisoned (R302). -/
def noteTier (s : State) (err : TierError) : State :=
  match err with
  | .clean => s
  | .corrected pa => s.modRim (ownerRim pa) fun r => { r with corrected := r.corrected + 1 }
  | .uncorrectable pa => if populated pa then { s with poison := nsAdd s.poison (pa / 16) } else s

/-- MEMORY_REPLY: a reply reaches its tile; one with another region tag is dropped and counted; what the tier's code found is
noted (R217, R282, R302). -/
def execMemoryReply (core : Nat) (reply : ReplyRead) (s : State) : Result :=
  let s := noteTier s reply.err
  match (s.core core).replies[reply.n]? with
  | none => .next s
  | some r =>
    let s := s.modCore core fun c => { c with replies := c.replies.eraseIdx reply.n }
    if r.tag ≠ coreTag s core then .next (s.modCore core fun c => { c with staleReplies := c.staleReplies + 1 })
    else match r.operands with
      | some ks =>
        .next (s.modTile { core := core, tile := r.tile } fun t =>
          { t with edge := { t.edge with pending := ks, awaitReply := false } })
      | none =>
        match s.launch? (core / 132) r.handle with
        | some x => .next (s.setLaunch (core / 132) r.handle { x with acks := x.acks - 1 })
        | none => .next s

end Sys2Proof.Machine
end

