-- ==== Sys2Proof/Machine/Graphs.lean ====
section
/-! DEFINITION. Graph handles (R222) and what their tiles are: configurations by entry, sources and egress pots (R273, R325),
sinks (R234, R271), drain points (R229), and the start of a configuration period (R154, R175, R208, R270). -/

namespace Sys2Proof.Machine

open Sys2Proof

/-! ## Handles (R222, R384) -/

/-- The generation of a handle number. -/
def Cluster.handleGen (c : Cluster) (h : Nat) : Nat := tgetD c.handleGens h 1

/-- A graph handle as a value (R222). -/
def graphWord (s : State) (cl h : Nat) : Word :=
  w64 (((s.cluster cl).handleGen h) * 2 ^ 56 + h * 2 ^ 46 + cl * 2 ^ 28)

/-- The handle that a value names in a cluster (R222). -/
def namedGraph (s : State) (cl : Nat) (w : Word) : Option (Nat × Handle) :=
  let h := bits w 55 46
  if bits w 45 29 ≠ 0 ∨ bits w 28 28 ≠ cl ∨ bits w 27 0 ≠ 0 then none else
  match s.handle? cl h with
  | some x => if (s.cluster cl).handleGen h = bits w 63 56 then some (h, x) else none
  | none => none

/-- The handle that a thread names: of its cluster and its context. -/
def graphOf (s : State) (t : Thread) (w : Word) : Option (Nat × Handle) :=
  match namedGraph s (t.lcore / 128) w with
  | some (h, x) => if x.ctx = t.ctx then some (h, x) else none
  | none => none

/-- The logical cores of a handle's placement. -/
def graphCores (x : Handle) : List Nat := (x.entries.map Placed.lcore).dedup

/-- Free a handle: its generation moves on, its launch is forgotten (R222, R225); a core that keeps no configuration and no
thread may leave its context (R283). -/
def freeGraph (s : State) (cl h : Nat) (x : Handle) : State :=
  (graphCores x).foldl graphDropped ((completeReports s cl h).modCluster cl fun c =>
    { c with handles := tdel c.handles h, launches := tdel c.launches h,
             handleGens := tset c.handleGens h (nextGen (c.handleGen h)) })

/-- A launch is queued, starting, running or suspended. -/
def Launch.live (x : Launch) : Bool := x.state ≠ .ended

/-- The latest launch of a handle has started and not ended (R268). -/
def launchRuns (s : State) (cl h : Nat) : Bool := match s.launch? cl h with
  | some x => x.state = .starting || x.state = .running
  | none => false

/-- The handle's launch has its sources started. -/
def sourcesRun (s : State) (cl h : Nat) : Bool := match s.launch? cl h with
  | some x => x.state = .running
  | none => false

/-- A source starts with the swap of its tile: its launch runs, or has been admitted with .wave, whose sources wait for no admission
step (R240, R270, where R250 has a launch's sources start after its three phases; DEDUCED, log 85). -/
def sourcesStart (s : State) (cl h : Nat) : Bool := match s.launch? cl h with
  | some x => x.state = .running || (x.state = .starting && x.wave)
  | none => false

/-! ## Configurations of a handle -/

/-- The configuration of a handle at a place: its shadow or its active one. -/
def cfgFor (s : State) (h : Nat) (l : TileLoc) : Option TileCfg :=
  let t := s.tile l
  match t.shadow with
  | some c => if c.handle = h then some c else (match t.active with
    | some a => if a.handle = h then some a else none
    | none => none)
  | none => match t.active with
    | some a => if a.handle = h then some a else none
    | none => none

/-- The entries of a handle that hold a configuration, in table order. -/
def graphCfgs (s : State) (h : Nat) (x : Handle) : List (Placed × TileCfg) :=
  x.entries.filterMap fun e => (cfgFor s h e.loc).map fun c => (e, c)

/-- The configurations that a handle's tiles have accepted, in table order, whatever the tiles run now. -/
def loadedCfgs (x : Handle) : List (Placed × TileCfg) := x.entries.filterMap fun e => e.cfg.map fun c => (e, c)

/-- A stream buffer whose push route has source none (R219, R273). -/
def TileCfg.isSource (c : TileCfg) : Bool := match c.kind with
  | .pot (.stream _ _) => (c.switches.find? fun w => w.dest = 6).any fun w => w.src = 6
  | _ => false

/-- A stream buffer without a pop port (R325). -/
def TileCfg.isEgress (c : TileCfg) : Bool := match c.kind with
  | .pot (.stream _ _) => !(chainsOf c.switches).any fun (_, ws) => (ws.head?.map SwitchWord.src) = some 5
  | _ => false

/-- A writing spout, a driven scratchpad, or an egress pot (R205, R234). -/
def TileCfg.isSink (c : TileCfg) : Bool := c.isEgress || (match c.kind with
  | .pot (.scratch _) => c.switches.any fun w => w.dest = 6 && w.src ≠ 6
  | .edge (.spout true _ _ _ _ _) => true
  | _ => false)

/-- A source: it starts with its launch (R225): a source pot, or a reading spout. -/
def TileCfg.starts (c : TileCfg) : Bool := c.isSource || (match c.kind with
  | .edge (.spout false _ _ _ _ _) => true
  | _ => false)

/-- The source pots of a handle in table order (R273). -/
def sourcePots (s : State) (h : Nat) (x : Handle) : List TileLoc :=
  (graphCfgs s h x).filterMap fun (e, c) => if c.isSource then some e.loc else none
/-- The egress pots of a handle in table order (R321, R325). -/
def egressPots (s : State) (h : Nat) (x : Handle) : List TileLoc :=
  (graphCfgs s h x).filterMap fun (e, c) => if c.isEgress then some e.loc else none
/-- The sinks of a handle in table order (R246). -/
def graphSinks (s : State) (h : Nat) (x : Handle) : List TileLoc :=
  (graphCfgs s h x).filterMap fun (e, c) => if c.isSink then some e.loc else none

/-- A tile is drained for its sink: it holds the level-15 stream-end (R205, R217, R325). -/
def holdsEnd (t : Tile) : Bool :=
  match t.active with
  | none => false
  | some c => match c.kind with
    | .pot (.scratch _) => (drivenChannels t).all fun v => nsMem t.ended (linkKey 6 v)
    | .pot (.stream _ _) => nsMem t.ended 100
    | .edge _ => t.edge.ended
    | _ => false

/-- A sink holds the marker of an ordinal, or the end of its stream, after which no marker comes (R274). -/
def holdsMark (t : Tile) (m : Nat) : Bool := m ≤ t.marks || holdsEnd t

/-! ## Drain points (R229) -/

/-- The inputs of a tile on channels 0 to 6 have taken their level-15 stream-ends. -/
def inputsEnded (t : Tile) (c : TileCfg) : Bool :=
  ((chainsOf c.switches).all fun (_, ws) => match ws with
    | w :: _ => !(w.src < 4 && w.vc < 7) || nsMem t.ended (linkKey w.src w.vc)
    | [] => true) &&
  (match c.kind with
   | .pan gs => gs.all fun g => (stageReads c.switches g).all fun (p, v) => nsMem t.ended (linkKey p v)
   | _ => true)

/-- Every element of a tile has forwarded or holds the stream-end, and holds no tokens. -/
def elementsEnded (t : Tile) (c : TileCfg) : Bool :=
  match c.kind with
  | .pan gs => gs.zipIdx.all fun (g, i) =>
      let st := tgetD t.stages (i + 1) StageSt.start
      g.idle || (nsMem t.ended (101 + i) && st.hold = [] && st.outq = [] && st.slot.isNone)
  | .pot (.scratch _) => (drivenChannels t).all fun v => nsMem t.ended (linkKey 6 v)
  | .pot (.stream _ _) => nsMem t.ended 100 && t.pot.fifo = [] && t.pot.preloadEnd.isNone
  | .pot (.host _) => (drivenChannels t).all fun v => nsMem t.ended (linkKey 6 v)
  | .pot _ => nsMem t.ended 100 && t.pot.outq = []
  | .pass => true
  | .edge _ => t.edge.ended

/-- The tile stands at or past its drain point, or is idle (R229, R239). -/
def drainedTile (t : Tile) : Bool := match t.active with
  | none => true
  | some c => inputsEnded t c && elementsEnded t c

/-! ## Configuration periods -/

/-- A pot element when its period starts: a stream buffer holds its preloaded tokens and the stream-end that follows (R208). -/
def potStart (k : TileKind) : PotSt :=
  match k with
  | .pot (.stream _ pre) =>
    let n := pre.length
    { PotSt.start with
      fifo := pre.zipIdx.map fun (x, i) => { Tok.zero with payload := x, seq := BitVec.ofNat 24 i },
      preloadEnd := if n = 0 then none
        else some { Tok.zero with kind := .streamEnd, level := 15, seq := BitVec.ofNat 24 n },
      row := n, pushed := n }
  | _ => PotSt.start

/-- The next sequence number of a source pot's stream at the start of its period (R208, R273). -/
def firstInject (k : TileKind) : BitVec 24 := match k with
  | .pot (.stream _ pre) => if pre = [] then 0 else BitVec.ofNat 24 (pre.length + 1)
  | _ => 0

/-- Whether a pot is in scratchpad mode after a configuration of a kind: one that gives it no mode leaves it as it was (R383,
log 7). -/
def keepsScratch (k : TileKind) (old : Bool) : Bool :=
  match k with
  | .pot (.scratch _) => true
  | .pot _ => false
  | _ => old

/-- The element state of a tile at the start of a period of a configuration (R154, R164, R175, R198, R216). -/
def startTile (t : Tile) (c : TileCfg) : Tile :=
  { t with
    active := some c, ended := [], forks := [], stages := [], pot := potStart c.kind, nodes := [], ctl := [], edge := EdgeSt.start,
    credit := 0, tagAll := false, marks := 0, injected := firstInject c.kind, running := false,
    scratch := keepsScratch c.kind t.scratch }

/-- The places of a stream buffer's preloaded tokens are written whole: they lose their poison marks (R203, R208). -/
def preloadPlaces (s : State) (l : TileLoc) (k : TileKind) : State :=
  match k with
  | .pot (.stream _ pre) => s.modCore l.core fun c =>
    { c with poisoned := c.poisoned.filter fun g => !(potBase l.tile / 16 ≤ g && g < potBase l.tile / 16 + 4 * pre.length) }
  | _ => s

/-- The granules of a pot take the full-empty state that its configuration names (R43); waiters of granules that become full
wake (R117). A stream buffer holds its preloaded tokens. -/
def potActivate (s : State) (l : TileLoc) (k : TileKind) : State :=
  match k with
  | .pot (.scratch full) =>
    let lo := potBase l.tile / 16
    let hi := lo + 8192
    let s := s.modCore l.core fun c =>
      { c with full := c.full.filter (· < lo) ++ (if full then (List.range 8192).map (· + lo) else []) ++
                       c.full.filter (hi ≤ ·) }
    if !full then s else
    let keys := ((s.core l.core).waiters.map fun w => w.key % 2 ^ 19).filter fun g => lo ≤ g && g < hi
    keys.dedup.foldl (fun s g => s.fill l.core (16 * g)) s
  | _ => preloadPlaces s l k

/-- What a network port keeps of its buffer when its tile swaps: what a channel of the new configuration from the same peer has
already brought, which is of the new period (R171, R229). -/
def keptTokens (t : Tile) (c : TileCfg) : List Tok :=
  match t.active.map TileCfg.kind, c.kind with
  | some (.edge (.port false core edge row _)), .edge (.port false core' edge' row' _) =>
    if core = core' ∧ edge = edge' ∧ row = row' then t.edge.pending else []
  | _, _ => []

/-- A tile makes its shadow active (R229); its sources run from then on if the handle's launch runs, or has been admitted with .wave,
and its root nodes have their permit (R240, R270). An INJECT that waits on the tile's source tries again (R57, log 62). -/
def swapTile (s : State) (l : TileLoc) : State :=
  match (s.tile l).shadow with
  | none => s
  | some c =>
    let s := if 96 ≤ l.tile then leaveRims s l else s
    let s := s.modTile l fun t => { startTile { t with shadow := none, armed := false } c with
      running := sourcesStart s (l.core / 132) c.handle, edge := { EdgeSt.start with pending := keptTokens t c } }
    let s := potActivate s l c.kind
    let s := if c.isSource then wakeInject s l else s
    if launchRuns s (l.core / 132) c.handle then permitRoots s l else s

/-- Every tile of a handle has swapped: the handle is active, unless it is frozen until its reload (R225, R233). -/
def settleGraph (s : State) (cl h : Nat) : State :=
  match s.handle? cl h with
  | none => s
  | some x =>
    let waits := x.entries.any fun e => match (s.tile e.loc).shadow with
      | some c => c.handle = h
      | none => false
    if x.armed && !waits then
      s.setHandle cl h { x with armed := false, state := if x.state = .frozen then .frozen else .active }
    else s

/-- Empty the links that a tile drives, and the network channel that it receives; with `count` the tokens found are counted and
reported (R154, R171). -/
def emptyLinks (s : State) (l : TileLoc) (count : Bool) : State :=
  let t := s.tile l
  let n := (t.links.map fun (_, q) => q.length).sum + (match t.active.map TileCfg.kind with
    | some (.edge (.port false _ _ _ _)) => t.edge.pending.length
    | _ => 0)
  let s := s.modTile l fun t => { t with links := [], forks := [], bounds := [] }
  if count && n ≠ 0 then noteCir (s.modCore l.core fun c => { c with joinDrops := c.joinDrops + n }) l 3 else s

/-- The signature of a configuration does not match its words (R232). -/
def TileCfg.foul (c : TileCfg) : Bool := crc32c (wordBytes c.words) ≠ c.sig.toNat

/-- A tile belongs to a graph that is frozen: it keeps its configuration until the reload (R233). -/
def frozenAt (s : State) (l : TileLoc) : Bool := match (s.tile l).active with
  | some c => ((s.handle? (l.core / 132) c.handle).map Handle.state) = some .frozen
  | none => false

/-- A tile stands at its drain point with a configuration whose signature does not match and that has not been frozen yet
(R232, R233). -/
def foulDrain (t : Tile) : Option TileCfg := match t.active with
  | some c => if c.foul && !t.tagAll then some c else none
  | none => none

/-- A graph has a re-injection to come: a reading spout has one to begin or to finish, or a sink awaits a sequence number. What is
sent again passes every tile of its path, so none of them is past its drain point (R229, R234). -/
def repairing (s : State) (l : TileLoc) : Bool :=
  match (s.tile l).active with
  | none => false
  | some c => (((s.handle? (l.core / 132) c.handle).map Handle.entries).getD []).any fun e =>
    match (s.tile e.loc).active with
    | some d => d.handle = c.handle && (match d.kind with
      | .edge (.spout false _ _ _ _ _) => (s.tile e.loc).edge.reinject.isSome || (s.tile e.loc).edge.collected ≠ []
      | _ => (s.tile e.loc).edge.awaitSeq.isSome || (s.tile e.loc).pot.awaitSeq ≠ [])
    | none => false

/-- A tile may take its shadow: it is idle or past its drain point, its store passes its check there, and its graph is not
frozen and awaits no re-injection (R229, R232, R233, R234). -/
def maySwap (s : State) (l : TileLoc) : Bool :=
  drainedTile (s.tile l) && (foulDrain (s.tile l)).isNone && !frozenAt s l && !repairing s l

/-- Arm a loaded handle: idle tiles and tiles past their drain points swap at once (R225, R239). -/
def armGraph (s : State) (cl h : Nat) : State :=
  match s.handle? cl h with
  | none => s
  | some x =>
    let s := s.setHandle cl h { x with armed := true }
    let s := x.entries.foldl (fun s e =>
      match (s.tile e.loc).shadow with
      | some c =>
        if c.handle ≠ h then s
        else if maySwap s e.loc then swapTile s e.loc
        else s.modTile e.loc fun t => { t with armed := true }
      | none => s) s
    settleGraph s cl h

/-- Discard every shadow of a handle (R225). -/
def dropShadows (s : State) (h : Nat) (x : Handle) : State :=
  x.entries.foldl (fun s e => match (s.tile e.loc).shadow with
    | some c => if c.handle = h then s.modTile e.loc fun t => { t with shadow := none, armed := false } else s
    | none => s) s

/-- A tile's configuration becomes idle (R225, R276). -/
def idleTile (s : State) (l : TileLoc) : State :=
  let s := if 96 ≤ l.tile then leaveRims s l else s
  let s := emptyLinks s l false
  s.modTile l fun t => { startTile t (t.active.getD { handle := 0, entry := 0, words := [], sig := 0, kind := .pass,
                                                      switches := [] }) with active := none }

/-- The active configurations of a handle become idle (R225, R276). -/
def idleGraph (s : State) (h : Nat) (x : Handle) : State :=
  x.entries.foldl (fun s e => match (s.tile e.loc).active with
    | some c => if c.handle = h then idleTile s e.loc else s
    | none => s) s

/-- A new configuration period of a handle's active configurations (R154, R270). -/
def restartGraph (s : State) (h : Nat) (x : Handle) : State :=
  let mine := x.entries.filter fun e => match (s.tile e.loc).active with
    | some c => c.handle = h
    | none => false
  let s := mine.foldl (fun s e => emptyLinks s e.loc true) s
  mine.foldl (fun s e => match (s.tile e.loc).active with
    | some c =>
      let s := if 96 ≤ e.loc.tile then leaveRims s e.loc else s
      (preloadPlaces s e.loc c.kind).modTile e.loc fun t => startTile t c
    | none => s) s

/-- The threads of a launch (R55, R270). -/
def launchThreads (cl : Nat) (x : Handle) (v : Launch) (g1 : Word) : Nat → State → State
  | 0, s => s
  | n + 1, s =>
    let s := launchThreads cl x v g1 n s
    match createThread s v.ctx (128 * cl + x.originCore) v.entry g1 (w64 n) v.status0 v.tvec (some v.queue) with
    | some (_, s) => s
    | none => s

/-- The sources of a launch start, and then its threads are created, once (R225, R270); an INJECT that waits tries again (R57). -/
def startSources (s : State) (cl h : Nat) : State :=
  match s.handle? cl h, s.launch? cl h with
  | some x, some v =>
    let s := s.setLaunch cl h { v with state := .running, threads := 0 }
    let s := x.entries.foldl (fun s e => match (s.tile e.loc).active with
      | some c => if c.handle = h then s.modTile e.loc fun t => { t with running := true } else s
      | none => s) s
    wakeWhere (launchThreads cl x v (graphWord s cl h) v.threads s) fun r => r = .inject h
  | _, _ => s

end Sys2Proof.Machine
end

