-- ==== Sys2Proof/Machine/Routes.lean ====
section
/-! DEFINITION. The routes of a loaded graph, traced from outputs to inputs, and the cross-tile checks of a load (R163, R172). -/

namespace Sys2Proof.Machine

open Sys2Proof

/-- An output or input of a route: the tile, the stage (0 for a mode element, an edge node or a control source), and which
output or input: of a stage output 0 and inputs 0 (A), 1 (B), 2 (plane); of the rest 8 plus the channel; 16 the control
sink or source. -/
structure RouteEnd where
  loc : TileLoc
  unit : Nat
  io : Nat
deriving DecidableEq, Repr

/-- A link that a route leaves a tile by. -/
structure Hop where
  loc : TileLoc
  port : Nat
  vc : Nat
  slots : Nat
deriving DecidableEq, Repr

/-- A route, and the channel it runs on (R163). -/
structure Route where
  vc : Nat
  src : RouteEnd
  dst : RouteEnd
  hops : List Hop
deriving DecidableEq, Repr

/-- A graph's configurations stand as active ones: what the checks and the solver look at. -/
def preview (s : State) (x : Handle) : State :=
  x.entries.foldl (fun s e => match e.cfg with
    | some c => s.modTile e.loc fun t => { t with active := some c }
    | none => s) s

/-- The configuration that a route meets at a tile: none on a retired or unconfigured one (R163). -/
def routeCfg (s : State) (l : TileLoc) : Option TileCfg :=
  if nsMem (s.core l.core).retired l.tile then none else (s.tile l).active

/-- The word index of switch word k, counted from the header (R222). -/
def switchIndex (c : TileCfg) (k : Nat) : Nat :=
  1 + (match c.kind with
    | .pan gs => (gs.map fun g => 1 + g.ext.length).sum
    | _ => 0) + k / 2

/-- The word index of stage i. -/
def stageIndex (c : TileCfg) (i : Nat) : Nat :=
  1 + (match c.kind with
    | .pan gs => ((gs.take (i - 1)).map fun g => 1 + g.ext.length).sum
    | _ => 0)

/-- The port reads of a pan's stages: stage, input, port, channel (R155, R190). -/
def stagePorts (c : TileCfg) : List (Nat × Nat × Nat × Nat) :=
  match c.kind with
  | .pan gs => gs.zipIdx.flatMap fun (g, i) =>
      let one := fun (code io : Nat) => if 1 ≤ code ∧ code ≤ 4 then [(i + 1, io, code - 1, selectedVc c.switches (if io = 0 then 4 else 5) (code - 1))] else []
      one g.srcA 0 ++ one g.srcB 1 ++
        (if g.cls = 6 ∧ 1 ≤ g.md % 8 ∧ g.md % 8 ≤ 4 then [(i + 1, 2, g.md % 8 - 1, 6)] else [])
  | _ => []

/-- The channel on which an edge node takes tokens from its tile, and the one on which it gives tokens (R171, R217, R305). -/
def edgeReads : EdgeCfg → Option Nat
  | .spout w _ _ _ _ _ => if w then some 0 else none
  | .port send _ _ _ vc => if send then some vc else none
  | .gather .. => some 0
/-- The channel on which an edge node gives tokens. -/
def edgeGives : EdgeCfg → Option Nat
  | .spout w _ _ _ _ _ => if w then none else some 0
  | .port send _ _ _ vc => if send then none else some vc
  | .gather .. => some 0

/-- A branch of a trace: the tile and position of a switch word that a token leaves through, with the links behind it and how
many of the last were wire-throughs. -/
structure Branch where
  loc : TileLoc
  pos : Nat
  word : SwitchWord
  slots : Nat
  run : Nat
  hops : List Hop
deriving DecidableEq, Repr

/-- A chain of a tile with the positions of its words. -/
def chainWords (i : Nat) (ws : List SwitchWord) : List (Nat × SwitchWord) := ws.zipIdx.map fun (w, j) => (i + j, w)

/-- The stage inputs that read what a word with destination 4 or 5 feeds: those that name its port and take its channel, else
input A or B of stage 1 (R153, R155). -/
def wordReaders (c : TileCfg) (w : SwitchWord) : List (Nat × Nat) :=
  let found := match c.kind with
    | .pan gs => gs.zipIdx.flatMap fun (g, i) =>
        let one := fun (code io : Nat) =>
          if code = w.src + 1 ∧ w.src < 4 ∧ selectedWord c.switches (4 + io) w.src = some w then [(i + 1, io)] else []
        one g.srcA 0 ++ one g.srcB 1
    | _ => []
  if found = [] then [(1, w.dest - 4)] else found

/-- The inputs at which a route ends that leaves a tile's word with a destination of 4 to 7. -/
def localEnds (c : Option TileCfg) (l : TileLoc) (w : SwitchWord) : List RouteEnd :=
  if w.dest < 6 then
    ((c.map fun c => wordReaders c w).getD [(1, w.dest - 4)]).map fun (i, io) => { loc := l, unit := i, io := io }
  else [{ loc := l, unit := 0, io := if w.dest = 6 then 8 + w.vc else 16 }]

/-- What reads a port's channel of a tile: the words of a chain, or inputs of elements. -/
def portReaders (c : TileCfg) (l : TileLoc) (port vc : Nat) : List (Nat × SwitchWord) × List RouteEnd :=
  match (chainsOf c.switches).find? fun (_, ws) => match ws with
    | w :: _ => w.src = port && w.vc = vc
    | [] => false with
  | some (i, ws) => (chainWords i ws, [])
  | none =>
    let edge := match c.kind with
      | .edge e => if edgeReads e = some vc then [{ loc := l, unit := 0, io := 8 + vc }] else []
      | _ => []
    ([], edge ++ (stagePorts c).filterMap fun (i, io, p, v) =>
      if p = port ∧ v = vc then some { loc := l, unit := i, io := io } else none)

/-- A word crosses into a neighbour: what reads the link there, or none (R163, R172). -/
def crossing (s : State) (l : TileLoc) (dest vc : Nat) : Option (TileLoc × List (Nat × SwitchWord) × List RouteEnd) :=
  match neighbour l dest with
  | none => none
  | some n => match routeCfg s n with
    | none => none
    | some c =>
      let (ws, ends) := portReaders c n (facing dest) vc
      if ws = [] ∧ ends = [] then none else some (n, ws, ends)

/-- Follow branches to the ends of their routes; a failure names the tile and the word (R163). -/
def traceRoutes (s : State) (src : RouteEnd) : Nat → List Branch → List Route → Except (TileLoc × Nat) (List Route)
  | 0, bs, acc => match bs with
    | [] => .ok acc
    | b :: _ => .error (b.loc, b.pos)
  | _ + 1, [], acc => .ok acc
  | fuel + 1, b :: bs, acc =>
    let w := b.word
    let fail : Except (TileLoc × Nat) (List Route) := .error (b.loc, b.pos)
    let total := b.slots + w.slots
    if 4 ≤ w.dest then
      if total = 0 then fail
      else traceRoutes s src fuel bs
        ((localEnds (s.tile b.loc).active b.loc w).map (fun e => { vc := w.vc, src := src, dst := e, hops := b.hops : Route }) ++ acc)
    else
      let run := if w.slots = 0 then b.run + 1 else 0
      let hop : Hop := { loc := b.loc, port := w.dest, vc := w.vc, slots := w.slots }
      if 6 < run ∨ b.hops.any (fun x => x.loc = b.loc && x.port = w.dest && x.vc = w.vc) then fail else
      match crossing s b.loc w.dest w.vc with
      | none => fail
      | some (n, ws, ends) =>
        if ends ≠ [] ∧ total = 0 then fail else
        let hops := b.hops ++ [hop]
        let more := ws.map fun (k, x) => { loc := n, pos := k, word := x, slots := total, run := run, hops := hops : Branch }
        traceRoutes s src fuel (more ++ bs) (ends.map (fun e => { vc := w.vc, src := src, dst := e, hops := hops : Route }) ++ acc)

/-- A bound on the branches of one output. -/
def traceFuel : Nat := 4096

/-- The outputs of a tile and the branches they start: chains of source 4, 5 and 7, and an edge node's link. -/
def tileOutputs (c : TileCfg) (l : TileLoc) : List (RouteEnd × List Branch) :=
  let chains := (chainsOf c.switches).filterMap fun (i, ws) => match ws with
    | w :: _ =>
      let start := (chainWords i ws).map fun (k, x) => { loc := l, pos := k, word := x, slots := 0, run := 0, hops := [] : Branch }
      if w.src = 4 then some ({ loc := l, unit := 6, io := 0 : RouteEnd }, start)
      else if w.src = 5 then some ({ loc := l, unit := 0, io := 8 + w.vc : RouteEnd }, start)
      else if w.src = 7 then some ({ loc := l, unit := 0, io := 16 : RouteEnd }, start)
      else none
    | [] => none
  match c.kind with
  | .edge e => match edgeGives e with
    | some vc =>
      let w : SwitchWord := { dest := edgePort l.tile, src := 6, slots := edgeSlots, vc := vc, more := false, pass := false }
      [({ loc := l, unit := 0, io := 8 + vc }, [{ loc := l, pos := 0, word := w, slots := 0, run := 0, hops := [] }])]
    | none => []
  | _ => chains

/-- Every route of some outputs. -/
def routesOf (s : State) : List (RouteEnd × List Branch) → List Route → Except (TileLoc × Nat) (List Route)
  | [], acc => .ok acc
  | (src, bs) :: r, acc => match traceRoutes s src traceFuel bs acc with
    | .ok acc => routesOf s r acc
    | .error e => .error e

/-- The inputs that a tile reads, with the word that reads each: port, channel, word index (R163). -/
def tileReads (c : TileCfg) (l : TileLoc) : List (Nat × Nat × Nat) :=
  match c.kind with
  | .edge e => match edgeReads e with
    | some vc => [(edgePort l.tile, vc, 0)]
    | none => []
  | _ =>
    ((chainsOf c.switches).filterMap fun (i, ws) => match ws with
      | w :: _ => if w.src < 4 then some (w.src, w.vc, switchIndex c i) else none
      | [] => none) ++ (stagePorts c).map fun (i, _, p, v) => (p, v, stageIndex c i)

/-- A route drives a port's channel: the words that lead to it start at an output of an element. Words that only go round a
ring have no output behind them, so no route drives them (R163). -/
def isDriven (s : State) : Nat → TileLoc → Nat → Nat → Bool
  | 0, _, _, _ => false
  | fuel + 1, l, port, vc =>
    match neighbour l port with
    | none => false
    | some n => match routeCfg s n with
      | none => false
      | some c => match c.kind with
        | .edge e => edgeGives e = some vc
        | _ => (chainsOf c.switches).any fun (_, ws) => match ws with
          | w :: _ => (ws.any fun x => x.dest = facing port && x.vc = vc) &&
              (if w.src < 4 then isDriven s fuel n w.src w.vc else w.src ≠ 6)
          | [] => false

/-- A node's parents in its pot form a cycle or name a node that is not there (R163). -/
def parentsBad (ns : List NodeCfg) (i : Nat) : Nat → Bool
  | 0 => true
  | n + 1 => match ns[i]? with
    | none => true
    | some x => if x.parent < 4 then parentsBad ns x.parent n else false

/-- The parents of controller pots over control links form a cycle (R163). -/
def treeLoops (s : State) (start l : TileLoc) : Nat → Bool
  | 0 => false
  | n + 1 => match controlParent s l with
    | none => false
    | some p => if !isHost (s.tile p) then false else p = start || treeLoops s start p n

/-- The controller checks of a tile (R163). -/
def nodesBad (s : State) (l : TileLoc) : Bool :=
  let ns := hostNodes (s.tile l)
  if ns = [] then false else
  let inner := fun i => (innerChildren ns i).length
  (List.range ns.length).any (fun i => parentsBad ns i 5) ||
  (ns.zipIdx.any fun (n, i) => n.children < inner i) ||
  (ns.zipIdx.map fun (n, i) => n.children - inner i).sum ≠ (childWords s l).length ||
  treeLoops s l l 1024

/-- Every route of a handle, on a previewed state. -/
def graphRoutes (s : State) (x : Handle) : List Route :=
  x.entries.flatMap fun e => match (s.tile e.loc).active with
    | some c => match routesOf s (tileOutputs c e.loc) [] with
      | .ok rs => rs
      | .error _ => []
    | none => []

/-- An output of a tile can carry end-of-tile tokens because an input takes them: stages, the pot modes but a scratchpad and a
controller host, a gather, and the receiving end of a network port forward them (R161, R171, R205, R305). -/
def forwardsTile (s : State) (r : Route) (into : TileLoc) : Bool :=
  match (s.tile r.src.loc).active with
  | none => false
  | some c => match c.kind with
    | .pot (.scratch _) | .pot (.host _) => false
    | .edge (.port send core edge row _) =>
      !send && { core := s.phys (128 * (r.src.loc.core / 132) + core), tile := (if edge = 0 then 96 else 104) + row } = into
    | .edge (.spout ..) => false
    | _ => r.src.io ≠ 16 && r.src.loc = into

/-- The routes that can carry end-of-tile tokens: those of reading spouts, and on from the tiles they reach (R161, R216). -/
def tileRoutes (s : State) (all : List Route) : Nat → List Route → List Route
  | 0, got => got
  | fuel + 1, got =>
    let more := all.filter fun r => !got.contains r && got.any fun g => forwardsTile s r g.dst.loc
    if more = [] then got else tileRoutes s all fuel (got ++ more)

/-- A route out of a reading spout. -/
def fromSpout (s : State) (r : Route) : Bool := match (s.tile r.src.loc).active with
  | some c => match c.kind with
    | .edge (.spout false _ _ _ _ _) => true
    | _ => false
  | none => false

/-- The channel of a controller-host pot that a route takes end-of-tile tokens to; the pot rejects any such route (R161). -/
def hostTileRoute (s : State) (all : List Route) (l : TileLoc) : Option Nat :=
  if !isHost (s.tile l) then none else
  ((tileRoutes s all all.length (all.filter (fromSpout s))).find? fun r => r.dst.loc = l && r.dst.io < 16).map fun r => r.dst.io - 8

/-- A failure of the cross-tile checks: the entry and the word (R222, R226 reason 12). -/
def crossFail (x : Handle) (i : Nat) (at_ : TileLoc) (k : Nat) (s : State) : Nat × Nat :=
  match x.entries.findIdx? fun e => e.loc = at_ with
  | some j => (j, match (s.tile at_).active with
    | some c => switchIndex c k
    | none => 0)
  | none => (i, 0)

/-- The cross-tile checks of one entry (R161, R163). -/
def entryBad (s : State) (x : Handle) (i : Nat) (e : Placed) : Option (Nat × Nat) :=
  match (s.tile e.loc).active with
  | none => none
  | some c =>
    match (tileReads c e.loc).find? fun (p, v, _) => !isDriven s traceFuel e.loc p v with
    | some (_, _, k) => some (i, k)
    | none =>
      match routesOf s (tileOutputs c e.loc) [] with
      | .error (at_, k) => some (crossFail x i at_ k s)
      | .ok _ =>
        if nodesBad s e.loc then some (i, 0)
        else (hostTileRoute s (graphRoutes s x) e.loc).map fun v =>
          (i, switchIndex c ((c.switches.findIdx? fun w => w.dest = 6 && w.vc = v).getD 0))

/-- The first entry that fails the cross-tile checks, on a previewed state (R163, R226). -/
def crossBad (s : State) (x : Handle) : Option (Nat × Nat) :=
  x.entries.zipIdx.findSome? fun (e, i) => entryBad s x i e

end Sys2Proof.Machine
end

