-- ==== Sys2Proof/Machine/Solver.lean ====
section
/-! DEFINITION. The rate solver: counts of elements (R200, R219), balance equations (R245), needs and fractions (R246, R247),
voltages (R248), boundary links (R244, R249) and ceilings (R251). Islands are named by logical core throughout. -/

namespace Sys2Proof.Machine

open Sys2Proof

/-! ## Fractions (R242, R247) -/

/-- A fraction as a number. -/
def Frac.rat (f : Frac) : ℚ := (f.p : ℚ) / f.q
/-- A number as a fraction in lowest terms (R242). -/
def fracOf (x : ℚ) : Frac := { p := x.num.toNat, q := x.den }
/-- The least numerator over q that is not below x. -/
def ceilOver (x : ℚ) (q : Nat) : Nat := (x.num.toNat * q + x.den - 1) / x.den
/-- The greatest numerator over q that is not above x. -/
def floorOver (x : ℚ) (q : Nat) : Nat := x.num.toNat * q / x.den
/-- The denominators of Farey order 64. -/
def fareyDens : List Nat := (List.range 64).map (· + 1)
/-- The smallest fraction of Farey order 64 that is not below x, for x at most 1 (R247). -/
def fareyUp (x : ℚ) : ℚ := fareyDens.foldl (fun b q => min b (((Nat.max 1 (ceilOver x q) : Nat) : ℚ) / q)) 1
/-- The largest fraction of Farey order 64 that is not above x (R262). -/
def fareyDown (x : ℚ) : ℚ :=
  fareyDens.foldl (fun b q => if floorOver x q = 0 then b else max b ((floorOver x q : ℚ) / q)) (1 / 64)
/-- The next larger fraction of Farey order 64 (R255). -/
def fareyNext (x : ℚ) : ℚ :=
  fareyDens.foldl (fun b q => let n := floorOver x q + 1; if n ≤ q then min b ((n : ℚ) / q) else b) 1

/-- An island's divider ticks on master edge m, counted from the strobe (R242). -/
def ticks (f : Frac) (m : Nat) : Bool := m * f.p / f.q < (m + 1) * f.p / f.q

/-- The most sender ticks between consecutive exchange points, the strobe included (R244). -/
def mostTicks (f g : Frac) : Nat :=
  ((List.range (Nat.lcm f.q g.q)).foldl (fun (acc : Nat × Nat) m =>
    let n := acc.2 + (if ticks f m then 1 else 0)
    if ticks f m && ticks g m then (Nat.max acc.1 n, 0) else (acc.1, n)) (0, 0)).1

/-- A boundary link passes the slot check (R244). -/
def slotsPass (f g : ℚ) (slots : Nat) : Bool := mostTicks (fracOf f) (fracOf g) ≤ slots

/-! ## Counts (R200, R219) -/

/-- The counts of an element over one group: firings, tokens consumed per named input and produced per output. -/
structure Counts where
  firings : ℚ
  cons : List (Nat × ℚ)
  prod : List (Nat × ℚ)

/-- The ratio of a sieve: the measured one, or the declared one (R198, R256). -/
def sieveRatio (g : StageCfg) (measured : Option (Nat × Nat)) : ℚ :=
  match measured with
  | some (n, d) => (n : ℚ) / d
  | none => (nbits g.lastExt 15 8 : ℚ) / nbits g.lastExt 7 0

/-- Firings, tokens consumed on A and on B, and produced, of a stage (R200). -/
def stageRates (g : StageCfg) (measured : Option (Nat × Nat)) : ℚ × ℚ × ℚ × ℚ :=
  match g.cls with
  | 5 =>
    let r : ℚ := quantRatio g
    if g.op = 0 then
      let n : ℚ := ((tyOf g.ty).lanes : ℚ) / (cvtSource g.md).lanes
      if 1 ≤ n then (n, n, n, 1) else (1 / n, 1, 1, 1 / n)
    else if g.op = 1 then (4 * r + 1, 4 * r, 4 * r, 5)
    else (4 * r, 5, 5, 4 * r)
  | 6 => if 8 ≤ g.md then (4, 5, 4, 4) else (1, 1, 1, 1)
  | 10 => (1, 1, 1, sieveRatio g measured)
  | 11 => let n : ℚ := nbits g.lastExt 15 0
          (n, n, n, 1)
  | _ => (1, 1, 1, 1)

/-- The counts of a stage: its named inputs 0 (A) and 1 (B), its output 0 (R200). -/
def stageCounts (g : StageCfg) (measured : Option (Nat × Nat)) : Counts :=
  let (f, a, b, p) := stageRates g measured
  let named := fun (c : Nat) => 1 ≤ c && c ≤ 5
  { firings := f, cons := (if named g.srcA then [(0, a)] else []) ++ (if named g.srcB then [(1, b)] else []),
    prod := [(0, p)] }

/-- The node that governs a node of a controller pot: in its pot, or over the control link (R164). -/
def governor (s : State) (l : TileLoc) (i : Nat) : Option (TileLoc × Nat) :=
  match (hostNodes (s.tile l))[i]? with
  | none => none
  | some n =>
    if n.parent < 4 then some (l, n.parent)
    else match controlParent s l with
      | none => none
      | some p => (childIndex s p l).map fun (j, _) => (p, j)

/-- The trip count of the loop generator that governs a node; 1 where it takes its bound from tokens (R219). -/
def governingTrip (s : State) : Nat → TileLoc → Nat → Nat
  | 0, _, _ => 1
  | fuel + 1, l, i =>
    match governor s l i with
    | none => 1
    | some (p, j) => match (hostNodes (s.tile p))[j]? with
      | none => 1
      | some n => if n.kind = 3 then (if n.bound then 1 else n.trip) else governingTrip s fuel p j

/-- The counts of a data node, with inputs and outputs numbered 8 plus their channel (R170, R219). -/
def nodeCounts (s : State) (l : TileLoc) (i : Nat) (n : NodeCfg) : Option Counts :=
  let x := 8 + 2 * i
  let trip : ℚ := governingTrip s controlFuel l i
  match n.kind with
  | 4 => some { firings := 1, cons := [(x, 1)], prod := [(x, 1), (x + 1, 1)] }
  | 5 => some { firings := 1, cons := [(x, 1), (x + 1, 1)], prod := [(x, 1)] }
  | 6 => some { firings := 1, cons := [(x, 1), (x + 1, trip)], prod := [(x, trip), (x + 1, 1)] }
  | _ => none

/-- The number of the network channel's input and output. -/
def channelIo : Nat := 40

/-- Output numbers that chains of source 5 give. -/
def potOuts (c : TileCfg) : List Nat :=
  (chainsOf c.switches).filterMap fun (_, ws) => match ws with
    | w :: _ => if w.src = 5 then some (8 + w.vc) else none
    | [] => none

/-- Input numbers that words of destination 6 drive. -/
def potIns (c : TileCfg) : List Nat :=
  (chainsOf c.switches).flatMap fun (_, ws) =>
    if (ws.head?.map SwitchWord.src) = some 6 then [] else
    (ws.filter fun w => w.dest = 6 && w.vc ≠ 7).map fun w => 8 + w.vc

/-- The same count on several inputs or outputs. -/
def each (ios : List Nat) (n : ℚ) : List (Nat × ℚ) := ios.map fun i => (i, n)

/-- The counts of a pot's mode element (R219). -/
def potCounts (c : TileCfg) (m : PotMode) : Counts :=
  match m with
  | .scratch _ => { firings := 1, cons := each (potIns c) 1, prod := [] }
  | .stream _ _ => { firings := 1, cons := each (potIns c) 1, prod := each (potOuts c) 1 }
  | .atomic _ _ _ => { firings := 1, cons := each (potIns c) 1, prod := each (potOuts c) 1 }
  | .mandoline k s _ width ty =>
    let T : ℚ := rowToks width ty
    { firings := (Nat.max s k : Nat) * T, cons := each (potIns c) (s * T), prod := each (potOuts c) (k * T) }
  | .host _ => { firings := 1, cons := [], prod := [] }

/-- The counts of an edge node (R219). -/
def edgeCounts (e : EdgeCfg) : Counts :=
  match e with
  | .spout w _ _ _ _ _ => { firings := 1, cons := if w then [(8, 1)] else [], prod := if w then [] else [(8, 1)] }
  | .port send _ _ _ vc =>
    if send then { firings := 1, cons := [(8 + vc, 1)], prod := [(channelIo, 1)] }
    else { firings := 1, cons := [(channelIo, 1)], prod := [(8 + vc, 1)] }
  | .gather ty _ _ _ _ rowLen _ _ =>
    let n : ℚ := 16 * ((rowLen + lanesOf ty - 1) / lanesOf ty : Nat)
    { firings := n, cons := [(8, 1)], prod := [(8, n)] }

/-- An element of a handle: where it stands and its counts. -/
structure Elem where
  loc : TileLoc
  unit : Nat
  counts : Counts

/-- The unit of a data node in a controller pot. -/
def nodeUnit (i : Nat) : Nat := 20 + i

/-- The sieves of a handle in tile-table order: place and stage (R254). -/
def graphSieves (x : Handle) : List (TileLoc × Nat) :=
  (loadedCfgs x).flatMap fun (e, c) => match c.kind with
    | .pan gs => gs.zipIdx.filterMap fun (g, i) => if g.cls = 10 then some (e.loc, i + 1) else none
    | _ => []

/-- The elements of a tile that have counts (R245). -/
def tileElements (s : State) (x : Handle) (sieves : List (TileLoc × Nat)) (l : TileLoc) (c : TileCfg) : List Elem :=
  let es : List Elem := match c.kind with
    | .pan gs => gs.zipIdx.filterMap fun (g, i) =>
        if g.idle then none else
        let k := sieves.findIdx fun p => p = (l, i + 1)
        some { loc := l, unit := i + 1, counts := stageCounts g (tget x.ratios k) }
    | .pot (.host ns) => ns.zipIdx.filterMap fun (n, i) =>
        (nodeCounts s l i n).map fun k => { loc := l, unit := nodeUnit i, counts := k }
    | .pot m => [{ loc := l, unit := 0, counts := potCounts c m }]
    | .pass => []
    | .edge e => [{ loc := l, unit := 0, counts := edgeCounts e }]
  es.filter fun e => e.counts.cons ≠ [] || e.counts.prod ≠ []

/-! ## Routes with equations (R245) -/

/-- The unit that an end of a route belongs to: in a controller pot the data node of the channel. -/
def endUnit (s : State) (e : RouteEnd) : Nat :=
  if e.unit = 0 && 8 ≤ e.io && e.io < 16 && isHost (s.tile e.loc) then nodeUnit ((e.io - 8) / 2) else e.unit

/-- Stage i + 1 of a pan reads stage i (R155). -/
def innerRoutes (l : TileLoc) (c : TileCfg) : List Route :=
  match c.kind with
  | .pan gs => gs.zipIdx.flatMap fun (g, i) =>
      let one := fun (code io : Nat) => if code = 5 then
          [{ vc := 0, src := { loc := l, unit := i, io := 0 }, dst := { loc := l, unit := i + 1, io := io }, hops := [] : Route }] else []
      one g.srcA 0 ++ one g.srcB 1
  | _ => []

/-- The network channel of a sending port (R171). -/
def channelRoutes (s : State) (l : TileLoc) (c : TileCfg) : List Route :=
  match c.kind with
  | .edge (.port true core edge row _) =>
    [{ vc := 0, src := { loc := l, unit := 0, io := channelIo },
       dst := { loc := networkPeer s l core edge row, unit := 0, io := channelIo }, hops := [] }]
  | _ => []

/-- Every route of a handle, on a previewed state. -/
def allRoutes (s : State) (x : Handle) : List Route :=
  graphRoutes s x ++ x.entries.flatMap fun e => match (s.tile e.loc).active with
    | some c => innerRoutes e.loc c ++ channelRoutes s e.loc c
    | none => []

/-- A balance equation: elements by position, tokens produced and consumed, the output, the links (R245). -/
structure Equation where
  u : Nat
  v : Nat
  p : ℚ
  c : ℚ
  out : Nat
  hops : List Hop

/-- The equation of a route, if it has one: not one on channel 7 (R245). -/
def routeEquation (s : State) (es : List Elem) (r : Route) : Option Equation :=
  if r.vc = 7 then none else
  let at_ := fun (e : RouteEnd) => es.findIdx? fun x => x.loc = e.loc && x.unit = endUnit s e
  match at_ r.src, at_ r.dst with
  | some u, some v =>
    match es[u]?, es[v]? with
    | some a, some b =>
      match (a.counts.prod.find? fun q => q.1 = r.src.io), (b.counts.cons.find? fun q => q.1 = r.dst.io) with
      | some (_, p), some (_, c) => if p = 0 then none else some { u := u, v := v, p := p, c := c, out := r.src.io, hops := r.hops }
      | _, _ => none
    | _, _ => none
  | _, _ => none

/-- Rates relative to sink 0, spread along the equations once. -/
def relaxOnce (eqs : List Equation) (r : Tbl ℚ) : Tbl ℚ :=
  eqs.foldl (fun (r : Tbl ℚ) (q : Equation) => match tget r q.u, tget r q.v with
    | some x, none => if q.c = 0 then r else tset r q.v (q.p * x / q.c)
    | none, some y => tset r q.u (q.c * y / q.p)
    | _, _ => r) r

/-- Rates relative to sink 0, spread until nothing more is reached. -/
def relax (eqs : List Equation) : Nat → Tbl ℚ → Tbl ℚ
  | 0, r => r
  | n + 1, r => let r' := relaxOnce eqs r
                if r'.length = r.length then r else relax eqs n r'

/-- Every equation whose ends have rates holds (R245). -/
def balanced (eqs : List Equation) (r : Tbl ℚ) : Bool :=
  eqs.all fun q => match tget r q.u, tget r q.v with
    | some x, some y => q.p * x = q.c * y && 0 < q.c
    | _, _ => true

/-! ## Needs (R246) -/

/-- The logical core of a place. -/
def islandOf (s : State) (l : TileLoc) : Nat := (s.logical l.core).getD (128 * (l.core / 132))

/-- Raise an island's need. -/
def needAtLeast (n : Tbl ℚ) (isl : Nat) (x : ℚ) : Tbl ℚ := tset n isl (max (tgetD n isl 0) x)

/-- A physical link's use by one output, counted once (R246). -/
structure LinkUse where
  hop : Hop
  u : Nat
  out : Nat
deriving DecidableEq

/-- The uses of links by the routes that have equations. -/
def linkUses (eqs : List Equation) : List (LinkUse × ℚ) :=
  eqs.foldl (fun acc q => q.hops.foldl (fun acc h =>
    let w : LinkUse := { hop := h, u := q.u, out := q.out }
    if acc.any fun a => a.1 = w then acc else acc ++ [(w, q.p)]) acc) []

/-- The needs of the islands: firings of elements and tokens on physical links per master cycle; `base` is the rate of a
group relative to sink 0 (R246). -/
def needs (s : State) (es : List Elem) (eqs : List Equation) (r : Tbl ℚ) (base : ℚ) : Tbl ℚ :=
  let fire := es.zipIdx.foldl (fun n (e, i) => needAtLeast n (islandOf s e.loc) (base * tgetD r i 0 * e.counts.firings)) []
  let uses := (linkUses eqs).map fun (w, p) => (w, base * tgetD r w.u 0 * p)
  let links := (uses.map fun (w, _) => (w.hop.loc, w.hop.port)).dedup
  links.foldl (fun n (l, port) =>
    needAtLeast n (islandOf s l) ((uses.filter fun (w, _) => w.hop.loc = l && w.hop.port = port).map Prod.snd).sum) fire

/-! ## Boundary links (R243, R244, R249) -/

/-- A boundary link as the solver sees it: sending and receiving island, slots. -/
structure BoundLink where
  src : Nat
  dst : Nat
  slots : Nat
deriving DecidableEq

/-- The boundary links of a handle's routes: links into another core, and network channels of 8 slots (R171, R243). -/
def boundLinks (s : State) (rs : List Route) : List BoundLink :=
  (rs.flatMap fun r =>
    (r.hops.filterMap fun h => match neighbour h.loc h.port with
      | some n => if n.core = h.loc.core then none
                  else some { src := islandOf s h.loc, dst := islandOf s n, slots := h.slots : BoundLink }
      | none => none) ++
    (if r.src.io = channelIo && r.src.loc.core ≠ r.dst.loc.core then
      [{ src := islandOf s r.src.loc, dst := islandOf s r.dst.loc, slots := 8 }] else [])).dedup

/-- The remedy for a link that fails the slot check (R249). -/
def remedy (n : Tbl ℚ) (f : Tbl ℚ) (b : BoundLink) : ℚ × ℚ :=
  let fs := tgetD f b.src (1 / 64)
  let fr := tgetD f b.dst (1 / 64)
  let want := fun (q i : Nat) (now : ℚ) => max now ((Nat.max 1 (ceilOver (min 1 (tgetD n i 0)) q) : ℚ) / q)
  let lo := Nat.max fs.den fr.den
  match ((List.range 65).filter fun q => lo ≤ q).find? fun q => slotsPass (want q b.src fs) (want q b.dst fr) b.slots with
  | some q => (want q b.src fs, want q b.dst fr)
  | none => (max fs fr, max fs fr)

/-- Raise fractions until every boundary link passes (R249). -/
def passLinks (n : Tbl ℚ) (bs : List BoundLink) : Nat → Tbl ℚ → Tbl ℚ
  | 0, f => f
  | k + 1, f =>
    match bs.find? fun b => !slotsPass (tgetD f b.src (1 / 64)) (tgetD f b.dst (1 / 64)) b.slots with
    | none => f
    | some b =>
      let (x, y) := remedy n f b
      passLinks n bs k (tset (tset f b.src x) b.dst y)

/-! ## Voltages and ceilings (R248, R251, R262, R263, R265) -/

/-- The ceiling of an island (R262, R263, R265). -/
def ceilingOf (s : State) (isl : Nat) : ℚ :=
  let c := s.core (s.phys isl)
  let x := min c.powerCeil.rat c.thermCeil.rat
  if s.mgmt.droop then min x (1 / 4) else x

/-- The voltage code of a fraction on an island: its band's entry and the guard band (R248). -/
def codeFor (s : State) (isl : Nat) (f : ℚ) : Nat := tgetD (s.core (s.phys isl)).table (ceilOver f 64) 0 + 3

/-- The voltage code that an island is set to: a supply is at most 0.85 V (R3, R248). -/
def codeWithin (s : State) (isl : Nat) (f : ℚ) : Nat := Nat.min 80 (codeFor s isl f)

/-- The fraction of an island now. -/
def fracNow (s : State) (isl : Nat) : ℚ := (s.core (s.phys isl)).frac.rat

/-! ## The solution (R245 to R251) -/

/-- What a solve finds: status and the core it names (R253), whether a ceiling lowered a fraction, fraction and code per
island, and whether a need was above 1 (R256). -/
structure Solved where
  status : Nat
  island : Nat
  capped : Bool
  islands : Tbl (Frac × Nat)
  tooFast : Bool

/-- A failure. -/
def Solved.fail (status island : Nat) : Solved := { status := status, island := island, capped := false, islands := [], tooFast := false }

/-- The first network port of a handle that its peer does not name back (R171). -/
def unnamedPort (s : State) (x : Handle) : Option Nat :=
  x.entries.findSome? fun e => match (s.tile e.loc).active with
    | some c => match c.kind with
      | .edge (.port send core edge row _) =>
        if namedBack s e.loc (networkPeer s e.loc core edge row) send then none else some e.lcore
      | _ => none
    | none => none

/-- Fractions clamped to the ceilings, with their codes (R248, R251): the table, whether one was lowered, and the first
island whose code would exceed 80. -/
def clampAll (s : State) (f : Tbl ℚ) : Tbl (Frac × Nat) × Bool × Option Nat :=
  let rows := f.map fun (i, x) =>
    let y := min x (ceilingOf s i)
    (i, y, codeFor s i y, Decidable.decide (y < x))
  (rows.map fun (i, y, c, _) => (i, fracOf y, c), rows.any fun r => r.2.2.2, (rows.find? fun (_, _, c, _) => 80 < c).map Prod.fst)

/-- From needs to fractions, once `high` names the island whose need is above 1, if one may be (R247, R249, R256). -/
def chooseFractions (s : State) (bs : List BoundLink) (n : Tbl ℚ) (high : Option Nat) : Solved :=
  match bs.find? fun b => b.slots = 0 with
  | some b => .fail 3 b.dst
  | none =>
    let f := passLinks n bs (64 * bs.length + 1) (n.map fun (i, x) => (i, fareyUp (min 1 x)))
    match clampAll s f with
    | (_, _, some i) => .fail 6 i
    | (t, capped, none) => match high with
      | some i => { status := 1, island := i, capped := capped, islands := t, tooFast := true }
      | none => { status := 0, island := 0, capped := capped, islands := t, tooFast := false }

/-- From needs to fractions; a need above 1 fails unless `again`, which runs the island at 1/1 (R247, R249, R256). -/
def finishSolve (s : State) (rs : List Route) (n : Tbl ℚ) (again : Bool) : Solved :=
  let bs := boundLinks s rs
  let n := bs.foldl (fun n b => needAtLeast (needAtLeast n b.src 0) b.dst 0) n
  match n.find? fun (_, x) => 1 < x with
  | some (i, _) => if again then chooseFractions s bs n (some i) else .fail 1 i
  | none => chooseFractions s bs n none

/-- The solution of a handle; its shadows stand as active (R245 to R251). -/
def solveGraph (s : State) (h : Nat) (x : Handle) (again : Bool) : Solved :=
  match x.rate with
  | none => .fail 4 0
  | some (a, b) =>
    let s := preview s x
    let sinks := graphSinks s h x
    let sieves := graphSieves x
    match unnamedPort s x with
    | some i => .fail 5 i
    | none =>
      let es := x.entries.flatMap fun e => match (s.tile e.loc).active with
        | some c => tileElements s x sieves e.loc c
        | none => []
      let rs := allRoutes s x
      let eqs := rs.filterMap (routeEquation s es)
      match sinks.findSome? fun l => es.findIdx? fun e => e.loc = l && e.unit = 0 with
      | none => .fail 7 0
      | some k =>
        let r := relax eqs es.length [(k, 1)]
        let c0 := ((es[k]?).map fun e => (e.counts.cons.map Prod.snd).sum).getD 0
        if !balanced eqs r || eqs.any fun q => q.c = 0 then .fail 2 0
        else if c0 = 0 || (List.range es.length).any fun i => (tget r i).isNone then .fail 7 0
        else finishSolve s rs (needs s es eqs r ((a : ℚ) / b / c0)) again

/-- The result word of a solve (R253). -/
def resultWord (v : Solved) : Word :=
  let named := v.status = 1 ∨ v.status = 3 ∨ v.status = 5 ∨ v.status = 6
  w64 (v.status + (if v.capped then 256 else 0) + (if named then v.island % 128 * 2 ^ 16 + v.island / 128 * 2 ^ 23 else 0))

end Sys2Proof.Machine
end

