-- ==== Sys2Proof/Machine/Rates.lean ====
section
/-! DEFINITION. Rate steps (R250, R257), re-solves and monitors (R255, R256), ceilings and energy (R262 to R266), and the
instructions RATE, SOLVE and RSTAT (R252 to R254, R259). -/

namespace Sys2Proof.Machine

open Sys2Proof

/-! ## Targets (R247, R250, R251) -/

/-- A handle has an active or armed tile on a core (R250). -/
def usesCore (s : State) (h : Nat) (x : Handle) (isl : Nat) : Bool :=
  x.entries.any fun e => e.lcore = isl &&
    (match (s.tile e.loc).active with
     | some c => c.handle = h
     | none => false) ||
    (e.lcore = isl && x.armed)

/-- Fraction and code that an island's handles ask for: the greatest of their fractions, within the ceiling; 1/64 where
none uses it (R247, R250, R251). -/
def targetOf (s : State) (cl isl : Nat) : ℚ × Nat :=
  let f := (s.cluster cl).handles.foldl (fun f (h, x) =>
    if x.launched && usesCore s h x isl then
      match x.solution with
      | some v => match tget v.islands isl with
        | some (g, _) => max f g.rat
        | none => f
      | none => f
    else f) (1 / 64)
  let f := min f (ceilingOf s isl)
  (f, codeWithin s isl f)

/-- The islands of a cluster. -/
def islandsOf (s : State) (cl : Nat) : List Nat :=
  ((List.range 128).map fun i => 128 * cl + i).filter fun i => s.backed i

/-- The islands that a step to the targets would change (R257). -/
def stepChanges (s : State) (cl : Nat) : Tbl (Frac × Nat) :=
  (islandsOf s cl).filterMap fun i =>
    let (f, c) := targetOf s cl i
    let k := s.core (s.phys i)
    if f = k.frac.rat && c = k.code then none else some (i, fracOf f, c)

/-! ## Strobes (R242, R243, R257) -/

/-- Occupancy is exchanged on every boundary link of a cluster (R243). -/
def exchangeAll (s : State) (cl : Nat) : State :=
  { s with cores := tmap s.cores fun n c =>
      if n / 132 = cl then
        { c with tiles := tmap c.tiles fun _ t =>
            { t with bounds := tmap t.bounds fun _ b => { b with takenKnown := b.taken } } }
      else c }

/-- New fractions and codes of some islands. -/
def setIslands (s : State) (t : Tbl (Frac × Nat)) : State :=
  t.foldl (fun s (i, f, c) => s.modCore (s.phys i) fun k => { k with frac := f, code := c }) s

/-- A strobe: every divider restarts and the new fractions take effect, none above its ceiling (R242, R257, R262). -/
def strobe (s : State) (cl : Nat) (t : Tbl (Frac × Nat)) : State :=
  exchangeAll (setIslands s (t.map fun (i, f, c) =>
    let m := ceilingOf s i
    if m < f.rat then (i, fracOf m, codeWithin s i m) else (i, f, c))) cl

/-! ## Re-solves and steps (R250, R255 to R257) -/

/-- A solution that has replaced that of a running launch waits for the next rate step (R250). -/
def newSolution (s : State) (cl h : Nat) (x : Handle) (v : Option Solution) : State :=
  s.setHandle cl h { x with solution := v, due := x.due || sourcesRun s cl h }

/-- The handles whose new solutions a step that begins now applies (R250). -/
def dueHandles (s : State) (cl : Nat) : List Nat :=
  (s.cluster cl).handles.filterMap fun (h, x) => if x.due then some h else none

/-- Whether the new solutions of some handles wait for a step. -/
def setDue (s : State) (cl : Nat) (hs : List Nat) (due : Bool) : State :=
  hs.foldl (fun s h => match s.handle? cl h with
    | some x => s.setHandle cl h { x with due := due }
    | none => s) s

/-- Every running launch whose new solution a step has applied counts it (R250, R254). -/
def countStep (s : State) (cl : Nat) (hs : List Nat) : State :=
  hs.foldl (fun s h => match s.handle? cl h with
    | some x => if sourcesRun s cl h then s.setHandle cl h { x with steps := x.steps + 1 } else s
    | none => s) s

/-- Phases 2 and 3 of a step, and the sources that it starts (R250, R257). -/
def applyStep (s : State) (cl : Nat) (st : RateStep) : State :=
  let s := countStep (strobe s cl st.islands) cl st.counts
  if st.admission then startSources s cl st.handle else s

/-- Start a rate step: a strobe at once where no island speeds up, so also where no fraction or code changes, else phase 1
(R250, R257). The solutions that it applies are those of now: a later one waits for the next step. -/
def beginStep (s : State) (cl h : Nat) (admission retried : Bool) : State :=
  let t := stepChanges s cl
  let hs := dueHandles s cl
  let st : RateStep := { handle := h, admission := admission, islands := t, retried := retried, counts := hs }
  let s := setDue s cl hs false
  let ups := t.filter fun (i, f, _) => fracNow s i < f.rat
  if ups = [] then applyStep s cl st else
  let s := ups.foldl (fun s (i, _, c) => s.modCore (s.phys i) fun k => { k with code := Nat.max k.code c }) s
  s.modCluster cl fun c => { c with step := some st }

/-- The RATE report of a re-solve (R256). -/
def rateReport (s : State) (cl h : Nat) : State := match s.launch? cl h with
  | some v => sendReport s v.tid
      { cause := .rate, warning := false, precise := false, engine := 0, tvalue := graphWord s cl h, slot := 5 }
  | none => s

/-- After a back-pressure event whose solution, which the handle has already, leaves the fraction of every island as it is, the
receiving islands take the next larger one than they have, whichever handle gives it to them (R250, R255). -/
def bumpIslands (s : State) (cl : Nat) (t : Tbl (Frac × Nat)) (bumps : List Nat) : Tbl (Frac × Nat) :=
  if t.any fun (i, _, _) => (targetOf s cl i).1 ≠ fracNow s i then t else
  t.map fun (i, f, c) =>
    if !bumps.contains i then (i, f, c) else
    let g := min (fareyNext (fracNow s i)) (ceilingOf s i)
    if codeFor s i g ≤ 80 then (i, fracOf g, codeFor s i g) else (i, f, c)

/-- Re-solve a running launch at once (R255, R256). -/
def resolveNow (s : State) (cl h : Nat) (bumps : List Nat) (retried : Bool) : State :=
  match s.handle? cl h with
  | none => s
  | some x =>
    let v := solveGraph s h x true
    let s := s.setHandle cl h { x with result := resultWord v }
    let s := if v.status ≠ 0 then rateReport s cl h else s
    if v.status ≠ 0 && !v.tooFast then s else
    let solved := fun (s : State) (t : Tbl (Frac × Nat)) => newSolution s cl h { x with result := resultWord v } (some { islands := t })
    let s := solved s v.islands
    let s := solved s (bumpIslands s cl v.islands bumps)
    beginStep s cl h false retried

/-- Trigger a re-solve: at most one waits behind a step, and a later trigger replaces it (R257). -/
def requestSolve (s : State) (cl h : Nat) (bumps : List Nat) (retried : Bool) : State :=
  if !sourcesRun s cl h then s
  else if (s.cluster cl).step.isSome then s.modCluster cl fun c => { c with resolveDue := some (h, bumps, retried) }
  else resolveNow s cl h bumps retried

/-- The re-solve that waited behind a step (R257). -/
def resolveWaiting (s : State) (cl : Nat) : State :=
  match (s.cluster cl).resolveDue with
  | none => s
  | some (h, bumps, retried) => requestSolve (s.modCluster cl fun c => { c with resolveDue := none }) cl h bumps retried

/-- Another handle is armed or becomes active on cores of running launches (R255). -/
def graphChange (s : State) (cl h : Nat) : State :=
  match s.handle? cl h with
  | none => s
  | some x =>
    let mine := graphCores x
    (s.cluster cl).handles.foldl (fun s (n, y) =>
      if n ≠ h && sourcesRun s cl n && (graphCores y).any mine.contains then requestSolve s cl n [] false else s) s

/-- REGULATOR_SETTLED: the strobe of the step in progress, and the re-solve that waits (R250, R257). -/
def execRegulatorSettled (cl : Nat) (s : State) : Result :=
  match (s.cluster cl).step with
  | none => .next s
  | some st => .next (resolveWaiting (applyStep (s.modCluster cl fun c => { c with step := none }) cl st) cl)

/-- A step is abandoned: fractions stay, the raised voltage stands, and it is retried once (R250, R257). -/
def abandonStep (s : State) (cl : Nat) (retry : Bool) : State :=
  match (s.cluster cl).step with
  | none => s
  | some st =>
    let s := s.modCluster cl fun c => { c with step := none, retry := if retry && !st.retried then some st else c.retry }
    let s := setDue s cl st.counts true
    if st.admission then startSources s cl st.handle else s

/-- SETTLE_TIMEOUT: a regulator has not settled within 20 µs (R257). -/
def execSettleTimeout (cl : Nat) (s : State) : Result := .next (resolveWaiting (abandonStep s cl true) cl)

/-! ## Monitors (R255, R265) -/

/-- The step of R262: the largest fraction not above 7/8 of the current one. -/
def lowered (f : ℚ) : ℚ := fareyDown (f * 7 / 8)

/-- The thermal part of a window's end (R265); `temp` is in units of 0.25 °C. The window that first reads 95 °C or above is the
first of the four (DESIGN CHOICE, log 91). -/
def thermalWindow (s : State) (core : Nat) (temp : Int) : State :=
  let k := s.core core
  let s := s.setCore core { k with temp := temp }
  let k := s.core core
  if 380 ≤ temp then
    let n := k.hotWindows + 1
    let s := s.setCore core { k with thermalRequest := true, hotWindows := n, coolWindows := 0 }
    if n < 4 then s else
    let f := lowered k.frac.rat
    let s := s.modCore core fun k => { k with thermCeil := fracOf f }
    match s.logical core with
    | some i => if f < k.frac.rat then strobe s (core / 132) [(i, fracOf f, codeWithin s i f)] else s
    | none => s
  else
    let n := if temp < 360 then k.coolWindows + 1 else 0
    s.setCore core { k with thermalRequest := false, hotWindows := 0, coolWindows := n,
                            thermCeil := if 16 ≤ n then { p := 1, q := 1 } else k.thermCeil }

/-- The measured ratio of a sieve that raised an event in its window (R255, R256). -/
def sieveEvent (g : StageCfg) (now : Option (Nat × Nat)) (c : SieveCounts) : Option (Nat × Nat) :=
  if c.winIn = 0 then none else
  let d := (c.winKept : ℚ) / c.winIn - sieveRatio g now
  if (nbits g.lastExt 23 16 : ℚ) / 64 < max d (-d) then
    some (Nat.max 1 ((64 * c.winKept + c.winIn - 1) / c.winIn), 64)
  else none

/-- The sieves of one launch on a core at a window's end: measured ratios are taken, counts restart (R255, R256). -/
def sieveWindow (s : State) (cl core h : Nat) : State × Bool :=
  match s.handle? cl h with
  | none => (s, false)
  | some x =>
    (graphSieves x).zipIdx.foldl (fun (s, ev) ((l, i), k) =>
      if l.core ≠ core then (s, ev) else
      match (s.tile l).active, s.handle? cl h with
      | some c, some x =>
        if c.handle ≠ h then (s, ev) else
        match c.kind with
        | .pan gs =>
          let st := tgetD (s.tile l).stages i StageSt.start
          let s := s.modTile l fun t => { t with stages := tset t.stages i { st with sieve := { st.sieve with winIn := 0, winKept := 0 } } }
          match (gs[i - 1]?).bind fun g => sieveEvent g (tget x.ratios k) st.sieve with
          | some r => (s.setHandle cl h { x with ratios := tset x.ratios k r }, true)
          | none => (s, ev)
        | _ => (s, ev)
      | _, _ => (s, ev)) (s, false)

/-- The receiving end of a boundary link of a tile. -/
def boundPeer (s : State) (l : TileLoc) (key : Nat) : Option TileLoc :=
  if key = networkKey then
    match (s.tile l).active with
    | some c => match c.kind with
      | .edge (.port _ core edge row _) => some (networkPeer s l core edge row)
      | _ => none
    | none => none
  else neighbour l (key / 8)

/-- Links of a launch whose senders on a core were back-pressured in more than 2,048 clocks of two consecutive windows: the
receiving islands (R255). -/
def pressedIslands (s : State) (core h : Nat) : List Nat :=
  (s.core core).tiles.flatMap fun (n, t) => match t.active with
    | some c =>
      if c.handle ≠ h then [] else
      t.bounds.filterMap fun (key, b) =>
        if 2048 < b.bpWindow && 2048 < b.bpLast then (boundPeer s { core := core, tile := n } key).map (islandOf s) else none
    | none => []

/-- Counts of a core's window are kept, and restart (R255). -/
def latchWindow (s : State) (core : Nat) : State :=
  s.modCore core fun c =>
    { c with
      lastFirings := c.firings, lastStarved := c.starved, lastPressed := c.pressed, firings := 0, starved := 0, pressed := 0,
      tiles := tmap c.tiles fun _ t => { t with bounds := tmap t.bounds fun _ b => { b with bpLast := b.bpWindow, bpWindow := 0 } } }

/-- MONITOR_WINDOW_END: a core's window of 4,096 island clocks ends (R255 to R257, R265). The retry of an abandoned admission
step is a re-solve of its launch, and counts as one (DESIGN CHOICE, log 32). -/
def execMonitorWindowEnd (core : Nat) (temp : Int) (s : State) : Result :=
  let cl := core / 132
  let s := thermalWindow s core temp
  let running := (s.cluster cl).handles.filterMap fun (h, _) => if sourcesRun s cl h then some h else none
  let found := running.foldl (fun (acc : State × List (Nat × List Nat)) h =>
    let (s, ev) := sieveWindow acc.1 cl core h
    let bumps := pressedIslands s core h
    (s, if ev || bumps ≠ [] then acc.2 ++ [(h, bumps)] else acc.2)) (s, [])
  let s := latchWindow found.1 core
  let s := match (s.cluster cl).retry, s.logical core with
    | some st, some i =>
      if (tget st.islands i).isSome then
        requestSolve (s.modCluster cl fun c => { c with retry := none }) cl st.handle [] true
      else s
    | _, _ => s
  .next (found.2.foldl (fun s (h, bumps) => requestSolve s cl h bumps false) s)

/-! ## Power and droop (R260 to R263, R266) -/

/-- A rail's power in nanowatts: its voltage in millivolts times its current in microamperes (R248, R260). -/
def railPower (s : State) (cl core code : Nat) : Nat :=
  (450 + 5 * (s.core (132 * cl + core)).code) * (code * Config.currentStep cl core)

/-- The budget in force (R332). -/
def budgetInForce (s : State) : BitVec 16 := if s.mgmt.capFloor then s.flash.floor else s.mgmt.capBudget

/-- The budget in force in nanowatts. -/
def packageBudget (s : State) : Nat := (budgetInForce s).toNat * 10 ^ 9

/-- What the budget in force leaves a cluster beside the other cluster's budget (R4, R332). -/
def budgetLeft (s : State) (cl : Nat) : Nat := packageBudget s - (s.cluster (1 - cl)).budget

/-- The budget in force is divided among the clusters: clusters that have more than it together get half of it each (R4, R332,
log 65). -/
def shareBudget (s : State) : State :=
  if (s.cluster 0).budget + (s.cluster 1).budget ≤ packageBudget s then s else
  let half := fun (c : Cluster) => { c with budget := packageBudget s / 2 }
  (s.modCluster 0 half).modCluster 1 half

/-- Lower every island of a cluster whose fraction is above 1/64 (R262). -/
def lowerAll (s : State) (cl : Nat) : State :=
  let t : Tbl (Frac × Nat) := (islandsOf s cl).filterMap fun i =>
    let f := fracNow s i
    if 1 / 64 < f then some (i, fracOf (lowered f), codeWithin s i (lowered f)) else none
  let s := t.foldl (fun s (i, f, _) => s.modCore (s.phys i) fun k => { k with powerCeil := f }) s
  strobe s cl t

/-- TELEMETRY_SAMPLE: the power of one sample, by rail; energy; the limiter (R260, R262, R266). -/
def execTelemetrySample (cl : Nat) (codes : List (Nat × Nat)) (s : State) : Result :=
  let p := (codes.map fun (core, code) => railPower s cl core (code % 1024)).sum
  let s := s.modCluster cl fun c => { c with samples := (p :: c.samples).take 4096, energy := c.energy + p }
  .next (if (s.cluster cl).budget < p then lowerAll s cl else s)

/-- Every island above 1/4 takes 1/4 with its voltage unchanged; a step in progress is cancelled, and the re-solve that waited
behind it follows (R257, R263). -/
def droopCluster (s : State) (cl : Nat) : State :=
  let s := abandonStep s cl false
  let t : Tbl (Frac × Nat) := (islandsOf s cl).filterMap fun i =>
    if 1 / 4 < fracNow s i then some (i, { p := 1, q := 4 }, (s.core (s.phys i)).code) else none
  resolveWaiting (exchangeAll (setIslands s t) cl) cl

/-- INPUT with the flags for below 44 V, below 38 V for more than 2 ms, and quiescing (R334). -/
def inputWord (input : BitVec 16) (low38 quiescing : Bool) : Word :=
  w64 (input.toNat + (if input.toNat < 4400 then 2 ^ 16 else 0) + (if low38 then 2 ^ 17 else 0) +
    (if quiescing then 2 ^ 18 else 0))

/-- Write INPUT; a change of its flags is a management event (R322, R334). -/
def setInput (s : State) (w : Word) : State :=
  let s' := { s with mgmt := { s.mgmt with input := w } }
  if bits w 18 16 = bits s.mgmt.input 18 16 then s' else fireEvery s'

/-- A sample of the input voltage, in units of 10 mV: INPUT[17] falls with the input back at 38 V (R334). -/
def noteInput (s : State) (input : BitVec 16) : State :=
  setInput s (inputWord input (bit s.mgmt.input 17 && input.toNat < 3800) (bit s.mgmt.input 18))

/-- DROOP: a sample of the module input; below 44 V it is a droop (R263, R334). -/
def execDroop (input : BitVec 16) (s : State) : Result :=
  if s.power = .off then .next s else
  let s := noteInput s input
  if 4400 ≤ input.toNat then .next s else
  let s := { s with mgmt := { s.mgmt with droop := true } }
  .next (droopCluster (droopCluster s 0) 1)

/-- Every running launch of a cluster is solved again (R255, R263). -/
def resolveAll (s : State) (cl : Nat) : State :=
  (s.cluster cl).handles.foldl (fun s (h, _) => requestSolve s cl h [] false) s

/-- DROOP_RECOVERY: the input has stayed at 44 V or above for 1 ms, which ends a droop (R263, R334). -/
def execDroopRecovery (input : BitVec 16) (s : State) : Result :=
  if input.toNat < 4400 ∨ s.power = .off then .next s else
  let s := noteInput s input
  if !s.mgmt.droop then .next s else
  let s := { s with mgmt := { s.mgmt with droop := false } }
  .next (resolveAll (resolveAll s 0) 1)

/-- CEILING_RAISE: the budget agent sets a cluster's budget, within what the budget in force leaves it, and raises ceilings; a
ceiling is a fraction of order 64 (R242, R262, R332). -/
def execCeilingRaise (cl budget : Nat) (ceilings : List (Nat × Nat × Nat)) (s : State) : Result :=
  let s := s.modCluster cl fun c => { c with budget := Nat.min budget (budgetLeft s cl) }
  .next (ceilings.foldl (fun s (i, p, q) =>
    let isl := 128 * cl + i
    let f := fareyDown ((p : ℚ) / q)
    if !(s.backed isl) || q = 0 || p = 0 || q < p || (s.core (s.phys isl)).powerCeil.rat ≥ f then s
    else s.modCore (s.phys isl) fun k => { k with powerCeil := fracOf f }) s)

/-! ## RATE and SOLVE (R252, R253) -/

/-- A handle in the loaded or active state, as RATE and SOLVE ask (R252 to R254). -/
def solvable (s : State) (t : Thread) (w : Word) : Except Stop (Nat × Handle) :=
  match graphOf s t w with
  | some (h, x) => if x.state = .loaded || x.state = .active then .ok (h, x) else trapWith .handle w
  | none => trapWith .handle w

/-- A count of RATE: 1 to 4,095 (R252). -/
def rateCount (x : Word) : Bool := x.toNat ≠ 0 && x.toNat < 4096

/-- RATE (R252). -/
def execRate (d a b : GReg) (s : State) : Result :=
  perform s fun s t =>
    match solvable s t (readG t d) with
    | .error e => .error e
    | .ok (h, x) =>
      if !rateCount (readG t a) then trapWith .handle (readG t a)
      else if !rateCount (readG t b) then trapWith .handle (readG t b)
      else
        let cl := t.lcore / 128
        let s := s.setHandle cl h { x with rate := some ((readG t a).toNat, (readG t b).toNat) }
        .ok (.onRegs (requestSolve s cl h [] false) t id)

/-- Solve a handle and record the result; a failure keeps the previous solution (R253). -/
def solveHandle (s : State) (cl h : Nat) (x : Handle) : Word × State :=
  let v := solveGraph s h x false
  let y := { x with result := resultWord v }
  (resultWord v, if v.status = 0 then newSolution s cl h y (some { islands := v.islands }) else s.setHandle cl h y)

/-- SOLVE: the result is written, and the thread is held until SOLVE_COMPLETE (R62, R253). -/
def execSolve (d a : GReg) (s : State) : Result :=
  match s.thread? s.cur with
  | none => .next s
  | some t =>
    match solvable s t (readG t a) with
    | .error (.trap c v) => .next (takeTrap s s.cur c v false)
    | .error (.wait _ _) => .next s
    | .ok (h, x) =>
      let (w, s) := solveHandle s (t.lcore / 128) h x
      .next ((finish s.cur t (.onRegs s t fun y => writeG y d w)).modThread s.cur fun y =>
        { y with run := .waiting .solve, waitedSlots := 0 })

/-- SOLVE_COMPLETE: a thread's SOLVE has its result (R253). -/
def execSolveComplete (tid : Nat) (s : State) : Result := .next (release s fun n _ r => n = tid && r = .solve)

/-! ## RSTAT (R254, R259) -/

/-- The code of a handle's state in its load status word (R222). -/
def HandleState.code : HandleState → Nat
  | .free => 0
  | .loading => 1
  | .loaded => 2
  | .rejected => 3
  | .active => 4
  | .frozen => 5

/-- The load status word (R222). -/
def loadStatus (x : Handle) : Word :=
  w64 (x.state.code + 2 ^ 8 * x.reason + 2 ^ 16 * x.badTile + 2 ^ 32 * x.accepted + 2 ^ 48 * x.badWord)

/-- The boundary links of a handle: sending tile and key, in tile-table and then switch-word order (R254). -/
def graphBounds (s : State) (x : Handle) : List (TileLoc × Nat) :=
  (loadedCfgs x).flatMap fun (e, c) => match c.kind with
    | .edge (.port true core edge row _) =>
      if (networkPeer s e.loc core edge row).core = e.loc.core then [] else [(e.loc, networkKey)]
    | .edge _ => []
    | _ => c.switches.filterMap fun w =>
        if w.dest < 4 && w.src ≠ 6 && crosses e.loc w.dest then some (e.loc, linkKey w.dest w.vc) else none

/-- The counters of a boundary link: in, out, resident, dropped (R254, R259). -/
def boundCounts (s : State) (h : Nat) (p : TileLoc × Nat) : Nat × Nat × Nat × Nat :=
  match (s.tile p.1).active with
  | some c =>
    if c.handle ≠ h then (0, 0, 0, 0) else
    let b := (s.tile p.1).bound p.2
    (b.sent, b.taken - b.dropped, b.sent - b.taken, b.dropped)
  | none => (0, 0, 0, 0)

/-- The counters of a sieve (R198). -/
def sieveCounts (s : State) (h : Nat) (p : TileLoc × Nat) : SieveCounts :=
  match (s.tile p.1).active with
  | some c => if c.handle = h then (tgetD (s.tile p.1).stages p.2 StageSt.start).sieve else SieveCounts.zero
  | none => SieveCounts.zero

/-- Take a snapshot (R259). -/
def takeSnapshot (s : State) (cl h : Nat) (x : Handle) : State :=
  s.setHandle cl h { x with
    snapBounds := (graphBounds s x).zipIdx.map fun (p, i) => (i, boundCounts s h p)
    snapSieves := (graphSieves x).zipIdx.map fun (p, i) => (i, sieveCounts s h p) }

/-- A field of a snapshot's boundary. -/
def boundField (b : Nat × Nat × Nat × Nat) (f : Nat) : Nat := [b.1, b.2.1, b.2.2.1, b.2.2.2].getD f 0
/-- A field of a snapshot's sieve (R198, R254). -/
def sieveField (c : SieveCounts) (f : Nat) : Nat :=
  [c.tokIn, c.tokOut, c.elIn, c.elOut, c.dropped, c.resident, c.padded].getD f 0

/-- A fraction as RSTAT shows it (R254). -/
def fracWord (f : Frac) : Nat := 256 * f.p + f.q

/-- A temperature in s16 (R254). -/
def tempWord (x : Int) : Word := BitVec.ofInt 64 (max (-32768) (min 32767 x))

/-- A field of an island (R254). -/
def islandField (s : State) (isl f : Nat) : Word :=
  let k := s.core (s.phys isl)
  if f = 6 then tempWord k.temp
  else w64 ([fracWord k.frac, k.code, fracWord (fracOf (ceilingOf s isl)), k.lastFirings, k.lastStarved, k.lastPressed].getD f 0)

/-- A field of a core (R254). -/
def coreField (s : State) (isl f : Nat) : Word :=
  let k := s.core (s.phys isl)
  w64 ([k.joinDrops, k.corrected, k.staleReplies, k.repaired, k.finals].getD f 0)

/-- A field of a pot (R208, R211, R254, R280). -/
def potField (s : State) (isl pot f : Nat) : Word :=
  let t := s.tile { core := s.phys isl, tile := potTile pot }
  if f = 1 then w64 t.pot.misroute else
  w64 (match potMode t with
    | some (.stream _ _) => t.pot.fifo.length
    | _ => 0)

/-- A context's energy in nanojoules, from quanta of a nanowatt over 250 ns (R266). -/
def energyField (c : Ctx) (f : Nat) : Word := if f = 0 then w64 (c.energy / 4000000) else w64 (if c.shared then 1 else 0)

/-- The number of fields of a group. -/
def rstatFields (group : Nat) : Nat := [3, 1, 4, 7, 7, 5, 2, 2].getD group 0

/-- The core of groups 4 to 6 must be the context's (R254). -/
def ownCore (s : State) (t : Thread) (i : Nat) : Bool :=
  let e := s.lct (128 * (t.lcore / 128) + i)
  e.allocated && e.ctx.toNat = t.ctx

/-- RSTAT of a handle: groups 0 to 3 (R254). -/
def rstatHandle (s : State) (t : Thread) (d : GReg) (ga gb : Word) (group idx f : Nat) : Except Stop Effect :=
  match graphOf s t ga with
  | none => trapWith .handle ga
  | some (h, x) =>
    let cl := t.lcore / 128
    let n := match group with
      | 2 => (graphBounds s x).length
      | 3 => (graphSieves x).length
      | _ => 1
    if n ≤ idx ∨ rstatFields group ≤ f then trapWith .handle gb
    else if group = 1 then .ok (.onRegs (takeSnapshot s cl h x) t fun y => writeG y d 0)
    else
      let v : Word := match group with
        | 0 => if f = 0 then loadStatus x else if f = 1 then x.result else w64 x.steps
        | 2 => w64 (boundField (tgetD x.snapBounds idx (0, 0, 0, 0)) f)
        | _ => w64 (sieveField (tgetD x.snapSieves idx SieveCounts.zero) f)
      .ok (.onRegs s t fun y => writeG y d v)

/-- RSTAT of cores, pots and energy: groups 4 to 7 (R254). -/
def rstatCore (s : State) (t : Thread) (d : GReg) (ga gb : Word) (group idx f : Nat) : Except Stop Effect :=
  let n := match group with
    | 6 => 48
    | 7 => 1
    | _ => 128
  if n ≤ idx ∨ rstatFields group ≤ f then trapWith .handle (if group = 6 then ga else gb) else
  let core := if group = 6 then ga.toNat % 128 else idx
  let isl := 128 * (t.lcore / 128) + core
  if group ≠ 7 && !ownCore s t core then trapWith .protect (if group = 6 then ga else gb) else
  let v := match group with
    | 4 => islandField s isl f
    | 5 => coreField s isl f
    | 6 => potField s isl idx f
    | _ => energyField (s.ctx t.ctx) f
  .ok (.onRegs s t fun y => writeG y d v)

/-- RSTAT (R254). -/
def execRstat (d a b : GReg) (s : State) : Result :=
  perform s fun s t =>
    let ga := readG t a
    let gb := readG t b
    let group := bits gb 3 0
    let idx := bits gb 15 4
    let f := bits gb 19 16
    if 8 ≤ group ∨ bits gb 63 20 ≠ 0 then trapWith .handle (if group = 6 then ga else gb)
    else if group = 6 ∧ bits ga 63 7 ≠ 0 then trapWith .handle ga
    else if group < 4 then rstatHandle s t d ga gb group idx f
    else rstatCore s t d ga gb group idx f

end Sys2Proof.Machine
end

