-- ==== Sys2Proof/Machine/Configure.lean ====
section
/-! DEFINITION. Loading, arming and dropping a graph (R220 to R228), swapping a tile (R229, R230), and the protection of the
configuration store (R232, R233). -/

namespace Sys2Proof.Machine

open Sys2Proof

/-! ## Images (R220, R221) -/

/-- The header of an image. -/
structure Image where
  len : Nat
  delta : Option Nat
  dicts : Nat
  tiles : Nat
  dictOff : Nat
  tileOff : Nat
deriving DecidableEq, Repr

/-- A field of bytes, little-endian. -/
def field (b : List Byte) (off n : Nat) : Nat := leNat ((b.drop off).take n)

/-- The header, if its 64 bytes pass the checks (R220, R224). -/
def imageOf (b : List Byte) : Option Image :=
  let len := field b 0 4
  let dup := field b 5 1 = 1
  let delta := field b 6 1
  let nd := field b 8 2
  let nt := field b 10 2
  let sig := field b 20 4
  if field b 4 1 ≠ 1 ∨ 1 < field b 5 1 ∨ field b 7 1 ≠ 0 ∨ ((b.drop 28).any fun x => x ≠ 0) ∨ 240 < nd ∨ nt = 0 ∨ 1024 < nt ∨
      len < 64 ∨ (if dup then delta = 0 ∨ 127 < delta else delta ≠ 0) ∨ len < field b 12 4 + 4 * nd ∨
      len < field b 16 4 + 8 * nt ∨ (sig ≠ 0 ∧ len < sig + field b 24 4) then none
  else some { len := len, delta := if dup then some delta else none, dicts := nd, tiles := nt, dictOff := field b 12 4,
              tileOff := field b 16 4 }

/-- Read bytes of an image through a thread's translation; a fault is the thread's (R224). -/
def imageBytes (s : State) (ctx : Nat) (user : Bool) (va n : Nat) : Except Stop (List Byte × State) :=
  match readVirt ctx user n va s with
  | .ok r => .ok r
  | .error (at_, r) => trapWith (walkCause r) (w64 at_)

/-- The tile or edge node of an entry at a row and column of the table with the offsets added (R220, R221). -/
def entryTile (row col rowOff colOff : Nat) : Option Nat :=
  if 7 < row + rowOff then none
  else if col = 12 then some (96 + row + rowOff)
  else if col = 13 then some (104 + row + rowOff)
  else if 11 < col + colOff then none
  else some (12 * (row + rowOff) + col + colOff)

/-- Where a load is placed: origin core, row and column offset (R223). -/
structure Origin where
  core : Nat
  row : Nat
  col : Nat

/-- Check one entry of the table and place it (R221, R224 check 5). -/
def placeEntry (s : State) (t : Thread) (ga gb : Word) (im : Image) (o : Origin) (delta : Nat) (copyB : Bool) (b : List Byte) :
    Except Stop Placed :=
  let core := o.core + field b 2 1 + delta
  let lc := 128 * (t.lcore / 128) + core
  let e := s.lct lc
  if field b 3 1 ≠ 0 ∨ im.len ≤ field b 4 4 then trapWith .handle ga
  else if 127 < core ∨ !e.allocated ∨ e.ctx.toNat ≠ t.ctx ∨ !s.backed lc then trapWith .protect gb
  else match entryTile (field b 0 1) (field b 1 1) o.row o.col with
    | none => trapWith .handle gb
    | some n => .ok { loc := { core := s.phys lc, tile := n }, lcore := lc, stream := field b 4 4, copyB := copyB, cfg := none }

/-- Read, check and place the entries of one copy, from entry i on (R224 check 5). -/
def placeTable (t : Thread) (ga gb : Word) (im : Image) (o : Origin) (delta : Nat) (copyB : Bool) :
    Nat → Nat → State → Except Stop (List Placed × State)
  | 0, _, s => .ok ([], s)
  | n + 1, i, s =>
    match imageBytes s t.ctx (!t.system) (ga.toNat + im.tileOff + 8 * i) 8 with
    | .error e => .error e
    | .ok (b, s) =>
      match placeEntry s t ga gb im o delta copyB b with
      | .error e => .error e
      | .ok p =>
        match placeTable t ga gb im o delta copyB n (i + 1) s with
        | .error e => .error e
        | .ok (r, s) => .ok (p :: r, s)

/-- The column whose head decoder feeds a tile or edge node (R227). -/
def decoderColumn (tile : Nat) : Nat := if tile < 96 then tile % 12 else if tile < 104 then 0 else 11

/-- The decoders that a load uses, each once: core and column (R227, R228). -/
def loadDecoders (ps : List Placed) : List (Nat × Nat) := (ps.map fun p => (p.loc.core, decoderColumn p.loc.tile)).dedup

/-- The dictionary of a decoder. -/
def setDict (s : State) (d : Nat × Nat) (ws : List W32) : State :=
  s.modCore d.1 fun c => { c with dicts := tset c.dicts d.2 ws }

/-- The dictionary stands in the decoders of the columns that a load uses (R228). -/
def loadDicts (s : State) (ps : List Placed) (dict : List W32) : State :=
  (loadDecoders ps).foldl (fun s d => setDict s d dict) s

/-! ## Configuration tokens (R46) -/

/-- Words of bytes, little-endian. -/
def wordsOf : Nat → List Byte → List W32
  | 0, _ => []
  | n + 1, b => BitVec.ofNat 32 (leNat (b.take 4)) :: wordsOf n (b.drop 4)

/-- A configuration token: the target byte, the count byte, the data (R46). -/
def configTok (target : Nat) (data : List Byte) : Tok :=
  { Tok.zero with kind := .config, payload := pack 8 (target :: data.length :: data.map BitVec.toNat) }

/-- The target byte, the count byte and the bytes that follow. -/
def configBytes (k : Tok) : Nat × Nat × List Byte :=
  let b := tokBytes k.payload
  (leNat (b.take 1), leNat ((b.drop 1).take 1), b.drop 2)

/-- A token with a count above 62 or nonzero bits [7:5] of its target byte is rejected (R46). A token that counts 0 bytes, which
R46's layout does not have and its rejections do not name, is not rejected and adds nothing (DESIGN CHOICE, log 70); no decoder
sends one. -/
def configFoul (k : Tok) : Bool :=
  let (target, count, _) := configBytes k
  62 < count || target / 32 ≠ 0

/-- The tokens of a tile of a row: 1 to 62 bytes each, the first one marked (R46, R227). -/
def tileTokens (row : Nat) : Nat → Bool → List Byte → List Tok
  | 0, _, _ => []
  | n + 1, first, b =>
    let k := configTok (row + if first then 16 else 0) (b.take 62)
    if b = [] then [] else k :: tileTokens row n false (b.drop 62)

/-- The tokens of a dictionary from an entry on: at most 15 entries each (R46). -/
def dictTokens : Nat → Nat → List W32 → List Tok
  | 0, _, _ => []
  | n + 1, i, ws =>
    if ws = [] then [] else
    let x := ws.take 15
    configTok 8 (leBytes 1 i ++ leBytes 1 x.length ++ x.flatMap fun w => leBytes 4 w.toNat) :: dictTokens n (i + 15) (ws.drop 15)

/-- A decoder takes a dictionary token: none if it is malformed, and then its dictionary stays (R46, R226 reason 15). A token
whose entry count is 0 or above 15, or does not fit its byte count, is rejected like the malformed tokens that R46 lists (DESIGN
CHOICE, log 87). -/
def takeDict (dict : List W32) (k : Tok) : Option (List W32) :=
  let (_, count, data) := configBytes k
  let i := leNat (data.take 1)
  let n := leNat ((data.drop 1).take 1)
  if configFoul k || n = 0 || 15 < n || 240 < i + n || count ≠ 2 + 4 * n then none
  else some (dict.take i ++ List.replicate (i - dict.length) 0 ++ wordsOf n (data.drop 2) ++ dict.drop (i + n))

/-- A handle as CFGLD takes it (R222, R223). -/
def Handle.start (ctx loader dest : Nat) (image : Word) (len : Nat) (o : Origin) (delta : Option Nat) (ps : List Placed) : Handle :=
  { state := .loading, ctx := ctx, loader := loader, dest := dest, image := image, imageLen := len, originCore := o.core,
    rowOff := o.row, colOff := o.col, duplicate := delta, entries := ps, next := 0, dictToks := [], toDecoder := [],
    heard := [], tokens := [], pendingFail := none, accepted := 0, reason := 0, badTile := 0, badWord := 0, dropping := false, armed := false, rate := none, result := 0,
    solution := none, steps := 0, due := false, ratios := [], snapBounds := [], snapSieves := [], launched := false }

/-! ## CFGLD (R223, R224) -/

/-- The checks of R224 in their order: header and placement. -/
def cfgldChecks (s : State) (t : Thread) (ga gb : Word) : Except Stop (Image × Origin × List Placed × State) :=
  if ga.toNat % 64 ≠ 0 then trapWith .align ga
  else if bits ga 63 52 ≠ 0 then trapWith .protect ga
  else
    let o : Origin := { core := bits gb 6 0, row := bits gb 10 8, col := bits gb 15 12 }
    if bit gb 7 ∨ bit gb 11 ∨ bits gb 63 16 ≠ 0 ∨ o.row % 2 = 1 ∨ o.col % 2 = 1 then trapWith .handle gb else
    match imageBytes s t.ctx (!t.system) ga.toNat 64 with
    | .error e => .error e
    | .ok (b, s) =>
      match imageOf b with
      | none => trapWith .handle ga
      | some im =>
        match placeTable t ga gb im o 0 false im.tiles 0 s with
        | .error e => .error e
        | .ok (ps, s) =>
          match im.delta with
          | none => .ok (im, o, ps, s)
          | some d =>
            match placeTable t ga gb im o d true im.tiles 0 s with
            | .error e => .error e
            | .ok (qs, s) => .ok (im, o, ps ++ qs, s)

/-- Another load into one of the same cores is in progress (R224). -/
def loadBlocked (s : State) (cl : Nat) (ps : List Placed) : Bool :=
  (s.cluster cl).handles.any fun (_, x) => x.state = .loading && x.entries.any fun e => ps.any fun p => p.lcore = e.lcore

/-- A load as it begins: the decoders' old dictionaries go, and the new one is on its way to them in tokens (R46, R228). -/
def beginLoad (s : State) (cl h : Nat) (x : Handle) (dict : List W32) : State :=
  let ds := loadDecoders x.entries
  let toks := ds.flatMap fun d => (dictTokens dict.length 0 dict).map fun k => (d.1, d.2, k)
  (ds.foldl (fun s d => setDict s d []) s).setHandle cl h { x with dictToks := toks }

/-- CFGLD (R223, R224): the thread is held until LOAD_COMPLETE. The thread's earlier stores drain before the checks read the
image, so that they see what the thread has stored (log 63). -/
def execCfgld (d a b : GReg) (s : State) : Result :=
  perform s fun s t =>
    let ga := readG t a
    let gb := readG t b
    let cl := t.lcore / 128
    match drained s t with
    | .error e => .error e
    | .ok () =>
      match cfgldChecks s t ga gb with
      | .error e => .error e
      | .ok (im, o, ps, s) =>
        let h := freeKey 0 (s.cluster cl).handles
        if 1024 ≤ h then .ok (.onRegs s t fun y => writeG y d 0)
        else if loadBlocked s cl ps then .error (.wait .load s)
        else match imageBytes s t.ctx (!t.system) (ga.toNat + im.dictOff) (4 * im.dicts) with
          | .error e => .error e
          | .ok (db, s) =>
            .error (.wait .load (beginLoad s cl h (Handle.start t.ctx s.cur d.toNat ga im.len o im.delta ps)
              (wordsOf im.dicts db)))

/-! ## Streams (R41, R46, R227) -/

/-- What a decoder makes of a tile's stream: its words, the CRC word, and the word index and reason of an error that ends it
(R41, R226). -/
structure Expanded where
  words : List W32
  crc : Option W32
  err : Option (Nat × Nat)
deriving DecidableEq, Repr

/-- The failure of a translation. -/
abbrev Missed := Nat × WalkResult

/-- The bytes of a stream from a byte offset of its image on: up to its 0xF9 code with the CRC word, a reserved code, or the
image's end (R41). -/
def streamBytes (ctx : Nat) (user : Bool) (base limit : Nat) : Nat → Nat → State → Except Missed (List Byte × State)
  | 0, _, s => .ok ([], s)
  | fuel + 1, off, s =>
    if limit ≤ off then .ok ([], s) else
    match readVirt ctx user 1 (base + off) s with
    | .error e => .error e
    | .ok (b, s) =>
      let c := leNat b
      let n := if c = 0xF8 ∨ c = 0xF9 then Nat.min 4 (limit - (off + 1)) else 0
      match readVirt ctx user n (base + off + 1) s with
      | .error e => .error e
      | .ok (d, s) =>
        if 0xF9 ≤ c then .ok (b ++ d, s) else
        (streamBytes ctx user base limit fuel (off + 1 + n) s).map fun (r, s) => (b ++ d ++ r, s)

/-- Expand the bytes of a stream with a dictionary; the words so far come last first (R41). -/
def expand (dict : List W32) : Nat → List Byte → List W32 → Expanded
  | 0, _, ws => { words := ws.reverse, crc := none, err := some (ws.length, 5) }
  | fuel + 1, bytes, ws =>
    let fail := fun (r : Nat) => ({ words := ws.reverse, crc := none, err := some (ws.length, r) } : Expanded)
    match bytes with
    | [] => fail 5
    | x :: rest =>
      let c := x.toNat
      if c ≤ 0xEF then
        match dict[c]? with
        | some w => expand dict fuel rest (w :: ws)
        | none => fail 3
      else if c ≤ 0xF7 then
        match ws with
        | w :: _ => expand dict fuel rest (List.replicate (c - 0xF0 + 2) w ++ ws)
        | [] => fail 4
      else if c ≤ 0xF9 then
        if rest.length < 4 then fail 5 else
        let w : W32 := BitVec.ofNat 32 (leNat (rest.take 4))
        if c = 0xF8 then expand dict fuel (rest.drop 4) (w :: ws)
        else { words := ws.reverse, crc := some w, err := none }
      else fail 2

/-- The row of an entry: of its tile, or of its edge node. -/
def Placed.row (e : Placed) : Nat := if e.loc.tile < 96 then e.loc.tile / 12 else e.loc.tile % 8

/-- The tokens of a tile: its words, then its CRC word if the stream has one; none of a stream that fails at its first code. -/
def tokensOf (row : Nat) (e : Expanded) : List Tok :=
  let b := wordBytes e.words ++ (match e.crc with
    | some w => leBytes 4 w.toNat
    | none => [])
  tileTokens row (b.length + 1) true b

/-- The loading thread has user privilege. -/
def loaderUser (s : State) (x : Handle) : Bool := match s.thread? x.loader with
  | some t => !t.system
  | none => true

/-- The bytes of an entry's stream. -/
def entryStream (s : State) (x : Handle) (user : Bool) (e : Placed) : Except Missed (List Byte × State) :=
  streamBytes x.ctx user x.image.toNat x.imageLen (x.imageLen - e.stream + 1) e.stream s

/-- What the decoder of an entry makes of the bytes of its stream. -/
def decodeStream (s : State) (e : Placed) (b : List Byte) : Expanded :=
  expand (tgetD (s.core e.loc.core).dicts (decoderColumn e.loc.tile) []) (b.length + 1) b []

/-! ## The end of a load (R223, R225) -/

/-- Threads held by another load try again (R224). -/
def releaseLoads (s : State) : State :=
  release s fun tid _ r => r = .load && !(s.clusters.any fun (_, c) => c.handles.any fun (_, x) =>
    x.state = .loading && x.loader = tid)

/-- The loading thread's CFGLD completes with a value (R223). A handle that is loaded into g0 stays until the program drops it:
the sweep of the handles at the end of a context, which no rule describes, is left out (DESIGN CHOICE, log 90). -/
def finishLoader (s : State) (x : Handle) (v : Word) : State :=
  match s.thread? x.loader with
  | some t => finish x.loader t (.onRegs s t fun y => writeG y (BitVec.ofNat 5 x.dest) v)
  | none => s

/-- A load that CFGDROP stops (R225). -/
def dropLoading (s : State) (cl h : Nat) (x : Handle) : State :=
  let v := graphWord s cl h
  let s := dropShadows s h x
  let s := x.entries.foldl (fun s e => s.modTile e.loc fun t => { t with loading := none }) s
  releaseLoads (freeGraph (finishLoader s x v) cl h x)

/-- A translation fault on a stream: the loading thread's precise trap; nothing of the load stays (R224). -/
def faultLoading (s : State) (cl h : Nat) (x : Handle) (m : Missed) : State :=
  let s := dropShadows s h x
  let s := x.entries.foldl (fun s e => s.modTile e.loc fun t => { t with loading := none }) s
  let s := s.modCluster cl fun c => { c with handles := tdel c.handles h }
  releaseLoads (takeTrap s x.loader (walkCause m.2) (w64 m.1) false)

/-- The number of entries of one copy. -/
def Handle.tableLen (x : Handle) : Nat := if x.duplicate.isSome then x.entries.length / 2 else x.entries.length

/-- A rejection is recorded (R222, R226). -/
def rejectLoad (s : State) (cl h : Nat) (x : Handle) (entry word reason : Nat) : State :=
  s.setHandle cl h { x with dictToks := [], toDecoder := [], heard := [], tokens := [], pendingFail := none, reason := reason, badTile := entry % x.tableLen, badWord := word }

/-- A tile's verdict on what it has received, and where the load stands after it (R226, R235). A tile that rejects while it
holds another handle's shadow (reason 14) drops only what it was taking in; the other handle's shadow stays, and so does the
shadow that an earlier entry of the same image has put into the tile: R47 does not say whose shadow a rejecting tile discards
(DESIGN CHOICE, log 69). -/
def judge (s : State) (cl h : Nat) (x : Handle) (e : Placed) (b : List Byte) : State :=
  let s := s.modTile e.loc fun t => { t with loading := none }
  let ws := wordsOf (b.length / 4) b
  let words := if x.pendingFail.isSome then ws else ws.dropLast
  let crc := if x.pendingFail.isSome then 0 else ws.getLastD 0
  let edge : Bool := 96 ≤ e.loc.tile
  match tileVerdict words crc x.pendingFail edge (oddTile e.loc.tile) with
  | .error (k, r) => rejectLoad s cl h x x.next k r
  | .ok (kind, sw) =>
    let taken := match (s.tile e.loc).shadow with
      | some c => c.handle ≠ h || (e.copyB && c.entry < x.tableLen)
      | none => false
    if nsMem (s.core e.loc.core).retired e.loc.tile then rejectLoad s cl h x x.next 0 13
    else if taken then rejectLoad s cl h x x.next 0 14
    else
      let c : TileCfg := { handle := h, entry := x.next, words := words, sig := crc, kind := kind, switches := sw }
      let s := s.modTile e.loc fun t => { t with shadow := some c }
      let es := x.entries.set x.next { e with cfg := some c }
      let x := { x with entries := es, tokens := [], next := x.next + 1, accepted := x.accepted + 1 }
      let s := s.setHandle cl h x
      if x.duplicate.isSome && x.next = x.tableLen then
        let y := { x with entries := x.entries.take x.tableLen }
        match crossBad (preview s y) y with
        | some (i, k) => rejectLoad s cl h x i k 12
        | none => s
      else s

/-- The tokens on a link of a column's configuration path: link r ends at the tile of row r (R227). -/
def pathToks (s : State) (core col r : Nat) : List Tok := tgetD (s.core core).cfgPath (12 * r + col) []
/-- Change them. -/
def setPath (s : State) (core col r : Nat) (ks : List Tok) : State :=
  s.modCore core fun c => { c with cfgPath := tset c.cfgPath (12 * r + col) ks }

/-- The path of a column holds tokens. -/
def pathBusy (s : State) (core col : Nat) : Bool := (List.range 8).any fun r => pathToks s core col r ≠ []

/-- An entry has tokens that its tile has not taken. -/
def midTile (s : State) (x : Handle) : Bool :=
  x.tokens ≠ [] || (x.entries[x.next]?).any fun e => pathBusy s e.loc.core (decoderColumn e.loc.tile)

/-- The tile of an entry has received all that its stream gives it: its verdict, after which a drop takes effect (R225, R226). -/
def giveVerdict (s : State) (cl h : Nat) (x : Handle) (e : Placed) (b : List Byte) : State :=
  let s := judge s cl h x e b
  match s.handle? cl h with
  | some x => if x.dropping then dropLoading s cl h x else s
  | none => s

/-- A tile or edge node takes a configuration token that has reached its row; after the last it gives its verdict (R46, R226). -/
def takeConfig (s : State) (cl h : Nat) (x : Handle) (e : Placed) (k : Tok) : State :=
  let col := decoderColumn e.loc.tile
  let (target, count, data) := configBytes k
  let old := match (s.tile e.loc).loading with
    | some (n, b) => if n = h && !target.testBit 4 then b else []
    | none => []
  let b := old ++ data.take count
  if configFoul k then
    let s := (List.range 8).foldl (fun s r => setPath s e.loc.core col r []) s
    rejectLoad (s.modTile e.loc fun t => { t with loading := none }) cl h x x.next 0 15
  else if midTile s x then s.modTile e.loc fun t => { t with loading := some (h, b) }
  else giveVerdict s cl h x e b

/-- One movement on the configuration path of the entry that is being loaded: its tile takes the token that has reached its
row; else a token goes one row south, where the link has one of its two slots free; else the decoder sends the next token
(R227). -/
def moveConfig (s : State) (cl h : Nat) (x : Handle) (e : Placed) : State :=
  let core := e.loc.core
  let col := decoderColumn e.loc.tile
  match pathToks s core col e.row with
  | k :: r => takeConfig (setPath s core col e.row r) cl h x e k
  | [] =>
    match (List.range e.row).reverse.find? fun r => pathToks s core col r ≠ [] && (pathToks s core col (r + 1)).length < 2 with
    | some r =>
      let ks := pathToks s core col r
      setPath (setPath s core col r ks.tail) core col (r + 1) (pathToks s core col (r + 1) ++ ks.take 1)
    | none => match x.tokens with
      | k :: ks =>
        if 2 ≤ (pathToks s core col 0).length then s
        else setPath (s.setHandle cl h { x with tokens := ks }) core col 0 (pathToks s core col 0 ++ [k])
      | [] => s

/-- A token of the stream reaches the decoder of its column; with the last one the decoder expands the stream, and its tile's
tokens are ready to go south, or, where there are none, the tile rejects (R46, R226, R227). -/
def hearStream (s : State) (cl h : Nat) (x : Handle) (e : Placed) (k : Tok) (rest : List Tok) : State :=
  let (_, count, data) := configBytes k
  let b := x.heard ++ data.take count
  if configFoul k then rejectLoad s cl h x x.next 0 15
  else if rest ≠ [] then s.setHandle cl h { x with toDecoder := rest, heard := b }
  else
    let v := decodeStream s e b
    let x := { x with toDecoder := [], heard := [], tokens := tokensOf e.row v, pendingFail := v.err }
    let s := s.setHandle cl h x
    if x.tokens = [] then giveVerdict s cl h x e [] else s

/-- TILE_CONFIG_TOKEN: a dictionary token reaches its decoder; or the next tile's stream is read from the image and starts on
its way to the decoder in tokens; or one of these reaches it; or a token of the decoder moves on (R46, R223, R226 to R228). -/
def execTileConfigToken (cl h : Nat) (s : State) : Result :=
  match s.handle? cl h with
  | none => .next s
  | some x =>
    if x.state ≠ .loading ∨ x.reason ≠ 0 then .next s else
    match x.dictToks with
    | (core, col, k) :: r =>
      (match takeDict (tgetD (s.core core).dicts col []) k with
       | some d => .next ((setDict s (core, col) d).setHandle cl h { x with dictToks := r })
       | none => .next (rejectLoad s cl h x 0 0 15))
    | [] =>
      match x.entries[x.next]? with
      | none => .next s
      | some e =>
        if midTile s x then .next (moveConfig s cl h x e) else
        match x.toDecoder with
        | k :: r => .next (hearStream s cl h x e k r)
        | [] => match entryStream s x (loaderUser s x) e with
          | .error m => .next (faultLoading s cl h x m)
          | .ok (b, s) => match tileTokens e.row (b.length + 1) true b with
            | [] => .next (giveVerdict (s.setHandle cl h { x with pendingFail := some (0, 5) }) cl h
                { x with pendingFail := some (0, 5) } e [])
            | ks => .next (s.setHandle cl h { x with toDecoder := ks, heard := [] })

/-- The report of a rejection (R137, R223). -/
def rejectReport (s : State) (tid : Nat) (v : Word) : State :=
  deliverReport s tid { cause := .cfgreject, warning := false, precise := false, engine := 0, tvalue := v, slot := 4 }

/-- LOAD_COMPLETE: every verdict is in; the cross-tile checks (R163), the state, and the end of CFGLD (R223). -/
def execLoadComplete (cl h : Nat) (s : State) : Result :=
  match s.handle? cl h with
  | none => .next s
  | some x =>
    if x.state ≠ .loading ∨ (x.reason = 0 ∧ x.next < x.entries.length) then .next s else
    let cross := if x.reason = 0 then crossBad (preview s x) x else none
    let x := match cross with
      | some (i, k) => { x with reason := 12, badTile := i % x.tableLen, badWord := k }
      | none => x
    let v := graphWord s cl h
    let s := s.setHandle cl h { x with state := if x.reason = 0 then .loaded else .rejected }
    let s := finishLoader s x v
    .next (releaseLoads (if x.reason = 0 then s else rejectReport s x.loader v))

/-! ## CFGSWAP and CFGDROP (R225) -/

/-- CFGSWAP (R225). -/
def execCfgswap (a : GReg) (s : State) : Result :=
  perform s fun s t =>
    match graphOf s t (readG t a) with
    | some (h, x) =>
      let cl := t.lcore / 128
      if x.state ≠ .loaded then trapWith .handle (readG t a)
      else .ok (.onRegs (graphChange (armGraph s cl h) cl h) t id)
    | none => trapWith .handle (readG t a)

/-- The latest launch of a handle has not ended. -/
def launchLive (s : State) (cl h : Nat) : Bool := match s.launch? cl h with
  | some v => v.state ≠ .ended
  | none => false

/-- A handle's launch leaves its queue. -/
def unqueue (s : State) (cl h : Nat) : State :=
  s.modCluster cl fun c => { c with queues := tmap c.queues fun _ q => q.filter fun n => n ≠ h }

/-- A launch that is queued or suspended, or that a wave launch has started, goes with its handle: it leaves its queue, a
pre-emption that it had asked for ends, and who waits for it looks again (log 34). -/
def forgetLaunch (s : State) (cl h : Nat) : State :=
  let s := if ((s.launch? cl h).map Launch.preempting).getD false then preemptDone s else s
  wakeWhere (unqueue s cl h) fun r => r = .launchEnd h || r = .inject h

/-- A handle number that no handle has: that of an active configuration whose handle has been freed. -/
def noHandle : Nat := 1024

/-- The tiles that a loaded handle has swapped already keep their active configurations, which no handle names any more (R225). -/
def orphanTiles (s : State) (h : Nat) (x : Handle) : State :=
  x.entries.foldl (fun s e => s.modTile e.loc fun t => match t.active with
    | some c => if c.handle = h then { t with active := some { c with handle := noHandle } } else t
    | none => t) s

/-- What CFGDROP does to a handle, by state; none where it raises HANDLE (R225). -/
def dropGraph (s : State) (cl h : Nat) (x : Handle) : Option State :=
  match x.state with
  | .loading => some (if midTile s x || x.toDecoder ≠ [] then s.setHandle cl h { x with dropping := true }
      else dropLoading s cl h x)
  | .rejected => some (freeGraph (forgetLaunch (idleGraph (dropShadows s h x) h x) cl h) cl h x)
  | .loaded => some (freeGraph (forgetLaunch (orphanTiles (dropShadows s h x) h x) cl h) cl h x)
  | .active => if launchRuns s cl h then none else some (freeGraph (forgetLaunch (idleGraph s h x) cl h) cl h x)
  | .frozen | .free => none

/-- CFGDROP (R225); a core that it leaves without a configuration may leave its context (R283, log 44). -/
def execCfgdrop (a : GReg) (s : State) : Result :=
  perform s fun s t =>
    match graphOf s t (readG t a) with
    | some (h, x) => match dropGraph s (t.lcore / 128) h x with
      | some s => .ok (.onRegs s t id)
      | none => trapWith .handle (readG t a)
    | none => trapWith .handle (readG t a)

/-! ## Store protection (R232, R233) -/

/-- A tile's graph freezes: tagged tokens, and a marker at every source (R233). -/
def freezeTile (s : State) (l : TileLoc) (c : TileCfg) : State :=
  let cl := l.core / 132
  let s := s.modTile l fun t => { t with tagAll := true }
  match s.handle? cl c.handle with
  | none => s
  | some x =>
    if x.state = .frozen then s else
    let s := s.setHandle cl c.handle { x with state := .frozen }
    if !launchRuns s cl c.handle then s else
    let s := markLaunch s cl c.handle
    match s.launch? cl c.handle with
    | some v => s.setLaunch cl c.handle { v with reloading := true }
    | none => s

/-- CONFIG_SCRUB: a word of the tile's configuration store, active or shadow, is read and its code checked; the scrubber
checks the signature of the active configuration (R232, R233). An error of two bits freezes the graph of the active
configuration; without one there is no graph to freeze (log 64). An error that the code of a pot's granule cannot correct sets
the granule's poison bit (R203). -/
def execConfigScrub (l : TileLoc) (err : StoreError) (s : State) : Result :=
  let t := s.tile l
  let s := match err with
    | .potDouble g => if oddTile l.tile && l.tile < 96 then
        s.modCore l.core fun k => { k with poisoned := nsAdd k.poisoned (potBase l.tile / 16 + g % 8192) }
      else s
    | _ => s
  let s := if err = .singleBit && (t.active.isSome || t.shadow.isSome) then
      s.modCore l.core fun k => { k with corrected := k.corrected + 1 }
    else s
  match t.active with
  | none => .next s
  | some c => .next (if err = .doubleBit || c.foul then freezeTile s l c else s)

/-- TILE_SWAP: an armed tile at its drain point checks its signature once more and makes its shadow active, unless its graph is
frozen or awaits a re-injection (R229, R232, R233, R234). -/
def execTileSwap (l : TileLoc) (s : State) : Result :=
  let t := s.tile l
  match t.shadow with
  | some c =>
    if !(t.armed && drainedTile t) then .next s
    else if let some a := foulDrain t then .next (freezeTile s l a)
    else if frozenAt s l || repairing s l then .next s else
    let cl := l.core / 132
    let was := ((s.handle? cl c.handle).map Handle.armed).getD false
    let s := settleGraph (swapTile s l) cl c.handle
    let now := ((s.handle? cl c.handle).map Handle.armed).getD false
    .next (if was && !now then graphChange s cl c.handle else s)
  | none => .next s

/-- Every sink of a handle runs it and holds the marker of an ordinal (R233, R274). -/
def sinksHold (s : State) (h : Nat) (x : Handle) (m : Nat) : Bool :=
  (graphSinks s h x).all fun l => match (s.tile l).active with
    | some c => c.handle = h && holdsMark (s.tile l) m
    | none => false

/-- A tile takes back the state that the marker's slot has of it; without one it starts its period (R274 to R276). -/
def restoreTile (ordinal : Nat) (saved : Option Tile) (t : Tile) : Tile :=
  match t.active with
  | none => t
  | some c =>
    let u := startTile t c
    match saved with
    | none => u
    | some r =>
      { u with
        ended := r.ended, forks := r.forks, stages := r.stages, nodes := r.nodes, ctl := r.ctl, edge := r.edge, links := r.links,
        credit := r.credit, injected := r.injected, marks := ordinal,
        pot := match c.kind with
          | .pot (.host _) => u.pot
          | .pot _ => r.pot
          | _ => u.pot }

/-- The last complete slot of a launch, as its save area in memory has it; where system software has given the context no save
area, as the launch's own record has it (R275, log 20). -/
def slotState (s : State) (cl h : Nat) (v : Launch) (e : Placed) (k : TileKind) : Option Tile :=
  match slotAddr s v.ctx (slotOf v.marksDone) with
  | some a => (readSlot s a (graphWord s cl h) v.marksDone).bind fun rs => slotTile rs e.lcore e.loc.tile k
  | none => match tget v.slots (slotOf v.marksDone) with
    | some x =>
      if x.complete && x.ordinal = v.marksDone then
        (x.recs.find? fun r => r.core = e.loc.core && r.tile = e.loc.tile).map SaveRec.saved
      else none
    | none => none

/-- The sender of a boundary link has sent the tokens that the link holds (R243). -/
def linksSent (s : State) (l : TileLoc) : State := s.modTile l fun t =>
  { t with bounds := t.links.filterMap fun (key, q) =>
      if key / 8 < 4 && crosses l (key / 8) && q ≠ [] then some (key, { Bound.zero with sent := q.length }) else none }

/-- The tiles of a handle take back the last complete slot of its launch, and in their links the tokens that were resident there
(R168, R275, R276). -/
def restoreGraph (s : State) (cl h : Nat) (x : Handle) : State :=
  match s.launch? cl h with
  | none => s
  | some v =>
    let mine := x.entries.filter fun e => match (s.tile e.loc).active with
      | some c => c.handle = h
      | none => false
    mine.foldl (fun s e =>
      let saved := ((s.tile e.loc).active).bind fun c => slotState s cl h v e c.kind
      let s := emptyLinks s e.loc false
      let s := if 96 ≤ e.loc.tile then leaveRims s e.loc else s
      linksSent (s.modTile e.loc fun t => restoreTile v.marksDone saved t) e.loc) s

/-- What moves on behind the last marker, which the sources wait after, joins the tiles' records in the complete slot as it then
stands: the counters of the controller tree, the credits, and the tokens resident in links (R168, R275). -/
def saveTree (s : State) (cl h : Nat) : State :=
  match s.launch? cl h with
  | none => s
  | some v => match tget v.slots (slotOf v.marksDone) with
    | none => s
    | some x =>
      let keep := fun (r : SaveRec) =>
        let t := s.tile { core := r.core, tile := r.tile }
        { r with saved := { r.saved with
            credit := t.credit, forks := t.forks, nodes := t.nodes, ctl := t.ctl,
            links := (tmap t.links fun _ q => q.filter (·.kind ≠ .marker)).filter fun (_, q) => q ≠ [] } }
      let x := { x with recs := x.recs.map keep }
      writeSlot (s.setLaunch cl h { v with slots := tset v.slots (slotOf v.marksDone) x }) cl h v.ctx x

/-- The words of a frozen tile's configuration, read again from the image: they match the tile's signature, or the index of
the word that does not is given (R233). -/
def reloadTile (s : State) (x : Handle) (user : Bool) (e : Placed) (c : TileCfg) : Except Nat (List W32) :=
  match readVirt x.ctx user 64 x.image.toNat s with
  | .error _ => .error 0
  | .ok (hd, _) => match imageOf hd with
    | none => .error 0
    | some im => match readVirt x.ctx user (4 * im.dicts) (x.image.toNat + im.dictOff) s with
      | .error _ => .error 0
      | .ok (db, _) =>
        match entryStream s x user e with
        | .ok (b, _) =>
          let v := expand (wordsOf im.dicts db) (b.length + 1) b []
          if v.err.isNone && v.crc = some c.sig && crc32c (wordBytes v.words) = c.sig.toNat then .ok v.words
          else .error ((v.err.map Prod.fst).getD v.words.length)
        | .error _ => .error 0

/-- The first frozen tile whose reloaded stream does not match, with the index of its entry and of the word (R222, R233). -/
def reloadBad (s : State) (x : Handle) (user : Bool) (bad : List (Placed × TileCfg)) : Option (Nat × Nat) :=
  bad.findSome? fun (e, c) => match reloadTile s x user e c with
    | .ok _ => none
    | .error k => some (c.entry, k)

/-- A reloaded tile runs the words of the image again, and emits its tokens untagged (R233). -/
def reloadInto (s : State) (x : Handle) (user : Bool) (e : Placed) (c : TileCfg) : State :=
  s.modTile e.loc fun t => { t with
    tagAll := false,
    active := some (match reloadTile s x user e c with
      | .ok ws => { c with words := ws }
      | .error _ => c) }

/-- The tiles of a handle that have frozen it. -/
def frozenTiles (s : State) (h : Nat) (x : Handle) : List (Placed × TileCfg) :=
  x.entries.filterMap fun e => match (s.tile e.loc).active with
    | some c => if c.handle = h && (s.tile e.loc).tagAll then some (e, c) else none
    | none => none

/-- The launch of a handle ends; its ratios and waiters are settled (R256, R271, R272). -/
def endLaunch (s : State) (cl h : Nat) : State :=
  match s.handle? cl h, s.launch? cl h with
  | some x, some v =>
    let s := s.setHandle cl h { x with ratios := [] }
    let s := x.entries.foldl (fun s e => match (s.tile e.loc).active with
      | some c => if c.handle = h then s.modTile e.loc fun t => { t with running := false } else s
      | none => s) s
    let s := s.setLaunch cl h { v with state := .ended, preempting := false }
    let s := if v.preempting then preemptDone s else s
    wakeWhere s fun r => r = .launchEnd h || r = .inject h
  | _, _ => s

/-- The privilege with which a handle's image is read again: that of its launch. -/
def reloadUser (s : State) (cl h : Nat) : Bool := match s.launch? cl h with
  | some v => !v.status0
  | none => true

/-- CONFIG_RELOAD: a frozen handle whose sinks hold the marker is reloaded from its image; it goes on, unless its sources are to
stay stopped for another reason, or its launch, be it still queued, ends (R233). -/
def execConfigReload (cl h : Nat) (s : State) : Result :=
  match s.handle? cl h with
  | none => .next s
  | some x =>
    let bad := frozenTiles s h x
    if x.state ≠ .frozen ∨ bad = [] then .next s else
    let runs := launchRuns s cl h
    let user := reloadUser s cl h
    let m := ((s.launch? cl h).map Launch.marks).getD 0
    if runs && !(sinksHold s h x m && ((s.launch? cl h).map Launch.marksDone).getD 0 = m) then .next s
    else match reloadBad s x user bad with
    | none =>
      let s := bad.foldl (fun s (e, c) => reloadInto s x user e c) (if runs then saveTree s cl h else s)
      let s := s.setHandle cl h { x with state := if x.armed then .loaded else .active }
      if !runs then .next s else
      let s := restoreGraph s cl h x
      match s.launch? cl h with
      | some v =>
        let v := { v with reloading := false }
        .next (if stopsAfter v then s.setLaunch cl h v else startSources (s.setLaunch cl h v) cl h)
      | none => .next s
    | some (i, k) =>
      let s := s.setHandle cl h { x with state := .rejected, reason := 1, badTile := i % x.tableLen, badWord := k }
      match s.launch? cl h with
      | some v => .next (if v.state = .ended then s else rejectReport (endLaunch (unqueue s cl h) cl h) v.tid (graphWord s cl h))
      | none => .next s

end Sys2Proof.Machine
end

