-- ==== Sys2Proof/Machine/Launch.lean ====
section
/-! DEFINITION. Launches: queues and admission (R268, R269), LAUNCH, LWAIT, INJECT and MARK (R270 to R274), checkpoints and save
slots (R274, R275), and pre-emption (R276). -/

namespace Sys2Proof.Machine

open Sys2Proof

/-! ## LAUNCH (R270) -/

/-- A stage rounds with a keyed draw (R81, R187). -/
def keyedStage (g : StageCfg) : Bool := g.cls = 5 && g.rnd = 4

/-- A rounding-4 stage of a handle names a key slot that is not valid (R270). -/
def badKey (s : State) (h : Nat) (x : Handle) (ks : Vector KeyReg 8) : Bool :=
  (graphCfgs s h x).any fun (_, c) => match c.kind with
    | .pan gs => gs.any fun g => keyedStage g && !((ks.toList.getD (nbits g.lastExt 18 16) KeyReg.none).valid)
    | _ => false

/-- LAUNCH's operand gb is well formed (R270). -/
def launchOperand (gb : Word) : Bool :=
  bits gb 15 14 = 0 && bits gb 7 4 = 0 && bits gb 13 8 ≤ 32 && (bits gb 13 8 ≠ 0 || bits gb 63 16 = 0)

/-- A launch as it joins its queue (R270). -/
def Launch.start (s : State) (t : Thread) (wave : Bool) (gb : Word) : Launch :=
  { state := .queued, ctx := t.ctx, tid := s.cur, queue := bits gb 3 0, wave := wave,
    entry := wordTarget t.pc (BitVec.ofNat 48 (bits gb 63 16)), threads := bits gb 13 8, keys := t.k, status0 := t.system,
    tvec := t.tvec, marks := 0, marksDone := 0, slots := [], reports := [], acks := 0, preempting := false, quiesced := false,
    reloading := false, halted := false, resumed := false }

/-- LAUNCH: the handle joins the tail of its queue (R270). -/
def execLaunch (wave : Bool) (a b : GReg) (s : State) : Result :=
  perform s fun s t =>
    let ga := readG t a
    let gb := readG t b
    let cl := t.lcore / 128
    match graphOf s t ga with
    | none => trapWith .handle ga
    | some (h, x) =>
      if (x.state ≠ .loaded ∧ x.state ≠ .active) ∨ x.solution.isNone ∨ launchLive s cl h then trapWith .handle ga
      else if !launchOperand gb then trapWith .handle gb
      else match drained s t with
        | .error e => .error e
        | .ok () =>
          if badKey s h x t.k then trapWith .illegal ga else
          let s := completeReports s cl h
          let v := Launch.start s t wave gb
          let s := s.setLaunch cl h v
          .ok (.onRegs (s.modCluster cl fun c => { c with queues := tmod c.queues v.queue [] (· ++ [h]) }) t id)

/-! ## Admission (R268 to R270, R282) -/

/-- The launch of a queue that has been admitted and has not ended. -/
def queueRuns (s : State) (cl q : Nat) : Bool :=
  (s.cluster cl).launches.any fun (_, v) => v.queue = q && (v.state = .starting || v.state = .running)

/-- A launch of a queue is suspended. -/
def queueSuspended (s : State) (cl q : Nat) : Bool :=
  (s.cluster cl).launches.any fun (_, v) => v.queue = q && v.state = .suspended

/-- A launch acts as one with .wave (R270). -/
def waves (s : State) (cl : Nat) (x : Handle) (v : Launch) : Bool := v.wave && x.state ≠ .active && queueRuns s cl v.queue

/-- A tile of a handle belongs to a running launch of another one that it may not follow (R268). -/
def tilesBusy (s : State) (cl h : Nat) (x : Handle) (v : Launch) : Bool :=
  (s.cluster cl).handles.any fun (n, y) =>
    n ≠ h && launchRuns s cl n && !(waves s cl x v && ((s.launch? cl n).map Launch.queue) = some v.queue) &&
    y.entries.any fun e => x.entries.any fun f => f.loc = e.loc

/-- The physical core that now backs the logical core of which a placement named a physical core. -/
def rehomed (s : State) (x : Handle) (core : Nat) : Nat := match x.entries.find? fun e => e.loc.core = core with
  | some e => s.phys e.lcore
  | none => core

/-- A handle placed on the cores that now back its logical cores (R276, R281). -/
def rehome (s : State) (x : Handle) : Handle :=
  { x with entries := x.entries.map fun e => { e with loc := { e.loc with core := s.phys e.lcore } } }

/-- The cores that a suspended launch had to leave are its context's again, with their pots zeroed (R276, R283). -/
def coresBack (s : State) (x : Handle) : Bool :=
  (graphCores x).all fun lc =>
    (s.lct lc).allocated && (s.lct lc).ctx.toNat = x.ctx && s.backed lc && (s.core (s.phys lc)).zeroing.isNone

/-- The head of a queue can be admitted (R268); admissions wait for a rate step in progress, and for the input (R330); a resumed
launch waits for its cores (R276), the launch of a frozen handle for the reload (R233). -/
def admissible (s : State) (cl q : Nat) : Option Nat :=
  match tgetD (s.cluster cl).queues q [] with
  | [] => none
  | h :: _ =>
    match s.handle? cl h, s.launch? cl h with
    | some x, some v =>
      let x := if v.resumed then rehome s x else x
      if v.state = .queued && (v.resumed || x.state = .loaded || x.state = .active) && (!v.resumed || coresBack s x) && (v.resumed || !queueSuspended s cl q) && (!queueRuns s cl q || waves s cl x v) &&
          !tilesBusy s cl h x v && (s.cluster cl).step.isNone && s.power = .running &&
          (v.resumed || v.threads ≤ freeRecords s (128 * cl + x.originCore))
      then some h else none
    | _, _ => none

/-- The queues that the arbiter visits: those of the highest priority with a head that can be admitted (R268). -/
def candidates (s : State) (cl : Nat) : List (Nat × Nat) :=
  let all := (List.range 16).filterMap fun q => (admissible s cl q).map fun h => (q, h)
  let top := (all.map fun (q, _) => q / 4).foldl Nat.max 0
  all.filter fun (q, _) => q / 4 = top

/-- Queues in cyclic order after one. -/
def afterQueue (last : Nat) (cs : List (Nat × Nat)) : List (Nat × Nat) :=
  cs.filter (fun (q, _) => last < q) ++ cs.filter fun (q, _) => q ≤ last

/-- One round of the arbiter: a queue with a positive deficit is taken; another's is raised (R269). -/
def drrRound : List (Nat × Nat) → Tbl Int → Option (Nat × Nat) × Tbl Int
  | [], d => (none, d)
  | (q, h) :: r, d =>
    let x := tgetD d q 65536
    if 0 < x then (some (q, h), d) else drrRound r (tset d q (min 65536 (x + 65536)))

/-- Rounds until a queue is taken. -/
def drr : Nat → List (Nat × Nat) → Tbl Int → Option (Nat × Nat) × Tbl Int
  | 0, _, d => (none, d)
  | n + 1, cs, d => match drrRound cs d with
    | (some x, d) => (some x, d)
    | (none, d) => drr n cs d

/-- The tag after a core's (R282). -/
def nextTag (t : BitVec 16) : BitVec 16 := if t + 1 = 0 then 1 else t + 1

/-- Every placed core takes a fresh region tag (R270, R282). -/
def freshTags (s : State) (x : Handle) : State :=
  (graphCores x).foldl (fun s i => s.setLct i { s.lct i with tag := nextTag (s.lct i).tag }) s

/-- The instruction lines of every core of a launch are invalid (R64). -/
def flushLines (s : State) (cl : Nat) (x : Handle) : State :=
  (nsAdd (graphCores x) (128 * cl + x.originCore)).foldl (fun s i => s.modCore (s.phys i) fun k => { k with lines := [] }) s

/-- Each root node on the tiles that run a handle has its permit (R164, R270). -/
def permitGraph (s : State) (h : Nat) (x : Handle) : State :=
  x.entries.foldl (fun s e => match (s.tile e.loc).active with
    | some c => if c.handle = h then permitRoots s e.loc else s
    | none => s) s

/-- The tiles of an active handle start a new period, and each root node has its permit (R164, R270). -/
def restartLaunch (s : State) (h : Nat) (x : Handle) : State := permitGraph (restartGraph s h x) h x

/-- A tile of a suspended launch as its image has it again, or the word at which it is rejected and the reason (R222, R276, R315);
bytes that cannot be read count as a stream that does not match, at word 0. -/
def reloadEntry (s : State) (x : Handle) (user : Bool) (e : Placed) :
    Except (Nat × Nat) (List W32 × BitVec 32 × TileKind × List SwitchWord) :=
  match entryStream s x user e with
  | .ok (b, _) =>
    let v := decodeStream s e b
    let crc := v.crc.getD 0
    (tileVerdict v.words crc v.err (96 ≤ e.loc.tile) (oddTile e.loc.tile)).map fun (k, sw) => (v.words, crc, k, sw)
  | .error _ => .error (0, 1)

/-- The first tile that a reload rejects, with its word and reason. -/
def reloadRefused (s : State) (x : Handle) (user : Bool) : Option (Nat × Nat × Nat) :=
  x.entries.zipIdx.findSome? fun (e, i) => match reloadEntry s x user e with
    | .ok _ => none
    | .error r => some (i, r)

/-- A suspended launch's image is loaded again at its placement, and its slot restored (R276), or the tile that is rejected. -/
def reloadGraph (s : State) (cl h : Nat) (x : Handle) : Except (Nat × Nat × Nat) State :=
  let user := reloadUser s cl h
  match reloadRefused s x user with
  | some r => .error r
  | none =>
    let got := x.entries.filterMap fun e => match reloadEntry s x user e with
      | .ok r => some (e, r)
      | .error _ => none
    let s := got.zipIdx.foldl (fun s ((e, ws, crc, k, sw), i) =>
      potActivate (s.modTile e.loc fun t =>
        startTile t { handle := h, entry := i, words := ws, sig := crc, kind := k, switches := sw }) e.loc k) s
    .ok (restoreGraph s cl h x)

/-- The dictionary of a handle's image goes into its decoders again. -/
def reloadDicts (s : State) (cl h : Nat) (x : Handle) : State :=
  let user := reloadUser s cl h
  match readVirt x.ctx user 64 x.image.toNat s with
  | .error _ => s
  | .ok (hd, _) => match imageOf hd with
    | none => s
    | some im => match readVirt x.ctx user (4 * im.dicts) (x.image.toNat + im.dictOff) s with
      | .ok (db, _) => loadDicts s x.entries (wordsOf im.dicts db)
      | .error _ => s

/-- A resumed launch is admitted: its handle reloaded on the cores that back it now, its slot restored, its sources restarted
(R276). -/
def resumeLaunch (s : State) (cl h : Nat) (old : Handle) : State :=
  let x := rehome s old
  let s := s.setHandle cl h x
  let s := match s.launch? cl h with
    | some v => s.setLaunch cl h { v with slots := tmap v.slots fun _ r => { r with
        recs := r.recs.map fun r => { r with core := rehomed s old r.core } } }
    | none => s
  match reloadGraph (reloadDicts s cl h x) cl h x with
  | .ok s => beginStep (graphChange (s.setHandle cl h { x with state := .active, due := false }) cl h) cl h true false
  | .error (i, word, reason) =>
    let s := s.setHandle cl h { x with state := .rejected, reason := reason, badTile := i % x.tableLen, badWord := word }
    match s.launch? cl h with
    | some v => rejectReport (endLaunch s cl h) v.tid (graphWord s cl h)
    | none => s

/-- Admit the head of a queue (R269, R270). -/
def admitHead (s : State) (cl q h : Nat) : State :=
  match s.handle? cl h, s.launch? cl h with
  | some x, some v =>
    let s := s.modCluster cl fun c =>
      { c with queues := tset c.queues q ((tgetD c.queues q []).drop 1),
               deficits := tset c.deficits q (tgetD c.deficits q 65536 - 1024), lastQueue := q }
    let s := flushLines (switchContext (freshTags s x) cl v.ctx) cl x
    let s := s.setLaunch cl h { v with state := .starting, resumed := false, wave := !v.resumed && waves s cl x v }
    if v.resumed then resumeLaunch s cl h x else
    let s := s.setHandle cl h { x with steps := 0, due := false, launched := true }
    let s := if x.state = .loaded then graphChange (armGraph (permitGraph s h x) cl h) cl h else restartLaunch s h x
    beginStep s cl h true false
  | _, _ => s

/-- LAUNCH_ADMISSION: the arbiter admits one launch, if one can be (R268 to R270). -/
def execLaunchAdmission (cl : Nat) (s : State) : Result :=
  let cs := afterQueue (s.cluster cl).lastQueue (candidates s cl)
  match drr 65536 (if cs = [] then [] else cs) (s.cluster cl).deficits with
  | (some (q, h), d) => .next (admitHead (s.modCluster cl fun c => { c with deficits := d }) cl q h)
  | (none, d) => .next (s.modCluster cl fun c => { c with deficits := d })

/-! ## The end of a launch (R271) -/

/-- Every sink of a handle runs it and holds the end of its stream (R271). -/
def sinksEnded (s : State) (h : Nat) (x : Handle) : Bool :=
  (graphSinks s h x).all fun l => match (s.tile l).active with
    | some c => c.handle = h && holdsEnd (s.tile l)
    | none => false

/-- LAUNCH_END: every sink holds its stream-end, or after a disagreement its marker, and every store is acknowledged (R235,
R271). -/
def execLaunchEnd (cl h : Nat) (s : State) : Result :=
  match s.handle? cl h, s.launch? cl h with
  | some x, some v =>
    if v.state ≠ .running ∨ v.acks ≠ 0 then .next s
    else if v.halted then
      .next (if sinksHold s h x v.marks then endLaunch (s.setHandle cl h { x with state := .frozen }) cl h else s)
    else .next (if sinksEnded s h x && x.state = .active then endLaunch s cl h else s)
  | _, _ => .next s

/-! ## LWAIT (R272) -/

/-- LWAIT: an acquire, after the launch's reports are folded (R143, R272). -/
def execLwait (a : GReg) (s : State) : Result :=
  perform s fun s t =>
    match graphOf s t (readG t a) with
    | none => trapWith .handle (readG t a)
    | some (h, _) =>
      match s.launch? (t.lcore / 128) h with
      | none => trapWith .handle (readG t a)
      | some v =>
        if v.state ≠ .ended then .error (.wait (.launchEnd h) s)
        else .ok (.onRegs (acquireFor (foldLaunch s (t.lcore / 128) h) t) t id)

/-! ## INJECT (R273) -/

/-- The token of an inject record, and its source index; none where the record is not well formed (R273). -/
def injectRecord (b : List Byte) : Option (Tok × Nat) :=
  let f := field b 64 1
  let kind : Option TokKind := match f % 8 with
    | 0 => some .data
    | 1 => some .streamEnd
    | 5 => some .bound
    | _ => none
  match kind with
  | none => none
  | some k =>
    if 16 ≤ f ∨ 15 < field b 65 1 ∨ ((b.drop 68).any fun x => x ≠ 0) then none
    else some ({ kind := k, tag := f / 8 % 2 = 1, level := BitVec.ofNat 4 (field b 65 1), seq := 0,
                 payload := pack 8 ((b.take 64).map BitVec.toNat) }, field b 66 2)

/-- A source pot of a running launch, by its index, whose tile runs the handle (R273). -/
def sourceAt (s : State) (h : Nat) (x : Handle) (i : Nat) : Option TileLoc := (sourcePots s h x)[i]?

/-- A source takes a token: its tile runs the handle, and it has space (R207, R273). -/
def sourceOpen (s : State) (h : Nat) (l : TileLoc) : Bool :=
  match (s.tile l).active with
  | some c => c.handle = h && 0 < spaceOf (s.tile l) && !sourceStopped s l
  | none => false

/-- The 128 bytes of an inject record, as two accesses of 64 bytes (R113, R273). -/
def injectBytes (s : State) (t : Thread) (gb : Word) : Except Stop (List Byte × State) :=
  match loadBytes s t gb 64 .fresh with
  | .error e => .error e
  | .ok (b1, s) => match loadBytes s t (gb + 64) 64 .fresh with
    | .error e => .error e
    | .ok (b2, s) => .ok (b1 ++ b2, s)

/-- INJECT (R273). -/
def execInject (a b : GReg) (s : State) : Result :=
  perform s fun s t =>
    let ga := readG t a
    let gb := readG t b
    match graphOf s t ga with
    | none => trapWith .handle ga
    | some (h, x) =>
      if !launchRuns s (t.lcore / 128) h then trapWith .handle ga
      else match drained s t with
        | .error e => .error e
        | .ok () => match injectBytes s t gb with
          | .error e => .error e
          | .ok (b, s) => match injectRecord b with
            | none => trapWith .handle gb
            | some (k, i) => match sourceAt s h x i with
              | none => trapWith .handle gb
              | some l =>
                if sourceOpen s h l then .ok (.onRegs (pushSource s l k) t id)
                else .error (.wait (.inject h) s)

/-! ## MARK (R274) -/

/-- MARK (R274). -/
def execMark (a : GReg) (s : State) : Result :=
  perform s fun s t =>
    match graphOf s t (readG t a) with
    | none => trapWith .handle (readG t a)
    | some (h, _) =>
      if launchRuns s (t.lcore / 128) h then .ok (.onRegs (markLaunch s (t.lcore / 128) h) t id)
      else trapWith .handle (readG t a)

/-! ## Checkpoints (R274, R275) -/

/-- Tiles without a record of the marker, which no marker reaches any more, are recorded as they stand (R274). -/
def fillSlot (s : State) (h : Nat) (x : Handle) (v : SaveSlot) : SaveSlot :=
  let rest := x.entries.filterMap fun e =>
    if v.recs.any fun r => r.core = e.loc.core && r.tile = e.loc.tile then none else
    match (s.tile e.loc).active with
    | some c => if c.handle = h then some { core := e.loc.core, tile := e.loc.tile, saved := s.tile e.loc : SaveRec } else none
    | none => none
  { v with recs := v.recs ++ rest, complete := true }

/-- CHECKPOINT_COMPLETE: every sink holds the next marker; its slot is the checkpoint, and the work before it has completed
(R143, R274, R275). It is a context save, so completed work is folded. -/
def execCheckpointComplete (cl h : Nat) (s : State) : Result :=
  match s.handle? cl h, s.launch? cl h with
  | some x, some v =>
    let m := v.marksDone + 1
    if v.state ≠ .running ∨ v.marks < m ∨ !sinksHold s h x m then .next s else
    let slot := fillSlot s h x (v.slotFor m)
    let s := s.setLaunch cl h { v with marksDone := m, slots := tset v.slots (slotOf m) slot }
    .next (foldContext (writeSlot s cl h v.ctx slot) v.ctx)
  | _, _ => .next s

/-! ## Pre-emption (R276, R283) -/

/-- PREEMPTION_COMPLETE: the marker's slot is complete, with what is resident in links and in the controller tree (R168); the launch
is suspended, its tiles idle, its cores free (R276). -/
def execPreemptionComplete (cl h : Nat) (s : State) : Result :=
  match s.handle? cl h, s.launch? cl h with
  | some x, some v =>
    if v.state ≠ .running ∨ !v.preempting ∨ v.reloading ∨ v.marksDone < v.marks ∨ sinksEnded s h x then .next s else
    let s := saveTree s cl h
    let s := s.setLaunch cl h { (s.launch? cl h).getD v with state := .suspended, preempting := false }
    let s := idleGraph s h x
    .next (preemptDone (foldContext ((graphCores x).foldl leaveCore s) v.ctx))
  | _, _ => .next s

end Sys2Proof.Machine
end

