-- ==== Sys2Proof/Machine/Remote.lean ====
section
/-! DEFINITION. RST and RAT (R120), the messages that arrive at this package (R355 to R363), and the peer links (R352 to R354,
R360). -/

namespace Sys2Proof.Machine

open Sys2Proof

/-- The execution-time checks of RST and RAT, in order (R120). -/
def remoteChecks (s : State) (ga : Word) (width : Nat) : Except Stop Unit :=
  if ga.toNat % width ≠ 0 then trapWith .align ga
  else if bits ga 63 60 ≠ 0 then trapWith .protect ga
  else if !idValid s (bits ga 59 52) then trapWith .protect ga
  else .ok ()

/-- A remote operation may be sent: fewer than 16 unacknowledged ones of the thread, and room at the destination (R120,
R357, R358). -/
def remoteRoom (s : State) (t : Thread) (chip : Nat) : Except Stop Unit :=
  if 16 ≤ t.remotePending.length ∨ !canSend s chip then .error (.wait .remote s) else .ok ()

/-- RST (R120). -/
def execRst (ord : MemOrder) (ty : Ty) (a b : GReg) (s : State) : Result :=
  perform s fun s t =>
    let ga := readG t a
    let chip := bits ga 59 52
    match remoteChecks s ga (atomWidth ty), (if releases ord then released s t else afterReleases s t), remoteRoom s t chip with
    | .error e, _, _ => .error e
    | _, .error e, _ => .error e
    | _, _, .error e => .error e
    | .ok (), .ok (), .ok () =>
      let (q, s) := sendNumbered s
        (mkMsg chip 0 t.ctx 0 0 (accessPayload (bits ga 51 0) (readG t b) 0 .swap ty))
      .ok (.onRegs s t fun x => { x with remotePending := x.remotePending ++ [(chip, q)] })

/-- RAT: the thread is held until the old value returns (R120). -/
def execRat (op : AmoOp) (ord : MemOrder) (ty : Ty) (d a b : GReg) (s : State) : Result :=
  perform s fun s t =>
    let ga := readG t a
    let chip := bits ga 59 52
    match remoteChecks s ga (atomWidth ty), (if releases ord then released s t else afterReleases s t), remoteRoom s t chip with
    | .error e, _, _ => .error e
    | _, .error e, _ => .error e
    | _, _, .error e => .error e
    | .ok (), .ok (), .ok () =>
      let (q, s) := sendNumbered s
        (mkMsg chip 1 t.ctx 0 s.cur (accessPayload (bits ga 51 0) (readG t b) (readG t d) op ty))
      let s := s.modThread s.cur fun x => { x with remotePending := x.remotePending ++ [(chip, q)] }
      .error (.wait (.ratReply chip q d.toNat ty (acquires ord)) s)

/-- Take the n-th message that has arrived here, if its type is one of some. -/
def takeInbox (s : State) (n : Nat) (types : List Nat) : Option (Msg × State) :=
  match s.fabric.inbox[n]? with
  | some m =>
    if types.contains m.type.toNat then
      some (m, { s with fabric := { s.fabric with inbox := s.fabric.inbox.eraseIdx n } })
    else none
  | none => none

/-- A numbered message of one type arrives. -/
def numberedStep (s : State) (n type : Nat) : Result :=
  match takeInbox s n [type] with
  | some (m, s) => .next (arriveNumbered s m)
  | none => .next s

/-- PEER_RST (R356). -/
def execPeerRst (n : Nat) (s : State) : Result := numberedStep s n 0
/-- PEER_RAT (R356, R359). -/
def execPeerRat (n : Nat) (s : State) : Result := numberedStep s n 1
/-- PEER_COPY_DATA (R356). -/
def execPeerCopyData (n : Nat) (s : State) : Result := numberedStep s n 2
/-- PEER_REDUCING_DATA (R363). -/
def execPeerReducingData (n : Nat) (s : State) : Result := numberedStep s n 3
/-- PEER_CHANNEL_TOKEN (R362). -/
def execPeerChannelToken (n : Nat) (s : State) : Result := numberedStep s n 4

/-- The thread whose unacknowledged operation a sequence of a chip is. -/
def pendingThread (s : State) (chip : Nat) (q : BitVec 32) : Option Nat :=
  (s.threads.find? fun (_, t) => t.remotePending.contains (chip, q)).map Prod.fst

/-- The thread that waits for the reply of a RAT. -/
def ratWaiter (s : State) (chip : Nat) (q : BitVec 32) : Option (Nat × Thread) :=
  s.threads.find? fun (_, t) => match t.run with
    | .waiting (.ratReply c x _ _ _) => c = chip && x = q
    | _ => false

/-- A RAT that failed completes without a value (log 10). -/
def abandonRat (s : State) (chip : Nat) (q : BitVec 32) : State :=
  match ratWaiter s chip q with
  | some (tid, t) => finish tid t (Effect.onRegs s t id)
  | none => s

/-- A remote operation has failed: its thread has an imprecise report with the remote address before its next instruction
(R120, R140); a copy's thread takes it too (R278). -/
def failRemote (chip : Nat) (s : State) (f : BitVec 32 × Cause) : State :=
  let (q, cause) := f
  match (s.dest chip).replay.find? fun m => m.seq = q with
  | none => s
  | some m =>
    let r : Report := { cause := cause, warning := false, precise := false, engine := 0,
                        tvalue := w64 (chip * 2 ^ 52 + payloadNat m 0 8), slot := 7 }
    match pendingThread s chip q with
    | some tid => abandonRat (deliverReport s tid r) chip q
    | none =>
      match s.clusters.findSome? fun (_, c) => c.copies.findSome? fun (_, x) =>
        if x.unacked.contains (chip, q) then some x.tid else none with
      | some tid => deliverReport s tid r
      | none => s

/-- Wake the threads that wait for a copy (R57, R279). -/
def wakeCopies (s : State) : State := wakeWhere s fun r => match r with
  | .copyDone _ => true
  | _ => false

/-- Everything a chip has acknowledged through A leaves the replay buffer for the retention log; remote operations and copies of
this package are complete (R120, R357, R358). -/
def ackThrough (s : State) (chip : Nat) (a : BitVec 32) : State :=
  let d := s.dest chip
  let gone := d.replay.filter fun m => seqLe m.seq a
  let s := s.setDest chip { d with
    replay := d.replay.filter fun m => !seqLe m.seq a
    acked := some a }
  let s := gone.foldl (retainMsg chip) s
  let left := fun (l : List (Nat × BitVec 32)) => l.filter fun (c, q) => !(c = chip && seqLe q a)
  let s := { s with
    threads := tmap s.threads fun _ t => { t with remotePending := left t.remotePending }
    clusters := tmap s.clusters fun _ c => { c with copies := tmap c.copies fun _ x => { x with unacked := left x.unacked } } }
  wakeCopies (wakeSenders s)

/-- ACKNOWLEDGEMENT (R356, R120). -/
def execAcknowledgement (n : Nat) (s : State) : Result :=
  match takeInbox s n [5] with
  | none => .next s
  | some (m, s) =>
    let chip := m.src.toNat
    .next (ackThrough ((ackFailures m).foldl (failRemote chip) s) chip (BitVec.ofNat 32 (payloadNat m 0 4)))

/-- RAT_REPLY: the old value reaches the thread that waits for it (R120, R359). -/
def execRatReply (n : Nat) (s : State) : Result :=
  match takeInbox s n [6] with
  | none => .next s
  | some (m, s) =>
    match ratWaiter s m.src.toNat m.seq with
    | none => .next s
    | some (tid, t) =>
      match t.run with
      | .waiting (.ratReply _ _ dest ty acq) =>
        let s := if acq then acquire s (s.coreOf t) tid else s
        .next (finish tid t (Effect.onRegs s t fun x => writeG x (BitVec.ofNat 5 dest) (amoOld ty (payloadNat m 0 8))))
      | _ => .next s

/-- HORIZON: retained messages up to the first value go, and RAT replies below the second (R358, R359). -/
def execHorizon (n : Nat) (s : State) : Result :=
  match takeInbox s n [7] with
  | none => .next s
  | some (m, s) =>
    let chip := m.src.toNat
    let a := BitVec.ofNat 32 (payloadNat m 0 4)
    let b := BitVec.ofNat 32 (payloadNat m 4 4)
    let d := s.dest chip
    let s := s.setDest chip { d with retained := d.retained.filter fun (q, _) => !seqLe q a }
    let c := s.source chip
    let s := s.setSource chip { c with horizonA := a, horizonN := b, replies := c.replies.filter (fun (q, _) => seqLe b q),
                                          failed := c.failed.filter fun (q, _) => seqLe b q }
    .next (wakeSenders s)

/-- REPLAY_TIMEOUT (R357). -/
def execReplayTimeout (chip : Nat) (s : State) : Result := .next (resendAll s chip)

/-- MESSAGE_TRANSIT: a message at a router is routed onward, delivered where its entry has become the package's own, or
dropped and counted, all by the entry of the moment (R360, R361). -/
def execMessageTransit (n : Nat) (s : State) : Result :=
  match s.fabric.transit[n]? with
  | none => .next s
  | some (router, m) =>
    let s := { s with fabric := { s.fabric with transit := s.fabric.transit.eraseIdx n } }
    let chip := m.dest.toNat
    if idValid s chip && idSelf s chip then .next (takeOwn s m) else
    match (if idValid s chip && !idHeld s chip then routeLink s chip else none) with
    | some l => .next (linkSend s l m)
    | none => .next { s with fabric := { s.fabric with transitDropped := tmod s.fabric.transitDropped router 0 (· + 1) } }

/-! ## Links (R352 to R354) -/

/-- A message reaches this package's router by a link: reserved types are dropped and counted, its own go to the stream ports,
others travel on (R355, R360). -/
def routerTake (s : State) (link : Nat) (m : Msg) : State :=
  if 8 ≤ m.type.toNat then { s with fabric := { s.fabric with dropped := s.fabric.dropped + 1 } }
  else if idSelf s m.dest.toNat && idValid s m.dest.toNat then
    takeOwn (s.setSource m.src.toNat { s.source m.src.toNat with link := link }) m
  else { s with fabric := { s.fabric with transit := s.fabric.transit ++ [(link / 8, m)] } }

/-- Flits acknowledged through a sequence leave the retry buffer (R353). -/
def ackFlits (p : PeerLink) (through : BitVec 12) : PeerLink :=
  if p.retry.any fun f => f.seq = through then
    { p with retry := (p.retry.dropWhile fun f => f.seq ≠ through).tail }
  else p

/-- A nak names the flit after the acknowledged one; the sixteenth of one flit makes the link retrain (R354). -/
def countNak (p : PeerLink) (through : BitVec 12) : PeerLink :=
  let q := through + 1
  let n := if p.naks ≠ 0 ∧ p.nakSeq = q then p.naks + 1 else 1
  if 16 ≤ n then { p with naks := 0, nakSeq := q, state := .training } else { p with naks := n, nakSeq := q }

/-- A package has 16 peer links (R3, R352). -/
def peerLinks : Nat := 16

/-- A flit is intact and its sequence is the one expected; an idle flit bears the sequence of the next one (R352, R353, log 9). -/
def flitGood (p : PeerLink) (bytes : List Byte) : Bool :=
  bytes.length = 256 && crc32c (bytes.take 252) = leNat (bytes.drop 252) &&
  bits (w64 (leNat (bytes.take 8))) 11 0 = p.expected.toNat

/-- PEER_FLIT: a flit with a wrong CRC or an unexpected sequence is discarded and nak'd. The acknowledgement of another frees the
retry buffer, its nak has every flit after the acknowledged one sent again, and an idle flit answers where no other goes (R352,
R353, log 9). -/
def execPeerFlit (link : Nat) (bytes : List Byte) (s : State) : Result :=
  let p := s.link link
  let n := p.wire.length
  if p.state ≠ .up ∨ peerLinks ≤ link then .next s
  else if !flitGood p bytes then .next (s.setLink link (answerLink n { p with sendNak := true }))
  else
    let h := w64 (leNat (bytes.take 8))
    let through := BitVec.ofNat 12 (bits h 23 12)
    let p := ackFlits p through
    let p := if bit h 24 then countNak p through else { p with naks := 0 }
    let again := fun (p : PeerLink) =>
      let p := if bit h 24 ∧ p.state = .up then resendFlits p else p
      pumpLink p.waiting.length p
    if bits h 26 25 ≠ 0 then .next (s.setLink link (again { p with sendNak := false }))
    else
      let s := s.setLink link (answerLink n (again { p with expected := p.expected + 1, sendNak := false }))
      .next ((msgsOfSlots (bits h 28 27) ((bytes.drop 8).take (80 * bits h 28 27))).foldl (fun s m => routerTake s link m) s)

/-- Destinations whose messages last went by a link are sent again (R357). -/
def resendLink (s : State) (link : Nat) : State :=
  (s.fabric.dests.filterMap fun (c, d) => if d.lastLink = some link then some c else none).foldl resendAll s

/-- LINK_RETRAIN: lane lock is lost, or a training fails; the third failure in a row takes the link down (R354, R357). -/
def execLinkRetrain (link : Nat) (lockLost failed : Bool) (s : State) : Result :=
  if peerLinks ≤ link then .next s else
  let p := s.link link
  let p := if lockLost ∧ p.state = .up then { p with state := .training } else p
  if failed ∧ p.state = .training then
    if 2 ≤ p.failures then
      .next (resendLink (s.setLink link { p with state := .down, failures := 3, retry := [], waiting := [] }) link)
    else .next (s.setLink link { p with failures := p.failures + 1 })
  else .next (s.setLink link p)

/-- LINK_TRAINED: the link is up on 8, 4 or 2 lanes, and sending resumes from the sequence the other end expects (R353,
R354). -/
def execLinkTrained (link lanes : Nat) (expected : BitVec 12) (s : State) : Result :=
  let p := s.link link
  if p.state ≠ .training ∨ !(lanes = 8 || lanes = 4 || lanes = 2) ∨ peerLinks ≤ link then .next s
  else
    let p := { p with state := .up, lanes := lanes, failures := 0, naks := 0,
                      retry := if p.retry.any (fun f => f.seq = expected) then p.retry.dropWhile fun f => f.seq ≠ expected
                               else if p.nextSeq = expected then [] else p.retry }
    let p := resendFlits p
    .next (s.setLink link (pumpLink p.waiting.length p))

/-- Directions of the links between dies: two of each of the four links of a fabric and a rim die and of the link of the
fabric dies (R293). -/
def dieDirections : Nat := 10

/-- DIE_LINK_FLIT: a flit of 256 bytes between dies arrives intact, or its traffic class is sent again from it on (R293,
log 5). -/
def execDieLinkFlit (link : Nat) (flit : DieFlit) (s : State) : Result :=
  if dieDirections ≤ link then .next s else
  let zero : DieLink := { delivered := [], retry := [], retries := 0 }
  .next { s with fabric := { s.fabric with
    dieLinks := tmod s.fabric.dieLinks link zero fun d =>
      if flit.bytes.length = 256 ∧ crc32c (flit.bytes.take 252) = leNat (flit.bytes.drop 252) then
        { d with delivered := tmod d.delivered flit.cls 0 (· + 1), retry := nsDel d.retry flit.cls }
      else { d with retry := nsAdd d.retry flit.cls, retries := d.retries + 1 } } }

end Sys2Proof.Machine
end

