-- ==== Sys2Proof/Machine/Copies.lean ====
section
/-! DEFINITION. Copies: COPY and CPWAIT (R277 to R279), the copy engine's tiles (R278, R280, R290, R363). -/

namespace Sys2Proof.Machine

open Sys2Proof

/-! ## Descriptors (R277, R279) -/

/-- A copy handle (R123, R278). -/
def copyWord (s : State) (cl n : Nat) : Word :=
  w64 (tgetD (s.cluster cl).copyGens n 1 * 2 ^ 56 + n * 2 ^ 44 + cl * 2 ^ 28)

/-- The copy that a thread's handle names: of its cluster and context (R279). -/
def copyOf (s : State) (t : Thread) (w : Word) : Option (Nat × Copy) :=
  let cl := t.lcore / 128
  let n := bits w 55 44
  match tget (s.cluster cl).copies n with
  | some c => if c.ctx = t.ctx ∧ copyWord s cl n = w then some (n, c) else none
  | none => none

/-- A type that an operation accepts (R277). -/
def copyType (op ty : Nat) : Bool :=
  match op with
  | 0 => edgeType ty
  | 1 => tyOf ty = .f32 || tyOf ty = .bf16 || tyOf ty = .s32 || tyOf ty = .n32
  | _ => tyOf ty = .f32 || tyOf ty = .s32 || tyOf ty = .n32

/-- Bytes of an element. -/
def copyWidth (ty : Nat) : Nat := (tyOf ty).width / 8

/-- A pot form is well formed (R113, R279). -/
def potForm (a : Word) : Bool := bit a 63 && bits a 62 30 = 0 && bits a 22 17 ≤ 47

/-- The form of a source, or of a destination, which may be remote (R27, R277). A source in neither form is refused as a descriptor
that is not well formed (DESIGN CHOICE, log 21). -/
def copyForm (a : Word) (dest : Bool) : Bool :=
  if bit a 63 then potForm a else bits a 63 52 = 0 || (dest && bits a 63 60 = 0)

/-- Bytes of a descriptor from an address on, as 64-byte accesses. -/
def descBytes (t : Thread) (ga : Word) : Nat → State → Except Stop (List Byte × State)
  | 0, s => .ok ([], s)
  | n + 1, s =>
    match descBytes t ga n s with
    | .error e => .error e
    | .ok (b, s) => match loadBytes s t (ga + w64 (64 * n)) 64 .fresh with
      | .error e => .error e
      | .ok (r, s) => .ok (b ++ r, s)

/-- The dimensions of a descriptor. -/
def copyDims (b : List Byte) (m : Nat) : List (Nat × Nat × Int × Int) :=
  (List.range m).map fun i =>
    (field b (48 + 16 * i) 4, field b (52 + 16 * i) 4, s32Of (field b (56 + 16 * i) 4), s32Of (field b (60 + 16 * i) 4))

/-- The copy that a descriptor asks for, or none if its fields are not well formed (R277, R279). -/
def copyFields (t : Thread) (tid : Nat) (b : List Byte) : Option Copy :=
  let w0 := w64 (field b 0 8)
  let op := bits w0 3 0
  let ty := bits w0 7 4
  let m := bits w0 11 8
  let w := copyWidth ty
  let src := w64 (field b 8 8)
  let dst := w64 (field b 16 8)
  let bar := w64 (field b 24 8)
  let dims := copyDims b m
  if 3 < op ∨ bits w0 63 12 ≠ 0 ∨ m = 0 ∨ 10 < m ∨ !copyType op ty ∨ (((b.take 48).drop 36).any fun x => x ≠ 0) ∨
      src.toNat % w ≠ 0 ∨ dst.toNat % w ≠ 0 ∨ !copyForm src false ∨ !copyForm dst true ∨
      (bar ≠ 0 ∧ (!potForm bar ∨ bar.toNat % 16 ≠ 0)) ∨
      (dims.any fun (_, k, a, d) => k = 0 || 65535 < k || a % (w : Int) ≠ 0 || d % (w : Int) ≠ 0) then none
  else some { ctx := t.ctx, user := !t.system, tid := tid, op := op, ty := ty, src := src, dst := dst, barrier := bar,
              toZero := false, fill := BitVec.ofNat 32 (field b 32 4), dims := dims, next := 0, sent := 0, unacked := [], suspended := none,
              done := false }

/-- The core of a pot form belongs to a context (R113, R279). -/
def formOwned (s : State) (cl ctx : Nat) (a : Word) : Bool :=
  !bit a 63 || ((s.lct (potCore cl a)).allocated && (s.lct (potCore cl a)).ctx.toNat = ctx && s.backed (potCore cl a))

/-- The core of a pot form has left its context, and the copies into its pots complete first (R283). -/
def formLeaving (s : State) (cl ctx : Nat) (a : Word) : Bool :=
  bit a 63 && s.backed (potCore cl a) && (s.core (s.phys (potCore cl a))).zeroing = some ctx

/-- A destination with bits [63:52] zero on a chip of a domain that is not logical chip 0 and has an entry for it: global memory
by R277 and R113, and an address of chip 0 by R27, as the ring of R367 uses it. No rule says which it is (log 81). -/
def namesZero (s : State) (c : Copy) : Bool :=
  bits c.dst 63 52 = 0 && s.trivet.assigned && s.trivet.chip ≠ 0 && idValid s 0

/-- COPY: a release; the descriptor is checked and handed to the cluster's engine (R278, R279). An open choice says what an
address that two rules read differently names (log 81). -/
def execCopy (d a : GReg) (s : State) : Result :=
  perform s fun s t =>
    let ga := readG t a
    let cl := t.lcore / 128
    match located s t ga 64 .read with
    | .error e => .error e
    | .ok (_, s) => match drained s t with
      | .error e => .error e
      | .ok () => match descBytes t ga 1 s with
        | .error e => .error e
        | .ok (b, s) =>
          let m := Nat.min 10 (bits (w64 (field b 0 8)) 11 8)
          match descBytes t ga ((48 + 16 * m + 63) / 64) s with
          | .error e => .error e
          | .ok (b, s) => match copyFields t s.cur b with
            | none => trapWith .handle ga
            | some c =>
              if !(formOwned s cl t.ctx c.src && formOwned s cl t.ctx c.dst && formOwned s cl t.ctx c.barrier) then
                trapWith .protect ga
              else
                let n := freeKey 0 (s.cluster cl).copies
                if 4096 ≤ n then .ok (.onRegs s t fun y => writeG y d 0)
                else
                  let v := copyWord s cl n
                  let (x, s) := if namesZero s c then s.choose else (0, s)
                  let c := { c with toZero := x % 2 = 1 }
                  .ok (.onRegs (s.modCluster cl fun k => { k with copies := tset k.copies n c }) t fun y => writeG y d v)

/-- CPWAIT: an acquire; the copy number is freed (R279). -/
def execCpwait (a : GReg) (s : State) : Result :=
  perform s fun s t =>
    match copyOf s t (readG t a) with
    | none => trapWith .handle (readG t a)
    | some (n, c) =>
      if !c.done then .error (.wait (.copyDone n) s) else
      let s := s.modCluster (t.lcore / 128) fun k =>
        { k with copies := tdel k.copies n, copyGens := tset k.copyGens n (nextGen (tgetD k.copyGens n 1)) }
      .ok (.onRegs (acquireFor s t) t id)

/-! ## Addresses of a tile (R216, R278) -/

/-- The source side of a descriptor's dimensions. -/
def sourceDims (c : Copy) : List Dim := c.dims.map fun (e, k, a, _) => { extent := e, tile := k, stride := a }
/-- The tiles of a copy. -/
def copyTiles (c : Copy) : Nat := tileCount (sourceDims c)

/-- The offset of a tile's element by the destination strides, in or out of the tensor (R278). -/
def destOffset : List (Nat × Nat × Int × Int) → Nat → Nat → Int → Int
  | [], _, _, acc => acc
  | (e, k, a, d) :: r, tile, i, acc =>
    let dim : Dim := { extent := e, tile := k, stride := a }
    destOffset r (tile / dim.grid) (i / k) (acc + (tile % dim.grid * k + i % k : Nat) * d)

/-- An address of 64 bits. -/
def shiftBy (a : Word) (o : Int) : Word := BitVec.ofInt 64 (a.toNat + o)

/-- A copy has writes into a core's pots, or arrivals, that have not been performed: of the tile in progress and those after it,
wherever their strides lead (R283). -/
def copyInbound (cl lc : Nat) (c : Copy) : Bool :=
  !c.done && c.next < copyTiles c &&
  ((c.barrier ≠ 0 && potCore cl c.barrier = lc) ||
   (List.range (copyTiles c - c.next)).any fun k => (List.range (tileElems (sourceDims c))).any fun i =>
     let a := shiftBy c.dst (destOffset c.dims (c.next + k) i 0)
     bit a 63 && potCore cl a = lc)

/-- Where an element lies: a pot of the cluster, memory with its presence attribute, or a peer. -/
inductive Place2 where
  | pot (isl addr : Nat)
  | glob (va pa : Nat) (presence : Bool)
  | peer (a : Word)
deriving DecidableEq, Repr

/-- Resolve an element's address; a failure names the address (R113, R278, log 21). -/
def copyPlace (s : State) (cl : Nat) (c : Copy) (a : Word) (acc : Access) : Except (Word × WalkResult) (Place2 × State) :=
  if bit a 63 then
    if !potForm a ∨ !(formOwned s cl c.ctx a || formLeaving s cl c.ctx a) then .error (a, .fail true 4 0)
    else .ok (.pot (potCore cl a) (bits a 22 0), s)
  else if bits a 63 52 ≠ 0 ∨ (c.toZero ∧ acc ≠ .read) then (if bits a 63 60 ≠ 0 then .error (a, .fail true 4 0) else .ok (.peer a, s))
  else match translate s c.ctx a.toNat acc c.user with
    | (.ok pa, pres, s) => .ok (.glob a.toNat pa pres, s)
    | (r, _, _) => .error (a, r)

/-- One element of a tile: where it goes, and where it comes from unless it lies outside the tensor. -/
structure Move1 where
  dst : Place2
  src : Option Place2
deriving DecidableEq, Repr

/-- Resolve the source of element i of a tile; none outside the tensor (R278). -/
def copySource (s : State) (cl : Nat) (c : Copy) (i : Nat) : Except (Word × WalkResult) (Option Place2 × State) :=
  match elemOffset (sourceDims c) c.next i 0 with
  | none => .ok (none, s)
  | some o => (copyPlace s cl c (shiftBy c.src o) .read).map fun (p, s) => (some p, s)

/-- Resolve elements i on of a tile, all of them before any is written (R278). -/
def copyMoves (cl : Nat) (c : Copy) : Nat → Nat → State → Except (Word × WalkResult × Access) (List Move1 × State)
  | 0, _, s => .ok ([], s)
  | n + 1, i, s =>
    let wacc : Access := if c.op = 0 then .write else .atomic
    match copyPlace s cl c (shiftBy c.dst (destOffset c.dims c.next i 0)) wacc with
    | .error (a, r) => .error (a, r, wacc)
    | .ok (d, s) =>
      match copySource s cl c i with
      | .error (a, r) => .error (a, r, .read)
      | .ok (p, s) => match copyMoves cl c n (i + 1) s with
        | .error e => .error e
        | .ok (r, s) => .ok ({ dst := d, src := p } :: r, s)

/-! ## Performing a tile (R278, R280) -/

/-- The value of an element, and whether it was read from a poisoned granule (R203, R278). -/
def moveValue (s : State) (c : Copy) (m : Move1) : Nat × Bool :=
  let w := copyWidth c.ty
  match m.src with
  | some (.pot isl a) => (leNat (s.potRead (s.phys isl) a w), (s.potPoison (s.phys isl) a w).isSome)
  | some (.glob _ pa _) => (leNat (s.readMem pa w), (s.poisonAt pa w).isSome)
  | _ => (c.fill.toNat % 2 ^ (8 * w), false)

/-- Engine identifier of a cluster's copy engine (R147, R278). -/
def copyEngine (cl : Nat) : Nat := 0x80 + cl

/-- A pot address in pot form. -/
def potWord (isl addr : Nat) : Nat := 2 ^ 63 + isl % 128 * 2 ^ 23 + addr

/-- The tile of a pot address. -/
def potTileOf (s : State) (isl addr : Nat) : TileLoc := { core := s.phys isl, tile := potTile (addr / 2 ^ 17) }

/-- A refused element is counted in the pot's misroute counter (R211, R280). -/
def refuseElement (s : State) (isl addr : Nat) : State :=
  modPot s (potTileOf s isl addr) fun p => { p with misroute := p.misroute + 1 }

/-- An engine has consumed poisoned data (R142). -/
def noteConsumed (s : State) (ctx : Nat) : State := s.modCtx ctx fun k => { k with unfolded := k.unfolded ||| 1 }

/-- A granule's poison after a copy's write into it: the first write of a granule that its tile covers whole clears it, and a
value from poisoned data sets it (R203, R280, R302). -/
def settlePoison (p : NatSet) (g : Nat) (clears bad : Bool) : NatSet :=
  let p := if clears then nsDel p g else p
  if bad then nsAdd p g else p

/-- Perform a copy's write of one element into a pot: refused and counted where the pot is no scratchpad (R118, R203, R211,
R278, R280). A reducing copy consumes what it combines with (R142). -/
def putPot (cl : Nat) (s : State) (w : HeldWrite) : State :=
  if !isScratch (s.tile (potTileOf s w.lcore w.addr)) then refuseElement s w.lcore w.addr else
  let core := s.phys w.lcore
  let n := copyWidth w.ty
  let taint := w.op ≠ 0 && (s.potPoison core w.addr n).isSome
  let old := leNat (s.potRead core w.addr n)
  let s := if taint then noteConsumed s w.ctx else s
  let s := potStore s core w.addr (leBytes n (combineElem w.op (tyOf w.ty) old w.value))
  let s := s.modCore core fun k => { k with poisoned := settlePoison k.poisoned (w.addr / 16) w.clears (w.bad || taint) }
  watchEngine s w.ctx cl (potWord w.lcore w.addr) n (copyEngine cl)

/-- Perform a copy's write of one element into memory (R118, R278, R302). -/
def putGlobal (cl : Nat) (c : Copy) (s : State) (va pa value : Nat) (clears bad : Bool) : State :=
  let n := copyWidth c.ty
  let taint := c.op ≠ 0 && (s.poisonAt pa n).isSome
  let old := leNat (s.readMem pa n)
  let s := if taint then noteConsumed s c.ctx else s
  let s := s.writeMem pa (leBytes n (combineElem c.op (tyOf c.ty) old value))
  watchEngine { s with poison := settlePoison s.poison (pa / 16) clears (bad || taint) } c.ctx cl va n (copyEngine cl)

/-- The granules of a destination: of a core's pots, or of memory. -/
def Place2.granule : Place2 → Option (Nat × Nat)
  | .pot isl a => some (isl + 1, a / 16)
  | .glob _ pa _ => some (0, pa / 16)
  | .peer _ => none

/-- The addresses that a tile writes in a core's pots, or in memory (key 0). -/
def movesTo (key : Nat) (ms : List Move1) : List Nat := ms.filterMap fun m => match m.dst with
  | .pot i a => if i + 1 = key then some a else none
  | .glob _ pa _ => if key = 0 then some pa else none
  | .peer _ => none

/-- For each element of a tile: it is the first of a granule that the tile covers whole (R203, R280). -/
def firstWrites (w : Nat) (all : List Move1) : List Move1 → List (Nat × Nat) → List (Move1 × Bool)
  | [], _ => []
  | m :: r, seen => match m.dst.granule with
    | some (key, g) =>
      (m, !seen.contains (key, g) && (coveredBy w (movesTo key all)).contains g) :: firstWrites w all r ((key, g) :: seen)
    | none => (m, false) :: firstWrites w all r seen

/-- Presence granules that a move covers whole become full (R311). -/
def fillMoved (s : State) (c : Copy) (ms : List Move1) : State :=
  if c.op ≠ 0 then s else
  (coveredBy (copyWidth c.ty) (ms.filterMap fun m => match m.dst with
    | .glob _ pa true => some pa
    | _ => none)).foldl (fun s g => fillPresent s (16 * g)) s

/-- Change a copy. -/
def modCopy (s : State) (cl n : Nat) (f : Copy → Copy) : State :=
  match tget (s.cluster cl).copies n with
  | some c => s.modCluster cl fun k => { k with copies := tset k.copies n (f c) }
  | none => s

/-- Bytes that a tile's arrival counts (R278). -/
def tileArrival (c : Copy) : Nat := tileElems (sourceDims c) * copyWidth c.ty

/-- Runs of elements that lie one after another at a peer, up to 64 bytes in one page (R355, R363, log 10). -/
def peerRuns (w : Nat) : List (Word × Nat) → List (Word × List Nat)
  | [] => []
  | (a, v) :: r =>
    match peerRuns w r with
    | (b, vs) :: rest =>
      if b = a + w64 w && w * (vs.length + 1) ≤ 64 && b.toNat % 2 ^ 16 ≠ 0 then (a, v :: vs) :: rest else (a, [v]) :: (b, vs) :: rest
    | [] => [(a, [v])]

/-- Send the next run of a tile to a peer, while the destination has room; the runs sent before are counted (R357, R363). -/
def sendRun (s : State) (cl n : Nat) (c : Copy) (run : Word × List Nat) : State :=
  let chip := bits run.1 59 52
  if !canSend s chip then s else
  let w := copyWidth c.ty
  let (q, s) := sendNumbered s (mkMsg chip (if c.op = 0 then 2 else 3) c.ctx 0 n
    (dataPayload (bits run.1 51 0) c.op (tyOf c.ty) (run.2.flatMap (leBytes w))))
  modCopy s cl n fun c => { c with sent := c.sent + 1, unacked := c.unacked ++ [(chip, q)] }

/-- A translation fault suspends the copy at the start of its tile: a queue entry and an imprecise report (R278, R313). The
report names the copy engine in TCAUSE[23:16], where R53 speaks of watch reports only, and queues, as remote faults do, without
merging, where R140 lists no entry for it (DEDUCED, log 66). -/
def suspendCopy (s : State) (cl n : Nat) (c : Copy) (a : Word) (r : WalkResult) (acc : Access) : State :=
  if fqFull s then s else
  let (reason, level) := match r with
    | .fail _ reason level => (reason, level)
    | .ok _ => (0, 0)
  let (i, s) := fqWrite s { va := a.toNat, ctx := c.ctx, reason := reason, level := level, acc := acc, agent := .copy, id := n }
  sendReport (modCopy s cl n fun c => { c with suspended := some i }) c.tid
    { cause := walkCause r, warning := false, precise := false, engine := BitVec.ofNat 8 (copyEngine cl), tvalue := a, slot := 7 }

/-- A copy's writes that are held at old cores (R285 step 6). -/
def heldFor (s : State) (cl n : Nat) : Bool := s.cores.any fun (_, k) => k.held.any fun w => w.copy = 4096 * cl + n

/-- The cores whose pots a tile writes or arrives at, each once. -/
def tileCores (cl : Nat) (c : Copy) (ms : List Move1) : List Nat :=
  ((ms.filterMap fun m => match m.dst with
    | .pot i _ => some i
    | _ => none) ++ (if c.barrier = 0 then [] else [potCore cl c.barrier])).dedup

/-- One element of a tile: performed, or held at the core that it was resolved to. -/
def putMove (cl n : Nat) (c : Copy) (holds : List Nat) (s : State) (m : Move1 × Bool) : State :=
  let (v, bad) := moveValue s c m.1
  let s := if bad then noteConsumed s c.ctx else s
  match m.1.dst with
  | .pot isl a =>
    let w : HeldWrite := { copy := 4096 * cl + n, ctx := c.ctx, op := c.op, ty := c.ty, lcore := isl, addr := a, value := v,
                           clears := m.2, bad := bad, arrival := none }
    if holds.contains isl then s.modCore (s.phys isl) fun k => { k with held := k.held ++ [w] } else putPot cl s w
  | .glob va pa _ => putGlobal cl c s va pa v m.2 bad
  | .peer _ => s

/-- A tile's arrival: at once where its writes have all been performed, or held behind them (R132, R278, R290). -/
def putArrival (s : State) (cl n : Nat) (c : Copy) (holds : List Nat) : State :=
  if c.barrier = 0 then s else
  let isl := potCore cl c.barrier
  if holds.contains isl || heldFor s cl n then
    s.modCore (s.phys isl) fun k => { k with held := k.held ++
      [{ copy := 4096 * cl + n, ctx := c.ctx, op := c.op, ty := c.ty, lcore := isl, addr := bits c.barrier 22 0, value := 0,
         clears := false, bad := false, arrival := some (tileArrival c) }] }
  else barrierArrive s (s.phys isl) (bits c.barrier 22 0) (tileArrival c)

/-- Perform a resolved tile: its writes, its arrival, the next tile. An open choice says which of the cores it goes to hold
what was resolved to them, as an exchange under way makes them do (R278, R290). -/
def performTile (s : State) (cl n : Nat) (c : Copy) (ms : List Move1) : State :=
  let cores := tileCores cl c ms
  let (x, s) := if cores = [] then (0, s) else s.choose
  let holds := (cores.zipIdx.filter fun (_, i) => x.testBit i).map Prod.fst
  let s := (firstWrites (copyWidth c.ty) ms ms []).foldl (putMove cl n c holds) s
  modCopy (putArrival (fillMoved s c ms) cl n c holds) cl n fun c => { c with next := c.next + 1, sent := 0 }

/-- The elements that go to a peer, with their values. -/
def peerElems (s : State) (c : Copy) (ms : List Move1) : List (Word × Nat) := ms.filterMap fun m => match m.dst with
  | .peer a => some (a, (moveValue s c m).1)
  | _ => none

/-- COPY_TILE: the engine's next step of a copy: a tile, a message of it to a peer, its arrival, or the copy's end (R278). -/
def execCopyTile (cl n : Nat) (s : State) : Result :=
  match tget (s.cluster cl).copies n with
  | none => .next s
  | some c =>
    if c.done ∨ c.suspended.isSome ∨ heldFor s cl n then .next s
    else if copyTiles c ≤ c.next then
      .next (if c.unacked = [] then wakeCopies (modCopy s cl n fun c => { c with done := true }) else s)
    else match copyMoves cl c (tileElems (sourceDims c)) 0 s with
      | .error (a, r, acc) => .next (suspendCopy s cl n c a r acc)
      | .ok (ms, s) =>
        let runs := peerRuns (copyWidth c.ty) (peerElems s c ms)
        if runs = [] then .next (performTile s cl n c ms)
        else match runs[c.sent]? with
          | some run =>
            let s := if (ms.any fun m => (moveValue s c m).2) then noteConsumed s c.ctx else s
            .next (sendRun s cl n c run)
          | none => .next (if c.unacked = [] then performTile s cl n c ms else s)

/-- A copy has writes, not arrivals, that are held at old cores. -/
def writesHeld (s : State) (copy : Nat) : Bool := s.cores.any fun (_, k) => k.held.any fun w => w.copy = copy && w.arrival.isNone

/-- What is held can be performed: a write, or an arrival whose tile has no write held any more. -/
def heldReady (s : State) (h : HeldWrite) : Bool := h.arrival.isNone || !writesHeld s h.copy

/-- COPY_FORWARD: the oldest write or arrival held at a core that can be performed is performed in the backing of the moment;
an arrival after every write of its tile, wherever they were held (R285 step 6, R290). -/
def execCopyForward (core : Nat) (s : State) : Result :=
  match (s.core core).held.find? (heldReady s) with
  | none => .next s
  | some h =>
    let out := s.modCore core fun k => { k with held := k.held.erase h }
    match h.arrival with
    | some b => .next (barrierArrive out (s.phys h.lcore) h.addr b)
    | none => .next (putPot (h.copy / 4096) out h)

end Sys2Proof.Machine
end

