-- ==== Sys2Proof/Machine/Groups.lean ====
section
/-! DEFINITION. Group instructions (R122). -/

namespace Sys2Proof.Machine

open Sys2Proof

/-- The group number of an operand, whose other bits must be zero; JOIN's rank field is its own (R122). -/
def groupOf (ga : Word) : Except Stop Nat :=
  if bits ga 63 28 ≠ 0 ∨ bits ga 15 12 ≠ 0 then trapWith .handle ga else .ok (bits ga 11 0)

/-- A group of which the thread must be a member (R122). -/
def memberOf (s : State) (ga : Word) : Except Stop Nat :=
  match groupOf ga with
  | .error e => .error e
  | .ok n => if (s.group n).has s.cur then .ok n else trapWith .handle ga

/-- A rank is held in a group. -/
def rankTaken (g : Group) (r : Nat) : Bool := g.members.any fun (_, x) => x = r

/-- The thread becomes a member with a rank. -/
def joinGroup (s : State) (n rank : Nat) : State :=
  let g := s.group n
  s.setGroup n { g with members := g.members ++ [(s.cur, rank)] }

/-- JOIN: a requested rank, or the lowest free one, which is a logged decision (R122, R134, R136). While all 4,096 groups exist,
no thread joins one that it does not belong to. -/
def execJoin (d a : GReg) (s : State) : Result :=
  perform s fun s t =>
    let ga := readG t a
    match groupOf ga with
    | .error e => .error e
    | .ok n =>
      let g := s.group n
      let want := bits ga 27 16
      let done := fun (s : State) (r : Nat) => Effect.onRegs (joinGroup s n r) t fun x => writeG x d (w64 r)
      match g.rank s.cur with
      | some r => .ok (.onRegs s t fun x => writeG x d (w64 r))
      | none =>
        if 8 ≤ (groupsOf s s.cur).length ∨ 4095 ≤ g.members.length ∨ 4096 ≤ s.groups.length then trapWith .handle ga
        else if want ≠ 0xFFF then (if rankTaken g want then trapWith .handle ga else .ok (done s want))
        else match logNext s t.decider with
          | .error e => .error e
          | .ok (some (i, e), s) =>
            if e.kind ≠ 3 ∨ e.tid ≠ s.cur then .error (.wait .decisionLog s)
            else if rankTaken g e.val ∨ 4095 ≤ e.val then trapWith .diverge (w64 i)
            else
              let s := logConsume s t.decider
              (replayGrants t.decider (grantBound s) s).map fun s => done s e.val
          | .ok (none, s) =>
            let r := (firstFrom (fun r => !rankTaken g r) 0 4095).getD 0
            match logRecord s t.decider { kind := 3, slot := 0, num := n, cl := t.lcore / 128, tid := s.cur, val := r } with
            | .error e => .error e
            | .ok s => .ok (done s r)

/-- LEAVE: a release (R122). -/
def execLeave (a : GReg) (s : State) : Result :=
  perform s fun s t =>
    match memberOf s (readG t a), drained s t with
    | .error e, _ => .error e
    | _, .error e => .error e
    | .ok n, .ok () => .ok (.onRegs (leaveGroup s s.cur n) t id)

/-- A member arrives at its group; the first to arrive begins a generation that counts the members present (R122). -/
def arriveGroup (g : Group) (tid : Nat) : Group :=
  { g with
    counted := if g.counted = [] then g.members.map Prod.fst else g.counted
    arrived := if g.arrived.contains tid then g.arrived else g.arrived ++ [tid] }

/-- GBAR: waits until every member that the generation counts has arrived; a release and an acquire (R122, R284). -/
def execGbar (a : GReg) (s : State) : Result :=
  perform s fun s t =>
    match memberOf s (readG t a), drained s t with
    | .error e, _ => .error e
    | _, .error e => .error e
    | .ok n, .ok () =>
      let out := fun (s : State) =>
        let g := s.group n
        let s := s.setGroup n { g with passed := g.passed.filter (· ≠ s.cur) }
        Effect.onRegs (acquireFor s t) t id
      if (s.group n).passed.contains s.cur then .ok (out s)
      else
        let g := arriveGroup (s.group n) s.cur
        let s := s.setGroup n g
        if g.full then .ok (out (advanceGroup s n)) else .error (.wait (.group n) s)

/-- GSIZE (R122). -/
def execGsize (d a : GReg) (s : State) : Result :=
  perform s fun s t =>
    (groupOf (readG t a)).map fun n => .onRegs s t fun x => writeG x d (w64 (s.group n).members.length)

/-- GRANK: all ones if the thread is not a member (R122). -/
def execGrank (d a : GReg) (s : State) : Result :=
  perform s fun s t =>
    (groupOf (readG t a)).map fun n =>
      .onRegs s t fun x => writeG x d (match (s.group n).rank s.cur with
        | some r => w64 r
        | none => BitVec.allOnes 64)

end Sys2Proof.Machine
end

