-- ==== Sys2Proof/Machine/Power.lean ====
section
/-! DEFINITION. Power: the responses to a falling input (R330), the thermal trip (R331), the cap token and its fallback (R332),
armed replicas (R297), reset and power-up (R295 to R301, R326 to R328). -/

namespace Sys2Proof.Machine

open Sys2Proof

/-! ## The input (R330) -/

/-- The handles of a cluster whose launch has started and not ended. -/
def liveLaunches (s : State) (cl : Nat) : List Nat :=
  (s.cluster cl).handles.filterMap fun (h, _) => if launchRuns s cl h then some h else none

/-- Do something for every launch of both clusters that runs. -/
def forLaunches (s : State) (f : State → Nat → Nat → State) : State :=
  [0, 1].foldl (fun s cl => (liveLaunches s cl).foldl (fun s h => f s cl h) s) s

/-- INPUT_BELOW_38V: the firmware marks every running launch (R330). -/
def execInputBelow38V (input : BitVec 16) (s : State) : Result :=
  if 3800 ≤ input.toNat ∨ s.power = .off then .next s else
  let s := setInput s (inputWord input true (bit s.mgmt.input 18))
  .next (forLaunches s markLaunch)

/-- A launch's sources inject a marker and stop after it (R330). -/
def quiesceLaunch (s : State) (cl h : Nat) : State :=
  match (markLaunch s cl h).launch? cl h with
  | some v => (markLaunch s cl h).setLaunch cl h { v with quiesced := true }
  | none => s

/-- QUIESCE: the input falls below 34 V (R330). -/
def execQuiesce (input : BitVec 16) (s : State) : Result :=
  if 3400 ≤ input.toNat ∨ s.power ≠ .running then .next s else
  let s := setInput s (inputWord input (bit s.mgmt.input 17) true)
  .next (forLaunches { s with power := .quiescing } quiesceLaunch)

/-- The sinks of every launch that is quiesced hold its last marker (R330). -/
def allHold (s : State) : Bool :=
  [0, 1].all fun cl => (liveLaunches s cl).all fun h =>
    match s.handle? cl h, s.launch? cl h with
    | some x, some v => !v.quiesced || sinksHold s h x v.marks
    | _, _ => true

/-- SEQUENCER_STOP: issue stops once every sink holds the marker or 15 ms have passed; the store buffers drain (R330). -/
def execSequencerStop (timeUp : Bool) (s : State) : Result :=
  if s.power ≠ .quiescing ∨ !(timeUp || allHold s) then .next s else
  .next (s.cores.foldl (fun s (c, _) => drainCore s c) { s with power := .holding })

/-- A quiesced launch goes on from its marker: its sources run again (R276, R330). -/
def unquiesce (s : State) (cl h : Nat) : State :=
  match s.launch? cl h with
  | some v =>
    let v' := { v with quiesced := false }
    let s := s.setLaunch cl h v'
    if v.quiesced && v.state = .running && !stopsAfter v' then startSources s cl h else s
  | none => s

/-- INPUT_RESTORED: the input has been back at 40 V for 10 ms while issue is held (R330). -/
def execInputRestored (input : BitVec 16) (s : State) : Result :=
  if input.toNat < 4000 ∨ s.power ≠ .holding then .next s else
  let s := setInput s (inputWord input false false)
  .next (forLaunches { s with power := .running } unquiesce)

/-! ## Off (R326, R330, R331) -/

/-- A package without power: module flash is all that it keeps (R326). What stands outside it stays: the schedule, the open
choices, the completions and messages that the host has received. -/
def powerOff (s : State) : State :=
  { State.reset with
    schedule := s.schedule, focus := s.focus, rota := s.rota, oracle := s.oracle, choices := s.choices, flash := s.flash,
    mgmt := { Mgmt.reset with hostReads := s.mgmt.hostReads },
    msix := tmap s.msix fun _ m => { Msix.reset with sent := m.sent } }

/-- HOLD_UP_EXHAUSTED: power off (R330). -/
def execHoldUpExhausted (s : State) : Result :=
  .next (if s.power = .quiescing ∨ s.power = .holding then powerOff s else s)

/-- The ready flag clears and everything but module flash is lost; the host link stands, so every function's vector 0 fires for
the change, and its table and pending bits stay (R301, R322, R331). -/
def dropReady (s : State) : State :=
  let f := if s.mgmt.ready ≠ (powerOff s).mgmt.ready then fireEvery s else s
  { powerOff s with msix := f.msix }

/-- THERMAL_TRIP: a sensor reads 105 °C or above, in units of 0.25 °C; everything is lost, the trip is recorded, and the module
stays off until a new power-up (R331). -/
def execThermalTrip (core : Nat) (temp : Int) (s : State) : Result :=
  if 264 ≤ core ∨ temp < 420 ∨ s.power = .off then .next s else
  .next { dropReady s with flash := { s.flash with trip := true } }

/-- RESET: the ready flag is cleared, and nothing but module flash is kept; the next power-up runs every phase (R301). -/
def execReset (s : State) : Result := .next (dropReady s)

/-! ## The cap (R332) -/

/-- A budget between the floor and the maximum of the board table (R332). -/
def clampBudget (f : Flash) (b : BitVec 16) : BitVec 16 :=
  if b.toNat < f.floor.toNat then f.floor else if f.maximum.toNat < b.toNat then f.maximum else b

/-- A cap token is accepted: its zero bits are zero, and it is the first or a newer one (R332). -/
def capAccepted (m : Mgmt) (v : Word) : Bool :=
  bits v 63 48 = 0 && (!m.capSeen || (let d := (BitVec.ofNat 32 (bits v 31 0) - m.capSeq).toNat; 1 ≤ d && d < 2 ^ 31))

/-- CAP: the token takes force or is ignored; either way the fallback's 5 s start again (R332). -/
def execCap (v : Word) (s : State) : Result :=
  let m := s.mgmt
  let m := if capAccepted m v then
      { m with capBudget := clampBudget s.flash (BitVec.ofNat 16 (bits v 47 32)), capSeq := BitVec.ofNat 32 (bits v 31 0),
               capSeen := true }
    else m
  .next (shareBudget { s with mgmt := { m with capFloor := !m.capSeen } })

/-- HBEAT: the fallback's 5 s start again; the accepted budget, if there is one, is in force (R332). -/
def execHbeat (_v : Word) (s : State) : Result :=
  .next (shareBudget { s with mgmt := { s.mgmt with capFloor := !s.mgmt.capSeen } })

/-- CAP_FLOOR_TIMEOUT: 5 s without a write to CAP or HBEAT put the floor budget in force; the last sequence is kept (R332). -/
def execCapFloorTimeout (s : State) : Result :=
  .next (shareBudget { s with mgmt := { s.mgmt with capFloor := true } })

/-! ## Replicas (R297) -/

/-- REPLICA_FAILURE: the entry of the core's current band rises by one code, up to 80 (R297). -/
def execReplicaFailure (core : Nat) (s : State) : Result :=
  if 264 ≤ core then .next s else
  .next (s.modCore core fun c =>
    let band := ceilOver c.frac.rat 64
    { c with table := tset c.table band (Nat.min 80 (tgetD c.table band 0 + 1)) })

/-! ## Self-test and retirement (R296 to R298) -/

/-- The tiles that a bad unit retires: a tile itself, or the tiles that a link joins (R296). -/
def unitTiles : BadUnit → List TileLoc
  | .tile core tile => [{ core := core, tile := tile }]
  | .link core tile port =>
    let l : TileLoc := { core := core, tile := tile }
    l :: (neighbour l port).toList
  | _ => []

/-- The retired tiles of a physical core. -/
def retiredTiles (r : SelfTest) (core : Nat) : NatSet :=
  (r.bad.flatMap unitTiles).foldl (fun acc l => if l.core = core && l.tile < 96 then nsAdd acc l.tile else acc) []

/-- The calibrated table of a core: the codes found, made monotonic (R297). -/
def calibTable (r : SelfTest) (core : Nat) : Tbl Nat :=
  let found : Tbl Nat := r.calib.foldl (fun t (c, j, v) => if c = core && 1 ≤ j && j ≤ 64 then tset t j v else t) []
  if found = [] then [] else
  ((List.range 64).foldl (fun (acc : Tbl Nat × Nat) i =>
    let v := Nat.max acc.2 (tgetD found (i + 1) 0)
    (tset acc.1 (i + 1) v, v)) ([], 0)).1

/-- Why a core is retired whole, as the defect map records it; 0 where it is not (R296 to R299). -/
def retireReason (r : SelfTest) (core : Nat) : Nat :=
  let has := fun (b : BadUnit) => r.bad.contains b
  if has (.sequencer core) then 2
  else if has (.decoder core) then 3
  else if has (.edgeNode core) then 4
  else if 2 < (retiredTiles r core).length then 1
  else if 77 < tgetD (calibTable r core) 64 0 then 5
  else 0

/-- The surviving physical cores of a cluster, in rising order (R298). -/
def survivors (r : SelfTest) (cl : Nat) : List Nat := (List.range 132).filter fun p => retireReason r (132 * cl + p) = 0

/-- The filled logical core table (R298). -/
def filledTable (r : SelfTest) (cl : Nat) : Tbl LctEntry :=
  ((survivors r cl).take 128).zipIdx.map fun (p, i) =>
    (i, { LctEntry.none with tag := 1, phys := BitVec.ofNat 8 p })

/-- A physical core after power-up: its island at 1/64 with the code of its band (R247, R248, R296 to R300). -/
def coreAfter (r : SelfTest) (core : Nat) : Core :=
  let t := calibTable r core
  let reason := retireReason r core
  let spare := !((survivors r (core / 132)).take 128).contains (core % 132)
  { Core.reset with
    table := t, code := tgetD t 1 0 + 3, retired := retiredTiles r core, reason := reason,
    status := if reason ≠ 0 then 1 else if spare then 2 else 0 }

/-! ## The defect map (R299) -/

/-- First address of the defect map (R299, R318). -/
def defectMapBase : Nat := gEnd - 0x10000

/-- The record of a physical core (R299). -/
def defectRecord (r : SelfTest) (core : Nat) : List Byte :=
  let k := coreAfter r core
  let at_ := ((survivors r (core / 132)).take 128).idxOf (core % 132)
  leBytes 1 k.status ++ leBytes 1 k.reason ++ leBytes 2 (if k.status = 0 then at_ else 0xFFFF) ++
    leBytes 12 (k.retired.foldl (fun n t => n + 2 ^ t) 0)

/-- The defect map (R299). -/
def defectMap (r : SelfTest) (ordinal : BitVec 32) : List Byte :=
  leBytes 4 1 ++ leBytes 4 ordinal.toNat ++ leBytes 1 (survivors r 0).length ++ leBytes 1 (survivors r 1).length ++
    List.replicate 54 0 ++ (List.range 264).flatMap (defectRecord r)

/-! ## Power-up (R295, R327, R328) -/

/-- READY after a power-up: the flag, the trip of the last one, the failure (R301, R327, R334). -/
def readyWord (failure : BitVec 8) (trip : Bool) : Word :=
  w64 ((if failure = 0 then 1 else 0) + (if trip then 2 else 0) + 256 * failure.toNat)

/-- The first phase that fails, as READY[15:8] has it; 0 where none does: the trivet image (copy A and then copy B), the general
firmware, the board table, the die links, the memory (R295, R327, R334). -/
def powerFailure (f : Flash) (r : SelfTest) : BitVec 8 :=
  if !f.trivetA.signed && !f.trivetB.signed then 1
  else if !f.firmwareA.signed && !f.firmwareB.signed then 2
  else if !f.boardSigned then 5
  else if !r.linksTrain then 3
  else if !r.memoryTrains then 4
  else 0

/-- The copy of an image that runs: A where it verifies, else B (R327). -/
def runningCopy (a b : FlashCopy) : List Byte := if a.signed then a.bytes else b.bytes

/-- What module flash holds after the phases that ran: the ordinal moves on once the images are verified, the state counter
with it unless its write fails; the trip record has been reported (R327, R328). -/
def flashAfter (f : Flash) (failure : BitVec 8) (written : Bool) : Flash :=
  let ran := failure ≠ 1 && failure ≠ 2 && failure ≠ 5
  { f with ordinal := if ran then f.ordinal + 1 else f.ordinal,
           hssCounter := if ran && written then f.hssCounter + 1 else f.hssCounter, trip := false }

/-- A cluster after power-up: its table filled, its budget the maximum of the board table in nanowatts (R262, R298). -/
def clusterAfter (r : SelfTest) (f : Flash) (cl : Nat) : Cluster :=
  { Cluster.reset with lct := filledTable r cl, budget := f.floor.toNat * 10 ^ 9 / 2 }

/-- The package at the ready flag (R295 to R301): everything empty and zero, tables filled, the defect map written. -/
def bootedState (s : State) (r : SelfTest) (f : Flash) (attest : Bool) : State :=
  let o := powerOff s
  { o with
    clusters := [(0, clusterAfter r f 0), (1, clusterAfter r f 1)],
    cores := (List.range 264).map fun c => (c, coreAfter r c),
    mem := mwrites [] defectMapBase (defectMap r f.ordinal),
    flash := f,
    trivet := { Trivet.reset with image := runningCopy f.trivetA f.trivetB, firmware := runningCopy f.firmwareA f.firmwareB,
                                  attest := attest },
    power := .running }

/-- POWER_ON: the phases of R327 up to the ready flag, or to the one that fails; none begins while the input is below 40 V. A
failing write of the state counter is an open choice (R295 to R301, R327, R328). -/
def execPowerOn (r : SelfTest) (s : State) : Result :=
  if s.power ≠ .off ∨ r.input.toNat < 4000 then .next s else
  let (c, s) := s.choose
  let written := c = 0
  let failure := powerFailure s.flash r
  let f := flashAfter s.flash failure written
  let ready := readyWord failure s.flash.trip
  let b := if failure = 0 then bootedState s r f (written && f.hssCounter < 32768) else { powerOff s with flash := f }
  .next (fireEvery { b with mgmt := { b.mgmt with ready := ready, input := inputWord r.input false false } })

end Sys2Proof.Machine
end

