-- ==== Sys2Proof/Machine/Host.lean ====
section
/-! DEFINITION. The host's side: functions and their contexts (R319, R320), ingress and egress windows (R321, R323, R325), the
aperture (R320), MSI-X (R322), plain register writes and what a register reads as (R334). A function is 16 times its link plus
its number; a window is 16 times its function plus its number. -/

namespace Sys2Proof.Machine

open Sys2Proof

/-! ## Functions (R320, R334) -/

/-- The function is physical. -/
def isPhysical (fn : Nat) : Bool := fn % 16 = 0

/-- The VFCTX entry of a virtual function (R320). -/
def vfIndex (fn : Nat) : Nat := 15 * (fn / 16) + fn % 16 - 1

/-- A VFCTX entry; it resets to 16 times the link plus the function, disabled (R334). -/
def vfEntry (s : State) (i : Nat) : BitVec 7 :=
  tgetD s.mgmt.vfCtx i (BitVec.ofNat 7 (16 * (i / 15) + i % 15 + 1))

/-- The context that a virtual function serves, where its entry is enabled (R320). -/
def vfContext (s : State) (fn : Nat) : Option Nat :=
  let e := (vfEntry s (vfIndex fn)).toNat
  if e / 64 = 1 then some (e % 64) else none

/-- Regions 2 and 4 of a function answer: the package is ready, and a virtual function is enabled (R301, R320). -/
def regionsOpen (s : State) (fn : Nat) : Bool :=
  fn < 32 && bit s.mgmt.ready 0 && (isPhysical fn || (vfContext s fn).isSome)

/-- A completion for the host: bytes, or a completer abort. -/
def answerHost (s : State) (b : Option (List Byte)) : State :=
  { s with mgmt := { s.mgmt with hostReads := s.mgmt.hostReads ++ [b] } }

/-! ## MSI-X (R322) -/

/-- Mask or unmask a vector of a function; unmasking delivers its pending message (R322). -/
def maskVector (s : State) (fn vec : Nat) (mask : Bool) : State :=
  let m := s.msixOf fn
  let m' := if mask then { m with masked := nsAdd m.masked vec }
    else { m with masked := nsDel m.masked vec, pending := nsDel m.pending vec,
                  sent := if nsMem m.pending vec then m.sent ++ [m.message vec] else m.sent }
  { s with msix := tset s.msix fn m' }

/-- MSIX_UNMASK (R322). -/
def execMsixUnmask (fn vec : Nat) (s : State) : Result :=
  .next (if fn < 32 ∧ vec < 34 then maskVector s fn vec false else s)

/-! ## Windows (R321, R323, R325) -/

/-- A window of a direction. -/
def State.window (s : State) (egress : Bool) (win : Nat) : Window :=
  tgetD (if egress then s.egress else s.ingress) win Window.reset
/-- Write a window. -/
def State.setWindow (s : State) (egress : Bool) (win : Nat) (w : Window) : State :=
  if egress then { s with egress := tset s.egress win w } else { s with ingress := tset s.ingress win w }

/-- Slots of a ring. -/
def ringSize : Nat := 768

/-- Tokens from one index of a ring to another. -/
def ringCount (from_ upto : Nat) : Nat := (upto + ringSize - from_) % ringSize

/-- Set bits of WERR. -/
def Window.flag (w : Window) (i : Nat) : Window := { w with werr := w.werr ||| BitVec.ofNat 3 (2 ^ i) }

/-- The window's writes are taken. -/
def windowOpen (s : State) (win : Nat) : Bool := regionsOpen s (win / 16)

/-- INGRESS_TAIL_WRITE: an index above 767, or one that lowers the published count, is ignored with WERR[0] (R323). -/
def execIngressTailWrite (win : Nat) (v : Word) (s : State) : Result :=
  if !windowOpen s win then .next s else
  let w := s.window false win
  if 767 < v.toNat ∨ ringCount w.head v.toNat < ringCount w.head w.tail then .next (s.setWindow false win (w.flag 0))
  else .next (s.setWindow false win { w with tail := v.toNat })

/-- EGRESS_HEAD_WRITE: an index above 767, or one that the ring has not reached, is ignored with WERR[0] (R321). -/
def execEgressHeadWrite (win : Nat) (v : Word) (s : State) : Result :=
  if !windowOpen s win then .next s else
  let w := s.window true win
  if 767 < v.toNat ∨ ringCount w.head w.tail < ringCount w.head v.toNat then .next (s.setWindow true win (w.flag 0))
  else .next (s.setWindow true win { w with head := v.toNat })

/-- The handle that a window names: live, and of the context of a virtual function (R222, R323). -/
def windowGraph (s : State) (win : Nat) (w : Window) : Option (Nat × Nat × Handle) :=
  let cl := bits w.atth 28 28
  match namedGraph s cl w.atth with
  | none => none
  | some (h, x) =>
    if isPhysical (win / 16) || vfContext s (win / 16) = some x.ctx then some (cl, h, x) else none

/-- The pot that a window is attached to (R321, R323). -/
def windowPot (s : State) (egress : Bool) (win : Nat) (w : Window) : Option (Nat × Nat × TileLoc) :=
  match windowGraph s win w with
  | none => none
  | some (cl, h, x) =>
    ((if egress then egressPots s h x else sourcePots s h x)[bits w.atts 15 0]?).map fun l => (cl, h, l)

/-- An attachment that is refused: ATTS[16] clears and WERR[2] is set (R323). -/
def refuseAttachment (s : State) (egress : Bool) (win : Nat) (w : Window) : State :=
  s.setWindow egress win (({ w with atts := w64 (bits w.atts 15 0) } : Window).flag 2)

/-- ATTACHMENT_WRITE: a write of ATTS (R321, R323). -/
def execAttachmentWrite (egress : Bool) (win : Nat) (v : Word) (s : State) : Result :=
  if !windowOpen s win then .next s else
  let w := { s.window egress win with atts := w64 (bits v 16 0) }
  if bit v 16 && (windowPot s egress win w).isNone then .next (refuseAttachment s egress win w)
  else .next (s.setWindow egress win w)

/-- The token of an ingress slot; none where its kind is refused (R160, R323). -/
def slotTok (x : BitVec 32 × Vec512) : Option Tok :=
  let side := x.1.toNat
  let kind : Option TokKind := match side / 2 ^ 29 with
    | 0 => some .data
    | 1 => some .streamEnd
    | 5 => some .bound
    | _ => none
  kind.map fun k =>
    { kind := k, tag := side / 2 ^ 28 % 2 = 1, level := BitVec.ofNat 4 (side / 2 ^ 24), seq := 0, payload := x.2 }

/-- The window's head has moved on; the vector fires when it reaches the tail (R321, R322). -/
def advanceHead (s : State) (win : Nat) (w : Window) : State :=
  let w := { w with head := (w.head + 1) % ringSize }
  let s := s.setWindow false win w
  if w.head = w.tail then fire s (2 + win % 16) (win / 16) else s

/-- INGRESS_PUSH: the oldest published slot goes into the attached source of a running launch, or is skipped with WERR[1]
(R323). -/
def execIngressPush (win : Nat) (s : State) : Result :=
  let w := s.window false win
  if !bit w.atts 16 ∨ w.head = w.tail then .next s else
  match windowPot s false win w with
  | none => .next (refuseAttachment s false win w)
  | some (cl, h, l) =>
    if !launchRuns s cl h then .next s else
    match slotTok (tgetD w.slots w.head (0, 0)) with
    | none => .next (advanceHead s win (w.flag 1))
    | some k => if sourceOpen s h l then .next (advanceHead (pushSource s l k) win w) else .next s

/-- A token is published in slot TAIL, and TAIL moves on (R321, R325). -/
def publishSlot (s : State) (win : Nat) (w : Window) (k : Tok) : State :=
  fire (s.setWindow true win
    { w with slots := tset w.slots w.tail (BitVec.ofNat 32 (sideBand k), k.payload), tail := (w.tail + 1) % ringSize })
    (18 + win % 16) (win / 16)

/-- EGRESS_SLOT_WRITE: the attached egress pot's next token goes into the ring while it has space (R325). -/
def execEgressSlotWrite (win : Nat) (s : State) : Result :=
  let w := s.window true win
  if !bit w.atts 16 then .next s else
  match windowPot s true win w with
  | none => .next (refuseAttachment s true win w)
  | some (_, h, l) =>
    let runs := match (s.tile l).active with
      | some c => c.handle = h
      | none => false
    if !runs ∨ ringCount w.head w.tail = 767 then .next s else
    match egressTake s l with
    | none => .next s
    | some (none, s) => .next s
    | some (some k, s) => .next (publishSlot s win w k)

/-! ## The aperture (R320) -/

/-- Size of region 4. -/
def apertureSize : Nat := 2 ^ 36

/-- The physical addresses of an aperture access, all of them or none (R320). -/
def apertureMap (s : State) (fn off len : Nat) (acc : Access) : Option (List Nat × State) :=
  if isPhysical fn then
    let as := (List.range len).map fun i => s.mgmt.apBase.toNat + off + i
    if as.all populated then some (as, s) else none
  else match vfContext s fn with
    | none => none
    | some ctx =>
      (List.range len).foldl (fun acc' i => match acc' with
        | none => none
        | some (as, s) => match translate s ctx (off + i) acc true with
          | (.ok pa, _, s) => some (as ++ [pa], s)
          | _ => none) (some ([], s))

/-- A host read of region 4: the bytes, or a completer abort (R301, R320). -/
def apertureRead (s : State) (fn off len : Nat) : State :=
  if !regionsOpen s fn ∨ apertureSize < off + len then answerHost s none else
  match apertureMap s fn off len .read with
  | none => answerHost s none
  | some (as, s) => answerHost s (some (as.map (mread s.mem)))

/-- APERTURE_WRITE: performed whole, or discarded and counted in APFAULT (R301, R320). -/
def execApertureWrite (fn off : Nat) (b : List Byte) (s : State) : Result :=
  if !regionsOpen s fn then .next s else
  match (if apertureSize < off + b.length then none else apertureMap s fn off b.length .write) with
  | none =>
    .next { s with mgmt := { s.mgmt with
      apFault := if s.mgmt.apFault = BitVec.allOnes 32 then s.mgmt.apFault else s.mgmt.apFault + 1 } }
  | some (as, s) => .next (writePhys s (as.zip b))

/-! ## Plain register writes (R321, R334) -/

/-- Set bytes of a word: byte i takes a value. -/
def setByte (x : Word) (i : Nat) (b : Byte) : Word :=
  w64 (x.toNat - bits x (8 * i + 7) (8 * i) * 2 ^ (8 * i) + b.toNat * 2 ^ (8 * i))

/-- One byte written into a window: a slot's payload or side-band, ATTH, or WERR (R321). -/
def windowByte (w : Window) (o : Nat) (b : Byte) : Window :=
  if o < 0xC000 then
    let x := tgetD w.slots (o / 64) (0, 0)
    let i := 8 * (o % 64)
    let p := x.2.toNat
    let p := BitVec.ofNat 512 (p - p / 2 ^ i % 256 * 2 ^ i + b.toNat * 2 ^ i)
    { w with slots := tset w.slots (o / 64) (x.1, p) }
  else if o < 0xCC00 then
    let n := (o - 0xC000) / 4
    let x := tgetD w.slots n (0, 0)
    { w with slots := tset w.slots n ((setByte (x.1.setWidth 64) (o % 4) b).setWidth 32, x.2) }
  else if 0xF010 ≤ o ∧ o < 0xF018 then { w with atth := setByte w.atth (o - 0xF010) b }
  else if o = 0xF020 then { w with werr := w.werr &&& ~~~(b.setWidth 3) }
  else w

/-- Bytes written from an offset of region 2 on (R320, R321). -/
def windowBytes (s : State) (fn : Nat) : Nat → List Byte → State
  | _, [] => s
  | off, b :: bs =>
    let egress := Decidable.decide (0x100000 ≤ off)
    let win := 16 * fn + off / 0x10000 % 16
    let s := if off < 0x200000 then s.setWindow egress win (windowByte (s.window egress win) (off % 0x10000) b) else s
    windowBytes s fn (off + 1) bs

/-- Change the selected context. -/
def modSelected (s : State) (f : Ctx → Ctx) : State := s.modCtx s.mgmt.ctxSel.toNat f

/-- A write of LOGMODE by system software (R54, R136). -/
def writeLogMode (s : State) (v : Word) : State :=
  logModeWritten (modSelected s fun c => { c with logMode := logModeWrite v })
    { ctx := s.mgmt.ctxSel.toNat, user := false, quiet := false }

/-- A plain write of a management register by a physical function (R334). -/
def mgmtWrite (s : State) (off : Nat) (v : Word) : State :=
  let m := s.mgmt
  match off with
  | 0x38 => { s with mgmt := { m with ctxSel := v.setWidth 6 } }
  | 0x40 => modSelected s fun c => { c with root := clearLow v 8 }
  | 0x48 => modSelected s fun c => { c with save := clearLow v 6 }
  | 0x60 => modSelected s fun c => { c with invBase := clearLow v 16 }
  | 0x68 => modSelected s fun c => { c with invLen := clearLow v 16 }
  | 0x78 => { s with mgmt := { m with lctSel := v.setWidth 8 } }
  | 0xA0 => { s with mgmt := { m with fqBase := clearLow v 5 } }
  | 0xA8 => { s with mgmt := { m with fqSize := v.setWidth 16 } }
  | 0xB8 => { s with mgmt := { m with fqHead := v.setWidth 16 } }
  | 0xC8 => { s with mgmt := { m with presBase := clearLow v 16 } }
  | 0xD0 => { s with mgmt := { m with apBase := clearLow v 36 } }
  | 0xD8 => { s with mgmt := { m with apFault := m.apFault &&& ~~~(v.setWidth 32) } }
  | 0xE0 => modSelected s fun c => { c with sliceLen := v.setWidth 32 }
  | 0xE8 => modSelected s fun c => { c with logBase := clearLow v 6 }
  | 0xF0 => modSelected s fun c => { c with logHead := v }
  | 0xF8 => writeLogMode s v
  | 0x200 => { s with mgmt := { m with svcReq := m.svcReq ++ [v] } }
  | 0x220 => { s with mgmt := { m with newPc := v } }
  | _ =>
    if 0x100 ≤ off ∧ off < 0x1F0 ∧ off % 8 = 0 then
      { s with mgmt := { m with vfCtx := tset m.vfCtx ((off - 0x100) / 8) (v.setWidth 7) } }
    else s

/-- A write in the MSI-X table of a function: the address of a vector, or its data and mask bit (R322, log 23). -/
def tableWrite (s : State) (fn off : Nat) (v : Word) : State :=
  let o := off - 0x8000
  let vec := o / 16
  let m := s.msixOf fn
  let e := tgetD m.vectors vec (0, 0)
  let put := fun (e : Word × BitVec 32) => { s with msix := tset s.msix fn { m with vectors := tset m.vectors vec e } }
  if 34 ≤ vec then s
  else if o % 16 = 0 then put (v, e.2)
  else if o % 16 = 8 then maskVector (put (e.1, v.setWidth 32)) fn vec (bit v 32)
  else s

/-- REGISTER_WRITE: a register without a behaviour of its own; what a virtual function may not write is ignored (R320, R321,
R322, R334). -/
def execRegisterWrite (w : RegWrite) (s : State) : Result :=
  match w with
  | .mgmt fn off v =>
    if 32 ≤ fn then .next s
    else if 0x8000 ≤ off then .next (tableWrite s fn off v)
    else .next (if isPhysical fn then mgmtWrite s off v else s)
  | .window fn off b => .next (if regionsOpen s fn then windowBytes s fn off b else s)

/-! ## What a register reads as (R334) -/

/-- The package's power over the last 4,096 samples, in watts (R334). -/
def packagePower (s : State) : Nat :=
  let mean := fun (l : List Nat) => if l = [] then 0 else l.sum / l.length
  (mean (s.cluster 0).samples + mean (s.cluster 1).samples) / 10 ^ 9


/-- A table entry as a word (R281). -/
def lctWord (e : LctEntry) : Word :=
  w64 (e.tag.toNat * 2 ^ 16 + (if e.migrating then 2 ^ 15 else 0) + (if e.allocated then 2 ^ 14 else 0) +
    e.ctx.toNat * 2 ^ 8 + e.phys.toNat)

/-- The logical core that LCTSEL selects (R334). -/
def selectedCore (s : State) : Nat := 128 * (s.mgmt.lctSel.toNat / 128) + s.mgmt.lctSel.toNat % 128

/-- SVCRSP as it reads: the oldest reply with bit 63 set, or zero (R334). -/
def svcWord (s : State) : Word :=
  match s.mgmt.svcRsp with
  | r :: _ => w64 (2 ^ 63 + bits r 62 0)
  | [] => 0

/-- The oldest reply is removed (R334). -/
def dropReply (s : State) : State := { s with mgmt := { s.mgmt with svcRsp := s.mgmt.svcRsp.tail } }

/-- A management register as a physical function reads it; a write-only register and an offset without a register read zero
(R6, R334). -/
def mgmtRead (s : State) (off : Nat) : Word :=
  let m := s.mgmt
  let c := s.ctx m.ctxSel.toNat
  match off with
  | 0x00 => m.ready
  | 0x08 => w64 (1 + s.flash.physId.toNat * 2 ^ 8 + s.trivet.chip.toNat * 2 ^ 24 + (if s.trivet.assigned then 2 ^ 32 else 0))
  | 0x10 => m.input
  | 0x20 => w64 ((budgetInForce s).toNat + (if m.capFloor then 2 ^ 16 else 0) + m.capSeq.toNat * 2 ^ 32)
  | 0x30 => w64 (packagePower s % 2 ^ 16 + s.flash.maximum.toNat * 2 ^ 16 + s.flash.floor.toNat * 2 ^ 32)
  | 0x38 => m.ctxSel.setWidth 64
  | 0x40 => c.root
  | 0x48 => c.save
  | 0x50 => w64 (c.fault.tid.toNat + c.fault.cause.toNat * 2 ^ 16 + c.fault.count.toNat * 2 ^ 32)
  | 0x60 => c.invBase
  | 0x68 => c.invLen
  | 0x70 => if c.invBusy.isSome then 1 else 0
  | 0x78 => m.lctSel.setWidth 64
  | 0x80 => lctWord (s.lct (selectedCore s))
  | 0x98 => w64 ((if m.preBusy then 1 else 0) + (if m.preRefused then 2 else 0))
  | 0xA0 => m.fqBase
  | 0xA8 => m.fqSize.setWidth 64
  | 0xB0 => m.fqTail.setWidth 64
  | 0xB8 => m.fqHead.setWidth 64
  | 0xC8 => m.presBase
  | 0xD0 => m.apBase
  | 0xD8 => m.apFault.setWidth 64
  | 0xE0 => c.sliceLen.setWidth 64
  | 0xE8 => c.logBase
  | 0xF0 => c.logHead
  | 0xF8 => c.logMode
  | 0x208 => svcWord s
  | 0x210 => c.fault.tpc
  | 0x218 => c.fault.tvalue
  | 0x220 => m.newPc
  | 0x230 => w64 ((if m.newRefused then 2 else 0) + m.newTid.toNat * 2 ^ 16)
  | _ => if 0x100 ≤ off ∧ off < 0x1F0 ∧ off % 8 = 0 then (vfEntry s ((off - 0x100) / 8)).setWidth 64 else 0

/-- The MSI-X table of a function as it reads: address, then data and mask bit (R322, log 23). -/
def tableRead (m : Msix) (o : Nat) : Word :=
  let vec := o / 16
  let e := tgetD m.vectors vec (0, 0)
  if 34 ≤ vec then 0
  else if o % 16 = 0 then e.1
  else w64 (e.2.toNat + if nsMem m.masked vec then 2 ^ 32 else 0)

/-- The pending-bit array of a function: one bit for each vector (R322). -/
def pendingBits (m : Msix) : Word := w64 ((List.range 34).foldl (fun n i => n + if nsMem m.pending i then 2 ^ i else 0) 0)

/-- The 8 bytes at an offset of region 0 as a function reads them: every function has its MSI-X table and pending bits; a virtual
function sees READY, IDENT and INPUT of the registers (R320, R322). -/
def regionRead (s : State) (fn off : Nat) : Word :=
  if off = 0x9000 then pendingBits (s.msixOf fn)
  else if 0x8000 ≤ off then (if off < 0x9000 then tableRead (s.msixOf fn) (off - 0x8000) else 0)
  else if isPhysical fn ∨ off = 0x00 ∨ off = 0x08 ∨ off = 0x10 then mgmtRead s off
  else 0

/-! ## What a host read returns (R320, R321) -/

/-- Byte i of a word. -/
def byteOf (x : Word) (i : Nat) : Byte := BitVec.ofNat 8 (x.toNat / 2 ^ (8 * i))

/-- A host read of region 0; one that takes in SVCRSP removes the oldest reply (R334). -/
def registersRead (s : State) (fn off len : Nat) : State :=
  if 32 ≤ fn ∨ 0x10000 < off + len then answerHost s none else
  let b := (List.range len).map fun i => byteOf (regionRead s fn ((off + i) / 8 * 8)) ((off + i) % 8)
  answerHost (if isPhysical fn && Decidable.decide (off ≤ 0x20F) && Decidable.decide (0x208 < off + len) then dropReply s else s)
    (some b)

/-- One byte of a window as it reads: a slot's payload or side-band, a register, zero elsewhere (R321). -/
def windowRead (w : Window) (o : Nat) : Byte :=
  if o < 0xC000 then BitVec.ofNat 8 ((tgetD w.slots (o / 64) (0, 0)).2.toNat / 2 ^ (8 * (o % 64)))
  else if o < 0xCC00 then byteOf ((tgetD w.slots ((o - 0xC000) / 4) (0, 0)).1.setWidth 64) (o % 4)
  else
    let i := o % 8
    match o / 8 * 8 with
    | 0xF000 => byteOf (w64 w.head) i
    | 0xF008 => byteOf (w64 w.tail) i
    | 0xF010 => byteOf w.atth i
    | 0xF018 => byteOf w.atts i
    | 0xF020 => byteOf (w.werr.setWidth 64) i
    | _ => 0

/-- A host read of region 2, or a completer abort (R301, R320, R321). -/
def windowsRead (s : State) (fn off len : Nat) : State :=
  if !regionsOpen s fn ∨ 0x200000 < off + len then answerHost s none else
  answerHost s (some ((List.range len).map fun i =>
    windowRead (s.window (0x100000 ≤ off + i) (16 * fn + (off + i) / 0x10000 % 16)) ((off + i) % 0x10000)))

/-- APERTURE_READ: a read of region 4, or of another region of the function, which answers in the same way (R301, R320). -/
def execApertureRead (region : HostRegion) (off len : Nat) (s : State) : Result :=
  match region.bar with
  | .registers => .next (registersRead s region.fn off len)
  | .windows => .next (windowsRead s region.fn off len)
  | .aperture => .next (apertureRead s region.fn off len)

end Sys2Proof.Machine
end

