-- ==== Sys2Proof/Machine/Immediate.lean ====
section
/-! DEFINITION. Immediate forms (R97, R98). -/

namespace Sys2Proof.Machine

open Sys2Proof

/-- ADDI: wraps modulo 2^64 (R97). -/
def execAddi (d a : GReg) (imm : BitVec 16) (s : State) : Result :=
  regStep s fun t => writeG t d (readG t a + sx imm)

/-- ANDI (R97). -/
def execAndi (d a : GReg) (imm : BitVec 16) (s : State) : Result :=
  regStep s fun t => writeG t d (readG t a &&& zx imm)

/-- ORI (R97). -/
def execOri (d a : GReg) (imm : BitVec 16) (s : State) : Result :=
  regStep s fun t => writeG t d (readG t a ||| zx imm)

/-- XORI (R97). -/
def execXori (d a : GReg) (imm : BitVec 16) (s : State) : Result :=
  regStep s fun t => writeG t d (readG t a ^^^ zx imm)

/-- SLTI: signed (R97). -/
def execSlti (d a : GReg) (imm : BitVec 16) (s : State) : Result :=
  regStep s fun t => writeG t d (flag01 ((readG t a).slt (sx imm)))

/-- LUI (R97). -/
def execLui (d : GReg) (h : BitVec 2) (imm : BitVec 16) (s : State) : Result :=
  regStep s fun t => writeG t d (luiValue imm h)

/-- ADDPC: from the address of this word (R97). -/
def execAddpc (d : GReg) (imm : BitVec 16) (s : State) : Result :=
  regStep s fun t => writeG t d (wordTarget t.pc imm)

/-- SLLI: as SLL of s64 (R97). -/
def execSlli (d a : GReg) (n : BitVec 6) (s : State) : Result :=
  regStep s fun t => writeG t d (w64 (shiftL 64 (readG t a).toNat n.toNat))

/-- SRLI: as SRL of s64 (R97). -/
def execSrli (d a : GReg) (n : BitVec 6) (s : State) : Result :=
  regStep s fun t => writeG t d (w64 (shiftR 64 (readG t a).toNat n.toNat))

/-- SRAI: as SRA of s64 (R97). -/
def execSrai (d a : GReg) (n : BitVec 6) (s : State) : Result :=
  regStep s fun t => writeG t d (w64 (shiftA 64 (readG t a).toNat n.toNat))

/-- ROTLI: as ROTL of s64 (R97). -/
def execRotli (d a : GReg) (n : BitVec 6) (s : State) : Result :=
  regStep s fun t => writeG t d (w64 (rotL 64 (readG t a).toNat n.toNat))

end Sys2Proof.Machine
end

