-- ==== Sys2Proof/Machine/Integer.lean ====
section
/-! DEFINITION. Integer register operations (R91 to R96). -/

namespace Sys2Proof.Machine

open Sys2Proof

/-- ADD (R92). -/
def execAdd (ty : Ty) (d a b : GReg) (s : State) : Result :=
  regStep s fun t => writeG t d (intResultW ty (operand ty (readG t a) + operand ty (readG t b)))

/-- SUB (R92). -/
def execSub (ty : Ty) (d a b : GReg) (s : State) : Result :=
  regStep s fun t => writeG t d (intResultW ty (operand ty (readG t a) - operand ty (readG t b)))

/-- MUL: the low half of the product (R92). -/
def execMul (ty : Ty) (d a b : GReg) (s : State) : Result :=
  regStep s fun t => writeG t d (intResultW ty (operand ty (readG t a) * operand ty (readG t b)))

/-- MULH: the high half of the product (R92). -/
def execMulh (ty : Ty) (d a b : GReg) (s : State) : Result :=
  regStep s fun t => writeG t d (intResultW ty (operand ty (readG t a) * operand ty (readG t b) / 2 ^ ty.width))

/-- DIV: the quotient toward zero, and the two fixed cases (R93). -/
def execDiv (ty : Ty) (d a b : GReg) (s : State) : Result :=
  regStep s fun t => writeG t d (intResultW ty (quotient (operand ty (readG t a)) (operand ty (readG t b))))

/-- REM: the remainder with the dividend's sign, and the two fixed cases (R93). -/
def execRem (ty : Ty) (d a b : GReg) (s : State) : Result :=
  regStep s fun t => writeG t d (intResultW ty (remainder (operand ty (readG t a)) (operand ty (readG t b))))

/-- ADDS: the sum clamped to the type's range (R92). -/
def execAdds (ty : Ty) (d a b : GReg) (s : State) : Result :=
  regStep s fun t => writeG t d (intResultW ty (clampTo ty (operand ty (readG t a) + operand ty (readG t b))))

/-- SUBS: the difference clamped to the type's range (R92). -/
def execSubs (ty : Ty) (d a b : GReg) (s : State) : Result :=
  regStep s fun t => writeG t d (intResultW ty (clampTo ty (operand ty (readG t a) - operand ty (readG t b))))

/-- AND (R92). -/
def execAnd (ty : Ty) (d a b : GReg) (s : State) : Result :=
  regStep s fun t => writeG t d (extendTy ty (pattern ty (readG t a) &&& pattern ty (readG t b)))

/-- OR (R92). -/
def execOr (ty : Ty) (d a b : GReg) (s : State) : Result :=
  regStep s fun t => writeG t d (extendTy ty (pattern ty (readG t a) ||| pattern ty (readG t b)))

/-- XOR (R92). -/
def execXor (ty : Ty) (d a b : GReg) (s : State) : Result :=
  regStep s fun t => writeG t d (extendTy ty (pattern ty (readG t a) ^^^ pattern ty (readG t b)))

/-- ANDN: a and not b (R92). -/
def execAndn (ty : Ty) (d a b : GReg) (s : State) : Result :=
  regStep s fun t => writeG t d (extendTy ty (pattern ty (readG t a) &&& pattern ty (~~~readG t b)))

/-- SLL: the amount is the whole of gb (R94). -/
def execSll (ty : Ty) (d a b : GReg) (s : State) : Result :=
  regStep s fun t => writeG t d (extendTy ty (shiftL ty.width (pattern ty (readG t a)) (readG t b).toNat))

/-- SRL: logical for either signedness (R94). -/
def execSrl (ty : Ty) (d a b : GReg) (s : State) : Result :=
  regStep s fun t => writeG t d (extendTy ty (shiftR ty.width (pattern ty (readG t a)) (readG t b).toNat))

/-- SRA: arithmetic for either signedness (R94). -/
def execSra (ty : Ty) (d a b : GReg) (s : State) : Result :=
  regStep s fun t => writeG t d (extendTy ty (shiftA ty.width (pattern ty (readG t a)) (readG t b).toNat))

/-- ROTL: by gb modulo the width (R94). -/
def execRotl (ty : Ty) (d a b : GReg) (s : State) : Result :=
  regStep s fun t => writeG t d (extendTy ty (rotL ty.width (pattern ty (readG t a)) (readG t b).toNat))

/-- SEQ (R92). -/
def execSeq (ty : Ty) (d a b : GReg) (s : State) : Result :=
  regStep s fun t => writeG t d (flag01 (operand ty (readG t a) = operand ty (readG t b)))

/-- SLT (R92). -/
def execSlt (ty : Ty) (d a b : GReg) (s : State) : Result :=
  regStep s fun t => writeG t d (flag01 (operand ty (readG t a) < operand ty (readG t b)))

/-- SLE (R92). -/
def execSle (ty : Ty) (d a b : GReg) (s : State) : Result :=
  regStep s fun t => writeG t d (flag01 (operand ty (readG t a) ≤ operand ty (readG t b)))

/-- MIN (R92). -/
def execMin (ty : Ty) (d a b : GReg) (s : State) : Result :=
  regStep s fun t => writeG t d (intResultW ty (min (operand ty (readG t a)) (operand ty (readG t b))))

/-- MAX (R92). -/
def execMax (ty : Ty) (d a b : GReg) (s : State) : Result :=
  regStep s fun t => writeG t d (intResultW ty (max (operand ty (readG t a)) (operand ty (readG t b))))

/-- SEL: the whole old gd is the condition (R92). -/
def execSel (ty : Ty) (d a b : GReg) (s : State) : Result :=
  regStep s fun t => writeG t d (extendTy ty (pattern ty (if readG t d ≠ 0 then readG t a else readG t b)))

/-- BFX (R95). -/
def execBfx (ty : Ty) (d a b : GReg) (s : State) : Result :=
  regStep s fun t => writeG t d (extractField ty (readG t a) (readG t b))

/-- BFI: gd is read (R95). -/
def execBfi (_ty : Ty) (d a b : GReg) (s : State) : Result :=
  regStep s fun t => writeG t d (insertField (readG t d) (readG t a) (readG t b))

/-- CLZ: leading zero bits of the pattern; the width when it is zero (R92). -/
def execClz (ty : Ty) (d a : GReg) (s : State) : Result :=
  regStep s fun t => writeG t d (w64 (leadingZeros ty.width (pattern ty (readG t a))))

/-- POPC: one bits of the pattern (R92). -/
def execPopc (ty : Ty) (d a : GReg) (s : State) : Result :=
  regStep s fun t => writeG t d (w64 (onesCount ty.width (pattern ty (readG t a))))

end Sys2Proof.Machine
end

