-- ==== Sys2Proof/Machine/Keys.lean ====
section
/-! DEFINITION. Keys and draws (R52, R130, R131). -/

namespace Sys2Proof.Machine

open Sys2Proof

/-- A key register takes a new value: the old pair has retired, and a pair in use gives the KEYREUSE warning (R131). -/
def newKey (s : State) (t : Thread) (k : KReg) (key : KeyReg) : Effect :=
  let s := retireKey s t.ctx (readK t k)
  let reuse := keyUsed s t k.toNat key && !bit (s.ctx t.ctx).logMode 2
  { Effect.onRegs s t (fun x => writeK x k key) with
    after := if reuse then some (.keyreuse, keyWord0 key, true) else none }

/-- KSET (R130). -/
def execKset (k : KReg) (a b : GReg) (s : State) : Result :=
  perform s fun s t =>
    .ok (newKey s t k { valid := true, tensor := BitVec.ofNat 24 (bits (readG t a) 55 32),
                        step := BitVec.ofNat 32 (bits (readG t a) 31 0), seed := readG t b })

/-- KSTEP: an invalid register gives ILLEGAL (R130, R131). -/
def execKstep (k : KReg) (a : GReg) (s : State) : Result :=
  perform s fun s t =>
    let key := readK t k
    if !key.valid then trapWith .illegal (keyWord0 key)
    else .ok (newKey s t k { key with step := key.step + (readG t a).setWidth 32 })

/-- KGET: word 0 of an invalid register has bit 63 clear; its word 1 gives ILLEGAL (R130, R131). -/
def execKget (d : GReg) (k : KReg) (part : BitVec 1) (s : State) : Result :=
  perform s fun s t =>
    let key := readK t k
    if part = 0 then .ok (.onRegs s t fun x => writeG x d (keyWord0 key))
    else if !key.valid then trapWith .illegal (keyWord0 key)
    else .ok (.onRegs s t fun x => writeG x d key.seed)

/-- RDRAW: draws with d from 1 to 16 (R130). -/
def execRdraw (d : GReg) (k : KReg) (b : GReg) (index : BitVec 4) (s : State) : Result :=
  perform s fun s t =>
    let key := readK t k
    if !key.valid then trapWith .illegal (keyWord0 key)
    else .ok (.onRegs s t fun x =>
      writeG x d ((keyDraw key ((readG x b).setWidth 48) (BitVec.ofNat 8 (index.toNat + 1))).setWidth 64))

end Sys2Proof.Machine
end

