-- ==== Sys2Proof/Machine/LoadStore.lean ====
section
/-! DEFINITION. Loads, stores and full-empty access (R113 to R117). -/

namespace Sys2Proof.Machine

open Sys2Proof

/-- The bytes of a store from a g register (R116). -/
def storeData (t : Thread) (d : GReg) (width : Nat) : List Byte := leBytes width (readG t d).toNat

/-- The state of a store with the access that watchpoints see. -/
def storeEffect (s : State) (t : Thread) (ea : Word) (n : Nat) : Effect :=
  { Effect.onRegs s t id with watch := some (ea, n, .store) }

/-- LD (R116). -/
def execLd (q : LdQual) (size : BitVec 3) (d base : GReg) (off : BitVec 11) (s : State) : Result :=
  perform s fun s t =>
    let n := sizeWidth size
    let ea := effAddr t base off n
    (loadBytes s t ea n q).map fun (b, s) =>
      { Effect.onRegs s t (fun x => writeG x d (loadValue (sizeSigned size) b)) with watch := some (ea, n, .load) }

/-- ST (R116). -/
def execSt (q : StQual) (size : BitVec 3) (d base : GReg) (off : BitVec 11) (s : State) : Result :=
  perform s fun s t =>
    let n := sizeWidth size
    let ea := effAddr t base off n
    (storeBytes s t ea (storeData t d n) q).map fun s => storeEffect s t ea n

/-- LDV: byte b of memory goes to bits [8b+7 : 8b] of vd (R51, R116). -/
def execLdv (q : LdQual) (v : VReg) (base : GReg) (off : BitVec 11) (s : State) : Result :=
  perform s fun s t =>
    let ea := effAddr t base off 64
    (loadBytes s t ea 64 q).map fun (b, s) =>
      { Effect.onRegs s t (fun x => writeV x v (bytesTok b)) with watch := some (ea, 64, .load) }

/-- STV (R51, R116). -/
def execStv (q : StQual) (v : VReg) (base : GReg) (off : BitVec 11) (s : State) : Result :=
  perform s fun s t =>
    let ea := effAddr t base off 64
    (storeBytes s t ea (tokBytes (readV t v)) q).map fun s => storeEffect s t ea 64

/-- LDW: waits for the granule to be full, then reads as LD, and acquires (R117). -/
def execLdw (size : BitVec 3) (d base : GReg) (off : BitVec 11) (s : State) : Result :=
  perform s fun s t =>
    let n := sizeWidth size
    let ea := effAddr t base off n
    (loadFull s t ea n false).map fun (b, s) =>
      { Effect.onRegs s t (fun x => writeG x d (loadValue (sizeSigned size) b)) with watch := some (ea, n, .load) }

/-- LDC: waits, then reads and empties the granule as one step, and acquires (R117). -/
def execLdc (size : BitVec 3) (d base : GReg) (off : BitVec 11) (s : State) : Result :=
  perform s fun s t =>
    let n := sizeWidth size
    let ea := effAddr t base off n
    (loadFull s t ea n true).map fun (b, s) =>
      { Effect.onRegs s t (fun x => writeG x d (loadValue (sizeSigned size) b)) with watch := some (ea, n, .both) }

/-- STF: writes and fills as one step; a release (R117). -/
def execStf (size : BitVec 3) (d base : GReg) (off : BitVec 11) (s : State) : Result :=
  perform s fun s t =>
    let n := sizeWidth size
    let ea := effAddr t base off n
    (storeFull s t ea (storeData t d n)).map fun s => storeEffect s t ea n

/-- CLRF: empties the granule; the width is that of size 0 (R25, R117). -/
def execClrf (base : GReg) (off : BitVec 11) (s : State) : Result :=
  perform s fun s t =>
    let ea := effAddr t base off 1
    (clearFull s t ea).map fun s => storeEffect s t ea 1

/-- STORE_DRAIN: an entry of the store buffer is performed; no earlier entry of its thread may remain (R66). -/
def execStoreDrain (core n : Nat) (s : State) : Result :=
  match (s.core core).stores[n]? with
  | none => .next s
  | some e =>
    if ((s.core core).stores.take n).any fun x => x.tid = e.tid then .next s else
    .next (releaseStores (performStore (s.modCore core fun c => { c with stores := c.stores.eraseIdx n }) core e) core)

/-- Wake the threads of a core that wait for an instruction line (R57). -/
def wakeLine (s : State) (core : Nat) : State :=
  { s with wakes := s.wakes ++ s.threads.filterMap fun p =>
      if (p.2.run = .waiting .line) && s.coreOf p.2 = core then some { tid := p.1, reason := .line } else none }

/-- INSTRUCTION_LINE_FILL: a line that was asked for comes from memory and wakes the threads that wait for it (R57, R64); of
the 1,632 lines that the local store holds, the one filled longest ago goes (log 59). -/
def execInstructionLineFill (core n : Nat) (s : State) : Result :=
  match (s.core core).fills[n]? with
  | none => .next s
  | some (ctx, line) =>
    match translate s ctx (64 * line) .fetch false with
    | (.ok pa, _, s) =>
      .next (wakeLine (s.modCore core fun c =>
        { c with fills := c.fills.eraseIdx n,
                 lines := ({ ctx := ctx, line := line, pline := pa / 64, bytes := s.readMem pa 64 } :: c.lines).take 1632 }) core)
    | (_, _, s) => .next (wakeLine (s.modCore core fun c => { c with fills := c.fills.eraseIdx n }) core)

end Sys2Proof.Machine
end

