-- ==== Sys2Proof/Machine/Mgmt.lean ====
section
/-! DEFINITION. The commands of system software through the management registers (R334): fault records (R286), invalidation
(R310, R312), the reset of a context (R54), pre-emption (R276), the resume of a faulted engine (R313), the logical core table
(R281 to R283), and creation of threads (R335). -/

namespace Sys2Proof.Machine

open Sys2Proof

/-! ## CTXCTL (R54, R286, R310) -/

/-- A write of CTXCTL is ignored while an invalidate of the selected context is in progress (R334). -/
def ctxctlTaken (s : State) : Bool := (s.ctx s.mgmt.ctxSel.toNat).invBusy.isNone

/-- CLEAR_FAULT_RECORD: CTXCTL[0] (R286). -/
def execClearFaultRecord (s : State) : Result :=
  .next (if ctxctlTaken s then modSelected s fun c => { c with fault := FaultRecord.none } else s)

/-- The context state of R54 is reset; the registers of system software and the energy stay. -/
def resetContextState (c : Ctx) : Ctx :=
  { c with cir := 0, logBase := 0, logHead := 0, logMode := 0, history := [], sliceLen := 65536, fault := FaultRecord.none }

/-- RESET_CONTEXT: CTXCTL[3] (R54). -/
def execResetContext (s : State) : Result :=
  if !ctxctlTaken s then .next s else
  .next (logModeWritten (modSelected s resetContextState) { ctx := s.mgmt.ctxSel.toNat, user := false, quiet := false })

/-! ## Invalidation (R310, R312) -/

/-- A page of 2^n bytes meets a range of addresses. -/
def pageMeets (vpage n lo hi : Nat) : Bool := vpage * 2 ^ n < hi && lo < (vpage + 1) * 2 ^ n

/-- The buffered translations of a context in a range go (R310). -/
def dropTranslations (s : State) (ctx lo hi : Nat) : State :=
  { s with rims := tmap s.rims fun _ r =>
      { r with tlb := r.tlb.filter fun e => !(e.ctx = ctx && pageMeets e.vpage e.bits lo hi) } }

/-- An invalidate of the selected context starts (R310, R334). -/
def beginInvalidate (s : State) (lo hi : Nat) : State :=
  if !ctxctlTaken s then s else
  modSelected (dropTranslations s s.mgmt.ctxSel.toNat lo hi) fun c => { c with invBusy := some (lo, hi) }

/-- INVALIDATE_CONTEXT: CTXCTL[1] (R310). -/
def execInvalidateContext (s : State) : Result := .next (beginInvalidate s 0 (2 ^ 52))

/-- INVALIDATE_RANGE: CTXCTL[2] (R310). -/
def execInvalidateRange (s : State) : Result :=
  let c := s.ctx s.mgmt.ctxSel.toNat
  .next (beginInvalidate s c.invBase.toNat (c.invBase.toNat + c.invLen.toNat))

/-- An address of a context lies in a range. -/
def inRange (ctx lo hi c va : Nat) : Bool := c = ctx && lo ≤ va && va < hi

/-- A walk of the range runs, or an access that was translated before has not been performed (R310). -/
def staleWork (s : State) (ctx lo hi : Nat) : Bool :=
  (s.rims.any fun (_, r) => r.walks.any fun w =>
    w.ctx = ctx && pageMeets (w.va / 2 ^ 16) 16 lo hi && w.result.isNone) ||
  (s.cores.any fun (_, c) => c.stores.any fun e => inRange ctx lo hi e.ctx e.va) ||
  s.atomics.any fun a => match s.thread? a.tid with
    | some t => inRange ctx lo hi t.ctx a.va.toNat
    | none => false

/-- A deferred read that the range covers is released: a thread's load executes again, an engine's round is voided (R67,
R312, R313). -/
def releaseDeferred (s : State) (d : Deferred) : State :=
  match d.loc with
  | some l => modEdge s l fun e => { e with roundLeft := 0 }
  | none => wakeOne s d.tid (· = .presence (d.pa / 16 * 16))

/-- What an invalidate does as it completes (R310, R312). -/
def endInvalidate (s : State) (ctx lo hi : Nat) : State :=
  let covered := fun (d : Deferred) => inRange ctx lo hi d.ctx d.va
  let ds := ((s.rim 0).deferred ++ (s.rim 1).deferred).filter covered
  let s := dropTranslations s ctx lo hi
  let s := { s with rims := tmap s.rims fun _ r =>
      { r with deferred := r.deferred.filter fun d => !covered d,
               walks := r.walks.filter fun w => !(w.ctx = ctx && pageMeets (w.va / 2 ^ 16) 16 lo hi) } }
  rimRoom (ds.foldl releaseDeferred s)

/-- The contexts whose invalidate may complete: no walk or access of the old entries remains (R310). -/
def finishable (s : State) : List Nat :=
  (List.range 64).filterMap fun n => match (s.ctx n).invBusy with
    | some (lo, hi) => if staleWork s n lo hi then none else some n
    | none => none

/-- The invalidate of a context completes: INVSTAT[0] clears and the host is told (R310, R322). -/
def completeInvalidate (s : State) (ctx : Nat) : State :=
  match (s.ctx ctx).invBusy with
  | some (lo, hi) => firePhysical ((endInvalidate s ctx lo hi).modCtx ctx fun c => { c with invBusy := none }) 0
  | none => s

/-- INVALIDATE_COMPLETE: an invalidate of which no translation, walk or access of an old entry remains completes; which one,
where several contexts have one, is an open choice (R310, log 2). -/
def execInvalidateComplete (s : State) : Result :=
  match finishable s with
  | [] => .next s
  | [c] => .next (completeInvalidate s c)
  | c :: cs => let (n, s) := s.choose; .next (completeInvalidate s ((c :: cs).getD (n % (cs.length + 1)) c))

/-! ## Pre-emption (R276) -/

/-- The launch that a handle names, of either cluster (R222, R276). -/
def namedLaunch (s : State) (w : Word) : Option (Nat × Nat × Launch) :=
  let cl := bits w 28 28
  match namedGraph s cl w with
  | some (h, _) => (s.launch? cl h).map fun v => (cl, h, v)
  | none => none

/-- A command of PREEMPT or RESUME ends at once: whether it is refused (R322, R334). -/
def endCommand (s : State) (refused : Bool) : State :=
  firePhysical { s with mgmt := { s.mgmt with preRefused := refused } } 0

/-- PREEMPT: a running launch is marked, and its sources stop after the marker (R276, R334). -/
def execPreempt (v : Word) (s : State) : Result :=
  if s.mgmt.preBusy then .next s else
  match namedLaunch s v with
  | some (cl, h, _) =>
    if !launchRuns s cl h then .next (endCommand s true) else
    let s := markLaunch { s with mgmt := { s.mgmt with preBusy := true, preRefused := false } } cl h
    (match s.launch? cl h with
     | some x => .next (s.setLaunch cl h { x with preempting := true })
     | none => .next s)
  | none => .next (endCommand s true)

/-- RESUME: a suspended launch stands at the head of its queue again (R276, R334). -/
def execResume (v : Word) (s : State) : Result :=
  if s.mgmt.preBusy then .next s else
  match namedLaunch s v with
  | some (cl, h, x) =>
    if x.state ≠ .suspended then .next (endCommand s true) else
    let s := s.setLaunch cl h { x with state := .queued, resumed := true }
    .next (endCommand (s.modCluster cl fun c => { c with queues := tmod c.queues x.queue [] (h :: ·) }) false)
  | none => .next (endCommand s true)

/-! ## The translation fault queue (R313) -/

/-- Release what is held by entry i of the fault queue: edge nodes, block ends of ports, copies (R278, R313, R362). -/
def releaseFault (s : State) (i : Nat) : State :=
  let edge := fun (e : EdgeSt) => { e with faulted := if e.faulted = some i then none else e.faulted }
  { s with
    cores := tmap s.cores fun _ c => { c with tiles := tmap c.tiles fun _ t => { t with edge := edge t.edge } }
    fabric := { s.fabric with ports := tmap s.fabric.ports fun _ p => { p with edge := edge p.edge } }
    clusters := tmap s.clusters fun _ c => { c with copies := tmap c.copies fun _ x =>
      { x with suspended := if x.suspended = some i then none else x.suspended } } }

/-- FQRESUME: the engine of an entry goes on, and its round repeats (R313). -/
def execFqresume (v : Word) (s : State) : Result := .next (releaseFault s (bits v 15 0))

/-! ## The logical core table (R281 to R283) -/

/-- What a write of LCT makes of an entry: the tag and the migrating bit stay; an allocation takes a fresh tag; a core whose
pots have yet to be zeroed is not given to a tenant. A write that names another context for an allocated entry frees it: the core
leaves its context first, and a later write allocates it (R281 to R283, R334; DESIGN CHOICE, log 92). -/
def writtenEntry (e : LctEntry) (v : Word) (zeroing : Bool) : LctEntry :=
  let moves := e.allocated && e.ctx.toNat ≠ bits v 13 8
  let alloc := bit v 14 && !moves && ((e.allocated && e.phys.toNat = bits v 7 0) || !zeroing)
  let stays := e.allocated && alloc && e.ctx.toNat = bits v 13 8
  { e with allocated := alloc, ctx := BitVec.ofNat 6 (bits v 13 8), phys := BitVec.ofNat 8 (bits v 7 0),
           ended := e.ended && stays, dropped := e.dropped && stays, tag := if alloc && !e.allocated then nextTag e.tag else e.tag }

/-- LCT_WRITE: the selected entry (R281, R282). A core that is freed is zeroed before it has another tenant (R283); one that
passes to another context loses its instruction lines (R64); energy is settled at a change of context (R266). -/
def execLctWrite (v : Word) (s : State) : Result :=
  let lc := selectedCore s
  let e := s.lct lc
  let next := 132 * (lc / 128) + bits v 7 0
  let n := writtenEntry e v (s.core next).zeroing.isSome
  let gains := n.allocated && !(e.allocated && e.ctx = n.ctx)
  let s := if gains then switchContext s (lc / 128) n.ctx.toNat else s
  let s := if e.allocated && !n.allocated && s.backed lc then
      s.modCore (s.phys lc) fun c => { c with zeroing := some e.ctx.toNat }
    else s
  let s := s.setLct lc n
  .next (if gains && s.backed lc then s.modCore (s.phys lc) fun c => { c with lines := [] } else s)

/-- A copy has unperformed writes into the pots of a logical core (R283). -/
def inboundCopies (s : State) (lc : Nat) : Bool :=
  ((s.cluster (lc / 128)).copies.any fun (_, c) => copyInbound (lc / 128) lc c) ||
  s.cores.any fun (_, k) => k.held.any fun w => w.lcore = lc

/-- POT_ZEROING_COMPLETE: with no inbound copies left, every pot byte is zero, every granule empty and clean, and the core is
free (R283). -/
def execPotZeroingComplete (core : Nat) (s : State) : Result :=
  let inbound : Bool := match s.logical core with
    | some lc => inboundCopies s lc
    | none => false
  if (s.core core).zeroing.isNone ∨ inbound then .next s else
  .next (s.modCore core fun c => { c with pots := [], full := [], poisoned := [], zeroing := none })

/-! ## NEWCTL (R335) and SVCRSP (R334) -/

/-- The thread that a write of NEWCTL creates, or none where creation is refused (R335). -/
def newctlThread (s : State) (v : Word) : Option (Nat × State) :=
  let ctx := bits v 5 0
  let lc := 128 * bits v 13 13 + bits v 12 6
  let pc := s.mgmt.newPc
  let e := s.lct lc
  if bits v 63 15 ≠ 0 ∨ !e.allocated ∨ e.ctx.toNat ≠ ctx ∨ bits pc 1 0 ≠ 0 ∨ bits pc 63 52 ≠ 0 then none
  else createThread s ctx lc pc 0 0 (bit v 14) 0 none

/-- NEWCTL: NEWSTAT holds the new thread's identifier, or the refusal; the lines that the thread's core holds are dropped, of
reads and of instructions, so that its first instruction sees the host's earlier writes (R322, R335). -/
def execNewctl (v : Word) (s : State) : Result :=
  match newctlThread s v with
  | some (tid, s) =>
    let s := match s.thread? tid with
      | some t => s.modCore (s.coreOf t) fun c => { c with readBuf := [], lines := [] }
      | none => s
    .next (firePhysical { s with mgmt := { s.mgmt with newRefused := false, newTid := BitVec.ofNat 16 tid } } 0)
  | none => .next (firePhysical { s with mgmt := { s.mgmt with newRefused := true } } 0)

/-- SVCRSP: the read returns the oldest reply with bit 63 set, or zero, and removes it (R334). -/
def execSvcrsp (s : State) : Result :=
  .next (answerHost (dropReply s) (some (leBytes 8 (svcWord s).toNat)))

end Sys2Proof.Machine
end

