-- ==== Sys2Proof/Machine/Places.lean ====
section
/-! DEFINITION. Exclusive objects and places (R123 to R129, R134 to R136). -/

namespace Sys2Proof.Machine

open Sys2Proof

/-- XNEW: the lowest free object of the cluster; 0 when none is free (R124, R384). -/
def execXnew (d a : GReg) (s : State) : Result :=
  perform s fun s t =>
    let mw := readG t a
    if bits mw 63 16 ≠ 0 ∨ bits mw 3 1 ≠ 0 ∨ (!bit mw 0 ∧ bits mw 15 4 ≠ 0) then trapWith .handle mw else
    let cl := t.lcore / 128
    let c := s.cluster cl
    let n := freeKey 0 c.objects
    if 4096 ≤ n then .ok (.onRegs s t fun x => writeG x d 0) else
    let o : SyncObj := { ranked := bit mw 0, ranks := bits mw 15 4 + 1, round := 0, nextRank := 0, queue := [],
                         granted := none, walking := false, walkTid := 0, ctx := t.ctx }
    .ok (.onRegs (s.setCluster cl { c with objects := tset c.objects n o }) t fun x =>
      writeG x d (syncHandle (c.objGen n) n 0 cl))

/-- XFREE: an object without queued, granted or abandoned places (R124, R384). -/
def execXfree (a : GReg) (s : State) : Result :=
  perform s fun s t =>
    let h := readG t a
    let cl := t.lcore / 128
    match objectOf s cl h with
    | none => trapWith .handle h
    | some (n, o) =>
      if o.queue ≠ [] ∨ o.granted.isSome then trapWith .handle h else
      .ok (.onRegs (s.modCluster cl fun c =>
        { c with objects := tdel c.objects n, objGens := tset c.objGens n (nextGen (c.objGen n)) }) t id)

/-- An XREQ by the requester that the log names, past the ordinal it names (R136). -/
def passesLogged (s : State) (t : Thread) : Except Stop (Option Nat × State) :=
  match logNext s t.decider with
  | .error e => .error e
  | .ok (some (i, e), s) =>
    .ok (if e.kind = 1 ∧ e.tid = s.cur ∧ e.val < t.xreqOrdinal.toNat then some i else none, s)
  | .ok (none, s) => .ok (none, s)

/-- XREQ: the lowest free place is queued; a grant that is possible at once is made at once (R127, R128, R135, R384). Of the
operands, the one at fault is the trap's value: gb for its rank, as for XGIVE's thread and XSWAP's second place (log 57). -/
def execXreq (d a b : GReg) (s : State) : Result :=
  perform s fun s t =>
    let cl := t.lcore / 128
    let h := readG t a
    let gb := readG t b
    match objectOf s cl h with
    | none => trapWith .handle h
    | some (n, o) =>
      let c := s.cluster cl
      if (!o.ranked ∧ gb ≠ 0) ∨ (o.ranked ∧ (o.ranks ≤ gb.toNat ∨ rankHeld c o gb.toNat)) then trapWith .handle gb else
      let i := freeKey 0 c.places
      if 32768 ≤ i then .ok (.onRegs s t fun x => writeG x d 0) else
      match (if o.ranked then .ok (none, s) else passesLogged s t) with
      | .error e => .error e
      | .ok (some k, _) => trapWith .diverge (w64 k)
      | .ok (none, s) =>
        let p : Place := { obj := n, owner := s.cur, requester := s.cur, ordinal := t.xreqOrdinal,
                           round := if o.ranked then requestRound c o gb.toNat else 0, rank := gb.toNat, state := .queued }
        let s := s.modCluster cl fun c => { c with places := tset c.places i p }
        let s := modObj s cl n fun o => { o with queue := o.queue ++ [i] }
        match decide s t.decider cl n true s.cur with
        | .error e => .error e
        | .ok s => .ok (.onRegs s t fun x =>
            writeG { x with xreqOrdinal := if o.ranked then x.xreqOrdinal else x.xreqOrdinal + 1 } d
              (syncHandle (c.placeGen i) n i cl))

/-- XWAIT: waits for the grant; an acquire (R128). -/
def execXwait (a : GReg) (s : State) : Result :=
  perform s fun s t =>
    let h := readG t a
    match ownPlace s t s.cur h with
    | .error e => .error e
    | .ok (_, p) =>
      match p.state with
      | .queued => .error (.wait (.place h) s)
      | .granted => .ok (.onRegs (acquireFor s t) t id)
      | .abandoned => trapWith .handle h

/-- XTRY: never waits; an acquire when it returns 1 (R128). -/
def execXtry (d a : GReg) (s : State) : Result :=
  perform s fun s t =>
    match ownPlace s t s.cur (readG t a) with
    | .error e => .error e
    | .ok (_, p) =>
      let won := p.state = .granted
      .ok (.onRegs (if won then acquireFor s t else s) t fun x => writeG x d (flag01 won))

/-- XGIVE: the place keeps its position, state, requester and ordinal; a release if it is granted (R128, R129, R135). -/
def execXgive (a b : GReg) (s : State) : Result :=
  perform s fun s t =>
    let h := readG t a
    match ownPlace s t s.cur h with
    | .error e => .error e
    | .ok (i, p) =>
      let tid := bits (readG t b) 15 0
      let live := match s.thread? tid with
        | some x => x.ctx = t.ctx
        | none => false
      if !live then trapWith .handle (readG t b)
      else if tid = s.cur then .ok (.onRegs s t id)
      else match (if p.state = .granted then drained s t else .ok ()) with
        | .error e => .error e
        | .ok () => .ok (.onRegs (modPlace s (t.lcore / 128) i fun p => { p with owner := tid }) t id)

/-- Exchange two entries of a queue. -/
def swapEntries (q : List Nat) (i j : Nat) : List Nat := q.map fun x => if x = i then j else if x = j then i else x

/-- XSWAP: a queued place and a later queued place of the same object exchange positions; in ranked mode the position is the
round with the rank (R128, R129). -/
def execXswap (a b : GReg) (s : State) : Result :=
  perform s fun s t =>
    let cl := t.lcore / 128
    let ga := readG t a
    let gb := readG t b
    match ownPlace s t s.cur ga with
    | .error e => .error e
    | .ok (i, p) =>
      if p.state ≠ .queued then trapWith .handle ga else
      match placeOf s cl gb, tget (s.cluster cl).objects p.obj with
      | .live j q, some o =>
        let later := if o.ranked then p.round < q.round || (p.round = q.round && p.rank < q.rank)
                     else o.queue.idxOf i < o.queue.idxOf j
        if q.obj ≠ p.obj ∨ q.state ≠ .queued ∨ !later then trapWith .handle gb else
        let s := if o.ranked then
            modPlace (modPlace s cl i fun x => { x with round := q.round, rank := q.rank }) cl j fun x =>
              { x with round := p.round, rank := p.rank }
          else modObj s cl p.obj fun o => { o with queue := swapEntries o.queue i j }
        (decide s t.decider cl p.obj true s.cur).map fun s => .onRegs s t id
      | _, _ => trapWith .handle gb

/-- A release of a granted place (R128, R129). -/
def releaseFor (s : State) (t : Thread) (i : Nat) : Except Stop Effect :=
  match drained s t with
  | .error e => .error e
  | .ok () => (releasePlace s t.decider (t.lcore / 128) i s.cur).map fun s => .onRegs s t id

/-- XDROP: a queued place is abandoned, a granted one released (R125, R128, R136); of a place that is abandoned already it
changes nothing (log 56). -/
def execXdrop (a : GReg) (s : State) : Result :=
  perform s fun s t =>
    let h := readG t a
    let cl := t.lcore / 128
    match ownPlace s t s.cur h with
    | .error e => .error e
    | .ok (i, p) =>
      match p.state with
      | .granted => releaseFor s t i
      | .queued => (dropQueued s t.decider cl i).map fun s => .onRegs s t id
      | .abandoned => .ok (.onRegs s t id)

/-- XREL: a place that is not granted gives HANDLE; a release (R128, R129). -/
def execXrel (a : GReg) (s : State) : Result :=
  perform s fun s t =>
    let h := readG t a
    match ownPlace s t s.cur h with
    | .error e => .error e
    | .ok (i, p) => if p.state = .granted then releaseFor s t i else trapWith .handle h

/-- The state code of XSTAT (R128). -/
def placeCode : PlaceState → Nat
  | .queued => 1
  | .granted => 2
  | .abandoned => 3

/-- XSTAT: any thread of the cluster; a stale handle gives 0 (R128). -/
def execXstat (d a : GReg) (s : State) : Result :=
  perform s fun s t =>
    let h := readG t a
    let cl := t.lcore / 128
    match placeOf s cl h with
    | .malformed => trapWith .handle h
    | .stale => .ok (.onRegs s t fun x => writeG x d 0)
    | .live _ p =>
      let ranked := match tget (s.cluster cl).objects p.obj with
        | some o => o.ranked
        | none => false
      .ok (.onRegs s t fun x => writeG x d
        (w64 (placeCode p.state + (if ranked then 8 else 0) + p.rank * 2 ^ 16 + p.owner * 2 ^ 32)))

/-- RELEASE_WALK: one sync-unit clock of a walk: up to 8 abandoned entries are freed, and the first queued place is granted; the
event that started the walk logs nothing (R129, R134). -/
def execReleaseWalk (cl obj : Nat) (s : State) : Result :=
  match tget (s.cluster cl).objects obj with
  | none => .next s
  | some o =>
    if !o.walking then .next s else
    match walkObject none cl obj 8 s with
    | .ok s => .next s
    | .error _ => .next s

end Sys2Proof.Machine
end

