-- ==== Sys2Proof/Machine/Ports.lean ====
section
/-! DEFINITION. BIND.port: the service ports of the trusted firmware (R314, R329) and the stream ports of the fabric (R362). -/

namespace Sys2Proof.Machine

open Sys2Proof

/-! ## Fields of a stream port's descriptor (R362) -/

/-- The far logical chip. -/
def farChip (x : Word) : Nat := bits x 15 8
/-- The near port. -/
def nearPort (x : Word) : Nat := bits x 29 24
/-- The near end. -/
def nearEnd (x : Word) : Nat := bits x 31 30

/-- The fields of a descriptor that must be zero, and the cases that are refused whatever the state holds (R362). -/
def portFields (x : Word) : Bool :=
  !bit x 22 && bits x 21 16 ≠ 0 && nearPort x ≠ 0 &&
  (match nearEnd x with
   | 0 => bits x 63 32 = 0
   | 1 => !bit x 23 && bits x 63 59 = 0
   | 2 => !bit x 23 && bits x 63 56 = 0
   | _ => false)

/-- The pots that near end 1 may name: a source of the handle, which receives, and an egress pot, which sends (R362). -/
def namedPots (s : State) (t : Thread) (x : Word) : List (TileLoc × Bool) :=
  let cl := bits x 42 42
  let h := bits x 41 32
  let i := bits x 58 51
  match s.handle? cl h with
  | none => []
  | some g =>
    if (s.cluster cl).handleGen h ≠ bits x 50 43 ∨ g.ctx ≠ t.ctx then [] else
    ((sourcePots s h g)[i]?.map fun l => (l, false)).toList ++ ((egressPots s h g)[i]?.map fun l => (l, true)).toList

/-- The pot of near end 1; where the index names a source and an egress pot the choice is open (log 22). -/
def namedPot (s : State) (t : Thread) (x : Word) : Option ((TileLoc × Bool) × State) :=
  match namedPots s t x with
  | [] => none
  | [p] => some (p, s)
  | p :: q :: _ => let (c, s) := s.choose; some (if c = 0 then p else q, s)

/-- Words of a block whose word 0 is given (R45). -/
def blockWords (w0 : Nat) : Nat :=
  match nbits w0 30 27 with
  | 0 => 2
  | 15 => 7
  | d => 4 + 3 * d

/-- The block of near end 2: it lies in a pot of a core of the binding thread's context (R45, R215, R362, log 22). -/
def portBlock (s : State) (t : Thread) (x : Word) : Option EdgeCfg :=
  let isl := 128 * (t.lcore / 128) + bits x 38 32
  let pot := bits x 44 39
  let at_ := 64 * bits x 55 45
  let word := fun i => leNat (s.potRead (s.phys isl) (pot * 2 ^ 17 + at_ + 4 * i) 4)
  let n := blockWords (word 0)
  if 47 < pot ∨ 2 ^ 17 < at_ + 4 * n ∨ !(s.lct isl).allocated ∨ (s.lct isl).ctx.toNat ≠ t.ctx ∨ !s.backed isl then none else
  match edgeOf ((List.range n).map word) with
  | .ok (.spout w ty round base fill ds) => some (.spout w ty round base fill ds)
  | _ => none

/-- A stream port as it is bound: a pot's place stands in the position of its end's state. -/
def newPort (x : Word) (tid : Nat) (send : Bool) (cfg : Option EdgeCfg) (pot : TileLoc) : StreamPort :=
  { desc := x, tid := tid, send := send, buffer := [], cfg := cfg,
    edge := { EdgeSt.start with tile := pot.core, pos := pot.tile } }

/-- The port that a descriptor asks for, or none where R362 gives CHANNEL. -/
def portOf (s : State) (t : Thread) (x : Word) : Option (StreamPort × State) :=
  if !portFields x ∨ (s.port? (nearPort x)).isSome ∨ !idValid s (farChip x) then none else
  match nearEnd x with
  | 0 => some (newPort x s.cur (bit x 23) none { core := 0, tile := 0 }, s)
  | 1 => (namedPot s t x).map fun ((l, send), s) => (newPort x s.cur send none l, s)
  | _ => match portBlock s t x with
    | some (.spout w ty round base fill ds) =>
      some (newPort x s.cur (!w) (some (.spout w ty round base fill ds)) { core := 0, tile := 0 }, s)
    | _ => none

/-- Bind a slot of the issuing thread to a port. -/
def bindEnd (s : State) (t : Thread) (ch : ChSlot) (desc : Nat) (out : Bool) : State :=
  (s.dropChan s.cur ch.toNat).setThread s.cur
    (t.setEnd ch.toNat { peer := 0, pslot := 0, out := out, bound := true, port := true, desc := BitVec.ofNat 16 desc })

/-- The thread has a slot bound to a port. -/
def holdsPort (t : Thread) (desc : Nat) : Bool := t.ch.toList.any fun e => e.bound && e.port && e.desc.toNat = desc

/-- BIND_PORT: a service port of the trusted firmware, or a stream port (R121, R314, R329, R362). -/
def execBindPort (ch : ChSlot) (b : GReg) (s : State) : Result :=
  perform s fun s t =>
    let x := readG t b
    let bound := (t.chEnd ch.toNat).bound
    if x = 1 ∨ x = 0x101 then
      let desc := if x = 1 then requestPort else replyPort
      if !t.system then trapWith .privilege (instrWord (.bindPort ch b))
      else if bound || holdsPort t desc then channelTrap ch
      else .ok (.onRegs (bindEnd s t ch desc (x = 1)) t id)
    else if bound ∨ bits x 7 0 ≠ 2 then channelTrap ch
    else match portOf s t x with
      | none => channelTrap ch
      | some (p, s) =>
        let s := bindEnd (s.setPort (nearPort x) p) t ch (16 + nearPort x) p.send
        .ok (.onRegs (retrySources s) t id)

end Sys2Proof.Machine
end

