-- ==== Sys2Proof/Machine/Sha.lean ====
section
/-! DEFINITION. SHA-256 (FIPS 180-4) and the LMS verification of RFC 8554 with the two parameter sets that R314 and R328 name:
LMS_SHA256_M32_H15 and LMOTS_SHA256_N32_W4. The specification names both standards and does not repeat them (log 4). -/

namespace Sys2Proof.Machine

open Sys2Proof

/-! ## Bytes in network order -/

/-- A number in n bytes, the most significant first. -/
def beBytes (n x : Nat) : List Byte := (List.range n).map fun i => BitVec.ofNat 8 (x / 256 ^ (n - 1 - i))

/-- The number that bytes stand for, the most significant first. -/
def beNat (b : List Byte) : Nat := b.foldl (fun n x => 256 * n + x.toNat) 0

/-! ## SHA-256 -/

/-- No number from 2 up to its own half divides it. -/
def isPrime (n : Nat) : Bool := 2 ≤ n && (List.range (n / 2 - 1)).all fun d => n % (d + 2) ≠ 0

/-- The first primes in rising order, up to 311, the 64th. -/
def smallPrimes : List Nat := (List.range 312).filter isPrime

/-- The largest r below 2^n whose k-th power is at most x, built from its highest bit down. -/
def rootBelow (k x n : Nat) : Nat :=
  (List.range n).foldr (fun i r => if (r + 2 ^ i) ^ k ≤ x then r + 2 ^ i else r) 0

/-- The first 32 bits of the fraction of the k-th root of a number below 512. -/
def rootFraction (k p : Nat) : BitVec 32 := BitVec.ofNat 32 (rootBelow k (p * 2 ^ (32 * k)) 41)

/-- The constants of the rounds: the fractions of the cube roots of 64 primes. -/
def shaConstants : List (BitVec 32) := smallPrimes.map (rootFraction 3)

/-- The two registers of a hash in progress: of each its last four values, the newest first. The standard's a to d are the
first one's, its e to h the second one's. -/
structure ShaHistory where
  low : List (BitVec 32)
  high : List (BitVec 32)
deriving DecidableEq, Repr

/-- The initial hash value: the fractions of the square roots of eight primes. -/
def shaInitial : ShaHistory :=
  let r := (smallPrimes.take 8).map (rootFraction 2)
  { low := r.take 4, high := r.drop 4 }

/-- Three rotations to the right, combined. -/
def spin (x : BitVec 32) (i j k : Nat) : BitVec 32 := x.rotateRight i ^^^ x.rotateRight j ^^^ x.rotateRight k

/-- The word that follows a window of sixteen words of the schedule. -/
def shaExtend (w : List (BitVec 32)) : BitVec 32 :=
  let old := w.getD 1 0
  let late := w.getD 14 0
  w.getD 0 0 + w.getD 9 0 + (old.rotateRight 7 ^^^ old.rotateRight 18 ^^^ old >>> 3) +
    (late.rotateRight 17 ^^^ late.rotateRight 19 ^^^ late >>> 10)

/-- What a round does to the history with the sum of its constant and its word. -/
def shaTurn (s : ShaHistory) (kw : BitVec 32) : ShaHistory :=
  let x := fun (i : Nat) => s.low.getD i 0
  let y := fun (i : Nat) => s.high.getD i 0
  let choice := y 2 ^^^ (y 0 &&& (y 1 ^^^ y 2))
  let majority := (x 0 &&& x 1) ||| (x 2 &&& (x 0 ||| x 1))
  let t := kw + y 3 + choice + spin (y 0) 6 11 25
  { low := (t + majority + spin (x 0) 2 13 22) :: s.low.take 3, high := (t + x 3) :: s.high.take 3 }

/-- The rounds of a block: each takes the first word of the window, which then moves on by one. -/
def shaTurns : List (BitVec 32) → List (BitVec 32) → ShaHistory → ShaHistory
  | [], _, s => s
  | k :: ks, w, s => shaTurns ks (w.tail ++ [shaExtend w]) (shaTurn s (k + w.headD 0))

/-- The compression of one block of 64 bytes. -/
def shaBlock (s : ShaHistory) (block : List Byte) : ShaHistory :=
  let r := shaTurns shaConstants ((List.range 16).map fun i => BitVec.ofNat 32 (beNat ((block.drop (4 * i)).take 4))) s
  { low := List.zipWith (· + ·) s.low r.low, high := List.zipWith (· + ·) s.high r.high }

/-- The compression of n blocks. -/
def shaBlocks : Nat → ShaHistory → List Byte → ShaHistory
  | 0, s, _ => s
  | n + 1, s, b => shaBlocks n (shaBlock s (b.take 64)) (b.drop 64)

/-- A message filled up to whole blocks: a one bit, zeros, and its length in bits. -/
def shaFilled (m : List Byte) : List Byte :=
  let zeros := 63 - (m.length + 8) % 64
  m ++ 0x80 :: List.replicate zeros 0 ++ beBytes 8 (8 * m.length)

/-- SHA-256. -/
def sha256 (m : List Byte) : List Byte :=
  let p := shaFilled m
  let s := shaBlocks (p.length / 64) shaInitial p
  (s.low ++ s.high).flatMap fun w => beBytes 4 w.toNat

/-! ## LMOTS_SHA256_N32_W4 -/

/-- The codes of the parameter sets: LMS_SHA256_M32_H15 and LMOTS_SHA256_N32_W4. -/
def lmsType : Nat := 7
/-- The one-time signature's code. -/
def lmotsType : Nat := 3

/-- The separators of the four uses of the hash. -/
def dPblc : List Byte := [0x80, 0x80]
/-- The message. -/
def dMesg : List Byte := [0x81, 0x81]
/-- A leaf. -/
def dLeaf : List Byte := [0x82, 0x82]
/-- An interior node. -/
def dIntr : List Byte := [0x83, 0x83]

/-- The digits of a string of bytes in base 16, the high half of each byte first. -/
def nibbles (b : List Byte) : List Nat := b.flatMap fun x => [x.toNat / 16, x.toNat % 16]

/-- The checksum of a digest's digits. -/
def lmotsChecksum (q : List Byte) : List Byte := beBytes 2 (((nibbles q).map (15 - ·)).sum * 16)

/-- n steps of the chain of digit i, from step j on. -/
def lmotsChain (ident : List Byte) (i : Nat) : Nat → Nat → List Byte → List Byte
  | 0, _, x => x
  | n + 1, j, x => lmotsChain ident i n (j + 1) (sha256 (ident ++ beBytes 2 i ++ beBytes 1 j ++ x))

/-- The public key candidate that a one-time signature gives: the randomiser, and the values of the 67 chains. -/
def lmotsCandidate (ident c y msg : List Byte) : List Byte :=
  let q := sha256 (ident ++ dMesg ++ c ++ msg)
  let z := ((nibbles (q ++ lmotsChecksum q)).take 67).zipIdx.flatMap fun (a, i) =>
    lmotsChain ident i (15 - a) a ((y.drop (32 * i)).take 32)
  sha256 (ident ++ dPblc ++ z)

/-! ## LMS_SHA256_M32_H15 -/

/-- The root that a leaf and its path give: `node` is the number of the node whose value is `x`. -/
def lmsRoot (tree : List Byte) : Nat → Nat → List Byte → List Byte → List Byte
  | 0, _, x, _ => x
  | n + 1, node, x, path =>
    let p := path.take 32
    let y := sha256 (tree ++ beBytes 4 (node / 2) ++ dIntr ++ (if node % 2 = 1 then p ++ x else x ++ p))
    lmsRoot tree n (node / 2) y (path.drop 32)

/-- Length of an LMS public key: two codes, the tree's identifier, the root. -/
def lmsKeyLength : Nat := 4 + 4 + 16 + 32

/-- Length of an LMS signature (R314): the leaf, the one-time signature, a code, the path. -/
def lmsLength : Nat := 4 + (4 + 32 + 67 * 32) + 4 + 15 * 32

/-- LMS verification: public key, message, signature (R314). -/
def lmsVerify (key msg sig : List Byte) : Bool :=
  let q := beNat (sig.take 4)
  let tree := (key.drop 8).take 16
  let ident := tree ++ beBytes 4 q
  let ots := sig.drop 4
  let kc := lmotsCandidate ident ((ots.drop 4).take 32) (ots.drop 36) msg
  let node := 2 ^ 15 + q
  let rest := ots.drop (36 + 67 * 32)
  key.length = lmsKeyLength && sig.length = lmsLength && beNat (key.take 4) = lmsType && beNat ((key.drop 4).take 4) = lmotsType &&
    beNat (ots.take 4) = lmotsType && beNat (rest.take 4) = lmsType && q < 2 ^ 15 &&
    lmsRoot tree 15 node (sha256 (tree ++ beBytes 4 node ++ dLeaf ++ kc)) (rest.drop 4) = key.drop 24

/-- HSS verification of two levels: public key, message, signature (R328). -/
def hssVerify (key msg sig : List Byte) : Bool :=
  let signed := sig.drop 4
  let next := (signed.drop lmsLength).take lmsKeyLength
  beNat (key.take 4) = 2 && beNat (sig.take 4) = 1 && lmsVerify (key.drop 4) next (signed.take lmsLength) &&
    lmsVerify next msg (signed.drop (lmsLength + lmsKeyLength))

end Sys2Proof.Machine
end

