-- ==== Sys2Proof/Machine/Service.lean ====
section
/-! DEFINITION. The service channel of the trusted firmware: signature checks (R314), quotes and installation (R328, R329), the
identity tables and the fabric state (R361). -/

namespace Sys2Proof.Machine

open Sys2Proof

/-! ## Requests and replies (R314, R334) -/

/-- The slot of a thread that is bound to a service port. -/
def serviceSlot (t : Thread) (desc : Nat) : Option Nat :=
  (List.range 8).find? fun i => (t.chEnd i).bound && (t.chEnd i).port && (t.chEnd i).desc.toNat = desc

/-- The two words of the request that is served next, if its reply has a place (R314, R334, log 24). -/
def nextRequest (s : State) (src : SvcSrc) : Option (Word × Word) :=
  match src with
  | .host => match s.mgmt.svcReq with
    | a :: b :: _ => some (a, b)
    | _ => none
  | .thread tid =>
    match tgetD s.trivet.requests tid [] with
    | a :: b :: _ =>
      match s.thread? tid with
      | some t =>
        if (serviceSlot t replyPort).isSome && (tgetD s.trivet.replies tid []).length < 8 then some (a, b) else none
      | none => if (tget s.trivet.exited tid).isSome then some (a, b) else none
    | _ => none

/-- The context of a requesting thread; one that has exited keeps it for the requests that it left (R61, R329). -/
def requesterCtx (s : State) (tid : Nat) : Option Nat :=
  match s.thread? tid with
  | some t => some t.ctx
  | none => tget s.trivet.exited tid

/-- The request's words leave the buffer as it is served (R314). -/
def takeRequest (s : State) (src : SvcSrc) : State :=
  match src with
  | .host => { s with mgmt := { s.mgmt with svcReq := s.mgmt.svcReq.drop 2 } }
  | .thread tid =>
    let s := { s with trivet := { s.trivet with requests := tmod s.trivet.requests tid [] (List.drop 2) } }
    match (s.thread? tid).bind (serviceSlot · requestPort) with
    | some i => wakeSlot s tid i
    | none => s

/-- A reply of one word: the status; to a thread that has exited there is none (R61, R314, R322). -/
def reply (s : State) (src : SvcSrc) (status : Nat) : State :=
  match src with
  | .host => firePhysical { s with mgmt := { s.mgmt with svcRsp := s.mgmt.svcRsp ++ [w64 status] } } 1
  | .thread tid =>
    if (s.thread? tid).isNone then s else
    let (n, s) := s.arrive
    let s := { s with trivet := { s.trivet with
      replies := tmod s.trivet.replies tid [] (· ++ [{ at_ := n, word := w64 status }]) } }
    match (s.thread? tid).bind (serviceSlot · replyPort) with
    | some i => wakeSlot s tid i
    | none => s

/-- Bytes that the firmware reads for a requester: physical for the host, virtual for a thread (R329). -/
def readFor (s : State) (src : SvcSrc) (addr n : Nat) : Option (List Byte × State) :=
  match src with
  | .host => if ((List.range n).map (addr + ·)).all populated then some (s.readMem addr n, s) else none
  | .thread tid => match requesterCtx s tid with
    | none => none
    | some ctx => if 2 ^ 52 < addr + n then none else (readVirt ctx false n addr s).toOption

/-- Bytes that the firmware writes for a requester, all or none (R329). -/
def writeFor (s : State) (src : SvcSrc) (addr : Nat) (b : List Byte) : Option State :=
  match src with
  | .host =>
    let as := (List.range b.length).map (addr + ·)
    if as.all populated then some (writePhys s (as.zip b)) else none
  | .thread tid => match requesterCtx s tid with
    | none => none
    | some ctx => if 2 ^ 52 < addr + b.length then none else writeVirt s ctx false addr b

/-- The command of a request. -/
def command (w : Word) : Nat := bits w 7 0

/-- Serve the next request, if it is one of those that a step serves. -/
def serve (s : State) (src : SvcSrc) (mine : State → Word → Word → Bool) (f : State → Word → Word → Nat × State) : Result :=
  match nextRequest s src with
  | none => .next s
  | some (a, b) =>
    if !mine s a b then .next s else
    let (status, s) := f (takeRequest s src) a b
    .next (reply s src status)

/-! ## Command 1: signatures (R314) -/

/-- The verdict on an image (R314). -/
def verifyStatus (s : State) (src : SvcSrc) (a b : Word) : Nat × State :=
  let slot := bits a 15 8
  if command a ≠ 1 ∨ bits a 63 16 ≠ 0 ∨ 7 < slot ∨ b.toNat % 64 ≠ 0 then (5, s) else
  match tget s.flash.keys slot with
  | none => (4, s)
  | some key =>
    match readFor s src b.toNat 64 with
    | none => (3, s)
    | some (hd, s) =>
      let off := field hd 20 4
      if off = 0 then (2, s)
      else if field hd 24 4 ≠ lmsLength ∨ field hd 0 4 < off then (3, s)
      else match readFor s src b.toNat (off + lmsLength) with
        | none => (3, s)
        | some (x, s) => (if lmsVerify key (x.take off) (x.drop off) then 0 else 1, s)

/-- VERIFY_IMAGE: command 1, and commands that do not exist (R314). -/
def execVerifyImage (src : SvcSrc) (s : State) : Result :=
  serve s src (fun _ a _ => command a ≠ 2 && command a ≠ 3 && command a ≠ 4) fun s a b => verifyStatus s src a b

/-! ## Command 2: quotes (R329) -/

/-- The bytes of a quote from byte 32 on (R329). -/
def quoteBytes (s : State) (nonce : List Byte) : List Byte :=
  let body := sha256 (Config.measured s.trivet.image s.trivet.firmware) ++ leBytes 4 s.flash.ordinal.toNat ++ List.replicate 4 0
  body ++ fitTo (4 + 2668 + 56 + 2668) (Config.hssSign (32768 * s.flash.hssCounter + s.trivet.quotes) (nonce ++ body))

/-- ATTESTATION_QUOTE: command 2 (R328, R329). -/
def execAttestationQuote (src : SvcSrc) (s : State) : Result :=
  serve s src (fun _ a _ => command a = 2) fun s a b =>
    if bits a 63 8 ≠ 0 then (5, s)
    else if !s.trivet.attest ∨ 32768 ≤ s.trivet.quotes then (6, s)
    else match readFor s src b.toNat 32 with
      | none => (3, s)
      | some (nonce, s) => match writeFor s src (b.toNat + 32) (quoteBytes s nonce) with
        | none => (3, s)
        | some s => (0, { s with trivet := { s.trivet with quotes := s.trivet.quotes + 1 } })

/-! ## Command 4: general firmware (R329) -/

/-- An image of general firmware verifies against the root key (R328). -/
def firmwareVerifies (x : List Byte) : Bool :=
  let p := Config.signedParts x
  hssVerify Config.rootKey p.1 p.2

/-- A verified image takes both copies in flash, and runs (R326, R329, log 4). -/
def installFirmware (s : State) (x : List Byte) : State :=
  let copy : FlashCopy := { bytes := x, signed := true }
  { s with flash := { s.flash with firmwareA := copy, firmwareB := copy }, trivet := { s.trivet with firmware := x } }

/-- INSTALL_GENERAL_FIRMWARE: command 4 (R328, R329). -/
def execInstallGeneralFirmware (src : SvcSrc) (s : State) : Result :=
  serve s src (fun _ a _ => command a = 4) fun s a b =>
    if bits a 63 8 ≠ 0 then (5, s) else
    match readFor s src b.toNat Config.firmwareBytes with
    | none => (3, s)
    | some (x, s) =>
      if !Config.firmwareWellFormed x then (3, s)
      else if !firmwareVerifies x then (1, s)
      else (0, installFirmware s x)

/-! ## Command 3: identity tables and fabric state (R361) -/

/-- The operation of a record, where it can be read and names one other than 0. -/
def recordOperation (s : State) (src : SvcSrc) (addr : Word) : Nat :=
  match readFor s src addr.toNat 32 with
  | some (r, _) => let n := field r 0 1; if n ≤ 4 then n else 0
  | none => 0

/-- The zero fields of a record, its flags, and word 0 (R314, R361). -/
def recordOk (a : Word) (r : List Byte) : Bool :=
  bits a 63 8 = 0 && field r 0 1 ≤ 4 && field r 1 1 ≤ (if field r 0 1 = 0 then 1 else 0) && field r 6 2 = 0 && field r 24 8 = 0

/-- Serve command 3 with an operation: the record is read and checked (R361). -/
def serveRecord (s : State) (src : SvcSrc) (op : Nat) (f : State → List Byte → Nat × State) : Result :=
  serve s src (fun s a b => command a = 3 && recordOperation s src b = op) fun s a b =>
    match readFor s src b.toNat 32 with
    | none => (3, s)
    | some (r, s) => if recordOk a r then f s r else (5, s)

/-- An entry as it is written: its generation moves on, and an assumed number sets self (R360, R361). -/
def newEntry (old entry : Word) (assume : Bool) : Word :=
  let gen := (bits old 47 32 + 1) % 2 ^ 16
  w64 (entry.toNat % 2 ^ 32 + gen * 2 ^ 32 + bits entry 48 48 * 2 ^ 48 +
    (if assume || bit entry 49 then 2 ^ 49 else 0) + bits entry 50 50 * 2 ^ 50)

/-- An entry has moved to another physical chip, or its held bit has cleared: its destination is sent again all that it is owed
(R357, R365). -/
def entryMoved (s : State) (chip : Nat) (old : Word) : State :=
  if bits (identity s chip) 9 0 ≠ bits old 9 0 ∨ (bit old 50 ∧ !idHeld s chip) then
    resendAll (s.setDest chip { s.dest chip with acked := none }) chip
  else s

/-- A package without a number assumes one: as a spare that takes it over, where its table gives the number to another physical
chip, or as its first, where the table gives it to this one. Where the table has no entry for it, the package cannot tell: an open
choice decides (R365, log 43). -/
def takesOver (s : State) (chip : Nat) : Bool × State :=
  if s.trivet.assigned then (false, s)
  else if idValid s chip then (bits (identity s chip) 9 0 ≠ s.flash.physId.toNat, s)
  else
    let (x, s) := s.choose
    (x % 2 = 1, s)

/-- A package without a number takes one. One that takes it over from another package drops every message for it until it
restores the fabric state (R361, R365, log 43). -/
def assumeNumber (s : State) (chip : Nat) : State :=
  let (spare, s) := takesOver s chip
  { s with trivet := { s.trivet with chip := BitVec.ofNat 8 chip, assigned := true }
           fabric := { s.fabric with awaiting := s.fabric.awaiting || spare } }

/-- WRITE_ENTRY: operation 0, records that cannot be read, and operations that do not exist (R361). -/
def execWriteEntry (src : SvcSrc) (s : State) : Result :=
  serveRecord s src 0 fun s r =>
    let chip := field r 2 2
    let entry := w64 (field r 8 8)
    let assume := field r 1 1 = 1
    if 255 < chip ∨ bits entry 15 10 ≠ 0 ∨ bits entry 63 51 ≠ 0 then (5, s)
    else if bits (identity s chip) 47 32 ≠ field r 4 2 then (7, s)
    else if assume && s.trivet.assigned && s.trivet.chip.toNat ≠ chip then (8, s)
    else
      let old := identity s chip
      let s := if assume then assumeNumber s chip else s
      let s := { s with fabric := { s.fabric with identity := tset s.fabric.identity chip (newEntry old entry assume) } }
      (0, entryMoved s chip old)

/-- What the fabric state holds for a logical chip: A, the next sequence to it, its last horizon (R361). -/
def chipState (s : State) (chip : Nat) : Nat × BitVec 32 × BitVec 32 × BitVec 32 × BitVec 32 :=
  (chip, (s.source chip).applied, (s.dest chip).nextSeq, (s.source chip).horizonA, (s.source chip).horizonN)

/-- The 16 bytes of a logical chip in the fabric state (R361). -/
def chipBytes : Nat × BitVec 32 × BitVec 32 × BitVec 32 × BitVec 32 → List Byte
  | (_, a, n, h1, h2) => leBytes 4 a.toNat ++ leBytes 4 n.toNat ++ leBytes 4 h1.toNat ++ leBytes 4 h2.toNat

/-- READ_FABRIC_STATE: operation 1, one snapshot (R361). -/
def execReadFabricState (src : SvcSrc) (s : State) : Result :=
  serveRecord s src 1 fun s r =>
    let snap := (List.range 256).map (chipState s)
    match writeFor s src (field r 8 8) (snap.flatMap chipBytes) with
    | none => (3, s)
    | some s => (0, { s with fabric := { s.fabric with snapshot := snap } })

/-- Give one logical chip what a fabric state says of it. -/
def restoreChip (b : List Byte) (s : State) (chip : Nat) : State :=
  let at_ := fun (i : Nat) => BitVec.ofNat 32 (field b (16 * chip + 4 * i) 4)
  let s := s.setSource chip { s.source chip with applied := at_ 0, horizonA := at_ 2, horizonN := at_ 3 }
  s.setDest chip { s.dest chip with nextSeq := at_ 1 }

/-- A launch of the package has started and not ended. -/
def anyLaunchRuns (s : State) : Bool := [0, 1].any fun cl => liveLaunches s cl ≠ []

/-- RESTORE_FABRIC_STATE: operation 2, with no running launch; messages for the package are taken again (R361, R365). -/
def execRestoreFabricState (src : SvcSrc) (s : State) : Result :=
  serveRecord s src 2 fun s r =>
    if anyLaunchRuns s then (5, s) else
    match readFor s src (field r 8 8) 4096 with
    | none => (3, s)
    | some (b, s) =>
      let s := (List.range 256).foldl (restoreChip b) s
      (0, { s with fabric := { s.fabric with awaiting := false } })

/-- The horizon for a chip, from the snapshot (R358). -/
def horizonMsg : Nat × BitVec 32 × BitVec 32 × BitVec 32 × BitVec 32 → Msg
  | (chip, a, n, _, _) => mkMsg chip 7 0 0 0 (pad64 (leBytes 4 a.toNat ++ leBytes 4 n.toNat))

/-- PUBLISH_HORIZON: operation 3, to every valid chip of the last snapshot (R358, R361). -/
def execPublishHorizon (src : SvcSrc) (s : State) : Result :=
  serveRecord s src 3 fun s _ =>
    (0, (s.fabric.snapshot.filter fun x => idValid s x.1).foldl (fun s x => emitMsg s (fromHere s (horizonMsg x))) s)

/-- The physical address of a byte that a requester names for writing (R329). -/
def physFor (s : State) (src : SvcSrc) (addr : Nat) : Option (Nat × State) :=
  match src with
  | .host => some (addr, s)
  | .thread tid => (requesterCtx s tid).bind fun ctx =>
      if 2 ^ 52 ≤ addr then none else (mapVirt ctx false 1 addr s).bind fun (l, s) => l.head?.map fun a => (a, s)

/-- The place that a retention log is given lies in the memory of the package (R358, log 43). -/
def logFits (addr n : Nat) : Bool := n = 0 || (populated addr && populated (addr + logPlace * n - 1))

/-- SET_RETENTION_LOG: operation 4; a message that waited for room goes on (R358, R361). Messages that are retained keep their
places (log 43). -/
def execSetRetentionLog (src : SvcSrc) (s : State) : Result :=
  serveRecord s src 4 fun s r =>
    match physFor s src (field r 8 8) with
    | none => (3, s)
    | some (a, s) =>
      if !logFits a (field r 16 8) then (3, s)
      else (0, wakeSenders { s with fabric := { s.fabric with logAddr := a, logSize := some (field r 16 8) } })

end Sys2Proof.Machine
end

