-- ==== Sys2Proof/Machine/Issue.lean ====
section
/-! DEFINITION. One issue slot of a sequencer (R56 to R64): the waits it counts, the records it spills and restores, the thread
it picks, and the fetch of the instruction word. -/

namespace Sys2Proof.Machine

open Sys2Proof

/-- A thread is resident in a slot of a logical core. -/
def Thread.at (t : Thread) (lc slot : Nat) : Bool := t.lcore = lc && t.seat = .resident slot

/-- Slot number of a resident thread. -/
def Thread.slotNo (t : Thread) : Nat := match t.seat with
  | .resident i => i
  | .spilled i => i

/-- The resident waiting thread of a core that has waited longest; ties go to the lower slot (R58). -/
def longestWaiting (s : State) (lc : Nat) : Option (Nat × Thread) :=
  s.threads.foldl (fun (acc : Option (Nat × Thread)) (tid, t) =>
    let waits := match t.run with
      | .waiting r => !r.held
      | .ready => false
    if t.lcore = lc && !t.isSpilled && waits then
      match acc with
      | some (_, a) =>
        if a.waitedSlots < t.waitedSlots ∨ (a.waitedSlots = t.waitedSlots ∧ t.slotNo < a.slotNo) then some (tid, t) else acc
      | none => some (tid, t)
    else acc) none

/-- Restore one spilled-ready thread, if a slot is free or a waiting thread can give its slot (R58). -/
def restoreOne (s : State) (lc : Nat) : Option State :=
  match oldestSpilled s lc with
  | none => none
  | some (tid, t) =>
    match freeSlot s lc with
    | some i => some (s.setThread tid { t with seat := .resident i })
    | none =>
      match longestWaiting s lc with
      | some (w, x) => some ((s.setThread w { x with seat := t.seat }).setThread tid { t with seat := x.seat })
      | none => none

/-- Restore spilled-ready threads while slots can be had (R58). -/
def restoreAll (lc : Nat) : Nat → State → State
  | 0, s => s
  | n + 1, s => match restoreOne s lc with
    | some s' => restoreAll lc n s'
    | none => s

/-- A ready thread gives its slot to the oldest spilled-ready thread of its core, if there is one (R58, R59). DESIGN CHOICE (log 75):
this is a context save of R143, which folds, as the completion of a checkpoint and of a pre-emption are; the spill of a waiting
thread and a migration are not. -/
def preemptThread (s : State) (tid : Nat) : State :=
  match s.thread? tid with
  | none => s
  | some t =>
    match oldestSpilled s t.lcore with
    | none => s
    | some (r, x) =>
      foldContext ((({ s with arrivals := s.arrivals + 1 }).setThread r { x with seat := t.seat }).setThread tid
        { t with seat := x.seat, readySince := s.arrivals }) t.ctx

/-- What follows when SLICE has reached zero (R59). It comes before an imprecise report that is due at the same boundary (DESIGN
CHOICE, log 11). -/
def expireSlice (s : State) (tid : Nat) : State :=
  match s.thread? tid with
  | none => s
  | some t =>
    if !t.sliceDue then s else
    let s := s.setThread tid { t with slice := sliceLen (s.ctx t.ctx), sliceDue := false }
    if t.sliceTraps then takeTrap s tid .slice 0 false else preemptThread s tid

/-- An issue slot passes for the threads of a core: the waits of R58 grow, the counts of WAIT fall, and a count that is used
up ends its wait (R57, R133). -/
def tickThreads (s : State) (lc : Nat) : State :=
  { s with threads := tmap s.threads fun _ t =>
      if t.lcore ≠ lc then t else
      match t.run with
      | .ready => t
      | .waiting r => { t with waitedSlots := t.waitedSlots + 1, waitLeft := if r = .count then t.waitLeft - 1 else t.waitLeft } }

/-- The count of a WAIT is used up (R133). -/
def waitOver (t : Thread) : Bool := t.run = .waiting .count && t.waitLeft = 0

/-- End the WAIT of a thread whose count is used up (R57). -/
def expireWait (s : State) (tid : Nat) : State :=
  match s.thread? tid with
  | some t => if waitOver t then endWait s tid else s
  | none => s

/-- The threads of a core that a test accepts. -/
def threadsWhere (s : State) (lc : Nat) (p : Thread → Bool) : List Nat :=
  s.threads.filterMap fun (tid, t) => if t.lcore = lc && p t then some tid else none

/-- What an issue slot does before it picks a thread: counts; records, as long as a slot can be had; slices, which take a slot
from a ready thread only where none could (R57 to R59). -/
def openSlot (s : State) (lc : Nat) : State :=
  let s := tickThreads s lc
  let s := (threadsWhere s lc waitOver).foldl expireWait s
  let s := restoreAll lc 48 s
  (threadsWhere s lc Thread.sliceDue).foldl expireSlice s

/-- The ready thread that issues: cyclic order, starting after the slot that issued last (R62). -/
def pickThread (s : State) (lc last : Nat) : Option (Nat × Nat) :=
  (List.range 32).findSome? fun k =>
    let i := (last + 1 + k) % 32
    (s.threads.find? fun (_, t) => t.at lc i && t.run = .ready).map fun (tid, _) => (i, tid)

/-- What a fetch gives (R64, R102). -/
inductive Fetched where
  | word (w : W32)
  | miss
  | trap (c : Cause)
deriving DecidableEq, Repr

/-- Fetch the word at a thread's program counter: the checks of R102, then the instruction line (R64). -/
def fetchAt (s : State) (t : Thread) : Fetched × State :=
  if t.pc.toNat % 4 ≠ 0 then (.trap .align, s)
  else if bits t.pc 63 52 ≠ 0 then (.trap .protect, s)
  else
    match translate s t.ctx t.pc.toNat .fetch (!t.system) with
    | (.ok _, _, s) =>
      match (s.core (s.coreOf t)).lines.find? fun l => l.ctx = t.ctx && l.line = t.pc.toNat / 64 with
      | some l => (.word (BitVec.ofNat 32 (leNat ((l.bytes.drop (t.pc.toNat % 64)).take 4))), s)
      | none => (.miss, s)
    | (r, _, s) => (.trap (walkCause r), s)

/-- A miss: the line is asked for, and the thread waits for its fill (R57, R64). -/
def missLine (s : State) (tid : Nat) (t : Thread) : State :=
  let want := (t.ctx, t.pc.toNat / 64)
  let s := s.modCore (s.coreOf t) fun c => { c with fills := if c.fills.contains want then c.fills else c.fills ++ [want] }
  s.setThread tid { t with run := .waiting .line, waitedSlots := 0 }

/-- A thread holds a turn of an instruction that stands elsewhere. -/
def holdsStale (s : State) (tid : Nat) (pc : Word) : Bool :=
  (s.cores.any fun (_, c) => c.waiters.any fun w => w.tid = tid && w.pc ≠ pc) ||
  s.rims.any fun (_, r) => r.deferred.any fun d => d.tid = tid && d.loc.isNone && d.pc ≠ pc

/-- A thread that no longer issues the LDW or LDC it waited with gives up its turns: it has taken a trap or gone elsewhere, and
waits anew if it comes back (R67, R117). DEDUCED: log 79. -/
def dropStale (s : State) (tid : Nat) : State :=
  match s.thread? tid with
  | none => s
  | some t => if holdsStale s tid t.pc then dropTurns s tid else s

/-- What a slot issues. -/
inductive Issue where
  | idle (s : State)
  | instr (i : Instr) (s : State)
deriving DecidableEq, Repr

/-- The instruction that a thread issues (R19, R47, R64, R102, R140). -/
def issueThread (s : State) (tid : Nat) : Issue :=
  let s := dropStale (takeReport { s with cur := tid } tid) tid
  match s.thread? tid with
  | none => .idle s
  | some t =>
    match fetchAt s t with
    | (.trap c, s) => .idle (takeTrap s tid c t.pc false)
    | (.miss, s) => .idle (missLine s tid t)
    | (.word w, s) => match decode w with
      | .ok i => .instr i s
      | .error _ => .instr (.undefinedInstruction w) s

/-- A sequencer issues instructions (R298, R330). -/
def issuing (s : State) (lc : Nat) : Bool :=
  s.backed lc && !(s.core (s.phys lc)).stopped && (s.power = .running || s.power = .quiescing)

/-- One issue slot of a logical core (R62). The slot of a thread that misses its line or traps at its fetch counts as the one
that issued last (log 58). -/
def issueSlot (s : State) (lc : Nat) : Issue :=
  if !issuing s lc then .idle s else
  let s := openSlot s lc
  match pickThread s lc (s.core (s.phys lc)).lastSlot with
  | none => .idle s
  | some (i, tid) => issueThread (s.modCore (s.phys lc) fun c => { c with lastSlot := i }) tid

/-- A byte list in which the 32-bit word stands at an offset of a line. -/
def lineWith (off : Nat) (w : Nat) : List Byte :=
  (List.replicate off 0 ++ leBytes 4 w ++ List.replicate 64 0).take 64

/-- Place one instruction word where the next step fetches it: a thread on logical core 0 of cluster 0, ready in slot 0, whose
word stands in an instruction line; its core is backed, its page mapped, and the core's slot is the next move (log 8). -/
def placeWord (s : State) (w : Nat) : State :=
  let t := match s.thread? 1 with
    | some t => t
    | none => newThread s 0 0 (.resident 0) 0 0 0 true 0 none
  let t := { t with lcore := 0, seat := .resident 0, run := .ready, reports := [], sliceDue := false,
                    pc := w64 (t.pc.toNat / 4 * 4 % 2 ^ 52) }
  let e := s.lct 0
  let s := if s.backed 0 then s else s.setLct 0 { e with phys := 0, allocated := true, ctx := BitVec.ofNat 6 t.ctx }
  let s := tlbFill s t.ctx t.pc.toNat 0x3F 16
  let s := s.modCore (s.phys 0) fun c =>
    { c with lastSlot := 31, stopped := false,
             lines := { ctx := t.ctx, line := t.pc.toNat / 64, pline := t.pc.toNat / 64 % 1024, bytes := lineWith (t.pc.toNat % 64) w } :: c.lines }
  { s.setThread 1 t with schedule := [.slot 0], power := .running }

end Sys2Proof.Machine
end

