-- ==== Sys2Proof/Machine/System.lean ====
section
/-! DEFINITION. System instructions (R133, R61) and what a sequencer does of itself (R57, R59, R140). -/

namespace Sys2Proof.Machine

open Sys2Proof

/-- TRAP: SWTRAP after the instruction (R133, R137). -/
def execTrap (n : BitVec 7) (s : State) : Result :=
  perform s fun s t => .ok { Effect.onRegs s t id with after := some (.swtrap, n.setWidth 64, false) }

/-- BRK: BREAK at the instruction itself (R133, R139). -/
def execBrk (n : BitVec 7) (s : State) : Result :=
  perform s fun _ _ => trapWith .brk (n.setWidth 64)

/-- RETT: system privilege, inside a handler (R133). -/
def execRett (s : State) : Result :=
  perform s fun s t =>
    if !t.system then trapWith .privilege (instrWord .rett)
    else if !t.inTrap then trapWith .illegal (instrWord .rett)
    else .ok { Effect.onRegs s t returnFromTrap with pc := t.tpc }

/-- CSRR (R133). -/
def execCsrr (d : GReg) (csr : BitVec 7) (s : State) : Result :=
  perform s fun s t => .ok (.onRegs s t fun x => writeG x d (readCsr s s.cur t csr.toNat))

/-- CSRW (R133). -/
def execCsrw (d a : GReg) (csr : BitVec 7) (s : State) : Result :=
  perform s fun s t => csrAccess s t (.csrw d a csr) .write d a csr

/-- CSRS (R133). -/
def execCsrs (d a : GReg) (csr : BitVec 7) (s : State) : Result :=
  perform s fun s t => csrAccess s t (.csrs d a csr) .set d a csr

/-- CSRC (R133). -/
def execCsrc (d a : GReg) (csr : BitVec 7) (s : State) : Result :=
  perform s fun s t => csrAccess s t (.csrc d a csr) .clear d a csr

/-- SPAWN: a thread on the creator's logical core; a release (R55, R133). The thread's program counter is the target with bits
[1:0] zero, which a register base may have set (R50; DESIGN CHOICE, log 86). -/
def execSpawn (d a : GReg) (off : BitVec 12) (s : State) : Result :=
  perform s fun s t =>
    match drained s t with
    | .error e => .error e
    | .ok () =>
      let base := if a = 0 then t.pc else readG t a
      match createThread s t.ctx t.lcore (wordTarget base off) (w64 s.cur) 0 t.system t.tvec none with
      | some (tid, s) => .ok (.onRegs s t fun x => writeG x d (w64 tid))
      | none => .ok (.onRegs s t fun x => writeG x d 0)

/-- EXIT: the six steps of R61, once earlier stores have drained. -/
def execExit (s : State) : Result :=
  perform s fun s t =>
    match drained s t with
    | .error e => .error e
    | .ok () => (retireThread s s.cur false).map fun s => .onRegs s t id

/-- A spilled-ready thread exists on a core (R133). -/
def hasSpilled (s : State) (lc : Nat) : Bool := (oldestSpilled s lc).isSome

/-- YIELD: with a spilled-ready thread on the core the thread becomes spilled-ready and SLICE reloads; otherwise it only completes
(R133). DESIGN CHOICE (log 53): it is charged as it completes and SLICE reloads after that, to the full length; a SLICE trap that
the charge brought due stays due (R59). -/
def execYield (s : State) : Result :=
  match s.thread? s.cur with
  | none => .next s
  | some t =>
    let s' := finish s.cur t (Effect.onRegs s t id)
    if hasSpilled s t.lcore then
      .next (preemptThread (s'.modThread s.cur fun x =>
        { x with slice := sliceLen (s.ctx t.ctx), sliceDue := x.sliceDue && x.sliceTraps }) s.cur)
    else .next s'

/-- WAIT: counts issue slots of its sequencer from the slot after it issues; 0 completes at once (R133). -/
def execWait (a : GReg) (s : State) : Result :=
  perform s fun s t =>
    let n := bits (readG t a) 31 0
    if n = 0 ∨ (t.waitArmed ∧ t.waitLeft = 0) then .ok (.onRegs s t fun x => { x with waitArmed := false })
    else if t.waitArmed then .error (.wait .count s)
    else .error (.wait .count (s.modThread s.cur fun x => { x with waitArmed := true, waitLeft := n }))

/-- MIGRATE: records a request to exchange backings, which a GBAR generation honours; the thread's own core cancels (R133,
R284). -/
def execMigrate (a : GReg) (s : State) : Result :=
  perform s fun s t =>
    let ga := readG t a
    let T := 128 * (t.lcore / 128) + bits ga 6 0
    let e := s.lct T
    if !t.system then trapWith .privilege (instrWord (.migrate a))
    else if bits ga 63 7 ≠ 0 ∨ !e.allocated ∨ e.ctx.toNat ≠ t.ctx ∨ !s.backed T then trapWith .handle ga
    else if T = t.lcore then .ok (.onRegs s t fun x => { x with migrateTo := none })
    else .ok (.onRegs s t fun x => { x with migrateTo := some T })

/-- NOP (R133). -/
def execNop (s : State) : Result := regStep s id

/-- CHKERR: folds the completed work of the context; gd takes CIR (R133, R143). -/
def execChkerr (d : GReg) (s : State) : Result :=
  perform s fun s t =>
    let s := foldContext s t.ctx
    .ok (.onRegs s t fun x => writeG x d ((s.ctx t.ctx).cir.setWidth 64))

/-- WAKE_WORD: the thread, if it still waits for this reason, is ready to test its condition again (R57, R58). -/
def execWakeWord (n : Nat) (s : State) : Result :=
  match s.wakes[n]? with
  | none => .next s
  | some w =>
    let s := { s with wakes := s.wakes.eraseIdx n }
    match s.thread? w.tid with
    | some t => .next (if t.run = .waiting w.reason then endWait s w.tid else s)
    | none => .next s

/-- SLICE_EXPIRY (R59). -/
def execSliceExpiry (tid : Nat) (s : State) : Result := .next (expireSlice s tid)

/-- WAIT_COUNT_EXPIRY (R57, R133). -/
def execWaitCountExpiry (tid : Nat) (s : State) : Result := .next (expireWait s tid)

/-- IMPRECISE_REPORT: a report arrives, or the oldest is taken, a slice trap that is due coming first (R140; DESIGN CHOICE, log
11). -/
def execImpreciseReport (m : ReportMove) (s : State) : Result :=
  match m with
  | .deliver n =>
    match s.reports[n]? with
    | some (tid, r) => .next (deliverReport { s with reports := s.reports.eraseIdx n } tid r)
    | none => .next s
  | .take tid => .next (takeReport s tid)

/-- UNDEFINED_INSTRUCTION: a precise ILLEGAL with the word (R18, R47, R137). -/
def execUndefinedInstruction (w : W32) (s : State) : Result := .next (takeTrap s s.cur .illegal (w.setWidth 64) false)

end Sys2Proof.Machine
end

