-- ==== Sys2Proof/Machine/Vectors.lean ====
section
/-! DEFINITION. Vector instructions (R103 to R112). -/

namespace Sys2Proof.Machine

open Sys2Proof

/-- An operation on each element of two vectors (R104). -/
def vectorStep (op : LaneOp) (rnd : Rnd) (sat : Bool) (ty : Ty) (d a b : VReg) (s : State) : Result :=
  regStep s fun t => writeV t d (laneMap op ty rnd sat (readV t a) (readV t b) (readV t d))

/-- VADD (R105, R106). -/
def execVadd (rnd : Rnd) (sat : Bool) (ty : Ty) (d a b : VReg) (s : State) : Result :=
  vectorStep .add rnd sat ty d a b s

/-- VSUB (R105, R106). -/
def execVsub (rnd : Rnd) (sat : Bool) (ty : Ty) (d a b : VReg) (s : State) : Result :=
  vectorStep .sub rnd sat ty d a b s

/-- VMUL (R105, R106). -/
def execVmul (rnd : Rnd) (sat : Bool) (ty : Ty) (d a b : VReg) (s : State) : Result :=
  vectorStep .mul rnd sat ty d a b s

/-- VMIN (R105, R106). -/
def execVmin (rnd : Rnd) (sat : Bool) (ty : Ty) (d a b : VReg) (s : State) : Result :=
  vectorStep .min rnd sat ty d a b s

/-- VMAX (R105, R106). -/
def execVmax (rnd : Rnd) (sat : Bool) (ty : Ty) (d a b : VReg) (s : State) : Result :=
  vectorStep .max rnd sat ty d a b s

/-- VAND (R106). -/
def execVand (rnd : Rnd) (sat : Bool) (ty : Ty) (d a b : VReg) (s : State) : Result :=
  vectorStep .and rnd sat ty d a b s

/-- VOR (R106). -/
def execVor (rnd : Rnd) (sat : Bool) (ty : Ty) (d a b : VReg) (s : State) : Result :=
  vectorStep .or rnd sat ty d a b s

/-- VXOR (R106). -/
def execVxor (rnd : Rnd) (sat : Bool) (ty : Ty) (d a b : VReg) (s : State) : Result :=
  vectorStep .xor rnd sat ty d a b s

/-- VSHL (R106). -/
def execVshl (rnd : Rnd) (sat : Bool) (ty : Ty) (d a b : VReg) (s : State) : Result :=
  vectorStep .shl rnd sat ty d a b s

/-- VSHR (R106). -/
def execVshr (rnd : Rnd) (sat : Bool) (ty : Ty) (d a b : VReg) (s : State) : Result :=
  vectorStep .shr rnd sat ty d a b s

/-- VSRA (R106). -/
def execVsra (rnd : Rnd) (sat : Bool) (ty : Ty) (d a b : VReg) (s : State) : Result :=
  vectorStep .sra rnd sat ty d a b s

/-- VCMPEQ (R107). -/
def execVcmpeq (rnd : Rnd) (sat : Bool) (ty : Ty) (d a b : VReg) (s : State) : Result :=
  vectorStep .eq rnd sat ty d a b s

/-- VCMPLT (R107). -/
def execVcmplt (rnd : Rnd) (sat : Bool) (ty : Ty) (d a b : VReg) (s : State) : Result :=
  vectorStep .lt rnd sat ty d a b s

/-- VCMPLE (R107). -/
def execVcmple (rnd : Rnd) (sat : Bool) (ty : Ty) (d a b : VReg) (s : State) : Result :=
  vectorStep .le rnd sat ty d a b s

/-- VMULH (R106). -/
def execVmulh (rnd : Rnd) (sat : Bool) (ty : Ty) (d a b : VReg) (s : State) : Result :=
  vectorStep .mulh rnd sat ty d a b s

/-- VFMA: the product and the old vd are added exactly and rounded once (R105). -/
def execVfma (rnd : Rnd) (sat : Bool) (ty : Ty) (d a b : VReg) (s : State) : Result :=
  vectorStep .fma rnd sat ty d a b s

/-- VABS (R105, R106). -/
def execVabs (rnd : Rnd) (sat : Bool) (ty : Ty) (d a : VReg) (s : State) : Result :=
  vectorStep .abs rnd sat ty d a 0 s

/-- VNEG (R105, R106). -/
def execVneg (rnd : Rnd) (sat : Bool) (ty : Ty) (d a : VReg) (s : State) : Result :=
  vectorStep .neg rnd sat ty d a 0 s

/-- VEXP2 (R86). -/
def execVexp2 (rnd : Rnd) (sat : Bool) (ty : Ty) (d a : VReg) (s : State) : Result :=
  vectorStep .exp2 rnd sat ty d a 0 s

/-- VLOG2 (R87). -/
def execVlog2 (rnd : Rnd) (sat : Bool) (ty : Ty) (d a : VReg) (s : State) : Result :=
  vectorStep .log2 rnd sat ty d a 0 s

/-- VRCP (R88). -/
def execVrcp (rnd : Rnd) (sat : Bool) (ty : Ty) (d a : VReg) (s : State) : Result :=
  vectorStep .rcp rnd sat ty d a 0 s

/-- VRSQRT (R89). -/
def execVrsqrt (rnd : Rnd) (sat : Bool) (ty : Ty) (d a : VReg) (s : State) : Result :=
  vectorStep .rsqrt rnd sat ty d a 0 s

/-- VSEL: vd is the mask (R107). -/
def execVsel (_rnd : Rnd) (_sat : Bool) (ty : Ty) (d a b : VReg) (s : State) : Result :=
  regStep s fun t =>
    writeV t d (pack ty.width ((List.range ty.lanes).map fun e =>
      if elem ty.width (readV t d) e ≠ 0 then elem ty.width (readV t a) e else elem ty.width (readV t b) e))

/-- The elements of a conversion: those both types have are converted, the rest are zero (R109). -/
def convertLanes (st dt : Ty) (rnd : Rnd) (k : KeyReg) (c : BitVec 48) (x : Vec512) : Vec512 :=
  pack dt.width ((List.range dt.lanes).map fun e =>
    if e < min st.lanes dt.lanes then
      convert st dt rnd true (if rnd = .rs then (keyDraw k (c + BitVec.ofNat 48 e) 0).toNat else 0) (elem st.width x e)
    else 0)

/-- VCVT: with keyed rounding an invalid key register gives ILLEGAL with the register's word (R52, R109, R110). -/
def execVcvt (rnd : Rnd) (dt st : Ty) (d a : VReg) (k : KReg) (cg : BitVec 4) (s : State) : Result :=
  perform s fun s t =>
    let key := readK t k
    if rnd = .rs ∧ !key.valid then trapWith .illegal (keyWord0 key)
    else
      let c : BitVec 48 := (readG t (cg.setWidth 5)).setWidth 48
      .ok (.onRegs s t fun x => writeV x d (convertLanes st dt rnd key c (readV x a)))

/-- VPERM: an index past the last element gives zero (R111, R112). -/
def execVperm (ty : Ty) (d a b : VReg) (s : State) : Result :=
  regStep s fun t =>
    writeV t d (pack ty.width ((List.range ty.lanes).map fun e =>
      let i := elem ty.width (readV t b) e
      if i < ty.lanes then elem ty.width (readV t a) i else 0))

/-- VBCAST (R111). -/
def execVbcast (ty : Ty) (d : VReg) (g : GReg) (s : State) : Result :=
  regStep s fun t => writeV t d (pack ty.width (List.replicate ty.lanes (pattern ty (readG t g))))

/-- VINS: the other elements keep their bits (R111). -/
def execVins (ty : Ty) (d : VReg) (g : GReg) (e : BitVec 6) (s : State) : Result :=
  regStep s fun t =>
    writeV t d (pack ty.width ((List.range ty.lanes).map fun i =>
      if i = e.toNat then pattern ty (readG t g) else elem ty.width (readV t d) i))

/-- VEXT: sign-extended for a signed type, else zero-extended (R111). -/
def execVext (ty : Ty) (d : GReg) (a : VReg) (e : BitVec 6) (s : State) : Result :=
  regStep s fun t => writeG t d (extendTy ty (elem ty.width (readV t a) e.toNat))

/-- VROT: element n moves to element 0 (R111). -/
def execVrot (ty : Ty) (d a : VReg) (n : BitVec 6) (s : State) : Result :=
  regStep s fun t =>
    writeV t d (pack ty.width ((List.range ty.lanes).map fun e => elem ty.width (readV t a) ((e + n.toNat) % ty.lanes)))

/-- VRED: ascending order; the other elements become zero (R111). -/
def execVred (op : RedOp) (ty : Ty) (d a : VReg) (s : State) : Result :=
  regStep s fun t => writeV t d (pack ty.width [reduceList op ty (elems ty.width (readV t a))])

end Sys2Proof.Machine
end

