-- ==== Sys2Proof/Machine/Dispatch.lean ====
section
/-! DEFINITION. One arm per constructor of Instr: the meaning of each instruction and event. -/

namespace Sys2Proof.Machine

open Sys2Proof

def exec (i : Instr) (s : State) : Host.Outcome State Fault Refusal :=
  match i with
  | .add ty d a b => Sys2Proof.Machine.execAdd ty d a b s
  | .sub ty d a b => Sys2Proof.Machine.execSub ty d a b s
  | .mul ty d a b => Sys2Proof.Machine.execMul ty d a b s
  | .mulh ty d a b => Sys2Proof.Machine.execMulh ty d a b s
  | .div ty d a b => Sys2Proof.Machine.execDiv ty d a b s
  | .rem ty d a b => Sys2Proof.Machine.execRem ty d a b s
  | .adds ty d a b => Sys2Proof.Machine.execAdds ty d a b s
  | .subs ty d a b => Sys2Proof.Machine.execSubs ty d a b s
  | .and ty d a b => Sys2Proof.Machine.execAnd ty d a b s
  | .or ty d a b => Sys2Proof.Machine.execOr ty d a b s
  | .xor ty d a b => Sys2Proof.Machine.execXor ty d a b s
  | .andn ty d a b => Sys2Proof.Machine.execAndn ty d a b s
  | .sll ty d a b => Sys2Proof.Machine.execSll ty d a b s
  | .srl ty d a b => Sys2Proof.Machine.execSrl ty d a b s
  | .sra ty d a b => Sys2Proof.Machine.execSra ty d a b s
  | .rotl ty d a b => Sys2Proof.Machine.execRotl ty d a b s
  | .seq ty d a b => Sys2Proof.Machine.execSeq ty d a b s
  | .slt ty d a b => Sys2Proof.Machine.execSlt ty d a b s
  | .sle ty d a b => Sys2Proof.Machine.execSle ty d a b s
  | .min ty d a b => Sys2Proof.Machine.execMin ty d a b s
  | .max ty d a b => Sys2Proof.Machine.execMax ty d a b s
  | .sel ty d a b => Sys2Proof.Machine.execSel ty d a b s
  | .bfx ty d a b => Sys2Proof.Machine.execBfx ty d a b s
  | .bfi ty d a b => Sys2Proof.Machine.execBfi ty d a b s
  | .clz ty d a => Sys2Proof.Machine.execClz ty d a s
  | .popc ty d a => Sys2Proof.Machine.execPopc ty d a s
  | .addi d a imm => Sys2Proof.Machine.execAddi d a imm s
  | .andi d a imm => Sys2Proof.Machine.execAndi d a imm s
  | .ori d a imm => Sys2Proof.Machine.execOri d a imm s
  | .xori d a imm => Sys2Proof.Machine.execXori d a imm s
  | .slti d a imm => Sys2Proof.Machine.execSlti d a imm s
  | .lui d h imm => Sys2Proof.Machine.execLui d h imm s
  | .addpc d imm => Sys2Proof.Machine.execAddpc d imm s
  | .slli d a n => Sys2Proof.Machine.execSlli d a n s
  | .srli d a n => Sys2Proof.Machine.execSrli d a n s
  | .srai d a n => Sys2Proof.Machine.execSrai d a n s
  | .rotli d a n => Sys2Proof.Machine.execRotli d a n s
  | .beq a b off => Sys2Proof.Machine.execBeq a b off s
  | .bne a b off => Sys2Proof.Machine.execBne a b off s
  | .blt a b off => Sys2Proof.Machine.execBlt a b off s
  | .bge a b off => Sys2Proof.Machine.execBge a b off s
  | .bltn a b off => Sys2Proof.Machine.execBltn a b off s
  | .bgen a b off => Sys2Proof.Machine.execBgen a b off s
  | .j off => Sys2Proof.Machine.execJ off s
  | .jl off => Sys2Proof.Machine.execJl off s
  | .jlr d a imm => Sys2Proof.Machine.execJlr d a imm s
  | .loop a off => Sys2Proof.Machine.execLoop a off s
  | .ld q size d base off => Sys2Proof.Machine.execLd q size d base off s
  | .st q size d base off => Sys2Proof.Machine.execSt q size d base off s
  | .ldv q v base off => Sys2Proof.Machine.execLdv q v base off s
  | .stv q v base off => Sys2Proof.Machine.execStv q v base off s
  | .ldw size d base off => Sys2Proof.Machine.execLdw size d base off s
  | .ldc size d base off => Sys2Proof.Machine.execLdc size d base off s
  | .stf size d base off => Sys2Proof.Machine.execStf size d base off s
  | .clrf base off => Sys2Proof.Machine.execClrf base off s
  | .amo op ord ty d a b => Sys2Proof.Machine.execAmo op ord ty d a b s
  | .fence kind scope => Sys2Proof.Machine.execFence kind scope s
  | .rst ord ty a b => Sys2Proof.Machine.execRst ord ty a b s
  | .rat op ord ty d a b => Sys2Proof.Machine.execRat op ord ty d a b s
  | .send ch b => Sys2Proof.Machine.execSend ch b s
  | .recv d ch => Sys2Proof.Machine.execRecv d ch s
  | .bindIn ch b slot => Sys2Proof.Machine.execBindIn ch b slot s
  | .bindOut ch b slot => Sys2Proof.Machine.execBindOut ch b slot s
  | .unbind ch => Sys2Proof.Machine.execUnbind ch s
  | .poll d ch => Sys2Proof.Machine.execPoll d ch s
  | .bindPort ch b => Sys2Proof.Machine.execBindPort ch b s
  | .join d a => Sys2Proof.Machine.execJoin d a s
  | .leave a => Sys2Proof.Machine.execLeave a s
  | .gbar a => Sys2Proof.Machine.execGbar a s
  | .gsize d a => Sys2Proof.Machine.execGsize d a s
  | .grank d a => Sys2Proof.Machine.execGrank d a s
  | .xnew d a => Sys2Proof.Machine.execXnew d a s
  | .xfree a => Sys2Proof.Machine.execXfree a s
  | .xreq d a b => Sys2Proof.Machine.execXreq d a b s
  | .xwait a => Sys2Proof.Machine.execXwait a s
  | .xtry d a => Sys2Proof.Machine.execXtry d a s
  | .xgive a b => Sys2Proof.Machine.execXgive a b s
  | .xswap a b => Sys2Proof.Machine.execXswap a b s
  | .xdrop a => Sys2Proof.Machine.execXdrop a s
  | .xrel a => Sys2Proof.Machine.execXrel a s
  | .xstat d a => Sys2Proof.Machine.execXstat d a s
  | .kset k a b => Sys2Proof.Machine.execKset k a b s
  | .kstep k a => Sys2Proof.Machine.execKstep k a s
  | .kget d k part => Sys2Proof.Machine.execKget d k part s
  | .rdraw d k b index => Sys2Proof.Machine.execRdraw d k b index s
  | .bcinit a b => Sys2Proof.Machine.execBcinit a b s
  | .bcpost a b => Sys2Proof.Machine.execBcpost a b s
  | .bcwait d a => Sys2Proof.Machine.execBcwait d a s
  | .cfgld d a b => Sys2Proof.Machine.execCfgld d a b s
  | .cfgswap a => Sys2Proof.Machine.execCfgswap a s
  | .cfgdrop a => Sys2Proof.Machine.execCfgdrop a s
  | .launch wave a b => Sys2Proof.Machine.execLaunch wave a b s
  | .lwait a => Sys2Proof.Machine.execLwait a s
  | .inject a b => Sys2Proof.Machine.execInject a b s
  | .mark a => Sys2Proof.Machine.execMark a s
  | .copy d a => Sys2Proof.Machine.execCopy d a s
  | .cpwait a => Sys2Proof.Machine.execCpwait a s
  | .rate d a b => Sys2Proof.Machine.execRate d a b s
  | .solve d a => Sys2Proof.Machine.execSolve d a s
  | .rstat d a b => Sys2Proof.Machine.execRstat d a b s
  | .trap n => Sys2Proof.Machine.execTrap n s
  | .rett => Sys2Proof.Machine.execRett s
  | .csrr d csr => Sys2Proof.Machine.execCsrr d csr s
  | .csrw d a csr => Sys2Proof.Machine.execCsrw d a csr s
  | .csrs d a csr => Sys2Proof.Machine.execCsrs d a csr s
  | .csrc d a csr => Sys2Proof.Machine.execCsrc d a csr s
  | .spawn d a off => Sys2Proof.Machine.execSpawn d a off s
  | .exit => Sys2Proof.Machine.execExit s
  | .yield => Sys2Proof.Machine.execYield s
  | .wait a => Sys2Proof.Machine.execWait a s
  | .waitany d a => Sys2Proof.Machine.execWaitany d a s
  | .migrate a => Sys2Proof.Machine.execMigrate a s
  | .brk n => Sys2Proof.Machine.execBrk n s
  | .nop => Sys2Proof.Machine.execNop s
  | .chkerr d => Sys2Proof.Machine.execChkerr d s
  | .vadd rnd sat ty d a b => Sys2Proof.Machine.execVadd rnd sat ty d a b s
  | .vsub rnd sat ty d a b => Sys2Proof.Machine.execVsub rnd sat ty d a b s
  | .vmul rnd sat ty d a b => Sys2Proof.Machine.execVmul rnd sat ty d a b s
  | .vfma rnd sat ty d a b => Sys2Proof.Machine.execVfma rnd sat ty d a b s
  | .vmin rnd sat ty d a b => Sys2Proof.Machine.execVmin rnd sat ty d a b s
  | .vmax rnd sat ty d a b => Sys2Proof.Machine.execVmax rnd sat ty d a b s
  | .vabs rnd sat ty d a => Sys2Proof.Machine.execVabs rnd sat ty d a s
  | .vneg rnd sat ty d a => Sys2Proof.Machine.execVneg rnd sat ty d a s
  | .vand rnd sat ty d a b => Sys2Proof.Machine.execVand rnd sat ty d a b s
  | .vor rnd sat ty d a b => Sys2Proof.Machine.execVor rnd sat ty d a b s
  | .vxor rnd sat ty d a b => Sys2Proof.Machine.execVxor rnd sat ty d a b s
  | .vshl rnd sat ty d a b => Sys2Proof.Machine.execVshl rnd sat ty d a b s
  | .vshr rnd sat ty d a b => Sys2Proof.Machine.execVshr rnd sat ty d a b s
  | .vsra rnd sat ty d a b => Sys2Proof.Machine.execVsra rnd sat ty d a b s
  | .vcmpeq rnd sat ty d a b => Sys2Proof.Machine.execVcmpeq rnd sat ty d a b s
  | .vcmplt rnd sat ty d a b => Sys2Proof.Machine.execVcmplt rnd sat ty d a b s
  | .vcmple rnd sat ty d a b => Sys2Proof.Machine.execVcmple rnd sat ty d a b s
  | .vsel rnd sat ty d a b => Sys2Proof.Machine.execVsel rnd sat ty d a b s
  | .vexp2 rnd sat ty d a => Sys2Proof.Machine.execVexp2 rnd sat ty d a s
  | .vlog2 rnd sat ty d a => Sys2Proof.Machine.execVlog2 rnd sat ty d a s
  | .vrcp rnd sat ty d a => Sys2Proof.Machine.execVrcp rnd sat ty d a s
  | .vrsqrt rnd sat ty d a => Sys2Proof.Machine.execVrsqrt rnd sat ty d a s
  | .vmulh rnd sat ty d a b => Sys2Proof.Machine.execVmulh rnd sat ty d a b s
  | .vcvt rnd dt st d a k cg => Sys2Proof.Machine.execVcvt rnd dt st d a k cg s
  | .vperm ty d a b => Sys2Proof.Machine.execVperm ty d a b s
  | .vbcast ty d g => Sys2Proof.Machine.execVbcast ty d g s
  | .vins ty d g e => Sys2Proof.Machine.execVins ty d g e s
  | .vext ty d a e => Sys2Proof.Machine.execVext ty d a e s
  | .vrot ty d a n => Sys2Proof.Machine.execVrot ty d a n s
  | .vred op ty d a => Sys2Proof.Machine.execVred op ty d a s
  | .wakeWord n => Sys2Proof.Machine.execWakeWord n s
  | .sliceExpiry tid => Sys2Proof.Machine.execSliceExpiry tid s
  | .waitCountExpiry tid => Sys2Proof.Machine.execWaitCountExpiry tid s
  | .instructionLineFill core n => Sys2Proof.Machine.execInstructionLineFill core n s
  | .storeDrain core n => Sys2Proof.Machine.execStoreDrain core n s
  | .impreciseReport m => Sys2Proof.Machine.execImpreciseReport m s
  | .releaseWalk cl obj => Sys2Proof.Machine.execReleaseWalk cl obj s
  | .launchAdmission cl => Sys2Proof.Machine.execLaunchAdmission cl s
  | .launchEnd cl h => Sys2Proof.Machine.execLaunchEnd cl h s
  | .checkpointComplete cl h => Sys2Proof.Machine.execCheckpointComplete cl h s
  | .preemptionComplete cl h => Sys2Proof.Machine.execPreemptionComplete cl h s
  | .copyTile cl n => Sys2Proof.Machine.execCopyTile cl n s
  | .copyForward core => Sys2Proof.Machine.execCopyForward core s
  | .monitorWindowEnd core temp => Sys2Proof.Machine.execMonitorWindowEnd core temp s
  | .regulatorSettled cl => Sys2Proof.Machine.execRegulatorSettled cl s
  | .settleTimeout cl => Sys2Proof.Machine.execSettleTimeout cl s
  | .telemetrySample cl codes => Sys2Proof.Machine.execTelemetrySample cl codes s
  | .droop input => Sys2Proof.Machine.execDroop input s
  | .droopRecovery input => Sys2Proof.Machine.execDroopRecovery input s
  | .inputBelow38V input => Sys2Proof.Machine.execInputBelow38V input s
  | .quiesce input => Sys2Proof.Machine.execQuiesce input s
  | .sequencerStop timeUp => Sys2Proof.Machine.execSequencerStop timeUp s
  | .inputRestored input => Sys2Proof.Machine.execInputRestored input s
  | .holdUpExhausted => Sys2Proof.Machine.execHoldUpExhausted s
  | .thermalTrip core temp => Sys2Proof.Machine.execThermalTrip core temp s
  | .capFloorTimeout => Sys2Proof.Machine.execCapFloorTimeout s
  | .replicaFailure core => Sys2Proof.Machine.execReplicaFailure core s
  | .configScrub loc err => Sys2Proof.Machine.execConfigScrub loc err s
  | .configReload cl h => Sys2Proof.Machine.execConfigReload cl h s
  | .tileSwap loc => Sys2Proof.Machine.execTileSwap loc s
  | .tileConfigToken cl h => Sys2Proof.Machine.execTileConfigToken cl h s
  | .loadComplete cl h => Sys2Proof.Machine.execLoadComplete cl h s
  | .solveComplete tid => Sys2Proof.Machine.execSolveComplete tid s
  | .stageFiring loc stage => Sys2Proof.Machine.execStageFiring loc stage s
  | .switchForward loc word => Sys2Proof.Machine.execSwitchForward loc word s
  | .scratchpadWrite loc => Sys2Proof.Machine.execScratchpadWrite loc s
  | .streamBufferPush loc => Sys2Proof.Machine.execStreamBufferPush loc s
  | .streamBufferPop loc => Sys2Proof.Machine.execStreamBufferPop loc s
  | .atomicPipelineUpdate loc => Sys2Proof.Machine.execAtomicPipelineUpdate loc s
  | .mandolineWindow loc => Sys2Proof.Machine.execMandolineWindow loc s
  | .controllerPermit loc => Sys2Proof.Machine.execControllerPermit loc s
  | .controllerDone loc => Sys2Proof.Machine.execControllerDone loc s
  | .steer loc node => Sys2Proof.Machine.execSteer loc node s
  | .merge loc node => Sys2Proof.Machine.execMerge loc node s
  | .loopCarry loc node => Sys2Proof.Machine.execLoopCarry loc node s
  | .spoutReadRound loc => Sys2Proof.Machine.execSpoutReadRound loc s
  | .spoutWriteRound loc => Sys2Proof.Machine.execSpoutWriteRound loc s
  | .spoutReinject loc => Sys2Proof.Machine.execSpoutReinject loc s
  | .indirectGather loc => Sys2Proof.Machine.execIndirectGather loc s
  | .networkPortTransfer loc => Sys2Proof.Machine.execNetworkPortTransfer loc s
  | .translationWalk rim n => Sys2Proof.Machine.execTranslationWalk rim n s
  | .invalidateComplete => Sys2Proof.Machine.execInvalidateComplete s
  | .memoryAtomic n => Sys2Proof.Machine.execMemoryAtomic n s
  | .memoryReply core reply => Sys2Proof.Machine.execMemoryReply core reply s
  | .dieLinkFlit link flit => Sys2Proof.Machine.execDieLinkFlit link flit s
  | .peerFlit link bytes => Sys2Proof.Machine.execPeerFlit link bytes s
  | .linkRetrain link lockLost failed => Sys2Proof.Machine.execLinkRetrain link lockLost failed s
  | .messageTransit n => Sys2Proof.Machine.execMessageTransit n s
  | .peerRst n => Sys2Proof.Machine.execPeerRst n s
  | .peerRat n => Sys2Proof.Machine.execPeerRat n s
  | .peerCopyData n => Sys2Proof.Machine.execPeerCopyData n s
  | .peerReducingData n => Sys2Proof.Machine.execPeerReducingData n s
  | .peerChannelToken n => Sys2Proof.Machine.execPeerChannelToken n s
  | .acknowledgement n => Sys2Proof.Machine.execAcknowledgement n s
  | .ratReply n => Sys2Proof.Machine.execRatReply n s
  | .horizon n => Sys2Proof.Machine.execHorizon n s
  | .replayTimeout chip => Sys2Proof.Machine.execReplayTimeout chip s
  | .powerOn report => Sys2Proof.Machine.execPowerOn report s
  | .reset => Sys2Proof.Machine.execReset s
  | .clearFaultRecord => Sys2Proof.Machine.execClearFaultRecord s
  | .invalidateContext => Sys2Proof.Machine.execInvalidateContext s
  | .invalidateRange => Sys2Proof.Machine.execInvalidateRange s
  | .resetContext => Sys2Proof.Machine.execResetContext s
  | .cap v => Sys2Proof.Machine.execCap v s
  | .hbeat v => Sys2Proof.Machine.execHbeat v s
  | .preempt v => Sys2Proof.Machine.execPreempt v s
  | .resume v => Sys2Proof.Machine.execResume v s
  | .fqresume v => Sys2Proof.Machine.execFqresume v s
  | .lctWrite v => Sys2Proof.Machine.execLctWrite v s
  | .newctl v => Sys2Proof.Machine.execNewctl v s
  | .svcrsp => Sys2Proof.Machine.execSvcrsp s
  | .verifyImage src => Sys2Proof.Machine.execVerifyImage src s
  | .attestationQuote src => Sys2Proof.Machine.execAttestationQuote src s
  | .writeEntry src => Sys2Proof.Machine.execWriteEntry src s
  | .readFabricState src => Sys2Proof.Machine.execReadFabricState src s
  | .restoreFabricState src => Sys2Proof.Machine.execRestoreFabricState src s
  | .publishHorizon src => Sys2Proof.Machine.execPublishHorizon src s
  | .setRetentionLog src => Sys2Proof.Machine.execSetRetentionLog src s
  | .installGeneralFirmware src => Sys2Proof.Machine.execInstallGeneralFirmware src s
  | .ingressTailWrite win v => Sys2Proof.Machine.execIngressTailWrite win v s
  | .egressHeadWrite win v => Sys2Proof.Machine.execEgressHeadWrite win v s
  | .attachmentWrite egress win v => Sys2Proof.Machine.execAttachmentWrite egress win v s
  | .ingressPush win => Sys2Proof.Machine.execIngressPush win s
  | .egressSlotWrite win => Sys2Proof.Machine.execEgressSlotWrite win s
  | .apertureRead region off len => Sys2Proof.Machine.execApertureRead region off len s
  | .apertureWrite fn off bytes => Sys2Proof.Machine.execApertureWrite fn off bytes s
  | .msixUnmask fn vec => Sys2Proof.Machine.execMsixUnmask fn vec s
  | .registerWrite w => Sys2Proof.Machine.execRegisterWrite w s
  | .undefinedInstruction w => Sys2Proof.Machine.execUndefinedInstruction w s
  | .occupancyExchange loc word => Sys2Proof.Machine.execOccupancyExchange loc word s
  | .linkTrained link lanes expected => Sys2Proof.Machine.execLinkTrained link lanes expected s
  | .potZeroingComplete core => Sys2Proof.Machine.execPotZeroingComplete core s
  | .ceilingRaise cl budget ceilings => Sys2Proof.Machine.execCeilingRaise cl budget ceilings s

end Sys2Proof.Machine
end

