-- ==== Sys2Proof/Machine/Schedule.lean ====
section
/-! DEFINITION. Which agent moves when the schedule says nothing (log 1): the events that the machine has outstanding take
turns with the issue slots of the cores that hold threads. -/

namespace Sys2Proof.Machine

open Sys2Proof

/-- A self-test that finds nothing bad (R296). -/
def SelfTest.clean : SelfTest := { input := 4800, linksTrain := true, memoryTrains := true, bad := [], calib := [] }

/-- n events, numbered from 0. -/
def upTo (n : Nat) (f : Nat → Instr) : List Instr := (List.range n).map f

/-- What a sequencer and its core may do next. -/
def coreEvents (c : Nat) (k : Core) : List Instr :=
  upTo k.fills.length (.instructionLineFill c) ++ upTo k.stores.length (.storeDrain c) ++
  upTo k.replies.length (fun n => .memoryReply c { n := n, err := .clean }) ++ (if k.held = [] then [] else [.copyForward c]) ++
  (if k.zeroing.isSome then [.potZeroingComplete c] else [])

/-- What the element of a configuration may do next. -/
def elementEvents (l : TileLoc) (k : TileKind) : List Instr :=
  match k with
  | .pan gs => (upTo gs.length fun i => .stageFiring l (i + 1)) ++ [.controllerPermit l]
  | .pass => []
  | .pot (.scratch _) => [.scratchpadWrite l, .controllerPermit l]
  | .pot (.stream _ _) => [.streamBufferPush l, .streamBufferPop l, .controllerPermit l]
  | .pot (.atomic _ _ _) => [.atomicPipelineUpdate l, .controllerPermit l]
  | .pot (.mandoline _ _ _ _ _) => [.mandolineWindow l, .controllerPermit l]
  | .pot (.host ns) =>
    [.controllerPermit l, .controllerDone l] ++ upTo ns.length (.steer l) ++ upTo ns.length (.merge l) ++ upTo ns.length (.loopCarry l)
  | .edge (.spout w _ _ _ _ _) => if w then [.spoutWriteRound l] else [.spoutReadRound l, .spoutReinject l]
  | .edge (.port _ _ _ _ _) => [.networkPortTransfer l, .occupancyExchange l 12]
  | .edge (.gather _ _ _ _ _ _ _ _) => [.indirectGather l]

/-- What a tile may do next. -/
def tileEvents (l : TileLoc) (t : Tile) : List Instr :=
  (if t.armed then [.tileSwap l] else []) ++
  (match t.active with
   | none => []
   | some c => elementEvents l c.kind ++ upTo c.switches.length (.switchForward l) ++
       upTo c.switches.length (.occupancyExchange l))

/-- What a launch may do next. -/
def launchEvents (cl h : Nat) (v : Launch) : List Instr :=
  if v.state = .running then [.launchEnd cl h, .checkpointComplete cl h, .preemptionComplete cl h] else []

/-- What a cluster's units may do next. -/
def clusterEvents (cl : Nat) (c : Cluster) : List Instr :=
  (c.objects.filterMap fun (n, o) => if o.walking then some (.releaseWalk cl n) else none) ++
  (if c.queues.any fun (_, q) => q ≠ [] then [.launchAdmission cl] else []) ++
  (c.handles.flatMap fun (h, x) => match x.state with
    | .loading => [.tileConfigToken cl h, .loadComplete cl h]
    | .frozen => [.configReload cl h]
    | _ => []) ++
  (c.launches.flatMap fun (h, v) => launchEvents cl h v) ++
  (c.copies.filterMap fun (n, x) => if x.done then none else some (.copyTile cl n)) ++
  (if c.step.isSome then [.regulatorSettled cl] else [])

/-- What a message that has arrived asks for (R355). -/
def messageEvent (n : Nat) (m : Msg) : Instr :=
  match m.type.toNat with
  | 0 => .peerRst n
  | 1 => .peerRat n
  | 2 => .peerCopyData n
  | 3 => .peerReducingData n
  | 4 => .peerChannelToken n
  | 5 => .acknowledgement n
  | 6 => .ratReply n
  | _ => .horizon n

/-- What the fabric and the rim dies may do next. -/
def fabricEvents (s : State) : List Instr :=
  (s.fabric.inbox.zipIdx.map fun (m, n) => messageEvent n m) ++ upTo s.fabric.transit.length .messageTransit ++
  (s.fabric.ports.flatMap fun (n, p) => match p.cfg with
    | some c => elementEvents { core := 1000, tile := n } (.edge c)
    | none => []) ++
  (s.rims.flatMap fun (i, r) => upTo r.walks.length (.translationWalk i)) ++
  if s.contexts.any fun (_, c) => c.invBusy.isSome then [.invalidateComplete] else []

/-- The steps of the service channel. -/
def serviceEvents (src : SvcSrc) : List Instr :=
  [.verifyImage src, .attestationQuote src, .writeEntry src, .readFabricState src, .restoreFabricState src,
   .publishHorizon src, .setRetentionLog src, .installGeneralFirmware src]

/-- What the host's windows and the trusted firmware may do next. -/
def hostEvents (s : State) : List Instr :=
  (s.ingress.map fun (n, _) => .ingressPush n) ++ (s.egress.map fun (n, _) => .egressSlotWrite n) ++
  (if s.mgmt.svcReq = [] then [] else serviceEvents .host) ++
  s.trivet.requests.flatMap fun (n, l) => if l = [] then [] else serviceEvents (.thread n)

/-- What the threads wait for that is on its way to them. -/
def threadEvents (s : State) : List Instr :=
  upTo s.wakes.length .wakeWord ++ (upTo s.reports.length fun n => .impreciseReport (.deliver n)) ++
  upTo s.atomics.length .memoryAtomic ++
  s.threads.filterMap fun (tid, t) => if t.run = .waiting .solve then some (.solveComplete tid) else none

/-- The events that the machine has outstanding, by what the state holds: the steps of its own agents (log 1). -/
def pendingEvents (s : State) : List Instr :=
  threadEvents s ++ (s.cores.flatMap fun (c, k) => coreEvents c k ++ k.tiles.flatMap fun (n, t) => tileEvents { core := c, tile := n } t) ++
  (s.clusters.flatMap fun (cl, c) => clusterEvents cl c) ++ fabricEvents s ++ hostEvents s

/-- The logical cores that hold threads, in rising order. -/
def busyCores (s : State) : List Nat := s.threads.foldl (fun cs (_, t) => nsAdd cs t.lcore) []

/-- The next busy core from a number on, in cyclic order. -/
def nextCore (s : State) (from_ : Nat) : Option Nat :=
  let cs := busyCores s
  match cs.find? fun c => from_ ≤ c with
  | some c => some c
  | none => cs.head?

/-- The move when the schedule is empty, with the state that remembers the turn (log 1). -/
def defaultMove (s : State) : Move × State :=
  if s.power = .off then (.event (.powerOn SelfTest.clean), s) else
  let es := pendingEvents s
  let s' := { s with rota := s.rota + 1 }
  match es[s.rota / 2 % es.length]?, nextCore s s.focus with
  | some e, none => (.event e, s')
  | some e, some c => if s.rota % 2 = 0 then (.event e, s') else (.slot c, { s' with focus := c + 1 })
  | none, some c => (.slot c, { s' with focus := c + 1 })
  | none, none => (.slot 0, s')

/-- The move that comes next and the state without it. -/
def nextMove (s : State) : Move × State :=
  match s.schedule with
  | m :: r => (m, { s with schedule := r })
  | [] => defaultMove s

end Sys2Proof.Machine
end

