-- ==== Sys2Proof/Machine/Step.lean ====
section
/-! DEFINITION. One step of the machine: the move that comes next is an event, or one issue slot of a core (R62). -/

namespace Sys2Proof.Machine

open Sys2Proof

/-- One issue slot of a logical core: the instruction it issues runs (R62). -/
def slotStep (s : State) (lc : Nat) : Host.Outcome State Fault Refusal :=
  match issueSlot s lc with
  | .idle s' => .next s'
  | .instr i s' => exec i s'

/-- One step. -/
def step (s : State) : Host.Outcome State Fault Refusal :=
  match nextMove s with
  | (.event i, s') => exec i s'
  | (.slot lc, s') => slotStep s' lc

/-- The state with an instruction placed where the next step fetches it; an instruction is one 32-bit word (R16). -/
def State.withFetchWord (s : State) (_nbits w : Nat) : State := placeWord s (w % 2 ^ 32)

end Sys2Proof.Machine
end

