-- ==== Sys2Proof/Laws/Codec.lean ====
section
/-! SUPPORT. What the fields of an encoded word are, and what a rejected or accepted decoding says: the lemmas from which the round
trip of every instruction follows. -/

namespace Sys2Proof

/-- The value of two bit strings side by side. -/
theorem toNat_cat {n m : Nat} (x : BitVec n) (y : BitVec m) : (x ++ y).toNat = x.toNat * 2 ^ m + y.toNat := by
  rw [BitVec.toNat_append, ← Nat.shiftLeft_add_eq_or_of_lt y.isLt, Nat.shiftLeft_eq]

/-- The value of a field. -/
theorem field_toNat (w : W32) (lo n : Nat) : (field w lo n).toNat = w.toNat / 2 ^ lo % 2 ^ n := by
  simp [field, BitVec.extractLsb'_toNat, Nat.shiftRight_eq_div_pow]

/-- A field is known from the word's value. -/
theorem field_eq {w : W32} {lo n : Nat} {x : BitVec n} (h : w.toNat / 2 ^ lo % 2 ^ n = x.toNat) : field w lo n = x :=
  BitVec.eq_of_toNat_eq (by rw [field_toNat, h])

/-- The value of a word of the format. -/
theorem packT3_toNat (op : BitVec 6) (d a b : BitVec 5) (fn : BitVec 7) (ty : BitVec 4) :
    (packT3 op d a b fn ty).toNat = ((((op.toNat * 32 + d.toNat) * 32 + a.toNat) * 32 + b.toNat) * 128 + fn.toNat) * 16 + ty.toNat := by
  refine (toNat_cat (op ++ d ++ a ++ b ++ fn) ty).trans ?_
  simp only [toNat_cat, Nat.reducePow]

@[simp] theorem packT3_field_26_6 (op : BitVec 6) (d a b : BitVec 5) (fn : BitVec 7) (ty : BitVec 4) :
    field (packT3 op d a b fn ty) 26 6 = op :=
  field_eq (by rw [packT3_toNat]; simp; omega)
@[simp] theorem packT3_field_21_5 (op : BitVec 6) (d a b : BitVec 5) (fn : BitVec 7) (ty : BitVec 4) :
    field (packT3 op d a b fn ty) 21 5 = d :=
  field_eq (by rw [packT3_toNat]; simp; omega)
@[simp] theorem packT3_field_16_5 (op : BitVec 6) (d a b : BitVec 5) (fn : BitVec 7) (ty : BitVec 4) :
    field (packT3 op d a b fn ty) 16 5 = a :=
  field_eq (by rw [packT3_toNat]; simp; omega)
@[simp] theorem packT3_field_11_5 (op : BitVec 6) (d a b : BitVec 5) (fn : BitVec 7) (ty : BitVec 4) :
    field (packT3 op d a b fn ty) 11 5 = b :=
  field_eq (by rw [packT3_toNat]; simp; omega)
@[simp] theorem packT3_field_4_7 (op : BitVec 6) (d a b : BitVec 5) (fn : BitVec 7) (ty : BitVec 4) :
    field (packT3 op d a b fn ty) 4 7 = fn :=
  field_eq (by rw [packT3_toNat]; simp; omega)
@[simp] theorem packT3_field_0_4 (op : BitVec 6) (d a b : BitVec 5) (fn : BitVec 7) (ty : BitVec 4) :
    field (packT3 op d a b fn ty) 0 4 = ty :=
  field_eq (by rw [packT3_toNat]; simp; omega)

/-- The value of a word of the format. -/
theorem packAtom_toNat (op : BitVec 6) (d a b : BitVec 5) (ord : BitVec 3) (fn ty : BitVec 4) :
    (packAtom op d a b ord fn ty).toNat = (((((op.toNat * 32 + d.toNat) * 32 + a.toNat) * 32 + b.toNat) * 8 + ord.toNat) * 16 + fn.toNat) * 16 + ty.toNat := by
  refine (toNat_cat (op ++ d ++ a ++ b ++ ord ++ fn) ty).trans ?_
  simp only [toNat_cat, Nat.reducePow]

@[simp] theorem packAtom_field_26_6 (op : BitVec 6) (d a b : BitVec 5) (ord : BitVec 3) (fn ty : BitVec 4) :
    field (packAtom op d a b ord fn ty) 26 6 = op :=
  field_eq (by rw [packAtom_toNat]; simp; omega)
@[simp] theorem packAtom_field_21_5 (op : BitVec 6) (d a b : BitVec 5) (ord : BitVec 3) (fn ty : BitVec 4) :
    field (packAtom op d a b ord fn ty) 21 5 = d :=
  field_eq (by rw [packAtom_toNat]; simp; omega)
@[simp] theorem packAtom_field_16_5 (op : BitVec 6) (d a b : BitVec 5) (ord : BitVec 3) (fn ty : BitVec 4) :
    field (packAtom op d a b ord fn ty) 16 5 = a :=
  field_eq (by rw [packAtom_toNat]; simp; omega)
@[simp] theorem packAtom_field_11_5 (op : BitVec 6) (d a b : BitVec 5) (ord : BitVec 3) (fn ty : BitVec 4) :
    field (packAtom op d a b ord fn ty) 11 5 = b :=
  field_eq (by rw [packAtom_toNat]; simp; omega)
@[simp] theorem packAtom_field_8_3 (op : BitVec 6) (d a b : BitVec 5) (ord : BitVec 3) (fn ty : BitVec 4) :
    field (packAtom op d a b ord fn ty) 8 3 = ord :=
  field_eq (by rw [packAtom_toNat]; simp; omega)
@[simp] theorem packAtom_field_4_4 (op : BitVec 6) (d a b : BitVec 5) (ord : BitVec 3) (fn ty : BitVec 4) :
    field (packAtom op d a b ord fn ty) 4 4 = fn :=
  field_eq (by rw [packAtom_toNat]; simp; omega)
@[simp] theorem packAtom_field_0_4 (op : BitVec 6) (d a b : BitVec 5) (ord : BitVec 3) (fn ty : BitVec 4) :
    field (packAtom op d a b ord fn ty) 0 4 = ty :=
  field_eq (by rw [packAtom_toNat]; simp; omega)

/-- The value of a word of the format. -/
theorem packTI_toNat (op : BitVec 6) (d a : BitVec 5) (imm : BitVec 16) :
    (packTI op d a imm).toNat = ((op.toNat * 32 + d.toNat) * 32 + a.toNat) * 65536 + imm.toNat := by
  refine (toNat_cat (op ++ d ++ a) imm).trans ?_
  simp only [toNat_cat, Nat.reducePow]

@[simp] theorem packTI_field_26_6 (op : BitVec 6) (d a : BitVec 5) (imm : BitVec 16) :
    field (packTI op d a imm) 26 6 = op :=
  field_eq (by rw [packTI_toNat]; simp; omega)
@[simp] theorem packTI_field_21_5 (op : BitVec 6) (d a : BitVec 5) (imm : BitVec 16) :
    field (packTI op d a imm) 21 5 = d :=
  field_eq (by rw [packTI_toNat]; simp; omega)
@[simp] theorem packTI_field_16_5 (op : BitVec 6) (d a : BitVec 5) (imm : BitVec 16) :
    field (packTI op d a imm) 16 5 = a :=
  field_eq (by rw [packTI_toNat]; simp; omega)
@[simp] theorem packTI_field_0_16 (op : BitVec 6) (d a : BitVec 5) (imm : BitVec 16) :
    field (packTI op d a imm) 0 16 = imm :=
  field_eq (by rw [packTI_toNat]; simp; omega)

/-- The value of a word of the format. -/
theorem packTJ_toNat (op : BitVec 6) (off : BitVec 26) :
    (packTJ op off).toNat = op.toNat * 67108864 + off.toNat := by
  exact (toNat_cat op off).trans (by simp)

@[simp] theorem packTJ_field_26_6 (op : BitVec 6) (off : BitVec 26) :
    field (packTJ op off) 26 6 = op :=
  field_eq (by rw [packTJ_toNat]; simp; omega)
@[simp] theorem packTJ_field_0_26 (op : BitVec 6) (off : BitVec 26) :
    field (packTJ op off) 0 26 = off :=
  field_eq (by rw [packTJ_toNat]; simp; omega)

/-- The value of a word of the format. -/
theorem packTM_toNat (op : BitVec 6) (d base : BitVec 5) (off : BitVec 11) (size : BitVec 3) (q : BitVec 2) :
    (packTM op d base off size q).toNat = ((((op.toNat * 32 + d.toNat) * 32 + base.toNat) * 2048 + off.toNat) * 8 + size.toNat) * 4 + q.toNat := by
  refine (toNat_cat (op ++ d ++ base ++ off ++ size) q).trans ?_
  simp only [toNat_cat, Nat.reducePow]

@[simp] theorem packTM_field_26_6 (op : BitVec 6) (d base : BitVec 5) (off : BitVec 11) (size : BitVec 3) (q : BitVec 2) :
    field (packTM op d base off size q) 26 6 = op :=
  field_eq (by rw [packTM_toNat]; simp; omega)
@[simp] theorem packTM_field_21_5 (op : BitVec 6) (d base : BitVec 5) (off : BitVec 11) (size : BitVec 3) (q : BitVec 2) :
    field (packTM op d base off size q) 21 5 = d :=
  field_eq (by rw [packTM_toNat]; simp; omega)
@[simp] theorem packTM_field_16_5 (op : BitVec 6) (d base : BitVec 5) (off : BitVec 11) (size : BitVec 3) (q : BitVec 2) :
    field (packTM op d base off size q) 16 5 = base :=
  field_eq (by rw [packTM_toNat]; simp; omega)
@[simp] theorem packTM_field_5_11 (op : BitVec 6) (d base : BitVec 5) (off : BitVec 11) (size : BitVec 3) (q : BitVec 2) :
    field (packTM op d base off size q) 5 11 = off :=
  field_eq (by rw [packTM_toNat]; simp; omega)
@[simp] theorem packTM_field_2_3 (op : BitVec 6) (d base : BitVec 5) (off : BitVec 11) (size : BitVec 3) (q : BitVec 2) :
    field (packTM op d base off size q) 2 3 = size :=
  field_eq (by rw [packTM_toNat]; simp; omega)
@[simp] theorem packTM_field_0_2 (op : BitVec 6) (d base : BitVec 5) (off : BitVec 11) (size : BitVec 3) (q : BitVec 2) :
    field (packTM op d base off size q) 0 2 = q :=
  field_eq (by rw [packTM_toNat]; simp; omega)

/-- The value of a word of the format. -/
theorem packTS_toNat (op : BitVec 6) (d a b : BitVec 5) (fn : BitVec 7) (lo : BitVec 4) :
    (packTS op d a b fn lo).toNat = ((((op.toNat * 32 + d.toNat) * 32 + a.toNat) * 32 + b.toNat) * 128 + fn.toNat) * 16 + lo.toNat := by
  refine (toNat_cat (op ++ d ++ a ++ b ++ fn) lo).trans ?_
  simp only [toNat_cat, Nat.reducePow]

@[simp] theorem packTS_field_26_6 (op : BitVec 6) (d a b : BitVec 5) (fn : BitVec 7) (lo : BitVec 4) :
    field (packTS op d a b fn lo) 26 6 = op :=
  field_eq (by rw [packTS_toNat]; simp; omega)
@[simp] theorem packTS_field_21_5 (op : BitVec 6) (d a b : BitVec 5) (fn : BitVec 7) (lo : BitVec 4) :
    field (packTS op d a b fn lo) 21 5 = d :=
  field_eq (by rw [packTS_toNat]; simp; omega)
@[simp] theorem packTS_field_16_5 (op : BitVec 6) (d a b : BitVec 5) (fn : BitVec 7) (lo : BitVec 4) :
    field (packTS op d a b fn lo) 16 5 = a :=
  field_eq (by rw [packTS_toNat]; simp; omega)
@[simp] theorem packTS_field_11_5 (op : BitVec 6) (d a b : BitVec 5) (fn : BitVec 7) (lo : BitVec 4) :
    field (packTS op d a b fn lo) 11 5 = b :=
  field_eq (by rw [packTS_toNat]; simp; omega)
@[simp] theorem packTS_field_4_7 (op : BitVec 6) (d a b : BitVec 5) (fn : BitVec 7) (lo : BitVec 4) :
    field (packTS op d a b fn lo) 4 7 = fn :=
  field_eq (by rw [packTS_toNat]; simp; omega)
@[simp] theorem packTS_field_0_4 (op : BitVec 6) (d a b : BitVec 5) (fn : BitVec 7) (lo : BitVec 4) :
    field (packTS op d a b fn lo) 0 4 = lo :=
  field_eq (by rw [packTS_toNat]; simp; omega)

/-- The value of a word of the format. -/
theorem packSys_toNat (d a b : BitVec 5) (fn : BitVec 4) (p : BitVec 7) :
    (packSys d a b fn p).toNat = ((((0x25 * 32 + d.toNat) * 32 + a.toNat) * 32 + b.toNat) * 16 + fn.toNat) * 128 + p.toNat := by
  refine (toNat_cat ((0x25 : BitVec 6) ++ d ++ a ++ b ++ fn) p).trans ?_
  simp only [toNat_cat, Nat.reducePow]
  rfl

@[simp] theorem packSys_field_26_6 (d a b : BitVec 5) (fn : BitVec 4) (p : BitVec 7) :
    field (packSys d a b fn p) 26 6 = (0x25 : BitVec 6) :=
  field_eq (by rw [packSys_toNat]; simp; omega)
@[simp] theorem packSys_field_21_5 (d a b : BitVec 5) (fn : BitVec 4) (p : BitVec 7) :
    field (packSys d a b fn p) 21 5 = d :=
  field_eq (by rw [packSys_toNat]; simp; omega)
@[simp] theorem packSys_field_16_5 (d a b : BitVec 5) (fn : BitVec 4) (p : BitVec 7) :
    field (packSys d a b fn p) 16 5 = a :=
  field_eq (by rw [packSys_toNat]; simp; omega)
@[simp] theorem packSys_field_11_5 (d a b : BitVec 5) (fn : BitVec 4) (p : BitVec 7) :
    field (packSys d a b fn p) 11 5 = b :=
  field_eq (by rw [packSys_toNat]; simp; omega)
@[simp] theorem packSys_field_7_4 (d a b : BitVec 5) (fn : BitVec 4) (p : BitVec 7) :
    field (packSys d a b fn p) 7 4 = fn :=
  field_eq (by rw [packSys_toNat]; simp; omega)
@[simp] theorem packSys_field_0_7 (d a b : BitVec 5) (fn : BitVec 4) (p : BitVec 7) :
    field (packSys d a b fn p) 0 7 = p :=
  field_eq (by rw [packSys_toNat]; simp; omega)

/-- The value of a word of the format. -/
theorem packTV_toNat (vd va vb : BitVec 4) (rnd : BitVec 3) (sat : Bool) (fn : BitVec 6) (ty : BitVec 4) :
    (packTV vd va vb rnd sat fn ty).toNat = ((((((0x26 * 16 + vd.toNat) * 16 + va.toNat) * 16 + vb.toNat) * 8 + rnd.toNat) * 2 + (BitVec.ofBool sat).toNat) * 64 + fn.toNat) * 16 + ty.toNat := by
  refine (toNat_cat ((0x26 : BitVec 6) ++ vd ++ va ++ vb ++ rnd ++ BitVec.ofBool sat ++ fn) ty).trans ?_
  simp only [toNat_cat, Nat.reducePow]
  rfl

@[simp] theorem packTV_field_26_6 (vd va vb : BitVec 4) (rnd : BitVec 3) (sat : Bool) (fn : BitVec 6) (ty : BitVec 4) :
    field (packTV vd va vb rnd sat fn ty) 26 6 = (0x26 : BitVec 6) :=
  field_eq (by rw [packTV_toNat]; cases sat <;> simp <;> omega)
@[simp] theorem packTV_field_22_4 (vd va vb : BitVec 4) (rnd : BitVec 3) (sat : Bool) (fn : BitVec 6) (ty : BitVec 4) :
    field (packTV vd va vb rnd sat fn ty) 22 4 = vd :=
  field_eq (by rw [packTV_toNat]; cases sat <;> simp <;> omega)
@[simp] theorem packTV_field_18_4 (vd va vb : BitVec 4) (rnd : BitVec 3) (sat : Bool) (fn : BitVec 6) (ty : BitVec 4) :
    field (packTV vd va vb rnd sat fn ty) 18 4 = va :=
  field_eq (by rw [packTV_toNat]; cases sat <;> simp <;> omega)
@[simp] theorem packTV_field_14_4 (vd va vb : BitVec 4) (rnd : BitVec 3) (sat : Bool) (fn : BitVec 6) (ty : BitVec 4) :
    field (packTV vd va vb rnd sat fn ty) 14 4 = vb :=
  field_eq (by rw [packTV_toNat]; cases sat <;> simp <;> omega)
@[simp] theorem packTV_field_11_3 (vd va vb : BitVec 4) (rnd : BitVec 3) (sat : Bool) (fn : BitVec 6) (ty : BitVec 4) :
    field (packTV vd va vb rnd sat fn ty) 11 3 = rnd :=
  field_eq (by rw [packTV_toNat]; cases sat <;> simp <;> omega)
@[simp] theorem packTV_field_10_1 (vd va vb : BitVec 4) (rnd : BitVec 3) (sat : Bool) (fn : BitVec 6) (ty : BitVec 4) :
    field (packTV vd va vb rnd sat fn ty) 10 1 = BitVec.ofBool sat :=
  field_eq (by rw [packTV_toNat]; cases sat <;> simp <;> omega)
@[simp] theorem packTV_field_4_6 (vd va vb : BitVec 4) (rnd : BitVec 3) (sat : Bool) (fn : BitVec 6) (ty : BitVec 4) :
    field (packTV vd va vb rnd sat fn ty) 4 6 = fn :=
  field_eq (by rw [packTV_toNat]; cases sat <;> simp <;> omega)
@[simp] theorem packTV_field_0_4 (vd va vb : BitVec 4) (rnd : BitVec 3) (sat : Bool) (fn : BitVec 6) (ty : BitVec 4) :
    field (packTV vd va vb rnd sat fn ty) 0 4 = ty :=
  field_eq (by rw [packTV_toNat]; cases sat <;> simp <;> omega)

/-- The value of a word of the format. -/
theorem packVP_toNat (vd va vb fn : BitVec 4) (e : BitVec 6) (ty : BitVec 4) :
    (packVP vd va vb fn e ty).toNat = (((((0x28 * 16 + vd.toNat) * 16 + va.toNat) * 16 + vb.toNat) * 16 + fn.toNat) * 64 + e.toNat) * 16 + ty.toNat := by
  refine (toNat_cat ((0x28 : BitVec 6) ++ vd ++ va ++ vb ++ fn ++ e) ty).trans ?_
  simp only [toNat_cat, Nat.reducePow]
  rfl

@[simp] theorem packVP_field_26_6 (vd va vb fn : BitVec 4) (e : BitVec 6) (ty : BitVec 4) :
    field (packVP vd va vb fn e ty) 26 6 = (0x28 : BitVec 6) :=
  field_eq (by rw [packVP_toNat]; simp; omega)
@[simp] theorem packVP_field_22_4 (vd va vb fn : BitVec 4) (e : BitVec 6) (ty : BitVec 4) :
    field (packVP vd va vb fn e ty) 22 4 = vd :=
  field_eq (by rw [packVP_toNat]; simp; omega)
@[simp] theorem packVP_field_18_4 (vd va vb fn : BitVec 4) (e : BitVec 6) (ty : BitVec 4) :
    field (packVP vd va vb fn e ty) 18 4 = va :=
  field_eq (by rw [packVP_toNat]; simp; omega)
@[simp] theorem packVP_field_14_4 (vd va vb fn : BitVec 4) (e : BitVec 6) (ty : BitVec 4) :
    field (packVP vd va vb fn e ty) 14 4 = vb :=
  field_eq (by rw [packVP_toNat]; simp; omega)
@[simp] theorem packVP_field_10_4 (vd va vb fn : BitVec 4) (e : BitVec 6) (ty : BitVec 4) :
    field (packVP vd va vb fn e ty) 10 4 = fn :=
  field_eq (by rw [packVP_toNat]; simp; omega)
@[simp] theorem packVP_field_4_6 (vd va vb fn : BitVec 4) (e : BitVec 6) (ty : BitVec 4) :
    field (packVP vd va vb fn e ty) 4 6 = e :=
  field_eq (by rw [packVP_toNat]; simp; omega)
@[simp] theorem packVP_field_0_4 (vd va vb fn : BitVec 4) (e : BitVec 6) (ty : BitVec 4) :
    field (packVP vd va vb fn e ty) 0 4 = ty :=
  field_eq (by rw [packVP_toNat]; simp; omega)

/-- The value of a word of the format. -/
theorem packVG_toNat (v : BitVec 4) (g : BitVec 5) (fn : BitVec 4) (e : BitVec 6) (ty : BitVec 4) :
    (packVG v g fn e ty).toNat = (((((0x28 * 16 + v.toNat) * 32 + g.toNat) * 8 + 0) * 16 + fn.toNat) * 64 + e.toNat) * 16 + ty.toNat := by
  refine (toNat_cat ((0x28 : BitVec 6) ++ v ++ g ++ (0 : BitVec 3) ++ fn ++ e) ty).trans ?_
  simp only [toNat_cat, Nat.reducePow]
  rfl

@[simp] theorem packVG_field_26_6 (v : BitVec 4) (g : BitVec 5) (fn : BitVec 4) (e : BitVec 6) (ty : BitVec 4) :
    field (packVG v g fn e ty) 26 6 = (0x28 : BitVec 6) :=
  field_eq (by rw [packVG_toNat]; simp; omega)
@[simp] theorem packVG_field_22_4 (v : BitVec 4) (g : BitVec 5) (fn : BitVec 4) (e : BitVec 6) (ty : BitVec 4) :
    field (packVG v g fn e ty) 22 4 = v :=
  field_eq (by rw [packVG_toNat]; simp; omega)
@[simp] theorem packVG_field_17_5 (v : BitVec 4) (g : BitVec 5) (fn : BitVec 4) (e : BitVec 6) (ty : BitVec 4) :
    field (packVG v g fn e ty) 17 5 = g :=
  field_eq (by rw [packVG_toNat]; simp; omega)
@[simp] theorem packVG_field_14_3 (v : BitVec 4) (g : BitVec 5) (fn : BitVec 4) (e : BitVec 6) (ty : BitVec 4) :
    field (packVG v g fn e ty) 14 3 = (0 : BitVec 3) :=
  field_eq (by rw [packVG_toNat]; simp; omega)
@[simp] theorem packVG_field_10_4 (v : BitVec 4) (g : BitVec 5) (fn : BitVec 4) (e : BitVec 6) (ty : BitVec 4) :
    field (packVG v g fn e ty) 10 4 = fn :=
  field_eq (by rw [packVG_toNat]; simp; omega)
@[simp] theorem packVG_field_4_6 (v : BitVec 4) (g : BitVec 5) (fn : BitVec 4) (e : BitVec 6) (ty : BitVec 4) :
    field (packVG v g fn e ty) 4 6 = e :=
  field_eq (by rw [packVG_toNat]; simp; omega)
@[simp] theorem packVG_field_0_4 (v : BitVec 4) (g : BitVec 5) (fn : BitVec 4) (e : BitVec 6) (ty : BitVec 4) :
    field (packVG v g fn e ty) 0 4 = ty :=
  field_eq (by rw [packVG_toNat]; simp; omega)

/-- The value of a word of the format. -/
theorem packVC_toNat (vd va cg : BitVec 4) (k rnd : BitVec 3) (dt st : BitVec 4) :
    (packVC vd va cg k rnd dt st).toNat = ((((((0x27 * 16 + vd.toNat) * 16 + va.toNat) * 16 + cg.toNat) * 8 + k.toNat) * 8 + rnd.toNat) * 16 + dt.toNat) * 16 + st.toNat := by
  refine (toNat_cat ((0x27 : BitVec 6) ++ vd ++ va ++ cg ++ k ++ rnd ++ dt) st).trans ?_
  simp only [toNat_cat, Nat.reducePow]
  rfl

@[simp] theorem packVC_field_26_6 (vd va cg : BitVec 4) (k rnd : BitVec 3) (dt st : BitVec 4) :
    field (packVC vd va cg k rnd dt st) 26 6 = (0x27 : BitVec 6) :=
  field_eq (by rw [packVC_toNat]; simp; omega)
@[simp] theorem packVC_field_22_4 (vd va cg : BitVec 4) (k rnd : BitVec 3) (dt st : BitVec 4) :
    field (packVC vd va cg k rnd dt st) 22 4 = vd :=
  field_eq (by rw [packVC_toNat]; simp; omega)
@[simp] theorem packVC_field_18_4 (vd va cg : BitVec 4) (k rnd : BitVec 3) (dt st : BitVec 4) :
    field (packVC vd va cg k rnd dt st) 18 4 = va :=
  field_eq (by rw [packVC_toNat]; simp; omega)
@[simp] theorem packVC_field_14_4 (vd va cg : BitVec 4) (k rnd : BitVec 3) (dt st : BitVec 4) :
    field (packVC vd va cg k rnd dt st) 14 4 = cg :=
  field_eq (by rw [packVC_toNat]; simp; omega)
@[simp] theorem packVC_field_11_3 (vd va cg : BitVec 4) (k rnd : BitVec 3) (dt st : BitVec 4) :
    field (packVC vd va cg k rnd dt st) 11 3 = k :=
  field_eq (by rw [packVC_toNat]; simp; omega)
@[simp] theorem packVC_field_8_3 (vd va cg : BitVec 4) (k rnd : BitVec 3) (dt st : BitVec 4) :
    field (packVC vd va cg k rnd dt st) 8 3 = rnd :=
  field_eq (by rw [packVC_toNat]; simp; omega)
@[simp] theorem packVC_field_4_4 (vd va cg : BitVec 4) (k rnd : BitVec 3) (dt st : BitVec 4) :
    field (packVC vd va cg k rnd dt st) 4 4 = dt :=
  field_eq (by rw [packVC_toNat]; simp; omega)
@[simp] theorem packVC_field_0_4 (vd va cg : BitVec 4) (k rnd : BitVec 3) (dt st : BitVec 4) :
    field (packVC vd va cg k rnd dt st) 0 4 = st :=
  field_eq (by rw [packVC_toNat]; simp; omega)

/-- The value of a word of the format. -/
theorem packFence_toNat (kind : BitVec 2) (scope : BitVec 3) :
    (packFence kind scope).toNat = ((0x1B * 2097152 + 0) * 4 + kind.toNat) * 8 + scope.toNat := by
  refine (toNat_cat ((0x1B : BitVec 6) ++ (0 : BitVec 21) ++ kind) scope).trans ?_
  simp only [toNat_cat, Nat.reducePow]
  rfl

@[simp] theorem packFence_field_26_6 (kind : BitVec 2) (scope : BitVec 3) :
    field (packFence kind scope) 26 6 = (0x1B : BitVec 6) :=
  field_eq (by rw [packFence_toNat]; simp; omega)
@[simp] theorem packFence_field_5_21 (kind : BitVec 2) (scope : BitVec 3) :
    field (packFence kind scope) 5 21 = (0 : BitVec 21) :=
  field_eq (by rw [packFence_toNat]; simp; omega)
@[simp] theorem packFence_field_3_2 (kind : BitVec 2) (scope : BitVec 3) :
    field (packFence kind scope) 3 2 = kind :=
  field_eq (by rw [packFence_toNat]; simp; omega)
@[simp] theorem packFence_field_0_3 (kind : BitVec 2) (scope : BitVec 3) :
    field (packFence kind scope) 0 3 = scope :=
  field_eq (by rw [packFence_toNat]; simp; omega)

/-! ## Parts of a field -/

@[simp] theorem packTI_sub_18_3 (op : BitVec 6) (d a : BitVec 5) (imm : BitVec 16) :
    field (packTI op d a imm) 18 3 = BitVec.extractLsb' 2 3 a :=
  field_eq (by rw [packTI_toNat]; simp [BitVec.extractLsb'_toNat, Nat.shiftRight_eq_div_pow]; omega)
@[simp] theorem packTI_sub_16_2 (op : BitVec 6) (d a : BitVec 5) (imm : BitVec 16) :
    field (packTI op d a imm) 16 2 = BitVec.extractLsb' 0 2 a :=
  field_eq (by rw [packTI_toNat]; simp [BitVec.extractLsb'_toNat, Nat.shiftRight_eq_div_pow]; omega)
@[simp] theorem packTI_sub_8_8 (op : BitVec 6) (d a : BitVec 5) (imm : BitVec 16) :
    field (packTI op d a imm) 8 8 = BitVec.extractLsb' 8 8 imm :=
  field_eq (by rw [packTI_toNat]; simp [BitVec.extractLsb'_toNat, Nat.shiftRight_eq_div_pow]; omega)
@[simp] theorem packTI_sub_6_2 (op : BitVec 6) (d a : BitVec 5) (imm : BitVec 16) :
    field (packTI op d a imm) 6 2 = BitVec.extractLsb' 6 2 imm :=
  field_eq (by rw [packTI_toNat]; simp [BitVec.extractLsb'_toNat, Nat.shiftRight_eq_div_pow]; omega)
@[simp] theorem packTI_sub_0_6 (op : BitVec 6) (d a : BitVec 5) (imm : BitVec 16) :
    field (packTI op d a imm) 0 6 = BitVec.extractLsb' 0 6 imm :=
  field_eq (by rw [packTI_toNat]; simp [BitVec.extractLsb'_toNat, Nat.shiftRight_eq_div_pow]; omega)
@[simp] theorem packTM_sub_25_1 (op : BitVec 6) (d base : BitVec 5) (off : BitVec 11) (size : BitVec 3) (q : BitVec 2) :
    field (packTM op d base off size q) 25 1 = BitVec.extractLsb' 4 1 d :=
  field_eq (by rw [packTM_toNat]; simp [BitVec.extractLsb'_toNat, Nat.shiftRight_eq_div_pow]; omega)
@[simp] theorem packTM_sub_21_4 (op : BitVec 6) (d base : BitVec 5) (off : BitVec 11) (size : BitVec 3) (q : BitVec 2) :
    field (packTM op d base off size q) 21 4 = BitVec.extractLsb' 0 4 d :=
  field_eq (by rw [packTM_toNat]; simp [BitVec.extractLsb'_toNat, Nat.shiftRight_eq_div_pow]; omega)
@[simp] theorem packTS_sub_3_1 (op : BitVec 6) (d a b : BitVec 5) (fn : BitVec 7) (lo : BitVec 4) :
    field (packTS op d a b fn lo) 3 1 = BitVec.extractLsb' 3 1 lo :=
  field_eq (by rw [packTS_toNat]; simp [BitVec.extractLsb'_toNat, Nat.shiftRight_eq_div_pow]; omega)
@[simp] theorem packTS_sub_0_3 (op : BitVec 6) (d a b : BitVec 5) (fn : BitVec 7) (lo : BitVec 4) :
    field (packTS op d a b fn lo) 0 3 = BitVec.extractLsb' 0 3 lo :=
  field_eq (by rw [packTS_toNat]; simp [BitVec.extractLsb'_toNat, Nat.shiftRight_eq_div_pow]; omega)
@[simp] theorem packTS_sub_1_3 (op : BitVec 6) (d a b : BitVec 5) (fn : BitVec 7) (lo : BitVec 4) :
    field (packTS op d a b fn lo) 1 3 = BitVec.extractLsb' 1 3 lo :=
  field_eq (by rw [packTS_toNat]; simp [BitVec.extractLsb'_toNat, Nat.shiftRight_eq_div_pow]; omega)
@[simp] theorem packTS_sub_0_1 (op : BitVec 6) (d a b : BitVec 5) (fn : BitVec 7) (lo : BitVec 4) :
    field (packTS op d a b fn lo) 0 1 = BitVec.extractLsb' 0 1 lo :=
  field_eq (by rw [packTS_toNat]; simp [BitVec.extractLsb'_toNat, Nat.shiftRight_eq_div_pow]; omega)

@[simp] theorem low3_wide3 : ∀ x : BitVec 3, low3 (wide3 x) = x := by decide
@[simp] theorem hi3Zero_wide3 : ∀ x : BitVec 3, hi3Zero (wide3 x) = true := by decide
@[simp] theorem pad1_low : ∀ x : BitVec 3, BitVec.extractLsb' 0 3 (0#1 ++ x) = x := by decide
@[simp] theorem pad1_high : ∀ x : BitVec 3, BitVec.extractLsb' 3 1 (0#1 ++ x) = 0 := by decide
@[simp] theorem pad3_low : ∀ x : BitVec 1, BitVec.extractLsb' 0 1 (0#3 ++ x) = x := by decide
@[simp] theorem pad3_high : ∀ x : BitVec 1, BitVec.extractLsb' 1 3 (0#3 ++ x) = 0 := by decide
@[simp] theorem pad1v_low : ∀ x : BitVec 4, BitVec.extractLsb' 0 4 (0#1 ++ x) = x := by decide
@[simp] theorem pad1v_high : ∀ x : BitVec 4, BitVec.extractLsb' 4 1 (0#1 ++ x) = 0 := by decide
@[simp] theorem pad3h_low : ∀ x : BitVec 2, BitVec.extractLsb' 0 2 (0#3 ++ x) = x := by decide
@[simp] theorem pad3h_high : ∀ x : BitVec 2, BitVec.extractLsb' 2 3 (0#3 ++ x) = 0 := by decide
@[simp] theorem shift0_amount : ∀ n : BitVec 6, BitVec.extractLsb' 0 6 (0#10 ++ n) = n := by decide
@[simp] theorem shift0_kind : ∀ n : BitVec 6, (0#10 ++ n).toNat >>> 6 % 4 = 0 := by decide
@[simp] theorem shift0_zero : ∀ n : BitVec 6, BitVec.extractLsb' 8 8 (0#10 ++ n) = 0#8 := by decide
@[simp] theorem shift1_amount : ∀ n : BitVec 6, BitVec.extractLsb' 0 6 (1#10 ++ n) = n := by decide
@[simp] theorem shift1_kind : ∀ n : BitVec 6, (1#10 ++ n).toNat >>> 6 % 4 = 1 := by decide
@[simp] theorem shift1_zero : ∀ n : BitVec 6, BitVec.extractLsb' 8 8 (1#10 ++ n) = 0#8 := by decide
@[simp] theorem shift2_amount : ∀ n : BitVec 6, BitVec.extractLsb' 0 6 (2#10 ++ n) = n := by decide
@[simp] theorem shift2_kind : ∀ n : BitVec 6, (2#10 ++ n).toNat >>> 6 % 4 = 2 := by decide
@[simp] theorem shift2_zero : ∀ n : BitVec 6, BitVec.extractLsb' 8 8 (2#10 ++ n) = 0#8 := by decide
@[simp] theorem shift3_amount : ∀ n : BitVec 6, BitVec.extractLsb' 0 6 (3#10 ++ n) = n := by decide
@[simp] theorem shift3_kind : ∀ n : BitVec 6, (3#10 ++ n).toNat >>> 6 % 4 = 3 := by decide
@[simp] theorem shift3_zero : ∀ n : BitVec 6, BitVec.extractLsb' 8 8 (3#10 ++ n) = 0#8 := by decide

/-- The two parts of a SPAWN offset (R30). -/
@[simp] theorem spawn_parts (x : BitVec 12) : (BitVec.extractLsb' 7 5 x ++ BitVec.extractLsb' 0 7 x : BitVec 12) = x := by
  apply BitVec.eq_of_toNat_eq
  refine (toNat_cat (BitVec.extractLsb' 7 5 x) (BitVec.extractLsb' 0 7 x)).trans ?_
  simp only [BitVec.extractLsb'_toNat, Nat.shiftRight_eq_div_pow]
  omega

/-! ## Codes (R20, R21, R26 to R28, R34) -/

@[simp] theorem Ty.ofCode_code (t : Ty) : Ty.ofCode t.code = some t := by cases t <;> rfl
@[simp] theorem Rnd.ofCode_code (r : Rnd) : Rnd.ofCode r.code = some r := by cases r <;> rfl
@[simp] theorem LdQual.ofCode_code (q : LdQual) : LdQual.ofCode q.code = some q := by cases q <;> rfl
@[simp] theorem StQual.ofCode_code (q : StQual) : StQual.ofCode q.code = some q := by cases q <;> rfl
@[simp] theorem MemOrder.ofCode_code (o : MemOrder) : MemOrder.ofCode o.code = some o := by cases o <;> rfl
@[simp] theorem AmoOp.ofCode_code (o : AmoOp) : AmoOp.ofCode o.code = some o := by cases o <;> rfl
@[simp] theorem FenceKind.ofCode_code (k : FenceKind) : FenceKind.ofCode k.code = some k := by cases k <;> rfl
@[simp] theorem FenceScope.ofCode_code (k : FenceScope) : FenceScope.ofCode k.code = some k := by cases k <;> rfl
@[simp] theorem RedOp.ofCode_code (o : RedOp) : RedOp.ofCode o.code = some o := by cases o <;> rfl
@[simp] theorem ofBool_eq_one (b : Bool) : decide (BitVec.ofBool b = 1#1) = b := by cases b <;> rfl
@[simp] theorem withCode_some {α : Type} (why : Reject) (x : α) (k : α → Except Reject Instr) : withCode why (some x) k = k x := rfl

/-- A decoding that reaches a well-formed instruction with its zero fields zero accepts it (R19). -/
@[simp] theorem finish_ok {z : Bool} {i : Instr} (hz : z = true) (h : wellFormed i = true) : finish z i = .ok i := by
  simp [finish, hz, h]

end Sys2Proof
end

