-- ==== Sys2Proof/Laws/PerInstr.lean ====
section
/-! SUPPORT. The family of statements made per instruction: encoding an instruction and decoding the word gives the instruction
back (R16 to R34); an event has no word (R47). -/

namespace Sys2Proof.Laws.Codec

set_option Elab.async false

open Sys2Proof

/-- A well-formed instruction that has a word is what its word decodes to. -/
def Statement (i : Instr) : Prop := wellFormed i = true → ∀ w, encode i = some w → decode w = .ok i

/-- An instruction without a word meets the statement. -/
theorem of_no_word {i : Instr} (h : encode i = none) : Statement i := fun _ w hw => by rw [h] at hw; cases hw

/-- An instruction meets the statement when its own word decodes to it. -/
theorem of_word {i : Instr} {w : W32} (he : encode i = some w) (hd : wellFormed i = true → decode w = .ok i) : Statement i :=
  fun h v hv => by rw [he] at hv; cases hv; exact hd h

theorem add (ty : Ty) (d a b : GReg) : Statement (.add ty d a b) := of_word rfl fun h => by
  simp [decode, decodeInt, fD, fA, fB, h]
theorem sub (ty : Ty) (d a b : GReg) : Statement (.sub ty d a b) := of_word rfl fun h => by
  simp [decode, decodeInt, fD, fA, fB, h]
theorem mul (ty : Ty) (d a b : GReg) : Statement (.mul ty d a b) := of_word rfl fun h => by
  simp [decode, decodeInt, fD, fA, fB, h]
theorem mulh (ty : Ty) (d a b : GReg) : Statement (.mulh ty d a b) := of_word rfl fun h => by
  simp [decode, decodeInt, fD, fA, fB, h]
theorem div (ty : Ty) (d a b : GReg) : Statement (.div ty d a b) := of_word rfl fun h => by
  simp [decode, decodeInt, fD, fA, fB, h]
theorem rem (ty : Ty) (d a b : GReg) : Statement (.rem ty d a b) := of_word rfl fun h => by
  simp [decode, decodeInt, fD, fA, fB, h]
theorem adds (ty : Ty) (d a b : GReg) : Statement (.adds ty d a b) := of_word rfl fun h => by
  simp [decode, decodeInt, fD, fA, fB, h]
theorem subs (ty : Ty) (d a b : GReg) : Statement (.subs ty d a b) := of_word rfl fun h => by
  simp [decode, decodeInt, fD, fA, fB, h]
theorem and (ty : Ty) (d a b : GReg) : Statement (.and ty d a b) := of_word rfl fun h => by
  simp [decode, decodeInt, fD, fA, fB, h]
theorem or (ty : Ty) (d a b : GReg) : Statement (.or ty d a b) := of_word rfl fun h => by
  simp [decode, decodeInt, fD, fA, fB, h]
theorem xor (ty : Ty) (d a b : GReg) : Statement (.xor ty d a b) := of_word rfl fun h => by
  simp [decode, decodeInt, fD, fA, fB, h]
theorem andn (ty : Ty) (d a b : GReg) : Statement (.andn ty d a b) := of_word rfl fun h => by
  simp [decode, decodeInt, fD, fA, fB, h]
theorem sll (ty : Ty) (d a b : GReg) : Statement (.sll ty d a b) := of_word rfl fun h => by
  simp [decode, decodeInt, fD, fA, fB, h]
theorem srl (ty : Ty) (d a b : GReg) : Statement (.srl ty d a b) := of_word rfl fun h => by
  simp [decode, decodeInt, fD, fA, fB, h]
theorem sra (ty : Ty) (d a b : GReg) : Statement (.sra ty d a b) := of_word rfl fun h => by
  simp [decode, decodeInt, fD, fA, fB, h]
theorem rotl (ty : Ty) (d a b : GReg) : Statement (.rotl ty d a b) := of_word rfl fun h => by
  simp [decode, decodeInt, fD, fA, fB, h]
theorem seq (ty : Ty) (d a b : GReg) : Statement (.seq ty d a b) := of_word rfl fun h => by
  simp [decode, decodeInt, fD, fA, fB, h]
theorem slt (ty : Ty) (d a b : GReg) : Statement (.slt ty d a b) := of_word rfl fun h => by
  simp [decode, decodeInt, fD, fA, fB, h]
theorem sle (ty : Ty) (d a b : GReg) : Statement (.sle ty d a b) := of_word rfl fun h => by
  simp [decode, decodeInt, fD, fA, fB, h]
theorem min (ty : Ty) (d a b : GReg) : Statement (.min ty d a b) := of_word rfl fun h => by
  simp [decode, decodeInt, fD, fA, fB, h]
theorem max (ty : Ty) (d a b : GReg) : Statement (.max ty d a b) := of_word rfl fun h => by
  simp [decode, decodeInt, fD, fA, fB, h]
theorem sel (ty : Ty) (d a b : GReg) : Statement (.sel ty d a b) := of_word rfl fun h => by
  simp [decode, decodeInt, fD, fA, fB, h]
theorem bfx (ty : Ty) (d a b : GReg) : Statement (.bfx ty d a b) := of_word rfl fun h => by
  simp [decode, decodeInt, fD, fA, fB, h]
theorem bfi (ty : Ty) (d a b : GReg) : Statement (.bfi ty d a b) := of_word rfl fun h => by
  simp [decode, decodeInt, fD, fA, fB, h]
theorem clz (ty : Ty) (d a : GReg) : Statement (.clz ty d a) := of_word rfl fun h => by
  simp [decode, decodeInt, fD, fA, fB, h]
theorem popc (ty : Ty) (d a : GReg) : Statement (.popc ty d a) := of_word rfl fun h => by
  simp [decode, decodeInt, fD, fA, fB, h]
theorem addi (d a : GReg) (imm : BitVec 16) : Statement (.addi d a imm) := of_word rfl fun h => by
  simp [decode, fD, fA, fImm, h]
theorem andi (d a : GReg) (imm : BitVec 16) : Statement (.andi d a imm) := of_word rfl fun h => by
  simp [decode, fD, fA, fImm, h]
theorem ori (d a : GReg) (imm : BitVec 16) : Statement (.ori d a imm) := of_word rfl fun h => by
  simp [decode, fD, fA, fImm, h]
theorem xori (d a : GReg) (imm : BitVec 16) : Statement (.xori d a imm) := of_word rfl fun h => by
  simp [decode, fD, fA, fImm, h]
theorem slti (d a : GReg) (imm : BitVec 16) : Statement (.slti d a imm) := of_word rfl fun h => by
  simp [decode, fD, fA, fImm, h]
theorem lui (d : GReg) (h : BitVec 2) (imm : BitVec 16) : Statement (.lui d h imm) := of_word rfl fun h => by
  simp [decode, fD, fImm, h]
theorem addpc (d : GReg) (imm : BitVec 16) : Statement (.addpc d imm) := of_word rfl fun h => by
  simp [decode, fD, fA, fImm, h]
theorem slli (d a : GReg) (n : BitVec 6) : Statement (.slli d a n) := of_word rfl fun h => by
  simp [decode, decodeShift, fD, fA, h]
theorem srli (d a : GReg) (n : BitVec 6) : Statement (.srli d a n) := of_word rfl fun h => by
  simp [decode, decodeShift, fD, fA, h]
theorem srai (d a : GReg) (n : BitVec 6) : Statement (.srai d a n) := of_word rfl fun h => by
  simp [decode, decodeShift, fD, fA, h]
theorem rotli (d a : GReg) (n : BitVec 6) : Statement (.rotli d a n) := of_word rfl fun h => by
  simp [decode, decodeShift, fD, fA, h]
theorem beq (a b : GReg) (off : BitVec 16) : Statement (.beq a b off) := of_word rfl fun h => by
  simp [decode, fD, fA, fImm, h]
theorem bne (a b : GReg) (off : BitVec 16) : Statement (.bne a b off) := of_word rfl fun h => by
  simp [decode, fD, fA, fImm, h]
theorem blt (a b : GReg) (off : BitVec 16) : Statement (.blt a b off) := of_word rfl fun h => by
  simp [decode, fD, fA, fImm, h]
theorem bge (a b : GReg) (off : BitVec 16) : Statement (.bge a b off) := of_word rfl fun h => by
  simp [decode, fD, fA, fImm, h]
theorem bltn (a b : GReg) (off : BitVec 16) : Statement (.bltn a b off) := of_word rfl fun h => by
  simp [decode, fD, fA, fImm, h]
theorem bgen (a b : GReg) (off : BitVec 16) : Statement (.bgen a b off) := of_word rfl fun h => by
  simp [decode, fD, fA, fImm, h]
theorem j (off : BitVec 26) : Statement (.j off) := of_word rfl fun h => by
  simp [decode, h]
theorem jl (off : BitVec 26) : Statement (.jl off) := of_word rfl fun h => by
  simp [decode, h]
theorem jlr (d a : GReg) (imm : BitVec 16) : Statement (.jlr d a imm) := of_word rfl fun h => by
  simp [decode, fD, fA, fImm, h]
theorem loop (a : GReg) (off : BitVec 16) : Statement (.loop a off) := of_word rfl fun h => by
  simp [decode, fD, fA, fImm, h]
theorem ld (q : LdQual) (size : BitVec 3) (d base : GReg) (off : BitVec 11) : Statement (.ld q size d base off) := of_word rfl fun h => by
  simp [decode, decodeLoadStore, fD, fA, h]
theorem st (q : StQual) (size : BitVec 3) (d base : GReg) (off : BitVec 11) : Statement (.st q size d base off) := of_word rfl fun h => by
  simp [decode, decodeLoadStore, fD, fA, h]
theorem ldv (q : LdQual) (v : VReg) (base : GReg) (off : BitVec 11) : Statement (.ldv q v base off) := of_word rfl fun h => by
  simp [decode, decodeLoadStore, fA, h]
theorem stv (q : StQual) (v : VReg) (base : GReg) (off : BitVec 11) : Statement (.stv q v base off) := of_word rfl fun h => by
  simp [decode, decodeLoadStore, fA, h]
theorem ldw (size : BitVec 3) (d base : GReg) (off : BitVec 11) : Statement (.ldw size d base off) := of_word rfl fun h => by
  simp [decode, decodeFullEmpty, fD, fA, h]
theorem ldc (size : BitVec 3) (d base : GReg) (off : BitVec 11) : Statement (.ldc size d base off) := of_word rfl fun h => by
  simp [decode, decodeFullEmpty, fD, fA, h]
theorem stf (size : BitVec 3) (d base : GReg) (off : BitVec 11) : Statement (.stf size d base off) := of_word rfl fun h => by
  simp [decode, decodeFullEmpty, fD, fA, h]
theorem clrf (base : GReg) (off : BitVec 11) : Statement (.clrf base off) := of_word rfl fun h => by
  simp [decode, decodeFullEmpty, fD, fA, h]
theorem amo (op : AmoOp) (ord : MemOrder) (ty : Ty) (d a b : GReg) : Statement (.amo op ord ty d a b) := of_word rfl fun h => by
  simp [decode, decodeAmo, fD, fA, fB, h]
theorem fence (kind : FenceKind) (scope : FenceScope) : Statement (.fence kind scope) := of_word rfl fun h => by
  simp [decode, decodeFence, h]
theorem rst (ord : MemOrder) (ty : Ty) (a b : GReg) : Statement (.rst ord ty a b) := of_word rfl fun h => by
  simp [decode, decodeRemote, fD, fA, fB, h]
theorem rat (op : AmoOp) (ord : MemOrder) (ty : Ty) (d a b : GReg) : Statement (.rat op ord ty d a b) := of_word rfl fun h => by
  cases op <;>  simp [decode, decodeRemote, fD, fA, fB, AmoOp.code, AmoOp.ofCode, h]
theorem send (ch : ChSlot) (b : GReg) : Statement (.send ch b) := of_word rfl fun h => by
  simp [decode, decodeChannel, fD, fA, fB, h]
theorem recv (d : GReg) (ch : ChSlot) : Statement (.recv d ch) := of_word rfl fun h => by
  simp [decode, decodeChannel, fD, fA, fB, h]
theorem bindIn (ch : ChSlot) (b : GReg) (slot : ChSlot) : Statement (.bindIn ch b slot) := of_word rfl fun h => by
  simp [decode, decodeChannel, fD, fA, fB, h]
theorem bindOut (ch : ChSlot) (b : GReg) (slot : ChSlot) : Statement (.bindOut ch b slot) := of_word rfl fun h => by
  simp [decode, decodeChannel, fD, fA, fB, h]
theorem unbind (ch : ChSlot) : Statement (.unbind ch) := of_word rfl fun h => by
  simp [decode, decodeChannel, fD, fA, fB, h]
theorem poll (d : GReg) (ch : ChSlot) : Statement (.poll d ch) := of_word rfl fun h => by
  simp [decode, decodeChannel, fD, fA, fB, h]
theorem bindPort (ch : ChSlot) (b : GReg) : Statement (.bindPort ch b) := of_word rfl fun h => by
  simp [decode, decodeChannel, fD, fA, fB, h]
theorem join (d a : GReg) : Statement (.join d a) := of_word rfl fun h => by
  simp [decode, decodeGroup, fD, fA, fB, h]
theorem leave (a : GReg) : Statement (.leave a) := of_word rfl fun h => by
  simp [decode, decodeGroup, fD, fA, fB, h]
theorem gbar (a : GReg) : Statement (.gbar a) := of_word rfl fun h => by
  simp [decode, decodeGroup, fD, fA, fB, h]
theorem gsize (d a : GReg) : Statement (.gsize d a) := of_word rfl fun h => by
  simp [decode, decodeGroup, fD, fA, fB, h]
theorem grank (d a : GReg) : Statement (.grank d a) := of_word rfl fun h => by
  simp [decode, decodeGroup, fD, fA, fB, h]
theorem xnew (d a : GReg) : Statement (.xnew d a) := of_word rfl fun h => by
  simp [decode, decodeObject, fD, fA, fB, h]
theorem xfree (a : GReg) : Statement (.xfree a) := of_word rfl fun h => by
  simp [decode, decodeObject, fD, fA, fB, h]
theorem xreq (d a b : GReg) : Statement (.xreq d a b) := of_word rfl fun h => by
  simp [decode, decodeObject, fD, fA, fB, h]
theorem xwait (a : GReg) : Statement (.xwait a) := of_word rfl fun h => by
  simp [decode, decodeObject, fD, fA, fB, h]
theorem xtry (d a : GReg) : Statement (.xtry d a) := of_word rfl fun h => by
  simp [decode, decodeObject, fD, fA, fB, h]
theorem xgive (a b : GReg) : Statement (.xgive a b) := of_word rfl fun h => by
  simp [decode, decodeObject, fD, fA, fB, h]
theorem xswap (a b : GReg) : Statement (.xswap a b) := of_word rfl fun h => by
  simp [decode, decodeObject, fD, fA, fB, h]
theorem xdrop (a : GReg) : Statement (.xdrop a) := of_word rfl fun h => by
  simp [decode, decodeObject, fD, fA, fB, h]
theorem xrel (a : GReg) : Statement (.xrel a) := of_word rfl fun h => by
  simp [decode, decodeObject, fD, fA, fB, h]
theorem xstat (d a : GReg) : Statement (.xstat d a) := of_word rfl fun h => by
  simp [decode, decodeObject, fD, fA, fB, h]
theorem kset (k : KReg) (a b : GReg) : Statement (.kset k a b) := of_word rfl fun h => by
  simp [decode, decodeKey, fD, fA, fB, h]
theorem kstep (k : KReg) (a : GReg) : Statement (.kstep k a) := of_word rfl fun h => by
  simp [decode, decodeKey, fD, fA, fB, h]
theorem kget (d : GReg) (k : KReg) (part : BitVec 1) : Statement (.kget d k part) := of_word rfl fun h => by
  simp [decode, decodeKey, fD, fA, fB, h]
theorem rdraw (d : GReg) (k : KReg) (b : GReg) (index : BitVec 4) : Statement (.rdraw d k b index) := of_word rfl fun h => by
  simp [decode, decodeKey, fD, fA, fB, h]
theorem bcinit (a b : GReg) : Statement (.bcinit a b) := of_word rfl fun h => by
  simp [decode, decodeBarrier, fD, fA, fB, h]
theorem bcpost (a b : GReg) : Statement (.bcpost a b) := of_word rfl fun h => by
  simp [decode, decodeBarrier, fD, fA, fB, h]
theorem bcwait (d a : GReg) : Statement (.bcwait d a) := of_word rfl fun h => by
  simp [decode, decodeBarrier, fD, fA, fB, h]
theorem cfgld (d a b : GReg) : Statement (.cfgld d a b) := of_word rfl fun h => by
  simp [decode, decodeConfig, fD, fA, fB, h]
theorem cfgswap (a : GReg) : Statement (.cfgswap a) := of_word rfl fun h => by
  simp [decode, decodeConfig, fD, fA, fB, h]
theorem cfgdrop (a : GReg) : Statement (.cfgdrop a) := of_word rfl fun h => by
  simp [decode, decodeConfig, fD, fA, fB, h]
theorem launch (wave : Bool) (a b : GReg) : Statement (.launch wave a b) := of_word rfl fun h => by
  simp [decode, decodeConfig, fD, fA, fB, h]
theorem lwait (a : GReg) : Statement (.lwait a) := of_word rfl fun h => by
  simp [decode, decodeConfig, fD, fA, fB, h]
theorem inject (a b : GReg) : Statement (.inject a b) := of_word rfl fun h => by
  simp [decode, decodeConfig, fD, fA, fB, h]
theorem mark (a : GReg) : Statement (.mark a) := of_word rfl fun h => by
  simp [decode, decodeConfig, fD, fA, fB, h]
theorem copy (d a : GReg) : Statement (.copy d a) := of_word rfl fun h => by
  simp [decode, decodeCopy, fD, fA, fB, h]
theorem cpwait (a : GReg) : Statement (.cpwait a) := of_word rfl fun h => by
  simp [decode, decodeCopy, fD, fA, fB, h]
theorem rate (d a b : GReg) : Statement (.rate d a b) := of_word rfl fun h => by
  simp [decode, decodeRate, fD, fA, fB, h]
theorem solve (d a : GReg) : Statement (.solve d a) := of_word rfl fun h => by
  simp [decode, decodeRate, fD, fA, fB, h]
theorem rstat (d a b : GReg) : Statement (.rstat d a b) := of_word rfl fun h => by
  simp [decode, decodeRate, fD, fA, fB, h]
theorem trap (n : BitVec 7) : Statement (.trap n) := of_word rfl fun h => by
  simp [decode, decodeSystem, fD, fA, fB, h]
theorem rett  : Statement (.rett) := of_word rfl fun h => by
  simp [decode, decodeSystem, fD, fA, fB, h]
theorem csrr (d : GReg) (csr : BitVec 7) : Statement (.csrr d csr) := of_word rfl fun h => by
  simp [decode, decodeSystem, fD, fA, fB, h]
theorem csrw (d a : GReg) (csr : BitVec 7) : Statement (.csrw d a csr) := of_word rfl fun h => by
  simp [decode, decodeSystem, fD, fA, fB, h]
theorem csrs (d a : GReg) (csr : BitVec 7) : Statement (.csrs d a csr) := of_word rfl fun h => by
  simp [decode, decodeSystem, fD, fA, fB, h]
theorem csrc (d a : GReg) (csr : BitVec 7) : Statement (.csrc d a csr) := of_word rfl fun h => by
  simp [decode, decodeSystem, fD, fA, fB, h]
theorem spawn (d a : GReg) (off : BitVec 12) : Statement (.spawn d a off) := of_word rfl fun h => by
  simp [decode, decodeSystem, fD, fA, fB, h]
theorem exit  : Statement (.exit) := of_word rfl fun h => by
  simp [decode, decodeSystem, fD, fA, fB, h]
theorem yield  : Statement (.yield) := of_word rfl fun h => by
  simp [decode, decodeSystem, fD, fA, fB, h]
theorem wait (a : GReg) : Statement (.wait a) := of_word rfl fun h => by
  simp [decode, decodeSystem, fD, fA, fB, h]
theorem waitany (d a : GReg) : Statement (.waitany d a) := of_word rfl fun h => by
  simp [decode, decodeSystem, fD, fA, fB, h]
theorem migrate (a : GReg) : Statement (.migrate a) := of_word rfl fun h => by
  simp [decode, decodeSystem, fD, fA, fB, h]
theorem brk (n : BitVec 7) : Statement (.brk n) := of_word rfl fun h => by
  simp [decode, decodeSystem, fD, fA, fB, h]
theorem nop  : Statement (.nop) := of_word rfl fun h => by
  simp [decode, decodeSystem, fD, fA, fB, h]
theorem chkerr (d : GReg) : Statement (.chkerr d) := of_word rfl fun h => by
  simp [decode, decodeSystem, fD, fA, fB, h]
theorem vadd (rnd : Rnd) (sat : Bool) (ty : Ty) (d a b : VReg) : Statement (.vadd rnd sat ty d a b) := of_word rfl fun h => by
  have hr : rnd ≠ .rs := by rintro rfl; simp [wellFormed, vArithOk] at h
  simp [decode, decodeVector, fVd, fVa, fVb, hr, h]
theorem vsub (rnd : Rnd) (sat : Bool) (ty : Ty) (d a b : VReg) : Statement (.vsub rnd sat ty d a b) := of_word rfl fun h => by
  have hr : rnd ≠ .rs := by rintro rfl; simp [wellFormed, vArithOk] at h
  simp [decode, decodeVector, fVd, fVa, fVb, hr, h]
theorem vmul (rnd : Rnd) (sat : Bool) (ty : Ty) (d a b : VReg) : Statement (.vmul rnd sat ty d a b) := of_word rfl fun h => by
  have hr : rnd ≠ .rs := by rintro rfl; simp [wellFormed, vArithOk] at h
  simp [decode, decodeVector, fVd, fVa, fVb, hr, h]
theorem vfma (rnd : Rnd) (sat : Bool) (ty : Ty) (d a b : VReg) : Statement (.vfma rnd sat ty d a b) := of_word rfl fun h => by
  have hr : rnd ≠ .rs := by rintro rfl; simp [wellFormed] at h
  simp [decode, decodeVector, fVd, fVa, fVb, hr, h]
theorem vmin (rnd : Rnd) (sat : Bool) (ty : Ty) (d a b : VReg) : Statement (.vmin rnd sat ty d a b) := of_word rfl fun h => by
  have hr : rnd ≠ .rs := by rintro rfl; simp [wellFormed, vPlainOk] at h
  simp [decode, decodeVector, fVd, fVa, fVb, hr, h]
theorem vmax (rnd : Rnd) (sat : Bool) (ty : Ty) (d a b : VReg) : Statement (.vmax rnd sat ty d a b) := of_word rfl fun h => by
  have hr : rnd ≠ .rs := by rintro rfl; simp [wellFormed, vPlainOk] at h
  simp [decode, decodeVector, fVd, fVa, fVb, hr, h]
theorem vabs (rnd : Rnd) (sat : Bool) (ty : Ty) (d a : VReg) : Statement (.vabs rnd sat ty d a) := of_word rfl fun h => by
  have hr : rnd ≠ .rs := by rintro rfl; simp [wellFormed] at h
  simp [decode, decodeVector, fVd, fVa, fVb, hr, h]
theorem vneg (rnd : Rnd) (sat : Bool) (ty : Ty) (d a : VReg) : Statement (.vneg rnd sat ty d a) := of_word rfl fun h => by
  have hr : rnd ≠ .rs := by rintro rfl; simp [wellFormed] at h
  simp [decode, decodeVector, fVd, fVa, fVb, hr, h]
theorem vand (rnd : Rnd) (sat : Bool) (ty : Ty) (d a b : VReg) : Statement (.vand rnd sat ty d a b) := of_word rfl fun h => by
  have hr : rnd ≠ .rs := by rintro rfl; simp [wellFormed, vIntOk] at h
  simp [decode, decodeVector, fVd, fVa, fVb, hr, h]
theorem vor (rnd : Rnd) (sat : Bool) (ty : Ty) (d a b : VReg) : Statement (.vor rnd sat ty d a b) := of_word rfl fun h => by
  have hr : rnd ≠ .rs := by rintro rfl; simp [wellFormed, vIntOk] at h
  simp [decode, decodeVector, fVd, fVa, fVb, hr, h]
theorem vxor (rnd : Rnd) (sat : Bool) (ty : Ty) (d a b : VReg) : Statement (.vxor rnd sat ty d a b) := of_word rfl fun h => by
  have hr : rnd ≠ .rs := by rintro rfl; simp [wellFormed, vIntOk] at h
  simp [decode, decodeVector, fVd, fVa, fVb, hr, h]
theorem vshl (rnd : Rnd) (sat : Bool) (ty : Ty) (d a b : VReg) : Statement (.vshl rnd sat ty d a b) := of_word rfl fun h => by
  have hr : rnd ≠ .rs := by rintro rfl; simp [wellFormed, vIntOk] at h
  simp [decode, decodeVector, fVd, fVa, fVb, hr, h]
theorem vshr (rnd : Rnd) (sat : Bool) (ty : Ty) (d a b : VReg) : Statement (.vshr rnd sat ty d a b) := of_word rfl fun h => by
  have hr : rnd ≠ .rs := by rintro rfl; simp [wellFormed, vIntOk] at h
  simp [decode, decodeVector, fVd, fVa, fVb, hr, h]
theorem vsra (rnd : Rnd) (sat : Bool) (ty : Ty) (d a b : VReg) : Statement (.vsra rnd sat ty d a b) := of_word rfl fun h => by
  have hr : rnd ≠ .rs := by rintro rfl; simp [wellFormed, vIntOk] at h
  simp [decode, decodeVector, fVd, fVa, fVb, hr, h]
theorem vcmpeq (rnd : Rnd) (sat : Bool) (ty : Ty) (d a b : VReg) : Statement (.vcmpeq rnd sat ty d a b) := of_word rfl fun h => by
  have hr : rnd ≠ .rs := by rintro rfl; simp [wellFormed, vPlainOk] at h
  simp [decode, decodeVector, fVd, fVa, fVb, hr, h]
theorem vcmplt (rnd : Rnd) (sat : Bool) (ty : Ty) (d a b : VReg) : Statement (.vcmplt rnd sat ty d a b) := of_word rfl fun h => by
  have hr : rnd ≠ .rs := by rintro rfl; simp [wellFormed, vPlainOk] at h
  simp [decode, decodeVector, fVd, fVa, fVb, hr, h]
theorem vcmple (rnd : Rnd) (sat : Bool) (ty : Ty) (d a b : VReg) : Statement (.vcmple rnd sat ty d a b) := of_word rfl fun h => by
  have hr : rnd ≠ .rs := by rintro rfl; simp [wellFormed, vPlainOk] at h
  simp [decode, decodeVector, fVd, fVa, fVb, hr, h]
theorem vsel (rnd : Rnd) (sat : Bool) (ty : Ty) (d a b : VReg) : Statement (.vsel rnd sat ty d a b) := of_word rfl fun h => by
  have hr : rnd ≠ .rs := by rintro rfl; simp [wellFormed, vPlainOk] at h
  simp [decode, decodeVector, fVd, fVa, fVb, hr, h]
theorem vexp2 (rnd : Rnd) (sat : Bool) (ty : Ty) (d a : VReg) : Statement (.vexp2 rnd sat ty d a) := of_word rfl fun h => by
  have hr : rnd ≠ .rs := by rintro rfl; simp [wellFormed, vTransOk] at h
  simp [decode, decodeVector, fVd, fVa, fVb, hr, h]
theorem vlog2 (rnd : Rnd) (sat : Bool) (ty : Ty) (d a : VReg) : Statement (.vlog2 rnd sat ty d a) := of_word rfl fun h => by
  have hr : rnd ≠ .rs := by rintro rfl; simp [wellFormed, vTransOk] at h
  simp [decode, decodeVector, fVd, fVa, fVb, hr, h]
theorem vrcp (rnd : Rnd) (sat : Bool) (ty : Ty) (d a : VReg) : Statement (.vrcp rnd sat ty d a) := of_word rfl fun h => by
  have hr : rnd ≠ .rs := by rintro rfl; simp [wellFormed, vTransOk] at h
  simp [decode, decodeVector, fVd, fVa, fVb, hr, h]
theorem vrsqrt (rnd : Rnd) (sat : Bool) (ty : Ty) (d a : VReg) : Statement (.vrsqrt rnd sat ty d a) := of_word rfl fun h => by
  have hr : rnd ≠ .rs := by rintro rfl; simp [wellFormed, vTransOk] at h
  simp [decode, decodeVector, fVd, fVa, fVb, hr, h]
theorem vmulh (rnd : Rnd) (sat : Bool) (ty : Ty) (d a b : VReg) : Statement (.vmulh rnd sat ty d a b) := of_word rfl fun h => by
  have hr : rnd ≠ .rs := by rintro rfl; simp [wellFormed, vIntOk] at h
  simp [decode, decodeVector, fVd, fVa, fVb, hr, h]
theorem vcvt (rnd : Rnd) (dt st : Ty) (d a : VReg) (k : KReg) (cg : BitVec 4) : Statement (.vcvt rnd dt st d a k cg) := of_word rfl fun h => by
  simp [decode, decodeVcvt, fVd, fVa, h]
theorem vperm (ty : Ty) (d a b : VReg) : Statement (.vperm ty d a b) := of_word rfl fun h => by
  simp [decode, decodePermute, fVd, fVa, fVb, h]
theorem vbcast (ty : Ty) (d : VReg) (g : GReg) : Statement (.vbcast ty d g) := of_word rfl fun h => by
  simp [decode, decodePermute, fVd, h]
theorem vins (ty : Ty) (d : VReg) (g : GReg) (e : BitVec 6) : Statement (.vins ty d g e) := of_word rfl fun h => by
  simp [decode, decodePermute, fVd, h]
theorem vext (ty : Ty) (d : GReg) (a : VReg) (e : BitVec 6) : Statement (.vext ty d a e) := of_word rfl fun h => by
  simp [decode, decodePermute, fVd, h]
theorem vrot (ty : Ty) (d a : VReg) (n : BitVec 6) : Statement (.vrot ty d a n) := of_word rfl fun h => by
  simp [decode, decodePermute, fVd, fVa, fVb, h]
theorem vred (op : RedOp) (ty : Ty) (d a : VReg) : Statement (.vred op ty d a) := of_word rfl fun h => by
  simp [decode, decodePermute, fVd, fVa, fVb, h]
theorem wakeWord (n : Nat) : Statement (.wakeWord n) := of_no_word rfl
theorem sliceExpiry (tid : Nat) : Statement (.sliceExpiry tid) := of_no_word rfl
theorem waitCountExpiry (tid : Nat) : Statement (.waitCountExpiry tid) := of_no_word rfl
theorem instructionLineFill (core n : Nat) : Statement (.instructionLineFill core n) := of_no_word rfl
theorem storeDrain (core n : Nat) : Statement (.storeDrain core n) := of_no_word rfl
theorem impreciseReport (m : ReportMove) : Statement (.impreciseReport m) := of_no_word rfl
theorem releaseWalk (cl obj : Nat) : Statement (.releaseWalk cl obj) := of_no_word rfl
theorem launchAdmission (cl : Nat) : Statement (.launchAdmission cl) := of_no_word rfl
theorem launchEnd (cl h : Nat) : Statement (.launchEnd cl h) := of_no_word rfl
theorem checkpointComplete (cl h : Nat) : Statement (.checkpointComplete cl h) := of_no_word rfl
theorem preemptionComplete (cl h : Nat) : Statement (.preemptionComplete cl h) := of_no_word rfl
theorem copyTile (cl n : Nat) : Statement (.copyTile cl n) := of_no_word rfl
theorem copyForward (core : Nat) : Statement (.copyForward core) := of_no_word rfl
theorem monitorWindowEnd (core : Nat) (temp : Int) : Statement (.monitorWindowEnd core temp) := of_no_word rfl
theorem regulatorSettled (cl : Nat) : Statement (.regulatorSettled cl) := of_no_word rfl
theorem settleTimeout (cl : Nat) : Statement (.settleTimeout cl) := of_no_word rfl
theorem telemetrySample (cl : Nat) (codes : List (Nat × Nat)) : Statement (.telemetrySample cl codes) := of_no_word rfl
theorem droop (input : BitVec 16) : Statement (.droop input) := of_no_word rfl
theorem droopRecovery (input : BitVec 16) : Statement (.droopRecovery input) := of_no_word rfl
theorem inputBelow38V (input : BitVec 16) : Statement (.inputBelow38V input) := of_no_word rfl
theorem quiesce (input : BitVec 16) : Statement (.quiesce input) := of_no_word rfl
theorem sequencerStop (timeUp : Bool) : Statement (.sequencerStop timeUp) := of_no_word rfl
theorem inputRestored (input : BitVec 16) : Statement (.inputRestored input) := of_no_word rfl
theorem thermalTrip (core : Nat) (temp : Int) : Statement (.thermalTrip core temp) := of_no_word rfl
theorem replicaFailure (core : Nat) : Statement (.replicaFailure core) := of_no_word rfl
theorem configScrub (loc : TileLoc) (err : StoreError) : Statement (.configScrub loc err) := of_no_word rfl
theorem configReload (cl h : Nat) : Statement (.configReload cl h) := of_no_word rfl
theorem tileSwap (loc : TileLoc) : Statement (.tileSwap loc) := of_no_word rfl
theorem tileConfigToken (cl h : Nat) : Statement (.tileConfigToken cl h) := of_no_word rfl
theorem loadComplete (cl h : Nat) : Statement (.loadComplete cl h) := of_no_word rfl
theorem solveComplete (tid : Nat) : Statement (.solveComplete tid) := of_no_word rfl
theorem stageFiring (loc : TileLoc) (stage : Nat) : Statement (.stageFiring loc stage) := of_no_word rfl
theorem switchForward (loc : TileLoc) (word : Nat) : Statement (.switchForward loc word) := of_no_word rfl
theorem scratchpadWrite (loc : TileLoc) : Statement (.scratchpadWrite loc) := of_no_word rfl
theorem streamBufferPush (loc : TileLoc) : Statement (.streamBufferPush loc) := of_no_word rfl
theorem streamBufferPop (loc : TileLoc) : Statement (.streamBufferPop loc) := of_no_word rfl
theorem atomicPipelineUpdate (loc : TileLoc) : Statement (.atomicPipelineUpdate loc) := of_no_word rfl
theorem mandolineWindow (loc : TileLoc) : Statement (.mandolineWindow loc) := of_no_word rfl
theorem controllerPermit (loc : TileLoc) : Statement (.controllerPermit loc) := of_no_word rfl
theorem controllerDone (loc : TileLoc) : Statement (.controllerDone loc) := of_no_word rfl
theorem steer (loc : TileLoc) (node : Nat) : Statement (.steer loc node) := of_no_word rfl
theorem merge (loc : TileLoc) (node : Nat) : Statement (.merge loc node) := of_no_word rfl
theorem loopCarry (loc : TileLoc) (node : Nat) : Statement (.loopCarry loc node) := of_no_word rfl
theorem spoutReadRound (loc : TileLoc) : Statement (.spoutReadRound loc) := of_no_word rfl
theorem spoutWriteRound (loc : TileLoc) : Statement (.spoutWriteRound loc) := of_no_word rfl
theorem spoutReinject (loc : TileLoc) : Statement (.spoutReinject loc) := of_no_word rfl
theorem indirectGather (loc : TileLoc) : Statement (.indirectGather loc) := of_no_word rfl
theorem networkPortTransfer (loc : TileLoc) : Statement (.networkPortTransfer loc) := of_no_word rfl
theorem translationWalk (rim n : Nat) : Statement (.translationWalk rim n) := of_no_word rfl
theorem memoryAtomic (n : Nat) : Statement (.memoryAtomic n) := of_no_word rfl
theorem memoryReply (core : Nat) (reply : ReplyRead) : Statement (.memoryReply core reply) := of_no_word rfl
theorem dieLinkFlit (link : Nat) (flit : DieFlit) : Statement (.dieLinkFlit link flit) := of_no_word rfl
theorem peerFlit (link : Nat) (bytes : List Byte) : Statement (.peerFlit link bytes) := of_no_word rfl
theorem linkRetrain (link : Nat) (lockLost failed : Bool) : Statement (.linkRetrain link lockLost failed) := of_no_word rfl
theorem messageTransit (n : Nat) : Statement (.messageTransit n) := of_no_word rfl
theorem peerRst (n : Nat) : Statement (.peerRst n) := of_no_word rfl
theorem peerRat (n : Nat) : Statement (.peerRat n) := of_no_word rfl
theorem peerCopyData (n : Nat) : Statement (.peerCopyData n) := of_no_word rfl
theorem peerReducingData (n : Nat) : Statement (.peerReducingData n) := of_no_word rfl
theorem peerChannelToken (n : Nat) : Statement (.peerChannelToken n) := of_no_word rfl
theorem acknowledgement (n : Nat) : Statement (.acknowledgement n) := of_no_word rfl
theorem ratReply (n : Nat) : Statement (.ratReply n) := of_no_word rfl
theorem horizon (n : Nat) : Statement (.horizon n) := of_no_word rfl
theorem replayTimeout (chip : Nat) : Statement (.replayTimeout chip) := of_no_word rfl
theorem powerOn (report : SelfTest) : Statement (.powerOn report) := of_no_word rfl
theorem cap (v : Word) : Statement (.cap v) := of_no_word rfl
theorem hbeat (v : Word) : Statement (.hbeat v) := of_no_word rfl
theorem preempt (v : Word) : Statement (.preempt v) := of_no_word rfl
theorem resume (v : Word) : Statement (.resume v) := of_no_word rfl
theorem fqresume (v : Word) : Statement (.fqresume v) := of_no_word rfl
theorem lctWrite (v : Word) : Statement (.lctWrite v) := of_no_word rfl
theorem newctl (v : Word) : Statement (.newctl v) := of_no_word rfl
theorem verifyImage (src : SvcSrc) : Statement (.verifyImage src) := of_no_word rfl
theorem attestationQuote (src : SvcSrc) : Statement (.attestationQuote src) := of_no_word rfl
theorem writeEntry (src : SvcSrc) : Statement (.writeEntry src) := of_no_word rfl
theorem readFabricState (src : SvcSrc) : Statement (.readFabricState src) := of_no_word rfl
theorem restoreFabricState (src : SvcSrc) : Statement (.restoreFabricState src) := of_no_word rfl
theorem publishHorizon (src : SvcSrc) : Statement (.publishHorizon src) := of_no_word rfl
theorem setRetentionLog (src : SvcSrc) : Statement (.setRetentionLog src) := of_no_word rfl
theorem installGeneralFirmware (src : SvcSrc) : Statement (.installGeneralFirmware src) := of_no_word rfl
theorem ingressTailWrite (win : Nat) (v : Word) : Statement (.ingressTailWrite win v) := of_no_word rfl
theorem egressHeadWrite (win : Nat) (v : Word) : Statement (.egressHeadWrite win v) := of_no_word rfl
theorem attachmentWrite (egress : Bool) (win : Nat) (v : Word) : Statement (.attachmentWrite egress win v) := of_no_word rfl
theorem ingressPush (win : Nat) : Statement (.ingressPush win) := of_no_word rfl
theorem egressSlotWrite (win : Nat) : Statement (.egressSlotWrite win) := of_no_word rfl
theorem apertureRead (region : HostRegion) (off len : Nat) : Statement (.apertureRead region off len) := of_no_word rfl
theorem apertureWrite (fn off : Nat) (bytes : List Byte) : Statement (.apertureWrite fn off bytes) := of_no_word rfl
theorem msixUnmask (fn vec : Nat) : Statement (.msixUnmask fn vec) := of_no_word rfl
theorem registerWrite (w : RegWrite) : Statement (.registerWrite w) := of_no_word rfl
theorem undefinedInstruction (w : W32) : Statement (.undefinedInstruction w) := of_no_word rfl
theorem occupancyExchange (loc : TileLoc) (word : Nat) : Statement (.occupancyExchange loc word) := of_no_word rfl
theorem linkTrained (link lanes : Nat) (expected : BitVec 12) : Statement (.linkTrained link lanes expected) := of_no_word rfl
theorem potZeroingComplete (core : Nat) : Statement (.potZeroingComplete core) := of_no_word rfl
theorem ceilingRaise (cl budget : Nat) (ceilings : List (Nat × Nat × Nat)) : Statement (.ceilingRaise cl budget ceilings) := of_no_word rfl
theorem reset : Statement .reset := of_no_word rfl
theorem clearFaultRecord : Statement .clearFaultRecord := of_no_word rfl
theorem invalidateContext : Statement .invalidateContext := of_no_word rfl
theorem invalidateRange : Statement .invalidateRange := of_no_word rfl
theorem resetContext : Statement .resetContext := of_no_word rfl
theorem svcrsp : Statement .svcrsp := of_no_word rfl
theorem holdUpExhausted : Statement .holdUpExhausted := of_no_word rfl
theorem capFloorTimeout : Statement .capFloorTimeout := of_no_word rfl
theorem invalidateComplete : Statement .invalidateComplete := of_no_word rfl

end Sys2Proof.Laws.Codec
end

