-- ==== Sys2Proof/Machine/Image.lean ====
section
/-! DEFINITION. The context image of a thread (R67): the 208 little-endian words that spilling, pre-emption, migration and
checkpoints lay a thread out in, and the thread that an image gives back. A spilled record keeps the thread's fields as they
are (log 67). -/

namespace Sys2Proof.Machine

open Sys2Proof

/-- A channel slot's word (R67). -/
def chanWord (c : ChanEnd) : Word :=
  w64 (c.peer.toNat + 2 ^ 16 * c.pslot.toNat + (if c.out then 2 ^ 19 else 0) + (if c.bound then 2 ^ 20 else 0) +
    (if c.port then 2 ^ 21 else 0) + 2 ^ 32 * c.desc.toNat)

/-- The channel slot of a word. -/
def chanOfWord (w : Word) : ChanEnd :=
  { peer := w.setWidth 16, pslot := w.extractLsb' 16 3, out := bit w 19, bound := bit w 20, port := bit w 21,
    desc := w.extractLsb' 32 16 }

/-- A key register's two words (R52). -/
def keyWords (k : KeyReg) : List Word :=
  [w64 (k.step.toNat + 2 ^ 32 * k.tensor.toNat + if k.valid then 2 ^ 63 else 0), k.seed]

/-- The key register of two words. -/
def keyOfWords (a b : Word) : KeyReg := { valid := bit a 63, tensor := a.extractLsb' 32 24, step := a.setWidth 32, seed := b }

/-- The eight words of a v register (R51). -/
def vecWords (x : Vec512) : List Word := (List.range 8).map fun i => x.extractLsb' (64 * i) 64

/-- The v register of eight words. -/
def vecOfWords (ws : List Word) : Vec512 := pack 64 ((ws.take 8).map BitVec.toNat)

/-- The CSRs of an image, 0x00 to 0x0C: the context's own are zero, and of KEYHIST the select field alone is kept (R67). -/
def csrWords (s : State) (tid : Nat) (t : Thread) : List Word :=
  (List.range 13).map fun n =>
    if n = 0x05 ∨ n = 0x09 ∨ n = 0x0A ∨ n = 0x0B then 0
    else if n = 0x0C then w64 (2 ^ 56 * t.histSel.toNat)
    else readCsr s tid t n

/-- The words of a thread's context image (R67). -/
def imageWords (s : State) (tid : Nat) (t : Thread) : List Word :=
  (0 :: t.g.toList.tail) ++ t.v.toList.flatMap vecWords ++ t.k.toList.flatMap keyWords ++ t.ch.toList.map chanWord ++ [t.pc] ++
    csrWords s tid t ++ [t.xreqOrdinal, 0] ++ t.watchAddr.toList ++ t.watchMask.toList

/-- A thread's context image: 1,664 bytes (R67). -/
def contextImage (s : State) (tid : Nat) (t : Thread) : List Byte := (imageWords s tid t).flatMap fun w => leBytes 8 w.toNat

/-- The words of an image. -/
def wordsOfImage : Nat → List Byte → List Word
  | 0, _ => []
  | n + 1, b => w64 (leNat (b.take 8)) :: wordsOfImage n (b.drop 8)

/-- Bits [hi:lo] of a word are zero. -/
def clearBits (w : Word) (hi lo : Nat) : Bool := bits w hi lo = 0

/-- The places of a CSR's word that R53 gives as zero are zero. -/
def csrClear (n : Nat) (w : Word) : Bool :=
  match n with
  | 0x00 => clearBits w 63 4
  | 0x01 => clearBits w 63 24 && clearBits w 15 10
  | 0x03 | 0x04 => clearBits w 1 0
  | 0x06 => clearBits w 63 32
  | 0x07 => clearBits w 63 22
  | 0x08 => clearBits w 63 24
  | 0x0C => clearBits w 63 61 && clearBits w 55 0
  | _ => true

/-- The bits that the layout states zero are zero (R67). -/
def imageClear (ws : List Word) : Bool :=
  let w := fun (i : Nat) => ws.getD i 0
  ((List.range 8).all fun i => clearBits (w (160 + 2 * i)) 62 56) &&
  ((List.range 8).all fun i => clearBits (w (176 + i)) 31 22 && clearBits (w (176 + i)) 63 48) &&
  clearBits (w 184) 1 0 && ((List.range 13).all fun n => csrClear n (w (185 + n))) && w 199 = 0 &&
  ((List.range 4).all fun i => clearBits (w (204 + i)) 63 12)

/-- A vector from places of a list. -/
def vecAt {α : Type} (n : Nat) (f : Nat → α) : Vector α n := Vector.ofFn fun i => f i.val

/-- Restore an image into the record that is to be the thread's: ILLEGAL where a bit that the layout states zero is not; g0 and
the slots of the context's registers are ignored (R67). -/
def restoreImage (r : Thread) (b : List Byte) : Except Cause Thread :=
  let ws := wordsOfImage 208 b
  let w := fun (i : Nat) => ws.getD i 0
  if !imageClear ws then .error .illegal else
  .ok { r with
    g := vecAt 32 fun i => if i = 0 then 0 else w i
    v := vecAt 16 fun i => vecOfWords (ws.drop (32 + 8 * i))
    k := vecAt 8 fun i => keyOfWords (w (160 + 2 * i)) (w (161 + 2 * i))
    ch := vecAt 8 fun i => chanOfWord (w (176 + i))
    pc := w 184
    status := w 185
    tcause := w 186
    tvalue := w 187
    tvec := w 188
    tpc := w 189
    slice := (w 191).setWidth 32
    histSel := (w 197).extractLsb' 56 5
    xreqOrdinal := w 198
    watchAddr := vecAt 4 fun i => w (200 + i)
    watchMask := vecAt 4 fun i => w (204 + i) }

end Sys2Proof.Machine
end

