-- ==== Sys2Proof/Safety.lean ====
section
/-! DEFINITION. What counts as a safe state and a safe run, and the words in which claims about one instruction are said: that
it completes with a given effect, that it traps, that it waits, and what it leaves alone. -/

namespace Sys2Proof

open Sys2Proof.Machine

/-- Global memory and every listed pot memory keep the canonical form. -/
def MemorySafe (s : State) : Prop := s.mem.wf = true ∧ ∀ c k, (c, k) ∈ s.cores → k.pots.wf = true

/-- A step that leaves a next state. -/
def Steps (s s' : State) : Prop := step s = .next s'

/-- A thread runs: it is live and it is the one that issues. -/
def Issues (s : State) (t : Thread) : Prop := s.thread? s.cur = some t

/-- Two states agree but for the record of one thread and the clusters' charges of R269: every other thread, the memories, the
pots, the contexts with their check-interval bits, the cores, the rim dies, the fabric, the host side and every table of a
cluster are the same. -/
def AgreeBut (tid : Nat) (s s' : State) : Prop :=
  (∀ n, n ≠ tid → s'.thread? n = s.thread? n) ∧
  (∀ c, { s'.cluster c with deficits := [] } = { s.cluster c with deficits := [] }) ∧
  s' = { s with threads := s'.threads, clusters := s'.clusters }

/-- The thread that issues completes an instruction: it answers a next state, which is `s1` (the state with the instruction's
effect outside the thread's record) but for the record of the thread. That record has changed by `f`; the next address is `pc`,
and SLICE is charged one instruction (R59, R90). -/
def Completes (s : State) (i : Instr) (s1 : State) (f : Thread → Thread) (pc : Word) : Prop :=
  ∃ s', exec i s = .next s' ∧ s'.thread? s.cur = (s1.thread? s.cur).map (fun x => advance (f x) pc) ∧ AgreeBut s.cur s1 s'

/-- An instruction that only writes a g register and goes on to the next word (R50, R90). -/
def WritesG (s : State) (t : Thread) (i : Instr) (d : GReg) (x : Word) : Prop :=
  Completes s i s (fun r => writeG r d x) (t.pc + 4)

/-- An instruction that only writes a v register and goes on to the next word (R50, R90). -/
def WritesV (s : State) (t : Thread) (i : Instr) (d : VReg) (x : Vec512) : Prop :=
  Completes s i s (fun r => writeV r d x) (t.pc + 4)

/-- An instruction of a thread outside a handler that completes as `Completes` says and is followed by a trap: TPC is the next
instruction (R137, R138, R146). -/
def CompletesInto (s : State) (i : Instr) (s1 : State) (f : Thread → Thread) (pc : Word) (c : Cause) (value : Word)
    (warning : Bool) : Prop :=
  ∃ s', exec i s = .next s' ∧
    s'.thread? s.cur = (s1.thread? s.cur).map (fun x => enterTrap (advance (f x) pc) c value pc true warning 0) ∧
    AgreeBut s.cur s1 s'

/-- An access of `n` bytes at `ea` completes and goes on to the next word; where a watchpoint of the thread matches it, and the
thread is not in a handler, WATCH follows (R145, R146). -/
def CompletesAccess (s : State) (t : Thread) (i : Instr) (ea n : Nat) (k : WatchKind) (s1 : State) (f : Thread → Thread) : Prop :=
  (watchMatch t ea n k = none → Completes s i s1 f (t.pc + 4)) ∧
  (∀ w v, watchMatch t ea n k = some (w, v) → t.inTrap = false → CompletesInto s i s1 f (t.pc + 4) .watch v false)

/-- An instruction of a thread outside a handler that takes a precise trap with none of its effect (R137, R138). -/
def Traps (s : State) (t : Thread) (i : Instr) (c : Cause) (value : Word) : Prop :=
  exec i s = .next (s.setThread s.cur (enterTrap t c value t.pc true false 0))

/-- An instruction whose thread waits: `s1` is the state with what the wait registers (R57). That the count of issue slots spent
waiting starts at 0 is the model's choice (log 73). -/
def Waits (s : State) (i : Instr) (s1 : State) (r : WaitReason) : Prop :=
  exec i s = .next (s1.modThread s.cur fun x => { x with run := .waiting r, waitedSlots := 0 })

/-! ## Numbers as the spec writes them -/

/-- The low bits of a register that a type's operation takes (R91). -/
def lowBits (ty : Ty) (x : Word) : BitVec ty.width := x.setWidth ty.width

/-- Those bits read by the type's signedness (R91). -/
def typedValue (ty : Ty) (x : Word) : Int := if ty.isSigned then (lowBits ty x).toInt else (lowBits ty x).toNat

/-- A pattern extended to the register by the type's signedness (R91). -/
def extended (ty : Ty) (p : BitVec ty.width) : Word := if ty.isSigned then p.signExtend 64 else p.setWidth 64

/-- An exact result reduced modulo two to the width and extended (R91). -/
def reduced (ty : Ty) (x : Int) : Word := extended ty (BitVec.ofInt ty.width x)

/-- The least value of an integer type (R71). -/
def leastOf (ty : Ty) : Int := if ty.isSigned then -(2 ^ (ty.width - 1)) else 0

/-- The greatest value of an integer type (R71). -/
def greatestOf (ty : Ty) : Int := if ty.isSigned then 2 ^ (ty.width - 1) - 1 else 2 ^ ty.width - 1

end Sys2Proof
end

