-- ==== Sys2Proof/Certificates/Slice0/Obligations.lean ====
section
/-! DEFINITION. The statements for the provers. -/

open Sys2Proof Sys2Proof.Machine

/-! ## Integer arithmetic, immediates and branches -/

/-- R91, R92 and R94 for the integer register operations but DIV, REM, BFX and BFI: each completes with the result of the table,
reduced and extended; the sources are read before gd is written, and a write to g0 is discarded. -/
def Obligations.IntegerOperationsWriteTheirTableResult : Prop :=
  ∀ (s : State) (t : Thread) (ty : Ty) (d a b : GReg), Issues s t → ty.isInt = true →
    let A := typedValue ty (readG t a)
    let B := typedValue ty (readG t b)
    let x := lowBits ty (readG t a)
    let y := lowBits ty (readG t b)
    let n := (readG t b).toNat
    WritesG s t (.add ty d a b) d (reduced ty (A + B)) ∧
    WritesG s t (.sub ty d a b) d (reduced ty (A - B)) ∧
    WritesG s t (.mul ty d a b) d (reduced ty (A * B)) ∧
    WritesG s t (.mulh ty d a b) d (reduced ty (A * B / 2 ^ ty.width)) ∧
    WritesG s t (.adds ty d a b) d (reduced ty (max (leastOf ty) (min (greatestOf ty) (A + B)))) ∧
    WritesG s t (.subs ty d a b) d (reduced ty (max (leastOf ty) (min (greatestOf ty) (A - B)))) ∧
    WritesG s t (.and ty d a b) d (extended ty (x &&& y)) ∧
    WritesG s t (.or ty d a b) d (extended ty (x ||| y)) ∧
    WritesG s t (.xor ty d a b) d (extended ty (x ^^^ y)) ∧
    WritesG s t (.andn ty d a b) d (extended ty (x &&& ~~~y)) ∧
    WritesG s t (.sll ty d a b) d (extended ty (x <<< n)) ∧
    WritesG s t (.srl ty d a b) d (extended ty (x >>> n)) ∧
    WritesG s t (.sra ty d a b) d (extended ty (x.sshiftRight n)) ∧
    WritesG s t (.rotl ty d a b) d (extended ty (x.rotateLeft (n % ty.width))) ∧
    WritesG s t (.seq ty d a b) d (if A = B then 1 else 0) ∧
    WritesG s t (.slt ty d a b) d (if A < B then 1 else 0) ∧
    WritesG s t (.sle ty d a b) d (if A ≤ B then 1 else 0) ∧
    WritesG s t (.min ty d a b) d (reduced ty (min A B)) ∧
    WritesG s t (.max ty d a b) d (reduced ty (max A B)) ∧
    WritesG s t (.sel ty d a b) d (extended ty (if readG t d ≠ 0 then x else y)) ∧
    (∃ k, WritesG s t (.clz ty d a) d (BitVec.ofNat 64 k) ∧
      if x = 0 then k = ty.width else k < ty.width ∧ 2 ^ (ty.width - 1 - k) ≤ x.toNat ∧ x.toNat < 2 ^ (ty.width - k)) ∧
    WritesG s t (.popc ty d a) d (BitVec.ofNat 64 ((List.range ty.width).filter fun i => x.getLsbD i).length)

/-- R93: DIV rounds toward zero and REM has the sign of the dividend; a zero divisor gives all ones and the dividend; the most
negative value of a signed type divided by −1 gives itself and remainder 0. Neither case traps: both complete. The word that the rule
assembles decodes to its instruction. -/
def Obligations.DivisionTruncatesAndItsTwoCornersAreFixed : Prop :=
  decode 0x0443004C#32 = .ok (.div .s64 2 3 0) ∧
  ∀ (s : State) (t : Thread) (ty : Ty) (d a b : GReg), Issues s t → ty.isInt = true →
    let A := typedValue ty (readG t a)
    let B := typedValue ty (readG t b)
    ∃ q r, WritesG s t (.div ty d a b) d (extended ty q) ∧ WritesG s t (.rem ty d a b) d (extended ty r) ∧
      (B = 0 → q = BitVec.allOnes ty.width ∧ r = lowBits ty (readG t a)) ∧
      (ty.isSigned = true → A = leastOf ty → B = -1 → q = lowBits ty (readG t a) ∧ r = 0) ∧
      (B ≠ 0 → ¬(ty.isSigned = true ∧ A = leastOf ty ∧ B = -1) →
        ∃ Q R : Int, q = BitVec.ofInt ty.width Q ∧ r = BitVec.ofInt ty.width R ∧ A = Q * B + R ∧ |R| < |B| ∧
          (R = 0 ∨ (0 ≤ R ↔ 0 ≤ A)) ∧ leastOf ty ≤ Q ∧ Q ≤ greatestOf ty)

/-- R95: the bit fields. Bits 63 to 13 of gb do not matter, and a length past bit 63 is cut. -/
def Obligations.BitFieldsExtractAndInsert : Prop :=
  ∀ (s : State) (t : Thread) (ty : Ty) (d a b : GReg), Issues s t → ty = .s64 ∨ ty = .n64 →
    let pos := (readG t b).toNat % 64
    let len := min ((readG t b).toNat / 64 % 128) (64 - pos)
    ∃ x y, WritesG s t (.bfx ty d a b) d x ∧ WritesG s t (.bfi ty d a b) d y ∧
      (∀ i, i < len → x.getLsbD i = (readG t a).getLsbD (pos + i)) ∧
      (∀ i, len ≤ i → i < 64 → x.getLsbD i = (ty = .s64 && 0 < len && (readG t a).getLsbD (pos + len - 1))) ∧
      (∀ i, i < 64 → y.getLsbD i = if pos ≤ i ∧ i < pos + len then (readG t a).getLsbD (i - pos) else (readG t d).getLsbD i)

/-- R97: the immediate forms act on whole registers, and the word that the rule assembles decodes to its instruction; NOP changes
nothing but the address (R133). -/
def Obligations.ImmediateFormsActOnWholeRegisters : Prop :=
  decode 0x1CA31234#32 = .ok (.lui 5 3 0x1234) ∧
  ∀ (s : State) (t : Thread) (d a : GReg) (imm : BitVec 16) (h : BitVec 2) (n : BitVec 6), Issues s t →
    let x := readG t a
    WritesG s t (.addi d a imm) d (x + imm.signExtend 64) ∧
    WritesG s t (.andi d a imm) d (x &&& imm.setWidth 64) ∧
    WritesG s t (.ori d a imm) d (x ||| imm.setWidth 64) ∧
    WritesG s t (.xori d a imm) d (x ^^^ imm.setWidth 64) ∧
    WritesG s t (.slti d a imm) d (if x.toInt < imm.toInt then 1 else 0) ∧
    WritesG s t (.lui d h imm) d (imm.signExtend 64 <<< (16 * h.toNat)) ∧
    WritesG s t (.addpc d imm) d (t.pc + 4 * imm.signExtend 64) ∧
    WritesG s t (.slli d a n) d (x <<< n.toNat) ∧
    WritesG s t (.srli d a n) d (x >>> n.toNat) ∧
    WritesG s t (.srai d a n) d (x.sshiftRight n.toNat) ∧
    WritesG s t (.rotli d a n) d (x.rotateLeft n.toNat) ∧
    Completes s .nop s id (t.pc + 4)

/-- R99: the conditional branches compare whole registers; no register changes. -/
def Obligations.BranchesGoToTheirTargetWhenTheConditionHolds : Prop :=
  ∀ (s : State) (t : Thread) (a b : GReg) (off : BitVec 16), Issues s t →
    let x := readG t a
    let y := readG t b
    let next := fun c : Bool => if c then t.pc + 4 * off.signExtend 64 else t.pc + 4
    Completes s (.beq a b off) s id (next (decide (x = y))) ∧
    Completes s (.bne a b off) s id (next (decide (x ≠ y))) ∧
    Completes s (.blt a b off) s id (next (decide (x.toInt < y.toInt))) ∧
    Completes s (.bge a b off) s id (next (decide (y.toInt ≤ x.toInt))) ∧
    Completes s (.bltn a b off) s id (next (decide (x.toNat < y.toNat))) ∧
    Completes s (.bgen a b off) s id (next (decide (y.toNat ≤ x.toNat)))

/-- R100: the jumps, with ALIGN for a target of JLR that is no word address; and LOOP as R101 gives it. -/
def Obligations.JumpsAndLoopsGoWhereTheySay : Prop :=
  ∀ (s : State) (t : Thread) (d a : GReg) (imm : BitVec 16) (off : BitVec 26), Issues s t →
    let target := readG t a + imm.signExtend 64
    Completes s (.j off) s id (t.pc + 4 * off.signExtend 64) ∧
    Completes s (.jl off) s (fun r => writeG r 31 (t.pc + 4)) (t.pc + 4 * off.signExtend 64) ∧
    (target.toNat % 4 = 0 → Completes s (.jlr d a imm) s (fun r => writeG r d (t.pc + 4)) target) ∧
    (target.toNat % 4 ≠ 0 → t.inTrap = false → Traps s t (.jlr d a imm) .align target) ∧
    (readG t a = 0 → Completes s (.loop a imm) s id (t.pc + 4)) ∧
    (readG t a ≠ 0 → Completes s (.loop a imm) s (fun r => writeG r a (readG t a - 1))
      (if readG t a - 1 ≠ 0 then t.pc + 4 * imm.signExtend 64 else t.pc + 4))

/-! ## Memory accesses of threads -/

/-- R113: the checks on an effective address, in order, the first that fails decides; a check that fails is a precise trap whose value
is the effective address, for every memory instruction. -/
def Obligations.AddressChecksAreOrderedAndTrapWithTheAddress : Prop :=
  (
    ∀ (s : State) (t : Thread) (ea : Word) (width : Nat) (acc : Access),
      let lc := 128 * (t.lcore / 128) + (ea.extractLsb 29 23).toNat
      let e := s.lct lc
      let pot := (ea.extractLsb 22 17).toNat
      let scratch := isScratch (s.tile { core := s.phys lc, tile := potTile pot })
      (ea.toNat % width ≠ 0 → resolve s t ea width acc = .error .align) ∧
      (ea.toNat % width = 0 → ea.getLsbD 63 = true →
        (ea.extractLsb 62 30 ≠ 0 ∨ 47 < pot → resolve s t ea width acc = .error .potrange) ∧
        (ea.extractLsb 62 30 = 0 → pot ≤ 47 →
          (e.allocated = false ∨ e.ctx.toNat ≠ t.ctx → resolve s t ea width acc = .error .protect) ∧
          (e.allocated = true → e.ctx.toNat = t.ctx →
            (scratch = false → resolve s t ea width acc = .error .potrange) ∧
            (scratch = true → resolve s t ea width acc = .ok (.pot (s.phys lc) (ea.extractLsb 22 0).toNat, s))))) ∧
      (ea.toNat % width = 0 → ea.getLsbD 63 = false →
        (ea.extractLsb 62 52 ≠ 0 → resolve s t ea width acc = .error .protect) ∧
        (ea.extractLsb 62 52 = 0 → ∀ presence s',
          (∀ pa, translate s t.ctx ea.toNat acc (!t.system) = (.ok pa, presence, s') →
            resolve s t ea width acc = .ok (.glob pa presence, s')) ∧
          (∀ protect reason level, translate s t.ctx ea.toNat acc (!t.system) = (.fail protect reason level, presence, s') →
            resolve s t ea width acc = .error (if protect then .protect else .page))))) ∧
  (
    ∀ (s : State) (t : Thread) (ql : LdQual) (qs : StQual) (op : AmoOp) (ord : MemOrder) (ty : Ty) (size : BitVec 3)
      (d base b : GReg) (v : VReg) (off : BitVec 11) (c : Cause), Issues s t → t.inTrap = false →
      let at_ := fun width : Nat => readG t base + off.signExtend 64 * BitVec.ofNat 64 width
      let n := 2 ^ (size.toNat % 4)
      (resolve s t (at_ n) n .read = .error c →
        Traps s t (.ld ql size d base off) c (at_ n) ∧ Traps s t (.ldw size d base off) c (at_ n)) ∧
      (resolve s t (at_ n) n .write = .error c →
        Traps s t (.st qs size d base off) c (at_ n) ∧ Traps s t (.stf size d base off) c (at_ n)) ∧
      (resolve s t (at_ n) n .atomic = .error c → Traps s t (.ldc size d base off) c (at_ n)) ∧
      (resolve s t (at_ 1) 1 .write = .error c → Traps s t (.clrf base off) c (at_ 1)) ∧
      (resolve s t (at_ 64) 64 .read = .error c → Traps s t (.ldv ql v base off) c (at_ 64)) ∧
      (resolve s t (at_ 64) 64 .write = .error c → Traps s t (.stv qs v base off) c (at_ 64)) ∧
      (resolve s t (readG t base) (ty.width / 8) .atomic = .error c → Traps s t (.amo op ord ty d base b) c (readG t base)))

/-- R116 and R338: LD and LDV from a pot wait for the thread's releasing stores to drain, then complete with the bytes that stand
there; an acquire empties the read buffer; memory and pots are as before. R137 and R203: a granule that is marked poisoned traps, with
the address of the first one. R145 and R146: which watchpoint matches an access of which kind, and the value of its WATCH. -/
def Obligations.PotLoadsReturnTheBytesThatStandThere : Prop :=
  ∀ (s : State) (t : Thread) (q : LdQual) (size : BitVec 3) (d base : GReg) (v : VReg) (off : BitVec 11) (core a : Nat),
    Issues s t →
    let n := 2 ^ (size.toNat % 4)
    let ea := readG t base + off.signExtend 64 * BitVec.ofNat 64 n
    let eav := readG t base + off.signExtend 64 * 64
    let s1 := if q = .acq then acquireFor s t else s
    let free := hasReleases s (s.coreOf t) s.cur = false
    (resolve s t ea n .read = .ok (.pot core a, s) →
      (¬free → Waits s (.ld q size d base off) s .storeBuffer) ∧
      (free → s.potPoison core a n = none →
        CompletesAccess s t (.ld q size d base off) ea.toNat n .load s1
          (fun r => writeG r d (loadValue (decide (4 ≤ size.toNat)) (mreads (s.core core).pots a n)))) ∧
      (∀ g, free → s.potPoison core a n = some g → t.inTrap = false →
        Traps s t (.ld q size d base off) .poison (BitVec.ofNat 64 (ea.toNat + 16 * g - a)))) ∧
    (resolve s t eav 64 .read = .ok (.pot core a, s) →
      (¬free → Waits s (.ldv q v base off) s .storeBuffer) ∧
      (free → s.potPoison core a 64 = none →
        CompletesAccess s t (.ldv q v base off) eav.toNat 64 .load s1
          (fun r => writeV r v (bytesTok (mreads (s.core core).pots a 64)))) ∧
      (∀ g, free → s.potPoison core a 64 = some g → t.inTrap = false →
        Traps s t (.ldv q v base off) .poison (BitVec.ofNat 64 (eav.toNat + 16 * g - a)))) ∧
    s1.mem = s.mem ∧ s1.threads = s.threads ∧ (∀ c, (s1.core c).pots = (s.core c).pots) ∧
    (q = .acq → (s1.core (s.coreOf t)).readBuf = []) ∧
    (∀ m, 0 < m →
      (s.potPoison core a m = none ↔ ∀ g, a / 16 ≤ g → g ≤ (a + m - 1) / 16 → nsMem (s.core core).poisoned g = false) ∧
      ∀ g, s.potPoison core a m = some g → a / 16 ≤ g ∧ g ≤ (a + m - 1) / 16 ∧ nsMem (s.core core).poisoned g = true ∧
        ∀ j, a / 16 ≤ j → j < g → nsMem (s.core core).poisoned j = false) ∧
    (∀ (x m : Nat) (k : WatchKind),
      let hits := fun i : Fin 4 => t.watchMask[i].getLsbD 10 = true ∧
        (match k with
          | .load => t.watchMask[i].getLsbD 8 = true
          | .store => t.watchMask[i].getLsbD 9 = true
          | .both => t.watchMask[i].getLsbD 8 = true ∨ t.watchMask[i].getLsbD 9 = true
          | .engine => t.watchMask[i].getLsbD 9 = true ∧ t.watchMask[i].getLsbD 11 = true) ∧
        ∃ b, b < 8 ∧ t.watchMask[i].getLsbD b = true ∧ x ≤ t.watchAddr[i].toNat / 8 * 8 + b ∧
          t.watchAddr[i].toNat / 8 * 8 + b < x + m
      (watchMatch t x m k = none ↔ ∀ i, ¬hits i) ∧
      ∀ i, hits i → (∀ j, j < i → ¬hits j) →
        watchMatch t x m k = some (i.val, BitVec.ofNat 64 (t.watchAddr[i].toNat / 8 * 8 + i.val)))

/-- R65, R66, R116 and R338: LD and LDV from global memory complete, an acquire once the thread's stores have drained and .fresh
once its releasing stores have; where no line is buffered, or the qualifier passes it by, a thread without undrained stores gets
the bytes of memory. Memory and pots are as before. R137 and R302: a granule that is marked poisoned traps, with the address of the
first one. -/
def Obligations.GlobalLoadsReturnTheBytesOfMemory : Prop :=
  ∀ (s s1 : State) (t : Thread) (q : LdQual) (size : BitVec 3) (d base : GReg) (v : VReg) (off : BitVec 11) (pa : Nat)
    (presence : Bool), Issues s t →
    let n := 2 ^ (size.toNat % 4)
    let ea := readG t base + off.signExtend 64 * BitVec.ofNat 64 n
    let eav := readG t base + off.signExtend 64 * 64
    let got := fun (ea : Word) (n : Nat) => loadGlobal s1 (s1.coreOf t) s1.cur t.ctx ea.toNat pa n q
    let free := (q = .acq → hasStores s1 (s1.coreOf t) s1.cur = false) ∧ (q = .fresh → hasReleases s1 (s1.coreOf t) s1.cur = false)
    (resolve s t ea n .read = .ok (.glob pa presence, s1) →
      (¬free → Waits s (.ld q size d base off) s1 .storeBuffer) ∧
      (free → s1.poisonAt pa n = none →
        CompletesAccess s t (.ld q size d base off) ea.toNat n .load (got ea n).2
          (fun r => writeG r d (loadValue (decide (4 ≤ size.toNat)) (got ea n).1))) ∧
      (∀ g, free → s1.poisonAt pa n = some g → t.inTrap = false →
        Traps s t (.ld q size d base off) .poison (BitVec.ofNat 64 (ea.toNat + 16 * g - pa)))) ∧
    (resolve s t eav 64 .read = .ok (.glob pa presence, s1) →
      (¬free → Waits s (.ldv q v base off) s1 .storeBuffer) ∧
      (free → s1.poisonAt pa 64 = none →
        CompletesAccess s t (.ldv q v base off) eav.toNat 64 .load (got eav 64).2
          (fun r => writeV r v (bytesTok (got eav 64).1))) ∧
      (∀ g, free → s1.poisonAt pa 64 = some g → t.inTrap = false →
        Traps s t (.ldv q v base off) .poison (BitVec.ofNat 64 (eav.toNat + 16 * g - pa)))) ∧
    (∀ m, 0 < m →
      (s1.poisonAt pa m = none ↔ ∀ g, pa / 16 ≤ g → g ≤ (pa + m - 1) / 16 → nsMem s1.poison g = false) ∧
      ∀ g, s1.poisonAt pa m = some g → pa / 16 ≤ g ∧ g ≤ (pa + m - 1) / 16 ∧ nsMem s1.poison g = true ∧
        ∀ j, pa / 16 ≤ j → j < g → nsMem s1.poison j = false) ∧
    (∀ w k, (got w k).2.mem = s1.mem ∧ (got w k).2.threads = s1.threads ∧ (∀ c, ((got w k).2.core c).pots = (s1.core c).pots) ∧
      (q ≠ .plain ∨ lineOf s1 (s1.coreOf t) t.ctx (w.toNat / 64) = none →
        (∀ e ∈ (s1.core (s1.coreOf t)).stores, e.tid ≠ s1.cur) → (got w k).1 = mreads s1.mem pa k)) ∧
    (∀ w k acc, resolve s t w k acc = .ok (.glob pa presence, s1) →
      s1.mem = s.mem ∧ s1.threads = s.threads ∧ s1.cores = s.cores ∧ s1.cur = s.cur)

/-- R116 and R338: ST and STV to a pot are performed at once, a plain one after the thread's releasing stores and a releasing one
after its stores and remote operations, for which the thread waits; exactly the bytes of the access change, in that pot alone. -/
def Obligations.PotStoresChangeExactlyTheirBytes : Prop :=
  ∀ (s : State) (t : Thread) (q : StQual) (size : BitVec 3) (d base : GReg) (v : VReg) (off : BitVec 11) (core a : Nat),
    Issues s t →
    let n := 2 ^ (size.toNat % 4)
    let ea := readG t base + off.signExtend 64 * BitVec.ofNat 64 n
    let eav := readG t base + off.signExtend 64 * 64
    let undrained := if q = .rel then hasStores s (s.coreOf t) s.cur else hasReleases s (s.coreOf t) s.cur
    (resolve s t ea n .write = .ok (.pot core a, s) →
      (undrained = true → Waits s (.st q size d base off) s .storeBuffer) ∧
      (undrained = false → q = .rel → t.remotePending ≠ [] → Waits s (.st q size d base off) s .remote) ∧
      (undrained = false → (q = .rel → t.remotePending = []) →
        CompletesAccess s t (.st q size d base off) ea.toNat n .store (potStore s core a (leBytes n (readG t d).toNat)) id)) ∧
    (resolve s t eav 64 .write = .ok (.pot core a, s) →
      (undrained = true → Waits s (.stv q v base off) s .storeBuffer) ∧
      (undrained = false → q = .rel → t.remotePending ≠ [] → Waits s (.stv q v base off) s .remote) ∧
      (undrained = false → (q = .rel → t.remotePending = []) →
        CompletesAccess s t (.stv q v base off) eav.toNat 64 .store (potStore s core a (tokBytes (readV t v))) id)) ∧
    (∀ bytes, (s.core core).pots.wf = true →
      let s1 := potStore s core a bytes
      s1.mem = s.mem ∧ s1.threads = s.threads ∧ s1.contexts = s.contexts ∧ s1.fabric = s.fabric ∧
      ∀ c x, mread (s1.core c).pots x =
        if c = core ∧ a ≤ x ∧ x < a + bytes.length then bytes.getD (x - a) 0 else mread (s.core c).pots x)

/-- R66: ST and STV to global memory enter the store buffer, unless it is full, when the thread waits; a releasing one waits first
for the thread's stores and remote operations (R338). No byte of memory and no pot changes yet. -/
def Obligations.GlobalStoresEnterTheStoreBuffer : Prop :=
  ∀ (s s1 : State) (t : Thread) (q : StQual) (size : BitVec 3) (d base : GReg) (v : VReg) (off : BitVec 11) (pa : Nat)
    (presence : Bool), Issues s t →
    let n := 2 ^ (size.toNat % 4)
    let ea := readG t base + off.signExtend 64 * BitVec.ofNat 64 n
    let eav := readG t base + off.signExtend 64 * 64
    let core := s1.coreOf t
    let undrained := q = .rel ∧ hasStores s1 core s1.cur = true
    let unanswered := q = .rel ∧ t.remotePending ≠ []
    let room := (s1.core core).stores.length < 64
    let entered := fun (ea : Word) (b : List Byte) => s1.modCore core fun c =>
      { c with stores := c.stores ++
          [{ tid := s1.cur, ctx := t.ctx, va := ea.toNat, pa := pa, bytes := b, rel := decide (q = .rel), allVa := false }] }
    (resolve s t ea n .write = .ok (.glob pa presence, s1) →
      (¬undrained → ¬unanswered → room → CompletesAccess s t (.st q size d base off) ea.toNat n .store
        (entered ea (leBytes n (readG t d).toNat)) id) ∧
      (¬undrained → unanswered → Waits s (.st q size d base off) s1 .remote) ∧
      (undrained ∨ ¬unanswered ∧ ¬room → Waits s (.st q size d base off) s1 .storeBuffer)) ∧
    (resolve s t eav 64 .write = .ok (.glob pa presence, s1) →
      (¬undrained → ¬unanswered → room → CompletesAccess s t (.stv q v base off) eav.toNat 64 .store
        (entered eav (tokBytes (readV t v))) id) ∧
      (¬undrained → unanswered → Waits s (.stv q v base off) s1 .remote) ∧
      (undrained ∨ ¬unanswered ∧ ¬room → Waits s (.stv q v base off) s1 .storeBuffer))

/-- R66: a store that drains writes exactly its bytes to memory and leaves the buffer; an entry that is not the oldest of its
thread stays (an event that cannot act leaves the state as it is: log 17). INSTRUCTION_LINE_FILL brings a line that was asked for and
wakes who waits for it (R64). -/
def Obligations.DrainsAndLineFillsActOnTheirEntry : Prop :=
  ∀ (s : State) (core n : Nat),
    (∀ e, (s.core core).stores[n]? = some e →
      (((s.core core).stores.take n).any (fun x => x.tid = e.tid) = true → exec (.storeDrain core n) s = .next s) ∧
      (((s.core core).stores.take n).any (fun x => x.tid = e.tid) = false → s.mem.wf = true →
        ∃ s', exec (.storeDrain core n) s = .next s' ∧ (s'.core core).stores = (s.core core).stores.eraseIdx n ∧
          (∀ x, mread s'.mem x = if e.pa ≤ x ∧ x < e.pa + e.bytes.length then e.bytes.getD (x - e.pa) 0 else mread s.mem x) ∧
          (∀ c, (s'.core c).pots = (s.core c).pots) ∧ s'.contexts = s.contexts)) ∧
    (∀ ctx line pa presence s1, (s.core core).fills[n]? = some (ctx, line) →
      translate s ctx (64 * line) .fetch false = (.ok pa, presence, s1) →
        ∃ s', exec (.instructionLineFill core n) s = .next s' ∧ (s'.core core).fills = (s.core core).fills.eraseIdx n ∧
          (s'.core core).lines.head? = some { ctx := ctx, line := line, pline := pa / 64, bytes := mreads s.mem pa 64 } ∧
          s'.mem = s.mem ∧ s'.threads = s.threads ∧
          (∀ w, w ∈ s.wakes → w ∈ s'.wakes) ∧
          (∀ tid t, (tid, t) ∈ s.threads → t.run = .waiting .line → s.coreOf t = core →
            ({ tid := tid, reason := .line } : Wake) ∈ s'.wakes) ∧
          (∀ w, w ∈ s'.wakes → w ∈ s.wakes ∨ w.reason = .line ∧
            ∃ t, (w.tid, t) ∈ s.threads ∧ t.run = .waiting .line ∧ s.coreOf t = core))

/-- R117: LDW and LDC read a full granule (LDC only in its turn, emptying it) and wait at an empty one; STF writes and fills; CLRF
empties and leaves the data. A pot access waits first for the thread's releasing stores, LDW and LDC of a global granule for all
its stores, and STF for its stores and then its remote operations (R338). In global memory the page must carry the presence
attribute, else PROTECT; its bit is that of R311, and at an empty granule the read becomes a deferred token, or waits for one
where all are in use (R312). -/
def Obligations.FullEmptyAccessesActOnTheirGranule : Prop :=
  (
  ∀ (s : State) (t : Thread) (size : BitVec 3) (d base : GReg) (off : BitVec 11) (core a : Nat), Issues s t →
    let n := 2 ^ (size.toNat % 4)
    let ea := readG t base + off.signExtend 64 * BitVec.ofNat 64 n
    let ea1 := readG t base + off.signExtend 64 * 1
    let full := nsMem (s.core core).full (a / 16)
    let value := loadValue (decide (4 ≤ size.toNat)) (mreads (s.core core).pots a n)
    let took := rimRoom (clearTurns s s.cur)
    (hasReleases s (s.coreOf t) s.cur = true →
      (resolve s t ea n .read = .ok (.pot core a, s) → Waits s (.ldw size d base off) s .storeBuffer) ∧
      (resolve s t ea n .atomic = .ok (.pot core a, s) → Waits s (.ldc size d base off) s .storeBuffer)) ∧
    (resolve s t ea n .read = .ok (.pot core a, s) → hasReleases s (s.coreOf t) s.cur = false →
      (full = true → s.potPoison core a n = none →
        CompletesAccess s t (.ldw size d base off) ea.toNat n .load (acquireFor took t) (fun r => writeG r d value)) ∧
      (full = false → Waits s (.ldw size d base off) (takeTurn s t ea (.pot core a) false) (.granule (granuleKey core a)))) ∧
    (resolve s t ea n .atomic = .ok (.pot core a, s) → hasReleases s (s.coreOf t) s.cur = false →
      (full = true → outOfTurn s (.pot core a) = false → s.potPoison core a n = none →
        CompletesAccess s t (.ldc size d base off) ea.toNat n .both (acquireFor (took.setFull core a false) t)
          (fun r => writeG r d value)) ∧
      (full = false ∨ outOfTurn s (.pot core a) = true →
        Waits s (.ldc size d base off) (takeTurn s t ea (.pot core a) true) (.granule (granuleKey core a)))) ∧
    (resolve s t ea n .write = .ok (.pot core a, s) →
      (hasStores s (s.coreOf t) s.cur = false → t.remotePending = [] →
        CompletesAccess s t (.stf size d base off) ea.toNat n .store
          ((potStore s core a (leBytes n (readG t d).toNat)).fill core a) id) ∧
      (hasStores s (s.coreOf t) s.cur = false → t.remotePending ≠ [] → Waits s (.stf size d base off) s .remote) ∧
      (hasStores s (s.coreOf t) s.cur = true → Waits s (.stf size d base off) s .storeBuffer)) ∧
    (resolve s t ea1 1 .write = .ok (.pot core a, s) →
      CompletesAccess s t (.clrf base off) ea1.toNat 1 .store (s.setFull core a false) id) ∧
    (∀ g b, nsMem ((s.setFull core a b).core core).full g = if g = a / 16 then b else nsMem (s.core core).full g)) ∧
  (
  ∀ (s s1 : State) (t : Thread) (size : BitVec 3) (d base : GReg) (off : BitVec 11) (pa : Nat), Issues s t →
    let n := 2 ^ (size.toNat % 4)
    let ea := readG t base + off.signExtend 64 * BitVec.ofNat 64 n
    let ea1 := readG t base + off.signExtend 64 * 1
    let loc := Loc.glob pa true
    let value := loadValue (decide (4 ≤ size.toNat)) (mreads s1.mem pa n)
    let took := rimRoom (clearTurns s1 s1.cur)
    let drained := hasStores s1 (s1.coreOf t) s1.cur = false
    (t.inTrap = false →
      (resolve s t ea n .read = .ok (.glob pa false, s1) → Traps s t (.ldw size d base off) .protect ea) ∧
      (resolve s t ea n .atomic = .ok (.glob pa false, s1) → Traps s t (.ldc size d base off) .protect ea) ∧
      (resolve s t ea n .write = .ok (.glob pa false, s1) → Traps s t (.stf size d base off) .protect ea) ∧
      (resolve s t ea1 1 .write = .ok (.glob pa false, s1) → Traps s t (.clrf base off) .protect ea1)) ∧
    (resolve s t ea n .read = .ok (loc, s1) →
      (¬drained → Waits s (.ldw size d base off) s1 .storeBuffer) ∧
      (drained → present s1 pa = true → s1.poisonAt pa n = none →
        CompletesAccess s t (.ldw size d base off) ea.toNat n .load (acquireFor took t) (fun r => writeG r d value)) ∧
      (drained → present s1 pa = false →
        (rimHold s1 loc = none → Waits s (.ldw size d base off) (takeTurn s1 t ea loc false) (.presence (pa / 16 * 16))) ∧
        ∀ r, rimHold s1 loc = some r → Waits s (.ldw size d base off) s1 (.rim r))) ∧
    (resolve s t ea n .atomic = .ok (loc, s1) →
      (¬drained → Waits s (.ldc size d base off) s1 .storeBuffer) ∧
      (drained → present s1 pa = true → outOfTurn s1 loc = false → s1.poisonAt pa n = none →
        CompletesAccess s t (.ldc size d base off) ea.toNat n .both (acquireFor (setPresent took pa false) t)
          (fun r => writeG r d value)) ∧
      (drained → present s1 pa = false ∨ outOfTurn s1 loc = true →
        (rimHold s1 loc = none → Waits s (.ldc size d base off) (takeTurn s1 t ea loc true) (.presence (pa / 16 * 16))) ∧
        ∀ r, rimHold s1 loc = some r → Waits s (.ldc size d base off) s1 (.rim r))) ∧
    (resolve s t ea n .write = .ok (loc, s1) →
      (¬drained → Waits s (.stf size d base off) s1 .storeBuffer) ∧
      (drained → t.remotePending ≠ [] → Waits s (.stf size d base off) s1 .remote) ∧
      (drained → t.remotePending = [] → CompletesAccess s t (.stf size d base off) ea.toNat n .store
        (fillPresent (writeThrough s1 (s1.coreOf t) t.ctx ea.toNat pa (leBytes n (readG t d).toNat)) pa) id)) ∧
    (resolve s t ea1 1 .write = .ok (loc, s1) →
      CompletesAccess s t (.clrf base off) ea1.toNat 1 .store (setPresent s1 pa false) id) ∧
    (s1.mem.wf = true → ∀ b q,
      present (setPresent s1 pa b) q = if q / 16 = pa / 16 then b else present s1 q))

/-- R118: AMO in a pot reads, computes and writes in one step; gd takes the old value. It waits for the thread's releasing stores,
a releasing one for all its stores and then its remote operations (R338); a poisoned granule traps (R137). What each operation
computes on patterns of its type; fadd rounds the exact sum once to nearest even, and any NaN gives the canonical one. -/
def Obligations.PotAtomicsActInOneStep : Prop :=
  (∀ (ty : Ty) (x y c : BitVec ty.width),
    let new := fun op => amoNew op ty x.toNat y.toNat c.toNat
    let value := fun p : BitVec ty.width => if ty.isSigned then p.toInt else (p.toNat : Int)
    new .swap = y.toNat ∧ new .add = (x + y).toNat ∧ new .and = (x &&& y).toNat ∧ new .or = (x ||| y).toNat ∧
      new .xor = (x ^^^ y).toNat ∧ new .cas = (if x = c then y else x).toNat ∧
      (ty.isInt = true → new .min = (if value y < value x then y else x).toNat ∧
        new .max = (if value x < value y then y else x).toNat) ∧
      (ty = .f32 ∨ ty = .bf16 →
        new .fadd = result ty .rn false (addNum .rn (Machine.value ty x.toNat) (Machine.value ty y.toNat)) ∧
        (∀ b, Machine.value ty x.toNat = .nan b ∨ Machine.value ty y.toNat = .nan b → new .fadd = nanOf ty false))) ∧
  (amoNew .fadd .f32 0x3F800000 0x33800000 0 = 0x3F800000 ∧ amoNew .fadd .f32 0x3F800001 0x33800000 0 = 0x3F800002 ∧
    amoNew .fadd .f32 0x7F7FFFFF 0x7F7FFFFF 0 = 0x7F800000 ∧ amoNew .fadd .f32 1 1 0 = 2 ∧
    amoNew .fadd .bf16 0x3F80 0x3B80 0 = 0x3F80 ∧ nanOf .f32 false = 0x7FC00000 ∧ nanOf .bf16 false = 0x7FC0) ∧
  ∀ (s : State) (t : Thread) (op : AmoOp) (ord : MemOrder) (ty : Ty) (d a b : GReg) (core addr : Nat), Issues s t →
    let n := ty.width / 8
    let ea := readG t a
    let old := leNat (mreads (s.core core).pots addr n)
    let new := amoNew op ty old (readG t b).toNat (readG t d).toNat
    let s1 := potStore s core addr (leBytes n new)
    let rel := ord = .rel ∨ ord = .acqrel
    let undrained := if rel then hasStores s (s.coreOf t) s.cur else hasReleases s (s.coreOf t) s.cur
    resolve s t ea n .atomic = .ok (.pot core addr, s) →
      (s.potPoison core addr n = none →
        (undrained = true → Waits s (.amo op ord ty d a b) s .storeBuffer) ∧
        (undrained = false → rel → t.remotePending ≠ [] → Waits s (.amo op ord ty d a b) s .remote) ∧
        (undrained = false → (rel → t.remotePending = []) →
          CompletesAccess s t (.amo op ord ty d a b) ea.toNat n .store
            (if ord = .acq ∨ ord = .acqrel then acquireFor s1 t else s1) (fun r => writeG r d (extendTy ty old)))) ∧
      (∀ g, s.potPoison core addr n = some g → t.inTrap = false →
        Traps s t (.amo op ord ty d a b) .poison (BitVec.ofNat 64 (ea.toNat + 16 * g - addr)))

/-- R118 and R303: AMO on a global address waits while the thread has undrained stores, then goes to the memory-side unit; the unit
performs it in one step, and the thread completes with the old value, WATCH following where a watchpoint matches. No other byte of
memory changes. A poisoned granule traps (R137). -/
def Obligations.GlobalAtomicsArePerformedAtTheMemorySide : Prop :=
  ∀ (s s1 : State) (t : Thread) (op : AmoOp) (ord : MemOrder) (ty : Ty) (d a b : GReg) (pa : Nat) (presence : Bool),
    (Issues s t → resolve s t (readG t a) (ty.width / 8) .atomic = .ok (.glob pa presence, s1) →
      s1.poisonAt pa (ty.width / 8) = none →
      (hasStores s1 (s1.coreOf t) s1.cur = true → Waits s (.amo op ord ty d a b) s1 .storeBuffer) ∧
      (hasStores s1 (s1.coreOf t) s1.cur = false → (ord = .rel ∨ ord = .acqrel) → t.remotePending ≠ [] →
        Waits s (.amo op ord ty d a b) s1 .remote) ∧
      (hasStores s1 (s1.coreOf t) s1.cur = false → (ord = .rel ∨ ord = .acqrel → t.remotePending = []) →
        Waits s (.amo op ord ty d a b) { s1 with atomics := s1.atomics ++
          [{ tid := s1.cur, pa := pa, va := readG t a, op := op, ty := ty, operand := readG t b, compare := readG t d,
             dest := d.toNat, ord := ord }] } .atomic)) ∧
    (∀ g, Issues s t → resolve s t (readG t a) (ty.width / 8) .atomic = .ok (.glob pa presence, s1) →
      s1.poisonAt pa (ty.width / 8) = some g → t.inTrap = false →
      Traps s t (.amo op ord ty d a b) .poison (BitVec.ofNat 64 ((readG t a).toNat + 16 * g - pa))) ∧
    (∀ k r, s.atomics[k]? = some r → s.thread? r.tid = some t → s.poisonAt r.pa (r.ty.width / 8) = none → s.mem.wf = true →
      let n := r.ty.width / 8
      let old := leNat (mreads s.mem r.pa n)
      let new := amoNew r.op r.ty old r.operand.toNat r.compare.toNat
      let past := advance (writeG t (BitVec.ofNat 5 r.dest) (extendTy r.ty old)) (t.pc + 4)
      (∀ w v, watchMatch t r.va.toNat n .store = some (w, v) → t.inTrap = false →
        ∃ s', exec (.memoryAtomic k) s = .next s' ∧
          s'.thread? r.tid = some (enterTrap past .watch v (t.pc + 4) true false 0)) ∧
      (watchMatch t r.va.toNat n .store = none → ∃ s', exec (.memoryAtomic k) s = .next s' ∧ s'.atomics = s.atomics.eraseIdx k ∧
        s'.thread? r.tid = some past ∧
        (∀ x, mread s'.mem x = if r.pa ≤ x ∧ x < r.pa + n then (leBytes n new).getD (x - r.pa) 0 else mread s.mem x) ∧
        (∀ m, m ≠ r.tid → s'.thread? m = s.thread? m)))

/-- R119: FENCE waits for the thread's stores, and at domain scope for its remote operations, unless it only acquires; every kind
but a release empties the read buffer. No byte of memory and no register changes. -/
def Obligations.FencesWaitForStoresAndEmptyTheReadBuffer : Prop :=
  ∀ (s : State) (t : Thread) (kind : FenceKind) (scope : FenceScope), Issues s t →
    (kind ≠ .acq → hasStores s (s.coreOf t) s.cur = true → Waits s (.fence kind scope) s .storeBuffer) ∧
    (kind ≠ .acq → hasStores s (s.coreOf t) s.cur = false → scope = .domain → t.remotePending ≠ [] →
      Waits s (.fence kind scope) s .remote) ∧
    (kind = .acq ∨ (hasStores s (s.coreOf t) s.cur = false ∧ (scope = .domain → t.remotePending = [])) →
      Completes s (.fence kind scope) (if kind = .rel then s else acquireFor s t) id (t.pc + 4)) ∧
    ((acquireFor s t).core (s.coreOf t)).readBuf = [] ∧ (acquireFor s t).mem = s.mem ∧ (acquireFor s t).threads = s.threads

/-! ## Remote operations, messages and links -/

/-- R120: RST and RAT. The address checks trap in order; a release waits for stores and then for earlier remote operations, any
other for releasing stores (R338); 16 unacknowledged operations, or a full replay buffer, hold the thread; otherwise the message
is numbered and sent, and a RAT holds its thread until the reply. -/
def Obligations.RemoteOperationsAreCheckedThenSent : Prop :=
  ∀ (s : State) (t : Thread) (op : AmoOp) (ord : MemOrder) (ty : Ty) (d a b : GReg), Issues s t →
    let ga := readG t a
    let chip := (ga.extractLsb 59 52).toNat
    let addr := (ga.extractLsb 51 0).toNat
    let good := ga.toNat % (ty.width / 8) = 0 ∧ ga.extractLsb 63 60 = 0 ∧ idValid s chip = true
    let settled := if ord = .rel ∨ ord = .acqrel then hasStores s (s.coreOf t) s.cur = false ∧ t.remotePending = []
      else hasReleases s (s.coreOf t) s.cur = false
    let room := t.remotePending.length < 16 ∧ canSend s chip = true
    let rst := sendNumbered s (mkMsg chip 0 t.ctx 0 0 (accessPayload addr (readG t b) 0 .swap ty))
    let rat := sendNumbered s (mkMsg chip 1 t.ctx 0 s.cur (accessPayload addr (readG t b) (readG t d) op ty))
    (good → settled → room →
      Completes s (.rst ord ty a b) rst.2 (fun x => { x with remotePending := x.remotePending ++ [(chip, rst.1)] }) (t.pc + 4) ∧
      Waits s (.rat op ord ty d a b)
        (rat.2.modThread s.cur fun x => { x with remotePending := x.remotePending ++ [(chip, rat.1)] })
        (.ratReply chip rat.1 d.toNat ty (decide (ord = .acq ∨ ord = .acqrel)))) ∧
    (good → settled → ¬room → Waits s (.rst ord ty a b) s .remote ∧ Waits s (.rat op ord ty d a b) s .remote) ∧
    (good →
      (if ord = .rel ∨ ord = .acqrel then hasStores s (s.coreOf t) s.cur else hasReleases s (s.coreOf t) s.cur) = true →
      Waits s (.rst ord ty a b) s .storeBuffer ∧ Waits s (.rat op ord ty d a b) s .storeBuffer) ∧
    (good → ord = .rel ∨ ord = .acqrel → hasStores s (s.coreOf t) s.cur = false → t.remotePending ≠ [] →
      Waits s (.rst ord ty a b) s .remote ∧ Waits s (.rat op ord ty d a b) s .remote) ∧
    (t.inTrap = false → ga.toNat % (ty.width / 8) ≠ 0 →
      Traps s t (.rst ord ty a b) .align ga ∧ Traps s t (.rat op ord ty d a b) .align ga) ∧
    (t.inTrap = false → ga.toNat % (ty.width / 8) = 0 → (ga.extractLsb 63 60 ≠ 0 ∨ idValid s chip = false) →
      Traps s t (.rst ord ty a b) .protect ga ∧ Traps s t (.rat op ord ty d a b) .protect ga)

/-- R356 and R359: a numbered message that comes again is not applied again: memory, pots, threads and stream ports are as
before. The next one in sequence is applied, once, and the applied-through sequence moves on to it. -/
def Obligations.NumberedMessagesAreAppliedExactlyOnce : Prop :=
  ∀ (s : State) (n : Nat) (m : Msg) (i : Instr), s.fabric.inbox[n]? = some m →
    (m.type = 0 ∧ i = .peerRst n ∨ m.type = 1 ∧ i = .peerRat n ∨ m.type = 2 ∧ i = .peerCopyData n ∨
      m.type = 3 ∧ i = .peerReducingData n ∨ m.type = 4 ∧ i = .peerChannelToken n) →
    let chip := m.src.toNat
    let d := s.source chip
    let s0 := { s with fabric := { s.fabric with inbox := s.fabric.inbox.eraseIdx n } }
    (seqLe m.seq d.applied = true → ∃ s', exec i s = .next s' ∧ s'.mem = s.mem ∧ s'.cores = s.cores ∧ s'.threads = s.threads ∧
      s'.fabric.ports = s.fabric.ports ∧ (s'.source chip).applied = d.applied) ∧
    (m.seq = d.applied + 1 → d.window = [] → ∀ s2 reply,
      applyMsg (s0.setSource chip { d with window := [m] }) m = .done s2 reply →
      ∃ s', exec i s = .next s' ∧ s'.mem = s2.mem ∧ s'.threads = s2.threads ∧ s'.fabric.ports = s2.fabric.ports ∧
        (s'.source chip).applied = m.seq)

/-- What applying each kind of message does (R120, R355, R356, R363): a store writes its bytes, and one of 8 bytes to a presence page
leaves its granule full (R364; that it does, and a shorter one does not, is the model's reading, log 26); an atomic writes what R118
gives and replies with the old value, data go to memory, a token joins the buffer of its port. -/
def Obligations.ApplyingAMessageActsOnItsTarget : Prop :=
  ∀ (s s1 : State) (m : Msg) (pa : Nat), s1.mem.wf = true →
    let va := payloadNat m 0 8
    let n := (payloadTy m 25).width / 8
    let old := leNat (mreads s1.mem pa n)
    let data := (m.payload.drop 16).take (payloadNat m 8 1)
    (m.type = 0 → translate s m.ctx.toNat (va % 2 ^ 52) .write true = (.ok pa, false, s1) →
      ∃ s2, applyMsg s m = .done s2 none ∧ ∀ x, mread s2.mem x =
        if pa ≤ x ∧ x < pa + n then (leBytes n (payloadNat m 8 8)).getD (x - pa) 0 else mread s.mem x) ∧
    (m.type = 0 → n = 8 → translate s m.ctx.toNat (va % 2 ^ 52) .write true = (.ok pa, true, s1) →
      ∃ s2, applyMsg s m = .done s2 none ∧ present s2 pa = true) ∧
    (m.type = 1 → translate s m.ctx.toNat (va % 2 ^ 52) .atomic true = (.ok pa, false, s1) →
      ∃ s2, applyMsg s m = .done s2 (some (BitVec.ofNat 64 old)) ∧ ∀ x, mread s2.mem x =
        if pa ≤ x ∧ x < pa + n then
          (leBytes n (amoNew (payloadOp m) (payloadTy m 25) old (payloadNat m 8 8) (payloadNat m 16 8))).getD (x - pa) 0
        else mread s.mem x) ∧
    (m.type = 2 → translate s m.ctx.toNat (va % 2 ^ 52) .write true = (.ok pa, false, s1) →
      ∃ s2, applyMsg s m = .done s2 none ∧ ∀ x, mread s2.mem x =
        if pa ≤ x ∧ x < pa + data.length then data.getD (x - pa) 0 else mread s.mem x) ∧
    (m.type = 3 → translate s m.ctx.toNat (va % 2 ^ 52) .atomic true = (.ok pa, false, s1) →
      ∃ s2, applyMsg s m = .done s2 none ∧
        s2.mem = (reduceInto s1 pa (payloadNat m 9 1) (payloadTy m 10) data).mem) ∧
    (m.type = 4 → ∀ p, s.port? m.port.toNat = some p → p.send = false → (p.desc.extractLsb 15 8).toNat = m.src.toNat →
      (p.desc.extractLsb 21 16).toNat = m.requester.toNat / 256 % 64 → p.buffer.length < 64 →
      ∃ s2, applyMsg s m = .done s2 none ∧
        s2.port? m.port.toNat = some { p with buffer := p.buffer ++ [(s.arrivals, msgTok m 0)] } ∧ s2.mem = s.mem)

/-- R120, R356 to R360: an acknowledgement frees the replay buffer of its destination through its sequence and the operations it
covers; the reply of a RAT completes its thread with the old value; a horizon frees what is retained; a replay timeout sends
again what the destination is owed; a message in transit is delivered where its number has become the package's own, goes on by
its route, or is dropped and counted. -/
def Obligations.AcknowledgementsRepliesAndRoutes : Prop :=
  ∀ (s : State) (n : Nat),
    (∀ m, s.fabric.inbox[n]? = some m → m.type = 5 → ackFailures m = [] →
      let A := BitVec.ofNat 32 (payloadNat m 0 4)
      ∃ s', exec (.acknowledgement n) s = .next s' ∧
        (s'.dest m.src.toNat).replay = (s.dest m.src.toNat).replay.filter (fun x => !seqLe x.seq A) ∧
        (∀ tid t, s.thread? tid = some t → ∃ t', s'.thread? tid = some t' ∧
          t'.remotePending = t.remotePending.filter (fun p => !(p.1 = m.src.toNat && seqLe p.2 A)) ∧ t'.g = t.g ∧ t'.pc = t.pc) ∧
        (s.fabric.logSize = none → s'.mem = s.mem ∧ (s'.dest m.src.toNat).retained = (s.dest m.src.toNat).retained)) ∧
    (∀ m tid t chip q dest ty acq, s.fabric.inbox[n]? = some m → m.type = 6 →
      ratWaiter s m.src.toNat m.seq = some (tid, t) → s.thread? tid = some t → t.run = .waiting (.ratReply chip q dest ty acq) →
      ∃ s', exec (.ratReply n) s = .next s' ∧ s'.mem = s.mem ∧ s'.thread? tid =
        some (advance (writeG t (BitVec.ofNat 5 dest) (extendTy ty (payloadNat m 0 8))) (t.pc + 4))) ∧
    (∀ m, s.fabric.inbox[n]? = some m → m.type = 7 →
      ∃ s', exec (.horizon n) s = .next s' ∧ s'.mem = s.mem ∧
        (s'.dest m.src.toNat).retained =
          (s.dest m.src.toNat).retained.filter (fun x => !seqLe x.1 (BitVec.ofNat 32 (payloadNat m 0 4))) ∧
        (s'.source m.src.toNat).replies =
          (s.source m.src.toNat).replies.filter (fun p => seqLe (BitVec.ofNat 32 (payloadNat m 4 4)) p.1)) ∧
    (∀ chip, exec (.replayTimeout chip) s = .next ((owedMsgs s chip ++ (s.dest chip).replay).foldl emitMsg s) ∧
      ((owedMsgs s chip ++ (s.dest chip).replay).foldl emitMsg s).mem = s.mem) ∧
    (∀ router m, s.fabric.transit[n]? = some (router, m) →
      let s0 := { s with fabric := { s.fabric with transit := s.fabric.transit.eraseIdx n } }
      (idValid s m.dest.toNat = true → idSelf s m.dest.toNat = true → exec (.messageTransit n) s = .next (takeOwn s0 m)) ∧
      (∀ l, idValid s m.dest.toNat = true → idSelf s m.dest.toNat = false → idHeld s m.dest.toNat = false →
        routeLink s m.dest.toNat = some l → exec (.messageTransit n) s = .next (linkSend s0 l m)) ∧
      (idValid s m.dest.toNat = false ∨
          idSelf s m.dest.toNat = false ∧ (idHeld s m.dest.toNat = true ∨ routeLink s m.dest.toNat = none) →
        exec (.messageTransit n) s = .next { s0 with fabric := { s0.fabric with
          transitDropped := tmod s0.fabric.transitDropped router 0 (· + 1) } }))

/-- R293, R352 to R354: a flit whose CRC fails, or that is not the expected one, is discarded and asked for again; the expected one
moves the sequence on and gives its messages, as the slots make them, to the router: those for this package join the inbox, unless it
awaits its fabric state, and the others transit. A link retrains as it is told; after its third failed training it is down, the
messages without an acknowledgement stay kept for replay and the threads that wait go on waiting; it comes up on 8, 4 or 2 lanes;
flits between dies are delivered within their class or asked for again. (A flit on a link that is not up leaves the state as it is:
log 17.) -/
def Obligations.LinksDeliverFlitsInOrder : Prop :=
  ∀ (s : State) (link : Nat) (bytes : List Byte), link < 16 →
    let p := s.link link
    let h := BitVec.ofNat 64 (leNat (bytes.take 8))
    (p.state = .up → bytes.length ≠ 256 ∨ crc32c (bytes.take 252) ≠ leNat (bytes.drop 252) →
      exec (.peerFlit link bytes) s = .next (s.setLink link { p with wire := p.wire ++
        [{ seq := p.nextSeq, through := p.expected - 1, nak := true, kind := 1, msgs := [] }], sendNak := false })) ∧
    (p.state = .up → bytes.length = 256 → crc32c (bytes.take 252) = leNat (bytes.drop 252) →
      (h.extractLsb 11 0 = p.expected → h.extractLsb 26 25 = 0 →
        let n := (h.extractLsb 28 27).toNat
        let ms := msgsOfSlots n ((bytes.drop 8).take (80 * n))
        let own := fun m : Msg => idSelf s m.dest.toNat && idValid s m.dest.toNat
        ∃ s', exec (.peerFlit link bytes) s = .next s' ∧ (s'.link link).expected = p.expected + 1 ∧ s'.mem = s.mem ∧
          s'.threads = s.threads ∧
          ((∀ m ∈ ms, m.type.toNat < 8) →
            s'.fabric.transit = s.fabric.transit ++ (ms.filter fun m => !own m).map (link / 8, ·) ∧
            (s.fabric.awaiting = false → s'.fabric.inbox = s.fabric.inbox ++ ms.filter own))) ∧
      (h.extractLsb 11 0 = p.expected → h.extractLsb 26 25 ≠ 0 →
        ∃ s', exec (.peerFlit link bytes) s = .next s' ∧ (s'.link link).expected = p.expected ∧
          s'.fabric.inbox = s.fabric.inbox ∧ s'.fabric.transit = s.fabric.transit ∧ s'.mem = s.mem) ∧
      (h.extractLsb 11 0 ≠ p.expected →
        exec (.peerFlit link bytes) s = .next (s.setLink link { p with wire := p.wire ++
          [{ seq := p.nextSeq, through := p.expected - 1, nak := true, kind := 1, msgs := [] }], sendNak := false }))) ∧
    (∀ m b, msgsOfSlots 1 b = [msgOfSlot b] ∧
      ((msgOfSlot b).goesOn = false → msgsOfSlots 2 b = [msgOfSlot b, msgOfSlot (b.drop 80)]) ∧
      (m = msgOfSlot b → m.goesOn = true → msgsOfSlots 2 b = [{ m with payload := m.payload ++ (b.drop 96).take 16 }])) ∧
    (p.state ≠ .up → exec (.peerFlit link bytes) s = .next s) ∧
    (p.state = .up → exec (.linkRetrain link true false) s = .next (s.setLink link { p with state := .training })) ∧
    (p.state = .training → p.failures < 2 →
      exec (.linkRetrain link false true) s = .next (s.setLink link { p with failures := p.failures + 1 })) ∧
    (p.state = .training → 2 ≤ p.failures →
      ∃ s', exec (.linkRetrain link false true) s = .next s' ∧ (s'.link link).state = .down ∧ (s'.link link).failures = 3 ∧
        s'.mem = s.mem ∧ s'.threads = s.threads ∧ ∀ chip, (s'.dest chip).replay = (s.dest chip).replay) ∧
    (∀ lanes expected, p.state = .training → lanes = 8 ∨ lanes = 4 ∨ lanes = 2 →
      ∃ s', exec (.linkTrained link lanes expected) s = .next s' ∧ (s'.link link).state = .up ∧ (s'.link link).lanes = lanes ∧
        (s'.link link).failures = 0 ∧ s'.mem = s.mem) ∧
    (∀ cls, link < 10 → ∃ s', exec (.dieLinkFlit link { cls := cls, bytes := bytes }) s = .next s' ∧ s'.mem = s.mem ∧ s'.threads = s.threads ∧
      (∀ l, tget s.fabric.dieLinks link = some l → tget s'.fabric.dieLinks link = some
        (if bytes.length = 256 ∧ crc32c (bytes.take 252) = leNat (bytes.drop 252) then
          { l with delivered := tset l.delivered cls (tgetD l.delivered cls 0 + 1), retry := nsDel l.retry cls }
         else { l with retry := nsAdd l.retry cls, retries := l.retries + 1 })))

/-! ## Channels, groups, places, keys and barriers -/

/-- R121: SEND and RECV trap on a slot that is not their end, or whose stream port joins a pot or a block (that trap is the
model's choice, log 22), wait while no place or no word is there, and otherwise move one word: a send is a release and waits for the
thread's stores, and before that for a place in the replay buffer of a port's package (R356); a receive is an acquire. -/
def Obligations.ChannelsMoveOneWordAtATime : Prop :=
  ∀ (s : State) (t : Thread) (ch : ChSlot) (d b : GReg), Issues s t →
    let e := t.chEnd ch.toNat
    let gone := (s.chan s.cur ch.toNat).gone
    let free := freePlaces s s.cur t ch.toNat
    let words := waitingWords s s.cur t ch.toNat
    (e.bound = true → e.out = true → (e.port = false → gone = false) → joinsOther s e = false →
      (e.port = true → 16 ≤ e.desc.toNat → ∀ p, s.port? (e.desc.toNat - 16) = some p →
        canSend s (p.desc.extractLsb 15 8).toNat = true) →
      free ≠ 0 → hasStores s (s.coreOf t) s.cur = false →
      Completes s (.send ch b) (sendWord s s.cur t ch.toNat (readG t b)) id (t.pc + 4)) ∧
    (e.bound = true → e.out = true → (e.port = false → gone = false) → joinsOther s e = false → free = 0 →
      Waits s (.send ch b) s (.send ch.toNat)) ∧
    (e.bound = true → e.out = true → (e.port = false → gone = false) → joinsOther s e = false → free ≠ 0 →
      (∀ p, e.port = true → 16 ≤ e.desc.toNat → s.port? (e.desc.toNat - 16) = some p →
        (canSend s (p.desc.extractLsb 15 8).toNat = false → Waits s (.send ch b) s .remote) ∧
        (canSend s (p.desc.extractLsb 15 8).toNat = true → hasStores s (s.coreOf t) s.cur = true →
          Waits s (.send ch b) s .storeBuffer)) ∧
      (e.port = false ∨ e.desc.toNat < 16 → hasStores s (s.coreOf t) s.cur = true → Waits s (.send ch b) s .storeBuffer)) ∧
    (t.inTrap = false → (e.bound = false ∨ e.out = false ∨ (e.port = false ∧ gone = true) ∨ joinsOther s e = true) →
      Traps s t (.send ch b) .channel (BitVec.ofNat 64 ch.toNat)) ∧
    (∀ w rest, e.bound = true → e.out = false → joinsOther s e = false → words = w :: rest →
      Completes s (.recv d ch) (acquireFor (dropWord s s.cur t ch.toNat) t) (fun r => writeG r d w.word) (t.pc + 4)) ∧
    (e.bound = true → e.out = false → words = [] → e.port = false → gone = false → Waits s (.recv d ch) s (.recv ch.toNat)) ∧
    (t.inTrap = false → (e.bound = false ∨ e.out = true ∨ (words = [] ∧ e.port = false ∧ gone = true) ∨ joinsOther s e = true) →
      Traps s t (.recv d ch) .channel (BitVec.ofNat 64 ch.toNat)) ∧
    (e.port = false → ∀ p q, formed s s.cur ch.toNat = some (p, q) →
      ((sendWord s s.cur t ch.toNat (readG t b)).chan p q).words =
        (s.chan p q).words ++ [{ at_ := s.arrivals, word := readG t b }]) ∧
    (e.port = false → ((dropWord s s.cur t ch.toNat).chan s.cur ch.toNat).words = words.tail)

/-- R121, R314 and R362: BIND.in and BIND.out record the peer in an unbound slot, UNBIND clears the slot, POLL tells how many
words or places there are (0 where the slot's port joins a pot or a block, the model's choice, log 22), and BIND.port takes a service
port in system mode or the stream port its descriptor asks for. -/
def Obligations.BindingRecordsTheOtherEnd : Prop :=
  ∀ (s : State) (t : Thread) (ch slot : ChSlot) (d b : GReg), Issues s t →
    let e := t.chEnd ch.toNat
    let x := readG t b
    let tid := (x.extractLsb 15 0).toNat
    let end_ := fun out : Bool => ({ peer := BitVec.ofNat 16 tid, pslot := slot, out := out, bound := true, port := false, desc := 0 } : ChanEnd)
    (∀ p, e.bound = false → tid ≠ 0 → tid ≠ 0xFFFF → s.thread? tid = some p → p.ctx = t.ctx → formed s tid slot.toNat = none →
      (∃ s1, Completes s (.bindIn ch b slot) s1 id (t.pc + 4) ∧ s1.thread? s.cur = some (t.setEnd ch.toNat (end_ false)) ∧
        s1.mem = s.mem ∧ s1.cores = s.cores) ∧
      (∃ s1, Completes s (.bindOut ch b slot) s1 id (t.pc + 4) ∧ s1.thread? s.cur = some (t.setEnd ch.toNat (end_ true)) ∧
        s1.mem = s.mem ∧ s1.cores = s.cores)) ∧
    (t.inTrap = false → (e.bound = true ∨ tid = 0 ∨ tid = 0xFFFF ∨ s.thread? tid = none) →
      Traps s t (.bindIn ch b slot) .channel (BitVec.ofNat 64 ch.toNat) ∧
      Traps s t (.bindOut ch b slot) .channel (BitVec.ofNat 64 ch.toNat)) ∧
    Completes s (.unbind ch) (unbindSlot s s.cur ch.toNat) id (t.pc + 4) ∧
    ((unbindSlot s s.cur ch.toNat).thread? s.cur = some (if e.bound = true then t.setEnd ch.toNat ChanEnd.none else t)) ∧
    WritesG s t (.poll d ch) d (if e.bound = false then BitVec.allOnes 64
      else if joinsOther s e = true then 0
      else if e.out = true then BitVec.ofNat 64 (freePlaces s s.cur t ch.toNat)
      else BitVec.ofNat 64 (waitingWords s s.cur t ch.toNat).length) ∧
    (x = 1 → t.system = true → e.bound = false → holdsPort t 1 = false →
      Completes s (.bindPort ch b) (bindEnd s t ch 1 true) id (t.pc + 4)) ∧
    (x = 0x101 → t.system = true → e.bound = false → holdsPort t 2 = false →
      Completes s (.bindPort ch b) (bindEnd s t ch 2 false) id (t.pc + 4)) ∧
    (∀ p s1, x.extractLsb 7 0 = 2 → e.bound = false → portOf s t x = some (p, s1) →
      Completes s (.bindPort ch b) (retrySources (bindEnd (s1.setPort (nearPort x) p) t ch (16 + nearPort x) p.send)) id
        (t.pc + 4))

/-- R133, R134 and R136: WAITANY takes the slot whose word arrived first, recorded in the decision log, and waits when no
word is there. With LOGMODE off the log leaves the state as it is. -/
def Obligations.WaitanyTakesTheFirstWordToArrive : Prop :=
  ∀ (s s1 : State) (t : Thread) (d a : GReg), Issues s t →
    let slots := maskSlots ((readG t a).extractLsb 7 0).toNat
    slots ≠ [] → (∀ i ∈ slots, notReceiving s s.cur t i = false) → logNext s t.decider = .ok (none, s1) →
      (∀ i s2, firstSlot s1 s1.cur t slots = some i →
        logRecord s1 t.decider { kind := 2, slot := i, num := 0, cl := t.lcore / 128, tid := s1.cur, val := 0 } = .ok s2 →
        Completes s (.waitany d a) s2 (fun r => writeG r d (BitVec.ofNat 64 i)) (t.pc + 4)) ∧
      (firstSlot s1 s1.cur t slots = none → Waits s (.waitany d a) s1 .waitany) ∧
      ((s.ctx t.ctx).logMode.toNat % 4 = 0 →
        s1.mem = s.mem ∧ s1.threads = s.threads ∧ s1.chans = s.chans ∧ s1.cores = s.cores ∧
        ∀ e, logRecord s1 t.decider e = .ok s1)

/-- R122: JOIN gives a requested rank that is free, or the lowest free one; a member keeps its rank; a thread of eight groups, a full
group, all group entries in use or a rank that is held raise HANDLE. LEAVE and GBAR are releases and wait for the thread's stores,
GBAR passes when every member that the generation counts has arrived; GSIZE and GRANK read. (The cluster bit that the record of a JOIN
shows, and when a decider reads its log, are the model's choice: log 18.) -/
def Obligations.GroupsRankAndGatherTheirMembers : Prop :=
  ∀ (s : State) (t : Thread) (d a : GReg), Issues s t →
    let ga := readG t a
    let n := (ga.extractLsb 11 0).toNat
    let g := s.group n
    let want := (ga.extractLsb 27 16).toNat
    let out := fun s1 : State => acquireFor (s1.setGroup n
      { s1.group n with passed := (s1.group n).passed.filter (· ≠ s1.cur) }) t
    ga.extractLsb 63 28 = 0 → ga.extractLsb 15 12 = 0 →
      (∀ r, g.rank s.cur = some r → WritesG s t (.join d a) d (BitVec.ofNat 64 r) ∧
        WritesG s t (.grank d a) d (BitVec.ofNat 64 r)) ∧
      (g.rank s.cur = none → WritesG s t (.grank d a) d (BitVec.allOnes 64)) ∧
      WritesG s t (.gsize d a) d (BitVec.ofNat 64 g.members.length) ∧
      (g.rank s.cur = none → t.inTrap = false →
        (8 ≤ (groupsOf s s.cur).length ∨ 4095 ≤ g.members.length ∨ 4096 ≤ s.groups.length ∨
          want ≠ 0xFFF ∧ rankTaken g want = true) → Traps s t (.join d a) .handle ga) ∧
      (g.rank s.cur = none → (groupsOf s s.cur).length < 8 → g.members.length < 4095 → s.groups.length < 4096 →
        want ≠ 0xFFF → rankTaken g want = false →
        Completes s (.join d a) (joinGroup s n want) (fun x => writeG x d (BitVec.ofNat 64 want)) (t.pc + 4)) ∧
      (∀ s1 s2 r, g.rank s.cur = none → (groupsOf s s.cur).length < 8 → g.members.length < 4095 → s.groups.length < 4096 →
        want = 0xFFF →
        logNext s t.decider = .ok (none, s1) → firstFrom (fun r => !rankTaken g r) 0 4095 = some r →
        logRecord s1 t.decider { kind := 3, slot := 0, num := n, cl := t.lcore / 128, tid := s1.cur, val := r } = .ok s2 →
        Completes s (.join d a) (joinGroup s2 n r) (fun x => writeG x d (BitVec.ofNat 64 r)) (t.pc + 4)) ∧
      (g.has s.cur = true → hasStores s (s.coreOf t) s.cur = false →
        Completes s (.leave a) (leaveGroup s s.cur n) id (t.pc + 4) ∧
        (g.passed.contains s.cur = true → Completes s (.gbar a) (out s) id (t.pc + 4)) ∧
        (g.passed.contains s.cur = false →
          let s1 := s.setGroup n (arriveGroup g s.cur)
          ((arriveGroup g s.cur).full = true → Completes s (.gbar a) (out (advanceGroup s1 n)) id (t.pc + 4)) ∧
          ((arriveGroup g s.cur).full = false → Waits s (.gbar a) s1 (.group n)))) ∧
      (g.has s.cur = true → hasStores s (s.coreOf t) s.cur = true →
        Waits s (.leave a) s .storeBuffer ∧ Waits s (.gbar a) s .storeBuffer) ∧
      (g.has s.cur = false → t.inTrap = false → Traps s t (.leave a) .handle ga ∧ Traps s t (.gbar a) .handle ga)

/-- R124, R127, R128 and R384: objects and requests. XNEW takes the lowest free object, XFREE one without places, XREQ the lowest
free place, which a walk grants at once where nothing is granted; where none is free XNEW and XREQ give 0. A word of XNEW with a
reserved bit set, a value that names no object, and a rank that is out of range or held raise HANDLE. -/
def Obligations.ObjectsAndPlacesAreTakenLowestFirst : Prop :=
  ∀ (s : State) (t : Thread) (d a b : GReg), Issues s t →
    let x := readG t a
    let cl := t.lcore / 128
    let c := s.cluster cl
    let n := freeKey 0 c.objects
    (x.extractLsb 63 16 = 0 → x.extractLsb 3 1 = 0 → (x.getLsbD 0 = true ∨ x.extractLsb 15 4 = 0) →
      (n < 4096 → Completes s (.xnew d a)
        (s.setCluster cl { c with objects := tset c.objects n {
            ranked := x.getLsbD 0, ranks := (x.extractLsb 15 4).toNat + 1, round := 0, nextRank := 0, queue := [], granted := none,
            walking := false, walkTid := 0, ctx := t.ctx } })
        (fun r => writeG r d (syncHandle (c.objGen n) n 0 cl)) (t.pc + 4)) ∧
      (4096 ≤ n → WritesG s t (.xnew d a) d 0)) ∧
    (t.inTrap = false → x.extractLsb 63 16 ≠ 0 ∨ x.extractLsb 3 1 ≠ 0 ∨ x.getLsbD 0 = false ∧ x.extractLsb 15 4 ≠ 0 →
      Traps s t (.xnew d a) .handle x) ∧
    (t.inTrap = false → objectOf s cl x = none → Traps s t (.xfree a) .handle x ∧ Traps s t (.xreq d a b) .handle x) ∧
    (∀ m o, objectOf s cl x = some (m, o) →
      (t.inTrap = false → o.ranked = false ∧ readG t b ≠ 0 ∨
          o.ranked = true ∧ (o.ranks ≤ (readG t b).toNat ∨ rankHeld c o (readG t b).toNat = true) →
        Traps s t (.xreq d a b) .handle (readG t b)) ∧
      (32768 ≤ freeKey 0 c.places → (o.ranked = false → readG t b = 0) →
        (o.ranked = true → (readG t b).toNat < o.ranks ∧ rankHeld c o (readG t b).toNat = false) →
        WritesG s t (.xreq d a b) d 0)) ∧
    (∀ m o, objectOf s cl x = some (m, o) → o.queue = [] → o.granted = none →
      Completes s (.xfree a) (s.modCluster cl fun c =>
        { c with objects := tdel c.objects m, objGens := tset c.objGens m (nextGen (c.objGen m)) }) id (t.pc + 4)) ∧
    (∀ m o, objectOf s cl x = some (m, o) → o.queue ≠ [] ∨ o.granted ≠ none → t.inTrap = false →
      Traps s t (.xfree a) .handle x) ∧
    (∀ m o s1 s3, objectOf s cl x = some (m, o) →
      (o.ranked = false → readG t b = 0 ∧ passesLogged s t = .ok (none, s1)) →
      (o.ranked = true → (readG t b).toNat < o.ranks ∧ rankHeld c o (readG t b).toNat = false ∧ s1 = s) →
      let i := freeKey 0 c.places
      let p : Place := { obj := m, owner := s1.cur, requester := s1.cur, ordinal := t.xreqOrdinal,
                         round := if o.ranked then requestRound c o (readG t b).toNat else 0, rank := (readG t b).toNat,
                         state := .queued }
      let s2 := modObj (s1.modCluster cl fun c => { c with places := tset c.places i p }) cl m
        fun o => { o with queue := o.queue ++ [i] }
      i < 32768 → decide s2 t.decider cl m true s2.cur = .ok s3 →
      Completes s (.xreq d a b) s3
        (fun r => writeG { r with xreqOrdinal := if o.ranked then r.xreqOrdinal else r.xreqOrdinal + 1 } d
          (syncHandle (c.placeGen i) m i cl)) (t.pc + 4))

/-- R125, R128 and R129: what the owner of a place can do with it. XGIVE of a granted place, XREL and XDROP of one are releases
and wait for the thread's stores; XSWAP exchanges the order of two queued places, of their ranks where the object is ranked; a
value that is no place of the thread's own, and operands that the rule refuses, raise HANDLE. -/
def Obligations.OwnersWaitTryGiveSwapDropAndRelease : Prop :=
  (
  ∀ (s : State) (t : Thread) (d a b : GReg), Issues s t → t.inTrap = false →
    (∀ i p, placeOf s (t.lcore / 128) (readG t a) = .live i p → p.owner ≠ s.cur) →
      let h := readG t a
      Traps s t (.xwait a) .handle h ∧ Traps s t (.xtry d a) .handle h ∧ Traps s t (.xgive a b) .handle h ∧
      Traps s t (.xswap a b) .handle h ∧ Traps s t (.xrel a) .handle h ∧ Traps s t (.xdrop a) .handle h) ∧
  ∀ (s : State) (t : Thread) (d a b : GReg) (i : Nat) (p : Place), Issues s t →
    let h := readG t a
    let cl := t.lcore / 128
    let free := !hasStores s (s.coreOf t) s.cur
    ownPlace s t s.cur h = .ok (i, p) →
      (p.state = .granted → Completes s (.xwait a) (acquireFor s t) id (t.pc + 4) ∧
        Completes s (.xtry d a) (acquireFor s t) (fun r => writeG r d 1) (t.pc + 4)) ∧
      (p.state ≠ .granted → WritesG s t (.xtry d a) d 0) ∧
      (p.state = .queued → Waits s (.xwait a) s (.place h)) ∧
      (p.state = .abandoned → t.inTrap = false → Traps s t (.xwait a) .handle h) ∧
      (∀ x, s.thread? ((readG t b).extractLsb 15 0).toNat = some x → x.ctx = t.ctx →
        ((readG t b).extractLsb 15 0).toNat ≠ s.cur → (p.state = .granted → free) →
        Completes s (.xgive a b) (modPlace s cl i fun q => { q with owner := ((readG t b).extractLsb 15 0).toNat }) id
          (t.pc + 4)) ∧
      (p.state = .granted → free = false →
        (∀ x, s.thread? ((readG t b).extractLsb 15 0).toNat = some x → x.ctx = t.ctx → ((readG t b).extractLsb 15 0).toNat ≠ s.cur →
          Waits s (.xgive a b) s .storeBuffer) ∧
        Waits s (.xrel a) s .storeBuffer ∧ Waits s (.xdrop a) s .storeBuffer) ∧
      (((readG t b).extractLsb 15 0).toNat = s.cur → Completes s (.xgive a b) s id (t.pc + 4)) ∧
      (t.inTrap = false → (∀ x, s.thread? ((readG t b).extractLsb 15 0).toNat = some x → x.ctx ≠ t.ctx) →
        Traps s t (.xgive a b) .handle (readG t b)) ∧
      (p.state ≠ .queued → t.inTrap = false → Traps s t (.xswap a b) .handle h) ∧
      (∀ j q o, p.state = .queued → placeOf s cl (readG t b) = .live j q → tget (s.cluster cl).objects p.obj = some o →
        t.inTrap = false →
        q.obj ≠ p.obj ∨ q.state ≠ .queued ∨ (o.ranked = false ∧ o.queue.idxOf j ≤ o.queue.idxOf i) ∨
          (o.ranked = true ∧ (q.round < p.round ∨ q.round = p.round ∧ q.rank ≤ p.rank)) →
        Traps s t (.xswap a b) .handle (readG t b)) ∧
      (∀ j q o s2, p.state = .queued → placeOf s cl (readG t b) = .live j q → tget (s.cluster cl).objects p.obj = some o →
        o.ranked = true → q.obj = p.obj → q.state = .queued → p.round < q.round ∨ p.round = q.round ∧ p.rank < q.rank →
        decide (modPlace (modPlace s cl i fun x => { x with round := q.round, rank := q.rank }) cl j fun x =>
          { x with round := p.round, rank := p.rank }) t.decider cl p.obj true s.cur = .ok s2 →
        Completes s (.xswap a b) s2 id (t.pc + 4)) ∧
      (∀ j q o s2, p.state = .queued → placeOf s cl (readG t b) = .live j q → tget (s.cluster cl).objects p.obj = some o →
        o.ranked = false → q.obj = p.obj → q.state = .queued → o.queue.idxOf i < o.queue.idxOf j →
        decide (modObj s cl p.obj fun o => { o with queue := swapEntries o.queue i j }) t.decider cl p.obj true s.cur = .ok s2 →
        Completes s (.xswap a b) s2 id (t.pc + 4)) ∧
      (∀ s2, p.state = .granted → free → releasePlace s t.decider cl i s.cur = .ok s2 →
        Completes s (.xrel a) s2 id (t.pc + 4) ∧ Completes s (.xdrop a) s2 id (t.pc + 4)) ∧
      (∀ o, p.state = .queued → tget (s.cluster cl).objects p.obj = some o →
        (o.ranked = true → Completes s (.xdrop a) (modPlace s cl i fun q => { q with state := .abandoned }) id (t.pc + 4)) ∧
        (∀ s1, o.ranked = false → dropsLogged s t.decider p = .ok (none, s1) →
          Completes s (.xdrop a) (passIdle (modPlace s1 cl i fun q => { q with state := .abandoned }) cl p.obj) id
            (t.pc + 4))) ∧
      (p.state = .abandoned → Completes s (.xdrop a) s id (t.pc + 4)) ∧
      (p.state ≠ .granted → t.inTrap = false → Traps s t (.xrel a) .handle h)

/-- R123 and R128: XSTAT reads any place of the cluster, 0 for a stale handle; R129: a walk that reaches a queued place grants
it. -/
def Obligations.XstatReadsAndWalksGrant : Prop :=
  ∀ (s : State) (t : Thread) (d a : GReg), Issues s t →
    let cl := t.lcore / 128
    (placeOf s cl (readG t a) = .stale → WritesG s t (.xstat d a) d 0) ∧
    (∀ i p o, placeOf s cl (readG t a) = .live i p → tget (s.cluster cl).objects p.obj = some o →
      WritesG s t (.xstat d a) d (BitVec.ofNat 64 (placeCode p.state + (if o.ranked then 8 else 0) + p.rank * 2 ^ 16 +
        p.owner * 2 ^ 32))) ∧
    (∀ obj o i, tget (s.cluster cl).objects obj = some o → o.walking = true → walkHead (s.cluster cl) o = .queued i →
      exec (.releaseWalk cl obj) s = .next (grantPlace s cl obj i) ∧
      ∃ o', tget ((grantPlace s cl obj i).cluster cl).objects obj = some o' ∧ o'.granted = some i ∧ o'.walking = false) ∧
    (∀ obj o, tget (s.cluster cl).objects obj = some o → o.walking = true → walkHead (s.cluster cl) o = .nobody →
      ∃ s', exec (.releaseWalk cl obj) s = .next s' ∧
        tget (s'.cluster cl).objects obj = some { o with walking := false })

/-- R130 and R131: the key registers. A register that takes a new value retires its old pair; a pair in use gives the warning
KEYREUSE after the instruction; an invalid register traps where its contents are needed. -/
def Obligations.KeysAreSetSteppedReadAndDrawn : Prop :=
  ∀ (s : State) (t : Thread) (d a b : GReg) (k : KReg) (index : BitVec 4), Issues s t →
    let key := readK t k
    let set : KeyReg := { valid := true, tensor := (readG t a).extractLsb 55 32, step := (readG t a).extractLsb 31 0,
                          seed := readG t b }
    let step := { key with step := key.step + (readG t a).extractLsb 31 0 }
    let s1 := retireKey s t.ctx key
    (keyUsed s1 t k.toNat set = false → Completes s (.kset k a b) s1 (fun r => writeK r k set) (t.pc + 4)) ∧
    (key.valid = true → keyUsed s1 t k.toNat step = false →
      Completes s (.kstep k a) s1 (fun r => writeK r k step) (t.pc + 4)) ∧
    (WritesG s t (.kget d k 0) d (keyWord0 key)) ∧
    (key.valid = true → WritesG s t (.kget d k 1) d key.seed ∧
      WritesG s t (.rdraw d k b index) d
        ((keyDraw key ((readG t b).extractLsb 47 0) (BitVec.ofNat 8 (index.toNat + 1))).setWidth 64)) ∧
    (key.valid = false → t.inTrap = false →
      Traps s t (.kstep k a) .illegal (keyWord0 key) ∧ Traps s t (.kget d k 1) .illegal (keyWord0 key) ∧
      Traps s t (.rdraw d k b index) .illegal (keyWord0 key)) ∧
    (keyUsed s1 t k.toNat set = true → t.inTrap = false → (s.ctx t.ctx).logMode.getLsbD 2 = false →
      ∃ s', exec (.kset k a b) s = .next s' ∧
        s'.thread? s.cur = some (enterTrap (advance (writeK t k set) (t.pc + 4)) .keyreuse (keyWord0 set) (t.pc + 4) true true 0))

/-- R132: the byte-counting barriers. BCINIT, BCPOST and arrivals recompute the flags; BCWAIT waits for one of them, and over,
which it tests first, is cleared with the warning BCOVER after the instruction. BCINIT and BCPOST are releases, and wait for the
thread's stores and remote operations, BCWAIT for its releasing stores (R338). -/
def Obligations.BarriersCountPostsAndBytes : Prop :=
  ∀ (s : State) (t : Thread) (d a b : GReg) (core addr : Nat), Issues s t →
    let ga := readG t a
    let x := barrierAt s core addr
    let posts := (readG t b).extractLsb 15 0
    let free := hasReleases s (s.coreOf t) s.cur = false
    ga.toNat % 16 = 0 → ga.getLsbD 63 = true → resolve s t ga 16 .write = .ok (.pot core addr, s) →
      (hasStores s (s.coreOf t) s.cur = true →
        Waits s (.bcinit a b) s .storeBuffer ∧ Waits s (.bcpost a b) s .storeBuffer) ∧
      (hasStores s (s.coreOf t) s.cur = false → t.remotePending ≠ [] →
        Waits s (.bcinit a b) s .remote ∧ Waits s (.bcpost a b) s .remote) ∧
      (¬free → Waits s (.bcwait d a) s .storeBuffer) ∧
      (hasStores s (s.coreOf t) s.cur = false → t.remotePending = [] →
        Completes s (.bcinit a b) (putBarrier s core addr
          { count := 0, posts := posts.toNat, isOver := false, complete := decide (posts = 0) }) id (t.pc + 4) ∧
        Completes s (.bcpost a b) (putBarrier s core addr (recompute
          { x with count := (BitVec.ofInt 64 (x.count + (readG t b).toNat)).toInt, posts := x.posts - 1 })) id (t.pc + 4)) ∧
      (free → x.isOver = false → x.complete = true → Completes s (.bcwait d a) (acquireFor s t) (fun r => writeG r d 0) (t.pc + 4)) ∧
      (free → x.isOver = false → x.complete = false → Waits s (.bcwait d a) s (.barrier (granuleKey core addr))) ∧
      (free → x.isOver = true → t.inTrap = false →
        ∃ s', exec (.bcwait d a) s = .next s' ∧ s'.thread? s.cur = some (enterTrap
          (advance (writeG t d (BitVec.ofInt 64 x.count)) (t.pc + 4)) .bcover ga (t.pc + 4) true true 0) ∧
          ((s.core core).pots.wf = true → barrierAt s' core addr = { x with isOver := false })) ∧
      (∀ n, barrierArrive s core addr n = putBarrier s core addr (recompute { x with count := (BitVec.ofInt 64 (x.count - n)).toInt })) ∧
      (∀ y, (recompute y).count = y.count ∧ (recompute y).posts = y.posts ∧ (recompute y).complete = (y.posts = 0 ∧ y.count = 0 : Bool) ∧
        (recompute y).isOver = (y.isOver || (y.posts = 0 ∧ y.count < 0 : Bool)))

/-! ## Traps, registers of control, and the life of a thread -/

/-- R138: taking a trap. The cause register holds the code with the warning, precise and engine fields; the value and the
address are saved; STATUS[2] takes STATUS[0], and STATUS[0] and STATUS[1] are set; the handler at TVEC is next. No other register,
no memory and no other thread changes. R141 and R286: for a precise trap inside a handler, other than a warning, the fault is
recorded and the thread retires by R61, which no log entry can stop; the first record keeps its cause, address and value, and the
count grows. -/
def Obligations.TrapEntrySavesTheAddressAndEntersTheHandler : Prop :=
  (∀ (t : Thread) (cause : Cause) (value tpc : Word) (precise warning : Bool) (engine : Nat),
    let t' := enterTrap t cause value tpc precise warning engine
    t'.tcause.extractLsb 7 0 = BitVec.ofNat 8 cause.code ∧ t'.tcause.getLsbD 8 = warning ∧ t'.tcause.getLsbD 9 = precise ∧
      t'.tcause.extractLsb 15 10 = 0 ∧ t'.tcause.extractLsb 23 16 = BitVec.ofNat 8 engine ∧ t'.tcause.extractLsb 63 24 = 0 ∧
      t'.tvalue = value ∧ t'.tpc = tpc ∧ t'.pc = t.tvec ∧
      t'.status.getLsbD 0 = true ∧ t'.status.getLsbD 1 = true ∧ t'.status.getLsbD 2 = t.status.getLsbD 0 ∧
      (∀ i, 3 ≤ i → t'.status.getLsbD i = t.status.getLsbD i) ∧
      t'.g = t.g ∧ t'.v = t.v ∧ t'.k = t.k ∧ t'.ch = t.ch ∧ t'.tvec = t.tvec ∧ t'.slice = t.slice ∧
      t'.watchAddr = t.watchAddr ∧ t'.watchMask = t.watchMask ∧ t'.ctx = t.ctx ∧ t'.lcore = t.lcore) ∧
  (∀ (s : State) (tid : Nat) (t : Thread) (cause : Cause) (value : Word) (warning : Bool), s.thread? tid = some t → t.inTrap = false →
    takeTrap s tid cause value warning = s.setThread tid (enterTrap t cause value t.pc true warning 0)) ∧
  (∀ (s : State) (tid : Nat) (t : Thread) (cause : Cause) (value : Word), s.thread? tid = some t → t.inTrap = true →
    ∃ s', retireThread (s.modCtx t.ctx fun c => { c with fault := recordFault c.fault tid cause t.pc value }) tid true = .ok s' ∧
      takeTrap s tid cause value false = s' ∧ s'.thread? tid = none) ∧
  (
    ∀ (r : FaultRecord) (tid : Nat) (cause : Cause) (tpc value : Word),
      let r' := recordFault r tid cause tpc value
      (r.count = 0 → r' = { tid := BitVec.ofNat 16 tid, cause := BitVec.ofNat 8 cause.code, count := 1, tpc := tpc,
                            tvalue := value }) ∧
      (r.count ≠ 0 → r'.tid = r.tid ∧ r'.cause = r.cause ∧ r'.tpc = r.tpc ∧ r'.tvalue = r.tvalue ∧
        r'.count = if r.count = BitVec.allOnes 32 then r.count else r.count + 1))

/-- R133, R137 and R139: TRAP takes SWTRAP after itself, BRK takes BREAK at itself, RETT returns inside a handler in system mode
and traps elsewhere; an undefined word takes ILLEGAL with the word. -/
def Obligations.SoftwareTrapsAndTheReturn : Prop :=
  ∀ (s : State) (t : Thread) (n : BitVec 7) (w : W32), Issues s t →
    (t.inTrap = false →
      (∃ s', exec (.trap n) s = .next s' ∧
        s'.thread? s.cur = some (enterTrap (advance t (t.pc + 4)) .swtrap (n.setWidth 64) (t.pc + 4) true false 0)) ∧
      Traps s t (.brk n) .brk (n.setWidth 64) ∧
      Traps s t (.undefinedInstruction w) .illegal (w.setWidth 64)) ∧
    (t.system = true → t.inTrap = true →
      Completes s .rett s (fun r => { r with pc := r.tpc, status := statusOnReturn r.status }) t.tpc) ∧
    (t.system = true → t.inTrap = false → Traps s t .rett .illegal (instrWord .rett)) ∧
    (t.system = false → t.inTrap = false → Traps s t .rett .privilege (instrWord .rett)) ∧
    (∀ x : Word, (statusOnReturn x).getLsbD 0 = x.getLsbD 2 ∧ (statusOnReturn x).getLsbD 1 = false ∧
      ∀ i, 2 ≤ i → (statusOnReturn x).getLsbD i = x.getLsbD i)

/-- R53 and R133: CSRR reads every register; the forms that write give the old value, take effect in system mode, and trap on
TCAUSE, THREADID and COREID, and outside system mode on a privileged register; a write of TVALUE is ignored (R6; that it does not
trap is read so: log 71); and which field each register number reads and what a write keeps of the value. -/
def Obligations.ControlRegistersAreReadAndWritten : Prop :=
  (
    ∀ (s : State) (t : Thread) (d a : GReg) (csr : BitVec 7), Issues s t →
      let n := csr.toNat
      let old := readCsr s s.cur t n
      let ga := readG t a
      let put := fun (i : Instr) (v : Word) =>
        Completes s i (writeCsrCtx s t.ctx n v) (fun r => writeG (writeCsrThread r n v) d old) (t.pc + 4)
      WritesG s t (.csrr d csr) d old ∧
      (a = 0 → WritesG s t (.csrs d a csr) d old ∧ WritesG s t (.csrc d a csr) d old) ∧
      (csrReadOnly n = false → n ≠ 5 → (csrSystem n = true → t.system = true) →
        put (.csrw d a csr) ga ∧
        (a ≠ 0 → put (.csrs d a csr) (old ||| ga) ∧ put (.csrc d a csr) (old &&& ~~~ga))) ∧
      (n = 5 →
        (let clear := s.modCtx t.ctx fun c => { c with cir := c.cir &&& ~~~(ga.setWidth 4) }
         Completes s (.csrw d a csr) clear (fun r => writeG r d old) (t.pc + 4) ∧
         (a ≠ 0 → Completes s (.csrs d a csr) clear (fun r => writeG r d old) (t.pc + 4) ∧
          WritesG s t (.csrc d a csr) d old))) ∧
      (t.inTrap = false → csrReadOnly n = true →
        Traps s t (.csrw d a csr) .illegal (instrWord (.csrw d a csr)) ∧
        (a ≠ 0 → Traps s t (.csrs d a csr) .illegal (instrWord (.csrs d a csr)) ∧
          Traps s t (.csrc d a csr) .illegal (instrWord (.csrc d a csr)))) ∧
      (t.inTrap = false → csrReadOnly n = false → csrSystem n = true → t.system = false →
        Traps s t (.csrw d a csr) .privilege (instrWord (.csrw d a csr)) ∧
        (a ≠ 0 → Traps s t (.csrs d a csr) .privilege (instrWord (.csrs d a csr)) ∧
          Traps s t (.csrc d a csr) .privilege (instrWord (.csrc d a csr))))) ∧
  (
    ∀ (s : State) (tid : Nat) (t : Thread) (x : Word),
      let c := s.ctx t.ctx
      (readCsr s tid t 0x00 = t.status ∧ readCsr s tid t 0x01 = t.tcause ∧ readCsr s tid t 0x02 = t.tvalue ∧
        readCsr s tid t 0x03 = t.tvec ∧ readCsr s tid t 0x04 = t.tpc ∧ readCsr s tid t 0x05 = c.cir.setWidth 64 ∧
        readCsr s tid t 0x06 = t.slice.setWidth 64 ∧ readCsr s tid t 0x09 = c.logBase ∧ readCsr s tid t 0x0A = c.logHead ∧
        readCsr s tid t 0x0B = c.logMode ∧ (∀ i : Fin 4, readCsr s tid t (0x10 + i) = t.watchAddr[i] ∧
          readCsr s tid t (0x14 + i) = t.watchMask[i])) ∧
      ((readCsr s tid t 0x07).extractLsb 15 0 = BitVec.ofNat 16 tid ∧
        (readCsr s tid t 0x07).extractLsb 21 16 = BitVec.ofNat 6 t.ctx) ∧
      (let id := readCsr s tid t 0x08
       id.extractLsb 6 0 = BitVec.ofNat 7 t.lcore ∧ id.extractLsb 7 7 = BitVec.ofNat 1 (t.lcore / 128) ∧
        id.extractLsb 15 8 = (if t.system then (s.lct t.lcore).phys else 0) ∧
        id.extractLsb 23 16 = s.trivet.chip ∧ id.extractLsb 63 24 = 0) ∧
      (let hist := readCsr s tid t 0x0C
       hist.extractLsb 60 56 = t.histSel ∧
        (∀ key step, c.history[t.histSel.toNat]? = some (key, step) →
          hist.extractLsb 63 63 = 1 ∧ hist.extractLsb 55 32 = key ∧ hist.extractLsb 31 0 = step) ∧
        (c.history[t.histSel.toNat]? = none → hist.extractLsb 63 63 = 0)) ∧
      ((writeCsrThread t 0x00 x).status = x &&& 0xF ∧ (writeCsrThread t 0x03 x).tvec = x &&& ~~~3 ∧
        (writeCsrThread t 0x04 x).tpc = x &&& ~~~3 ∧ (writeCsrThread t 0x06 x).slice = x.setWidth 32 ∧
        (writeCsrThread t 0x0C x).histSel = x.extractLsb 60 56 ∧
        ∀ i : Fin 4, (writeCsrThread t (0x10 + i) x).watchAddr[i] = x ∧ (writeCsrThread t (0x14 + i) x).watchMask[i] = x &&& 0xFFF) ∧
      (((writeCsrCtx s t.ctx 0x09 x).ctx t.ctx).logBase = x &&& ~~~63 ∧ ((writeCsrCtx s t.ctx 0x0A x).ctx t.ctx).logHead = x ∧
        (x.extractLsb 1 0 ≠ 2 → idleObjects s t.ctx = [] →
          ((writeCsrCtx s t.ctx 0x0B x).ctx t.ctx).logMode = x &&& 0xFFFFFFFF00000007)))

/-- R55, R59, R61 and R133: SPAWN creates a thread or gives 0, EXIT retires its own, YIELD gives its slot to the oldest
spilled-ready thread, becomes spilled-ready and reloads SLICE, WAIT counts slots, MIGRATE asks for an exchange. SPAWN and EXIT are
releases and wait for the thread's stores. R55: a thread as it is created: every register is zero but the program counter, g1, g2,
STATUS[0] and TVEC; SLICE is the context's. (Bits [1:0] of the program counter are zero by R50; that SPAWN from a base that is no
word address clears them is the model's choice: log 86.) -/
def Obligations.ThreadsSpawnExitYieldWaitAndMigrate : Prop :=
  (
    ∀ (s : State) (t : Thread) (d a : GReg) (off : BitVec 12), Issues s t →
      let ga := readG t a
      let base := if a = 0 then t.pc else ga
      let made := createThread s t.ctx t.lcore (base + 4 * off.signExtend 64) (BitVec.ofNat 64 s.cur) 0 t.system t.tvec none
      let T := 128 * (t.lcore / 128) + (ga.extractLsb 6 0).toNat
      let folded := foldContext s t.ctx
      let settled := hasStores s (s.coreOf t) s.cur = false
      (¬settled → Waits s (.spawn d a off) s .storeBuffer ∧ Waits s .exit s .storeBuffer) ∧
      (∀ tid s1, settled → made = some (tid, s1) →
        Completes s (.spawn d a off) s1 (fun r => writeG r d (BitVec.ofNat 64 tid)) (t.pc + 4)) ∧
      (settled → made = none → WritesG s t (.spawn d a off) d 0) ∧
      (∀ s1, settled → retireThread s s.cur false = .ok s1 →
        s1.thread? s.cur = none ∧ Completes s .exit s1 id (t.pc + 4)) ∧
      (oldestSpilled s t.lcore = none → Completes s .yield s id (t.pc + 4)) ∧
      (∀ n x, oldestSpilled s t.lcore = some (n, x) → n ≠ s.cur → t.isSpilled = false →
        ∃ s', exec .yield s = .next s' ∧ s'.mem = s.mem ∧ s'.thread? n = some { x with seat := t.seat } ∧
          (s'.thread? s.cur).map (fun y => (y.seat, y.run, y.pc, y.slice)) = some (x.seat, .ready, t.pc + 4, sliceLen (s.ctx t.ctx))) ∧
      (ga.extractLsb 31 0 = 0 ∨ (t.waitArmed = true ∧ t.waitLeft = 0) →
        Completes s (.wait a) s (fun r => { r with waitArmed := false }) (t.pc + 4)) ∧
      (ga.extractLsb 31 0 ≠ 0 → t.waitArmed = false → Waits s (.wait a)
        (s.modThread s.cur fun r => { r with waitArmed := true, waitLeft := (ga.extractLsb 31 0).toNat }) .count) ∧
      (t.system = true → ga.extractLsb 63 7 = 0 → (s.lct T).allocated = true → (s.lct T).ctx.toNat = t.ctx → s.backed T = true →
        (T = t.lcore → Completes s (.migrate a) s (fun r => { r with migrateTo := none }) (t.pc + 4)) ∧
        (T ≠ t.lcore → ∃ s1, Completes s (.migrate a) s1 (fun r => { r with migrateTo := some T }) (t.pc + 4) ∧
          s1.mem = s.mem ∧ s1.cores = s.cores ∧ s1.clusters = s.clusters)) ∧
      (t.system = false → t.inTrap = false → Traps s t (.migrate a) .privilege (instrWord (.migrate a))) ∧
      Completes s (.chkerr d) folded (fun r => writeG r d ((folded.ctx t.ctx).cir.setWidth 64)) (t.pc + 4)) ∧
  (
    ∀ (s : State) (ctx lc : Nat) (seat : Seat) (pc g1 g2 : Word) (system : Bool) (tvec : Word) (queue : Option Nat) (r : GReg),
      let t := newThread s ctx lc seat pc g1 g2 system tvec queue
      readG t r = (if r = 1 then g1 else if r = 2 then g2 else 0) ∧ t.pc = (pc &&& ~~~3) ∧ t.tvec = tvec ∧
      t.status = (if system then 1 else 0) ∧ t.tcause = 0 ∧ t.tvalue = 0 ∧ t.tpc = 0 ∧ t.slice = sliceLen (s.ctx ctx) ∧
      (∀ v : VReg, readV t v = 0) ∧ (∀ k : KReg, (readK t k).valid = false) ∧ (∀ i, (t.chEnd i).bound = false) ∧
      t.run = .ready ∧ t.reports = [])

/-- R57, R59 and R140: wake words, counts that run out, slices that run out and reports reach their thread. A slice that runs out
while a spilled-ready thread stands gives the slot to the oldest one, and the context's reports fold (that this save folds is log
75). A thread takes no report while its slice trap is due (that the slice trap comes first is log 11). -/
def Obligations.WakesExpiriesAndReportsReachTheirThread : Prop :=
  ∀ (s : State) (tid : Nat) (t : Thread), s.thread? tid = some t →
    let ready := { t with run := .ready, waitedSlots := 0, readySince := s.arrivals, seat := readySeat s t }
    (∀ n r, s.wakes[n]? = some { tid := tid, reason := r } → t.run = .waiting r →
      ∃ s', exec (.wakeWord n) s = .next s' ∧ s'.wakes = s.wakes.eraseIdx n ∧ s'.thread? tid = some ready) ∧
    (t.run = .waiting .count → t.waitLeft = 0 →
      ∃ s', exec (.waitCountExpiry tid) s = .next s' ∧ s'.thread? tid = some ready) ∧
    (t.sliceDue = true → t.sliceTraps = true → t.inTrap = false →
      exec (.sliceExpiry tid) s = .next (s.setThread tid (enterTrap
        { t with slice := sliceLen (s.ctx t.ctx), sliceDue := false } .slice 0 t.pc true false 0))) ∧
    (t.sliceDue = true → t.sliceTraps = false → oldestSpilled s t.lcore = none →
      ∃ s', exec (.sliceExpiry tid) s = .next s' ∧
        s'.thread? tid = some { t with slice := sliceLen (s.ctx t.ctx), sliceDue := false }) ∧
    (∀ n x, t.sliceDue = true → t.sliceTraps = false → oldestSpilled s t.lcore = some (n, x) → n ≠ tid →
      ∃ s', exec (.sliceExpiry tid) s = .next s' ∧ s'.thread? n = some { x with seat := t.seat } ∧
        s'.thread? tid = some { t with seat := x.seat, slice := sliceLen (s.ctx t.ctx), sliceDue := false,
                                       readySince := s.arrivals } ∧
        s'.mem = s.mem ∧ (∀ m, m ≠ tid → m ≠ n → s'.thread? m = s.thread? m) ∧
        (s'.ctx t.ctx).cir = ((foldContext s t.ctx).ctx t.ctx).cir) ∧
    (∀ r rest, t.sliceDue = true → t.sliceTraps = true → t.reports = r :: rest → exec (.impreciseReport (.take tid)) s = .next s) ∧
    (t.sliceDue = false → exec (.sliceExpiry tid) s = .next s) ∧
    (∀ n r, s.reports[n]? = some (tid, r) → t.run = .ready →
      ∃ s', exec (.impreciseReport (.deliver n)) s = .next s' ∧ s'.thread? tid = some (queueReport t r)) ∧
    (∀ r rest, t.reports = r :: rest → t.inTrap = false → t.run = .ready → (t.sliceDue && t.sliceTraps) = false →
      exec (.impreciseReport (.take tid)) s = .next (s.setThread tid
        (enterTrap { t with reports := rest } r.cause r.tvalue t.pc r.precise r.warning r.engine.toNat)))

/-! ## Vectors -/

/-- R104 to R107: the operations on elements. Element e of vd comes from the elements e of the operands alone; vd is read before it
is written; and what the integer element operations compute, on patterns below two to the width. -/
def Obligations.VectorOperationsActOnEachElement : Prop :=
  (
    ∀ (s : State) (t : Thread) (rnd : Rnd) (sat : Bool) (ty : Ty) (d a b : VReg), Issues s t →
      let lanes := fun (i : Instr) (op : LaneOp) => ∃ x, WritesV s t i d x ∧ ∀ e, e < ty.lanes →
        elem ty.width x e = laneOp op ty rnd sat (elem ty.width (readV t a) e) (elem ty.width (readV t b) e)
          (elem ty.width (readV t d) e) % 2 ^ ty.width
      let unary := fun (i : Instr) (op : LaneOp) => ∃ x, WritesV s t i d x ∧ ∀ e, e < ty.lanes →
        elem ty.width x e = laneOp op ty rnd sat (elem ty.width (readV t a) e) 0 (elem ty.width (readV t d) e) % 2 ^ ty.width
      lanes (.vadd rnd sat ty d a b) .add ∧ lanes (.vsub rnd sat ty d a b) .sub ∧ lanes (.vmul rnd sat ty d a b) .mul ∧
      lanes (.vfma rnd sat ty d a b) .fma ∧ lanes (.vmin rnd sat ty d a b) .min ∧ lanes (.vmax rnd sat ty d a b) .max ∧
      lanes (.vand rnd sat ty d a b) .and ∧ lanes (.vor rnd sat ty d a b) .or ∧ lanes (.vxor rnd sat ty d a b) .xor ∧
      lanes (.vshl rnd sat ty d a b) .shl ∧ lanes (.vshr rnd sat ty d a b) .shr ∧ lanes (.vsra rnd sat ty d a b) .sra ∧
      lanes (.vcmpeq rnd sat ty d a b) .eq ∧ lanes (.vcmplt rnd sat ty d a b) .lt ∧ lanes (.vcmple rnd sat ty d a b) .le ∧
      lanes (.vmulh rnd sat ty d a b) .mulh ∧ unary (.vabs rnd sat ty d a) .abs ∧ unary (.vneg rnd sat ty d a) .neg ∧
      unary (.vexp2 rnd sat ty d a) .exp2 ∧ unary (.vlog2 rnd sat ty d a) .log2 ∧ unary (.vrcp rnd sat ty d a) .rcp ∧
      unary (.vrsqrt rnd sat ty d a) .rsqrt ∧
      (∃ x, WritesV s t (.vsel rnd sat ty d a b) d x ∧ ∀ e, e < ty.lanes → elem ty.width x e =
        if elem ty.width (readV t d) e ≠ 0 then elem ty.width (readV t a) e else elem ty.width (readV t b) e)) ∧
  (
    ∀ (ty : Ty) (rnd : Rnd) (sat : Bool) (x y : BitVec ty.width) (c : Nat), ty.isVInt = true →
      let A : Int := if ty.isSigned then x.toInt else x.toNat
      let B : Int := if ty.isSigned then y.toInt else y.toNat
      let lane := fun op : LaneOp => laneOp op ty rnd sat x.toNat y.toNat c
      let kept := fun v : Int =>
        (BitVec.ofInt ty.width (if sat then max (leastOf ty) (min (greatestOf ty) v) else v)).toNat
      lane .add = kept (A + B) ∧ lane .sub = kept (A - B) ∧ lane .mul = kept (A * B) ∧ lane .neg = kept (-A) ∧
      lane .abs = kept |A| ∧ lane .and = (x &&& y).toNat ∧ lane .or = (x ||| y).toNat ∧ lane .xor = (x ^^^ y).toNat ∧
      lane .shl = (x <<< y.toNat).toNat ∧ lane .shr = (x >>> y.toNat).toNat ∧ lane .sra = (x.sshiftRight y.toNat).toNat ∧
      lane .mulh = (BitVec.ofInt ty.width (A * B / 2 ^ ty.width)).toNat ∧
      lane .min = (if B < A then y else x).toNat ∧ lane .max = (if A < B then y else x).toNat ∧
      lane .eq = (if A = B then BitVec.allOnes ty.width else 0).toNat ∧
      lane .lt = (if A < B then BitVec.allOnes ty.width else 0).toNat ∧
      lane .le = (if A ≤ B then BitVec.allOnes ty.width else 0).toNat)

/-- R109 to R112: conversion, permutation, broadcast, insertion, extraction, rotation and reduction. A keyed conversion with an
invalid key register traps. -/
def Obligations.VectorElementsMoveConvertAndReduce : Prop :=
  ∀ (s : State) (t : Thread) (rnd : Rnd) (ty dt st : Ty) (op : RedOp) (d a b : VReg) (g : GReg) (k : KReg) (cg : BitVec 4)
    (n : BitVec 6), Issues s t →
    let w := ty.width
    let A := elem w (readV t a)
    let each := fun (i : Instr) (f : Nat → Nat) => ∃ x, WritesV s t i d x ∧ ∀ e, e < ty.lanes → elem w x e = f e
    each (.vperm ty d a b) (fun e => if elem w (readV t b) e < ty.lanes then A (elem w (readV t b) e) else 0) ∧
    each (.vbcast ty d g) (fun _ => (readG t g).toNat % 2 ^ w) ∧
    each (.vins ty d g n) (fun e => if e = n.toNat then (readG t g).toNat % 2 ^ w else elem w (readV t d) e) ∧
    each (.vrot ty d a n) (fun e => A ((e + n.toNat) % ty.lanes)) ∧
    each (.vred op ty d a) (fun e => if e = 0 then reduceList op ty ((List.range ty.lanes).map A) % 2 ^ w else 0) ∧
    WritesG s t (.vext ty g a n) g (extended ty (BitVec.ofNat w (A n.toNat))) ∧
    ((rnd = .rs → (readK t k).valid = true) →
      ∃ x, WritesV s t (.vcvt rnd dt st d a k cg) d x ∧ ∀ e, e < dt.lanes → elem dt.width x e =
        if e < st.lanes then
          convert st dt rnd true (if rnd = .rs then
            (keyDraw (readK t k) ((readG t (cg.setWidth 5)).setWidth 48 + BitVec.ofNat 48 e) 0).toNat else 0)
            (elem st.width (readV t a) e) % 2 ^ dt.width
        else 0) ∧
    (rnd = .rs → (readK t k).valid = false → t.inTrap = false →
      Traps s t (.vcvt rnd dt st d a k cg) .illegal (keyWord0 (readK t k)))

/-! ## Graphs, launches, copies and rates -/

/-- R223 to R225: CFGLD waits for the thread's stores to drain (so log 63), is checked, takes the lowest free handle and waits for
its load, or gives 0 where none is free; CFGSWAP arms a loaded handle; CFGDROP frees a rejected or a loaded one, and an active one
whose launch does not run; a frozen one, an active one whose launch runs, and values that name no handle raise HANDLE. -/
def Obligations.GraphsAreLoadedSwappedAndDropped : Prop :=
  ∀ (s : State) (t : Thread) (d a b : GReg), Issues s t →
    let ga := readG t a
    let cl := t.lcore / 128
    let settled := hasStores s (s.coreOf t) s.cur = false
    (hasStores s (s.coreOf t) s.cur = true → Waits s (.cfgld d a b) s .storeBuffer) ∧
    (∀ im o ps s1, settled → cfgldChecks s t ga (readG t b) = .ok (im, o, ps, s1) →
      let h := freeKey 0 (s1.cluster cl).handles
      (1024 ≤ h → Completes s (.cfgld d a b) s1 (fun r => writeG r d 0) (t.pc + 4)) ∧
      (h < 1024 → loadBlocked s1 cl ps = true → Waits s (.cfgld d a b) s1 .load) ∧
      (∀ db s2, h < 1024 → loadBlocked s1 cl ps = false →
        imageBytes s1 t.ctx (!t.system) (ga.toNat + im.dictOff) (4 * im.dicts) = .ok (db, s2) →
        let s3 := beginLoad s2 cl h (Handle.start t.ctx s2.cur d.toNat ga im.len o im.delta ps) (wordsOf im.dicts db)
        Waits s (.cfgld d a b) s3 .load ∧ (s3.handle? cl h).map Handle.state = some .loading)) ∧
    (settled → t.inTrap = false → ga.toNat % 64 ≠ 0 → Traps s t (.cfgld d a b) .align ga) ∧
    (settled → t.inTrap = false → ga.toNat % 64 = 0 → ga.extractLsb 63 52 ≠ 0 → Traps s t (.cfgld d a b) .protect ga) ∧
    (∀ h x, graphOf s t ga = some (h, x) →
      (x.state = .loaded → Completes s (.cfgswap a) (graphChange (armGraph s cl h) cl h) id (t.pc + 4)) ∧
      (x.state ≠ .loaded → t.inTrap = false → Traps s t (.cfgswap a) .handle ga) ∧
      (x.state = .rejected ∨ x.state = .loaded ∨ x.state = .active ∧ launchRuns s cl h = false →
        ∃ s1, Completes s (.cfgdrop a) s1 id (t.pc + 4) ∧ s1.handle? cl h = none ∧ s1.mem = s.mem) ∧
      (x.state = .active → launchRuns s cl h = true → t.inTrap = false → Traps s t (.cfgdrop a) .handle ga) ∧
      (x.state = .frozen → t.inTrap = false → Traps s t (.cfgdrop a) .handle ga)) ∧
    (graphOf s t ga = none → t.inTrap = false → Traps s t (.cfgswap a) .handle ga ∧ Traps s t (.cfgdrop a) .handle ga)

/-- R46, R223, R226 and R227: with every verdict in, LOAD_COMPLETE makes the handle loaded or rejected; the loading thread is
ready past its CFGLD with the handle in its register, and a rejection queues CFGREJECT there (that the report comes with this
event is the model's choice, log 41); a dictionary token fills its decoder's dictionary or rejects the load (reason 15); a tile's
tokens move along the configuration path, and the one that stands at the target's row is added to what the tile has. (Which
dictionary tokens are refused is log 87; that an event which cannot act leaves the state as it is, log 17.) -/
def Obligations.LoadsEndWithAVerdict : Prop :=
  ∀ (s : State) (cl h : Nat) (x : Handle), s.handle? cl h = some x → x.state = .loading →
    (∀ t, s.thread? x.loader = some t →
      let g := graphWord s cl h
      let past := advance (writeG t (BitVec.ofNat 5 x.dest) g) (t.pc + 4)
      (x.reason ≠ 0 ∨ x.entries.length ≤ x.next ∧ crossBad (preview s x) x ≠ none →
        ∃ s', exec (.loadComplete cl h) s = .next s' ∧ (s'.handle? cl h).map Handle.state = some .rejected ∧ s'.mem = s.mem ∧
          s'.thread? x.loader = some (queueReport past
            { cause := .cfgreject, warning := false, precise := false, engine := 0, tvalue := g, slot := 4 })) ∧
      (x.reason = 0 → x.entries.length ≤ x.next → crossBad (preview s x) x = none →
        ∃ s', exec (.loadComplete cl h) s = .next s' ∧ (s'.handle? cl h).map Handle.state = some .loaded ∧ s'.mem = s.mem ∧
          s'.thread? x.loader = some past)) ∧
    (∀ core col k r, x.reason = 0 → x.dictToks = (core, col, k) :: r →
      (∀ dict, takeDict (tgetD (s.core core).dicts col []) k = some dict →
        exec (.tileConfigToken cl h) s = .next ((setDict s (core, col) dict).setHandle cl h { x with dictToks := r })) ∧
      (takeDict (tgetD (s.core core).dicts col []) k = none →
        exec (.tileConfigToken cl h) s = .next (rejectLoad s cl h x 0 0 15))) ∧
    (∀ e, x.reason = 0 → x.dictToks = [] → x.entries[x.next]? = some e → midTile s x = true →
      exec (.tileConfigToken cl h) s = .next (moveConfig s cl h x e) ∧
      (∀ k r, let col := decoderColumn e.loc.tile
        let s1 := setPath s e.loc.core col e.row r
        pathToks s e.loc.core col e.row = k :: r → configFoul k = false → midTile s1 x = true → (s.tile e.loc).loading = none →
        ∃ s', exec (.tileConfigToken cl h) s = .next s' ∧
          (s'.tile e.loc).loading = some (h, (configBytes k).2.2.take (configBytes k).2.1) ∧
          (s'.tile e.loc).active = (s.tile e.loc).active ∧ s'.handle? cl h = some x)) ∧
    (x.reason ≠ 0 → exec (.tileConfigToken cl h) s = .next s)

/-- R203, R229, R232 and R233: an armed tile at its drain point takes its shadow, unless its graph is frozen already or its store
fails its signature there, which freezes its graph; a store with a wrong signature or an error of two bits freezes its graph, one
of one bit is corrected and counted, in a shadow too; two wrong bits in a pot poison the granule; a frozen handle is reloaded, a
running launch going on from its last marker once every sink holds it, its sources started unless it is to stop after a marker; a
reload whose signature differs rejects the handle and ends a launch of it that has not ended, with CFGREJECT for the launching
thread. A tile on the way of a repair that is asked for does not swap (R234). (That an error of two bits without an active
configuration freezes nothing is the model's choice, log 64; an event that cannot act leaves the state as it is, log 17.) -/
def Obligations.TilesSwapFreezeAndReload : Prop :=
  ∀ (s : State) (l : TileLoc) (c : TileCfg),
    let cl := l.core / 132
    let t := s.tile l
    (t.shadow = some c → t.armed = true → drainedTile t = true →
      (∀ a, foulDrain t = some a → exec (.tileSwap l) s = .next (freezeTile s l a)) ∧
      (foulDrain t = none → frozenAt s l = true ∨ repairing s l = true → exec (.tileSwap l) s = .next s) ∧
      (foulDrain t = none → frozenAt s l = false → repairing s l = false →
        let armedIn := fun (s : State) => (((s.handle? cl c.handle).map Handle.armed).getD false : Bool)
        let s1 := settleGraph (swapTile s l) cl c.handle
        exec (.tileSwap l) s = .next (if armedIn s && !armedIn s1 then graphChange s1 cl c.handle else s1) ∧
          ((swapTile s l).tile l).active = some c ∧ ((swapTile s l).tile l).shadow = none ∧
          ((swapTile s l).tile l).armed = false ∧ (swapTile s l).mem = s.mem)) ∧
    (t.shadow = none ∨ t.armed = false ∨ drainedTile t = false → exec (.tileSwap l) s = .next s) ∧
    (t.active = some c → c.foul = false →
      exec (.configScrub l .clean) s = .next s ∧
      exec (.configScrub l .singleBit) s = .next (s.modCore l.core fun k => { k with corrected := k.corrected + 1 }) ∧
      exec (.configScrub l .doubleBit) s = .next (freezeTile s l c)) ∧
    (t.active = none →
      exec (.configScrub l .clean) s = .next s ∧ exec (.configScrub l .doubleBit) s = .next s ∧
      exec (.configScrub l .singleBit) s = .next
        (if t.shadow.isSome then s.modCore l.core fun k => { k with corrected := k.corrected + 1 } else s)) ∧
    (∀ g, (oddTile l.tile && l.tile < 96) = true → t.active = none ∨ t.active = some c ∧ c.foul = false →
      exec (.configScrub l (.potDouble g)) s = .next
        (s.modCore l.core fun k => { k with poisoned := nsAdd k.poisoned (potBase l.tile / 16 + g % 8192) })) ∧
    (∀ g, (oddTile l.tile && l.tile < 96) = false → t.active = none ∨ t.active = some c ∧ c.foul = false →
      exec (.configScrub l (.potDouble g)) s = .next s) ∧
    (t.active = some c → c.foul = true → exec (.configScrub l .clean) s = .next (freezeTile s l c)) ∧
    (∀ x, s.handle? cl c.handle = some x →
      ((freezeTile s l c).tile l).tagAll = true ∧ ((freezeTile s l c).handle? cl c.handle).map Handle.state = some .frozen) ∧
    (∀ cl h x, s.handle? cl h = some x →
      let bad := frozenTiles s h x
      let user := reloadUser s cl h
      let hold := (s.launch? cl h).any fun v => sinksHold s h x v.marks && v.marksDone = v.marks
      let reloaded := fun s : State => (bad.foldl (fun s p => reloadInto s x user p.1 p.2) s).setHandle cl h
        { x with state := if x.armed then .loaded else .active }
      (x.state ≠ .frozen ∨ bad = [] → exec (.configReload cl h) s = .next s) ∧
      (x.state = .frozen → bad ≠ [] →
        (launchRuns s cl h = true → hold = false → exec (.configReload cl h) s = .next s) ∧
        (reloadBad s x user bad = none →
          (launchRuns s cl h = false → exec (.configReload cl h) s = .next (reloaded s)) ∧
          (∀ v, launchRuns s cl h = true → hold = true →
            (restoreGraph (reloaded (saveTree s cl h)) cl h x).launch? cl h = some v →
            exec (.configReload cl h) s = .next
              (let v1 := { v with reloading := false }
               let s1 := (restoreGraph (reloaded (saveTree s cl h)) cl h x).setLaunch cl h v1
               if stopsAfter v1 then s1 else startSources s1 cl h))) ∧
        (∀ i k, reloadBad s x user bad = some (i, k) →
          let s1 := s.setHandle cl h { x with state := .rejected, reason := 1, badTile := i % x.tableLen, badWord := k }
          (launchRuns s cl h = false ∨ hold = true →
            (s.launch? cl h = none ∨ (s.launch? cl h).map Launch.state = some .ended → exec (.configReload cl h) s = .next s1) ∧
            (∀ v, s.launch? cl h = some v → v.state ≠ .ended →
              exec (.configReload cl h) s = .next
                (rejectReport (endLaunch (unqueue s1 cl h) cl h) v.tid (graphWord s1 cl h)))))))

/-- R268, R272 to R274: LAUNCH puts a launch at the end of its queue, LWAIT waits for its end, INJECT gives a token to a source, and
MARK makes one more marker due. LAUNCH and INJECT are releases and wait for the thread's stores. -/
def Obligations.LaunchesAreQueuedAwaitedFedAndMarked : Prop :=
  ∀ (s : State) (t : Thread) (wave : Bool) (a b : GReg) (h : Nat) (x : Handle), Issues s t →
    let ga := readG t a
    let gb := readG t b
    let cl := t.lcore / 128
    let settled := hasStores s (s.coreOf t) s.cur = false
    graphOf s t ga = some (h, x) →
      ((x.state = .loaded ∨ x.state = .active) → x.solution ≠ none → launchLive s cl h = false → launchOperand gb = true →
        settled → badKey s h x t.k = false →
        let v := Launch.start (completeReports s cl h) t wave gb
        let s1 := ((completeReports s cl h).setLaunch cl h v).modCluster cl fun c =>
          { c with queues := tmod c.queues v.queue [] (· ++ [h]) }
        Completes s (.launch wave a b) s1 id (t.pc + 4) ∧ (s1.launch? cl h).map Launch.state = some .queued ∧
          tgetD (s1.cluster cl).queues v.queue [] = tgetD (s.cluster cl).queues v.queue [] ++ [h]) ∧
      ((x.state = .loaded ∨ x.state = .active) → x.solution ≠ none → launchLive s cl h = false → launchOperand gb = true → ¬settled →
        Waits s (.launch wave a b) s .storeBuffer) ∧
      (launchRuns s cl h = true → ¬settled → Waits s (.inject a b) s .storeBuffer) ∧
      ((x.state ≠ .loaded ∧ x.state ≠ .active) ∨ x.solution = none ∨ launchLive s cl h = true → t.inTrap = false →
        Traps s t (.launch wave a b) .handle ga) ∧
      (∀ v, s.launch? cl h = some v →
        (v.state = .ended → Completes s (.lwait a) (acquireFor (foldLaunch s cl h) t) id (t.pc + 4)) ∧
        (v.state ≠ .ended → Waits s (.lwait a) s (.launchEnd h))) ∧
      (launchRuns s cl h = true →
        (Completes s (.mark a) (markLaunch s cl h) id (t.pc + 4) ∧
          ∀ v, s.launch? cl h = some v → (markLaunch s cl h).launch? cl h = some { v with marks := v.marks + 1 }) ∧
        (∀ bytes s1 k i l, settled → injectBytes s t gb = .ok (bytes, s1) → injectRecord bytes = some (k, i) →
          sourceAt s1 h x i = some l →
          (sourceOpen s1 h l = true → Completes s (.inject a b) (pushSource s1 l k) id (t.pc + 4)) ∧
          (sourceOpen s1 h l = false → Waits s (.inject a b) s1 (.inject h)))) ∧
      (launchRuns s cl h = false → t.inTrap = false → Traps s t (.mark a) .handle ga ∧ Traps s t (.inject a b) .handle ga)

/-- R143, R271, R274 and R276: a launch whose sinks all hold their end has ended and its waiters wake; a marker that every sink holds
completes its slot, which saves the context's reports folded; a pre-empted launch is suspended with its tiles idle, unless it is to be
reloaded first (R233). (An event that cannot act leaves the state as it is: log 17.) -/
def Obligations.LaunchesEndCheckpointAndSuspend : Prop :=
  ∀ (s : State) (cl h : Nat) (x : Handle) (v : Launch), s.handle? cl h = some x → s.launch? cl h = some v → v.state = .running →
    (v.acks = 0 → v.halted = false → sinksEnded s h x = true → x.state = .active →
      exec (.launchEnd cl h) s = .next (endLaunch s cl h) ∧
      ((endLaunch s cl h).launch? cl h).map Launch.state = some .ended) ∧
    (v.acks ≠ 0 → exec (.launchEnd cl h) s = .next s) ∧
    (v.marksDone < v.marks → sinksHold s h x (v.marksDone + 1) = true →
      let slot := fillSlot s h x (v.slotFor (v.marksDone + 1))
      let s1 := s.setLaunch cl h { v with marksDone := v.marksDone + 1, slots := tset v.slots (slotOf (v.marksDone + 1)) slot }
      exec (.checkpointComplete cl h) s = .next (foldContext (writeSlot s1 cl h v.ctx slot) v.ctx) ∧
        (s1.launch? cl h).map Launch.marksDone = some (v.marksDone + 1)) ∧
    (v.marks ≤ v.marksDone → exec (.checkpointComplete cl h) s = .next s) ∧
    (v.preempting = true → v.reloading = false → v.marks ≤ v.marksDone → sinksEnded s h x = false →
      let s1 := saveTree s cl h
      exec (.preemptionComplete cl h) s = .next (preemptDone (foldContext ((graphCores x).foldl leaveCore
        (idleGraph (s1.setLaunch cl h { (s1.launch? cl h).getD v with state := .suspended, preempting := false }) h x)) v.ctx))) ∧
    (v.preempting = false ∨ v.reloading = true → exec (.preemptionComplete cl h) s = .next s)

/-- R269, R276, R313 and R334: admission serves the queue that deficit round robin chooses; PREEMPT marks a running launch, RESUME
puts a suspended one at the head of its queue, and FQRESUME lets the engine of an entry go on. (A command whose BUSY is set, and
an event that cannot act, leave the state as it is: logs 17 and 40.) -/
def Obligations.AdmissionPreemptionAndResumption : Prop :=
  ∀ (s : State),
    (∀ cl q h ds, drr 65536 (afterQueue (s.cluster cl).lastQueue (candidates s cl)) (s.cluster cl).deficits = (some (q, h), ds) →
      exec (.launchAdmission cl) s = .next (admitHead (s.modCluster cl fun c => { c with deficits := ds }) cl q h)) ∧
    (∀ cl, candidates s cl = [] → ∃ s', exec (.launchAdmission cl) s = .next s' ∧ s'.mem = s.mem ∧ s'.threads = s.threads ∧
      s'.cores = s.cores ∧ (s'.cluster cl).launches = (s.cluster cl).launches) ∧
    (∀ w cl h x, s.mgmt.preBusy = false → namedLaunch s w = some (cl, h, x) →
      (launchRuns s cl h = true → ∀ v, s.launch? cl h = some v →
        ∃ s', exec (.preempt w) s = .next s' ∧ s'.launch? cl h = some { v with marks := v.marks + 1, preempting := true } ∧
          s'.mgmt.preBusy = true ∧ s'.mem = s.mem) ∧
      (launchRuns s cl h = false → exec (.preempt w) s = .next (endCommand s true)) ∧
      (x.state = .suspended → ∃ s', exec (.resume w) s = .next s' ∧ s'.launch? cl h = some { x with state := .queued, resumed := true } ∧
        tgetD (s'.cluster cl).queues x.queue [] = h :: tgetD (s.cluster cl).queues x.queue [] ∧ s'.mem = s.mem) ∧
      (x.state ≠ .suspended → exec (.resume w) s = .next (endCommand s true))) ∧
    (∀ w, s.mgmt.preBusy = true → exec (.preempt w) s = .next s ∧ exec (.resume w) s = .next s) ∧
    (∀ w, exec (.fqresume w) s = .next (releaseFault s (w.extractLsb 15 0).toNat))

/-- R276 to R280 and R363: COPY reads its descriptor, takes the lowest free number and goes on at once, or gives 0 where none is
free; CPWAIT waits for the copy and frees its number. A tile of a copy is performed when all of it is translated, after its runs
to a peer have been sent and acknowledged; a failed translation suspends the copy; a copy past its last tile is done when its
messages are acknowledged, and what a core holds back is performed when its turn comes. (On a chip other than 0 of a domain that
has a chip 0, whether a destination with chip field 0 names that chip is left open, log 81; an event that cannot act leaves the
state as it is, log 17.) -/
def Obligations.CopiesAreStartedAwaitedAndForwarded : Prop :=
  ∀ (s : State) (t : Thread) (d a : GReg), Issues s t →
    let ga := readG t a
    let cl := t.lcore / 128
    (∀ loc s1, located s t ga 64 .read = .ok (loc, s1) → hasStores s1 (s1.coreOf t) s1.cur = true →
      Waits s (.copy d a) s1 .storeBuffer) ∧
    (∀ loc s1 b1 s2 b2 s3 c, located s t ga 64 .read = .ok (loc, s1) → hasStores s1 (s1.coreOf t) s1.cur = false →
      descBytes t ga 1 s1 = .ok (b1, s2) →
      descBytes t ga ((48 + 16 * Nat.min 10 (bits (w64 (field b1 0 8)) 11 8) + 63) / 64) s2 = .ok (b2, s3) →
      copyFields t s3.cur b2 = some c →
      (formOwned s3 cl t.ctx c.src && formOwned s3 cl t.ctx c.dst && formOwned s3 cl t.ctx c.barrier) = true →
      let n := freeKey 0 (s3.cluster cl).copies
      let started := fun (s : State) (zero : Bool) =>
        s.modCluster cl fun k => { k with copies := tset k.copies n { c with toZero := zero } }
      (n < 4096 → namesZero s3 c = false →
        Completes s (.copy d a) (started s3 false) (fun r => writeG r d (copyWord s3 cl n)) (t.pc + 4)) ∧
      (n < 4096 → namesZero s3 c = true →
        Completes s (.copy d a) (started s3.choose.2 (s3.choose.1 % 2 = 1)) (fun r => writeG r d (copyWord s3 cl n)) (t.pc + 4)) ∧
      (4096 ≤ n → Completes s (.copy d a) s3 (fun r => writeG r d 0) (t.pc + 4))) ∧
    (∀ n c, copyOf s t ga = some (n, c) →
      (c.done = false → Waits s (.cpwait a) s (.copyDone n)) ∧
      (c.done = true → ∃ s1, Completes s (.cpwait a) s1 id (t.pc + 4) ∧ tget (s1.cluster cl).copies n = none ∧ s1.mem = s.mem)) ∧
    (copyOf s t ga = none → t.inTrap = false → Traps s t (.cpwait a) .handle ga) ∧
    (∀ n c, tget (s.cluster cl).copies n = some c → c.done = false → c.suspended = none → heldFor s cl n = false →
      copyTiles c ≤ c.next → c.unacked = [] →
      ∃ s', exec (.copyTile cl n) s = .next s' ∧ tget (s'.cluster cl).copies n = some { c with done := true } ∧ s'.mem = s.mem) ∧
    (∀ n c, tget (s.cluster cl).copies n = some c →
      (c.done = true ∨ c.suspended ≠ none ∨ heldFor s cl n = true → exec (.copyTile cl n) s = .next s) ∧
      (c.done = false → c.suspended = none → heldFor s cl n = false →
        (copyTiles c ≤ c.next → c.unacked ≠ [] → exec (.copyTile cl n) s = .next s) ∧
        (∀ p r acc, c.next < copyTiles c → copyMoves cl c (tileElems (sourceDims c)) 0 s = .error (p, r, acc) →
          exec (.copyTile cl n) s = .next (suspendCopy s cl n c p r acc)) ∧
        (∀ ms s1, c.next < copyTiles c → copyMoves cl c (tileElems (sourceDims c)) 0 s = .ok (ms, s1) →
          let runs := peerRuns (copyWidth c.ty) (peerElems s1 c ms)
          (runs = [] ∨ runs[c.sent]? = none ∧ c.unacked = [] → exec (.copyTile cl n) s = .next (performTile s1 cl n c ms)) ∧
          (runs ≠ [] → runs[c.sent]? = none → c.unacked ≠ [] → exec (.copyTile cl n) s = .next s1) ∧
          (∀ run, runs[c.sent]? = some run → exec (.copyTile cl n) s = .next (sendRun
            (if (ms.any fun m => (moveValue s1 c m).2) then noteConsumed s1 c.ctx else s1) cl n c run))))) ∧
    (∀ core, (s.core core).held.find? (heldReady s) = none → exec (.copyForward core) s = .next s) ∧
    (∀ core h, (s.core core).held.find? (heldReady s) = some h →
      let out := s.modCore core fun k => { k with held := k.held.erase h }
      (∀ bytes, h.arrival = some bytes →
        exec (.copyForward core) s = .next (barrierArrive out (s.phys h.lcore) h.addr bytes)) ∧
      (h.arrival = none → exec (.copyForward core) s = .next (putPot (h.copy / 4096) out h)))

/-- R253, R254, R257 and R266: RATE records the rate and asks for a solution, SOLVE writes the result and holds its thread until
the solver is done, RSTAT reads one number of the handle, its last snapshot, an island, a core, a pot or the context's energy.
(The scale of the energy that a context is charged, 1/4,000,000 nJ, is the model's: log 52.) -/
def Obligations.RatesAreRequestedSolvedAndRead : Prop :=
  ∀ (s : State) (t : Thread) (d a b : GReg), Issues s t →
    let cl := t.lcore / 128
    (∀ h x, solvable s t (readG t d) = .ok (h, x) → rateCount (readG t a) = true → rateCount (readG t b) = true →
      let s1 := s.setHandle cl h { x with rate := some ((readG t a).toNat, (readG t b).toNat) }
      Completes s (.rate d a b) (requestSolve s1 cl h [] false) id (t.pc + 4)) ∧
    (∀ h x, solvable s t (readG t d) = .ok (h, x) → rateCount (readG t a) = false → t.inTrap = false →
      Traps s t (.rate d a b) .handle (readG t a)) ∧
    (∀ h x, solvable s t (readG t a) = .ok (h, x) →
      let r := solveHandle s cl h x
      ∃ s', exec (.solve d a) s = .next s' ∧ s'.mem = s.mem ∧
        s'.thread? s.cur = some { advance (writeG t d r.1) (t.pc + 4) with run := .waiting .solve, waitedSlots := 0 }) ∧
    (∀ tid x, s.thread? tid = some x → x.run = .waiting .solve →
      ∃ s', exec (.solveComplete tid) s = .next s' ∧ s'.thread? tid = some { x with run := .ready, waitedSlots := 0 } ∧
        (∀ n, n ≠ tid → s'.thread? n = s.thread? n) ∧ s'.mem = s.mem) ∧
    (∀ h x, graphOf s t (readG t a) = some (h, x) →
      (readG t b = 0 → WritesG s t (.rstat d a b) d (loadStatus x)) ∧
      (readG t b = 0x10000 → WritesG s t (.rstat d a b) d x.result) ∧
      (readG t b = 0x20000 → WritesG s t (.rstat d a b) d (BitVec.ofNat 64 x.steps)) ∧
      (readG t b = 1 → Completes s (.rstat d a b) (takeSnapshot s cl h x) (fun r => writeG r d 0) (t.pc + 4)) ∧
      (∀ i f, i < (graphBounds s x).length → f < 4 → readG t b = BitVec.ofNat 64 (2 + 16 * i + 65536 * f) → i < 4096 →
        let n := tgetD x.snapBounds i (0, 0, 0, 0)
        WritesG s t (.rstat d a b) d (BitVec.ofNat 64 ([n.1, n.2.1, n.2.2.1, n.2.2.2].getD f 0))) ∧
      (∀ i f, i < (graphSieves x).length → f < 7 → readG t b = BitVec.ofNat 64 (3 + 16 * i + 65536 * f) → i < 4096 →
        let n := tgetD x.snapSieves i SieveCounts.zero
        WritesG s t (.rstat d a b) d (BitVec.ofNat 64
          ([n.tokIn, n.tokOut, n.elIn, n.elOut, n.dropped, n.resident, n.padded].getD f 0)))) ∧
    (∀ h x x', (takeSnapshot s cl h x).handle? cl h = some x' →
      (∀ i p, (graphBounds s x)[i]? = some p → tget x'.snapBounds i = some (boundCounts s h p)) ∧
      (∀ i p, (graphSieves x)[i]? = some p → tget x'.snapSieves i = some (sieveCounts s h p))) ∧
    (∀ h l key c, (s.tile l).active = some c → c.handle = h →
      let k := (s.tile l).bound key
      boundCounts s h (l, key) = (k.sent, k.taken - k.dropped, k.sent - k.taken, k.dropped) ∧
      sieveCounts s h (l, key) = (tgetD (s.tile l).stages key StageSt.start).sieve) ∧
    (∀ i f, (readG t a).toNat < 128 → i < 48 → f < 2 → readG t b = BitVec.ofNat 64 (6 + 16 * i + 65536 * f) →
      let p := s.tile { core := s.phys (128 * cl + (readG t a).toNat), tile := potTile i }
      (ownCore s t (readG t a).toNat = true → WritesG s t (.rstat d a b) d (BitVec.ofNat 64
        (if f = 1 then p.pot.misroute else match potMode p with
          | some (.stream _ _) => p.pot.fifo.length
          | _ => 0))) ∧
      (ownCore s t (readG t a).toNat = false → t.inTrap = false → Traps s t (.rstat d a b) .protect (readG t a))) ∧
    (∀ i f, i < 128 → ownCore s t i = true →
      (f < 7 → readG t b = BitVec.ofNat 64 (4 + 16 * i + 65536 * f) →
        WritesG s t (.rstat d a b) d (islandField s (128 * cl + i) f)) ∧
      (f < 5 → readG t b = BitVec.ofNat 64 (5 + 16 * i + 65536 * f) →
        WritesG s t (.rstat d a b) d (coreField s (128 * cl + i) f))) ∧
    ((readG t b).extractLsb 3 0 = 6 → (readG t b).extractLsb 63 20 ≠ 0 ∨ 48 ≤ ((readG t b).extractLsb 15 4).toNat →
      t.inTrap = false → Traps s t (.rstat d a b) .handle (readG t a)) ∧
    (readG t b = 7 → WritesG s t (.rstat d a b) d (BitVec.ofNat 64 ((s.ctx t.ctx).energy / 4000000))) ∧
    (readG t b = 0x10007 → WritesG s t (.rstat d a b) d (if (s.ctx t.ctx).shared then 1 else 0))

/-! ## The fabric of tiles -/

/-- R153, R157, R161 and R200: a pan stage emits what it holds (a quant stage takes its next token in the same firing), joins its
heads, and on data of a plain class emits one token with the table's result and the tag of either input (and notes CIR[0] for a tagged
one, log 78); a chain forwards the head of its port, drops one that is misplaced, and otherwise
stays with the link it waits for counted. -/
def Obligations.StagesFireAndSwitchesForward : Prop :=
  ∀ (s : State) (l : TileLoc),
    (∀ i c gs g, (s.tile l).active = some c → c.kind = .pan gs → i ≠ 0 → gs[i - 1]? = some g → g.idle = false →
      governedOk (s.tile l) = true → g.cls ≠ 6 →
      let st := tgetD (s.tile l).stages i StageSt.start
      (∀ k r, st.outq = k :: r → mayEmit s l gs i g k = true →
        let s1 := stageEmit (s.modTile l fun t => { t with stages := tset t.stages i { st with outq := r } }) l gs i g k
        exec (.stageFiring l i) s = .next
          (if g.isQuant ∧ k.level = 0 ∧ st.outq.all (·.kind = .data) then quantTake s1 l gs i g else s1)) ∧
      (∀ k r, st.outq = k :: r → mayEmit s l gs i g k = false →
        exec (.stageFiring l i) s = .next (notePressed s l (stageChains s l g))) ∧
      (st.outq = [] → (namedInputs (s.tile l) i g).map (inputHead s l) = [none] → exec (.stageFiring l i) s = .next s) ∧
      (∀ a b, (g.cls = 1 ∨ g.cls = 2 ∨ g.cls = 3 ∨ g.cls = 4 ∨ g.cls = 7 ∨ g.cls = 8) →
        st.outq = [] → g.scaled = false → a.kind = .data → b.kind = .data →
        (namedInputs (s.tile l) i g).map (inputHead s l) = [some a, some b] →
        1 ≤ g.srcA → g.srcA ≤ 5 → 1 ≤ g.srcB → g.srcB ≤ 5 →
        let k := dataTok (a.tag || b.tag) a.level.toNat a.seq (stageResult g (operandOf g st g.srcA (some a)) (operandOf g st g.srcB (some b)))
        exec (.stageFiring l i) s =
          .next (stageTake s l gs i g (namedInputs (s.tile l) i g)
            { st := st, out := [k], mismatch := false, poisoned := a.tag || b.tag })) ∧
      (∀ code w, 1 ≤ code → code ≤ 4 → selectedWord (s.tile l).words 4 (code - 1) = some w →
        stageInput (s.tile l) i code 4 = localInput (s.tile l) w.dest w.vc) ∧
      (∀ code, 1 ≤ code → code ≤ 4 → selectedWord (s.tile l).words 4 (code - 1) = none →
        stageInput (s.tile l) i code 4 = some (.port (code - 1) 0))) ∧
    (∀ i, governedOk (s.tile l) = false → exec (.stageFiring l i) s = .next s) ∧
    (∀ word w r k, (chainsOf (s.tile l).words).find? (fun (i, _) => i = word) = some (word, w :: r) → w.src < 4 →
      portHead s routeFuel l w.src w.vc = some k →
      (misplaced k w.vc = true → ∀ k' s1, portTake routeFuel s l w.src w.vc = some (k', s1) →
        exec (.switchForward l word) s = .next (noteDrop (noteBoundDrop s1 l w.src w.vc) l)) ∧
      (misplaced k w.vc = false → chainFree s l (w :: r) = true → ∀ k' s1, portTake routeFuel s l w.src w.vc = some (k', s1) →
        exec (.switchForward l word) s = .next (passMark (chainPush s1 l (w :: r) k') l k')) ∧
      (misplaced k w.vc = false → chainFree s l (w :: r) = false →
        exec (.switchForward l word) s = .next (noteFull s l [w :: r]))) ∧
    (∀ word w, (s.tile l).words[word]? = some w → w.dest < 4 → crosses l w.dest = true →
      ∃ s', exec (.occupancyExchange l word) s = .next s' ∧ s'.mem = s.mem ∧
        ((s'.tile l).bound (linkKey w.dest w.vc)).takenKnown = ((s.tile l).bound (linkKey w.dest w.vc)).taken)

/-- R205 to R214: pots. A scratchpad takes the head of the channel whose turn it is: an untagged data token is written whole at
its cursor, a tagged one whose discard is final poisons its granules instead (log 27), and the cursor moves by 64 within the
channel's 16 KiB, the granules full; a stream buffer is a queue with space for its capacity, and a token read from a poisoned
place is tagged; the atomic pipeline answers the old values of its four records; a mandoline keeps a row token and emits the
window tokens it completes; a bound on channel 7 is forwarded there, and one that finds no place there counts a back-pressure
clock (R255). A tagged token that a pot consumes notes CIR[0] (R142). (The places of buffered tokens, channel 7, and how the heads
of a join act are the model's choices, logs 76 and 78.) -/
def Obligations.PotsTakeAndGiveTokens : Prop :=
  ∀ (s : State) (l : TileLoc),
    let t := s.tile l
    let s0 := sevenPressed s l
    (∀ f v k, potMode t = some (.scratch f) → governedOk t = true → localHead s l v = some k →
      (scratchOrder t).find? (scratchReady s l) = some v →
      let s1 := modPot (noteFiring (localTake (scratchPressed s l) l v k) l) l fun p => { p with lastVc := v }
      (sinkRole s1 l = .plain → exec (.scratchpadWrite l) s = .next (scratchTake s1 l v k none))) ∧
    (∀ v k, (s.core l.core).pots.wf = true →
      let c := cursorOf t.pot v
      let s1 := scratchData s l v k
      (k.tag = false → s1.potRead l.core (potBase l.tile + c) 64 = tokBytes k.payload) ∧
      (k.tag = true → (s1.core l.core).pots = (s.core l.core).pots) ∧
      cursorOf (s1.tile l).pot v = 0x4000 * v + (c + 64) % 0x4000 ∧ s1.mem = s.mem) ∧
    (∀ v k d, d < 4 →
      let g := (potBase l.tile + cursorOf t.pot v) / 16 + d
      nsMem ((scratchData s l v k).core l.core).full g = true ∧
        (k.tag = true → nsMem ((scratchData s l v k).core l.core).poisoned g = true)) ∧
    (∀ cap pre w, potMode t = some (.stream cap pre) → pushWord t = some w → w.src ≠ 6 → governedOk t = true →
      (0 < spaceOf t → ∀ k, localHead s l w.vc = some k →
        exec (.streamBufferPush l) s = .next (noteFiring (bufferStore (localTake s l w.vc k) l k) l)) ∧
      (spaceOf t = 0 → exec (.streamBufferPush l) s = .next s)) ∧
    (∀ k, ((bufferStore s l k).tile l).pot.fifo = t.pot.fifo ++ [k] ∧ ((bufferStore s l k).tile l).pot.pushed = t.pot.pushed + 1) ∧
    (∀ k p, popNext t.pot = some (k, p) →
      let place := (t.pot.pushed - t.pot.fifo.length) % streamCap t
      (placeFoul s l place = false → bufferPop s l = some (k, modPot s l fun _ => p)) ∧
      (placeFoul s l place = true → p.fifo.length ≠ t.pot.fifo.length →
        bufferPop s l = some ({ k with tag := true }, noteStageCir (modPot s l fun _ => p) l t.marks 0))) ∧
    (∀ cap pre k s1, potMode t = some (.stream cap pre) → isEgressPot t = false → isSourcePot t = false → governedOk t = true →
      bufferPop s l = some (k, s1) →
      (k.kind = .data → sourceFree s l 5 none = true → exec (.streamBufferPop l) s = .next (noteFiring (chargeCredit
        (sourcePush (s1.modTile l fun t => { t with ended := if k.last then nsAdd t.ended 100 else t.ended }) l 5 none k) l k) l)) ∧
      (sourceFree s l 5 none = false → exec (.streamBufferPop l) s = .next (notePressed s l (sourceChains t 5 none)))) ∧
    (∀ v k, drivenChannels t = [v] → localHead s l v = some k → potJoin s l = .ok [(v, k)]) ∧
    (localHead s l 7 = none → s0 = s) ∧
    (localHead s l 7 ≠ none → s0 = notePressed s l (sourceChains t 5 (some 7))) ∧
    (∀ bank lo nb v k x s1, potMode t = some (.atomic bank lo nb) → governedOk t = true → t.pot.outq = [] → potSeven s l = none →
      potJoin s0 l = .ok [(v, k)] → dataFree s0 l = true → k.kind = .data →
      updateToken (noteFiring (localTake s0 l v k) l) l bank lo nb k = (s1, x) →
      exec (.atomicPipelineUpdate l) s = .next (dataPush (modPot s1 l fun p => { p with outq := [] }) l x)) ∧
    (∀ bank lo nb k, potMode t = some (.atomic bank lo nb) → governedOk t = true → t.pot.outq = [] → localHead s l 7 = some k →
      k.kind = .bound → sourceFree s l 5 (some 7) = true →
      exec (.atomicPipelineUpdate l) s = .next (sourcePush (noteFiring (localTake s l 7 k) l) l 5 (some 7) k)) ∧
    (∀ bank lo nb k out tag bad s1, applyRecords l bank lo nb (recordsOf k.payload) s = (s1, out, tag, bad) →
      updateToken s l bank lo nb k = (if bad || k.tag then noteStageCir s1 l (s1.tile l).marks 0 else s1,
        { k with payload := BitVec.ofNat 512 ((out.zipIdx.map fun (r, j) => recordBits r * 2 ^ (128 * j)).sum), tag := k.tag || tag })) ∧
    (∀ bank lo nb r op ty, r.op ≠ 0xFF → recordApplies bank lo nb r = some (op, ty) → (s.core l.core).pots.wf = true →
      let n := ty.width / 8
      let a := potBase l.tile + r.off
      let old := leNat (s.potRead l.core a n)
      ∃ s1 tag bad, applyRecords l bank lo nb [r] s = (s1, [{ r with operand := old }], tag, bad) ∧
        s1.potRead l.core a n = leBytes n (amoNew op ty old r.operand 0)) ∧
    (∀ bank lo nb r, r.op ≠ 0xFF → recordApplies bank lo nb r = none →
      applyRecords l bank lo nb [r] s = (modPot s l fun p => { p with misroute := p.misroute + 1 }, [{ r with operand := 0 }], true, false)) ∧
    (∀ k st d width ty, potMode t = some (.mandoline k st d width ty) → governedOk t = true → potSeven s l = none →
      let T := rowToks width ty
      let s1 := mandolineTake k st d T s0 l
      (∀ x r, (s1.tile l).pot.outq = x :: r → x.kind = .data → dataFree s0 l = true →
        exec (.mandolineWindow l) s = .next (dataPush (noteFiring (modPot s1 l fun p => { p with outq := r }) l) l x)) ∧
      (∀ x r, (s1.tile l).pot.outq = x :: r → dataFree s0 l = false →
        exec (.mandolineWindow l) s = .next (notePressed s0 l (dataChains (s0.tile l)))) ∧
      (∀ ks, (s1.tile l).pot.outq = [] → potJoin s0 l = .ok ks → exec (.mandolineWindow l) s = .next (noteFiring s1 l)) ∧
      (∀ v x, potJoin s0 l = .ok [(v, x)] → x.kind = .data → mandolineTakes k T (s0.tile l).pot = true →
        s1 = mandolineStore k st d T (localTake s0 l v x) l x)) ∧
    (∀ k st d T x, ((windowKeys k st d T t.pot.row t.pot.col).dropLast.any fun key => placeFoul s l (linePlace k d T key)) = false →
      let s1 := storePlace s l (linePlace k d T (t.pot.row * T + t.pot.col))
      mandolineStore k st d T s l x =
        modPot (if x.tag then noteStageCir s1 l t.marks 0 else s1) l fun p => mandolinePut k st d T false p x)

/-- R164 to R170: controller nodes. A permit raises a node's credit; a node that may admit spends one and starts the next
iteration; a done that was never issued is dropped; steer and merge follow their selects, whose error tag joins the token's, and a
loop-carry takes its first value from input 0 and the others from input 1; a tagged data token or select notes CIR[0] (R142). -/
def Obligations.ControllerNodesPassPermitsAndDones : Prop :=
  ∀ (s : State) (l : TileLoc),
    (∀ c, (s.tile l).active = some c →
      (∀ s', firstStart s l = some s' → exec (.controllerPermit l) s = .next (noteFiring s' l)) ∧
      (let s0 := if nodeStarts s l = [] then s else notePressed s l (sourceChains (s.tile l) 7 none)
       (∀ i m, firstStart s l = none → nextPermit s0 l = some (i, m) →
        exec (.controllerPermit l) s =
          .next (givePermit (s0.modTile l fun t => { t with ctl := t.ctl.eraseIdx i }) l m.node m.count)) ∧
       (firstStart s l = none → nextPermit s0 l = none → exec (.controllerPermit l) s = .next (sinkPermit s0 l)))) ∧
    (∀ i n c, (hostNodes (s.tile l))[i]? = some n → n.kind ≠ 6 →
      ((givePermit s l i c).tile l).node i = { (s.tile l).node i with credit := ((s.tile l).node i).credit + c }) ∧
    (∀ i n, n.kind ≤ 2 → 0 < ((s.tile l).node i).credit → n.window = 0 →
      nodeStart s l i n = some (admitOne s l i n, (issueTo n ((s.tile l).node i).started).all (permitFree s l i))) ∧
    (∀ i j m, (childrenOf s l i)[j]? = some (.node m) → permitFree s l i j = true) ∧
    (isHost (s.tile l) = true →
      (∀ i n, owing s l = some (i, n) → exec (.controllerDone l) s = .next (noteFiring (reportDone s l i n) l)) ∧
      (∀ m i, owing s l = none → nextDone s l = some (i, m) →
        exec (.controllerDone l) s =
          .next (noteFiring (takeDone (s.modTile l fun t => { t with ctl := t.ctl.eraseIdx i }) l m.node m.child m.count) l)) ∧
      (owing s l = none → (s.tile l).ctl.any CtlMsg.done = false → exec (.controllerDone l) s = .next (sinkDone s l))) ∧
    (∀ i n j c, (hostNodes (s.tile l))[i]? = some n →
      tgetD ((s.tile l).node i).issued j 0 ≤ tgetD ((s.tile l).node i).returned j 0 → takeDone s l i j c = noteDrop s l) ∧
    (∀ n x k b tag r, nodeAt s l n 4 = some x → localHead s l (2 * n) = some k → x.selects = (b, tag) :: r → k.kind = .data →
      let out := 2 * n + (if b then 1 else 0)
      (sourceFree s l 5 (some out) = true → exec (.steer l n) s =
        .next (sourcePush (noteFiring (noteTainted (modNode (localTake s l (2 * n) k) l n fun x => { x with selects := r }) l
          { k with tag := k.tag || tag }) l) l 5 (some out) { k with tag := k.tag || tag })) ∧
      (sourceFree s l 5 (some out) = false → exec (.steer l n) s = .next (notePressed s l (sourceChains (s.tile l) 5 (some out))))) ∧
    (∀ n x k b tag r, nodeAt s l n 5 = some x → x.selects = (b, tag) :: r →
      localHead s l (2 * n + (if b then 1 else 0)) = some k → k.kind = .data → sourceFree s l 5 (some (2 * n)) = true →
      exec (.merge l n) s = .next (sourcePush (noteFiring (noteTainted
        (modNode (localTake s l (2 * n + (if b then 1 else 0)) k) l n fun x => { x with selects := r }) l
        { k with tag := k.tag || tag }) l) l 5 (some (2 * n)) { k with tag := k.tag || tag })) ∧
    (∀ k, k.kind = .data → noteTainted s l k = if k.tag then noteCir s l 0 else s) ∧
    (∀ n x k, nodeAt s l n 6 = some x → sourceFree s l 5 (some (2 * n)) = true → x.carryLeft ≠ 0 → x.carryFirst = true →
      localHead s l (2 * n) = some k → k.kind = .data →
      exec (.loopCarry l n) s = .next (sourcePush
        (noteFiring (modNode (noteTainted (localTake s l (2 * n) k) l k) l n fun x => { x with carryFirst := false }) l) l 5
          (some (2 * n)) k)) ∧
    (∀ n x k, nodeAt s l n 6 = some x → nodeDoneFree s l n = true → x.carryLeft ≠ 0 → x.carryFirst = false →
      sourceFree s l 5 (some (if x.carryLeft = 1 then 2 * n + 1 else 2 * n)) = true →
      localHead s l (2 * n + 1) = some k → k.kind = .data →
      exec (.loopCarry l n) s = .next (doneParent (sourcePush
        (modNode (noteFiring (noteTainted (localTake s l (2 * n + 1) k) l k) l) l n fun x => { x with carryLeft := x.carryLeft - 1 }) l 5
          (some (if x.carryLeft = 1 then 2 * n + 1 else 2 * n)) k) l n 1))

/-- R171, R216 to R218, R282, R305, R308 and R309: edge nodes. A reading spout injects a marker that is due, else emits its round
or begins the next; a writing spout commits a full round while it takes the tokens of the next; a repair emits the window again
from the sequence asked for, and a clock in which its output has no place is counted (R255); a gather takes an index token, and a
tagged one notes CIR[0] (R142); a walk ends in a buffered translation or a kept failure; a reply with another region tag is
dropped and counted. -/
def Obligations.EdgeNodesMoveRoundsAndRepliesArrive : Prop :=
  ∀ (s : State) (l : TileLoc),
    (∀ ty round base fill ds, edgeCfg s l = some (.spout false ty round base fill ds) →
      (edgeRuns s l = true → (edgeSt s l).ended = false → (edgeSt s l).collected = [] → (edgeSt s l).reinject = none →
        l.core ≠ portCore →
        (∀ m, dueMark s l = some m → exec (.spoutReadRound l) s = .next (edgeMark s l m)) ∧
        (dueMark s l = none →
          exec (.spoutReadRound l) s = .next (readStep s l (.spout false ty round base fill ds) 0))) ∧
      (edgeRuns s l = false → exec (.spoutReadRound l) s = .next s) ∧
      (∀ n, (edgeSt s l).reinject = some n →
        let s1 := modEdge s l fun e =>
          { e with reinject := none, collected := e.window.dropWhile fun k => !(k.kind = .data && k.seq = n) }
        (edgeOutFree s1 l = false → exec (.spoutReinject l) s =
          .next (if (edgeSt s1 l).collected = [] ∨ l.core = portCore then s1 else notePressed s1 l [])) ∧
        (∀ k r, (edgeSt s1 l).collected = k :: r → edgeOutFree s1 l = true →
          exec (.spoutReinject l) s = .next (modEdge (edgeEmit s1 l k) l fun e => { e with collected := r }))) ∧
      (∀ k r, (edgeSt s l).faulted = none → (edgeSt s l).awaitReply = false → (edgeSt s l).pending = k :: r →
        readStep s l (.spout false ty round base fill ds) 0 = emitPending s l (.spout false ty round base fill ds) k)) ∧
    (∀ ty round base fill ds, edgeCfg s l = some (.spout true ty round base fill ds) → (edgeSt s l).ended = false →
      let s1 := if (edgeSt s l).committing ≠ [] && (edgeSt s l).faulted.isNone then commitRound s l ty base ds else s
      exec (.spoutWriteRound l) s = .next (writeSwap (writeNext s1 l ty round ds) l round) ∧
      ((edgeSt s l).committing = [] ∨ (edgeSt s l).faulted ≠ none →
        (edgeHead s l = none → exec (.spoutWriteRound l) s = .next (writeSwap s l round)) ∧
        (∀ k, edgeHead s l = some k → k.kind = .data → (edgeSt s l).collected.length < round →
          l.core ≠ portCore → sinkRole s l = .plain →
          exec (.spoutWriteRound l) s = .next (writeSwap (writeSink (noteFiring (edgeTake s l) l) l ty ds k none) l round))) ∧
      ((edgeSt s l).committing = [] → (edgeSt s l).collected.length = round →
        writeSwap s l round = modEdge s l fun e => { e with committing := e.collected, collected := [] })) ∧
    (∀ ty round base fill rows rowLen signed stride k, edgeCfg s l = some (.gather ty round base fill rows rowLen signed stride) →
      (edgeSt s l).ended = false → (edgeSt s l).collected = [] → edgeHead s l = some k → k.kind = .data →
      exec (.indirectGather l) s = .next (modEdge (if k.tag then noteEdgeCir (edgeTake s l) l 0 else edgeTake s l) l
        fun e => { e with collected := [k], tile := 0, pos := 0 })) ∧
    (∀ send core edge row vc, edgeCfg s l = some (.port send core edge row vc) →
      let p := networkPeer s l core edge row
      (namedBack s l p send = true → send = true → exec (.networkPortTransfer l) s = .next (networkSend s l p vc)) ∧
      (namedBack s l p send = true → send = false → exec (.networkPortTransfer l) s = .next (networkReceive s l p vc)) ∧
      (namedBack s l p send = false → exec (.networkPortTransfer l) s = .next s)) ∧
    (∀ rim n w leaf nbits r, (s.rim rim).walks[n]? = some w → w.result = none →
      walk s.mem (s.ctx w.ctx).root w.va = .ok (leaf, nbits) → leafCheck leaf nbits w.va w.acc w.user = .ok r →
      exec (.translationWalk rim n) s =
        .next (tlbFill (s.modRim rim fun x => { x with walks := x.walks.eraseIdx n }) w.ctx w.va leaf nbits)) ∧
    (∀ rim n w r, (s.rim rim).walks[n]? = some w → w.result = none → walk s.mem (s.ctx w.ctx).root w.va = .error r →
      ∃ s', exec (.translationWalk rim n) s = .next s' ∧ (s'.rim rim).walks[n]? = some { w with result := some r } ∧ s'.mem = s.mem) ∧
    (∀ core n err r, (s.core core).replies[n]? = some r →
      (r.tag ≠ coreTag s core → ∃ s', exec (.memoryReply core { n := n, err := err }) s = .next s' ∧ s'.mem = s.mem ∧
        (s'.core core).staleReplies = (s.core core).staleReplies + 1 ∧ (s'.core core).tiles = (s.core core).tiles) ∧
      (∀ ks, r.tag = coreTag s core → r.operands = some ks →
        ∃ s', exec (.memoryReply core { n := n, err := err }) s = .next s' ∧ s'.mem = s.mem ∧
        (s'.tile { core := core, tile := r.tile }).edge.pending = ks ∧
        (s'.tile { core := core, tile := r.tile }).edge.awaitReply = false) ∧
      (∀ x, r.tag = coreTag s core → r.operands = none → s.launch? (core / 132) r.handle = some x →
        ∃ s', exec (.memoryReply core { n := n, err := err }) s = .next s' ∧ s'.mem = s.mem ∧
          s'.launch? (core / 132) r.handle = some { x with acks := x.acks - 1 }))

/-! ## Power and rates -/

/-- R297, R326 to R332: a falling input marks, quiesces and holds the launches and restores them; power off keeps module flash and
nothing else of the machine; a trip is recorded; cap tokens are clamped and age to the floor, and the clusters' budgets stay
within the one in force; a failing replica raises its entry; a power-up at 40 V or more whose flash and self-tests pass leaves the
ready flag set, the tables filled and no thread, one that fails leaves the flag clear with its code. R301 and R322: a reset loses
the same; that it fires vector 0 where the ready flag was set, and keeps the vector table as it stands, is the model's choice (log
23). (An event that cannot act leaves the state as it is: log 17.) -/
def Obligations.PowerFallsReturnsAndIsCapped : Prop :=
  ∀ (s : State),
    (∀ v, v.toNat < 3800 → s.power ≠ .off → exec (.inputBelow38V v) s =
      .next (forLaunches (setInput s (inputWord v true (bit s.mgmt.input 18))) markLaunch)) ∧
    (∀ v, v.toNat < 3400 → s.power = .running → exec (.quiesce v) s = .next (forLaunches
      { setInput s (inputWord v (bit s.mgmt.input 17) true) with power := .quiescing } quiesceLaunch)) ∧
    (∀ up, s.power = .quiescing → (up = true ∨ allHold s = true) →
      exec (.sequencerStop up) s = .next (s.cores.foldl (fun s c => drainCore s c.1) { s with power := .holding })) ∧
    (s.power = .quiescing → allHold s = false → exec (.sequencerStop false) s = .next s) ∧
    (∀ v, 4000 ≤ v.toNat → s.power = .holding → exec (.inputRestored v) s =
      .next (forLaunches { setInput s (inputWord v false false) with power := .running } unquiesce)) ∧
    (s.power = .quiescing ∨ s.power = .holding → exec .holdUpExhausted s = .next (powerOff s)) ∧
    (exec .reset s = .next (dropReady s) ∧
      dropReady s = { powerOff s with msix := (if s.mgmt.ready ≠ 0 then fireEvery s else s).msix }) ∧
    ((powerOff s).flash = s.flash ∧ (powerOff s).power = .off ∧ (powerOff s).mem = [] ∧ (powerOff s).threads = [] ∧
      (powerOff s).cores = [] ∧ (powerOff s).clusters = [] ∧ (powerOff s).contexts = [] ∧
      bit (powerOff s).mgmt.ready 0 = false) ∧
    (∀ core temp, core < 264 → s.power ≠ .off →
      (420 ≤ temp → ∃ s', exec (.thermalTrip core temp) s = .next s' ∧ s'.power = .off ∧ s'.mem = [] ∧
        s'.flash = { s.flash with trip := true }) ∧
      (temp < 420 → exec (.thermalTrip core temp) s = .next s)) ∧
    (∀ v, capAccepted s.mgmt v = true → ∃ s', exec (.cap v) s = .next s' ∧ s'.mgmt.capFloor = false ∧
      s'.mgmt.capSeq = v.setWidth 32 ∧ s'.mgmt.capBudget = clampBudget s.flash (v.extractLsb 47 32) ∧
      budgetInForce s' = clampBudget s.flash (v.extractLsb 47 32) ∧ s'.mem = s.mem ∧ s'.threads = s.threads ∧
      (s'.cluster 0).budget + (s'.cluster 1).budget ≤ packageBudget s') ∧
    (∀ v, capAccepted s.mgmt v = false → s.mgmt.capSeen = true →
      exec (.cap v) s = .next (shareBudget { s with mgmt := { s.mgmt with capFloor := false } })) ∧
    (∀ v, s.mgmt.capSeen = true →
      exec (.hbeat v) s = .next (shareBudget { s with mgmt := { s.mgmt with capFloor := false } })) ∧
    (∃ s', exec .capFloorTimeout s = .next s' ∧ budgetInForce s' = s.flash.floor ∧ s'.mgmt.capSeq = s.mgmt.capSeq ∧
      (s'.cluster 0).budget + (s'.cluster 1).budget ≤ packageBudget s') ∧
    (∀ core, core < 264 →
      let band := ceilOver (s.core core).frac.rat 64
      ∃ s', exec (.replicaFailure core) s = .next s' ∧ s'.mem = s.mem ∧
        tgetD (s'.core core).table band 0 = min 80 (tgetD (s.core core).table band 0 + 1) ∧
        (∀ j, j ≠ band → tgetD (s'.core core).table j 0 = tgetD (s.core core).table j 0)) ∧
    (∀ r, s.power ≠ .off ∨ r.input.toNat < 4000 → exec (.powerOn r) s = .next s) ∧
    (∀ r, s.power = .off → 4000 ≤ r.input.toNat →
      let failure := powerFailure s.flash r
      ∃ s', exec (.powerOn r) s = .next s' ∧ s'.threads = [] ∧ s'.flash.trip = false ∧
      bit s'.mgmt.ready 1 = s.flash.trip ∧ s'.mgmt.ready.extractLsb 15 8 = failure ∧
      s'.mgmt.input = inputWord r.input false false ∧
      (failure = 0 → bit s'.mgmt.ready 0 = true ∧ s'.power = .running ∧ s'.flash.ordinal = s.flash.ordinal + 1 ∧
        s'.trivet.image = runningCopy s.flash.trivetA s.flash.trivetB ∧
        s'.trivet.firmware = runningCopy s.flash.firmwareA s.flash.firmwareB ∧
        (∀ cl, cl < 2 → (s'.cluster cl).lct = filledTable r cl ∧ (s'.cluster cl).budget = s.flash.floor.toNat * 10 ^ 9 / 2) ∧
        (∀ c, c < 264 → s'.core c = coreAfter r c)) ∧
      (failure ≠ 0 → bit s'.mgmt.ready 0 = false ∧ s'.power = .off))

/-- R250, R255, R257, R260 to R263, R265 and R266: a step's strobe follows its settled regulators; a time-out abandons it; a
sample adds to the energy and lowers the islands above the budget; a droop holds 1/4 until it has recovered; the budget agent
raises ceilings and sets a cluster's budget, within what the other cluster's leaves of the budget in force (that division is the
model's choice, logs 37 and 65); a cool window's end latches the counts. R334: every sample of the input that comes as a droop or a
recovery event is what INPUT[15:0] shows, with [16] set below 44 V. (An event that cannot act leaves the state as it is: log 17.) -/
def Obligations.RatesFollowRegulatorsPowerAndHeat : Prop :=
  ∀ (s : State),
    (∀ cl st, (s.cluster cl).step = some st →
      let s1 := applyStep (s.modCluster cl fun c => { c with step := none }) cl st
      exec (.regulatorSettled cl) s = .next (resolveWaiting s1 cl) ∧
      exec (.settleTimeout cl) s = .next (resolveWaiting (abandonStep s cl true) cl)) ∧
    (∀ cl, (s.cluster cl).step = none → exec (.regulatorSettled cl) s = .next s) ∧
    (∀ cl codes, let p := (codes.map fun (core, code) => railPower s cl core (code % 1024)).sum
      let s1 := s.modCluster cl fun c => { c with samples := (p :: c.samples).take 4096, energy := c.energy + p }
      (p ≤ (s.cluster cl).budget → exec (.telemetrySample cl codes) s = .next s1) ∧
      ((s.cluster cl).budget < p → exec (.telemetrySample cl codes) s = .next (lowerAll s1 cl))) ∧
    (∀ v, v.toNat < 4400 → s.power ≠ .off → exec (.droop v) s = .next (droopCluster (droopCluster
      { noteInput s v with mgmt := { (noteInput s v).mgmt with droop := true } } 0) 1)) ∧
    (∀ v, 4400 ≤ v.toNat → s.power ≠ .off →
      exec (.droop v) s = .next (noteInput s v) ∧
      (s.mgmt.droop = false → exec (.droopRecovery v) s = .next (noteInput s v))) ∧
    (∀ v, s.power = .off → exec (.droop v) s = .next s ∧ exec (.droopRecovery v) s = .next s) ∧
    (∀ v, v.toNat < 4400 → exec (.droopRecovery v) s = .next s) ∧
    (∀ v : BitVec 16, (noteInput s v).mgmt.input.extractLsb 15 0 = v ∧
      (noteInput s v).mgmt.input.getLsbD 16 = decide (v.toNat < 4400)) ∧
    (∀ v, 4400 ≤ v.toNat → s.power ≠ .off → s.mgmt.droop = true → exec (.droopRecovery v) s = .next (resolveAll (resolveAll
      { noteInput s v with mgmt := { (noteInput s v).mgmt with droop := false } } 0) 1)) ∧
    (s.mgmt.droop = true → ∀ i, ceilingOf s i ≤ 1 / 4) ∧
    (∀ cl b i (p q : Nat), s.backed (128 * cl + i) = true → 0 < q → 0 < p → p ≤ q →
      let k := s.core (s.phys (128 * cl + i))
      let f := fareyDown ((p : ℚ) / q)
      ∃ s', exec (.ceilingRaise cl b [(i, p, q)]) s = .next s' ∧ s'.mem = s.mem ∧
        (s'.cluster cl).budget = min b (budgetLeft s cl) ∧
        (k.powerCeil.rat < f → (s'.core (s.phys (128 * cl + i))).powerCeil = fracOf f) ∧
        (f ≤ k.powerCeil.rat → s'.core (s.phys (128 * cl + i)) = k)) ∧
    (∀ core temp, temp < 380 → (∀ x ∈ (s.cluster (core / 132)).handles, sourcesRun s (core / 132) x.1 = false) →
      (s.cluster (core / 132)).retry = none →
      let k := s.core core
      ∃ s', exec (.monitorWindowEnd core temp) s = .next s' ∧ s'.mem = s.mem ∧ s'.threads = s.threads ∧
        (s'.core core).temp = temp ∧ (s'.core core).thermalRequest = false ∧ (s'.core core).hotWindows = 0 ∧
        (s'.core core).coolWindows = (if temp < 360 then k.coolWindows + 1 else 0) ∧
        (s'.core core).lastFirings = k.firings ∧ (s'.core core).firings = 0 ∧ (s'.core core).frac = k.frac)

/-! ## System software and the host -/

/-- R54, R64, R281 to R283, R286, R310, R322, R334 and R335: the commands of system software. A fault record is cleared in the
selected context alone; an invalidate drops every buffered translation of its range and completes when nothing of the old entries
remains; a write of the logical core table gives the entry that R281 and R282 say; pots are zeroed before they are given away; a
thread is created or refused; replies are read oldest first. (A command while its BUSY is set, and an event that cannot act, leave the
state as it is: log 17. That a write which names another context for an allocated entry frees it is the model's choice: log 92.) -/
def Obligations.SystemCommandsActOnWhatTheySelect : Prop :=
  ∀ (s : State),
    let sel := s.mgmt.ctxSel.toNat
    ((s.ctx sel).invBusy = none →
      (∃ s', exec .clearFaultRecord s = .next s' ∧ s'.ctx sel = { s.ctx sel with fault := FaultRecord.none } ∧
        (∀ n, n ≠ sel → s'.ctx n = s.ctx n) ∧ s'.mem = s.mem ∧ s'.threads = s.threads) ∧
      (∃ s', exec .resetContext s = .next s' ∧ (s'.ctx sel).cir = 0 ∧ (s'.ctx sel).logMode = 0 ∧ (s'.ctx sel).logHead = 0 ∧
        (s'.ctx sel).logBase = 0 ∧ (s'.ctx sel).sliceLen = 65536 ∧ (s'.ctx sel).fault = FaultRecord.none ∧
        (s'.ctx sel).root = (s.ctx sel).root ∧ s'.mem = s.mem) ∧
      (∃ s', exec .invalidateContext s = .next s' ∧ (s'.ctx sel).invBusy = some (0, 2 ^ 52) ∧ s'.mem = s.mem ∧
        (∀ n, n ≠ sel → s'.ctx n = s.ctx n) ∧
        ∀ n e, e ∈ (s'.rim n).tlb → e.ctx = sel → pageMeets e.vpage e.bits 0 (2 ^ 52) = false) ∧
      (let lo := (s.ctx sel).invBase.toNat
       let hi := lo + (s.ctx sel).invLen.toNat
       ∃ s', exec .invalidateRange s = .next s' ∧ (s'.ctx sel).invBusy = some (lo, hi) ∧ s'.mem = s.mem ∧
        (∀ n, n ≠ sel → s'.ctx n = s.ctx n) ∧
        ∀ n e, e ∈ (s'.rim n).tlb → e.ctx = sel → pageMeets e.vpage e.bits lo hi = false)) ∧
    ((s.ctx sel).invBusy ≠ none → exec .clearFaultRecord s = .next s ∧ exec .resetContext s = .next s ∧
      exec .invalidateContext s = .next s ∧ exec .invalidateRange s = .next s) ∧
    ((∀ c lo hi, (s.ctx c).invBusy = some (lo, hi) → staleWork s c lo hi = true) → exec .invalidateComplete s = .next s) ∧
    (∀ c lo hi, c < 64 → (s.ctx c).invBusy = some (lo, hi) → staleWork s c lo hi = false →
      (∀ d lo hi, d ≠ c → (s.ctx d).invBusy = some (lo, hi) → staleWork s d lo hi = true) →
      exec .invalidateComplete s =
        .next (firePhysical ((endInvalidate s c lo hi).modCtx c fun x => { x with invBusy := none }) 0)) ∧
    (∀ c lo hi, c < 64 → (s.ctx c).invBusy = some (lo, hi) → staleWork s c lo hi = false →
      ∃ s' d, exec .invalidateComplete s = .next s' ∧ (∃ r, (s.ctx d).invBusy = some r) ∧ (s'.ctx d).invBusy = none ∧
        ∀ e, e ≠ d → (s'.ctx e).invBusy = (s.ctx e).invBusy) ∧
    (∀ v, let lc := selectedCore s
      let next := 132 * (lc / 128) + (v.extractLsb 7 0).toNat
      ∃ s', exec (.lctWrite v) s = .next s' ∧ s'.lct lc = writtenEntry (s.lct lc) v (s.core next).zeroing.isSome ∧ s'.mem = s.mem ∧
        s'.threads = s.threads) ∧
    (∀ v, let lc := selectedCore s
      (s.lct lc).allocated = true → (s.lct lc).ctx ≠ v.extractLsb 13 8 → s.backed lc = true →
      ∃ s', exec (.lctWrite v) s = .next s' ∧ (s'.lct lc).allocated = false ∧ (s'.lct lc).ctx = v.extractLsb 13 8 ∧
        (s'.core (s.phys lc)).zeroing = some (s.lct lc).ctx.toNat) ∧
    (∀ core, (s.core core).zeroing ≠ none → (∀ lc, s.logical core = some lc → inboundCopies s lc = false) →
      ∃ s', exec (.potZeroingComplete core) s = .next s' ∧ s'.mem = s.mem ∧
        s'.core core = { s.core core with pots := [], full := [], poisoned := [], zeroing := none }) ∧
    (∀ core, (s.core core).zeroing = none → exec (.potZeroingComplete core) s = .next s) ∧
    (∀ v tid s1, newctlThread s v = some (tid, s1) → ∃ s', exec (.newctl v) s = .next s' ∧ s'.threads = s1.threads ∧
      s'.mgmt.newRefused = false ∧ s'.mgmt.newTid = BitVec.ofNat 16 tid) ∧
    (∀ v, newctlThread s v = none → ∃ s', exec (.newctl v) s = .next s' ∧ s'.threads = s.threads ∧ s'.mgmt.newRefused = true) ∧
    (∀ v, v.extractLsb 63 15 ≠ 0 → newctlThread s v = none) ∧
    (∀ r rest, s.mgmt.svcRsp = r :: rest → ∃ s', exec .svcrsp s = .next s' ∧ s'.mgmt.svcRsp = rest ∧
      s'.mgmt.hostReads = s.mgmt.hostReads ++ [some (leBytes 8 (2 ^ 63 + r.toNat % 2 ^ 63))]) ∧
    (s.mgmt.svcRsp = [] → ∃ s', exec .svcrsp s = .next s' ∧ s'.mgmt.svcRsp = [] ∧
      s'.mgmt.hostReads = s.mgmt.hostReads ++ [some (leBytes 8 0)])

/-- R320 to R325 and R334: windows, the aperture and plain registers. An index beyond the ring or one that lowers the count is
ignored and flagged; a token is pushed or published only while the pot and the ring have places; an aperture access is performed
whole or aborted; a read of a window returns its slots and registers, and before the ready flag a completer abort; an unmasked
vector delivers what is pending with its address and data; a virtual function's write of a management register is ignored. (An event
that cannot act leaves the state as it is: log 17.) -/
def Obligations.WindowsApertureAndRegistersActForTheHost : Prop :=
  ∀ (s : State),
    (∀ win v, windowOpen s win = true →
      let w := s.window false win
      (767 < v.toNat ∨ ringCount w.head v.toNat < ringCount w.head w.tail →
        exec (.ingressTailWrite win v) s = .next (s.setWindow false win (w.flag 0))) ∧
      (v.toNat ≤ 767 → ringCount w.head w.tail ≤ ringCount w.head v.toNat →
        exec (.ingressTailWrite win v) s = .next (s.setWindow false win { w with tail := v.toNat }))) ∧
    (∀ win v, windowOpen s win = true →
      let w := s.window true win
      (767 < v.toNat ∨ ringCount w.head w.tail < ringCount w.head v.toNat →
        exec (.egressHeadWrite win v) s = .next (s.setWindow true win (w.flag 0))) ∧
      (v.toNat ≤ 767 → ringCount w.head v.toNat ≤ ringCount w.head w.tail →
        exec (.egressHeadWrite win v) s = .next (s.setWindow true win { w with head := v.toNat }))) ∧
    (∀ e win v, windowOpen s win = true →
      let w := { s.window e win with atts := v.setWidth 17 |>.setWidth 64 }
      (v.getLsbD 16 = true → windowPot s e win w = none → ∃ s', exec (.attachmentWrite e win v) s = .next s' ∧
        (s'.window e win).atts = (v.setWidth 16).setWidth 64 ∧ (s'.window e win).werr = w.werr ||| 4 ∧ s'.mem = s.mem) ∧
      ((v.getLsbD 16 = false ∨ windowPot s e win w ≠ none) → exec (.attachmentWrite e win v) s = .next (s.setWindow e win w))) ∧
    (∀ win cl h l, let w := s.window false win
      bit w.atts 16 = true → w.head ≠ w.tail → windowPot s false win w = some (cl, h, l) →
      (launchRuns s cl h = false → exec (.ingressPush win) s = .next s) ∧
      (launchRuns s cl h = true → slotTok (tgetD w.slots w.head (0, 0)) = none →
        exec (.ingressPush win) s = .next (advanceHead s win (w.flag 1))) ∧
      (∀ k, launchRuns s cl h = true → slotTok (tgetD w.slots w.head (0, 0)) = some k →
        (sourceOpen s h l = true → exec (.ingressPush win) s = .next (advanceHead (pushSource s l k) win w)) ∧
        (sourceOpen s h l = false → exec (.ingressPush win) s = .next s))) ∧
    (∀ win cl h l c, let w := s.window true win
      bit w.atts 16 = true → windowPot s true win w = some (cl, h, l) → (s.tile l).active = some c → c.handle = h →
      (ringCount w.head w.tail = 767 → exec (.egressSlotWrite win) s = .next s) ∧
      (∀ k s1, ringCount w.head w.tail ≠ 767 → egressTake s l = some (some k, s1) →
        exec (.egressSlotWrite win) s = .next (publishSlot s1 win w k))) ∧
    (∀ fn off n, fn < 32 → fn % 16 = 0 → bit s.mgmt.ready 0 = true → off + n ≤ 2 ^ 36 →
      let as := (List.range n).map fun i => s.mgmt.apBase.toNat + off + i
      (as.all populated = true →
        exec (.apertureRead ⟨.aperture, fn⟩ off n) s = .next (answerHost s (some (as.map (mread s.mem))))) ∧
      (as.all populated = false → exec (.apertureRead ⟨.aperture, fn⟩ off n) s = .next (answerHost s none))) ∧
    (∀ fn off n, regionsOpen s fn = true → off + n ≤ 0x200000 →
      exec (.apertureRead ⟨.windows, fn⟩ off n) s = .next (answerHost s (some ((List.range n).map fun i =>
        windowRead (s.window (0x100000 ≤ off + i) (16 * fn + (off + i) / 0x10000 % 16)) ((off + i) % 0x10000))))) ∧
    (∀ fn off n, fn < 32 → off + n ≤ 0x208 →
      exec (.apertureRead ⟨.registers, fn⟩ off n) s = .next (answerHost s (some ((List.range n).map fun i =>
        byteOf (regionRead s fn ((off + i) / 8 * 8)) ((off + i) % 8))))) ∧
    (∀ fn off b, fn < 32 → fn % 16 = 0 → bit s.mgmt.ready 0 = true → off + b.length ≤ 2 ^ 36 →
      let as := (List.range b.length).map fun i => s.mgmt.apBase.toNat + off + i
      (as.all populated = true → exec (.apertureWrite fn off b) s = .next (writePhys s (as.zip b))) ∧
      (as.all populated = false → ∃ s', exec (.apertureWrite fn off b) s = .next s' ∧ s'.mem = s.mem ∧
        s'.mgmt.apFault.toNat = min (s.mgmt.apFault.toNat + 1) (2 ^ 32 - 1))) ∧
    (∀ fn off n b, bit s.mgmt.ready 0 = false ∨ fn % 16 ≠ 0 ∧ vfContext s fn = none →
      exec (.apertureRead ⟨.aperture, fn⟩ off n) s = .next (answerHost s none) ∧
      exec (.apertureRead ⟨.windows, fn⟩ off n) s = .next (answerHost s none) ∧
      exec (.apertureWrite fn off b) s = .next s ∧ exec (.registerWrite (.window fn off b)) s = .next s) ∧
    (∀ fn vec, fn < 32 → vec < 34 → ∃ s', exec (.msixUnmask fn vec) s = .next s' ∧ nsMem (s'.msixOf fn).pending vec = false ∧
      nsMem (s'.msixOf fn).masked vec = false ∧ s'.mem = s.mem ∧
      (s'.msixOf fn).vectors = (s.msixOf fn).vectors ∧
      (s'.msixOf fn).sent = (if nsMem (s.msixOf fn).pending vec then (s.msixOf fn).sent ++ [(s.msixOf fn).message vec]
        else (s.msixOf fn).sent)) ∧
    (∀ fn off v, fn < 32 → off < 0x8000 → fn % 16 ≠ 0 → exec (.registerWrite (.mgmt fn off v)) s = .next s) ∧
    (∀ fn v, fn = 0 ∨ fn = 16 →
      let sel := s.mgmt.ctxSel.toNat
      exec (.registerWrite (.mgmt fn 0x38 v)) s = .next { s with mgmt := { s.mgmt with ctxSel := v.setWidth 6 } } ∧
      exec (.registerWrite (.mgmt fn 0x40 v)) s = .next (s.modCtx sel fun c => { c with root := v &&& ~~~0xFF }) ∧
      exec (.registerWrite (.mgmt fn 0x48 v)) s = .next (s.modCtx sel fun c => { c with save := v &&& ~~~0x3F }) ∧
      exec (.registerWrite (.mgmt fn 0xE0 v)) s = .next (s.modCtx sel fun c => { c with sliceLen := v.setWidth 32 }) ∧
      exec (.registerWrite (.mgmt fn 0x200 v)) s = .next { s with mgmt := { s.mgmt with svcReq := s.mgmt.svcReq ++ [v] } })

/-- R314, R328, R329, R358 and R361: the service channel. Each command is served in turn with one reply of one status; a request
whose zero bits are set, or whose command, slot or record does not exist, is answered 5. -/
def Obligations.ServiceRequestsAreAnsweredInTurn : Prop :=
  ∀ (s : State) (a b : Word) (rest : List Word), s.mgmt.svcReq = a :: b :: rest →
    let s1 := { s with mgmt := { s.mgmt with svcReq := rest } }
    let answers := fun (e : Instr) (st : Nat) (s2 : State) => ∃ s', exec e s = .next s' ∧
      s'.mgmt = { s2.mgmt with svcRsp := s2.mgmt.svcRsp ++ [BitVec.ofNat 64 st] } ∧
      s' = { s2 with mgmt := s'.mgmt, msix := s'.msix }
    let cmd := (a.setWidth 8).toNat
    let ext := a.extractLsb 63 8
    (cmd ≠ 2 → cmd ≠ 3 → cmd ≠ 4 →
      (cmd ≠ 1 ∨ a.extractLsb 63 16 ≠ 0 ∨ 7 < (a.extractLsb 15 8).toNat ∨ b.toNat % 64 ≠ 0 → answers (.verifyImage .host) 5 s1) ∧
      (∀ key hd, cmd = 1 → a.extractLsb 63 16 = 0 → (a.extractLsb 15 8).toNat ≤ 7 → b.toNat % 64 = 0 →
        (tget s.flash.keys (a.extractLsb 15 8).toNat = none → answers (.verifyImage .host) 4 s1) ∧
        (tget s.flash.keys (a.extractLsb 15 8).toNat = some key → readFor s1 .host b.toNat 64 = some (hd, s1) →
          (field hd 20 4 = 0 → answers (.verifyImage .host) 2 s1) ∧
          (field hd 20 4 ≠ 0 → field hd 24 4 ≠ lmsLength ∨ field hd 0 4 < field hd 20 4 → answers (.verifyImage .host) 3 s1) ∧
          (∀ x, field hd 20 4 ≠ 0 → field hd 24 4 = lmsLength → field hd 20 4 ≤ field hd 0 4 →
            readFor s1 .host b.toNat (field hd 20 4 + lmsLength) = some (x, s1) →
            answers (.verifyImage .host)
              (if lmsVerify key (x.take (field hd 20 4)) (x.drop (field hd 20 4)) then 0 else 1) s1)))) ∧
    (cmd = 2 ∨ cmd = 3 ∨ cmd = 4 → exec (.verifyImage .host) s = .next s) ∧
    (cmd = 2 → (ext ≠ 0 → answers (.attestationQuote .host) 5 s1) ∧
      (ext = 0 → s.trivet.attest = false ∨ 32768 ≤ s.trivet.quotes → answers (.attestationQuote .host) 6 s1) ∧
      (∀ nonce s2, ext = 0 → s.trivet.attest = true → s.trivet.quotes < 32768 → readFor s1 .host b.toNat 32 = some (nonce, s1) →
        writeFor s1 .host (b.toNat + 32) (quoteBytes s1 nonce) = some s2 →
        answers (.attestationQuote .host) 0 { s2 with trivet := { s2.trivet with quotes := s2.trivet.quotes + 1 } })) ∧
    (cmd = 4 → (ext ≠ 0 → answers (.installGeneralFirmware .host) 5 s1) ∧
      (∀ x, ext = 0 → readFor s1 .host b.toNat Config.firmwareBytes = some (x, s1) →
        (Config.firmwareWellFormed x = false → answers (.installGeneralFirmware .host) 3 s1) ∧
        (Config.firmwareWellFormed x = true → firmwareVerifies x = false → answers (.installGeneralFirmware .host) 1 s1) ∧
        (Config.firmwareWellFormed x = true → firmwareVerifies x = true →
          answers (.installGeneralFirmware .host) 0 (installFirmware s1 x)))) ∧
    (∀ r, cmd = 3 → readFor s1 .host b.toNat 32 = some (r, s1) → readFor s .host b.toNat 32 = some (r, s) →
      let op := field r 0 1
      let chip := field r 2 2
      let entry := BitVec.ofNat 64 (field r 8 8)
      (recordOk a r = false → op = 0 → answers (.writeEntry .host) 5 s1) ∧
      (recordOk a r = true →
        (op = 0 → chip ≤ 255 → entry.extractLsb 15 10 = 0 → entry.extractLsb 63 51 = 0 →
          (bits (identity s chip) 47 32 ≠ field r 4 2 → answers (.writeEntry .host) 7 s1) ∧
          (bits (identity s chip) 47 32 = field r 4 2 → field r 1 1 = 0 →
            answers (.writeEntry .host) 0 (entryMoved { s1 with fabric := { s1.fabric with
              identity := tset s1.fabric.identity chip (newEntry (identity s chip) entry false) } } chip (identity s chip)))) ∧
        (∀ s2, op = 1 → writeFor s1 .host (field r 8 8) (((List.range 256).map (chipState s1)).flatMap chipBytes) = some s2 →
          answers (.readFabricState .host) 0 { s2 with fabric := { s2.fabric with snapshot := (List.range 256).map (chipState s1) } }) ∧
        (op = 2 → anyLaunchRuns s1 = true → answers (.restoreFabricState .host) 5 s1) ∧
        (∀ x, op = 2 → anyLaunchRuns s1 = false → readFor s1 .host (field r 8 8) 4096 = some (x, s1) →
          let s2 := (List.range 256).foldl (restoreChip x) s1
          answers (.restoreFabricState .host) 0 { s2 with fabric := { s2.fabric with awaiting := false } }) ∧
        (op = 3 → answers (.publishHorizon .host) 0 ((s1.fabric.snapshot.filter fun x => idValid s1 x.1).foldl
          (fun s x => emitMsg s (fromHere s (horizonMsg x))) s1)) ∧
        (op = 4 →
          (logFits (field r 8 8) (field r 16 8) = true → answers (.setRetentionLog .host) 0
            (wakeSenders { s1 with fabric := { s1.fabric with logAddr := field r 8 8, logSize := some (field r 16 8) } })) ∧
          (logFits (field r 8 8) (field r 16 8) = false → answers (.setRetentionLog .host) 3 s1))))

/-! ## Encoding, steps and reset -/

/-- R15 to R44: every well-formed instruction that has a word is what its word decodes to, with every operand at every value that
the encoding admits. -/
def Obligations.EveryWordDecodesToItsInstruction : Prop := ∀ i : Instr, Laws.Codec.Statement i

/-- R15 to R44: a word has one meaning. What a word decodes to is well formed, and its encoding is that word again, bit by bit. -/
def Obligations.WhatDecodesEncodesToTheSameWord : Prop :=
  ∀ (w : W32) (i : Instr), decode w = .ok i → wellFormed i = true ∧ encode i = some w

/-- Words that the spec itself assembles (R24, R26, R29, R30, R33 and the worked example of fragment one), written out bit by bit;
and words that R19 makes undefined, which are rejected by the check that they fail. -/
def Obligations.WordsOfTheWorkedExamplesDecode : Prop :=
  decode 0b000010_00001_00000_0000000000000101#32 = .ok (.addi 1 0 5) ∧
  decode 0b000001_00011_00011_00001_0000000_1100#32 = .ok (.add .s64 3 3 1) ∧
  decode 0b001011_00001_00000_1111111111111110#32 = .ok (.bne 1 0 0xFFFE) ∧
  decode 0b001001_01011_01011_0000000000111111#32 = .ok (.slli 11 11 63) ∧
  decode 0b010100_01101_01011_00000000000_011_00#32 = .ok (.ld .plain 3 13 11 0) ∧
  decode 0b011101_00000_00001_00100_0000011_0000#32 = .ok (.bindOut 1 4 0) ∧
  decode 0b100101_00000_00000_00000_1000_0000000#32 = .ok .exit ∧
  decode 0b100101_00000_00000_00000_0001_0000000#32 = .ok .rett ∧
  decode 0b100101_00000_00000_00000_1110_0000000#32 = .ok .nop ∧
  decode 0b100111_0010_0001_0000_001_100_0001_0000#32 = .ok (.vcvt .rs .bf16 .f32 2 1 1 0) ∧
  decode 0#32 = .error .major ∧
  decode 0b000001_00011_00011_00001_0011010_1100#32 = .error .secondary ∧
  decode 0b100101_00000_00000_00001_1000_0000000#32 = .error .zeroField ∧
  decode 0b000001_00011_00011_00001_0000000_0000#32 = .error .operand

/-- R16, R47, R62, R64, R102 and R139: a step whose move is an issue slot runs the instruction that the word at the program counter
of the chosen thread decodes to, as that thread; a word that decodes to nothing runs as the undefined instruction; a line that
is absent makes the thread wait for it, and a failed check of the address traps. A step whose move is an event runs the event. -/
def Obligations.AStepRunsTheDecodedInstruction : Prop :=
  ∀ (s : State),
    (∀ i r, s.schedule = .event i :: r → step s = exec i { s with schedule := r }) ∧
    (∀ lc r slot tid, s.schedule = .slot lc :: r → issuing { s with schedule := r } lc = true →
      let s1 := openSlot { s with schedule := r } lc
      pickThread s1 lc (s1.core (s1.phys lc)).lastSlot = some (slot, tid) →
      let s2 := dropStale (takeReport { s1.modCore (s1.phys lc) (fun c => { c with lastSlot := slot }) with cur := tid } tid) tid
      ∀ t, s2.thread? tid = some t →
        (∀ w s3, fetchAt s2 t = (.word w, s3) →
          (∀ i, decode w = .ok i → step s = exec i s3 ∧ Issues s3 t) ∧
          (∀ e, decode w = .error e → step s = exec (.undefinedInstruction w) s3)) ∧
        (∀ s3, fetchAt s2 t = (.miss, s3) → step s = .next (missLine s3 tid t)) ∧
        (∀ c s3, fetchAt s2 t = (.trap c, s3) → step s = .next (takeTrap s3 tid c t.pc false))) ∧
    (∀ t w p s3, t.pc.toNat % 4 = 0 → t.pc.toNat < 2 ^ 52 → translate s t.ctx t.pc.toNat .fetch (!t.system) = (.ok p, w, s3) →
      ∀ l, (s3.core (s3.coreOf t)).lines.find? (fun l => l.ctx = t.ctx && l.line = t.pc.toNat / 64) = some l →
        fetchAt s t = (.word (BitVec.ofNat 32 (leNat ((l.bytes.drop (t.pc.toNat % 64)).take 4))), s3))

/-- R203 and R302: global memory and every pot memory keep the canonical form, whatever the step: no listed byte is zero, and the
addresses rise. -/
def Obligations.EveryStepKeepsMemoryCanonical : Prop :=
  ∀ s s' : State, MemorySafe s → Steps s s' → MemorySafe s'

/-- R54, R300, R301, R326 and R334: what a reset leaves. No memory is listed, every byte reads zero and every mark is clear, no
thread or launch exists, every context holds what R54 says, the ready flag is clear, and the management registers and windows
hold their values of the Reset column. -/
def Obligations.ResetLeavesEveryRegisterAtItsValue : Prop :=
  let s := State.reset
  MemorySafe s ∧ (∀ a, mread s.mem a = 0) ∧ s.threads = [] ∧ s.power = .off ∧
  (∀ n, let c := s.ctx n
    c.cir = 0 ∧ c.logBase = 0 ∧ c.logHead = 0 ∧ c.logMode = 0 ∧ c.history = [] ∧ c.fault = FaultRecord.none ∧
      c.sliceLen = 65536 ∧ c.root = 0 ∧ c.save = 0) ∧
  (∀ c a, mread (s.core c).pots a = 0) ∧ (∀ c, (s.core c).full = [] ∧ (s.core c).poisoned = [] ∧ (s.core c).lines = []) ∧
  (∀ cl h, s.handle? cl h = none ∧ s.launch? cl h = none) ∧ (∀ r, (s.rim r).tlb = []) ∧
  (∀ off, off ∈ [0x00, 0x38, 0x40, 0x48, 0x50, 0x60, 0x68, 0x70, 0x78, 0x98, 0xA0, 0xA8, 0xB0, 0xB8, 0xC8, 0xD0, 0xD8, 0xE8, 0xF0, 0xF8,
      0x208, 0x210, 0x218, 0x220, 0x230] → mgmtRead s off = 0) ∧
  mgmtRead s 0xE0 = 65536 ∧
  (∀ l v, l < 2 → 1 ≤ v → v ≤ 15 → mgmtRead s (0x100 + 8 * (15 * l + v - 1)) = BitVec.ofNat 64 (16 * l + v)) ∧
  (∀ e win, let w := s.window e win
    w.head = 0 ∧ w.tail = 0 ∧ w.atth = 0 ∧ w.atts = 0 ∧ w.werr = 0)
end

