-- ==== Sys2Proof/Laws/Tables.lean ====
section
/-! SUPPORT. The laws of tables, sets and memory: a read after a write, what a write leaves alone, and that memory keeps its
canonical form. -/

namespace Sys2Proof.Machine

open Sys2Proof

/-! ## Tables -/

/-- Reading a key just written gives the value written. -/
@[simp] theorem tget_tset_same {α : Type} (t : Tbl α) (n : Nat) (x : α) : tget (tset t n x) n = some x := by
  induction t with
  | nil => simp [tset, tget]
  | cons p r ih =>
    obtain ⟨k, v⟩ := p
    simp only [tset]
    split
    · simp [tget]
    · split
      · simp [tget]
      · simp only [tget]
        rw [if_neg (by omega)]
        exact ih

/-- The later of two writes of one entry is what stays. -/
@[simp] theorem tset_tset {α : Type} (t : Tbl α) (n : Nat) (x y : α) : tset (tset t n x) n y = tset t n y := by
  induction t with
  | nil => simp [tset]
  | cons p r ih =>
    obtain ⟨k, v⟩ := p
    by_cases h1 : n < k
    · simp [h1, tset]
    · by_cases h2 : n = k
      · subst h2; simp [tset]
      · have e : ∀ (q : Tbl α) (z : α), tset ((k, v) :: q) n z = (k, v) :: tset q n z := fun q z => by
          rw [tset, if_neg h1, if_neg h2]
        rw [e, e, e, ih]

/-- Writing one key leaves every other key alone. -/
theorem tget_tset_other {α : Type} (t : Tbl α) (n m : Nat) (x : α) (h : m ≠ n) : tget (tset t n x) m = tget t m := by
  induction t with
  | nil => simp [tset, tget]; omega
  | cons p r ih =>
    obtain ⟨k, v⟩ := p
    simp only [tset]
    split
    · simp only [tget]; rw [if_neg (by omega)]
    · split
      · rename_i h1 h2
        simp only [tget]; rw [if_neg (by omega), if_neg (by omega)]
      · simp only [tget, ih]

/-- Reading any key after a write. -/
theorem tget_tset {α : Type} (t : Tbl α) (n m : Nat) (x : α) : tget (tset t n x) m = if m = n then some x else tget t m := by
  split
  · rename_i h; subst h; simp
  · exact tget_tset_other t n m x ‹_›

@[simp] theorem tgetD_tset_same {α : Type} (t : Tbl α) (n : Nat) (x d : α) : tgetD (tset t n x) n d = x := by
  simp [tgetD]

theorem tgetD_tset_other {α : Type} (t : Tbl α) (n m : Nat) (x d : α) (h : m ≠ n) :
    tgetD (tset t n x) m d = tgetD t m d := by
  simp [tgetD, tget_tset_other t n m x h]

theorem tgetD_tset {α : Type} (t : Tbl α) (n m : Nat) (x d : α) :
    tgetD (tset t n x) m d = if m = n then x else tgetD t m d := by
  split
  · rename_i h; subst h; simp
  · exact tgetD_tset_other t n m x d ‹_›

@[simp] theorem tgetD_nil {α : Type} (n : Nat) (d : α) : tgetD ([] : Tbl α) n d = d := rfl

/-- Changing every entry changes the one that is read. -/
@[simp] theorem tget_tmap {α : Type} (t : Tbl α) (f : Nat → α → α) (n : Nat) : tget (tmap t f) n = (tget t n).map (f n) := by
  induction t with
  | nil => rfl
  | cons p r ih =>
    obtain ⟨k, v⟩ := p
    by_cases h : k = n
    · subst h; simp [tmap, tget]
    · simp only [tmap, List.map_cons, tget, if_neg h] at ih ⊢
      exact ih

/-- Reading a key after a removal. -/
@[simp] theorem tget_tdel {α : Type} (t : Tbl α) (n m : Nat) : tget (tdel t n) m = if m = n then none else tget t m := by
  induction t with
  | nil => simp [tdel, tget]
  | cons p r ih =>
    obtain ⟨k, v⟩ := p
    simp only [tdel]
    by_cases hk : k = n
    · rw [if_pos hk, ih]
      by_cases hm : m = n
      · rw [if_pos hm, if_pos hm]
      · rw [if_neg hm, if_neg hm]; simp only [tget]; rw [if_neg (by omega)]
    · rw [if_neg hk]
      simp only [tget, ih]
      by_cases hkm : k = m
      · rw [if_pos hkm, if_pos hkm, if_neg (by omega)]
      · rw [if_neg hkm, if_neg hkm]

/-! ## Sets -/

/-- Membership after a removal. -/
@[simp] theorem nsMem_nsDel (s : NatSet) (n m : Nat) : nsMem (nsDel s n) m = (Decidable.decide (m ≠ n) && nsMem s m) := by
  induction s with
  | nil => simp [nsDel, nsMem]
  | cons k r ih =>
    simp only [nsDel]
    by_cases hk : k = n
    · rw [if_pos hk, ih]
      by_cases hm : m = n
      · simp [hm]
      · have : k ≠ m := by omega
        simp [nsMem, hm, this]
    · rw [if_neg hk]
      simp only [nsMem, ih]
      by_cases hkm : k = m
      · have : m ≠ n := by omega
        simp [hkm, this]
      · simp [hkm]

/-- Membership after an insertion. -/
@[simp] theorem nsMem_nsAdd (s : NatSet) (n m : Nat) : nsMem (nsAdd s n) m = (Decidable.decide (m = n) || nsMem s m) := by
  induction s with
  | nil => simp [nsAdd, nsMem, eq_comm]
  | cons k r ih =>
    simp only [nsAdd]
    split
    · simp [nsMem, eq_comm]
    · split
      · rename_i h; subst h
        by_cases hm : m = n
        · simp [nsMem, hm]
        · simp [nsMem, hm]
      · simp only [nsMem, ih]
        by_cases hk : k = m <;> simp [hk]

/-! ## Memory -/

/-- A byte just written reads as written. -/
theorem mread_none {m : Memory} {a : Nat} (h : ∀ p ∈ m, a < p.1) : mread m a = 0 := by
  induction m with
  | nil => rfl
  | cons p r ih =>
    obtain ⟨k, v⟩ := p
    have := h (k, v) (by simp)
    simp only [mread]
    rw [if_neg (by simp at this; omega)]
    exact ih fun q hq => h q (by simp [hq])

/-- In canonical form every later entry has a higher address. -/
theorem Memory.wf_rest {k : Nat} {v : Byte} {r : Memory} (h : Memory.wf ((k, v) :: r) = true) :
    v ≠ 0 ∧ Memory.wf r = true ∧ ∀ p ∈ r, k < p.1 := by
  induction r generalizing k v with
  | nil => simp [Memory.wf] at h; simp [h, Memory.wf]
  | cons q r ih =>
    obtain ⟨k', v'⟩ := q
    simp only [Memory.wf, Bool.and_eq_true, decide_eq_true_eq] at h
    obtain ⟨⟨h1, h2⟩, h3⟩ := h
    refine ⟨by simpa using h1, h3, ?_⟩
    intro p hp
    rcases List.mem_cons.mp hp with rfl | hp
    · exact h2
    · exact Nat.lt_trans h2 ((ih h3).2.2 p hp)

/-- An entry in front of a canonical memory with higher addresses. -/
theorem Memory.wf_cons {k : Nat} {v : Byte} {r : Memory} (hv : v ≠ 0) (hr : Memory.wf r = true) (hk : ∀ p ∈ r, k < p.1) :
    Memory.wf ((k, v) :: r) = true := by
  cases r with
  | nil => simpa [Memory.wf] using hv
  | cons q r =>
    obtain ⟨k', v'⟩ := q
    have := hk (k', v') (by simp)
    simp only [Memory.wf, Bool.and_eq_true, decide_eq_true_eq]
    exact ⟨⟨by simpa using hv, this⟩, hr⟩

/-- Every address listed after a write was listed before or is the one written. -/
theorem mem_mwrite {m : Memory} {a : Nat} {b : Byte} {p : Host.Cell} (h : p ∈ mwrite m a b) : p ∈ m ∨ p.1 = a := by
  induction m with
  | nil =>
    simp only [mwrite] at h
    split at h <;> simp_all
  | cons q r ih =>
    obtain ⟨k, v⟩ := q
    simp only [mwrite] at h
    split at h
    · split at h
      · exact .inl h
      · rcases List.mem_cons.mp h with rfl | h
        · exact .inr rfl
        · exact .inl h
    · split at h
      · split at h
        · exact .inl (List.mem_cons_of_mem _ h)
        · rcases List.mem_cons.mp h with rfl | h
          · exact .inr rfl
          · exact .inl (List.mem_cons_of_mem _ h)
      · rcases List.mem_cons.mp h with rfl | h
        · exact .inl (by simp)
        · rcases ih h with h | h
          · exact .inl (List.mem_cons_of_mem _ h)
          · exact .inr h

/-- A write keeps the canonical form. -/
theorem wf_mwrite {m : Memory} (a : Nat) (b : Byte) (h : m.wf = true) : (mwrite m a b).wf = true := by
  induction m with
  | nil =>
    simp only [mwrite]
    split
    · rfl
    · simp_all [Memory.wf]
  | cons q r ih =>
    obtain ⟨k, v⟩ := q
    obtain ⟨hv, hr, hk⟩ := Memory.wf_rest h
    simp only [mwrite]
    split
    · rename_i hak
      split
      · exact h
      · refine Memory.wf_cons ‹_› h ?_
        intro p hp
        rcases List.mem_cons.mp hp with rfl | hp
        · exact hak
        · exact Nat.lt_trans hak (hk p hp)
    · split
      · rename_i hak; subst hak
        split
        · exact hr
        · exact Memory.wf_cons ‹_› hr hk
      · refine Memory.wf_cons hv (ih hr) ?_
        intro p hp
        rcases mem_mwrite hp with hp | hp
        · exact hk p hp
        · omega

/-- Writing several bytes keeps the canonical form. -/
theorem wf_mwrites {m : Memory} (a : Nat) (bs : List Byte) (h : m.wf = true) : (mwrites m a bs).wf = true := by
  induction bs generalizing m a with
  | nil => exact h
  | cons b bs ih => exact ih (a + 1) (wf_mwrite a b h)

/-- Leaving entries out keeps the canonical form. -/
theorem wf_filter {m : Memory} (p : Host.Cell → Bool) (h : m.wf = true) : Memory.wf (m.filter p) = true := by
  induction m with
  | nil => rfl
  | cons q r ih =>
    obtain ⟨k, v⟩ := q
    obtain ⟨hv, hr, hk⟩ := Memory.wf_rest h
    simp only [List.filter_cons]
    split
    · exact Memory.wf_cons hv (ih hr) fun p hp => hk p (List.mem_of_mem_filter hp)
    · exact ih hr

/-- Clearing a range keeps the canonical form. -/
theorem wf_mclear {m : Memory} (a n : Nat) (h : m.wf = true) : (mclear m a n).wf = true := wf_filter _ h

/-- The byte written reads as written, every other byte as before. -/
theorem mread_mwrite {m : Memory} (a c : Nat) (b : Byte) (h : m.wf = true) :
    mread (mwrite m a b) c = if c = a then b else mread m c := by
  induction m with
  | nil =>
    simp only [mwrite]
    split <;> rename_i hb
    · split <;> simp [mread, hb]
    · simp only [mread, eq_comm]
  | cons q r ih =>
    obtain ⟨k, v⟩ := q
    obtain ⟨hv, hr, hk⟩ := Memory.wf_rest h
    simp only [mwrite]
    split
    · rename_i hak
      split
      · rename_i hb
        split
        · rename_i hc; subst hc
          rw [hb]
          apply mread_none
          intro p hp
          rcases List.mem_cons.mp hp with rfl | hp
          · exact hak
          · exact Nat.lt_trans hak (hk p hp)
        · rfl
      · by_cases hc : c = a
        · simp [mread, hc]
        · simp only [mread]; rw [if_neg (by omega), if_neg hc]
    · split
      · rename_i hak; subst hak
        split
        · rename_i hb
          split
          · rename_i hc; subst hc
            rw [hb]; exact mread_none hk
          · rename_i hc
            simp only [mread]; rw [if_neg (by omega)]
        · by_cases hc : c = a
          · simp [mread, hc]
          · simp only [mread]; rw [if_neg (by omega), if_neg hc, if_neg (by omega)]
      · rename_i h1 h2
        simp only [mread, ih hr]
        by_cases hkc : k = c
        · rw [if_pos hkc, if_neg (by omega), if_pos hkc]
        · rw [if_neg hkc, if_neg hkc]

/-- Bytes written from an address on read as written, every other byte as before. -/
theorem mread_mwrites {m : Memory} (a c : Nat) (bs : List Byte) (h : m.wf = true) :
    mread (mwrites m a bs) c = if a ≤ c ∧ c < a + bs.length then bs.getD (c - a) 0 else mread m c := by
  induction bs generalizing m a with
  | nil => simp only [mwrites, List.length_nil]; rw [if_neg (by omega)]
  | cons b bs ih =>
    simp only [mwrites, ih (a + 1) (wf_mwrite a b h), mread_mwrite a c b h, List.length_cons]
    by_cases hc : c = a
    · subst hc
      rw [if_neg (by omega), if_pos rfl, if_pos (by omega)]
      simp
    · by_cases h1 : a + 1 ≤ c ∧ c < a + 1 + bs.length
      · rw [if_pos h1, if_pos (by omega)]
        have : c - a = (c - (a + 1)) + 1 := by omega
        rw [this]
        simp
      · rw [if_neg h1, if_neg hc, if_neg (by omega)]

/-- The entries after a write. -/
theorem mem_tset {α : Type} {t : Tbl α} {n : Nat} {x : α} {p : Nat × α} (h : p ∈ tset t n x) : p = (n, x) ∨ p ∈ t := by
  induction t with
  | nil => simp [tset] at h; exact Or.inl h
  | cons q r ih =>
    obtain ⟨k, v⟩ := q
    unfold tset at h
    split at h
    · rcases List.mem_cons.mp h with h | h
      · exact Or.inl h
      · exact Or.inr h
    · split at h
      · rcases List.mem_cons.mp h with h | h
        · exact Or.inl h
        · exact Or.inr (List.mem_cons_of_mem _ h)
      · rcases List.mem_cons.mp h with h | h
        · exact Or.inr (h ▸ List.mem_cons_self ..)
        · rcases ih h with h | h
          · exact Or.inl h
          · exact Or.inr (List.mem_cons_of_mem _ h)

/-- An entry that is read is listed. -/
theorem mem_of_tget {α : Type} {t : Tbl α} {n : Nat} {x : α} (h : tget t n = some x) : (n, x) ∈ t := by
  induction t with
  | nil => simp [tget] at h
  | cons q r ih =>
    obtain ⟨k, v⟩ := q
    unfold tget at h
    split at h
    · rename_i hk
      cases h
      exact hk ▸ List.mem_cons_self ..
    · exact List.mem_cons_of_mem _ (ih h)

/-- A listed entry's number is found. -/
theorem tget_of_mem {α : Type} {t : Tbl α} {n : Nat} {x : α} (h : (n, x) ∈ t) : tget t n ≠ none := by
  induction t with
  | nil => cases h
  | cons p r ih =>
    obtain ⟨k, v⟩ := p
    by_cases hk : k = n
    · simp [tget, hk]
    · have : (n, x) ∈ r := by
        rcases List.mem_cons.mp h with h | h
        · exact absurd (Prod.mk.inj h).1.symm hk
        · exact h
      simpa [tget, hk] using ih this

@[simp] theorem mreads_length (m : Memory) (a n : Nat) : (mreads m a n).length = n := by
  induction n generalizing a with
  | zero => rfl
  | succ n ih => simp [mreads, ih]

theorem mreads_getD (m : Memory) (a n i : Nat) (h : i < n) : (mreads m a n).getD i 0 = mread m (a + i) := by
  induction n generalizing a i with
  | zero => omega
  | succ n ih =>
    cases i with
    | zero => simp [mreads]
    | succ i => rw [mreads, List.getD_cons_succ, ih _ _ (by omega)]; congr 1; omega

end Sys2Proof.Machine
end

