-- ==== Sys2Proof/Laws/State.lean ====
section
/-! SUPPORT. What the accessors of the state leave alone, one lemma per field and update, and what they write. -/

namespace Sys2Proof.Machine

open Sys2Proof

/-! ## State.setThread -/

@[simp] theorem State.setThread_schedule (s : State) (tid : Nat) (t : Thread) : (s.setThread tid t).schedule = s.schedule := rfl
@[simp] theorem State.setThread_focus (s : State) (tid : Nat) (t : Thread) : (s.setThread tid t).focus = s.focus := rfl
@[simp] theorem State.setThread_rota (s : State) (tid : Nat) (t : Thread) : (s.setThread tid t).rota = s.rota := rfl
@[simp] theorem State.setThread_cur (s : State) (tid : Nat) (t : Thread) : (s.setThread tid t).cur = s.cur := rfl
@[simp] theorem State.setThread_oracle (s : State) (tid : Nat) (t : Thread) : (s.setThread tid t).oracle = s.oracle := rfl
@[simp] theorem State.setThread_choices (s : State) (tid : Nat) (t : Thread) : (s.setThread tid t).choices = s.choices := rfl
@[simp] theorem State.setThread_arrivals (s : State) (tid : Nat) (t : Thread) : (s.setThread tid t).arrivals = s.arrivals := rfl
@[simp] theorem State.setThread_chans (s : State) (tid : Nat) (t : Thread) : (s.setThread tid t).chans = s.chans := rfl
@[simp] theorem State.setThread_groups (s : State) (tid : Nat) (t : Thread) : (s.setThread tid t).groups = s.groups := rfl
@[simp] theorem State.setThread_wakes (s : State) (tid : Nat) (t : Thread) : (s.setThread tid t).wakes = s.wakes := rfl
@[simp] theorem State.setThread_reports (s : State) (tid : Nat) (t : Thread) : (s.setThread tid t).reports = s.reports := rfl
@[simp] theorem State.setThread_contexts (s : State) (tid : Nat) (t : Thread) : (s.setThread tid t).contexts = s.contexts := rfl
@[simp] theorem State.setThread_clusters (s : State) (tid : Nat) (t : Thread) : (s.setThread tid t).clusters = s.clusters := rfl
@[simp] theorem State.setThread_cores (s : State) (tid : Nat) (t : Thread) : (s.setThread tid t).cores = s.cores := rfl
@[simp] theorem State.setThread_mem (s : State) (tid : Nat) (t : Thread) : (s.setThread tid t).mem = s.mem := rfl
@[simp] theorem State.setThread_poison (s : State) (tid : Nat) (t : Thread) : (s.setThread tid t).poison = s.poison := rfl
@[simp] theorem State.setThread_rims (s : State) (tid : Nat) (t : Thread) : (s.setThread tid t).rims = s.rims := rfl
@[simp] theorem State.setThread_atomics (s : State) (tid : Nat) (t : Thread) : (s.setThread tid t).atomics = s.atomics := rfl
@[simp] theorem State.setThread_fabric (s : State) (tid : Nat) (t : Thread) : (s.setThread tid t).fabric = s.fabric := rfl
@[simp] theorem State.setThread_ingress (s : State) (tid : Nat) (t : Thread) : (s.setThread tid t).ingress = s.ingress := rfl
@[simp] theorem State.setThread_egress (s : State) (tid : Nat) (t : Thread) : (s.setThread tid t).egress = s.egress := rfl
@[simp] theorem State.setThread_msix (s : State) (tid : Nat) (t : Thread) : (s.setThread tid t).msix = s.msix := rfl
@[simp] theorem State.setThread_mgmt (s : State) (tid : Nat) (t : Thread) : (s.setThread tid t).mgmt = s.mgmt := rfl
@[simp] theorem State.setThread_flash (s : State) (tid : Nat) (t : Thread) : (s.setThread tid t).flash = s.flash := rfl
@[simp] theorem State.setThread_trivet (s : State) (tid : Nat) (t : Thread) : (s.setThread tid t).trivet = s.trivet := rfl
@[simp] theorem State.setThread_power (s : State) (tid : Nat) (t : Thread) : (s.setThread tid t).power = s.power := rfl

/-! ## State.setCore -/

@[simp] theorem State.setCore_schedule (s : State) (c : Nat) (k : Core) : (s.setCore c k).schedule = s.schedule := rfl
@[simp] theorem State.setCore_focus (s : State) (c : Nat) (k : Core) : (s.setCore c k).focus = s.focus := rfl
@[simp] theorem State.setCore_rota (s : State) (c : Nat) (k : Core) : (s.setCore c k).rota = s.rota := rfl
@[simp] theorem State.setCore_cur (s : State) (c : Nat) (k : Core) : (s.setCore c k).cur = s.cur := rfl
@[simp] theorem State.setCore_oracle (s : State) (c : Nat) (k : Core) : (s.setCore c k).oracle = s.oracle := rfl
@[simp] theorem State.setCore_choices (s : State) (c : Nat) (k : Core) : (s.setCore c k).choices = s.choices := rfl
@[simp] theorem State.setCore_arrivals (s : State) (c : Nat) (k : Core) : (s.setCore c k).arrivals = s.arrivals := rfl
@[simp] theorem State.setCore_threads (s : State) (c : Nat) (k : Core) : (s.setCore c k).threads = s.threads := rfl
@[simp] theorem State.setCore_chans (s : State) (c : Nat) (k : Core) : (s.setCore c k).chans = s.chans := rfl
@[simp] theorem State.setCore_groups (s : State) (c : Nat) (k : Core) : (s.setCore c k).groups = s.groups := rfl
@[simp] theorem State.setCore_wakes (s : State) (c : Nat) (k : Core) : (s.setCore c k).wakes = s.wakes := rfl
@[simp] theorem State.setCore_reports (s : State) (c : Nat) (k : Core) : (s.setCore c k).reports = s.reports := rfl
@[simp] theorem State.setCore_contexts (s : State) (c : Nat) (k : Core) : (s.setCore c k).contexts = s.contexts := rfl
@[simp] theorem State.setCore_clusters (s : State) (c : Nat) (k : Core) : (s.setCore c k).clusters = s.clusters := rfl
@[simp] theorem State.setCore_mem (s : State) (c : Nat) (k : Core) : (s.setCore c k).mem = s.mem := rfl
@[simp] theorem State.setCore_poison (s : State) (c : Nat) (k : Core) : (s.setCore c k).poison = s.poison := rfl
@[simp] theorem State.setCore_rims (s : State) (c : Nat) (k : Core) : (s.setCore c k).rims = s.rims := rfl
@[simp] theorem State.setCore_atomics (s : State) (c : Nat) (k : Core) : (s.setCore c k).atomics = s.atomics := rfl
@[simp] theorem State.setCore_fabric (s : State) (c : Nat) (k : Core) : (s.setCore c k).fabric = s.fabric := rfl
@[simp] theorem State.setCore_ingress (s : State) (c : Nat) (k : Core) : (s.setCore c k).ingress = s.ingress := rfl
@[simp] theorem State.setCore_egress (s : State) (c : Nat) (k : Core) : (s.setCore c k).egress = s.egress := rfl
@[simp] theorem State.setCore_msix (s : State) (c : Nat) (k : Core) : (s.setCore c k).msix = s.msix := rfl
@[simp] theorem State.setCore_mgmt (s : State) (c : Nat) (k : Core) : (s.setCore c k).mgmt = s.mgmt := rfl
@[simp] theorem State.setCore_flash (s : State) (c : Nat) (k : Core) : (s.setCore c k).flash = s.flash := rfl
@[simp] theorem State.setCore_trivet (s : State) (c : Nat) (k : Core) : (s.setCore c k).trivet = s.trivet := rfl
@[simp] theorem State.setCore_power (s : State) (c : Nat) (k : Core) : (s.setCore c k).power = s.power := rfl

/-! ## State.setCluster -/

@[simp] theorem State.setCluster_schedule (s : State) (c : Nat) (k : Cluster) : (s.setCluster c k).schedule = s.schedule := rfl
@[simp] theorem State.setCluster_focus (s : State) (c : Nat) (k : Cluster) : (s.setCluster c k).focus = s.focus := rfl
@[simp] theorem State.setCluster_rota (s : State) (c : Nat) (k : Cluster) : (s.setCluster c k).rota = s.rota := rfl
@[simp] theorem State.setCluster_cur (s : State) (c : Nat) (k : Cluster) : (s.setCluster c k).cur = s.cur := rfl
@[simp] theorem State.setCluster_oracle (s : State) (c : Nat) (k : Cluster) : (s.setCluster c k).oracle = s.oracle := rfl
@[simp] theorem State.setCluster_choices (s : State) (c : Nat) (k : Cluster) : (s.setCluster c k).choices = s.choices := rfl
@[simp] theorem State.setCluster_arrivals (s : State) (c : Nat) (k : Cluster) : (s.setCluster c k).arrivals = s.arrivals := rfl
@[simp] theorem State.setCluster_threads (s : State) (c : Nat) (k : Cluster) : (s.setCluster c k).threads = s.threads := rfl
@[simp] theorem State.setCluster_chans (s : State) (c : Nat) (k : Cluster) : (s.setCluster c k).chans = s.chans := rfl
@[simp] theorem State.setCluster_groups (s : State) (c : Nat) (k : Cluster) : (s.setCluster c k).groups = s.groups := rfl
@[simp] theorem State.setCluster_wakes (s : State) (c : Nat) (k : Cluster) : (s.setCluster c k).wakes = s.wakes := rfl
@[simp] theorem State.setCluster_reports (s : State) (c : Nat) (k : Cluster) : (s.setCluster c k).reports = s.reports := rfl
@[simp] theorem State.setCluster_contexts (s : State) (c : Nat) (k : Cluster) : (s.setCluster c k).contexts = s.contexts := rfl
@[simp] theorem State.setCluster_cores (s : State) (c : Nat) (k : Cluster) : (s.setCluster c k).cores = s.cores := rfl
@[simp] theorem State.setCluster_mem (s : State) (c : Nat) (k : Cluster) : (s.setCluster c k).mem = s.mem := rfl
@[simp] theorem State.setCluster_poison (s : State) (c : Nat) (k : Cluster) : (s.setCluster c k).poison = s.poison := rfl
@[simp] theorem State.setCluster_rims (s : State) (c : Nat) (k : Cluster) : (s.setCluster c k).rims = s.rims := rfl
@[simp] theorem State.setCluster_atomics (s : State) (c : Nat) (k : Cluster) : (s.setCluster c k).atomics = s.atomics := rfl
@[simp] theorem State.setCluster_fabric (s : State) (c : Nat) (k : Cluster) : (s.setCluster c k).fabric = s.fabric := rfl
@[simp] theorem State.setCluster_ingress (s : State) (c : Nat) (k : Cluster) : (s.setCluster c k).ingress = s.ingress := rfl
@[simp] theorem State.setCluster_egress (s : State) (c : Nat) (k : Cluster) : (s.setCluster c k).egress = s.egress := rfl
@[simp] theorem State.setCluster_msix (s : State) (c : Nat) (k : Cluster) : (s.setCluster c k).msix = s.msix := rfl
@[simp] theorem State.setCluster_mgmt (s : State) (c : Nat) (k : Cluster) : (s.setCluster c k).mgmt = s.mgmt := rfl
@[simp] theorem State.setCluster_flash (s : State) (c : Nat) (k : Cluster) : (s.setCluster c k).flash = s.flash := rfl
@[simp] theorem State.setCluster_trivet (s : State) (c : Nat) (k : Cluster) : (s.setCluster c k).trivet = s.trivet := rfl
@[simp] theorem State.setCluster_power (s : State) (c : Nat) (k : Cluster) : (s.setCluster c k).power = s.power := rfl

/-! ## State.setCtx -/

@[simp] theorem State.setCtx_schedule (s : State) (c : Nat) (k : Ctx) : (s.setCtx c k).schedule = s.schedule := rfl
@[simp] theorem State.setCtx_focus (s : State) (c : Nat) (k : Ctx) : (s.setCtx c k).focus = s.focus := rfl
@[simp] theorem State.setCtx_rota (s : State) (c : Nat) (k : Ctx) : (s.setCtx c k).rota = s.rota := rfl
@[simp] theorem State.setCtx_cur (s : State) (c : Nat) (k : Ctx) : (s.setCtx c k).cur = s.cur := rfl
@[simp] theorem State.setCtx_oracle (s : State) (c : Nat) (k : Ctx) : (s.setCtx c k).oracle = s.oracle := rfl
@[simp] theorem State.setCtx_choices (s : State) (c : Nat) (k : Ctx) : (s.setCtx c k).choices = s.choices := rfl
@[simp] theorem State.setCtx_arrivals (s : State) (c : Nat) (k : Ctx) : (s.setCtx c k).arrivals = s.arrivals := rfl
@[simp] theorem State.setCtx_threads (s : State) (c : Nat) (k : Ctx) : (s.setCtx c k).threads = s.threads := rfl
@[simp] theorem State.setCtx_chans (s : State) (c : Nat) (k : Ctx) : (s.setCtx c k).chans = s.chans := rfl
@[simp] theorem State.setCtx_groups (s : State) (c : Nat) (k : Ctx) : (s.setCtx c k).groups = s.groups := rfl
@[simp] theorem State.setCtx_wakes (s : State) (c : Nat) (k : Ctx) : (s.setCtx c k).wakes = s.wakes := rfl
@[simp] theorem State.setCtx_reports (s : State) (c : Nat) (k : Ctx) : (s.setCtx c k).reports = s.reports := rfl
@[simp] theorem State.setCtx_clusters (s : State) (c : Nat) (k : Ctx) : (s.setCtx c k).clusters = s.clusters := rfl
@[simp] theorem State.setCtx_cores (s : State) (c : Nat) (k : Ctx) : (s.setCtx c k).cores = s.cores := rfl
@[simp] theorem State.setCtx_mem (s : State) (c : Nat) (k : Ctx) : (s.setCtx c k).mem = s.mem := rfl
@[simp] theorem State.setCtx_poison (s : State) (c : Nat) (k : Ctx) : (s.setCtx c k).poison = s.poison := rfl
@[simp] theorem State.setCtx_rims (s : State) (c : Nat) (k : Ctx) : (s.setCtx c k).rims = s.rims := rfl
@[simp] theorem State.setCtx_atomics (s : State) (c : Nat) (k : Ctx) : (s.setCtx c k).atomics = s.atomics := rfl
@[simp] theorem State.setCtx_fabric (s : State) (c : Nat) (k : Ctx) : (s.setCtx c k).fabric = s.fabric := rfl
@[simp] theorem State.setCtx_ingress (s : State) (c : Nat) (k : Ctx) : (s.setCtx c k).ingress = s.ingress := rfl
@[simp] theorem State.setCtx_egress (s : State) (c : Nat) (k : Ctx) : (s.setCtx c k).egress = s.egress := rfl
@[simp] theorem State.setCtx_msix (s : State) (c : Nat) (k : Ctx) : (s.setCtx c k).msix = s.msix := rfl
@[simp] theorem State.setCtx_mgmt (s : State) (c : Nat) (k : Ctx) : (s.setCtx c k).mgmt = s.mgmt := rfl
@[simp] theorem State.setCtx_flash (s : State) (c : Nat) (k : Ctx) : (s.setCtx c k).flash = s.flash := rfl
@[simp] theorem State.setCtx_trivet (s : State) (c : Nat) (k : Ctx) : (s.setCtx c k).trivet = s.trivet := rfl
@[simp] theorem State.setCtx_power (s : State) (c : Nat) (k : Ctx) : (s.setCtx c k).power = s.power := rfl

/-! ## State.setRim -/

@[simp] theorem State.setRim_schedule (s : State) (c : Nat) (k : Rim) : (s.setRim c k).schedule = s.schedule := rfl
@[simp] theorem State.setRim_focus (s : State) (c : Nat) (k : Rim) : (s.setRim c k).focus = s.focus := rfl
@[simp] theorem State.setRim_rota (s : State) (c : Nat) (k : Rim) : (s.setRim c k).rota = s.rota := rfl
@[simp] theorem State.setRim_cur (s : State) (c : Nat) (k : Rim) : (s.setRim c k).cur = s.cur := rfl
@[simp] theorem State.setRim_oracle (s : State) (c : Nat) (k : Rim) : (s.setRim c k).oracle = s.oracle := rfl
@[simp] theorem State.setRim_choices (s : State) (c : Nat) (k : Rim) : (s.setRim c k).choices = s.choices := rfl
@[simp] theorem State.setRim_arrivals (s : State) (c : Nat) (k : Rim) : (s.setRim c k).arrivals = s.arrivals := rfl
@[simp] theorem State.setRim_threads (s : State) (c : Nat) (k : Rim) : (s.setRim c k).threads = s.threads := rfl
@[simp] theorem State.setRim_chans (s : State) (c : Nat) (k : Rim) : (s.setRim c k).chans = s.chans := rfl
@[simp] theorem State.setRim_groups (s : State) (c : Nat) (k : Rim) : (s.setRim c k).groups = s.groups := rfl
@[simp] theorem State.setRim_wakes (s : State) (c : Nat) (k : Rim) : (s.setRim c k).wakes = s.wakes := rfl
@[simp] theorem State.setRim_reports (s : State) (c : Nat) (k : Rim) : (s.setRim c k).reports = s.reports := rfl
@[simp] theorem State.setRim_contexts (s : State) (c : Nat) (k : Rim) : (s.setRim c k).contexts = s.contexts := rfl
@[simp] theorem State.setRim_clusters (s : State) (c : Nat) (k : Rim) : (s.setRim c k).clusters = s.clusters := rfl
@[simp] theorem State.setRim_cores (s : State) (c : Nat) (k : Rim) : (s.setRim c k).cores = s.cores := rfl
@[simp] theorem State.setRim_mem (s : State) (c : Nat) (k : Rim) : (s.setRim c k).mem = s.mem := rfl
@[simp] theorem State.setRim_poison (s : State) (c : Nat) (k : Rim) : (s.setRim c k).poison = s.poison := rfl
@[simp] theorem State.setRim_atomics (s : State) (c : Nat) (k : Rim) : (s.setRim c k).atomics = s.atomics := rfl
@[simp] theorem State.setRim_fabric (s : State) (c : Nat) (k : Rim) : (s.setRim c k).fabric = s.fabric := rfl
@[simp] theorem State.setRim_ingress (s : State) (c : Nat) (k : Rim) : (s.setRim c k).ingress = s.ingress := rfl
@[simp] theorem State.setRim_egress (s : State) (c : Nat) (k : Rim) : (s.setRim c k).egress = s.egress := rfl
@[simp] theorem State.setRim_msix (s : State) (c : Nat) (k : Rim) : (s.setRim c k).msix = s.msix := rfl
@[simp] theorem State.setRim_mgmt (s : State) (c : Nat) (k : Rim) : (s.setRim c k).mgmt = s.mgmt := rfl
@[simp] theorem State.setRim_flash (s : State) (c : Nat) (k : Rim) : (s.setRim c k).flash = s.flash := rfl
@[simp] theorem State.setRim_trivet (s : State) (c : Nat) (k : Rim) : (s.setRim c k).trivet = s.trivet := rfl
@[simp] theorem State.setRim_power (s : State) (c : Nat) (k : Rim) : (s.setRim c k).power = s.power := rfl

/-! ## State.modCore -/

@[simp] theorem State.modCore_schedule (s : State) (c : Nat) (f : Core → Core) : (s.modCore c f).schedule = s.schedule := rfl
@[simp] theorem State.modCore_focus (s : State) (c : Nat) (f : Core → Core) : (s.modCore c f).focus = s.focus := rfl
@[simp] theorem State.modCore_rota (s : State) (c : Nat) (f : Core → Core) : (s.modCore c f).rota = s.rota := rfl
@[simp] theorem State.modCore_cur (s : State) (c : Nat) (f : Core → Core) : (s.modCore c f).cur = s.cur := rfl
@[simp] theorem State.modCore_oracle (s : State) (c : Nat) (f : Core → Core) : (s.modCore c f).oracle = s.oracle := rfl
@[simp] theorem State.modCore_choices (s : State) (c : Nat) (f : Core → Core) : (s.modCore c f).choices = s.choices := rfl
@[simp] theorem State.modCore_arrivals (s : State) (c : Nat) (f : Core → Core) : (s.modCore c f).arrivals = s.arrivals := rfl
@[simp] theorem State.modCore_threads (s : State) (c : Nat) (f : Core → Core) : (s.modCore c f).threads = s.threads := rfl
@[simp] theorem State.modCore_chans (s : State) (c : Nat) (f : Core → Core) : (s.modCore c f).chans = s.chans := rfl
@[simp] theorem State.modCore_groups (s : State) (c : Nat) (f : Core → Core) : (s.modCore c f).groups = s.groups := rfl
@[simp] theorem State.modCore_wakes (s : State) (c : Nat) (f : Core → Core) : (s.modCore c f).wakes = s.wakes := rfl
@[simp] theorem State.modCore_reports (s : State) (c : Nat) (f : Core → Core) : (s.modCore c f).reports = s.reports := rfl
@[simp] theorem State.modCore_contexts (s : State) (c : Nat) (f : Core → Core) : (s.modCore c f).contexts = s.contexts := rfl
@[simp] theorem State.modCore_clusters (s : State) (c : Nat) (f : Core → Core) : (s.modCore c f).clusters = s.clusters := rfl
@[simp] theorem State.modCore_mem (s : State) (c : Nat) (f : Core → Core) : (s.modCore c f).mem = s.mem := rfl
@[simp] theorem State.modCore_poison (s : State) (c : Nat) (f : Core → Core) : (s.modCore c f).poison = s.poison := rfl
@[simp] theorem State.modCore_rims (s : State) (c : Nat) (f : Core → Core) : (s.modCore c f).rims = s.rims := rfl
@[simp] theorem State.modCore_atomics (s : State) (c : Nat) (f : Core → Core) : (s.modCore c f).atomics = s.atomics := rfl
@[simp] theorem State.modCore_fabric (s : State) (c : Nat) (f : Core → Core) : (s.modCore c f).fabric = s.fabric := rfl
@[simp] theorem State.modCore_ingress (s : State) (c : Nat) (f : Core → Core) : (s.modCore c f).ingress = s.ingress := rfl
@[simp] theorem State.modCore_egress (s : State) (c : Nat) (f : Core → Core) : (s.modCore c f).egress = s.egress := rfl
@[simp] theorem State.modCore_msix (s : State) (c : Nat) (f : Core → Core) : (s.modCore c f).msix = s.msix := rfl
@[simp] theorem State.modCore_mgmt (s : State) (c : Nat) (f : Core → Core) : (s.modCore c f).mgmt = s.mgmt := rfl
@[simp] theorem State.modCore_flash (s : State) (c : Nat) (f : Core → Core) : (s.modCore c f).flash = s.flash := rfl
@[simp] theorem State.modCore_trivet (s : State) (c : Nat) (f : Core → Core) : (s.modCore c f).trivet = s.trivet := rfl
@[simp] theorem State.modCore_power (s : State) (c : Nat) (f : Core → Core) : (s.modCore c f).power = s.power := rfl

/-! ## State.modCluster -/

@[simp] theorem State.modCluster_schedule (s : State) (c : Nat) (f : Cluster → Cluster) : (s.modCluster c f).schedule = s.schedule := rfl
@[simp] theorem State.modCluster_focus (s : State) (c : Nat) (f : Cluster → Cluster) : (s.modCluster c f).focus = s.focus := rfl
@[simp] theorem State.modCluster_rota (s : State) (c : Nat) (f : Cluster → Cluster) : (s.modCluster c f).rota = s.rota := rfl
@[simp] theorem State.modCluster_cur (s : State) (c : Nat) (f : Cluster → Cluster) : (s.modCluster c f).cur = s.cur := rfl
@[simp] theorem State.modCluster_oracle (s : State) (c : Nat) (f : Cluster → Cluster) : (s.modCluster c f).oracle = s.oracle := rfl
@[simp] theorem State.modCluster_choices (s : State) (c : Nat) (f : Cluster → Cluster) : (s.modCluster c f).choices = s.choices := rfl
@[simp] theorem State.modCluster_arrivals (s : State) (c : Nat) (f : Cluster → Cluster) : (s.modCluster c f).arrivals = s.arrivals := rfl
@[simp] theorem State.modCluster_threads (s : State) (c : Nat) (f : Cluster → Cluster) : (s.modCluster c f).threads = s.threads := rfl
@[simp] theorem State.modCluster_chans (s : State) (c : Nat) (f : Cluster → Cluster) : (s.modCluster c f).chans = s.chans := rfl
@[simp] theorem State.modCluster_groups (s : State) (c : Nat) (f : Cluster → Cluster) : (s.modCluster c f).groups = s.groups := rfl
@[simp] theorem State.modCluster_wakes (s : State) (c : Nat) (f : Cluster → Cluster) : (s.modCluster c f).wakes = s.wakes := rfl
@[simp] theorem State.modCluster_reports (s : State) (c : Nat) (f : Cluster → Cluster) : (s.modCluster c f).reports = s.reports := rfl
@[simp] theorem State.modCluster_contexts (s : State) (c : Nat) (f : Cluster → Cluster) : (s.modCluster c f).contexts = s.contexts := rfl
@[simp] theorem State.modCluster_cores (s : State) (c : Nat) (f : Cluster → Cluster) : (s.modCluster c f).cores = s.cores := rfl
@[simp] theorem State.modCluster_mem (s : State) (c : Nat) (f : Cluster → Cluster) : (s.modCluster c f).mem = s.mem := rfl
@[simp] theorem State.modCluster_poison (s : State) (c : Nat) (f : Cluster → Cluster) : (s.modCluster c f).poison = s.poison := rfl
@[simp] theorem State.modCluster_rims (s : State) (c : Nat) (f : Cluster → Cluster) : (s.modCluster c f).rims = s.rims := rfl
@[simp] theorem State.modCluster_atomics (s : State) (c : Nat) (f : Cluster → Cluster) : (s.modCluster c f).atomics = s.atomics := rfl
@[simp] theorem State.modCluster_fabric (s : State) (c : Nat) (f : Cluster → Cluster) : (s.modCluster c f).fabric = s.fabric := rfl
@[simp] theorem State.modCluster_ingress (s : State) (c : Nat) (f : Cluster → Cluster) : (s.modCluster c f).ingress = s.ingress := rfl
@[simp] theorem State.modCluster_egress (s : State) (c : Nat) (f : Cluster → Cluster) : (s.modCluster c f).egress = s.egress := rfl
@[simp] theorem State.modCluster_msix (s : State) (c : Nat) (f : Cluster → Cluster) : (s.modCluster c f).msix = s.msix := rfl
@[simp] theorem State.modCluster_mgmt (s : State) (c : Nat) (f : Cluster → Cluster) : (s.modCluster c f).mgmt = s.mgmt := rfl
@[simp] theorem State.modCluster_flash (s : State) (c : Nat) (f : Cluster → Cluster) : (s.modCluster c f).flash = s.flash := rfl
@[simp] theorem State.modCluster_trivet (s : State) (c : Nat) (f : Cluster → Cluster) : (s.modCluster c f).trivet = s.trivet := rfl
@[simp] theorem State.modCluster_power (s : State) (c : Nat) (f : Cluster → Cluster) : (s.modCluster c f).power = s.power := rfl

/-! ## State.modCtx -/

@[simp] theorem State.modCtx_schedule (s : State) (c : Nat) (f : Ctx → Ctx) : (s.modCtx c f).schedule = s.schedule := rfl
@[simp] theorem State.modCtx_focus (s : State) (c : Nat) (f : Ctx → Ctx) : (s.modCtx c f).focus = s.focus := rfl
@[simp] theorem State.modCtx_rota (s : State) (c : Nat) (f : Ctx → Ctx) : (s.modCtx c f).rota = s.rota := rfl
@[simp] theorem State.modCtx_cur (s : State) (c : Nat) (f : Ctx → Ctx) : (s.modCtx c f).cur = s.cur := rfl
@[simp] theorem State.modCtx_oracle (s : State) (c : Nat) (f : Ctx → Ctx) : (s.modCtx c f).oracle = s.oracle := rfl
@[simp] theorem State.modCtx_choices (s : State) (c : Nat) (f : Ctx → Ctx) : (s.modCtx c f).choices = s.choices := rfl
@[simp] theorem State.modCtx_arrivals (s : State) (c : Nat) (f : Ctx → Ctx) : (s.modCtx c f).arrivals = s.arrivals := rfl
@[simp] theorem State.modCtx_threads (s : State) (c : Nat) (f : Ctx → Ctx) : (s.modCtx c f).threads = s.threads := rfl
@[simp] theorem State.modCtx_chans (s : State) (c : Nat) (f : Ctx → Ctx) : (s.modCtx c f).chans = s.chans := rfl
@[simp] theorem State.modCtx_groups (s : State) (c : Nat) (f : Ctx → Ctx) : (s.modCtx c f).groups = s.groups := rfl
@[simp] theorem State.modCtx_wakes (s : State) (c : Nat) (f : Ctx → Ctx) : (s.modCtx c f).wakes = s.wakes := rfl
@[simp] theorem State.modCtx_reports (s : State) (c : Nat) (f : Ctx → Ctx) : (s.modCtx c f).reports = s.reports := rfl
@[simp] theorem State.modCtx_clusters (s : State) (c : Nat) (f : Ctx → Ctx) : (s.modCtx c f).clusters = s.clusters := rfl
@[simp] theorem State.modCtx_cores (s : State) (c : Nat) (f : Ctx → Ctx) : (s.modCtx c f).cores = s.cores := rfl
@[simp] theorem State.modCtx_mem (s : State) (c : Nat) (f : Ctx → Ctx) : (s.modCtx c f).mem = s.mem := rfl
@[simp] theorem State.modCtx_poison (s : State) (c : Nat) (f : Ctx → Ctx) : (s.modCtx c f).poison = s.poison := rfl
@[simp] theorem State.modCtx_rims (s : State) (c : Nat) (f : Ctx → Ctx) : (s.modCtx c f).rims = s.rims := rfl
@[simp] theorem State.modCtx_atomics (s : State) (c : Nat) (f : Ctx → Ctx) : (s.modCtx c f).atomics = s.atomics := rfl
@[simp] theorem State.modCtx_fabric (s : State) (c : Nat) (f : Ctx → Ctx) : (s.modCtx c f).fabric = s.fabric := rfl
@[simp] theorem State.modCtx_ingress (s : State) (c : Nat) (f : Ctx → Ctx) : (s.modCtx c f).ingress = s.ingress := rfl
@[simp] theorem State.modCtx_egress (s : State) (c : Nat) (f : Ctx → Ctx) : (s.modCtx c f).egress = s.egress := rfl
@[simp] theorem State.modCtx_msix (s : State) (c : Nat) (f : Ctx → Ctx) : (s.modCtx c f).msix = s.msix := rfl
@[simp] theorem State.modCtx_mgmt (s : State) (c : Nat) (f : Ctx → Ctx) : (s.modCtx c f).mgmt = s.mgmt := rfl
@[simp] theorem State.modCtx_flash (s : State) (c : Nat) (f : Ctx → Ctx) : (s.modCtx c f).flash = s.flash := rfl
@[simp] theorem State.modCtx_trivet (s : State) (c : Nat) (f : Ctx → Ctx) : (s.modCtx c f).trivet = s.trivet := rfl
@[simp] theorem State.modCtx_power (s : State) (c : Nat) (f : Ctx → Ctx) : (s.modCtx c f).power = s.power := rfl

/-! ## State.modRim -/

@[simp] theorem State.modRim_schedule (s : State) (c : Nat) (f : Rim → Rim) : (s.modRim c f).schedule = s.schedule := rfl
@[simp] theorem State.modRim_focus (s : State) (c : Nat) (f : Rim → Rim) : (s.modRim c f).focus = s.focus := rfl
@[simp] theorem State.modRim_rota (s : State) (c : Nat) (f : Rim → Rim) : (s.modRim c f).rota = s.rota := rfl
@[simp] theorem State.modRim_cur (s : State) (c : Nat) (f : Rim → Rim) : (s.modRim c f).cur = s.cur := rfl
@[simp] theorem State.modRim_oracle (s : State) (c : Nat) (f : Rim → Rim) : (s.modRim c f).oracle = s.oracle := rfl
@[simp] theorem State.modRim_choices (s : State) (c : Nat) (f : Rim → Rim) : (s.modRim c f).choices = s.choices := rfl
@[simp] theorem State.modRim_arrivals (s : State) (c : Nat) (f : Rim → Rim) : (s.modRim c f).arrivals = s.arrivals := rfl
@[simp] theorem State.modRim_threads (s : State) (c : Nat) (f : Rim → Rim) : (s.modRim c f).threads = s.threads := rfl
@[simp] theorem State.modRim_chans (s : State) (c : Nat) (f : Rim → Rim) : (s.modRim c f).chans = s.chans := rfl
@[simp] theorem State.modRim_groups (s : State) (c : Nat) (f : Rim → Rim) : (s.modRim c f).groups = s.groups := rfl
@[simp] theorem State.modRim_wakes (s : State) (c : Nat) (f : Rim → Rim) : (s.modRim c f).wakes = s.wakes := rfl
@[simp] theorem State.modRim_reports (s : State) (c : Nat) (f : Rim → Rim) : (s.modRim c f).reports = s.reports := rfl
@[simp] theorem State.modRim_contexts (s : State) (c : Nat) (f : Rim → Rim) : (s.modRim c f).contexts = s.contexts := rfl
@[simp] theorem State.modRim_clusters (s : State) (c : Nat) (f : Rim → Rim) : (s.modRim c f).clusters = s.clusters := rfl
@[simp] theorem State.modRim_cores (s : State) (c : Nat) (f : Rim → Rim) : (s.modRim c f).cores = s.cores := rfl
@[simp] theorem State.modRim_mem (s : State) (c : Nat) (f : Rim → Rim) : (s.modRim c f).mem = s.mem := rfl
@[simp] theorem State.modRim_poison (s : State) (c : Nat) (f : Rim → Rim) : (s.modRim c f).poison = s.poison := rfl
@[simp] theorem State.modRim_atomics (s : State) (c : Nat) (f : Rim → Rim) : (s.modRim c f).atomics = s.atomics := rfl
@[simp] theorem State.modRim_fabric (s : State) (c : Nat) (f : Rim → Rim) : (s.modRim c f).fabric = s.fabric := rfl
@[simp] theorem State.modRim_ingress (s : State) (c : Nat) (f : Rim → Rim) : (s.modRim c f).ingress = s.ingress := rfl
@[simp] theorem State.modRim_egress (s : State) (c : Nat) (f : Rim → Rim) : (s.modRim c f).egress = s.egress := rfl
@[simp] theorem State.modRim_msix (s : State) (c : Nat) (f : Rim → Rim) : (s.modRim c f).msix = s.msix := rfl
@[simp] theorem State.modRim_mgmt (s : State) (c : Nat) (f : Rim → Rim) : (s.modRim c f).mgmt = s.mgmt := rfl
@[simp] theorem State.modRim_flash (s : State) (c : Nat) (f : Rim → Rim) : (s.modRim c f).flash = s.flash := rfl
@[simp] theorem State.modRim_trivet (s : State) (c : Nat) (f : Rim → Rim) : (s.modRim c f).trivet = s.trivet := rfl
@[simp] theorem State.modRim_power (s : State) (c : Nat) (f : Rim → Rim) : (s.modRim c f).power = s.power := rfl

/-! ## State.setTile -/

@[simp] theorem State.setTile_schedule (s : State) (l : TileLoc) (t : Tile) : (s.setTile l t).schedule = s.schedule := rfl
@[simp] theorem State.setTile_focus (s : State) (l : TileLoc) (t : Tile) : (s.setTile l t).focus = s.focus := rfl
@[simp] theorem State.setTile_rota (s : State) (l : TileLoc) (t : Tile) : (s.setTile l t).rota = s.rota := rfl
@[simp] theorem State.setTile_cur (s : State) (l : TileLoc) (t : Tile) : (s.setTile l t).cur = s.cur := rfl
@[simp] theorem State.setTile_oracle (s : State) (l : TileLoc) (t : Tile) : (s.setTile l t).oracle = s.oracle := rfl
@[simp] theorem State.setTile_choices (s : State) (l : TileLoc) (t : Tile) : (s.setTile l t).choices = s.choices := rfl
@[simp] theorem State.setTile_arrivals (s : State) (l : TileLoc) (t : Tile) : (s.setTile l t).arrivals = s.arrivals := rfl
@[simp] theorem State.setTile_threads (s : State) (l : TileLoc) (t : Tile) : (s.setTile l t).threads = s.threads := rfl
@[simp] theorem State.setTile_chans (s : State) (l : TileLoc) (t : Tile) : (s.setTile l t).chans = s.chans := rfl
@[simp] theorem State.setTile_groups (s : State) (l : TileLoc) (t : Tile) : (s.setTile l t).groups = s.groups := rfl
@[simp] theorem State.setTile_wakes (s : State) (l : TileLoc) (t : Tile) : (s.setTile l t).wakes = s.wakes := rfl
@[simp] theorem State.setTile_reports (s : State) (l : TileLoc) (t : Tile) : (s.setTile l t).reports = s.reports := rfl
@[simp] theorem State.setTile_contexts (s : State) (l : TileLoc) (t : Tile) : (s.setTile l t).contexts = s.contexts := rfl
@[simp] theorem State.setTile_clusters (s : State) (l : TileLoc) (t : Tile) : (s.setTile l t).clusters = s.clusters := rfl
@[simp] theorem State.setTile_mem (s : State) (l : TileLoc) (t : Tile) : (s.setTile l t).mem = s.mem := rfl
@[simp] theorem State.setTile_poison (s : State) (l : TileLoc) (t : Tile) : (s.setTile l t).poison = s.poison := rfl
@[simp] theorem State.setTile_rims (s : State) (l : TileLoc) (t : Tile) : (s.setTile l t).rims = s.rims := rfl
@[simp] theorem State.setTile_atomics (s : State) (l : TileLoc) (t : Tile) : (s.setTile l t).atomics = s.atomics := rfl
@[simp] theorem State.setTile_fabric (s : State) (l : TileLoc) (t : Tile) : (s.setTile l t).fabric = s.fabric := rfl
@[simp] theorem State.setTile_ingress (s : State) (l : TileLoc) (t : Tile) : (s.setTile l t).ingress = s.ingress := rfl
@[simp] theorem State.setTile_egress (s : State) (l : TileLoc) (t : Tile) : (s.setTile l t).egress = s.egress := rfl
@[simp] theorem State.setTile_msix (s : State) (l : TileLoc) (t : Tile) : (s.setTile l t).msix = s.msix := rfl
@[simp] theorem State.setTile_mgmt (s : State) (l : TileLoc) (t : Tile) : (s.setTile l t).mgmt = s.mgmt := rfl
@[simp] theorem State.setTile_flash (s : State) (l : TileLoc) (t : Tile) : (s.setTile l t).flash = s.flash := rfl
@[simp] theorem State.setTile_trivet (s : State) (l : TileLoc) (t : Tile) : (s.setTile l t).trivet = s.trivet := rfl
@[simp] theorem State.setTile_power (s : State) (l : TileLoc) (t : Tile) : (s.setTile l t).power = s.power := rfl

/-! ## State.modTile -/

@[simp] theorem State.modTile_schedule (s : State) (l : TileLoc) (f : Tile → Tile) : (s.modTile l f).schedule = s.schedule := rfl
@[simp] theorem State.modTile_focus (s : State) (l : TileLoc) (f : Tile → Tile) : (s.modTile l f).focus = s.focus := rfl
@[simp] theorem State.modTile_rota (s : State) (l : TileLoc) (f : Tile → Tile) : (s.modTile l f).rota = s.rota := rfl
@[simp] theorem State.modTile_cur (s : State) (l : TileLoc) (f : Tile → Tile) : (s.modTile l f).cur = s.cur := rfl
@[simp] theorem State.modTile_oracle (s : State) (l : TileLoc) (f : Tile → Tile) : (s.modTile l f).oracle = s.oracle := rfl
@[simp] theorem State.modTile_choices (s : State) (l : TileLoc) (f : Tile → Tile) : (s.modTile l f).choices = s.choices := rfl
@[simp] theorem State.modTile_arrivals (s : State) (l : TileLoc) (f : Tile → Tile) : (s.modTile l f).arrivals = s.arrivals := rfl
@[simp] theorem State.modTile_threads (s : State) (l : TileLoc) (f : Tile → Tile) : (s.modTile l f).threads = s.threads := rfl
@[simp] theorem State.modTile_chans (s : State) (l : TileLoc) (f : Tile → Tile) : (s.modTile l f).chans = s.chans := rfl
@[simp] theorem State.modTile_groups (s : State) (l : TileLoc) (f : Tile → Tile) : (s.modTile l f).groups = s.groups := rfl
@[simp] theorem State.modTile_wakes (s : State) (l : TileLoc) (f : Tile → Tile) : (s.modTile l f).wakes = s.wakes := rfl
@[simp] theorem State.modTile_reports (s : State) (l : TileLoc) (f : Tile → Tile) : (s.modTile l f).reports = s.reports := rfl
@[simp] theorem State.modTile_contexts (s : State) (l : TileLoc) (f : Tile → Tile) : (s.modTile l f).contexts = s.contexts := rfl
@[simp] theorem State.modTile_clusters (s : State) (l : TileLoc) (f : Tile → Tile) : (s.modTile l f).clusters = s.clusters := rfl
@[simp] theorem State.modTile_mem (s : State) (l : TileLoc) (f : Tile → Tile) : (s.modTile l f).mem = s.mem := rfl
@[simp] theorem State.modTile_poison (s : State) (l : TileLoc) (f : Tile → Tile) : (s.modTile l f).poison = s.poison := rfl
@[simp] theorem State.modTile_rims (s : State) (l : TileLoc) (f : Tile → Tile) : (s.modTile l f).rims = s.rims := rfl
@[simp] theorem State.modTile_atomics (s : State) (l : TileLoc) (f : Tile → Tile) : (s.modTile l f).atomics = s.atomics := rfl
@[simp] theorem State.modTile_fabric (s : State) (l : TileLoc) (f : Tile → Tile) : (s.modTile l f).fabric = s.fabric := rfl
@[simp] theorem State.modTile_ingress (s : State) (l : TileLoc) (f : Tile → Tile) : (s.modTile l f).ingress = s.ingress := rfl
@[simp] theorem State.modTile_egress (s : State) (l : TileLoc) (f : Tile → Tile) : (s.modTile l f).egress = s.egress := rfl
@[simp] theorem State.modTile_msix (s : State) (l : TileLoc) (f : Tile → Tile) : (s.modTile l f).msix = s.msix := rfl
@[simp] theorem State.modTile_mgmt (s : State) (l : TileLoc) (f : Tile → Tile) : (s.modTile l f).mgmt = s.mgmt := rfl
@[simp] theorem State.modTile_flash (s : State) (l : TileLoc) (f : Tile → Tile) : (s.modTile l f).flash = s.flash := rfl
@[simp] theorem State.modTile_trivet (s : State) (l : TileLoc) (f : Tile → Tile) : (s.modTile l f).trivet = s.trivet := rfl
@[simp] theorem State.modTile_power (s : State) (l : TileLoc) (f : Tile → Tile) : (s.modTile l f).power = s.power := rfl

/-! ## State.setLct -/

@[simp] theorem State.setLct_schedule (s : State) (n : Nat) (e : LctEntry) : (s.setLct n e).schedule = s.schedule := rfl
@[simp] theorem State.setLct_focus (s : State) (n : Nat) (e : LctEntry) : (s.setLct n e).focus = s.focus := rfl
@[simp] theorem State.setLct_rota (s : State) (n : Nat) (e : LctEntry) : (s.setLct n e).rota = s.rota := rfl
@[simp] theorem State.setLct_cur (s : State) (n : Nat) (e : LctEntry) : (s.setLct n e).cur = s.cur := rfl
@[simp] theorem State.setLct_oracle (s : State) (n : Nat) (e : LctEntry) : (s.setLct n e).oracle = s.oracle := rfl
@[simp] theorem State.setLct_choices (s : State) (n : Nat) (e : LctEntry) : (s.setLct n e).choices = s.choices := rfl
@[simp] theorem State.setLct_arrivals (s : State) (n : Nat) (e : LctEntry) : (s.setLct n e).arrivals = s.arrivals := rfl
@[simp] theorem State.setLct_threads (s : State) (n : Nat) (e : LctEntry) : (s.setLct n e).threads = s.threads := rfl
@[simp] theorem State.setLct_chans (s : State) (n : Nat) (e : LctEntry) : (s.setLct n e).chans = s.chans := rfl
@[simp] theorem State.setLct_groups (s : State) (n : Nat) (e : LctEntry) : (s.setLct n e).groups = s.groups := rfl
@[simp] theorem State.setLct_wakes (s : State) (n : Nat) (e : LctEntry) : (s.setLct n e).wakes = s.wakes := rfl
@[simp] theorem State.setLct_reports (s : State) (n : Nat) (e : LctEntry) : (s.setLct n e).reports = s.reports := rfl
@[simp] theorem State.setLct_contexts (s : State) (n : Nat) (e : LctEntry) : (s.setLct n e).contexts = s.contexts := rfl
@[simp] theorem State.setLct_cores (s : State) (n : Nat) (e : LctEntry) : (s.setLct n e).cores = s.cores := rfl
@[simp] theorem State.setLct_mem (s : State) (n : Nat) (e : LctEntry) : (s.setLct n e).mem = s.mem := rfl
@[simp] theorem State.setLct_poison (s : State) (n : Nat) (e : LctEntry) : (s.setLct n e).poison = s.poison := rfl
@[simp] theorem State.setLct_rims (s : State) (n : Nat) (e : LctEntry) : (s.setLct n e).rims = s.rims := rfl
@[simp] theorem State.setLct_atomics (s : State) (n : Nat) (e : LctEntry) : (s.setLct n e).atomics = s.atomics := rfl
@[simp] theorem State.setLct_fabric (s : State) (n : Nat) (e : LctEntry) : (s.setLct n e).fabric = s.fabric := rfl
@[simp] theorem State.setLct_ingress (s : State) (n : Nat) (e : LctEntry) : (s.setLct n e).ingress = s.ingress := rfl
@[simp] theorem State.setLct_egress (s : State) (n : Nat) (e : LctEntry) : (s.setLct n e).egress = s.egress := rfl
@[simp] theorem State.setLct_msix (s : State) (n : Nat) (e : LctEntry) : (s.setLct n e).msix = s.msix := rfl
@[simp] theorem State.setLct_mgmt (s : State) (n : Nat) (e : LctEntry) : (s.setLct n e).mgmt = s.mgmt := rfl
@[simp] theorem State.setLct_flash (s : State) (n : Nat) (e : LctEntry) : (s.setLct n e).flash = s.flash := rfl
@[simp] theorem State.setLct_trivet (s : State) (n : Nat) (e : LctEntry) : (s.setLct n e).trivet = s.trivet := rfl
@[simp] theorem State.setLct_power (s : State) (n : Nat) (e : LctEntry) : (s.setLct n e).power = s.power := rfl

/-! ## State.modThread -/

@[simp] theorem State.modThread_schedule (s : State) (tid : Nat) (f : Thread → Thread) : (s.modThread tid f).schedule = s.schedule := by
  unfold State.modThread; split <;> rfl
@[simp] theorem State.modThread_focus (s : State) (tid : Nat) (f : Thread → Thread) : (s.modThread tid f).focus = s.focus := by
  unfold State.modThread; split <;> rfl
@[simp] theorem State.modThread_rota (s : State) (tid : Nat) (f : Thread → Thread) : (s.modThread tid f).rota = s.rota := by
  unfold State.modThread; split <;> rfl
@[simp] theorem State.modThread_cur (s : State) (tid : Nat) (f : Thread → Thread) : (s.modThread tid f).cur = s.cur := by
  unfold State.modThread; split <;> rfl
@[simp] theorem State.modThread_oracle (s : State) (tid : Nat) (f : Thread → Thread) : (s.modThread tid f).oracle = s.oracle := by
  unfold State.modThread; split <;> rfl
@[simp] theorem State.modThread_choices (s : State) (tid : Nat) (f : Thread → Thread) : (s.modThread tid f).choices = s.choices := by
  unfold State.modThread; split <;> rfl
@[simp] theorem State.modThread_arrivals (s : State) (tid : Nat) (f : Thread → Thread) : (s.modThread tid f).arrivals = s.arrivals := by
  unfold State.modThread; split <;> rfl
@[simp] theorem State.modThread_chans (s : State) (tid : Nat) (f : Thread → Thread) : (s.modThread tid f).chans = s.chans := by
  unfold State.modThread; split <;> rfl
@[simp] theorem State.modThread_groups (s : State) (tid : Nat) (f : Thread → Thread) : (s.modThread tid f).groups = s.groups := by
  unfold State.modThread; split <;> rfl
@[simp] theorem State.modThread_wakes (s : State) (tid : Nat) (f : Thread → Thread) : (s.modThread tid f).wakes = s.wakes := by
  unfold State.modThread; split <;> rfl
@[simp] theorem State.modThread_reports (s : State) (tid : Nat) (f : Thread → Thread) : (s.modThread tid f).reports = s.reports := by
  unfold State.modThread; split <;> rfl
@[simp] theorem State.modThread_contexts (s : State) (tid : Nat) (f : Thread → Thread) : (s.modThread tid f).contexts = s.contexts := by
  unfold State.modThread; split <;> rfl
@[simp] theorem State.modThread_clusters (s : State) (tid : Nat) (f : Thread → Thread) : (s.modThread tid f).clusters = s.clusters := by
  unfold State.modThread; split <;> rfl
@[simp] theorem State.modThread_cores (s : State) (tid : Nat) (f : Thread → Thread) : (s.modThread tid f).cores = s.cores := by
  unfold State.modThread; split <;> rfl
@[simp] theorem State.modThread_mem (s : State) (tid : Nat) (f : Thread → Thread) : (s.modThread tid f).mem = s.mem := by
  unfold State.modThread; split <;> rfl
@[simp] theorem State.modThread_poison (s : State) (tid : Nat) (f : Thread → Thread) : (s.modThread tid f).poison = s.poison := by
  unfold State.modThread; split <;> rfl
@[simp] theorem State.modThread_rims (s : State) (tid : Nat) (f : Thread → Thread) : (s.modThread tid f).rims = s.rims := by
  unfold State.modThread; split <;> rfl
@[simp] theorem State.modThread_atomics (s : State) (tid : Nat) (f : Thread → Thread) : (s.modThread tid f).atomics = s.atomics := by
  unfold State.modThread; split <;> rfl
@[simp] theorem State.modThread_fabric (s : State) (tid : Nat) (f : Thread → Thread) : (s.modThread tid f).fabric = s.fabric := by
  unfold State.modThread; split <;> rfl
@[simp] theorem State.modThread_ingress (s : State) (tid : Nat) (f : Thread → Thread) : (s.modThread tid f).ingress = s.ingress := by
  unfold State.modThread; split <;> rfl
@[simp] theorem State.modThread_egress (s : State) (tid : Nat) (f : Thread → Thread) : (s.modThread tid f).egress = s.egress := by
  unfold State.modThread; split <;> rfl
@[simp] theorem State.modThread_msix (s : State) (tid : Nat) (f : Thread → Thread) : (s.modThread tid f).msix = s.msix := by
  unfold State.modThread; split <;> rfl
@[simp] theorem State.modThread_mgmt (s : State) (tid : Nat) (f : Thread → Thread) : (s.modThread tid f).mgmt = s.mgmt := by
  unfold State.modThread; split <;> rfl
@[simp] theorem State.modThread_flash (s : State) (tid : Nat) (f : Thread → Thread) : (s.modThread tid f).flash = s.flash := by
  unfold State.modThread; split <;> rfl
@[simp] theorem State.modThread_trivet (s : State) (tid : Nat) (f : Thread → Thread) : (s.modThread tid f).trivet = s.trivet := by
  unfold State.modThread; split <;> rfl
@[simp] theorem State.modThread_power (s : State) (tid : Nat) (f : Thread → Thread) : (s.modThread tid f).power = s.power := by
  unfold State.modThread; split <;> rfl

/-! ## State.setHandle -/

@[simp] theorem State.setHandle_schedule (s : State) (cl h : Nat) (x : Handle) : (s.setHandle cl h x).schedule = s.schedule := rfl
@[simp] theorem State.setHandle_focus (s : State) (cl h : Nat) (x : Handle) : (s.setHandle cl h x).focus = s.focus := rfl
@[simp] theorem State.setHandle_rota (s : State) (cl h : Nat) (x : Handle) : (s.setHandle cl h x).rota = s.rota := rfl
@[simp] theorem State.setHandle_cur (s : State) (cl h : Nat) (x : Handle) : (s.setHandle cl h x).cur = s.cur := rfl
@[simp] theorem State.setHandle_oracle (s : State) (cl h : Nat) (x : Handle) : (s.setHandle cl h x).oracle = s.oracle := rfl
@[simp] theorem State.setHandle_choices (s : State) (cl h : Nat) (x : Handle) : (s.setHandle cl h x).choices = s.choices := rfl
@[simp] theorem State.setHandle_arrivals (s : State) (cl h : Nat) (x : Handle) : (s.setHandle cl h x).arrivals = s.arrivals := rfl
@[simp] theorem State.setHandle_threads (s : State) (cl h : Nat) (x : Handle) : (s.setHandle cl h x).threads = s.threads := rfl
@[simp] theorem State.setHandle_chans (s : State) (cl h : Nat) (x : Handle) : (s.setHandle cl h x).chans = s.chans := rfl
@[simp] theorem State.setHandle_groups (s : State) (cl h : Nat) (x : Handle) : (s.setHandle cl h x).groups = s.groups := rfl
@[simp] theorem State.setHandle_wakes (s : State) (cl h : Nat) (x : Handle) : (s.setHandle cl h x).wakes = s.wakes := rfl
@[simp] theorem State.setHandle_reports (s : State) (cl h : Nat) (x : Handle) : (s.setHandle cl h x).reports = s.reports := rfl
@[simp] theorem State.setHandle_contexts (s : State) (cl h : Nat) (x : Handle) : (s.setHandle cl h x).contexts = s.contexts := rfl
@[simp] theorem State.setHandle_cores (s : State) (cl h : Nat) (x : Handle) : (s.setHandle cl h x).cores = s.cores := rfl
@[simp] theorem State.setHandle_mem (s : State) (cl h : Nat) (x : Handle) : (s.setHandle cl h x).mem = s.mem := rfl
@[simp] theorem State.setHandle_poison (s : State) (cl h : Nat) (x : Handle) : (s.setHandle cl h x).poison = s.poison := rfl
@[simp] theorem State.setHandle_rims (s : State) (cl h : Nat) (x : Handle) : (s.setHandle cl h x).rims = s.rims := rfl
@[simp] theorem State.setHandle_atomics (s : State) (cl h : Nat) (x : Handle) : (s.setHandle cl h x).atomics = s.atomics := rfl
@[simp] theorem State.setHandle_fabric (s : State) (cl h : Nat) (x : Handle) : (s.setHandle cl h x).fabric = s.fabric := rfl
@[simp] theorem State.setHandle_ingress (s : State) (cl h : Nat) (x : Handle) : (s.setHandle cl h x).ingress = s.ingress := rfl
@[simp] theorem State.setHandle_egress (s : State) (cl h : Nat) (x : Handle) : (s.setHandle cl h x).egress = s.egress := rfl
@[simp] theorem State.setHandle_msix (s : State) (cl h : Nat) (x : Handle) : (s.setHandle cl h x).msix = s.msix := rfl
@[simp] theorem State.setHandle_mgmt (s : State) (cl h : Nat) (x : Handle) : (s.setHandle cl h x).mgmt = s.mgmt := rfl
@[simp] theorem State.setHandle_flash (s : State) (cl h : Nat) (x : Handle) : (s.setHandle cl h x).flash = s.flash := rfl
@[simp] theorem State.setHandle_trivet (s : State) (cl h : Nat) (x : Handle) : (s.setHandle cl h x).trivet = s.trivet := rfl
@[simp] theorem State.setHandle_power (s : State) (cl h : Nat) (x : Handle) : (s.setHandle cl h x).power = s.power := rfl

/-! ## State.setLaunch -/

@[simp] theorem State.setLaunch_schedule (s : State) (cl h : Nat) (x : Launch) : (s.setLaunch cl h x).schedule = s.schedule := rfl
@[simp] theorem State.setLaunch_focus (s : State) (cl h : Nat) (x : Launch) : (s.setLaunch cl h x).focus = s.focus := rfl
@[simp] theorem State.setLaunch_rota (s : State) (cl h : Nat) (x : Launch) : (s.setLaunch cl h x).rota = s.rota := rfl
@[simp] theorem State.setLaunch_cur (s : State) (cl h : Nat) (x : Launch) : (s.setLaunch cl h x).cur = s.cur := rfl
@[simp] theorem State.setLaunch_oracle (s : State) (cl h : Nat) (x : Launch) : (s.setLaunch cl h x).oracle = s.oracle := rfl
@[simp] theorem State.setLaunch_choices (s : State) (cl h : Nat) (x : Launch) : (s.setLaunch cl h x).choices = s.choices := rfl
@[simp] theorem State.setLaunch_arrivals (s : State) (cl h : Nat) (x : Launch) : (s.setLaunch cl h x).arrivals = s.arrivals := rfl
@[simp] theorem State.setLaunch_threads (s : State) (cl h : Nat) (x : Launch) : (s.setLaunch cl h x).threads = s.threads := rfl
@[simp] theorem State.setLaunch_chans (s : State) (cl h : Nat) (x : Launch) : (s.setLaunch cl h x).chans = s.chans := rfl
@[simp] theorem State.setLaunch_groups (s : State) (cl h : Nat) (x : Launch) : (s.setLaunch cl h x).groups = s.groups := rfl
@[simp] theorem State.setLaunch_wakes (s : State) (cl h : Nat) (x : Launch) : (s.setLaunch cl h x).wakes = s.wakes := rfl
@[simp] theorem State.setLaunch_reports (s : State) (cl h : Nat) (x : Launch) : (s.setLaunch cl h x).reports = s.reports := rfl
@[simp] theorem State.setLaunch_contexts (s : State) (cl h : Nat) (x : Launch) : (s.setLaunch cl h x).contexts = s.contexts := rfl
@[simp] theorem State.setLaunch_cores (s : State) (cl h : Nat) (x : Launch) : (s.setLaunch cl h x).cores = s.cores := rfl
@[simp] theorem State.setLaunch_mem (s : State) (cl h : Nat) (x : Launch) : (s.setLaunch cl h x).mem = s.mem := rfl
@[simp] theorem State.setLaunch_poison (s : State) (cl h : Nat) (x : Launch) : (s.setLaunch cl h x).poison = s.poison := rfl
@[simp] theorem State.setLaunch_rims (s : State) (cl h : Nat) (x : Launch) : (s.setLaunch cl h x).rims = s.rims := rfl
@[simp] theorem State.setLaunch_atomics (s : State) (cl h : Nat) (x : Launch) : (s.setLaunch cl h x).atomics = s.atomics := rfl
@[simp] theorem State.setLaunch_fabric (s : State) (cl h : Nat) (x : Launch) : (s.setLaunch cl h x).fabric = s.fabric := rfl
@[simp] theorem State.setLaunch_ingress (s : State) (cl h : Nat) (x : Launch) : (s.setLaunch cl h x).ingress = s.ingress := rfl
@[simp] theorem State.setLaunch_egress (s : State) (cl h : Nat) (x : Launch) : (s.setLaunch cl h x).egress = s.egress := rfl
@[simp] theorem State.setLaunch_msix (s : State) (cl h : Nat) (x : Launch) : (s.setLaunch cl h x).msix = s.msix := rfl
@[simp] theorem State.setLaunch_mgmt (s : State) (cl h : Nat) (x : Launch) : (s.setLaunch cl h x).mgmt = s.mgmt := rfl
@[simp] theorem State.setLaunch_flash (s : State) (cl h : Nat) (x : Launch) : (s.setLaunch cl h x).flash = s.flash := rfl
@[simp] theorem State.setLaunch_trivet (s : State) (cl h : Nat) (x : Launch) : (s.setLaunch cl h x).trivet = s.trivet := rfl
@[simp] theorem State.setLaunch_power (s : State) (cl h : Nat) (x : Launch) : (s.setLaunch cl h x).power = s.power := rfl

/-! ## Accessors over updates of other parts -/

@[simp] theorem State.setThread_core_read (s : State) (tid : Nat) (t : Thread) (c' : Nat) : (s.setThread tid t).core c' = s.core c' := rfl
@[simp] theorem State.setThread_cluster_read (s : State) (tid : Nat) (t : Thread) (c' : Nat) : (s.setThread tid t).cluster c' = s.cluster c' := rfl
@[simp] theorem State.setThread_ctx_read (s : State) (tid : Nat) (t : Thread) (c' : Nat) : (s.setThread tid t).ctx c' = s.ctx c' := rfl
@[simp] theorem State.setThread_rim_read (s : State) (tid : Nat) (t : Thread) (c' : Nat) : (s.setThread tid t).rim c' = s.rim c' := rfl
@[simp] theorem State.setThread_tile_read (s : State) (tid : Nat) (t : Thread) (l' : TileLoc) : (s.setThread tid t).tile l' = s.tile l' := rfl
@[simp] theorem State.setThread_lct_read (s : State) (tid : Nat) (t : Thread) (n' : Nat) : (s.setThread tid t).lct n' = s.lct n' := rfl
@[simp] theorem State.setThread_phys_read (s : State) (tid : Nat) (t : Thread) (n' : Nat) : (s.setThread tid t).phys n' = s.phys n' := rfl
@[simp] theorem State.setThread_coreOf_read (s : State) (tid : Nat) (t : Thread) (t' : Thread) : (s.setThread tid t).coreOf t' = s.coreOf t' := rfl
@[simp] theorem State.setCore_thread_read (s : State) (c : Nat) (k : Core) (tid' : Nat) : (s.setCore c k).thread? tid' = s.thread? tid' := rfl
@[simp] theorem State.setCore_cluster_read (s : State) (c : Nat) (k : Core) (c' : Nat) : (s.setCore c k).cluster c' = s.cluster c' := rfl
@[simp] theorem State.setCore_ctx_read (s : State) (c : Nat) (k : Core) (c' : Nat) : (s.setCore c k).ctx c' = s.ctx c' := rfl
@[simp] theorem State.setCore_rim_read (s : State) (c : Nat) (k : Core) (c' : Nat) : (s.setCore c k).rim c' = s.rim c' := rfl
@[simp] theorem State.setCore_lct_read (s : State) (c : Nat) (k : Core) (n' : Nat) : (s.setCore c k).lct n' = s.lct n' := rfl
@[simp] theorem State.setCore_phys_read (s : State) (c : Nat) (k : Core) (n' : Nat) : (s.setCore c k).phys n' = s.phys n' := rfl
@[simp] theorem State.setCore_coreOf_read (s : State) (c : Nat) (k : Core) (t' : Thread) : (s.setCore c k).coreOf t' = s.coreOf t' := rfl
@[simp] theorem State.setCluster_thread_read (s : State) (c : Nat) (k : Cluster) (tid' : Nat) : (s.setCluster c k).thread? tid' = s.thread? tid' := rfl
@[simp] theorem State.setCluster_core_read (s : State) (c : Nat) (k : Cluster) (c' : Nat) : (s.setCluster c k).core c' = s.core c' := rfl
@[simp] theorem State.setCluster_ctx_read (s : State) (c : Nat) (k : Cluster) (c' : Nat) : (s.setCluster c k).ctx c' = s.ctx c' := rfl
@[simp] theorem State.setCluster_rim_read (s : State) (c : Nat) (k : Cluster) (c' : Nat) : (s.setCluster c k).rim c' = s.rim c' := rfl
@[simp] theorem State.setCluster_tile_read (s : State) (c : Nat) (k : Cluster) (l' : TileLoc) : (s.setCluster c k).tile l' = s.tile l' := rfl
@[simp] theorem State.setCtx_thread_read (s : State) (c : Nat) (k : Ctx) (tid' : Nat) : (s.setCtx c k).thread? tid' = s.thread? tid' := rfl
@[simp] theorem State.setCtx_core_read (s : State) (c : Nat) (k : Ctx) (c' : Nat) : (s.setCtx c k).core c' = s.core c' := rfl
@[simp] theorem State.setCtx_cluster_read (s : State) (c : Nat) (k : Ctx) (c' : Nat) : (s.setCtx c k).cluster c' = s.cluster c' := rfl
@[simp] theorem State.setCtx_rim_read (s : State) (c : Nat) (k : Ctx) (c' : Nat) : (s.setCtx c k).rim c' = s.rim c' := rfl
@[simp] theorem State.setCtx_tile_read (s : State) (c : Nat) (k : Ctx) (l' : TileLoc) : (s.setCtx c k).tile l' = s.tile l' := rfl
@[simp] theorem State.setCtx_lct_read (s : State) (c : Nat) (k : Ctx) (n' : Nat) : (s.setCtx c k).lct n' = s.lct n' := rfl
@[simp] theorem State.setCtx_phys_read (s : State) (c : Nat) (k : Ctx) (n' : Nat) : (s.setCtx c k).phys n' = s.phys n' := rfl
@[simp] theorem State.setCtx_coreOf_read (s : State) (c : Nat) (k : Ctx) (t' : Thread) : (s.setCtx c k).coreOf t' = s.coreOf t' := rfl
@[simp] theorem State.setRim_thread_read (s : State) (c : Nat) (k : Rim) (tid' : Nat) : (s.setRim c k).thread? tid' = s.thread? tid' := rfl
@[simp] theorem State.setRim_core_read (s : State) (c : Nat) (k : Rim) (c' : Nat) : (s.setRim c k).core c' = s.core c' := rfl
@[simp] theorem State.setRim_cluster_read (s : State) (c : Nat) (k : Rim) (c' : Nat) : (s.setRim c k).cluster c' = s.cluster c' := rfl
@[simp] theorem State.setRim_ctx_read (s : State) (c : Nat) (k : Rim) (c' : Nat) : (s.setRim c k).ctx c' = s.ctx c' := rfl
@[simp] theorem State.setRim_tile_read (s : State) (c : Nat) (k : Rim) (l' : TileLoc) : (s.setRim c k).tile l' = s.tile l' := rfl
@[simp] theorem State.setRim_lct_read (s : State) (c : Nat) (k : Rim) (n' : Nat) : (s.setRim c k).lct n' = s.lct n' := rfl
@[simp] theorem State.setRim_phys_read (s : State) (c : Nat) (k : Rim) (n' : Nat) : (s.setRim c k).phys n' = s.phys n' := rfl
@[simp] theorem State.setRim_coreOf_read (s : State) (c : Nat) (k : Rim) (t' : Thread) : (s.setRim c k).coreOf t' = s.coreOf t' := rfl
@[simp] theorem State.modCore_thread_read (s : State) (c : Nat) (f : Core → Core) (tid' : Nat) : (s.modCore c f).thread? tid' = s.thread? tid' := rfl
@[simp] theorem State.modCore_cluster_read (s : State) (c : Nat) (f : Core → Core) (c' : Nat) : (s.modCore c f).cluster c' = s.cluster c' := rfl
@[simp] theorem State.modCore_ctx_read (s : State) (c : Nat) (f : Core → Core) (c' : Nat) : (s.modCore c f).ctx c' = s.ctx c' := rfl
@[simp] theorem State.modCore_rim_read (s : State) (c : Nat) (f : Core → Core) (c' : Nat) : (s.modCore c f).rim c' = s.rim c' := rfl
@[simp] theorem State.modCore_lct_read (s : State) (c : Nat) (f : Core → Core) (n' : Nat) : (s.modCore c f).lct n' = s.lct n' := rfl
@[simp] theorem State.modCore_phys_read (s : State) (c : Nat) (f : Core → Core) (n' : Nat) : (s.modCore c f).phys n' = s.phys n' := rfl
@[simp] theorem State.modCore_coreOf_read (s : State) (c : Nat) (f : Core → Core) (t' : Thread) : (s.modCore c f).coreOf t' = s.coreOf t' := rfl
@[simp] theorem State.modCluster_thread_read (s : State) (c : Nat) (f : Cluster → Cluster) (tid' : Nat) : (s.modCluster c f).thread? tid' = s.thread? tid' := rfl
@[simp] theorem State.modCluster_core_read (s : State) (c : Nat) (f : Cluster → Cluster) (c' : Nat) : (s.modCluster c f).core c' = s.core c' := rfl
@[simp] theorem State.modCluster_ctx_read (s : State) (c : Nat) (f : Cluster → Cluster) (c' : Nat) : (s.modCluster c f).ctx c' = s.ctx c' := rfl
@[simp] theorem State.modCluster_rim_read (s : State) (c : Nat) (f : Cluster → Cluster) (c' : Nat) : (s.modCluster c f).rim c' = s.rim c' := rfl
@[simp] theorem State.modCluster_tile_read (s : State) (c : Nat) (f : Cluster → Cluster) (l' : TileLoc) : (s.modCluster c f).tile l' = s.tile l' := rfl
@[simp] theorem State.modCtx_thread_read (s : State) (c : Nat) (f : Ctx → Ctx) (tid' : Nat) : (s.modCtx c f).thread? tid' = s.thread? tid' := rfl
@[simp] theorem State.modCtx_core_read (s : State) (c : Nat) (f : Ctx → Ctx) (c' : Nat) : (s.modCtx c f).core c' = s.core c' := rfl
@[simp] theorem State.modCtx_cluster_read (s : State) (c : Nat) (f : Ctx → Ctx) (c' : Nat) : (s.modCtx c f).cluster c' = s.cluster c' := rfl
@[simp] theorem State.modCtx_rim_read (s : State) (c : Nat) (f : Ctx → Ctx) (c' : Nat) : (s.modCtx c f).rim c' = s.rim c' := rfl
@[simp] theorem State.modCtx_tile_read (s : State) (c : Nat) (f : Ctx → Ctx) (l' : TileLoc) : (s.modCtx c f).tile l' = s.tile l' := rfl
@[simp] theorem State.modCtx_lct_read (s : State) (c : Nat) (f : Ctx → Ctx) (n' : Nat) : (s.modCtx c f).lct n' = s.lct n' := rfl
@[simp] theorem State.modCtx_phys_read (s : State) (c : Nat) (f : Ctx → Ctx) (n' : Nat) : (s.modCtx c f).phys n' = s.phys n' := rfl
@[simp] theorem State.modCtx_coreOf_read (s : State) (c : Nat) (f : Ctx → Ctx) (t' : Thread) : (s.modCtx c f).coreOf t' = s.coreOf t' := rfl
@[simp] theorem State.modRim_thread_read (s : State) (c : Nat) (f : Rim → Rim) (tid' : Nat) : (s.modRim c f).thread? tid' = s.thread? tid' := rfl
@[simp] theorem State.modRim_core_read (s : State) (c : Nat) (f : Rim → Rim) (c' : Nat) : (s.modRim c f).core c' = s.core c' := rfl
@[simp] theorem State.modRim_cluster_read (s : State) (c : Nat) (f : Rim → Rim) (c' : Nat) : (s.modRim c f).cluster c' = s.cluster c' := rfl
@[simp] theorem State.modRim_ctx_read (s : State) (c : Nat) (f : Rim → Rim) (c' : Nat) : (s.modRim c f).ctx c' = s.ctx c' := rfl
@[simp] theorem State.modRim_tile_read (s : State) (c : Nat) (f : Rim → Rim) (l' : TileLoc) : (s.modRim c f).tile l' = s.tile l' := rfl
@[simp] theorem State.modRim_lct_read (s : State) (c : Nat) (f : Rim → Rim) (n' : Nat) : (s.modRim c f).lct n' = s.lct n' := rfl
@[simp] theorem State.modRim_phys_read (s : State) (c : Nat) (f : Rim → Rim) (n' : Nat) : (s.modRim c f).phys n' = s.phys n' := rfl
@[simp] theorem State.modRim_coreOf_read (s : State) (c : Nat) (f : Rim → Rim) (t' : Thread) : (s.modRim c f).coreOf t' = s.coreOf t' := rfl
@[simp] theorem State.setTile_thread_read (s : State) (l : TileLoc) (t : Tile) (tid' : Nat) : (s.setTile l t).thread? tid' = s.thread? tid' := rfl
@[simp] theorem State.setTile_cluster_read (s : State) (l : TileLoc) (t : Tile) (c' : Nat) : (s.setTile l t).cluster c' = s.cluster c' := rfl
@[simp] theorem State.setTile_ctx_read (s : State) (l : TileLoc) (t : Tile) (c' : Nat) : (s.setTile l t).ctx c' = s.ctx c' := rfl
@[simp] theorem State.setTile_rim_read (s : State) (l : TileLoc) (t : Tile) (c' : Nat) : (s.setTile l t).rim c' = s.rim c' := rfl
@[simp] theorem State.setTile_lct_read (s : State) (l : TileLoc) (t : Tile) (n' : Nat) : (s.setTile l t).lct n' = s.lct n' := rfl
@[simp] theorem State.setTile_phys_read (s : State) (l : TileLoc) (t : Tile) (n' : Nat) : (s.setTile l t).phys n' = s.phys n' := rfl
@[simp] theorem State.setTile_coreOf_read (s : State) (l : TileLoc) (t : Tile) (t' : Thread) : (s.setTile l t).coreOf t' = s.coreOf t' := rfl
@[simp] theorem State.modTile_thread_read (s : State) (l : TileLoc) (f : Tile → Tile) (tid' : Nat) : (s.modTile l f).thread? tid' = s.thread? tid' := rfl
@[simp] theorem State.modTile_cluster_read (s : State) (l : TileLoc) (f : Tile → Tile) (c' : Nat) : (s.modTile l f).cluster c' = s.cluster c' := rfl
@[simp] theorem State.modTile_ctx_read (s : State) (l : TileLoc) (f : Tile → Tile) (c' : Nat) : (s.modTile l f).ctx c' = s.ctx c' := rfl
@[simp] theorem State.modTile_rim_read (s : State) (l : TileLoc) (f : Tile → Tile) (c' : Nat) : (s.modTile l f).rim c' = s.rim c' := rfl
@[simp] theorem State.modTile_lct_read (s : State) (l : TileLoc) (f : Tile → Tile) (n' : Nat) : (s.modTile l f).lct n' = s.lct n' := rfl
@[simp] theorem State.modTile_phys_read (s : State) (l : TileLoc) (f : Tile → Tile) (n' : Nat) : (s.modTile l f).phys n' = s.phys n' := rfl
@[simp] theorem State.modTile_coreOf_read (s : State) (l : TileLoc) (f : Tile → Tile) (t' : Thread) : (s.modTile l f).coreOf t' = s.coreOf t' := rfl
@[simp] theorem State.setLct_thread_read (s : State) (n : Nat) (e : LctEntry) (tid' : Nat) : (s.setLct n e).thread? tid' = s.thread? tid' := rfl
@[simp] theorem State.setLct_core_read (s : State) (n : Nat) (e : LctEntry) (c' : Nat) : (s.setLct n e).core c' = s.core c' := rfl
@[simp] theorem State.setLct_ctx_read (s : State) (n : Nat) (e : LctEntry) (c' : Nat) : (s.setLct n e).ctx c' = s.ctx c' := rfl
@[simp] theorem State.setLct_rim_read (s : State) (n : Nat) (e : LctEntry) (c' : Nat) : (s.setLct n e).rim c' = s.rim c' := rfl
@[simp] theorem State.setLct_tile_read (s : State) (n : Nat) (e : LctEntry) (l' : TileLoc) : (s.setLct n e).tile l' = s.tile l' := rfl
@[simp] theorem State.modThread_core_read (s : State) (tid : Nat) (f : Thread → Thread) (c' : Nat) : (s.modThread tid f).core c' = s.core c' := by
  unfold State.modThread; split <;> rfl
@[simp] theorem State.modThread_cluster_read (s : State) (tid : Nat) (f : Thread → Thread) (c' : Nat) : (s.modThread tid f).cluster c' = s.cluster c' := by
  unfold State.modThread; split <;> rfl
@[simp] theorem State.modThread_ctx_read (s : State) (tid : Nat) (f : Thread → Thread) (c' : Nat) : (s.modThread tid f).ctx c' = s.ctx c' := by
  unfold State.modThread; split <;> rfl
@[simp] theorem State.modThread_rim_read (s : State) (tid : Nat) (f : Thread → Thread) (c' : Nat) : (s.modThread tid f).rim c' = s.rim c' := by
  unfold State.modThread; split <;> rfl
@[simp] theorem State.modThread_tile_read (s : State) (tid : Nat) (f : Thread → Thread) (l' : TileLoc) : (s.modThread tid f).tile l' = s.tile l' := by
  unfold State.modThread; split <;> rfl
@[simp] theorem State.modThread_lct_read (s : State) (tid : Nat) (f : Thread → Thread) (n' : Nat) : (s.modThread tid f).lct n' = s.lct n' := by
  unfold State.modThread; split <;> rfl
@[simp] theorem State.modThread_phys_read (s : State) (tid : Nat) (f : Thread → Thread) (n' : Nat) : (s.modThread tid f).phys n' = s.phys n' := by
  unfold State.modThread; split <;> rfl
@[simp] theorem State.modThread_coreOf_read (s : State) (tid : Nat) (f : Thread → Thread) (t' : Thread) : (s.modThread tid f).coreOf t' = s.coreOf t' := by
  unfold State.modThread; split <;> rfl

/-! ## Reads after writes -/

theorem State.core_setCore (s : State) (c : Nat) (k : Core) (n : Nat) : (s.setCore c k).core n = if n = c then k else s.core n := by
  simp [State.core, State.setCore, tgetD_tset]
@[simp] theorem State.core_setCore_same (s : State) (c : Nat) (k : Core) : (s.setCore c k).core c = k := by
  simp [State.core_setCore]
theorem State.core_modCore (s : State) (c : Nat) (f : Core → Core) (n : Nat) : (s.modCore c f).core n = if n = c then f (s.core c) else s.core n := by
  simp [State.modCore, State.core_setCore]
@[simp] theorem State.core_modCore_same (s : State) (c : Nat) (f : Core → Core) : (s.modCore c f).core c = f (s.core c) := by
  simp [State.core_modCore]
theorem State.cluster_setCluster (s : State) (c : Nat) (k : Cluster) (n : Nat) : (s.setCluster c k).cluster n = if n = c then k else s.cluster n := by
  simp [State.cluster, State.setCluster, tgetD_tset]
@[simp] theorem State.cluster_setCluster_same (s : State) (c : Nat) (k : Cluster) : (s.setCluster c k).cluster c = k := by
  simp [State.cluster_setCluster]
theorem State.cluster_modCluster (s : State) (c : Nat) (f : Cluster → Cluster) (n : Nat) : (s.modCluster c f).cluster n = if n = c then f (s.cluster c) else s.cluster n := by
  simp [State.modCluster, State.cluster_setCluster]
@[simp] theorem State.cluster_modCluster_same (s : State) (c : Nat) (f : Cluster → Cluster) : (s.modCluster c f).cluster c = f (s.cluster c) := by
  simp [State.cluster_modCluster]
theorem State.ctx_setCtx (s : State) (c : Nat) (k : Ctx) (n : Nat) : (s.setCtx c k).ctx n = if n = c then k else s.ctx n := by
  simp [State.ctx, State.setCtx, tgetD_tset]
@[simp] theorem State.ctx_setCtx_same (s : State) (c : Nat) (k : Ctx) : (s.setCtx c k).ctx c = k := by
  simp [State.ctx_setCtx]
theorem State.ctx_modCtx (s : State) (c : Nat) (f : Ctx → Ctx) (n : Nat) : (s.modCtx c f).ctx n = if n = c then f (s.ctx c) else s.ctx n := by
  simp [State.modCtx, State.ctx_setCtx]
@[simp] theorem State.ctx_modCtx_same (s : State) (c : Nat) (f : Ctx → Ctx) : (s.modCtx c f).ctx c = f (s.ctx c) := by
  simp [State.ctx_modCtx]
theorem State.rim_setRim (s : State) (c : Nat) (k : Rim) (n : Nat) : (s.setRim c k).rim n = if n = c then k else s.rim n := by
  simp [State.rim, State.setRim, tgetD_tset]
@[simp] theorem State.rim_setRim_same (s : State) (c : Nat) (k : Rim) : (s.setRim c k).rim c = k := by
  simp [State.rim_setRim]
theorem State.rim_modRim (s : State) (c : Nat) (f : Rim → Rim) (n : Nat) : (s.modRim c f).rim n = if n = c then f (s.rim c) else s.rim n := by
  simp [State.modRim, State.rim_setRim]
@[simp] theorem State.rim_modRim_same (s : State) (c : Nat) (f : Rim → Rim) : (s.modRim c f).rim c = f (s.rim c) := by
  simp [State.rim_modRim]

/-- The record of a thread after a write of a record. -/
theorem State.thread_setThread (s : State) (tid : Nat) (t : Thread) (n : Nat) :
    (s.setThread tid t).thread? n = if n = tid then some t else s.thread? n := by
  simp [State.thread?, State.setThread, tget_tset]

@[simp] theorem State.setThread_setThread (s : State) (tid : Nat) (t u : Thread) :
    (s.setThread tid t).setThread tid u = s.setThread tid u := by
  simp [State.setThread]

@[simp] theorem State.thread_setThread_same (s : State) (tid : Nat) (t : Thread) :
    (s.setThread tid t).thread? tid = some t := by
  simp [State.thread_setThread]

/-- The record of a thread after a change of a record. -/
theorem State.thread_modThread (s : State) (tid : Nat) (f : Thread → Thread) (n : Nat) :
    (s.modThread tid f).thread? n = if n = tid then (s.thread? tid).map f else s.thread? n := by
  unfold State.modThread
  cases h : s.thread? tid with
  | none => by_cases hn : n = tid <;> simp [hn, h]
  | some t => simp [State.thread_setThread]

@[simp] theorem State.thread_modThread_same (s : State) (tid : Nat) (f : Thread → Thread) :
    (s.modThread tid f).thread? tid = (s.thread? tid).map f := by
  simp [State.thread_modThread]

theorem State.modThread_some {s : State} {tid : Nat} {t : Thread} (f : Thread → Thread) (h : s.thread? tid = some t) :
    s.modThread tid f = s.setThread tid (f t) := by
  simp [State.modThread, h]

theorem State.modThread_none {s : State} {tid : Nat} (f : Thread → Thread) (h : s.thread? tid = none) :
    s.modThread tid f = s := by
  simp [State.modThread, h]

/-- The handle just written. -/
@[simp] theorem State.handle_setHandle_same (s : State) (cl h : Nat) (x : Handle) : (s.setHandle cl h x).handle? cl h = some x := by
  simp [State.handle?, State.setHandle]

/-- The launch just written. -/
@[simp] theorem State.launch_setLaunch_same (s : State) (cl h : Nat) (x : Launch) : (s.setLaunch cl h x).launch? cl h = some x := by
  simp [State.launch?, State.setLaunch]

/-- The table entry just written. -/
@[simp] theorem State.lct_setLct_same (s : State) (n : Nat) (e : LctEntry) : (s.setLct n e).lct n = e := by
  simp [State.lct, State.setLct]

/-- The tile just written. -/
@[simp] theorem State.tile_setTile_same (s : State) (l : TileLoc) (t : Tile) : (s.setTile l t).tile l = t := by
  simp [State.tile, State.setTile]

/-- The tile just changed. -/
@[simp] theorem State.tile_modTile_same (s : State) (l : TileLoc) (f : Tile → Tile) : (s.modTile l f).tile l = f (s.tile l) := by
  simp [State.modTile]

/-! ## Registers -/

@[simp] theorem readG_zero (t : Thread) : readG t 0#5 = 0#64 := by
  simp [readG]

@[simp] theorem writeG_zero (t : Thread) (x : Word) : writeG t 0#5 x = t := by
  simp [writeG]

/-- A g register after a write of a g register. -/
theorem readG_writeG (t : Thread) (r r' : GReg) (x : Word) :
    readG (writeG t r x) r' = if r' = r ∧ r ≠ 0 then x else readG t r' := by
  by_cases hr : r = 0
  · subst hr; simp
  · by_cases he : r' = r
    · subst he
      have h0 : ¬ r' = (0 : BitVec 5) := hr
      simp only [readG, writeG, if_neg h0, true_and, if_pos (show ¬ r' = 0 from hr), ne_eq]
      simp
    · have hn : r.toNat ≠ r'.toNat := fun h => he (BitVec.eq_of_toNat_eq h.symm)
      simp only [readG, writeG, if_neg hr, he, false_and, if_false]
      simp [Vector.getElem_set_ne, hn]

@[simp] theorem writeG_v (t : Thread) (r : GReg) (x : Word) : (writeG t r x).v = t.v := by
  unfold writeG; split <;> rfl
@[simp] theorem writeG_k (t : Thread) (r : GReg) (x : Word) : (writeG t r x).k = t.k := by
  unfold writeG; split <;> rfl
@[simp] theorem writeG_ch (t : Thread) (r : GReg) (x : Word) : (writeG t r x).ch = t.ch := by
  unfold writeG; split <;> rfl
@[simp] theorem writeG_pc (t : Thread) (r : GReg) (x : Word) : (writeG t r x).pc = t.pc := by
  unfold writeG; split <;> rfl
@[simp] theorem writeG_status (t : Thread) (r : GReg) (x : Word) : (writeG t r x).status = t.status := by
  unfold writeG; split <;> rfl
@[simp] theorem writeG_tcause (t : Thread) (r : GReg) (x : Word) : (writeG t r x).tcause = t.tcause := by
  unfold writeG; split <;> rfl
@[simp] theorem writeG_tvalue (t : Thread) (r : GReg) (x : Word) : (writeG t r x).tvalue = t.tvalue := by
  unfold writeG; split <;> rfl
@[simp] theorem writeG_tvec (t : Thread) (r : GReg) (x : Word) : (writeG t r x).tvec = t.tvec := by
  unfold writeG; split <;> rfl
@[simp] theorem writeG_tpc (t : Thread) (r : GReg) (x : Word) : (writeG t r x).tpc = t.tpc := by
  unfold writeG; split <;> rfl
@[simp] theorem writeG_slice (t : Thread) (r : GReg) (x : Word) : (writeG t r x).slice = t.slice := by
  unfold writeG; split <;> rfl
@[simp] theorem writeG_histSel (t : Thread) (r : GReg) (x : Word) : (writeG t r x).histSel = t.histSel := by
  unfold writeG; split <;> rfl
@[simp] theorem writeG_watchAddr (t : Thread) (r : GReg) (x : Word) : (writeG t r x).watchAddr = t.watchAddr := by
  unfold writeG; split <;> rfl
@[simp] theorem writeG_watchMask (t : Thread) (r : GReg) (x : Word) : (writeG t r x).watchMask = t.watchMask := by
  unfold writeG; split <;> rfl
@[simp] theorem writeG_xreqOrdinal (t : Thread) (r : GReg) (x : Word) : (writeG t r x).xreqOrdinal = t.xreqOrdinal := by
  unfold writeG; split <;> rfl
@[simp] theorem writeG_ctx (t : Thread) (r : GReg) (x : Word) : (writeG t r x).ctx = t.ctx := by
  unfold writeG; split <;> rfl
@[simp] theorem writeG_lcore (t : Thread) (r : GReg) (x : Word) : (writeG t r x).lcore = t.lcore := by
  unfold writeG; split <;> rfl
@[simp] theorem writeG_seat (t : Thread) (r : GReg) (x : Word) : (writeG t r x).seat = t.seat := by
  unfold writeG; split <;> rfl
@[simp] theorem writeG_run (t : Thread) (r : GReg) (x : Word) : (writeG t r x).run = t.run := by
  unfold writeG; split <;> rfl
@[simp] theorem writeG_waitedSlots (t : Thread) (r : GReg) (x : Word) : (writeG t r x).waitedSlots = t.waitedSlots := by
  unfold writeG; split <;> rfl
@[simp] theorem writeG_waitLeft (t : Thread) (r : GReg) (x : Word) : (writeG t r x).waitLeft = t.waitLeft := by
  unfold writeG; split <;> rfl
@[simp] theorem writeG_waitArmed (t : Thread) (r : GReg) (x : Word) : (writeG t r x).waitArmed = t.waitArmed := by
  unfold writeG; split <;> rfl
@[simp] theorem writeG_readySince (t : Thread) (r : GReg) (x : Word) : (writeG t r x).readySince = t.readySince := by
  unfold writeG; split <;> rfl
@[simp] theorem writeG_reports (t : Thread) (r : GReg) (x : Word) : (writeG t r x).reports = t.reports := by
  unfold writeG; split <;> rfl
@[simp] theorem writeG_sliceDue (t : Thread) (r : GReg) (x : Word) : (writeG t r x).sliceDue = t.sliceDue := by
  unfold writeG; split <;> rfl
@[simp] theorem writeG_remotePending (t : Thread) (r : GReg) (x : Word) : (writeG t r x).remotePending = t.remotePending := by
  unfold writeG; split <;> rfl
@[simp] theorem writeG_lastRemoteFault (t : Thread) (r : GReg) (x : Word) : (writeG t r x).lastRemoteFault = t.lastRemoteFault := by
  unfold writeG; split <;> rfl
@[simp] theorem writeG_queue (t : Thread) (r : GReg) (x : Word) : (writeG t r x).queue = t.queue := by
  unfold writeG; split <;> rfl
@[simp] theorem writeG_migrateTo (t : Thread) (r : GReg) (x : Word) : (writeG t r x).migrateTo = t.migrateTo := by
  unfold writeG; split <;> rfl

/-! ## Reads of one kind of record after a write of another -/

@[simp] theorem State.core_setThread (s : State) (i : Nat) (t : Thread) (n : Nat) : (s.setThread i t).core n = s.core n := by
  unfold State.core; simp

@[simp] theorem State.core_modThread (s : State) (i : Nat) (f : Thread → Thread) (n : Nat) : (s.modThread i f).core n = s.core n := by
  unfold State.core; simp

@[simp] theorem State.core_setCluster (s : State) (c : Nat) (k : Cluster) (n : Nat) : (s.setCluster c k).core n = s.core n := by
  unfold State.core; simp

@[simp] theorem State.core_modCluster (s : State) (c : Nat) (f : Cluster → Cluster) (n : Nat) : (s.modCluster c f).core n = s.core n := by
  unfold State.core; simp

@[simp] theorem State.core_setHandle (s : State) (cl h : Nat) (x : Handle) (n : Nat) : (s.setHandle cl h x).core n = s.core n := by
  unfold State.core; simp

@[simp] theorem State.core_setLaunch (s : State) (cl h : Nat) (x : Launch) (n : Nat) : (s.setLaunch cl h x).core n = s.core n := by
  unfold State.core; simp

@[simp] theorem State.core_setCtx (s : State) (c : Nat) (k : Ctx) (n : Nat) : (s.setCtx c k).core n = s.core n := by
  unfold State.core; simp

@[simp] theorem State.core_modCtx (s : State) (c : Nat) (f : Ctx → Ctx) (n : Nat) : (s.modCtx c f).core n = s.core n := by
  unfold State.core; simp

@[simp] theorem State.core_setRim (s : State) (c : Nat) (k : Rim) (n : Nat) : (s.setRim c k).core n = s.core n := by
  unfold State.core; simp

@[simp] theorem State.core_modRim (s : State) (c : Nat) (f : Rim → Rim) (n : Nat) : (s.modRim c f).core n = s.core n := by
  unfold State.core; simp

@[simp] theorem State.cluster_setCore (s : State) (c : Nat) (k : Core) (n : Nat) : (s.setCore c k).cluster n = s.cluster n := by
  unfold State.cluster; simp

@[simp] theorem State.cluster_modCore (s : State) (c : Nat) (f : Core → Core) (n : Nat) : (s.modCore c f).cluster n = s.cluster n := by
  unfold State.cluster; simp

@[simp] theorem State.cluster_setTile (s : State) (l : TileLoc) (t : Tile) (n : Nat) : (s.setTile l t).cluster n = s.cluster n := by
  unfold State.cluster; simp

@[simp] theorem State.cluster_modTile (s : State) (l : TileLoc) (f : Tile → Tile) (n : Nat) : (s.modTile l f).cluster n = s.cluster n := by
  unfold State.cluster; simp

@[simp] theorem State.cluster_setThread (s : State) (i : Nat) (t : Thread) (n : Nat) : (s.setThread i t).cluster n = s.cluster n := by
  unfold State.cluster; simp

@[simp] theorem State.cluster_modThread (s : State) (i : Nat) (f : Thread → Thread) (n : Nat) : (s.modThread i f).cluster n = s.cluster n := by
  unfold State.cluster; simp

@[simp] theorem State.cluster_setCtx (s : State) (c : Nat) (k : Ctx) (n : Nat) : (s.setCtx c k).cluster n = s.cluster n := by
  unfold State.cluster; simp

@[simp] theorem State.cluster_modCtx (s : State) (c : Nat) (f : Ctx → Ctx) (n : Nat) : (s.modCtx c f).cluster n = s.cluster n := by
  unfold State.cluster; simp

@[simp] theorem State.cluster_setRim (s : State) (c : Nat) (k : Rim) (n : Nat) : (s.setRim c k).cluster n = s.cluster n := by
  unfold State.cluster; simp

@[simp] theorem State.cluster_modRim (s : State) (c : Nat) (f : Rim → Rim) (n : Nat) : (s.modRim c f).cluster n = s.cluster n := by
  unfold State.cluster; simp

@[simp] theorem State.ctx_setCore (s : State) (c : Nat) (k : Core) (n : Nat) : (s.setCore c k).ctx n = s.ctx n := by
  unfold State.ctx; simp

@[simp] theorem State.ctx_modCore (s : State) (c : Nat) (f : Core → Core) (n : Nat) : (s.modCore c f).ctx n = s.ctx n := by
  unfold State.ctx; simp

@[simp] theorem State.ctx_setTile (s : State) (l : TileLoc) (t : Tile) (n : Nat) : (s.setTile l t).ctx n = s.ctx n := by
  unfold State.ctx; simp

@[simp] theorem State.ctx_modTile (s : State) (l : TileLoc) (f : Tile → Tile) (n : Nat) : (s.modTile l f).ctx n = s.ctx n := by
  unfold State.ctx; simp

@[simp] theorem State.ctx_setThread (s : State) (i : Nat) (t : Thread) (n : Nat) : (s.setThread i t).ctx n = s.ctx n := by
  unfold State.ctx; simp

@[simp] theorem State.ctx_modThread (s : State) (i : Nat) (f : Thread → Thread) (n : Nat) : (s.modThread i f).ctx n = s.ctx n := by
  unfold State.ctx; simp

@[simp] theorem State.ctx_setCluster (s : State) (c : Nat) (k : Cluster) (n : Nat) : (s.setCluster c k).ctx n = s.ctx n := by
  unfold State.ctx; simp

@[simp] theorem State.ctx_modCluster (s : State) (c : Nat) (f : Cluster → Cluster) (n : Nat) : (s.modCluster c f).ctx n = s.ctx n := by
  unfold State.ctx; simp

@[simp] theorem State.ctx_setHandle (s : State) (cl h : Nat) (x : Handle) (n : Nat) : (s.setHandle cl h x).ctx n = s.ctx n := by
  unfold State.ctx; simp

@[simp] theorem State.ctx_setLaunch (s : State) (cl h : Nat) (x : Launch) (n : Nat) : (s.setLaunch cl h x).ctx n = s.ctx n := by
  unfold State.ctx; simp

@[simp] theorem State.ctx_setRim (s : State) (c : Nat) (k : Rim) (n : Nat) : (s.setRim c k).ctx n = s.ctx n := by
  unfold State.ctx; simp

@[simp] theorem State.ctx_modRim (s : State) (c : Nat) (f : Rim → Rim) (n : Nat) : (s.modRim c f).ctx n = s.ctx n := by
  unfold State.ctx; simp

@[simp] theorem State.tile_setThread (s : State) (i : Nat) (t : Thread) (n : TileLoc) : (s.setThread i t).tile n = s.tile n := by
  unfold State.tile; simp

@[simp] theorem State.tile_modThread (s : State) (i : Nat) (f : Thread → Thread) (n : TileLoc) : (s.modThread i f).tile n = s.tile n := by
  unfold State.tile; simp

@[simp] theorem State.tile_setCluster (s : State) (c : Nat) (k : Cluster) (n : TileLoc) : (s.setCluster c k).tile n = s.tile n := by
  unfold State.tile; simp

@[simp] theorem State.tile_modCluster (s : State) (c : Nat) (f : Cluster → Cluster) (n : TileLoc) : (s.modCluster c f).tile n = s.tile n := by
  unfold State.tile; simp

@[simp] theorem State.tile_setHandle (s : State) (cl h : Nat) (x : Handle) (n : TileLoc) : (s.setHandle cl h x).tile n = s.tile n := by
  unfold State.tile; simp

@[simp] theorem State.tile_setLaunch (s : State) (cl h : Nat) (x : Launch) (n : TileLoc) : (s.setLaunch cl h x).tile n = s.tile n := by
  unfold State.tile; simp

@[simp] theorem State.tile_setCtx (s : State) (c : Nat) (k : Ctx) (n : TileLoc) : (s.setCtx c k).tile n = s.tile n := by
  unfold State.tile; simp

@[simp] theorem State.tile_modCtx (s : State) (c : Nat) (f : Ctx → Ctx) (n : TileLoc) : (s.modCtx c f).tile n = s.tile n := by
  unfold State.tile; simp

@[simp] theorem State.tile_setRim (s : State) (c : Nat) (k : Rim) (n : TileLoc) : (s.setRim c k).tile n = s.tile n := by
  unfold State.tile; simp

@[simp] theorem State.tile_modRim (s : State) (c : Nat) (f : Rim → Rim) (n : TileLoc) : (s.modRim c f).tile n = s.tile n := by
  unfold State.tile; simp

@[simp] theorem State.thread_setCore (s : State) (c : Nat) (k : Core) (n : Nat) : (s.setCore c k).thread? n = s.thread? n := by
  unfold State.thread?; simp

@[simp] theorem State.thread_modCore (s : State) (c : Nat) (f : Core → Core) (n : Nat) : (s.modCore c f).thread? n = s.thread? n := by
  unfold State.thread?; simp

@[simp] theorem State.thread_setTile (s : State) (l : TileLoc) (t : Tile) (n : Nat) : (s.setTile l t).thread? n = s.thread? n := by
  unfold State.thread?; simp

@[simp] theorem State.thread_modTile (s : State) (l : TileLoc) (f : Tile → Tile) (n : Nat) : (s.modTile l f).thread? n = s.thread? n := by
  unfold State.thread?; simp

@[simp] theorem State.thread_setCluster (s : State) (c : Nat) (k : Cluster) (n : Nat) : (s.setCluster c k).thread? n = s.thread? n := by
  unfold State.thread?; simp

@[simp] theorem State.thread_modCluster (s : State) (c : Nat) (f : Cluster → Cluster) (n : Nat) : (s.modCluster c f).thread? n = s.thread? n := by
  unfold State.thread?; simp

@[simp] theorem State.thread_setHandle (s : State) (cl h : Nat) (x : Handle) (n : Nat) : (s.setHandle cl h x).thread? n = s.thread? n := by
  unfold State.thread?; simp

@[simp] theorem State.thread_setLaunch (s : State) (cl h : Nat) (x : Launch) (n : Nat) : (s.setLaunch cl h x).thread? n = s.thread? n := by
  unfold State.thread?; simp

@[simp] theorem State.thread_setCtx (s : State) (c : Nat) (k : Ctx) (n : Nat) : (s.setCtx c k).thread? n = s.thread? n := by
  unfold State.thread?; simp

@[simp] theorem State.thread_modCtx (s : State) (c : Nat) (f : Ctx → Ctx) (n : Nat) : (s.modCtx c f).thread? n = s.thread? n := by
  unfold State.thread?; simp

@[simp] theorem State.thread_setRim (s : State) (c : Nat) (k : Rim) (n : Nat) : (s.setRim c k).thread? n = s.thread? n := by
  unfold State.thread?; simp

@[simp] theorem State.thread_modRim (s : State) (c : Nat) (f : Rim → Rim) (n : Nat) : (s.modRim c f).thread? n = s.thread? n := by
  unfold State.thread?; simp

@[simp] theorem State.handle_setCore (s : State) (c : Nat) (k : Core) (n m : Nat) : (s.setCore c k).handle? n m = s.handle? n m := by
  unfold State.handle?; simp

@[simp] theorem State.handle_modCore (s : State) (c : Nat) (f : Core → Core) (n m : Nat) : (s.modCore c f).handle? n m = s.handle? n m := by
  unfold State.handle?; simp

@[simp] theorem State.handle_setTile (s : State) (l : TileLoc) (t : Tile) (n m : Nat) : (s.setTile l t).handle? n m = s.handle? n m := by
  unfold State.handle?; simp

@[simp] theorem State.handle_modTile (s : State) (l : TileLoc) (f : Tile → Tile) (n m : Nat) : (s.modTile l f).handle? n m = s.handle? n m := by
  unfold State.handle?; simp

@[simp] theorem State.handle_setThread (s : State) (i : Nat) (t : Thread) (n m : Nat) : (s.setThread i t).handle? n m = s.handle? n m := by
  unfold State.handle?; simp

@[simp] theorem State.handle_modThread (s : State) (i : Nat) (f : Thread → Thread) (n m : Nat) : (s.modThread i f).handle? n m = s.handle? n m := by
  unfold State.handle?; simp

@[simp] theorem State.handle_setCtx (s : State) (c : Nat) (k : Ctx) (n m : Nat) : (s.setCtx c k).handle? n m = s.handle? n m := by
  unfold State.handle?; simp

@[simp] theorem State.handle_modCtx (s : State) (c : Nat) (f : Ctx → Ctx) (n m : Nat) : (s.modCtx c f).handle? n m = s.handle? n m := by
  unfold State.handle?; simp

@[simp] theorem State.handle_setRim (s : State) (c : Nat) (k : Rim) (n m : Nat) : (s.setRim c k).handle? n m = s.handle? n m := by
  unfold State.handle?; simp

@[simp] theorem State.handle_modRim (s : State) (c : Nat) (f : Rim → Rim) (n m : Nat) : (s.modRim c f).handle? n m = s.handle? n m := by
  unfold State.handle?; simp

@[simp] theorem State.launch_setCore (s : State) (c : Nat) (k : Core) (n m : Nat) : (s.setCore c k).launch? n m = s.launch? n m := by
  unfold State.launch?; simp

@[simp] theorem State.launch_modCore (s : State) (c : Nat) (f : Core → Core) (n m : Nat) : (s.modCore c f).launch? n m = s.launch? n m := by
  unfold State.launch?; simp

@[simp] theorem State.launch_setTile (s : State) (l : TileLoc) (t : Tile) (n m : Nat) : (s.setTile l t).launch? n m = s.launch? n m := by
  unfold State.launch?; simp

@[simp] theorem State.launch_modTile (s : State) (l : TileLoc) (f : Tile → Tile) (n m : Nat) : (s.modTile l f).launch? n m = s.launch? n m := by
  unfold State.launch?; simp

@[simp] theorem State.launch_setThread (s : State) (i : Nat) (t : Thread) (n m : Nat) : (s.setThread i t).launch? n m = s.launch? n m := by
  unfold State.launch?; simp

@[simp] theorem State.launch_modThread (s : State) (i : Nat) (f : Thread → Thread) (n m : Nat) : (s.modThread i f).launch? n m = s.launch? n m := by
  unfold State.launch?; simp

@[simp] theorem State.launch_setCtx (s : State) (c : Nat) (k : Ctx) (n m : Nat) : (s.setCtx c k).launch? n m = s.launch? n m := by
  unfold State.launch?; simp

@[simp] theorem State.launch_modCtx (s : State) (c : Nat) (f : Ctx → Ctx) (n m : Nat) : (s.modCtx c f).launch? n m = s.launch? n m := by
  unfold State.launch?; simp

@[simp] theorem State.launch_setRim (s : State) (c : Nat) (k : Rim) (n m : Nat) : (s.setRim c k).launch? n m = s.launch? n m := by
  unfold State.launch?; simp

@[simp] theorem State.launch_modRim (s : State) (c : Nat) (f : Rim → Rim) (n m : Nat) : (s.modRim c f).launch? n m = s.launch? n m := by
  unfold State.launch?; simp

@[simp] theorem State.handle_setLaunch (s : State) (cl h : Nat) (x : Launch) (n m : Nat) :
    (s.setLaunch cl h x).handle? n m = s.handle? n m := by
  simp only [State.handle?, State.setLaunch, State.cluster_modCluster]
  split
  · rename_i e; rw [e]
  · rfl

@[simp] theorem State.launch_setHandle (s : State) (cl h : Nat) (x : Handle) (n m : Nat) :
    (s.setHandle cl h x).launch? n m = s.launch? n m := by
  simp only [State.launch?, State.setHandle, State.cluster_modCluster]
  split
  · rename_i e; rw [e]
  · rfl

end Sys2Proof.Machine
end

