-- ==== Sys2Proof/Laws/Ops.lean ====
section
/-! SUPPORT. What each shared operation can do, said once: completing an instruction, trapping, waiting. -/

namespace Sys2Proof.Machine

open Sys2Proof

/-! ## The charge of a queue -/

/-- A charge changes no thread. -/
@[simp] theorem chargeQueue_thread (s : State) (t : Thread) (n : Nat) : (chargeQueue s t).thread? n = s.thread? n := by
  unfold chargeQueue; split <;> rfl

@[simp] theorem chargeQueue_cur (s : State) (t : Thread) : (chargeQueue s t).cur = s.cur := by
  unfold chargeQueue; split <;> rfl

@[simp] theorem chargeQueue_threads (s : State) (t : Thread) : (chargeQueue s t).threads = s.threads := by
  unfold chargeQueue; split <;> rfl

/-- A charge changes one field of one cluster. -/
theorem chargeQueue_frame (s : State) (t : Thread) : chargeQueue s t = { s with clusters := (chargeQueue s t).clusters } := by
  unfold chargeQueue; split <;> rfl

/-- A charge leaves everything of a cluster but its deficits. -/
theorem chargeQueue_cluster (s : State) (t : Thread) (c : Nat) :
    { (chargeQueue s t).cluster c with deficits := [] } = { s.cluster c with deficits := [] } := by
  unfold chargeQueue
  split
  · rfl
  · rw [State.cluster_modCluster]
    split
    · rename_i h; subst h; rfl
    · rfl

/-! ## Agreement but for one thread -/

@[simp] theorem chargeQueue_mem (s : State) (t : Thread) : (chargeQueue s t).mem = s.mem := by rw [chargeQueue_frame]
@[simp] theorem chargeQueue_cores (s : State) (t : Thread) : (chargeQueue s t).cores = s.cores := by rw [chargeQueue_frame]
@[simp] theorem chargeQueue_fabric (s : State) (t : Thread) : (chargeQueue s t).fabric = s.fabric := by rw [chargeQueue_frame]
@[simp] theorem chargeQueue_core (s : State) (t : Thread) (n : Nat) : (chargeQueue s t).core n = s.core n := by
  unfold State.core; rw [chargeQueue_cores]
@[simp] theorem chargeQueue_tile (s : State) (t : Thread) (l : TileLoc) : (chargeQueue s t).tile l = s.tile l := by
  unfold State.tile; rw [chargeQueue_core]

@[simp] theorem chargeQueue_handle (s : State) (t : Thread) (cl h : Nat) : (chargeQueue s t).handle? cl h = s.handle? cl h := by
  have := congrArg Cluster.handles (chargeQueue_cluster s t cl)
  unfold State.handle?
  exact congrArg (tget · h) this

@[simp] theorem chargeQueue_launch (s : State) (t : Thread) (cl h : Nat) : (chargeQueue s t).launch? cl h = s.launch? cl h := by
  have := congrArg Cluster.launches (chargeQueue_cluster s t cl)
  unfold State.launch?
  exact congrArg (tget · h) this

theorem AgreeBut.refl (tid : Nat) (s : State) : AgreeBut tid s s := ⟨fun _ _ => rfl, fun _ => rfl, rfl⟩

/-- Writing the thread's own record, then the charge. -/
theorem AgreeBut.setThread (tid : Nat) (s : State) (x t : Thread) : AgreeBut tid s (chargeQueue (s.setThread tid x) t) := by
  refine ⟨fun n h => ?_, fun c => ?_, ?_⟩
  · simp [State.thread_setThread, h]
  · rw [chargeQueue_cluster]; simp
  · rw [chargeQueue_frame]; rfl

/-- Changing the thread's own record, then the charge. -/
theorem AgreeBut.modThread (tid : Nat) (s : State) (f : Thread → Thread) (t : Thread) :
    AgreeBut tid s (chargeQueue (s.modThread tid f) t) := by
  refine ⟨fun n h => ?_, fun c => ?_, ?_⟩
  · simp [State.thread_modThread, h]
  · rw [chargeQueue_cluster]; simp
  · rw [chargeQueue_frame]
    unfold State.modThread
    split <;> rfl

/-! ## Completing -/

/-- An instruction that completes without a trap after it: the thread's record and the charge. -/
theorem finish_eq {tid : Nat} {t : Thread} {e : Effect} (h : afterTrap t e = none) :
    finish tid t e = chargeQueue (e.state.modThread tid fun x => advance (e.regs x) e.pc) t := by
  simp [finish, h]

/-- A trap that follows a completed instruction (R138). -/
theorem finish_after {tid : Nat} {t : Thread} {e : Effect} {c : Cause} {v : Word} {w : Bool} (h : afterTrap t e = some (c, v, w)) :
    finish tid t e = takeTrap (chargeQueue (e.state.modThread tid fun x => advance (e.regs x) e.pc) t) tid c v w := by
  simp [finish, h]

/-- An effect on registers alone has no trap after it. -/
@[simp] theorem afterTrap_onRegs (t t' : Thread) (s : State) (f : Thread → Thread) : afterTrap t (Effect.onRegs s t' f) = none := rfl

/-- `perform` completes when the instruction does. -/
theorem perform_ok {s : State} {t : Thread} {f : State → Thread → Except Stop Effect} {e : Effect} (ht : s.thread? s.cur = some t)
    (hf : f s t = .ok e) : perform s f = .next (finish s.cur t e) := by
  simp [perform, ht, hf]

/-- `perform` traps when the instruction does. -/
theorem perform_trap {s : State} {t : Thread} {f : State → Thread → Except Stop Effect} {c : Cause} {v : Word}
    (ht : s.thread? s.cur = some t) (hf : f s t = .error (.trap c v)) : perform s f = .next (takeTrap s s.cur c v false) := by
  simp [perform, ht, hf]

/-- `perform` waits when the instruction does. -/
theorem perform_wait {s : State} {t : Thread} {f : State → Thread → Except Stop Effect} {r : WaitReason} {s1 : State}
    (ht : s.thread? s.cur = some t) (hf : f s t = .error (.wait r s1)) :
    perform s f = .next (s1.modThread s.cur fun x => { x with run := .waiting r, waitedSlots := 0 }) := by
  simp [perform, ht, hf]

/-- The way to `Completes`: the instruction is a `perform` that completes, and no trap follows. -/
theorem completes_of_perform {s : State} {t : Thread} {i : Instr} {f : State → Thread → Except Stop Effect} {e : Effect}
    (hi : exec i s = perform s f) (ht : Issues s t) (hf : f s t = .ok e) (ha : afterTrap t e = none) :
    Completes s i e.state e.regs e.pc := by
  refine ⟨_, hi.trans (perform_ok ht hf), ?_, ?_⟩
  · simp [finish_eq ha]
  · rw [finish_eq ha]; exact AgreeBut.modThread _ _ _ _

/-- A meaning that answers with an effect and no warning completes with it. -/
theorem completes_of_effect {s : State} {t : Thread} {i : Instr} {f : State → Thread → Except Stop Effect} {s1 : State}
    {g : Thread → Thread} {pc : Word} (hi : exec i s = perform s f) (ht : Issues s t)
    (hf : f s t = .ok { state := s1, regs := g, pc := pc, watch := none, after := none }) : Completes s i s1 g pc :=
  completes_of_perform hi ht hf rfl

/-- The way to `Completes` for an instruction that only computes in registers. -/
theorem completes_of_regStep {s : State} {t : Thread} {i : Instr} {f : Thread → Thread} (hi : exec i s = regStep s f)
    (ht : Issues s t) : Completes s i s (fun _ => f t) (t.pc + 4) := by
  have ht' : s.thread? s.cur = some t := ht
  refine ⟨_, hi.trans (by simp only [regStep, ht']; rfl), ?_, ?_⟩
  · simp [ht', seqPc]
  · exact AgreeBut.setThread _ _ _ _

/-- The way to `Completes` for a branch. -/
theorem completes_of_branchStep {s : State} {t : Thread} {i : Instr} {f : Thread → Thread} {g : Thread → Word}
    (hi : exec i s = branchStep s f g) (ht : Issues s t) : Completes s i s (fun _ => f t) (g t) := by
  have ht' : s.thread? s.cur = some t := ht
  refine ⟨_, hi.trans (by simp only [branchStep, ht']; rfl), ?_, ?_⟩
  · simp [ht']
  · exact AgreeBut.setThread _ _ _ _

/-- Only the value of the change at the thread's own record counts. -/
theorem Completes.congr {s : State} {t : Thread} {i : Instr} {s1 : State} {f g : Thread → Thread} {pc : Word}
    (h : Completes s i s1 f pc) (ht : s1.thread? s.cur = some t) (hfg : f t = g t) : Completes s i s1 g pc := by
  obtain ⟨s', h1, h2, h3⟩ := h
  refine ⟨s', h1, ?_, h3⟩
  simp [h2, ht, hfg]

/-! ## Trapping -/

/-- A precise trap outside a handler is taken (R138). -/
theorem takeTrap_outside {s : State} {tid : Nat} {t : Thread} (ht : s.thread? tid = some t) (hn : t.inTrap = false) (c : Cause)
    (v : Word) (w : Bool) : takeTrap s tid c v w = s.setThread tid (enterTrap t c v t.pc true w 0) := by
  simp [takeTrap, ht, hn]

/-- A precise trap inside a handler is a nested trap (R141). -/
theorem takeTrap_nested {s : State} {tid : Nat} {t : Thread} (ht : s.thread? tid = some t) (hn : t.inTrap = true) (c : Cause)
    (v : Word) : takeTrap s tid c v false = nestedTrap s tid t c v := by
  simp [takeTrap, ht, hn]

/-- The way to `Traps`. -/
theorem traps_of_perform {s : State} {t : Thread} {i : Instr} {f : State → Thread → Except Stop Effect} {c : Cause} {v : Word}
    (hi : exec i s = perform s f) (ht : Issues s t) (hn : t.inTrap = false) (hf : f s t = .error (.trap c v)) :
    Traps s t i c v := by
  rw [Traps, hi, perform_trap ht hf, takeTrap_outside ht hn]

/-- An instruction that completes with a warning or a trap after it, outside a handler, enters the handler with the address
after it (R138, R139). -/
theorem trapsAfter_of_perform {s : State} {t x : Thread} {i : Instr} {f : State → Thread → Except Stop Effect} {e : Effect}
    {c : Cause} {v : Word} {w : Bool} (hi : exec i s = perform s f) (ht : Issues s t) (hf : f s t = .ok e)
    (ha : afterTrap t e = some (c, v, w)) (hx : e.state.thread? s.cur = some x) (hn : (e.regs x).inTrap = false) :
    ∃ s', exec i s = .next s' ∧
      s'.thread? s.cur = some (enterTrap (advance (e.regs x) e.pc) c v e.pc true w 0) := by
  refine ⟨finish s.cur t e, by rw [hi, perform_ok ht hf], ?_⟩
  have hy : (chargeQueue (e.state.modThread s.cur fun x => advance (e.regs x) e.pc) t).thread? s.cur =
      some (advance (e.regs x) e.pc) := by simp [hx]
  rw [finish_after ha, takeTrap_outside hy (by simpa [advance, Thread.inTrap] using hn)]
  simp [advance]

/-- The way to `CompletesInto`: the instruction completes with a trap after it, outside a handler. -/
theorem completesInto_of_perform {s : State} {t x : Thread} {i : Instr} {f : State → Thread → Except Stop Effect} {e : Effect}
    {c : Cause} {v : Word} {w : Bool} (hi : exec i s = perform s f) (ht : Issues s t) (hf : f s t = .ok e)
    (ha : afterTrap t e = some (c, v, w)) (hx : e.state.thread? s.cur = some x) (hn : (e.regs x).inTrap = false) :
    CompletesInto s i e.state e.regs e.pc c v w := by
  have hy : (chargeQueue (e.state.modThread s.cur fun x => advance (e.regs x) e.pc) t).thread? s.cur =
      some (advance (e.regs x) e.pc) := by simp [hx]
  refine ⟨finish s.cur t e, by rw [hi, perform_ok ht hf], ?_, ?_⟩
  · rw [finish_after ha, takeTrap_outside hy (by simpa [advance, Thread.inTrap] using hn)]
    simp [advance, hx]
  · rw [finish_after ha, takeTrap_outside hy (by simpa [advance, Thread.inTrap] using hn)]
    obtain ⟨h1, h2, h3⟩ := AgreeBut.modThread s.cur e.state (fun x => advance (e.regs x) e.pc) t
    refine ⟨fun n h => by simp [State.thread_setThread, h, h1 n h], h2, ?_⟩
    rw [h3]; rfl

/-- The way to `CompletesAccess`: the access completes, and watchpoints see it. -/
theorem completesAccess_of_perform {s s1 : State} {t x : Thread} {i : Instr} {f : State → Thread → Except Stop Effect}
    {ea : Word} {n : Nat} {k : WatchKind} {g : Thread → Thread} (hi : exec i s = perform s f) (ht : Issues s t)
    (hf : f s t = .ok { Effect.onRegs s1 t g with watch := some (ea, n, k) }) (hx : s1.thread? s.cur = some x)
    (hn : t.inTrap = false → (g x).inTrap = false) : CompletesAccess s t i ea.toNat n k s1 g := by
  constructor
  · intro h
    exact completes_of_perform hi ht hf (by simp [afterTrap, Effect.onRegs, h])
  · intro w v h hn'
    exact completesInto_of_perform hi ht hf (by simp [afterTrap, Effect.onRegs, h]) hx (hn hn')

/-- The way to `Waits`. -/
theorem waits_of_perform {s : State} {t : Thread} {i : Instr} {f : State → Thread → Except Stop Effect} {r : WaitReason} {s1 : State}
    (hi : exec i s = perform s f) (ht : Issues s t) (hf : f s t = .error (.wait r s1)) : Waits s i s1 r := by
  rw [Waits, hi, perform_wait ht hf]

end Sys2Proof.Machine
end

