-- ==== Sys2Proof/Laws/Operands.lean ====
section
/-! SUPPORT. What the operand and result functions of the integer operations compute, in bit-vector terms (R91 to R95). -/

namespace Sys2Proof.Machine

open Sys2Proof

theorem width_le (ty : Ty) : ty.width ≤ 64 := by cases ty <;> decide

theorem width_pos (ty : Ty) : 0 < ty.width := by cases ty <;> decide

/-- A pattern is the low bits of the register. -/
theorem pattern_eq (ty : Ty) (x : Word) : pattern ty x = (lowBits ty x).toNat := by
  simp [pattern, lowBits]

/-- Two's complement of a natural number. -/
theorem sextNat_eq (w : Nat) (h : 0 < w) (p : Nat) : sextNat w p = (BitVec.ofNat w p).toInt := by
  have h2 : 2 ^ w = 2 * 2 ^ (w - 1) := by
    cases w with
    | zero => omega
    | succ n => simp [Nat.pow_succ]; omega
  unfold sextNat
  rw [BitVec.toInt_eq_toNat_cond]
  simp only [BitVec.toNat_ofNat]
  split <;> split <;> omega

/-- An operand is its register read at the type. -/
theorem operand_eq (ty : Ty) (x : Word) : operand ty x = typedValue ty x := by
  unfold operand intVal typedValue
  split
  · rw [sextNat_eq _ (width_pos ty), pattern_eq]; simp
  · simp [pattern_eq]

/-- Extension of a pattern. -/
theorem extendTy_eq (ty : Ty) (p : Nat) : extendTy ty p = extended ty (BitVec.ofNat ty.width p) := by
  unfold extendTy extended
  split
  · rw [sextNat_eq _ (width_pos ty)]; rfl
  · apply BitVec.eq_of_toNat_eq
    simp [w64]

theorem ofNat_wrapInt (w : Nat) (x : Int) : BitVec.ofNat w (wrapInt w x) = BitVec.ofInt w x := by
  apply BitVec.eq_of_toNat_eq
  simp only [wrapInt, BitVec.toNat_ofNat, BitVec.toNat_ofInt]
  rw [Nat.mod_eq_of_lt]
  have : (0 : Int) < (2 ^ w : Nat) := by positivity
  have h1 := Int.emod_lt_of_pos x this
  have h0 := Int.emod_nonneg x (Int.ne_of_gt this)
  omega

/-- An exact result reduced and extended. -/
theorem intResultW_eq (ty : Ty) (x : Int) : intResultW ty x = reduced ty x := by
  simp [intResultW, reduced, extendTy_eq, ofNat_wrapInt]

theorem extendTy_of_toNat {ty : Ty} {p : Nat} {v : BitVec ty.width} (h : p % 2 ^ ty.width = v.toNat) :
    extendTy ty p = extended ty v := by
  rw [extendTy_eq]; congr 1; apply BitVec.eq_of_toNat_eq; simpa using h

theorem intMin_eq (ty : Ty) : intMin ty = leastOf ty := by cases ty <;> rfl

theorem intMax_eq (ty : Ty) : intMax ty = greatestOf ty := by cases ty <;> rfl

/-- The clamp as a minimum and a maximum. -/
theorem clampTo_eq (ty : Ty) (x : Int) : clampTo ty x = max (leastOf ty) (min (greatestOf ty) x) := by
  unfold clampTo
  rw [intMin_eq, intMax_eq]
  have : leastOf ty ≤ greatestOf ty := by cases ty <;> decide
  split
  · omega
  · split <;> omega

/-- A left shift of a bit vector, by any amount. -/
theorem shiftL_eq {w : Nat} (x : BitVec w) (n : Nat) : shiftL w x.toNat n = (x <<< n).toNat := by
  rw [BitVec.toNat_shiftLeft, Nat.shiftLeft_eq]
  unfold shiftL
  split
  · rfl
  · have hd : 2 ^ w ∣ x.toNat * 2 ^ n := Dvd.dvd.mul_left (Nat.pow_dvd_pow 2 (by omega)) _
    rw [Nat.mod_eq_zero_of_dvd hd]

/-- A logical right shift of a bit vector, by any amount. -/
theorem shiftR_eq {w : Nat} (x : BitVec w) (n : Nat) : shiftR w x.toNat n = (x >>> n).toNat := by
  rw [BitVec.toNat_ushiftRight, Nat.shiftRight_eq_div_pow]
  unfold shiftR
  split
  · rw [Nat.mod_eq_of_lt (BitVec.isLt _)]
  · have h1 : x.toNat < 2 ^ n := Nat.lt_of_lt_of_le (BitVec.isLt _) (Nat.pow_le_pow_right (by omega) (by omega))
    rw [Nat.div_eq_of_lt h1]

/-- Past the width an arithmetic shift is all sign. -/
theorem toInt_div_min {w : Nat} (x : BitVec w) (n : Nat) :
    x.toInt / ((2 ^ Nat.min n w : Nat) : Int) = x.toInt >>> n := by
  rw [Int.shiftRight_eq_div_pow]
  by_cases hn : n ≤ w
  · have : Nat.min n w = n := Nat.min_eq_left hn
    rw [this]
  · have hn' : w ≤ n := by omega
    have : Nat.min n w = w := Nat.min_eq_right hn'
    rw [this]
    have hp : (2 : Int) ^ (w - 1) ≤ (2 ^ w : Nat) := by exact_mod_cast Nat.pow_le_pow_right (by omega) (by omega)
    have h1 : x.toInt < (2 ^ w : Nat) := Int.lt_of_lt_of_le BitVec.toInt_lt hp
    have h0 : -((2 ^ w : Nat) : Int) ≤ x.toInt := by
      have := @BitVec.le_toInt w x
      omega
    have h3 : ((2 ^ w : Nat) : Int) ≤ (2 ^ n : Nat) := by exact_mod_cast Nat.pow_le_pow_right (by omega) hn'
    by_cases hs : 0 ≤ x.toInt
    · rw [Int.ediv_eq_zero_of_lt hs h1, Int.ediv_eq_zero_of_lt hs (by omega)]
    · rw [Int.ediv_eq_neg_one_of_neg_of_le (by omega) (by omega), Int.ediv_eq_neg_one_of_neg_of_le (by omega) (by omega)]

/-- An arithmetic right shift of a bit vector, by any amount. -/
theorem shiftA_eq {w : Nat} (h : 0 < w) (x : BitVec w) (n : Nat) : shiftA w x.toNat n = (x.sshiftRight n).toNat := by
  unfold shiftA
  rw [sextNat_eq w h]
  simp only [BitVec.ofNat_toNat, BitVec.setWidth_eq]
  rw [toInt_div_min, ← BitVec.toInt_sshiftRight]
  have h1 := congrArg BitVec.toNat (ofNat_wrapInt w (x.sshiftRight n).toInt)
  rw [BitVec.ofInt_toInt] at h1
  rw [← h1, BitVec.toNat_ofNat, Nat.mod_eq_of_lt]
  unfold wrapInt
  have h2 : (0 : Int) < (2 ^ w : Nat) := by positivity
  have h3 := Int.emod_lt_of_pos (x.sshiftRight n).toInt h2
  have h4 := Int.emod_nonneg (x.sshiftRight n).toInt (Int.ne_of_gt h2)
  omega

/-- A rotation of a bit vector. -/
theorem rotL_eq {w : Nat} (h : 0 < w) (x : BitVec w) (n : Nat) : rotL w x.toNat n = (x.rotateLeft (n % w)).toNat := by
  rw [BitVec.toNat_rotateLeft]
  unfold rotL
  have hm : n % w < w := Nat.mod_lt _ h
  have hx : x.toNat < 2 ^ w := BitVec.isLt _
  rw [Nat.mod_eq_of_lt hx, Nat.mod_mod, Nat.shiftLeft_eq, Nat.shiftRight_eq_div_pow]
  generalize hk : n % w = k at *
  have hp2 : 2 ^ w = 2 ^ k * 2 ^ (w - k) := by rw [← Nat.pow_add]; congr 1; omega
  have hlt : x.toNat / 2 ^ (w - k) < 2 ^ k := by
    rw [Nat.div_lt_iff_lt_mul (by positivity), ← hp2]; exact hx
  have hmm : x.toNat * 2 ^ k % 2 ^ w = 2 ^ k * (x.toNat % 2 ^ (w - k)) := by
    rw [hp2, Nat.mul_comm x.toNat, Nat.mul_mod_mul_left]
  rw [hmm, ← Nat.two_pow_add_eq_or_of_lt hlt]
  rw [Nat.add_mod, hmm, Nat.mod_eq_of_lt (a := x.toNat / _)
    (Nat.lt_of_lt_of_le hlt (Nat.pow_le_pow_right (by omega) (by omega)))]
  apply Nat.mod_eq_of_lt
  have : x.toNat % 2 ^ (w - k) < 2 ^ (w - k) := Nat.mod_lt _ (by positivity)
  calc _ < 2 ^ k * (x.toNat % 2 ^ (w - k)) + 2 ^ k := by omega
    _ = 2 ^ k * (x.toNat % 2 ^ (w - k) + 1) := by ring
    _ ≤ 2 ^ k * 2 ^ (w - k) := Nat.mul_le_mul_left _ this
    _ = 2 ^ w := hp2.symm

/-- The way to `WritesG` for an instruction that only computes in registers. -/
theorem writesG_of_regStep {s : State} {t : Thread} {i : Instr} {d : GReg} {x : Word} {f : Thread → Thread} (ht : Issues s t)
    (hi : exec i s = regStep s f) (hf : f t = writeG t d x) : WritesG s t i d x :=
  Completes.congr (completes_of_regStep hi ht) ht hf

/-- A field of a word, as a number. -/
theorem bits_extract (x : Word) (hi lo : Nat) (h : lo ≤ hi := by decide) : bits x hi lo = (x.extractLsb hi lo).toNat := by
  unfold bits
  rw [BitVec.extractLsb_toNat, Nat.shiftRight_eq_div_pow]
  congr 2; omega

/-- A field of a word is zero exactly when its bits are. -/
theorem bits_zero (x : Word) (hi lo : Nat) (h : lo ≤ hi := by decide) : (bits x hi lo = 0) ↔ (x.extractLsb hi lo = 0) := by
  rw [bits_extract x hi lo h]
  constructor
  · intro h'; apply BitVec.eq_of_toNat_eq; rw [h']; rfl
  · intro h'; rw [h']; rfl

/-- One bit of a word. -/
theorem bit_eq (x : Word) (i : Nat) : bit x i = x.getLsbD i := by
  simp [bit, BitVec.getLsbD, Nat.testBit_eq_decide_div_mod_eq]

/-- A number has as many bytes as it is asked for. -/
@[simp] theorem leBytes_length (n k : Nat) : (leBytes n k).length = n := by
  induction n generalizing k with
  | zero => rfl
  | succ m ih => simp [leBytes, ih]

@[simp] theorem tokBytes_length (x : Vec512) : (tokBytes x).length = 64 := by simp [tokBytes, elems]

/-- A bit of a word made of a high part and a low part. -/
theorem getLsbD_w64 (n i : Nat) : (w64 n).getLsbD i = if i < 64 then n.testBit i else false := by
  unfold w64
  rw [BitVec.getLsbD_ofNat]
  by_cases h : i < 64 <;> simp [h]

/-- STATUS on a trap, bit by bit (R138). -/
theorem statusOnEntry_bit (x : Word) (i : Nat) : (statusOnEntry x).getLsbD i =
    if i < 2 then true else if i = 2 then x.getLsbD 0 else x.getLsbD i := by
  unfold statusOnEntry
  rw [getLsbD_w64, bit_eq, Nat.add_assoc, Nat.mul_comm, show (8 : Nat) = 2 ^ 3 from rfl]
  rw [Nat.testBit_two_pow_mul_add _ (by split <;> decide)]
  by_cases h3 : i < 3
  · have : i = 0 ∨ i = 1 ∨ i = 2 := by omega
    rcases this with rfl | rfl | rfl
    · cases x.getLsbD 0 <;> rfl
    · cases x.getLsbD 0 <;> rfl
    · cases x.getLsbD 0 <;> rfl
  · rw [if_neg h3, if_neg (by omega : ¬ i < 2), if_neg (by omega : ¬ i = 2), ← Nat.shiftRight_eq_div_pow, Nat.testBit_shiftRight,
      show 3 + (i - 3) = i by omega]
    by_cases h : i < 64
    · simp [h, BitVec.getLsbD]
    · simp [h, BitVec.getLsbD_of_ge x i (by omega)]

/-- STATUS on a return, bit by bit (R133). -/
theorem statusOnReturn_bit (x : Word) (i : Nat) : (statusOnReturn x).getLsbD i =
    if i = 0 then x.getLsbD 2 else if i = 1 then false else x.getLsbD i := by
  unfold statusOnReturn
  rw [getLsbD_w64, bit_eq, Nat.mul_comm, show (4 : Nat) = 2 ^ 2 from rfl]
  rw [Nat.testBit_two_pow_mul_add _ (by split <;> decide)]
  by_cases h3 : i < 2
  · have : i = 0 ∨ i = 1 := by omega
    rcases this with rfl | rfl
    · cases x.getLsbD 2 <;> rfl
    · cases x.getLsbD 2 <;> rfl
  · rw [if_neg h3, if_neg (by omega : ¬ i = 0), if_neg (by omega : ¬ i = 1), ← Nat.shiftRight_eq_div_pow, Nat.testBit_shiftRight,
      show 2 + (i - 2) = i by omega]
    by_cases h : i < 64
    · simp [h, BitVec.getLsbD]
    · simp [h, BitVec.getLsbD_of_ge x i (by omega)]

/-- A word with its low bits cleared, bit by bit. -/
theorem clearLow_bit (x : Word) (n i : Nat) : (clearLow x n).getLsbD i = if i < n then false else x.getLsbD i := by
  unfold clearLow
  rw [getLsbD_w64, Nat.mul_comm]
  rw [show 2 ^ n * (x.toNat / 2 ^ n) = 2 ^ n * (x.toNat / 2 ^ n) + 0 from rfl, Nat.testBit_two_pow_mul_add _ (Nat.two_pow_pos n)]
  by_cases h3 : i < n
  · simp [h3]
  · rw [if_neg h3, if_neg h3, ← Nat.shiftRight_eq_div_pow, Nat.testBit_shiftRight, show n + (i - n) = i by omega]
    by_cases h : i < 64
    · simp [h, BitVec.getLsbD]
    · simp [h, BitVec.getLsbD_of_ge x i (by omega)]

end Sys2Proof.Machine
end

