-- ==== Sys2Proof/Laws/Space.lean ====
section
/-! SUPPORT. What translation, pots, the read buffer and the store buffer change and leave alone. -/

namespace Sys2Proof.Machine

open Sys2Proof

/-! ## Translation -/

/-- The end of a walk changes its rim die alone. -/
theorem endWalk_frame (s : State) (rim n : Nat) : endWalk s rim n = { s with rims := (endWalk s rim n).rims } := by
  unfold endWalk
  split
  · rfl
  · split
    · rfl
    · dsimp only; split
      · rfl
      · split <;> rfl

/-- A request that waits for a walk changes no more than that walk's end. -/
theorem awaitWalk_frame (s : State) (ctx va : Nat) : awaitWalk s ctx va = { s with rims := (awaitWalk s ctx va).rims } := by
  unfold awaitWalk
  split
  · exact endWalk_frame s _ _
  · rfl

/-- A lookup buffers at most one entry of one rim die. -/
theorem translateNow_frame (s : State) (ctx va : Nat) (acc : Access) (user : Bool) :
    (translateNow s ctx va acc user).2.2 = { s with rims := (translateNow s ctx va acc user).2.2.rims } := by
  unfold translateNow
  split
  · rfl
  · split
    · rfl
    · split <;> rfl

/-- Translation changes what the rim dies hold, and nothing else. -/
theorem translate_frame (s : State) (ctx va : Nat) (acc : Access) (user : Bool) :
    (translate s ctx va acc user).2.2 = { s with rims := (translate s ctx va acc user).2.2.rims } := by
  unfold translate
  split
  · exact translateNow_frame s ctx va acc user
  · have h := translateNow_frame (awaitWalk s ctx va) ctx va acc user
    rw [awaitWalk_frame s ctx va] at h ⊢
    exact h

/-- The checks of R113 change nothing but buffered translations. -/
theorem resolve_frame {s s' : State} {t : Thread} {ea : Word} {width : Nat} {acc : Access} {loc : Loc}
    (h : resolve s t ea width acc = .ok (loc, s')) : s' = { s with rims := s'.rims } := by
  unfold resolve at h
  split at h
  · cases h
  · split at h
    · split at h
      · cases h
      · simp only at h
        split at h
        · cases h
        · split at h
          · cases h
          · cases h; rfl
    · split at h
      · cases h
      · split at h
        · rename_i heq
          cases h
          have := translate_frame s t.ctx ea.toNat acc (!bit t.status 0)
          rw [heq] at this
          exact this
        · cases h

theorem resolve_cur {s s' : State} {t : Thread} {ea : Word} {width : Nat} {acc : Access} {loc : Loc}
    (h : resolve s t ea width acc = .ok (loc, s')) : s'.cur = s.cur := by
  rw [resolve_frame h]

theorem resolve_thread {s s' : State} {t : Thread} {ea : Word} {width : Nat} {acc : Access} {loc : Loc}
    (h : resolve s t ea width acc = .ok (loc, s')) (n : Nat) : s'.thread? n = s.thread? n := by
  rw [resolve_frame h]; rfl

theorem resolve_mem {s s' : State} {t : Thread} {ea : Word} {width : Nat} {acc : Access} {loc : Loc}
    (h : resolve s t ea width acc = .ok (loc, s')) : s'.mem = s.mem := by
  rw [resolve_frame h]

theorem resolve_cores {s s' : State} {t : Thread} {ea : Word} {width : Nat} {acc : Access} {loc : Loc}
    (h : resolve s t ea width acc = .ok (loc, s')) : s'.cores = s.cores := by
  rw [resolve_frame h]

/-- A located access is what the checks find. -/
theorem located_ok {s s' : State} {t : Thread} {ea : Word} {width : Nat} {acc : Access} {loc : Loc}
    (h : resolve s t ea width acc = .ok (loc, s')) : located s t ea width acc = .ok (loc, s') := by
  simp [located, h]

theorem located_error {s : State} {t : Thread} {ea : Word} {width : Nat} {acc : Access} {c : Cause}
    (h : resolve s t ea width acc = .error c) : located s t ea width acc = .error (.trap c ea) := by
  simp [located, h, trapWith]

/-! ## Wake words -/

/-- Wake words change nothing but the list of wake words. -/
theorem wakeWhere_frame (s : State) (p : WaitReason → Bool) : wakeWhere s p = { s with wakes := (wakeWhere s p).wakes } := rfl

theorem wakeOne_frame (s : State) (tid : Nat) (p : WaitReason → Bool) :
    wakeOne s tid p = { s with wakes := (wakeOne s tid p).wakes } := by
  unfold wakeOne
  split
  · split
    · split <;> rfl
    · rfl
  · rfl

/-- A fold of steps that change nothing but the wake words changes nothing else. -/
theorem foldl_wakes {α : Type} (f : State → α → State) (hf : ∀ s x, f s x = { s with wakes := (f s x).wakes }) (l : List α)
    (s : State) : l.foldl f s = { s with wakes := (l.foldl f s).wakes } := by
  induction l generalizing s with
  | nil => rfl
  | cons x r ih =>
    rw [List.foldl_cons, ih (f s x)]
    rw [hf s x]

/-! ## Pots -/

/-- A pot write with the barrier waits it wakes changes one core and the wake words. -/
theorem potStore_frame (s : State) (core addr : Nat) (b : List Byte) :
    potStore s core addr b = { s.potWrite core addr b with wakes := (potStore s core addr b).wakes } := by
  unfold potStore
  exact foldl_wakes _ (fun _ _ => rfl) _ _

@[simp] theorem potStore_threads (s : State) (core addr : Nat) (b : List Byte) : (potStore s core addr b).threads = s.threads := by
  rw [potStore_frame]; rfl

@[simp] theorem potStore_thread (s : State) (core addr : Nat) (b : List Byte) (n : Nat) :
    (potStore s core addr b).thread? n = s.thread? n := by
  rw [potStore_frame]; rfl

@[simp] theorem potStore_cur (s : State) (core addr : Nat) (b : List Byte) : (potStore s core addr b).cur = s.cur := by
  rw [potStore_frame]; rfl

@[simp] theorem potStore_mem (s : State) (core addr : Nat) (b : List Byte) : (potStore s core addr b).mem = s.mem := by
  rw [potStore_frame]; rfl

theorem potStore_core (s : State) (core addr : Nat) (b : List Byte) (c : Nat) :
    (potStore s core addr b).core c = (s.potWrite core addr b).core c := by
  rw [potStore_frame]; rfl

/-- The bytes of the pots after a pot write. -/
theorem pots_potStore (s : State) (core addr : Nat) (b : List Byte) (h : (s.core core).pots.wf = true) (c x : Nat) :
    mread ((potStore s core addr b).core c).pots x =
      if c = core ∧ addr ≤ x ∧ x < addr + b.length then b.getD (x - addr) 0 else mread (s.core c).pots x := by
  rw [potStore_core, State.potWrite, State.core_modCore]
  by_cases hc : c = core
  · subst hc
    simp [mread_mwrites _ _ _ h]
  · simp [hc]

/-- The bytes just written read back. -/
theorem potRead_potStore (s : State) (core addr : Nat) (b : List Byte) (h : (s.core core).pots.wf = true) :
    (potStore s core addr b).potRead core addr b.length = b := by
  unfold State.potRead
  apply List.ext_getElem (mreads_length _ _ _)
  intro i h1 h2
  rw [List.getElem_eq_getD (0 : Byte), mreads_getD _ _ _ _ h2, pots_potStore _ _ _ _ h, if_pos ⟨rfl, by omega, by omega⟩,
    Nat.add_sub_cancel_left]
  exact (List.getElem_eq_getD 0).symm

/-- A granule that becomes full changes the full bits of one core and the wake words. -/
theorem fill_frame (s : State) (core addr : Nat) :
    s.fill core addr = { s.setFull core addr true with wakes := (s.fill core addr).wakes } := by
  unfold State.fill
  exact foldl_wakes _ (fun s w => wakeOne_frame s w.tid _) _ _

theorem fill_pots (s : State) (core addr c : Nat) : ((s.fill core addr).core c).pots = (s.core c).pots := by
  rw [fill_frame]
  show ((s.setFull core addr true).core c).pots = _
  unfold State.setFull
  rw [State.core_modCore]
  split
  · rename_i h; subst h; rfl
  · rfl

theorem fill_tile (s : State) (core addr : Nat) (l : TileLoc) : (s.fill core addr).tile l = s.tile l := by
  rw [fill_frame]
  show (s.setFull core addr true).tile l = _
  unfold State.setFull State.tile
  rw [State.core_modCore]
  split
  · rename_i h; rw [h]
  · rfl

@[simp] theorem fill_mem (s : State) (core addr : Nat) : (s.fill core addr).mem = s.mem := by
  rw [fill_frame]; rfl

/-! ## The read buffer and the store buffer -/

/-- A rim die that has tokens free sends wake words, and changes nothing else. -/
theorem rimRoom_frame (s : State) : rimRoom s = { s with wakes := (rimRoom s).wakes } := wakeWhere_frame _ _

@[simp] theorem acquireFor_threads (s : State) (t : Thread) : (acquireFor s t).threads = s.threads := rfl

@[simp] theorem acquireFor_thread (s : State) (t : Thread) (n : Nat) : (acquireFor s t).thread? n = s.thread? n := rfl

@[simp] theorem acquireFor_cur (s : State) (t : Thread) : (acquireFor s t).cur = s.cur := rfl

@[simp] theorem acquireFor_mem (s : State) (t : Thread) : (acquireFor s t).mem = s.mem := rfl

/-- An acquire leaves the pots alone. -/
@[simp] theorem acquireFor_pots (s : State) (t : Thread) (c : Nat) : ((acquireFor s t).core c).pots = (s.core c).pots := by
  unfold acquireFor acquire
  rw [State.core_modCore]
  split
  · rename_i h; subst h; rfl
  · rfl

/-- An acquire empties the read buffer (R114). -/
theorem acquireFor_readBuf (s : State) (t : Thread) : ((acquireFor s t).core (s.coreOf t)).readBuf = [] := by
  simp [acquireFor, acquire]

theorem drained_ok {s : State} {t : Thread} (h : hasStores s (s.coreOf t) s.cur = false) : drained s t = .ok () := by
  simp [drained, h]

theorem drained_wait {s : State} {t : Thread} (h : hasStores s (s.coreOf t) s.cur = true) :
    drained s t = .error (.wait .storeBuffer s) := by
  simp [drained, h]

/-- A buffered line changes one core's read buffer. -/
theorem loadGlobal_frame (s : State) (core tid ctx va pa n : Nat) (q : LdQual) :
    (loadGlobal s core tid ctx va pa n q).2 =
      { s with cores := (loadGlobal s core tid ctx va pa n q).2.cores, oracle := (loadGlobal s core tid ctx va pa n q).2.oracle,
               choices := (loadGlobal s core tid ctx va pa n q).2.choices } := by
  unfold loadGlobal
  cases q
  · dsimp only
    split
    · split <;> rfl
    · rfl
  · rfl
  · rfl

theorem fillLine_pots (s : State) (core ctx line pline : Nat) (b : List Byte) (c : Nat) :
    ((fillLine s core ctx line pline b).core c).pots = (s.core c).pots := by
  unfold fillLine
  rw [State.core_modCore]
  split
  · rename_i h; subst h; rfl
  · rfl

theorem acquire_pots (s : State) (core tid c : Nat) : ((acquire s core tid).core c).pots = (s.core c).pots := by
  unfold acquire
  rw [State.core_modCore]
  split
  · rename_i h; subst h; rfl
  · rfl

/-- A load leaves the pots alone. -/
theorem loadGlobal_pots (s : State) (core tid ctx va pa n : Nat) (q : LdQual) (c : Nat) :
    ((loadGlobal s core tid ctx va pa n q).2.core c).pots = (s.core c).pots := by
  unfold loadGlobal
  cases q
  · dsimp only
    split
    · split
      · rfl
      · rw [fillLine_pots]; rfl
    · rw [fillLine_pots]
  · exact acquire_pots _ _ _ _
  · exact fillLine_pots _ _ _ _ _ _ _

/-- Without undrained stores of the thread nothing is laid over what it loads. -/
theorem forward_none {s : State} {core tid ctx va pa : Nat} {b : List Byte} (h : ∀ e ∈ (s.core core).stores, e.tid ≠ tid) :
    forward s core tid ctx va pa b = b := by
  unfold forward
  generalize (s.core core).stores = l at h
  induction l with
  | nil => rfl
  | cons e r ih =>
    rw [List.foldl_cons]
    have : e.tid ≠ tid := h e (by simp)
    simp only [forwardOne, this, decide_false, Bool.false_and, Bool.false_eq_true, if_false]
    exact ih fun x hx => h x (by simp [hx])

/-- A load that no buffered line serves, of a thread without undrained stores, reads memory. -/
theorem loadGlobal_reads {s : State} {core tid ctx va pa n : Nat} {q : LdQual}
    (hq : q ≠ .plain ∨ lineOf s core ctx (va / 64) = none) (h : ∀ e ∈ (s.core core).stores, e.tid ≠ tid) :
    (loadGlobal s core tid ctx va pa n q).1 = mreads s.mem pa n := by
  unfold loadGlobal
  cases q
  · have : lineOf s core ctx (va / 64) = none := by simpa using hq
    dsimp only
    rw [this]
    exact forward_none h
  · exact forward_none h
  · exact forward_none h

/-! ## Granules -/

/-- The granules of an access are those from its first byte's to its last byte's. -/
theorem mem_granules {a n g : Nat} (hn : 0 < n) : g ∈ granules a n ↔ a / 16 ≤ g ∧ g ≤ (a + n - 1) / 16 := by
  have hn' : n ≠ 0 := by omega
  simp only [granules, hn', if_false, List.mem_map, List.mem_range]
  exact ⟨by rintro ⟨b, hb, rfl⟩; omega, fun ⟨h1, h2⟩ => ⟨g - a / 16, by omega, by omega⟩⟩

/-- What a search over the granules of an access finds is the first one of its kind. -/
theorem find_granules {a n g : Nat} {f : Nat → Bool} (hn : 0 < n) (h : (granules a n).find? f = some g) :
    a / 16 ≤ g ∧ g ≤ (a + n - 1) / 16 ∧ f g = true ∧ ∀ j, a / 16 ≤ j → j < g → f j = false := by
  have hm := (mem_granules hn).1 (List.mem_of_find?_eq_some h)
  have hn' : n ≠ 0 := by omega
  simp only [granules, hn', if_false] at h
  obtain ⟨hf, i, hi, hg, hlt⟩ := List.find?_eq_some_iff_getElem.1 h
  simp only [List.length_map, List.length_range] at hi
  simp only [List.getElem_map, List.getElem_range] at hg hlt
  refine ⟨hm.1, hm.2, hf, fun j h1 h2 => ?_⟩
  have := hlt (j - a / 16) (by omega)
  simpa [Nat.sub_add_cancel h1] using this

end Sys2Proof.Machine
end

