-- ==== Sys2Proof/Laws/Fabric.lean ====
section
/-! SUPPORT. What sending, applying and acknowledging a message change and leave alone (R355 to R360). -/

namespace Sys2Proof.Machine

open Sys2Proof

/-! ## Sending -/

/-- What sending a message can do: nothing, give it to the package itself, or put it on a link. -/
theorem emitMsg_cases (s : State) (m : Msg) :
    emitMsg s m = s ∨ emitMsg s m = takeOwn s m ∨
    (∃ l, emitMsg s m = linkSend s l m) ∨
    ∃ l, emitMsg s m = (linkSend s l m).setDest m.dest.toNat { (linkSend s l m).dest m.dest.toNat with lastLink := some l } := by
  unfold emitMsg
  dsimp only
  by_cases h1 : (!idValid s m.dest.toNat) = true
  · rw [if_pos h1]; exact Or.inl rfl
  · rw [if_neg h1]
    by_cases h2 : idSelf s m.dest.toNat = true
    · rw [if_pos h2]; exact Or.inr (Or.inl rfl)
    · rw [if_neg h2]
      by_cases h3 : idHeld s m.dest.toNat = true
      · rw [if_pos h3]; exact Or.inl rfl
      · rw [if_neg h3]
        cases routeLink s m.dest.toNat with
        | none => exact Or.inl rfl
        | some l =>
          dsimp only
          split
          · exact Or.inr (Or.inr (Or.inr ⟨l, rfl⟩))
          · exact Or.inr (Or.inr (Or.inl ⟨l, rfl⟩))

/-- A message for the package itself changes the inbox alone. -/
theorem takeOwn_frame (s : State) (m : Msg) :
    takeOwn s m = { s with fabric := { s.fabric with inbox := (takeOwn s m).fabric.inbox } } := by
  unfold takeOwn
  split <;> rfl

/-- Sending a message changes the fabric alone. -/
theorem emitMsg_frame (s : State) (m : Msg) : emitMsg s m = { s with fabric := (emitMsg s m).fabric } := by
  rcases emitMsg_cases s m with h | h | ⟨l, h⟩ | ⟨l, h⟩ <;> rw [h]
  · rw [takeOwn_frame]
  all_goals rfl

@[simp] theorem emitMsg_mem (s : State) (m : Msg) : (emitMsg s m).mem = s.mem := by rw [emitMsg_frame]
@[simp] theorem emitMsg_threads (s : State) (m : Msg) : (emitMsg s m).threads = s.threads := by rw [emitMsg_frame]
@[simp] theorem emitMsg_cores (s : State) (m : Msg) : (emitMsg s m).cores = s.cores := by rw [emitMsg_frame]
@[simp] theorem emitMsg_cur (s : State) (m : Msg) : (emitMsg s m).cur = s.cur := by rw [emitMsg_frame]
@[simp] theorem emitMsg_thread (s : State) (m : Msg) (n : Nat) : (emitMsg s m).thread? n = s.thread? n := by
  unfold State.thread?; rw [emitMsg_threads]

@[simp] theorem emitMsg_ports (s : State) (m : Msg) : (emitMsg s m).fabric.ports = s.fabric.ports := by
  rcases emitMsg_cases s m with h | h | ⟨l, h⟩ | ⟨l, h⟩ <;> rw [h]
  · rw [takeOwn_frame]
  all_goals rfl

@[simp] theorem emitMsg_sources (s : State) (m : Msg) : (emitMsg s m).fabric.sources = s.fabric.sources := by
  rcases emitMsg_cases s m with h | h | ⟨l, h⟩ | ⟨l, h⟩ <;> rw [h]
  · rw [takeOwn_frame]
  all_goals rfl

@[simp] theorem emitMsg_source (s : State) (m : Msg) (c : Nat) : (emitMsg s m).source c = s.source c := by
  unfold State.source; rw [emitMsg_sources]

theorem foldl_emit {α : Type} (β : State → α) (h : ∀ s m, β (emitMsg s m) = β s) (l : List Msg) (s : State) :
    β (l.foldl emitMsg s) = β s := by
  induction l generalizing s with
  | nil => rfl
  | cons m r ih => rw [List.foldl_cons, ih, h]

@[simp] theorem resendAll_mem (s : State) (c : Nat) : (resendAll s c).mem = s.mem := foldl_emit (·.mem) emitMsg_mem _ _
@[simp] theorem resendAll_threads (s : State) (c : Nat) : (resendAll s c).threads = s.threads :=
  foldl_emit (·.threads) emitMsg_threads _ _

@[simp] theorem source_setSource (s : State) (c n : Nat) (d : SourceSt) :
    (s.setSource c d).source n = if n = c then d else s.source n := by
  simp [State.source, State.setSource, tgetD_tset]

@[simp] theorem dest_setDest (s : State) (c n : Nat) (d : DestSt) :
    (s.setDest c d).dest n = if n = c then d else s.dest n := by
  simp [State.dest, State.setDest, tgetD_tset]

@[simp] theorem link_setLink (s : State) (c n : Nat) (p : PeerLink) :
    (s.setLink c p).link n = if n = c then p else s.link n := by
  simp [State.link, State.setLink, tgetD_tset]

/-! ## Applying -/

theorem foldl_field {α β : Type} (f : State → α → State) (g : State → β) (h : ∀ s x, g (f s x) = g s) (l : List α)
    (s : State) : g (l.foldl f s) = g s := by
  induction l generalizing s with
  | nil => rfl
  | cons m r ih => rw [List.foldl_cons, ih, h]

/-- Steps that each change the reports in flight alone change nothing else together. -/
theorem foldl_reports {α : Type} (f : State → α → State) (hf : ∀ s x, f s x = { s with reports := (f s x).reports }) (l : List α)
    (s : State) : l.foldl f s = { s with reports := (l.foldl f s).reports } := by
  induction l generalizing s with
  | nil => rfl
  | cons x r ih =>
    rw [List.foldl_cons]
    generalize hy : f s x = y
    have h1 := ih y
    have h2 := hf s x
    rw [hy] at h2
    generalize List.foldl f y r = z at h1 ⊢
    rw [h1, h2]

/-- Engine watchpoints only put reports in flight. -/
theorem watchEngine_frame (s : State) (ctx cl ea n engine : Nat) :
    watchEngine s ctx cl ea n engine = { s with reports := (watchEngine s ctx cl ea n engine).reports } := by
  refine foldl_reports _ ?_ _ _
  rintro s ⟨tid, t⟩
  dsimp only
  split
  · rfl
  · split <;> rfl

@[simp] theorem watchEngine_mem (s : State) (ctx cl ea n e : Nat) : (watchEngine s ctx cl ea n e).mem = s.mem := by rw [watchEngine_frame]
@[simp] theorem watchEngine_fabric (s : State) (ctx cl ea n e : Nat) : (watchEngine s ctx cl ea n e).fabric = s.fabric := by
  rw [watchEngine_frame]

@[simp] theorem rimRoom_fabric (s : State) : (rimRoom s).fabric = s.fabric := by rw [rimRoom_frame]
@[simp] theorem modRim_fabric (s : State) (n : Nat) (f : Rim → Rim) : (s.modRim n f).fabric = s.fabric := rfl

theorem wakeWhere_fabric (s : State) (p : WaitReason → Bool) : (wakeWhere s p).fabric = s.fabric := by rw [wakeWhere_frame]
theorem wakeOne_fabric (s : State) (tid : Nat) (p : WaitReason → Bool) : (wakeOne s tid p).fabric = s.fabric := by rw [wakeOne_frame]

@[simp] theorem wakePresent_fabric (s : State) (pa : Nat) : (wakePresent s pa).fabric = s.fabric := by
  unfold wakePresent
  dsimp only
  rw [wakeWhere_fabric, modRim_fabric, modRim_fabric]
  exact foldl_field _ State.fabric (fun s (w : Waiter) => wakeOne_fabric s w.tid _) _ _

@[simp] theorem fillPresent_fabric (s : State) (pa : Nat) : (fillPresent s pa).fabric = s.fabric := by
  unfold fillPresent; rw [wakePresent_fabric]; rfl

/-- A write to a page without the presence attribute changes its bytes alone. -/
@[simp] theorem engineWrite_absent (s : State) (pa : Nat) (b : List Byte) : engineWrite s pa b false = s.writeMem pa b := rfl

@[simp] theorem engineWrite_fabric (s : State) (pa : Nat) (b : List Byte) (p : Bool) :
    (engineWrite s pa b p).fabric = s.fabric := by
  unfold engineWrite
  split
  · exact foldl_field _ (·.fabric) (fun _ _ => by simp) _ _
  · rfl

@[simp] theorem peerStore_fabric (s : State) (pa : Nat) (b : List Byte) (p : Bool) :
    (peerStore s pa b p).fabric = s.fabric := by
  unfold peerStore
  dsimp only
  split
  · rw [fillPresent_fabric]; rfl
  · rfl

@[simp] theorem reduceInto_fabric (s : State) (pa op : Nat) (ty : Ty) (data : List Byte) :
    (reduceInto s pa op ty data).fabric = s.fabric := by
  unfold reduceInto
  dsimp only
  refine foldl_field _ (·.fabric) ?_ _ _
  intro _ _; rfl

/-- Translation keeps the fabric and memory. -/
theorem translate_fabric (s : State) (ctx va : Nat) (acc : Access) (user : Bool) :
    (translate s ctx va acc user).2.2.fabric = s.fabric := by rw [translate_frame]

/-- Translation keeps memory. -/
theorem translate_mem (s : State) (ctx va : Nat) (acc : Access) (user : Bool) :
    (translate s ctx va acc user).2.2.mem = s.mem := by rw [translate_frame]

/-- Applying a message keeps what is kept for the sources of messages. -/
theorem applyMsg_sources {s s' : State} {m : Msg} {r : Option Word} (h : applyMsg s m = .done s' r) :
    s'.fabric.sources = s.fabric.sources := by
  have ht := fun acc => translate_fabric s m.ctx.toNat (payloadNat m 0 8 % 4503599627370496) acc true
  simp only [applyMsg, Nat.reducePow] at h
  split at h
  · generalize hx : translate s m.ctx.toNat (payloadNat m 0 8 % 4503599627370496) .write true = x at h
    have hf := ht .write; rw [hx] at hf
    obtain ⟨w, p, s1⟩ := x
    cases w with
    | fail a b c => simp at h
    | ok pa =>
      simp only [Applied.done.injEq] at h
      rw [← h.1, watchEngine_fabric, peerStore_fabric, ← hf]
  · generalize hx : translate s m.ctx.toNat (payloadNat m 0 8 % 4503599627370496) .atomic true = x at h
    have hf := ht .atomic; rw [hx] at hf
    obtain ⟨w, p, s1⟩ := x
    cases w with
    | fail a b c => simp at h
    | ok pa =>
      simp only [Applied.done.injEq] at h
      rw [← h.1, watchEngine_fabric]
      simp only [State.writeMem]; rw [← hf]
  · generalize hx : translate s m.ctx.toNat (payloadNat m 0 8 % 4503599627370496) .write true = x at h
    have hf := ht .write; rw [hx] at hf
    obtain ⟨w, p, s1⟩ := x
    cases w with
    | fail a b c => simp at h
    | ok pa =>
      simp only [Applied.done.injEq] at h
      rw [← h.1, watchEngine_fabric, engineWrite_fabric, ← hf]
  · generalize hx : translate s m.ctx.toNat (payloadNat m 0 8 % 4503599627370496) .atomic true = x at h
    have hf := ht .atomic; rw [hx] at hf
    obtain ⟨w, p, s1⟩ := x
    cases w with
    | fail a b c => simp at h
    | ok pa =>
      simp only [Applied.done.injEq] at h
      rw [← h.1, watchEngine_fabric, reduceInto_fabric, ← hf]
  · simp only [applyToken, State.arrive] at h
    cases hp : s.port? m.port.toNat with
    | none => simp [hp] at h
    | some p =>
      simp only [hp] at h
      by_cases hb : bits p.desc 15 8 ≠ m.src.toNat ∨ bits p.desc 21 16 ≠ m.requester.toNat / 256 % 64 ∨ p.send = true ∨
          64 ≤ p.buffer.length
      · rw [if_pos hb] at h; cases h
      · rw [if_neg hb] at h
        split at h
        · simp only [Applied.done.injEq] at h
          rw [← h.1, wakeSlot, wakeOne_frame]; rfl
        · simp only [Applied.done.injEq] at h
          rw [← h.1]; rfl

/-- Held threads that may go on are ready; memory is as before. -/
@[simp] theorem release_mem (s : State) (p : Nat → Thread → WaitReason → Bool) : (release s p).mem = s.mem := rfl

/-- Releasing holds keeps every register of a thread. -/
theorem release_thread (s : State) (p : Nat → Thread → WaitReason → Bool) (n : Nat) :
    (release s p).thread? n = (s.thread? n).map fun t =>
      match t.run with
      | .waiting r => if p n t r then { t with run := .ready, waitedSlots := 0 } else t
      | .ready => t := by
  unfold release State.thread?
  rw [tget_tmap]
  all_goals congr 1

/-- A message kept in the retention log changes what is retained for its chip, and the memory of the log. -/
theorem retainMsg_frame (chip : Nat) (s : State) (m : Msg) :
    retainMsg chip s m = { s with mem := (retainMsg chip s m).mem, poison := (retainMsg chip s m).poison,
                                  fabric := (retainMsg chip s m).fabric } := by
  unfold retainMsg
  split <;> rfl

/-- Retaining a message leaves every replay buffer as it is. -/
theorem retainMsg_replay (chip : Nat) (s : State) (m : Msg) (c : Nat) :
    ((retainMsg chip s m).dest c).replay = (s.dest c).replay := by
  unfold retainMsg
  split
  · rfl
  · rw [dest_setDest]
    split
    · rename_i h; rw [h]
    · rfl

/-- Retaining a message leaves the threads as they are. -/
theorem retainMsg_threads (chip : Nat) (s : State) (m : Msg) : (retainMsg chip s m).threads = s.threads := by
  rw [retainMsg_frame]

/-- An acknowledgement through A: the replay buffer keeps what is after A. -/
theorem ackThrough_replay (s : State) (chip : Nat) (a : BitVec 32) :
    ((ackThrough s chip a).dest chip).replay = (s.dest chip).replay.filter fun m => !seqLe m.seq a := by
  unfold ackThrough wakeCopies wakeSenders
  dsimp only
  rw [wakeWhere_frame]
  show ((List.foldl (retainMsg chip) _ _).dest chip).replay = _
  rw [foldl_field (retainMsg chip) (fun s => (s.dest chip).replay) fun s m => retainMsg_replay chip s m chip]
  show ((s.setDest chip _).dest chip).replay = _
  rw [dest_setDest, if_pos rfl]

/-- An acknowledgement through A: what a thread's record becomes. -/
theorem ackThrough_thread {s : State} {chip : Nat} {a : BitVec 32} {n : Nat} {t : Thread} (h : s.thread? n = some t) :
    (ackThrough s chip a).thread? n = some (
      let t1 := { t with remotePending := t.remotePending.filter fun p => !(p.1 = chip && seqLe p.2 a) }
      match t1.run with
      | .waiting .remote => { t1 with run := .ready, waitedSlots := 0 }
      | .waiting (.send i) =>
        if (t1.chEnd i).port && 16 ≤ (t1.chEnd i).desc.toNat then { t1 with run := .ready, waitedSlots := 0 } else t1
      | _ => t1) := by
  unfold ackThrough wakeCopies wakeSenders
  dsimp only
  rw [wakeWhere_frame]
  unfold release State.thread?
  dsimp only
  rw [tget_tmap, tget_tmap, foldl_field (retainMsg chip) (·.threads) fun s m => retainMsg_threads chip s m]
  simp only [show (s.setDest chip _).threads = s.threads from rfl, show tget s.threads n = some t from h, Option.map_some]
  cases hr : t.run with
  | ready => rfl
  | waiting r => cases r <;> simp [Thread.chEnd]

end Sys2Proof.Machine
end

