-- ==== Sys2Proof/Laws/Issue.lean ====
section
/-! SUPPORT. What the sequencer's choices of a thread mean (R58, R59). -/

namespace Sys2Proof.Machine

open Sys2Proof

/-- No thread of a core is spilled and ready exactly when none of the records says so. -/
theorem oldestSpilled_none (s : State) (lc : Nat) :
    oldestSpilled s lc = none ↔ ∀ p ∈ s.threads, (p.2.lcore = lc && p.2.isSpilled && p.2.run = .ready) = false := by
  unfold oldestSpilled
  generalize s.threads = l
  let f := fun (acc : Option (Nat × Thread)) (x : Nat × Thread) =>
    if (x.2.lcore = lc && x.2.isSpilled && x.2.run = .ready) = true then
      match acc with
      | some (_, a) => if x.2.readySince < a.readySince then some x else acc
      | none => some x
    else acc
  have hs : ∀ (l : List (Nat × Thread)) (a : Nat × Thread), l.foldl f (some a) ≠ none := by
    intro l
    induction l with
    | nil => intro a; simp
    | cons x r ih =>
      intro a
      rw [List.foldl_cons]
      simp only [f]
      split
      · split
        · exact ih _
        · exact ih _
      · exact ih _
  have hn : ∀ (l : List (Nat × Thread)), l.foldl f none = none ↔ ∀ p ∈ l, (p.2.lcore = lc && p.2.isSpilled && p.2.run = .ready) = false := by
    intro l
    induction l with
    | nil => simp
    | cons x r ih =>
      rw [List.foldl_cons]
      simp only [f]
      by_cases h : (x.2.lcore = lc && x.2.isSpilled && x.2.run = .ready) = true
      · rw [if_pos h]
        constructor
        · intro e; exact absurd e (hs _ _)
        · intro e; have := e x (List.mem_cons_self ..); rw [h] at this; cases this
      · rw [if_neg h, ih]
        constructor
        · intro e p hp
          rcases List.mem_cons.mp hp with rfl | hp
          · simpa using h
          · exact e p hp
        · intro e p hp; exact e p (List.mem_cons_of_mem _ hp)
  exact hn l
/-- A record that keeps its core, place, state and age does not change which thread is the oldest. -/
theorem oldestSpilled_setThread {s : State} {tid lc : Nat} {t u : Thread} (ht : s.thread? tid = some t)
    (h1 : u.lcore = t.lcore) (h2 : u.seat = t.seat) (h3 : u.run = t.run) (h : oldestSpilled s lc = none) :
    oldestSpilled (s.setThread tid u) lc = none := by
  rw [oldestSpilled_none] at h ⊢
  intro p hp
  rcases mem_tset hp with rfl | hp
  · have := h _ (mem_of_tget ht)
    simpa [h1, h2, h3, Thread.isSpilled] using this
  · exact h p hp

end Sys2Proof.Machine
end

