-- ==== Sys2Proof/Laws/Lanes.lean ====
section
/-! SUPPORT. Elements of vectors: an element of a packed list is the list's (R51, R104). -/

namespace Sys2Proof.Machine

open Sys2Proof

/-- An element of the packed number. -/
theorem packNat_elem (w : Nat) (es : List Nat) (e : Nat) :
    packNat w es / 2 ^ (w * e) % 2 ^ w = es.getD e 0 % 2 ^ w := by
  induction es generalizing e with
  | nil => simp [packNat]
  | cons x r ih =>
    have hp : packNat w (x :: r) = packNat w r * 2 ^ w + x % 2 ^ w := rfl
    have hpos : 0 < 2 ^ w := Nat.two_pow_pos w
    cases e with
    | zero => simp [hp]
    | succ n =>
      rw [hp, Nat.mul_succ, Nat.add_comm (w * n) w, pow_add, ← Nat.div_div_eq_div_mul, Nat.add_comm,
        Nat.add_mul_div_right _ _ hpos, Nat.div_eq_of_lt (Nat.mod_lt _ hpos), Nat.zero_add, ih n]
      rfl

/-- An element of a packed token. -/
theorem elem_pack (w : Nat) (es : List Nat) (e : Nat) (h : w * (e + 1) ≤ 512) : elem w (pack w es) e = es.getD e 0 % 2 ^ w := by
  unfold elem pack
  rw [BitVec.toNat_ofNat, ← packNat_elem]
  have : w * (e + 1) = w * e + w := Nat.mul_succ w e
  rw [show 512 = w * e + (512 - w * e) by omega, pow_add, Nat.mod_mul_right_div_self]
  exact Nat.mod_mod_of_dvd _ (pow_dvd_pow 2 (by omega))

/-- An element of a token built element by element. -/
theorem elem_pack_map (w n : Nat) (f : Nat → Nat) (e : Nat) (he : e < n) (h : w * n ≤ 512) :
    elem w (pack w ((List.range n).map f)) e = f e % 2 ^ w := by
  rw [elem_pack w _ e (le_trans (Nat.mul_le_mul_left w he) h)]
  simp [List.getD, he]

/-- The elements of a type fill at most the register. -/
theorem lanes_width (ty : Ty) : ty.width * ty.lanes ≤ 512 := by cases ty <;> decide

/-- An element is below two to its width. -/
theorem elem_mod (w : Nat) (x : Vec512) (e : Nat) : elem w x e % 2 ^ w = elem w x e := Nat.mod_mod _ _

/-- The way to `WritesV`. -/
theorem writesV_of_regStep {s : State} {t : Thread} {i : Instr} {d : VReg} {x : Vec512} {f : Thread → Thread} (ht : Issues s t)
    (hi : exec i s = regStep s f) (hf : f t = writeV t d x) : WritesV s t i d x :=
  Completes.congr (completes_of_regStep hi ht) ht hf

end Sys2Proof.Machine
end

