-- ==== Sys2Proof/Laws/Signals.lean ====
section
/-! SUPPORT. Laws of the signals to the host and of the management registers: vectors touch MSI-X alone; a reply adds one word. -/

namespace Sys2Proof.Machine

open Sys2Proof

/-- A vector that fires changes MSI-X alone (R322). -/
theorem fire_frame (s : State) (vec fn : Nat) : fire s vec fn = { s with msix := (fire s vec fn).msix } := rfl

/-- Both physical functions' vectors change MSI-X alone (R322). -/
theorem firePhysical_frame (s : State) (vec : Nat) : firePhysical s vec = { s with msix := (firePhysical s vec).msix } := rfl

theorem foldl_fire (l : List Nat) (s : State) :
    l.foldl (fun s fn => fire s 0 fn) s = { s with msix := (l.foldl (fun s fn => fire s 0 fn) s).msix } := by
  induction l generalizing s with
  | nil => rfl
  | cons a r ih => rw [List.foldl_cons, ih]; rfl

/-- A change of READY or INPUT reaches every function through MSI-X alone (R322). -/
theorem fireEvery_frame (s : State) : fireEvery s = { s with msix := (fireEvery s).msix } := foldl_fire _ _

/-- A write of INPUT changes INPUT and MSI-X alone (R334). -/
theorem setInput_frame (s : State) (w : Word) :
    setInput s w = { s with mgmt := { s.mgmt with input := w }, msix := (setInput s w).msix } := by
  unfold setInput
  split
  · rfl
  · rw [fireEvery_frame]

/-- A reply for the host adds its status to the replies and fires vector 1 (R314, R322). -/
theorem reply_host (s : State) (n : Nat) :
    reply s .host n = { s with mgmt := { s.mgmt with svcRsp := s.mgmt.svcRsp ++ [w64 n] }, msix := (reply s .host n).msix } := rfl

/-- What the firmware reads for the host, where every address is populated (R329). -/
theorem readFor_host (s : State) (a n : Nat) : readFor s .host a n =
    if ((List.range n).map (a + ·)).all populated then some (s.readMem a n, s) else none := rfl

/-- The request of the host that is served next (R334). -/
theorem nextRequest_host (s : State) (a b : Word) (r : List Word) (h : s.mgmt.svcReq = a :: b :: r) :
    nextRequest s .host = some (a, b) ∧ takeRequest s .host = { s with mgmt := { s.mgmt with svcReq := r } } := by
  simp [nextRequest, takeRequest, h]

end Sys2Proof.Machine
end

