-- ==== Sys2Proof/Laws/Sync.lean ====
section
/-! SUPPORT. Laws of the sync unit's decisions and of retirement: where the log may only be lost, nothing stops; a thread that has
retired has no record. -/

namespace Sys2Proof.Machine

open Sys2Proof

/-- A quiet decider records or loses the log, and goes on (R136). -/
theorem logRecord_quiet (s : State) (d : Decider) (e : LogEntry) (h : d.quiet = true) : ∃ s', logRecord s d e = .ok s' := by
  unfold logRecord
  split
  · exact ⟨_, rfl⟩
  · cases logWrite s d e <;> simp

/-- A quiet decider finds the next entry or loses the log, and goes on (R136). -/
theorem logNext_quiet (s : State) (d : Decider) (h : d.quiet = true) : ∃ r, logNext s d = .ok r := by
  unfold logNext
  simp only [h, if_true]
  split
  · exact ⟨_, rfl⟩
  · split <;> exact ⟨_, rfl⟩

/-- A quiet walk completes (R129, R136). -/
theorem walkObject_quiet (d : Decider) (h : d.quiet = true) (cl n left : Nat) :
    ∀ s, ∃ s', walkObject (some d) cl n left s = .ok s' := by
  induction left with
  | zero =>
    intro s
    rw [walkObject]
    split
    · exact ⟨_, rfl⟩
    · split
      · exact ⟨_, rfl⟩
      · unfold grantReached
        simp only
        split
        · exact ⟨_, rfl⟩
        · obtain ⟨s1, h1⟩ := logRecord_quiet s d (grantEntry s cl n ‹_›) h
          rw [h1]; exact ⟨_, rfl⟩
      · exact ⟨_, rfl⟩
  | succ left ih =>
    intro s
    rw [walkObject]
    split
    · exact ⟨_, rfl⟩
    · split
      · exact ⟨_, rfl⟩
      · unfold grantReached
        simp only
        split
        · exact ⟨_, rfl⟩
        · obtain ⟨s1, h1⟩ := logRecord_quiet s d (grantEntry s cl n ‹_›) h
          rw [h1]; exact ⟨_, rfl⟩
      · exact ih _

/-- A fold of steps that complete completes. -/
theorem foldStop_ok {α : Type} (f : State → α → Except Stop State) (h : ∀ s a, ∃ s', f s a = .ok s') (l : List α) :
    ∀ s, ∃ s', foldStop f l s = .ok s' := by
  induction l with
  | nil => exact fun s => ⟨s, rfl⟩
  | cons a l ih =>
    intro s
    obtain ⟨s1, h1⟩ := h s a
    rw [foldStop, h1]
    exact ih s1

/-- Quiet grants of a replay complete (R136). -/
theorem replayGrants_quiet (d : Decider) (h : d.quiet = true) (left : Nat) : ∀ s, ∃ s', replayGrants d left s = .ok s' := by
  induction left with
  | zero => exact fun s => ⟨_, rfl⟩
  | succ left ih =>
    intro s
    obtain ⟨r, hr⟩ := logNext_quiet s d h
    rw [replayGrants, hr]
    split
    · exact ⟨_, rfl⟩
    · obtain ⟨_ | ⟨i, e⟩, s1⟩ := r
      · exact foldStop_ok _ (fun s o => walkObject_quiet d h _ _ _ s) _ s1
      · dsimp only
        split
        · exact ⟨_, rfl⟩
        · split
          · exact ⟨_, rfl⟩
          · exact ih _

/-- A quiet decision completes (R129, R136). -/
theorem decide_quiet (s : State) (d : Decider) (cl n : Nat) (atOnce : Bool) (tid : Nat) (h : d.quiet = true) :
    ∃ s', decide s d cl n atOnce tid = .ok s' := by
  unfold decide
  split
  · exact ⟨_, rfl⟩
  · split
    · exact ⟨_, rfl⟩
    · split
      · exact replayGrants_quiet d h _ _
      · split
        · exact ⟨_, rfl⟩
        · generalize s.modCtx d.ctx _ = s1
          simp only
          split
          · exact walkObject_quiet d h cl n _ _
          · exact ⟨_, rfl⟩

/-- Quietly, a thread's places are all given up (R61). -/
theorem exitPlaces_quiet (s : State) (d : Decider) (tid : Nat) (h : d.quiet = true) : ∃ s', exitPlaces s d tid = .ok s' := by
  have ha : ∀ cl s i, ∃ s', dropQueued s d cl i = .ok s' := fun cl s i => by
    unfold dropQueued
    split
    · exact ⟨_, rfl⟩
    · simp [h]
  have hr : ∀ cl s i, ∃ s', releasePlace s d cl i tid = .ok s' := fun cl s i => by
    unfold releasePlace
    split
    · exact ⟨_, rfl⟩
    · exact decide_quiet _ d cl _ _ tid h
  unfold exitPlaces
  simp only
  obtain ⟨s1, h1⟩ := foldStop_ok _ (ha 0) (ownedPlaces s 0 tid .queued) s
  obtain ⟨s2, h2⟩ := foldStop_ok _ (hr 0) (ownedPlaces s 0 tid .granted) s1
  obtain ⟨s3, h3⟩ := foldStop_ok _ (ha 1) (ownedPlaces s2 1 tid .queued) s2
  obtain ⟨s4, h4⟩ := foldStop_ok _ (hr 1) (ownedPlaces s2 1 tid .granted) s3
  simp only [h1, h2, h3, h4]
  exact ⟨s4, rfl⟩

/-- A retirement that logs quietly completes: no log entry stops it (R136, R141). -/
theorem retireThread_quiet (s : State) (tid : Nat) : ∃ s', retireThread s tid true = .ok s' := by
  unfold retireThread
  split
  · exact ⟨_, rfl⟩
  · obtain ⟨s1, h1⟩ := exitPlaces_quiet (drainThread s (s.coreOf ‹_›) tid) { Thread.decider ‹_› with quiet := true } tid rfl
    rw [h1]
    exact ⟨_, rfl⟩

/-- Marking an end leaves the threads (R121). -/
theorem markGone_threads (s : State) (p q : Nat) : (markGone s p q).threads = s.threads := by
  unfold markGone wakeSlot; rw [wakeOne_frame]; rfl

/-- Ends that name a thread that has gone are marked; no thread's record changes (R121). -/
theorem orphanEnds_threads (s : State) (tid : Nat) : (orphanEnds s tid).threads = s.threads := by
  unfold orphanEnds
  have h : ∀ (l : List (Nat × Thread)) (s : State), (l.foldl (fun s (p, t) =>
    (List.range 8).foldl (fun s q =>
      let e := t.chEnd q
      if e.bound && !e.port && e.peer.toNat = tid then markGone s p q else s) s) s).threads = s.threads := by
    intro l
    induction l with
    | nil => intro s; rfl
    | cons x r ih =>
      intro s
      rw [List.foldl_cons, ih]
      have h2 : ∀ (m : List Nat) (s : State), (m.foldl (fun s q =>
        let e := x.2.chEnd q
        if e.bound && !e.port && e.peer.toNat = tid then markGone s x.1 q else s) s).threads = s.threads := by
        intro m
        induction m with
        | nil => intro s; rfl
        | cons y m ih2 =>
          intro s
          rw [List.foldl_cons, ih2]
          dsimp only
          split
          · exact markGone_threads _ _ _
          · rfl
      exact h2 _ _
  exact h _ _

/-- The oldest spilled-ready thread has a record. -/
theorem oldestSpilled_mem {s : State} {lc : Nat} {p : Nat × Thread} (h : oldestSpilled s lc = some p) : p ∈ s.threads := by
  unfold oldestSpilled at h
  refine (List.foldlRecOn (motive := fun acc => ∀ p, acc = some p → p ∈ s.threads) s.threads _ (by simp) ?_) p h
  rintro acc ha ⟨tid, t⟩ hx q hq
  dsimp only at hq
  split at hq
  · split at hq
    · split at hq
      · cases hq; exact hx
      · exact ha q hq
    · cases hq; exact hx
  · exact ha q hq

/-- The seat that becomes free is given to a thread that has a record: no record is made (R58). -/
theorem seatOldest_none {s : State} {lc n : Nat} (h : s.thread? n = none) : (seatOldest s lc).thread? n = none := by
  unfold seatOldest
  split
  · rename_i tid t i ho _
    have : n ≠ tid := by
      rintro rfl
      exact tget_of_mem (oldestSpilled_mem ho) h
    unfold State.thread? State.setThread at *
    rw [tget_tset_other _ _ _ _ this]
    exact h
  · exact h

/-- Leaving a core leaves every thread's record (R283). -/
theorem leaveCore_threads (s : State) (isl : Nat) : (leaveCore s isl).threads = s.threads := by
  unfold leaveCore
  dsimp only
  split <;> rfl

/-- Counting a thread's end leaves every thread's record (R283). -/
theorem threadEnded_threads (s : State) (lc : Nat) : (threadEnded s lc).threads = s.threads := by
  unfold threadEnded leaveSpent
  dsimp only
  split
  · rw [leaveCore_threads]; rfl
  · rfl

/-- A thread that has retired has no record (R61). -/
theorem retireThread_thread {s s' : State} {tid : Nat} {quiet : Bool} (h : retireThread s tid quiet = .ok s') :
    s'.thread? tid = none := by
  unfold retireThread at h
  split at h
  · cases h; assumption
  · split at h
    · cases h
    · simp only [Except.ok.injEq] at h
      rw [← h]
      unfold State.thread?
      rw [threadEnded_threads]
      apply seatOldest_none
      unfold State.thread?
      rw [orphanEnds_threads]
      simp [freeRecordOf]

end Sys2Proof.Machine
end

