-- ==== Sys2Proof/Tests/Slice0.lean ====
section
/-! SUPPORT. Tests of the model: ill-formed terms, words written out from the encoding tables, the spec's worked examples, and for
every statement a state that meets its hypotheses. -/

open Sys2Proof Sys2Proof.Machine

set_option Elab.async false

/-! ## Well-formedness (R18 to R34): one ill-formed term for each check -/

theorem test_illformed_integer_type : wellFormed (.add .f32 1 2 3) = false := by decide
theorem test_illformed_count_type : wellFormed (.clz .qx4 1 2) = false := by decide
theorem test_illformed_bitfield_type : wellFormed (.bfx .s32 1 2 3) = false := by decide
theorem test_illformed_loop_g0 : wellFormed (.loop 0 1) = false := by decide
theorem test_illformed_load_size : wellFormed (.ld .plain 7 1 2 0) = false ∧ wellFormed (.ldw 7 1 2 0) = false := by decide
theorem test_illformed_store_size : wellFormed (.st .rel 4 1 2 0) = false := by decide
theorem test_illformed_fadd_type : wellFormed (.amo .fadd .acq .s32 1 2 3) = false := by decide
theorem test_illformed_atomic_type : wellFormed (.rat .cas .rel .s16 1 2 3) = false := by decide
theorem test_illformed_remote_store_order : wellFormed (.rst .acq .s64 1 2) = false := by decide
theorem test_illformed_fence_alias : wellFormed (.fence .rel .aliases) = false := by decide
theorem test_illformed_csr : wellFormed (.csrr 1 0x0D) = false ∧ wellFormed (.csrw 1 2 0x18) = false := by decide
theorem test_illformed_vector_rounding : wellFormed (.vadd .rs false .f32 1 2 3) = false ∧ wellFormed (.vadd .rz false .s8 1 2 3) = false := by
  decide
theorem test_illformed_fma_type : wellFormed (.vfma .rn false .s32 1 2 3) = false := by decide
theorem test_illformed_min_saturates : wellFormed (.vmin .rn true .f32 1 2 3) = false := by decide
theorem test_illformed_abs_unsigned : wellFormed (.vabs .rn false .n8 1 2) = false := by decide
theorem test_illformed_neg_rounding : wellFormed (.vneg .rp false .f32 1 2) = false := by decide
theorem test_illformed_and_float : wellFormed (.vand .rn false .f32 1 2 3) = false := by decide
theorem test_illformed_exp2_rounding : wellFormed (.vexp2 .rz false .f32 1 2) = false := by decide
theorem test_illformed_convert : wellFormed (.vcvt .rn .qx4 .f32 1 2 0 0) = false ∧ wellFormed (.vcvt .rn .bf16 .f32 1 2 3 0) = false := by
  decide
theorem test_illformed_convert_e8m0 : wellFormed (.vcvt .rs .e8m0 .f32 1 2 0 0) = false := by decide
theorem test_illformed_permute_type : wellFormed (.vperm .s64 1 2 3) = false := by decide
theorem test_illformed_element : wellFormed (.vins .f32 1 2 16) = false ∧ wellFormed (.vins .f32 1 2 15) = true := by decide
theorem test_illformed_reduce_and : wellFormed (.vred .and .f32 1 2) = false := by decide

/-! ## Decoding (R17 to R34): one word of each major opcode, written out from the tables -/

theorem test_decode_integer : decode 0b000001_01100_01000_01001_0000110_1010#32 = .ok (.adds .s32 12 8 9) := by decide
theorem test_decode_immediates :
    decode 0b000010_00001_00001_1111111111111111#32 = .ok (.addi 1 1 0xFFFF) ∧
    decode 0b000011_00010_00011_0000000000001111#32 = .ok (.andi 2 3 15) ∧
    decode 0b000100_00010_00011_0000000000001111#32 = .ok (.ori 2 3 15) ∧
    decode 0b000101_00010_00011_0000000000001111#32 = .ok (.xori 2 3 15) ∧
    decode 0b000110_00010_00011_1000000000000000#32 = .ok (.slti 2 3 0x8000) ∧
    decode 0b000111_00100_000_11_0000000000000001#32 = .ok (.lui 4 3 1) ∧
    decode 0b001000_10100_00000_0000000000010000#32 = .ok (.addpc 20 16) ∧
    decode 0b001001_01000_01000_00000000_01_100001#32 = .ok (.srli 8 8 33) := by decide
theorem test_decode_branches :
    decode 0b001010_00001_00010_0000000000000011#32 = .ok (.beq 1 2 3) ∧
    decode 0b001100_00001_00010_0000000000000011#32 = .ok (.blt 1 2 3) ∧
    decode 0b001101_00001_00010_0000000000000011#32 = .ok (.bge 1 2 3) ∧
    decode 0b001110_00001_00010_0000000000000011#32 = .ok (.bltn 1 2 3) ∧
    decode 0b001111_00001_00010_0000000000000011#32 = .ok (.bgen 1 2 3) ∧
    decode 0b010000_11111111111111111111111110#32 = .ok (.j 0x3FFFFFE) ∧
    decode 0b010001_00000000000000000000000101#32 = .ok (.jl 5) ∧
    decode 0b010010_00000_11111_0000000000000000#32 = .ok (.jlr 0 31 0) ∧
    decode 0b010011_00110_00000_1111111111111111#32 = .ok (.loop 6 0xFFFF) := by decide
theorem test_decode_memory :
    decode 0b010100_01101_01011_00000000001_110_01#32 = .ok (.ld .acq 6 13 11 1) ∧
    decode 0b010101_00001_00010_11111111111_000_01#32 = .ok (.st .rel 0 1 2 0x7FF) ∧
    decode 0b010110_00001_10100_00000000000_000_10#32 = .ok (.ldv .fresh 1 20 0) ∧
    decode 0b010111_01111_10100_00000000000_000_00#32 = .ok (.stv .plain 15 20 0) ∧
    decode 0b011000_00101_00010_00000000000_011_01#32 = .ok (.ldc 3 5 2 0) ∧
    decode 0b011000_00101_00010_00000000000_011_00#32 = .ok (.ldw 3 5 2 0) ∧
    decode 0b011001_00101_00010_00000000000_011_00#32 = .ok (.stf 3 5 2 0) ∧
    decode 0b011001_00000_00010_00000000000_000_01#32 = .ok (.clrf 2 0) := by decide
theorem test_decode_atomics :
    decode 0b011010_00001_00010_00011_010_0001_1100#32 = .ok (.amo .add .rel .s64 1 2 3) ∧
    decode 0b011011_00000_00000_00000_000000_10_011#32 = .ok (.fence .rel .cluster) ∧
    decode 0b011100_00000_00010_00011_010_1111_1101#32 = .ok (.rst .rel .n64 2 3) ∧
    decode 0b011100_00001_00010_00011_011_1000_0000#32 = .ok (.rat .fadd .acqrel .f32 1 2 3) := by decide
theorem test_decode_channels_groups_objects :
    decode 0b011101_00000_00011_00100_0000000_0000#32 = .ok (.send 3 4) ∧
    decode 0b011101_00101_00011_00000_0000001_0000#32 = .ok (.recv 5 3) ∧
    decode 0b011110_00101_00011_00000_0000000_0000#32 = .ok (.join 5 3) ∧
    decode 0b011111_00101_00011_00111_0000010_0000#32 = .ok (.xreq 5 3 7) ∧
    decode 0b011111_00000_00011_00111_0000110_0000#32 = .ok (.xswap 3 7) := by decide
theorem test_decode_keys_barriers :
    decode 0b100000_00010_00011_00100_0000000_0000#32 = .ok (.kset 2 3 4) ∧
    decode 0b100000_00101_00010_00000_0000010_0001#32 = .ok (.kget 5 2 1) ∧
    decode 0b100000_00101_00010_00110_0000011_1111#32 = .ok (.rdraw 5 2 6 15) ∧
    decode 0b100001_00101_00011_00000_0000010_0000#32 = .ok (.bcwait 5 3) := by decide
theorem test_decode_fabric :
    decode 0b100010_00101_00011_00100_0000000_0000#32 = .ok (.cfgld 5 3 4) ∧
    decode 0b100010_00000_00011_00100_0000011_0001#32 = .ok (.launch true 3 4) ∧
    decode 0b100011_00101_00011_00000_0000000_0000#32 = .ok (.copy 5 3) ∧
    decode 0b100100_00101_00011_00100_0000000_0000#32 = .ok (.rate 5 3 4) := by decide
theorem test_decode_system :
    decode 0b100101_00000_00000_00000_0000_1111111#32 = .ok (.trap 127) ∧
    decode 0b100101_00101_00000_00000_0010_0000111#32 = .ok (.csrr 5 7) ∧
    decode 0b100101_00101_00011_00000_0011_0010000#32 = .ok (.csrw 5 3 16) ∧
    decode 0b100101_00101_00011_11111_0111_1111110#32 = .ok (.spawn 5 3 0xFFE) ∧
    decode 0b100101_00101_00011_00000_1011_0000000#32 = .ok (.waitany 5 3) := by decide
theorem test_decode_vectors :
    decode 0b100110_0011_0001_0010_001_1_000000_0000#32 = .ok (.vadd .rz true .f32 3 1 2) ∧
    decode 0b100110_0011_0001_0010_000_0_010110_1010#32 = .ok (.vmulh .rn false .s32 3 1 2) ∧
    decode 0b101000_0010_00111_000_0010_001111_0000#32 = .ok (.vins .f32 2 7 15) ∧
    decode 0b101000_0100_00101_000_0011_000000_1011#32 = .ok (.vext .n32 5 4 0) ∧
    decode 0b101000_0100_0011_0000_0101_000000_0000#32 = .ok (.vred .add .f32 4 3) := by decide
theorem test_decode_rejects_reserved :
    decode 0b101001_00000_00000_0000000000000000#32 = .error .major ∧
    decode 0b011010_00001_00010_00011_100_0001_1100#32 = .error .secondary ∧
    decode 0b010110_10001_10100_00000000000_000_00#32 = .error .zeroField ∧
    decode 0b100110_0011_0001_0010_101_0_000000_0000#32 = .error .operand := by decide

/-! ## Instructions (expected values from the spec's worked examples, or worked out by hand from the rule that is named) -/

/-- A thread with values in its g registers, at address 0x100 in system mode, on logical core 0 of cluster 0. -/
def tThread (l : List (GReg × Word)) : Thread :=
  l.foldl (fun t x => writeG t x.1 x.2) (newThread State.reset 0 0 (.resident 0) 0x100 0 0 true 0 none)

/-- A powered state whose thread 1 issues. -/
def tState (t : Thread) : State :=
  { (State.reset.setThread 1 t).setLct 0 { LctEntry.none with tag := 1, allocated := true, phys := 0 } with cur := 1, power := .running }

/-- The issuing thread after a step. -/
def threadAfter : Host.Outcome State Fault Refusal → Option Thread
  | .next s => s.thread? s.cur
  | _ => none

/-- A g register of the issuing thread after a step. -/
def gAfter (r : GReg) (o : Host.Outcome State Fault Refusal) : Option Word := (threadAfter o).map (readG · r)

/-- A g register after an instruction on given registers. -/
def gOf (i : Instr) (l : List (GReg × Word)) (r : GReg) : Option Word := gAfter r (exec i (tState (tThread l)))

/-- The address after an instruction on given registers. -/
def pcOf (i : Instr) (l : List (GReg × Word)) : Option Word := (threadAfter (exec i (tState (tThread l)))).map Thread.pc

/-- The program counter, cause, value and saved address after a step. -/
def trapOf (i : Instr) (t : Thread) : Option (Word × Word × Word × Word) :=
  (threadAfter (exec i (tState t))).map fun x => (x.pc, x.tcause, x.tvalue, x.tpc)

/-- A vector register that holds lanes of 32 bits in lanes 0 and 1, with the rest equal to a third. -/
def lanes3 (a b c : Nat) : Vec512 := BitVec.ofNat 512 (a + b * 2 ^ 32 + ((List.range 14).map fun i => c * 2 ^ (64 + 32 * i)).sum)

/-- A 32-bit lane of a v register after an instruction. -/
def laneOf (i : Instr) (l : List (VReg × Vec512)) (r : VReg) (n : Nat) : Option Nat :=
  (threadAfter (exec i (tState (l.foldl (fun t x => writeV t x.1 x.2) (tThread []))))).map fun t =>
    (readV t r).toNat / 2 ^ (32 * n) % 2 ^ 32

-- The worked example of "Thread instructions: arithmetic, control flow and vectors".
theorem test_add_s32_wraps : gOf (.add .s32 10 8 9) [(8, 0x7FFFFFFF), (9, 1)] 10 = some 0xFFFFFFFF80000000 := by decide
theorem test_add_n32_wraps : gOf (.add .n32 11 8 9) [(8, 0x7FFFFFFF), (9, 1)] 11 = some 0x80000000 := by decide
theorem test_adds_s32_clamps : gOf (.adds .s32 12 8 9) [(8, 0x7FFFFFFF), (9, 1)] 12 = some 0x7FFFFFFF := by decide
theorem test_srli_33 : gOf (.srli 8 8 33) [(8, 0xFFFFFFFFFFFFFFFF)] 8 = some 0x7FFFFFFF := by decide
theorem test_vmul_f32 : laneOf (.vmul .rn false .f32 3 1 2) [(1, lanes3 0x3F800000 0x40000000 0x3F000000), (2, lanes3 0x40800000 0xBF800000 0x40000000)] 3 1
    = some 0xC0000000 := by decide +kernel
theorem test_vred_add_f32 : laneOf (.vred .add .f32 4 3) [(3, lanes3 0x40800000 0xC0000000 0x3F800000)] 4 0 = some 0x41800000 := by
  decide +kernel
theorem test_loop_falls_through : pcOf (.loop 6 0xFFFF) [(6, 1)] = some 0x104 ∧ gOf (.loop 6 0xFFFF) [(6, 1)] 6 = some 0 := by decide
theorem test_loop_goes_back : pcOf (.loop 6 0xFFFF) [(6, 2)] = some 0xFC := by decide
-- R93: the corners of division.
theorem test_div_by_zero : gOf (.div .s32 3 1 2) [(1, 7)] 3 = some 0xFFFFFFFFFFFFFFFF ∧ gOf (.div .n32 3 1 2) [(1, 7)] 3 = some 0xFFFFFFFF := by
  decide
theorem test_rem_sign_and_overflow : gOf (.rem .s64 3 1 2) [(1, 0xFFFFFFFFFFFFFFF9), (2, 2)] 3 = some 0xFFFFFFFFFFFFFFFF ∧
    gOf (.rem .s64 3 1 2) [(1, 0x8000000000000000), (2, 0xFFFFFFFFFFFFFFFF)] 3 = some 0 := by decide
theorem test_mulh_signs : gOf (.mulh .s64 3 1 2) [(1, 0xFFFFFFFFFFFFFFFF), (2, 2)] 3 = some 0xFFFFFFFFFFFFFFFF ∧
    gOf (.mulh .n64 3 1 2) [(1, 0xFFFFFFFFFFFFFFFF), (2, 2)] 3 = some 1 := by decide
-- R94: a shift count that is not below the width.
theorem test_sll_width : gOf (.sll .s32 3 1 2) [(1, 1), (2, 32)] 3 = some 0 ∧ gOf (.sra .s8 3 1 2) [(1, 0x80), (2, 200)] 3 = some 0xFFFFFFFFFFFFFFFF := by
  decide
-- R95: the example gives position 8 and length 32.
theorem test_bfx_example : gOf (.bfx .n64 3 1 2) [(1, 0x1122334455667788), (2, 0x808)] 3 = some 0x44556677 := by decide
theorem test_sel_reads_d : gOf (.sel .s64 3 1 2) [(1, 5), (2, 9), (3, 0)] 3 = some 9 ∧ gOf (.sel .s64 3 1 2) [(1, 5), (2, 9), (3, 2)] 3 = some 5 := by
  decide
theorem test_clz_popc : gOf (.clz .n8 3 1) [(1, 0xF01)] 3 = some 7 ∧ gOf (.popc .n8 3 1) [(1, 0xF03)] 3 = some 2 := by decide
theorem test_g0_is_zero : gOf (.addi 0 1 5) [(1, 5)] 0 = some 0 := by decide
theorem test_lui_places : gOf (.lui 4 3 0x8001) [] 4 = some 0x8001000000000000 ∧ gOf (.lui 4 1 0x8001) [] 4 = some 0xFFFFFFFF80010000 := by
  decide
theorem test_branches : pcOf (.bne 1 0 0xFFFE) [(1, 1)] = some 0xF8 ∧ pcOf (.bltn 1 2 4) [(1, 1), (2, 0xFFFFFFFFFFFFFFFF)] = some 0x110 ∧
    pcOf (.blt 1 2 4) [(1, 1), (2, 0xFFFFFFFFFFFFFFFF)] = some 0x104 := by decide
-- R101: a target whose low bits are set traps at the JLR; R138: the cause word is the code with the precise bit.
theorem test_jlr_align : (trapOf (.jlr 5 31 2) (tThread [(31, 0x400)])).map (fun x => (x.2.2.1, x.2.2.2)) = some (0x402, 0x100) := by decide
theorem test_jlr_links : pcOf (.jlr 5 31 8) [(31, 0x400)] = some 0x408 ∧ gOf (.jlr 5 31 8) [(31, 0x400)] 5 = some 0x104 := by decide
-- R79: f32 to bf16 under the five codes; 500.0 to e4m3 saturates in VCVT.
theorem test_vcvt_codes :
    [Rnd.rn, .rz, .rp, .rm].map (fun r => (convert .f32 .bf16 r true 0 0x3F80C000, convert .f32 .bf16 r true 0 0xBF80C000)) =
      [(0x3F81, 0xBF81), (0x3F80, 0xBF80), (0x3F81, 0xBF80), (0x3F80, 0xBF81)] := by decide +kernel
theorem test_e4m3_saturation : convert .f32 .e4m3 .rn false 0 0x43FA0000 = 0x7F ∧ convert .f32 .e4m3 .rn true 0 0x43FA0000 = 0x7E := by decide +kernel
-- R81 and R82: the worked evaluation of the keyed draw and of stochastic rounding.
theorem test_keyed_draw : keyedDraw 0 0 1 0 1 0 = 0x5881581B := by decide +kernel
theorem test_stochastic : convert .f32 .bf16 .rs true 0x5881581B 0x3F80C000 = 0x3F81 ∧ convert .f32 .bf16 .rs true 0 0x3F80C000 = 0x3F80 := by
  decide +kernel
-- R74 and R75: the block of the example decodes to 1.5, -3.5, 12, 0, 0 and 1.
theorem test_qx4_block : (qx4Block 0x7E ([3, 9, 8, 5, 12, 2] ++ List.replicate 26 0)).take 6 =
    [.fin false 3 (-1), .fin true 7 (-1), .fin false 12 0, .fin false 0 0, .fin false 0 0, .fin false 2 (-1)] := by decide +kernel
-- R83: the example of the aligned sum.
theorem test_dot_sum : dotSum [value .f32 0x3F800000, value .f32 0x33800000, value .f32 0x17800000] = 0x3F800000 := by decide +kernel
-- R133, R137 to R139: TRAP takes SWTRAP after itself; BRK names itself; RETT goes back.
theorem test_trap_saves_next : (trapOf (.trap 9) { tThread [] with tvec := 0x2000 }).map (fun x => (x.1, x.2.2.1, x.2.2.2)) = some (0x2000, 9, 0x104) := by
  decide
theorem test_brk_saves_itself : (trapOf (.brk 3) { tThread [] with tvec := 0x2000 }).map (fun x => (x.1, x.2.2.1, x.2.2.2)) = some (0x2000, 3, 0x100) := by
  decide
theorem test_rett_returns : (threadAfter (exec .rett (tState { tThread [] with status := 3, tpc := 0x500 }))).map (fun x => (x.pc, x.status)) =
    some (0x500, 0) := by decide
-- R53: CSRW gives the old value; THREADID reads the issuing thread.
theorem test_csrw_tvec : gOf (.csrw 5 1 3) [(1, 0x2000)] 5 = some 0 ∧
    (threadAfter (exec (.csrw 5 1 3) (tState (tThread [(1, 0x2000)])))).map Thread.tvec = some 0x2000 := by decide
-- R116, R113: a store into a pot of its own core and a load of its bytes; a misaligned one traps.
theorem test_pot_store_then_load :
    (match exec (.st .plain 3 1 2 0) (tState (tThread [(1, 0x1122334455667788), (2, 0x8000000000000010)])) with
     | .next s => gAfter 3 (exec (.ld .plain 4 3 2 0) s)
     | _ => none) = some 0xFFFFFFFFFFFFFF88 := by decide +kernel
theorem test_pot_misaligned :
    (trapOf (.ld .plain 3 3 2 0) (tThread [(2, 0x8000000000000011)])).map (fun x => x.2.2.1) = some 0x8000000000000011 := by decide +kernel
-- R118: an add in a pot gives the old value.
theorem test_pot_atomic : gOf (.amo .add .relaxed .s64 3 2 1) [(1, 5), (2, 0x8000000000000010)] 3 = some 0 := by decide +kernel
-- R132: the example of the barrier: two arrivals of 256 around a post of 512, then 64 bytes too many.
theorem test_barrier_example :
    let b1 := recompute { count := -256, posts := 1, isOver := false, complete := false }
    let b2 := recompute { b1 with count := 256, posts := 0 }
    let b3 := recompute { b2 with count := 0 }
    let b4 := recompute { b3 with count := -64 }
    (b1.complete, b2.complete, b3.complete, b4.complete, b4.isOver) = (false, false, true, false, true) := by decide
-- R123: the first place of object 3 in cluster 0, in generation 1.
theorem test_place_handle : syncHandle 1 3 0 0 = 0x0100300000000000 := by decide
-- R123: the first object of a cluster in generation 1.
theorem test_xnew_handle : gOf (.xnew 3 1) [] 3 = some 0x0100000000000000 := by decide +kernel
-- R130, R131: KSET then KGET.
theorem test_kset_kget :
    (match exec (.kset 2 1 3) (tState (tThread [(1, 0x0000010000000001), (3, 7)])) with
     | .next s => gAfter 5 (exec (.kget 5 2 1) s)
     | _ => none) = some 7 := by decide +kernel
-- R133: NOP and YIELD of a lone thread only go on; CHKERR of a clear register.
theorem test_nop_yield : pcOf .nop [] = some 0x104 ∧ pcOf .yield [] = some 0x104 := by decide +kernel
theorem test_exit_retires : threadAfter (exec .exit (tState (tThread []))) = none := by decide +kernel
theorem test_spawn_handles : (gOf (.spawn 5 0 4) [] 5).isSome = true := by decide +kernel
-- R139: an undefined word takes ILLEGAL with the word.
theorem test_undefined_word : (trapOf (.undefinedInstruction 0) (tThread [])).map (fun x => x.2.2) = some (0, 0x100) := by decide
-- R334, R54: system software clears the fault record that CTXSEL selects.
theorem test_clear_fault : (match exec .clearFaultRecord (tState (tThread [])) with
    | .next s => some (s.ctx 0).fault
    | _ => none) = some FaultRecord.none := by decide
-- R332: a budget above the board maximum is clamped to it.
theorem test_cap_clamps : (match exec (.cap 0x0000FFFF00000001) (tState (tThread [])) with
    | .next s => some (budgetInForce s)
    | _ => none) = some 2400 := by decide +kernel
-- R301, R295: a power-up without a failure sets the ready flag.
theorem test_power_on_ready : bit (readyWord 0 false) 0 = true ∧ bit (readyWord 3 false) 0 = false := by decide
-- R213: the windows of the mandoline's example.
theorem test_mandoline_example :
    let tok := fun (n : Nat) => { Tok.zero with seq := BitVec.ofNat 24 n, payload := BitVec.ofNat 512 n }
    let put := fun p n => mandolinePut 3 1 1 1 false p (tok n)
    let p := [0, 1, 2, 3].foldl put PotSt.start
    p.outq.map (fun k => (k.payload.toNat, k.seq.toNat)) = [(0, 0), (1, 1), (2, 2), (1, 3), (2, 4), (3, 5)] := by decide +kernel
-- R362: the descriptor of the example names chip 5 and port 9 from near port 3.
theorem test_port_descriptor : (bits 0x03890502 15 8, bits 0x03890502 21 16) = (5, 9) := by decide
-- R323, R325: the tokens of a ring that has wrapped.
theorem test_ring_count : ringCount 760 5 = 13 ∧ ringCount 0 767 = 767 := by decide

-- R328: the digest of "abc" (FIPS 180-4, its first example).
theorem test_sha256_abc : beNat (sha256 [97, 98, 99]) = 0xba7816bf8f01cfea414140de5dae2223b00361a396177a9cb410ff61f20015ad := by decide +kernel

-- R67: the image of a thread restores its registers, and a bit that the image keeps zero raises ILLEGAL.
theorem test_image_restores :
    let t := { tThread [(1, 5), (31, 7)] with pc := 0x104 }
    let b := contextImage (tState t) 1 t
    b.length = 1664 ∧ (match restoreImage (tThread []) b with
      | .ok r => some (readG r 1, readG r 31, r.pc)
      | .error _ => none) = some (5, 7, 0x104) := by decide +kernel
theorem test_image_zero_bits :
    let b := contextImage (tState (tThread [])) 1 (tThread [])
    (match restoreImage (tThread []) (b.set 1663 1) with
      | .ok _ => none
      | .error c => some c) = some .illegal := by decide +kernel

/-! ## Witnesses: for every statement with hypotheses, a state and operands that meet them -/

/-- A thread that is inside a handler. -/
def inHandler (t : Thread) : Thread := { t with status := 3 }

/-- The state of the issuing thread with page 0 mapped: readable, writable, executable, for user mode, atomics (R307). -/
def tMapped (t : Thread) : State := tlbFill (tState t) 0 0 0x3F 16

/-- A store of 8 bytes of thread 1 that has not drained. -/
def tEntry : StoreEntry := { tid := 1, ctx := 0, va := 0x40, pa := 0x40, bytes := leBytes 8 5, rel := false, allVa := false }

/-- The mapped state with entries in the store buffer of core 0. -/
def tStores (t : Thread) (n : Nat) : State := (tMapped t).modCore 0 fun c => { c with stores := List.replicate n tEntry }

/-- A thread whose g2 names byte 0x10 of the first pot of its core, and whose g1 holds 5. -/
def potT : Thread := tThread [(1, 5), (2, 0x8000000000000010)]

/-- A thread whose g2 holds the global address 0x40, and whose g1 holds 5. -/
def memT : Thread := tThread [(1, 5), (2, 0x40)]

theorem witness_IntegerOperationsWriteTheirTableResult : Issues (tState memT) memT ∧ Ty.isInt .n8 = true ∧ Ty.isInt .s64 = true := ⟨rfl, by decide⟩
theorem witness_DivisionTruncatesAndItsTwoCornersAreFixed :
    let t := tThread [(1, 0xFFFFFFFF80000000), (2, 0xFFFFFFFFFFFFFFFF), (3, 2)]
    Issues (tState t) t ∧ typedValue .s32 (readG t 0) = 0 ∧ typedValue .s32 (readG t 1) = leastOf .s32 ∧ typedValue .s32 (readG t 2) = -1 ∧
      typedValue .s32 (readG t 3) ≠ 0 ∧ typedValue .s32 (readG t 3) ≠ -1 := ⟨rfl, by decide⟩
theorem witness_BitFieldsExtractAndInsert : let t := tThread [(1, 7), (2, 63 + 64 * 127)]; Issues (tState t) t ∧ (Ty.s64 = .s64 ∨ Ty.s64 = .n64) :=
  ⟨rfl, by decide⟩
theorem witness_ImmediateFormsActOnWholeRegisters : Issues (tState memT) memT := rfl
theorem witness_BranchesGoToTheirTargetWhenTheConditionHolds : Issues (tState memT) memT := rfl
theorem witness_JumpsAndLoopsGoWhereTheySay :
    let t := tThread [(1, 0xFFFFFFFFFFFFFFFC), (2, 1)]
    Issues (tState t) t ∧ (readG t 1 + (4 : BitVec 16).signExtend 64).toNat % 4 = 0 ∧ (readG t 1 + (3 : BitVec 16).signExtend 64).toNat % 4 ≠ 0 ∧
      t.inTrap = false ∧ readG t 0 = 0 ∧ readG t 2 ≠ 0 := ⟨rfl, by decide⟩

-- R113: each check at an edge of its range.
theorem witness_AddressChecksAreOrderedAndTrapWithTheAddress_align : (0x41 : Word).toNat % 2 ≠ 0 ∧
    resolve (tState memT) memT 0x41 2 .read = .error .align := by decide
theorem witness_AddressChecksAreOrderedAndTrapWithTheAddress_range :
    ((0x8000000040000000 : Word).toNat % 8 = 0 ∧ (0x8000000040000000 : Word).getLsbD 63 = true ∧ (0x8000000040000000 : Word).extractLsb 62 30 ≠ 0) ∧
    ((0x8000000000600000 : Word).extractLsb 62 30 = 0 ∧ 47 < ((0x8000000000600000 : Word).extractLsb 22 17).toNat) ∧
    ((0x80000000005E0000 : Word).extractLsb 22 17).toNat ≤ 47 := by decide
theorem witness_AddressChecksAreOrderedAndTrapWithTheAddress_protect :
    (((tState memT).lct 127).allocated = false) ∧ ((tState memT).lct 0).allocated = true ∧ ((tState memT).lct 0).ctx.toNat = memT.ctx ∧
    isScratch ((tState memT).tile { core := (tState memT).phys 0, tile := potTile 0 }) = true ∧ (0x0010000000000000 : Word).extractLsb 62 52 ≠ 0 ∧
    (0x000FFFFFFFFFFFF8 : Word).extractLsb 62 52 = 0 := by decide
theorem witness_AddressChecksAreOrderedAndTrapWithTheAddress_translation :
    (translate (tMapped memT) 0 0xFFFF .read false).1 = .ok 0xFFFF ∧ (translate (tMapped memT) 0 0x10000 .read false).1 = .fail false 1 0 := by
  decide +kernel
theorem witness_AddressChecksAreOrderedAndTrapWithTheAddress_traps :
    Issues (tState memT) memT ∧ memT.inTrap = false ∧ resolve (tState memT) memT 0x44 8 .read = .error .align ∧
    resolve (tState memT) memT 0x40 64 .write = .error .page ∧ resolve (tState memT) memT 0x8000000000600000 4 .atomic = .error .potrange :=
  ⟨rfl, by decide +kernel⟩
theorem witness_PotLoadsReturnTheBytesThatStandThere :
    Issues (tState potT) potT ∧ resolve (tState potT) potT 0x8000000000000010 8 .read = .ok (.pot 0 0x10, tState potT) ∧
    resolve (tState potT) potT 0x80000000005FFFC0 64 .read = .ok (.pot 0 0x5FFFC0, tState potT) ∧
    (tState potT).potPoison 0 0x10 8 = none ∧ (tState potT).potPoison 0 0x5FFFC0 64 = none ∧ watchMatch potT 0x8000000000000010 8 .load = none ∧
    watchMatch potT 0x80000000005FFFC0 64 .load = none := ⟨rfl, rfl, rfl, by decide⟩
/-- A thread whose first watchpoint is armed for every byte of a doubleword and for loads, stores and engine writes (R145). -/
def watched (t : Thread) (a : Word) : Thread :=
  { t with watchAddr := t.watchAddr.setIfInBounds 0 a, watchMask := t.watchMask.setIfInBounds 0 0xFFF }
/-- The state with granules of core 0's pots, and of memory, marked poisoned. -/
def tPoison (s : State) (g : NatSet) : State := { s.modCore 0 fun c => { c with poisoned := g } with poison := g }
-- R145, R146: the value of WATCH is the doubleword with the index; a mask without bit 10, or for the other kind, does not match.
theorem test_watch_value :
    let t := watched potT 0x8000000000000010
    watchMatch t 0x8000000000000013 2 .load = some (0, 0x8000000000000010) ∧ watchMatch t 0x8000000000000018 8 .load = none ∧
    watchMatch { t with watchMask := t.watchMask.setIfInBounds 0 0x6FF } 0x8000000000000010 8 .load = none ∧
    watchMatch { t with watchMask := t.watchMask.setIfInBounds 0 0x3FF } 0x8000000000000010 8 .store = none := by decide +kernel
-- R137: POISON names the first poisoned granule, here the second of the access.
theorem test_poison_value :
    (match exec (.ldv .plain 1 2 0) (tPoison (tState (tThread [(2, 0x8000000000000000)])) [3, 2]) with
     | .next s => (s.thread? 1).map fun t => (t.tcause.toNat % 256, t.tvalue)
     | _ => none) = some (0x0A, 0x8000000000000020) := by decide +kernel
theorem witness_PotLoadsReturnTheBytesThatStandThere_traps :
    let t := watched potT 0x8000000000000010
    Issues (tState t) t ∧ t.inTrap = false ∧ watchMatch t 0x8000000000000010 8 .load = some (0, 0x8000000000000010) ∧
    (tPoison (tState potT) [1]).potPoison 0 0x10 8 = some 1 ∧ (tPoison (tState potT) [3]).potPoison 0 0 64 = some 3 ∧
    resolve (tPoison (tState potT) [1]) potT 0x8000000000000010 8 .read = .ok (.pot 0 0x10, tPoison (tState potT) [1]) :=
  ⟨rfl, by decide, by decide +kernel, by decide, by decide, rfl⟩
theorem witness_PotLoadsReturnTheBytesThatStandThere_releases :
    let s := (tState potT).modCore 0 fun c => { c with stores := [{ tEntry with rel := true }] }
    Issues s potT ∧ resolve s potT 0x8000000000000010 8 .read = .ok (.pot 0 0x10, s) ∧ hasReleases s (s.coreOf potT) s.cur = true ∧
    hasReleases (tState potT) ((tState potT).coreOf potT) 1 = false ∧ hasReleases (tStores memT 1) ((tStores memT 1).coreOf memT) 1 = false :=
  ⟨rfl, rfl, by decide⟩
theorem witness_GlobalLoadsReturnTheBytesOfMemory :
    Issues (tMapped memT) memT ∧
    (∃ s1, resolve (tMapped memT) memT 0xFFF8 8 .read = .ok (.glob 0xFFF8 false, s1) ∧ s1.poisonAt 0xFFF8 8 = none ∧
      lineOf s1 (s1.coreOf memT) 0 (0xFFF8 / 64) = none ∧ (s1.core (s1.coreOf memT)).stores = []) ∧
    (∃ s1, resolve (tMapped memT) memT 0x40 64 .read = .ok (.glob 0x40 false, s1) ∧ s1.poisonAt 0x40 64 = none) ∧
    watchMatch memT 0xFFF8 8 .load = none ∧ watchMatch memT 0x40 64 .load = none :=
  ⟨rfl, ⟨_, rfl, by decide⟩, ⟨_, rfl, by decide⟩, by decide⟩
theorem witness_GlobalLoadsReturnTheBytesOfMemory_traps :
    let s := tPoison (tMapped memT) [4]
    let t := watched memT 0x40
    Issues s memT ∧ memT.inTrap = false ∧ (∃ s1, resolve s memT 0x40 8 .read = .ok (.glob 0x40 false, s1) ∧ s1.poisonAt 0x40 8 = some 4) ∧
    Issues (tMapped t) t ∧ watchMatch t 0x40 8 .load = some (0, 0x40) ∧
    (∃ s1, resolve (tStores memT 1) memT 0x40 8 .read = .ok (.glob 0x40 false, s1) ∧ hasStores s1 (s1.coreOf memT) s1.cur = true) :=
  ⟨rfl, rfl, ⟨_, rfl, by decide⟩, rfl, by decide +kernel, ⟨_, rfl, by decide⟩⟩
/-- A thread with a remote operation that is not acknowledged. -/
def owing1 (t : Thread) : Thread := { t with remotePending := [(2, 1)] }
theorem witness_PotStoresChangeExactlyTheirBytes_waits :
    let s := (tState potT).modCore 0 fun c => { c with stores := [{ tEntry with rel := true }] }
    let t := owing1 potT
    Issues s potT ∧ hasReleases s (s.coreOf potT) s.cur = true ∧ hasStores s (s.coreOf potT) s.cur = true ∧
    resolve s potT 0x8000000000000010 8 .write = .ok (.pot 0 0x10, s) ∧ Issues (tState t) t ∧ t.remotePending ≠ [] ∧
    hasStores (tState t) 0 1 = false ∧ resolve (tState t) t 0x80000000005FFFC0 64 .write = .ok (.pot 0 0x5FFFC0, tState t) ∧
    watchMatch (watched potT 0x8000000000000010) 0x8000000000000010 8 .store = some (0, 0x8000000000000010) :=
  ⟨rfl, by decide, by decide, rfl, rfl, by decide, by decide, rfl, by decide +kernel⟩
theorem witness_PotStoresChangeExactlyTheirBytes :
    Issues (tState potT) potT ∧ hasStores (tState potT) ((tState potT).coreOf potT) 1 = false ∧
    resolve (tState potT) potT 0x8000000000000010 1 .write = .ok (.pot 0 0x10, tState potT) ∧
    resolve (tState potT) potT 0x80000000005FFFC0 64 .write = .ok (.pot 0 0x5FFFC0, tState potT) ∧
    watchMatch potT 0x8000000000000010 1 .store = none ∧ watchMatch potT 0x80000000005FFFC0 64 .store = none ∧
    ((tState potT).core 0).pots.wf = true := ⟨rfl, by decide, rfl, rfl, by decide⟩
theorem witness_GlobalStoresEnterTheStoreBuffer :
    Issues (tStores memT 63) memT ∧ Issues (tStores memT 64) memT ∧ hasStores (tMapped memT) 0 1 = false ∧
    (∃ s1, resolve (tStores memT 63) memT 0x40 8 .write = .ok (.glob 0x40 false, s1) ∧ (s1.core (s1.coreOf memT)).stores.length < 64) ∧
    (∃ s1, resolve (tStores memT 64) memT 0x40 64 .write = .ok (.glob 0x40 false, s1) ∧ 64 ≤ (s1.core (s1.coreOf memT)).stores.length) ∧
    watchMatch memT 0x40 8 .store = none ∧ watchMatch memT 0x40 64 .store = none :=
  ⟨rfl, rfl, by decide, ⟨_, rfl, by decide⟩, ⟨_, rfl, by decide⟩, by decide⟩
theorem witness_GlobalStoresEnterTheStoreBuffer_waits :
    let t := owing1 memT
    (∃ s1, resolve (tStores memT 1) memT 0x40 8 .write = .ok (.glob 0x40 false, s1) ∧ hasStores s1 (s1.coreOf memT) s1.cur = true) ∧
    Issues (tMapped t) t ∧ t.remotePending ≠ [] ∧
    (∃ s1, resolve (tMapped t) t 0x40 64 .write = .ok (.glob 0x40 false, s1) ∧ hasStores s1 (s1.coreOf t) s1.cur = false) :=
  ⟨⟨_, rfl, by decide⟩, rfl, by decide, ⟨_, rfl, by decide⟩⟩
theorem witness_DrainsAndLineFillsActOnTheirEntry :
    ((tStores memT 2).core 0).stores[1]? = some tEntry ∧ (((tStores memT 2).core 0).stores.take 1).any (fun x => x.tid = tEntry.tid) = true ∧
    ((tStores memT 2).core 0).stores[0]? = some tEntry ∧ (((tStores memT 2).core 0).stores.take 0).any (fun x => x.tid = tEntry.tid) = false ∧
    (tStores memT 2).mem.wf = true ∧
    (let s := (tMapped memT).modCore 0 fun c => { c with fills := [(0, 4)] }
     (s.core 0).fills[0]? = some (0, 4) ∧ (translate s 0 (64 * 4) .fetch false).1 = .ok 0x100) := by decide +kernel
theorem witness_FullEmptyAccessesActOnTheirGranule :
    let s := (tState potT).setFull 0 0x10 true
    Issues s potT ∧ nsMem (s.core 0).full 1 = true ∧ nsMem (s.core 0).full 2 = false ∧ outOfTurn s (.pot 0 0x10) = false ∧
    resolve s potT 0x8000000000000010 8 .read = .ok (.pot 0 0x10, s) ∧ resolve s potT 0x8000000000000010 8 .atomic = .ok (.pot 0 0x10, s) ∧
    resolve s potT 0x8000000000000020 8 .atomic = .ok (.pot 0 0x20, s) ∧ resolve s potT 0x8000000000000010 1 .write = .ok (.pot 0 0x10, s) ∧
    s.potPoison 0 0x10 8 = none ∧ hasStores s 0 1 = false ∧ watchMatch potT 0x8000000000000010 8 .both = none ∧
    watchMatch potT 0x8000000000000010 8 .load = none ∧ watchMatch potT 0x8000000000000010 1 .store = none :=
  ⟨rfl, by decide, by decide, by decide, rfl, rfl, rfl, rfl, by decide⟩
theorem witness_FullEmptyAccessesActOnTheirGranule_stores :
    hasStores (tStores potT 1) ((tStores potT 1).coreOf potT) (tStores potT 1).cur = true ∧
    resolve (tStores potT 1) potT 0x8000000000000010 8 .write = .ok (.pot 0 0x10, tStores potT 1) := ⟨by decide, rfl⟩
theorem witness_FullEmptyAccessesActOnTheirGranule_waits :
    let s := (tState potT).modCore 0 fun c => { c with stores := [{ tEntry with rel := true }] }
    let t := owing1 potT
    hasReleases s (s.coreOf potT) s.cur = true ∧ resolve s potT 0x8000000000000010 8 .read = .ok (.pot 0 0x10, s) ∧
    Issues (tState t) t ∧ t.remotePending ≠ [] ∧ hasStores (tState t) ((tState t).coreOf t) (tState t).cur = false :=
  ⟨by decide, rfl, rfl, by decide, by decide⟩
/-- The state of the issuing thread with page 0 mapped and carrying the presence attribute; the presence bits lie at byte 0x8000. -/
def tPresence (t : Thread) : State :=
  let s := tlbFill (tState t) 0 0 0x7F 16
  { s with mgmt := { s.mgmt with presBase := 0x8000 } }
theorem witness_FullEmptyAccessesActOnTheirGranule_global :
    let s := tPresence memT
    let f := { s with mem := mwrites [] 0x8000 [0x10] }
    let tok : Deferred := { pa := 0x100, ctx := 0, va := 0x100, tid := 5, pc := 0, consume := true, since := 0, loc := none, woken := false }
    let used := s.modRim 0 fun r => { r with deferred := List.replicate 4096 tok }
    Issues s memT ∧ memT.inTrap = false ∧
    (∃ s1, resolve (tMapped memT) memT 0x40 8 .read = .ok (.glob 0x40 false, s1)) ∧
    (∃ s1, resolve s memT 0x40 8 .read = .ok (.glob 0x40 true, s1) ∧ hasStores s1 (s1.coreOf memT) s1.cur = false ∧ present s1 0x40 = false ∧
      rimHold s1 (.glob 0x40 true) = none ∧ s1.mem.wf = true) ∧
    (∃ s1, resolve f memT 0x40 8 .atomic = .ok (.glob 0x40 true, s1) ∧ present s1 0x40 = true ∧ outOfTurn s1 (.glob 0x40 true) = false ∧
      s1.poisonAt 0x40 8 = none) ∧
    (∃ s1, resolve used memT 0x40 8 .read = .ok (.glob 0x40 true, s1) ∧ rimHold s1 (.glob 0x40 true) = some 0) ∧
    (∃ s1, resolve s memT 0x40 8 .write = .ok (.glob 0x40 true, s1)) ∧ (∃ s1, resolve s memT 0x41 1 .write = .ok (.glob 0x41 true, s1)) :=
  ⟨rfl, rfl, ⟨_, rfl⟩, ⟨_, rfl, by decide +kernel⟩, ⟨_, rfl, by decide +kernel⟩, ⟨_, rfl, by decide +kernel⟩, ⟨_, rfl⟩, ⟨_, rfl⟩⟩
-- R311: granule 4 of page 0 is bit 4 of the first byte of the table.
theorem test_presence_bit : present { tPresence memT with mem := mwrites [] 0x8000 [0x10] } 0x4F = true ∧
    present { tPresence memT with mem := mwrites [] 0x8000 [0x10] } 0x50 = false ∧
    mread (setPresent (tPresence memT) 0xFFFF true).mem 0x81FF = 0x80 := by decide +kernel
-- R118: the least of two signed bytes, and a compare that fails.
theorem test_amo_table : amoNew .min .s8 0x80 0x7F 0 = 0x80 ∧ amoNew .min .n8 0x80 0x7F 0 = 0x7F ∧ amoNew .cas .n16 5 9 6 = 5 ∧
    amoNew .add .n8 0xFF 2 0 = 1 := by decide
theorem witness_PotAtomicsActInOneStep_waits :
    let s := (tState potT).modCore 0 fun c => { c with stores := [{ tEntry with rel := true }] }
    let t := owing1 potT
    hasStores s (s.coreOf potT) s.cur = true ∧ hasReleases s (s.coreOf potT) s.cur = true ∧
    resolve s potT (readG potT 2) 4 .atomic = .ok (.pot 0 0x10, s) ∧ s.potPoison 0 0x10 4 = none ∧ Issues (tState t) t ∧
    t.remotePending ≠ [] ∧ (tPoison (tState potT) [1]).potPoison 0 0x10 4 = some 1 ∧ potT.inTrap = false ∧
    Ty.isInt .s8 = true ∧ (Ty.f32 = .f32 ∨ Ty.f32 = .bf16) ∧ value .f32 0x7FC00001 = .nan false :=
  ⟨by decide, by decide, rfl, by decide, rfl, by decide, by decide, by decide, by decide, by decide, by decide +kernel⟩
theorem witness_PotAtomicsActInOneStep :
    Issues (tState potT) potT ∧ resolve (tState potT) potT (readG potT 2) (Ty.width .f32 / 8) .atomic = .ok (.pot 0 0x10, tState potT) ∧
    (tState potT).potPoison 0 0x10 4 = none ∧ hasStores (tState potT) 0 1 = false ∧ watchMatch potT 0x8000000000000010 4 .store = none :=
  ⟨rfl, rfl, by decide⟩
/-- An atomic of thread 1 on its way. -/
def tAtomic : AtomicReq := { tid := 1, pa := 0x40, va := 0x40, op := .add, ty := .s64, operand := 5, compare := 0, dest := 3, ord := .relaxed }
theorem witness_GlobalAtomicsArePerformedAtTheMemorySide :
    Issues (tMapped memT) memT ∧
    (∃ s1, resolve (tMapped memT) memT (readG memT 2) 8 .atomic = .ok (.glob 0x40 false, s1) ∧ s1.poisonAt 0x40 8 = none ∧
      hasStores s1 (s1.coreOf memT) s1.cur = false) ∧
    (∃ s1, resolve (tStores memT 1) memT (readG memT 2) 8 .atomic = .ok (.glob 0x40 false, s1) ∧ hasStores s1 (s1.coreOf memT) s1.cur = true) ∧
    (let s := { tMapped memT with atomics := [tAtomic] }
     s.atomics[0]? = some tAtomic ∧ s.thread? tAtomic.tid = some memT ∧ s.poisonAt 0x40 8 = none ∧ s.mem.wf = true ∧
     watchMatch memT 0x40 8 .store = none) :=
  ⟨rfl, ⟨_, rfl, by decide⟩, ⟨_, rfl, by decide⟩, rfl, rfl, by decide⟩
theorem witness_GlobalAtomicsArePerformedAtTheMemorySide_traps :
    let p := tPoison (tMapped memT) [4]
    let t := watched memT 0x40
    let s := { tMapped t with atomics := [tAtomic] }
    (∃ s1, resolve p memT (readG memT 2) 8 .atomic = .ok (.glob 0x40 false, s1) ∧ s1.poisonAt 0x40 8 = some 4) ∧
    s.atomics[0]? = some tAtomic ∧ s.thread? tAtomic.tid = some t ∧ t.inTrap = false ∧ watchMatch t 0x40 8 .store = some (0, 0x40) :=
  ⟨⟨_, rfl, by decide⟩, rfl, rfl, by decide +kernel⟩
theorem witness_FencesWaitForStoresAndEmptyTheReadBuffer :
    Issues (tStores memT 1) memT ∧ hasStores (tStores memT 1) ((tStores memT 1).coreOf memT) 1 = true ∧
    (let t := { memT with remotePending := [(1, 1)] }
     Issues (tState t) t ∧ hasStores (tState t) 0 1 = false ∧ t.remotePending ≠ []) ∧
    Issues (tState memT) memT ∧ memT.remotePending = [] := ⟨rfl, by decide, ⟨rfl, by decide⟩, rfl, rfl⟩

/-- A message from chip 2 for this package, by page 0 of context 0. -/
def tMsg (type seq : Nat) (payload : List Byte) : Msg :=
  { dest := 0, src := 2, type := BitVec.ofNat 4 type, ctx := 0, seq := BitVec.ofNat 32 seq, port := 5, requester := 0x300, payload := payload }

/-- The state with one message in the inbox. -/
def tInbox (s : State) (m : Msg) : State := { s with fabric := { s.fabric with inbox := [m] } }

/-- The state with chip 2 in the identity table: its entry as given (R360). -/
def tChip (s : State) (entry : Word) : State := { s with fabric := { s.fabric with identity := [(2, entry)] } }

/-- A store of 8 bytes, and an add, to address 0x40. -/
def tAccess : List Byte := accessPayload 0x40 7 0 .add .s64

theorem witness_RemoteOperationsAreCheckedThenSent :
    let t := tThread [(1, 7), (2, 0x0020000000000040), (3, 0x0030000000000040), (4, 0x1020000000000040), (5, 0x0020000000000041)]
    let s := tChip (tState t) (2 ^ 48)
    Issues s t ∧ t.inTrap = false ∧ (readG t 2).toNat % (Ty.width .s64 / 8) = 0 ∧ (readG t 2).extractLsb 63 60 = 0 ∧
    idValid s ((readG t 2).extractLsb 59 52).toNat = true ∧ hasStores s (s.coreOf t) s.cur = false ∧ t.remotePending.length < 16 ∧
    canSend s 2 = true ∧ idValid s ((readG t 3).extractLsb 59 52).toNat = false ∧ (readG t 4).extractLsb 63 60 ≠ 0 ∧
    (readG t 5).toNat % 8 ≠ 0 := ⟨rfl, by decide⟩
theorem witness_RemoteOperationsAreCheckedThenSent_full :
    let t := { tThread [(2, 0x0020000000000040)] with remotePending := List.replicate 16 (2, 1) }
    Issues (tState t) t ∧ ¬t.remotePending.length < 16 := ⟨rfl, by decide⟩
theorem witness_RemoteOperationsAreCheckedThenSent_waits :
    let t := tThread [(2, 0x0020000000000040)]
    let u := owing1 t
    let s := (tChip (tState t) (2 ^ 48)).modCore 0 fun c => { c with stores := [{ tEntry with rel := true }] }
    Issues s t ∧ hasStores s (s.coreOf t) s.cur = true ∧ hasReleases s (s.coreOf t) s.cur = true ∧ idValid s 2 = true ∧
    Issues (tChip (tState u) (2 ^ 48)) u ∧ u.remotePending ≠ [] ∧ hasStores (tState u) ((tState u).coreOf u) (tState u).cur = false :=
  ⟨rfl, by decide, by decide, by decide, rfl, by decide, by decide⟩
theorem witness_NumberedMessagesAreAppliedExactlyOnce :
    let s := tInbox (tMapped memT) (tMsg 0 1 tAccess)
    s.fabric.inbox[0]? = some (tMsg 0 1 tAccess) ∧ (tMsg 0 1 tAccess).type = 0 ∧ seqLe 1 ((s.setSource 2 { SourceSt.reset with applied := 1 }).source 2).applied = true ∧
    (tMsg 0 1 tAccess).seq = (s.source 2).applied + 1 ∧ (s.source 2).window = [] ∧
    (applyMsg (tMapped memT) (tMsg 0 1 tAccess) matches .done _ none) ∧ (applyMsg (tMapped memT) (tMsg 1 1 tAccess) matches .done _ (some _)) := by
  decide +kernel
theorem witness_ApplyingAMessageActsOnItsTarget :
    (let page := tlbFill (tState memT) 0 0 0x7F 16
     let r := translate page 0 (payloadNat (tMsg 0 1 tAccess) 0 8 % 2 ^ 52) .write true
     r.1 = .ok 0x40 ∧ r.2.1 = true ∧ r.2.2.mem.wf = true ∧ (tMsg 0 1 tAccess).type = 0 ∧ (payloadTy (tMsg 0 1 tAccess) 25).width / 8 = 8) ∧
    (translate (tMapped memT) 0 (payloadNat (tMsg 0 1 tAccess) 0 8 % 2 ^ 52) .write true).1 = .ok 0x40 ∧
    (translate (tMapped memT) 0 (payloadNat (tMsg 1 1 tAccess) 0 8 % 2 ^ 52) .write true).2.1 = false ∧
    (translate (tMapped memT) 0 (payloadNat (tMsg 1 1 tAccess) 0 8 % 2 ^ 52) .atomic true).1 = .ok 0x40 ∧
    (translate (tMapped memT) 0 (payloadNat (tMsg 1 1 tAccess) 0 8 % 2 ^ 52) .write true).2.2.mem.wf = true ∧
    (let d : StreamPort := { desc := 0x00030202, tid := 1, send := false, buffer := List.replicate 63 (0, Tok.zero), cfg := none, edge := EdgeSt.start }
     ((tState memT).setPort 5 d).port? (tMsg 4 1 []).port.toNat = some d ∧ d.send = false ∧
       (d.desc.extractLsb 15 8).toNat = (tMsg 4 1 []).src.toNat ∧ (d.desc.extractLsb 21 16).toNat = (tMsg 4 1 []).requester.toNat / 256 % 64 ∧
       d.buffer.length < 64) := by
  decide +kernel
theorem witness_AcknowledgementsRepliesAndRoutes :
    let ack := tMsg 5 0 (leBytes 4 9 ++ leBytes 4 0)
    let s := tInbox (tState memT) ack
    s.fabric.inbox[0]? = some ack ∧ ack.type = 5 ∧ ackFailures ack = [] ∧ s.thread? 1 = some memT ∧ s.fabric.logSize = none := by decide +kernel
theorem witness_AcknowledgementsRepliesAndRoutes_reply :
    let t := { memT with run := .waiting (.ratReply 2 9 3 .s64 false) }
    let s := tInbox (tState t) (tMsg 6 9 (leBytes 8 5))
    s.fabric.inbox[0]? = some (tMsg 6 9 (leBytes 8 5)) ∧ (tMsg 6 9 (leBytes 8 5)).type = 6 ∧ ratWaiter s 2 9 = some (1, t) ∧ s.thread? 1 = some t ∧
    (tInbox s (tMsg 7 0 [])).fabric.inbox[0]? = some (tMsg 7 0 []) ∧ (tMsg 7 0 []).type = 7 := by decide +kernel
theorem witness_AcknowledgementsRepliesAndRoutes_transit :
    let m := { tMsg 0 1 tAccess with dest := 2 }
    let up : PeerLink := { PeerLink.reset with state := .up }
    let s0 := { tState memT with fabric := { (tState memT).fabric with transit := [(3, m)] } }
    let s := (tChip s0 (2 ^ 48 + 2 ^ 31)).setLink 15 up
    s.fabric.transit[0]? = some (3, m) ∧ idValid s 2 = true ∧ idHeld s 2 = false ∧ routeLink s 2 = some 15 ∧
    idValid s0 2 = false ∧ idHeld (tChip s0 (2 ^ 48 + 2 ^ 50)) 2 = true ∧ routeLink (tChip s0 (2 ^ 48)) 2 = none ∧
    idSelf s 2 = false ∧ idValid (tChip s0 (2 ^ 48 + 2 ^ 49)) 2 = true ∧ idSelf (tChip s0 (2 ^ 48 + 2 ^ 49)) 2 = true := by decide +kernel
/-- A flit with no message: its header word, and the CRC of its first 252 bytes. -/
def tFlit (header : Nat) : List Byte :=
  let b := leBytes 8 header ++ List.replicate 244 0
  b ++ leBytes 4 (crc32c b)
theorem witness_LinksDeliverFlitsInOrder :
    let up := (tState memT).setLink 3 { PeerLink.reset with state := .up, expected := 5 }
    let h := fun n : Nat => BitVec.ofNat 64 (leNat ((tFlit n).take 8))
    (up.link 3).state = .up ∧ (leBytes 8 0).length ≠ 256 ∧ (tFlit 5).length = 256 ∧ crc32c ((tFlit 5).take 252) = leNat ((tFlit 5).drop 252) ∧
    3 < 16 ∧ (h 5).extractLsb 26 25 = 0 ∧ (h 5).extractLsb 11 0 = (up.link 3).expected ∧ (h 5).extractLsb 28 27 = 0 ∧
    (h 6).extractLsb 11 0 ≠ (up.link 3).expected ∧ (h (5 + 2 ^ 25)).extractLsb 26 25 ≠ 0 ∧ (h (5 + 2 ^ 25)).extractLsb 11 0 = (up.link 3).expected ∧
    ((tState memT).link 3).state = .training ∧ ((tState memT).link 3).failures < 2 ∧
    2 ≤ (((tState memT).setLink 3 { PeerLink.reset with failures := 2 }).link 3).failures := by decide +kernel

/-- A flit of two messages, of which the first is for this package and the second for chip 2. -/
theorem witness_LinksDeliverFlitsInOrder_messages :
    let slots := leBytes 16 (3 * 2 ^ 24) ++ List.replicate 64 0 ++ leBytes 16 2 ++ List.replicate 64 0
    let b := leBytes 8 (5 + 2 * 2 ^ 27) ++ slots ++ List.replicate 84 0
    let f := b ++ leBytes 4 (crc32c b)
    let up := { tState memT with fabric := { (tState memT).fabric with identity := [(0, 2 ^ 48 + 2 ^ 49)] } }.setLink 3
      { PeerLink.reset with state := .up, expected := 5 }
    let h := BitVec.ofNat 64 (leNat (f.take 8))
    let ms := msgsOfSlots 2 ((f.drop 8).take 160)
    (up.link 3).state = .up ∧ f.length = 256 ∧ crc32c (f.take 252) = leNat (f.drop 252) ∧ h.extractLsb 11 0 = (up.link 3).expected ∧
    h.extractLsb 26 25 = 0 ∧ (h.extractLsb 28 27).toNat = 2 ∧ ms.map (fun m => (m.dest.toNat, m.type.toNat)) = [(0, 0), (2, 0)] ∧
    up.fabric.awaiting = false ∧ ms.map (fun m => idSelf up m.dest.toNat && idValid up m.dest.toNat) = [true, false] ∧
    (msgOfSlot (f.drop 8)).goesOn = false ∧ (msgOfSlot (leBytes 16 (2 * 2 ^ 16) ++ leBytes 16 (49 * 2 ^ 64))).goesOn = true := by decide +kernel

/-- A channel end bound to a slot of another thread. -/
def tEnd (peer slot : Nat) (out : Bool) : ChanEnd :=
  { peer := BitVec.ofNat 16 peer, pslot := BitVec.ofNat 3 slot, out := out, bound := true, port := false, desc := 0 }

/-- Thread 1 sends from slot 7 and receives in slot 0; g1 = 5, g2 names slot 7 and thread 3, g3 and g4 the two service ports. -/
def chanT : Thread := ((tThread [(1, 5), (2, 3), (3, 1), (4, 0x101)]).setEnd 7 (tEnd 3 2 true)).setEnd 0 (tEnd 3 1 false)

/-- Its partner, thread 3. -/
def peerT : Thread := ((tThread []).setEnd 2 (tEnd 1 7 false)).setEnd 1 (tEnd 1 0 true)

/-- Both threads, with the words that wait for slot 2 of thread 3 and for slot 0 of thread 1. -/
def tChans (out into : Nat) : State :=
  let w : ChanWord := { at_ := 0, word := 9 }
  (((tState chanT).setThread 3 { peerT with seat := .resident 1 }).setChan 3 2 { gone := false, words := List.replicate out w }).setChan 1 0
    { gone := false, words := List.replicate into w }

theorem witness_ChannelsMoveOneWordAtATime :
    Issues (tChans 7 0) chanT ∧ Issues (tChans 8 1) chanT ∧ (chanT.chEnd 7).bound = true ∧ (chanT.chEnd 7).out = true ∧ (chanT.chEnd 7).port = false ∧
    ((tChans 7 0).chan 1 7).gone = false ∧ freePlaces (tChans 7 0) 1 chanT 7 ≠ 0 ∧ hasStores (tChans 7 0) 0 1 = false ∧
    freePlaces (tChans 8 1) 1 chanT 7 = 0 ∧ (chanT.chEnd 3).bound = false ∧ chanT.inTrap = false ∧
    (chanT.chEnd 0).out = false ∧ waitingWords (tChans 8 1) 1 chanT 0 = [{ at_ := 0, word := 9 }] ∧ waitingWords (tChans 7 0) 1 chanT 0 = [] ∧
    ((tChans 7 0).chan 1 0).gone = false ∧ formed (tChans 7 0) 1 7 = some (3, 2) ∧ ((tChans 7 0).setChan 1 0 { gone := true, words := [] }).chan 1 0 =
      { gone := true, words := [] } ∧ joinsOther (tChans 7 0) (chanT.chEnd 7) = false ∧ joinsOther (tChans 8 1) (chanT.chEnd 0) = false ∧
    (let e := fun out : Bool => ({ ChanEnd.none with out := out, bound := true, port := true, desc := 16 } : ChanEnd)
     let p : StreamPort := { desc := 0x43890502, tid := 1, send := true, buffer := [], cfg := none, edge := EdgeSt.start }
     joinsOther ((tState memT).setPort 0 p) (e true) = true ∧ joinsOther ((tState memT).setPort 0 p) (e false) = true) :=
    ⟨rfl, rfl, by decide +kernel⟩
theorem witness_ChannelsMoveOneWordAtATime_waits :
    let s := (tChans 7 0).modCore 0 fun c => { c with stores := [tEntry] }
    let e : ChanEnd := { ChanEnd.none with out := true, bound := true, port := true, desc := 16 }
    let t := memT.setEnd 7 e
    let p : StreamPort := { desc := 0x03890502, tid := 1, send := true, buffer := [], cfg := none, edge := EdgeSt.start }
    let q := { (tState t).setPort 0 p with fabric := { ((tState t).setPort 0 p).fabric with logSize := some 0 } }
    Issues s chanT ∧ hasStores s (s.coreOf chanT) s.cur = true ∧ freePlaces s 1 chanT 7 ≠ 0 ∧
    Issues q t ∧ (t.chEnd 7).port = true ∧ 16 ≤ (t.chEnd 7).desc.toNat ∧ q.port? ((t.chEnd 7).desc.toNat - 16) = some p ∧
    joinsOther q (t.chEnd 7) = false ∧ freePlaces q 1 t 7 ≠ 0 ∧ canSend q (p.desc.extractLsb 15 8).toNat = false :=
  ⟨rfl, by decide, by decide +kernel, rfl, rfl, by decide, rfl, by decide +kernel, by decide +kernel, by decide +kernel⟩
theorem witness_BindingRecordsTheOtherEnd :
    let s := tChans 0 0
    let p := { peerT with seat := .resident 1 }
    Issues s chanT ∧ (chanT.chEnd 3).bound = false ∧ ((readG chanT 2).extractLsb 15 0).toNat = 3 ∧ s.thread? 3 = some p ∧ p.ctx = chanT.ctx ∧
    formed s 3 5 = none ∧ chanT.inTrap = false ∧ (chanT.chEnd 7).bound = true ∧ ((readG chanT 0).extractLsb 15 0).toNat = 0 ∧
    s.thread? ((readG chanT 1).extractLsb 15 0).toNat = none ∧ readG chanT 3 = 1 ∧ chanT.system = true ∧ holdsPort chanT 1 = false ∧
    readG chanT 4 = 0x101 ∧ holdsPort chanT 2 = false := ⟨rfl, by decide +kernel⟩
theorem witness_BindingRecordsTheOtherEnd_port :
    let t := tThread [(1, 0x03890502)]
    let s := { tState t with fabric := { (tState t).fabric with identity := [(5, 2 ^ 48)] } }
    Issues s t ∧ (readG t 1).extractLsb 7 0 = 2 ∧ (t.chEnd 0).bound = false ∧ (portOf s t (readG t 1)).isSome = true := ⟨rfl, by decide +kernel⟩
theorem witness_WaitanyTakesTheFirstWordToArrive :
    let t := writeG chanT 1 1
    let s := fun n => (tChans 0 n).setThread 1 t
    Issues (s 1) t ∧ maskSlots ((readG t 1).extractLsb 7 0).toNat = [0] ∧ notReceiving (s 1) 1 t 0 = false ∧
    (logNext (s 1) t.decider matches .ok (none, _)) = true ∧ (logNext (s 0) t.decider matches .ok (none, _)) = true ∧ firstSlot (s 1) 1 t [0] = some 0 ∧
    firstSlot (s 0) 1 t [0] = none ∧ (logRecord (s 1) t.decider { kind := 2, slot := 0, num := 0, cl := 0, tid := 1, val := 0 } matches .ok _) = true ∧
    ((s 1).ctx t.ctx).logMode.toNat % 4 = 0 := ⟨rfl, by decide +kernel⟩
/-- A group in which thread 1 and another are. -/
def tGroup (others : List Nat) (passed : List Nat) : Group :=
  { members := others.zipIdx.map fun (m, i) => (m, i), counted := [], arrived := [], passed := passed }
theorem witness_GroupsRankAndGatherTheirMembers :
    let t := tThread [(1, 0x00000007), (2, 0x0FFF0007), (3, 0x0FFE0007)]
    let s := fun (g : Group) => (tState t).setGroup 7 g
    Issues (s (tGroup [1] [])) t ∧ (readG t 2).extractLsb 63 28 = 0 ∧ (readG t 2).extractLsb 15 12 = 0 ∧ ((s (tGroup [1] [])).group 7).rank 1 = some 0 ∧
    ((s (tGroup [3] [])).group 7).rank 1 = none ∧ (groupsOf (s (tGroup [3] [])) 1).length < 8 ∧ ((readG t 3).extractLsb 27 16).toNat ≠ 0xFFF ∧
    rankTaken (tGroup [3] []) 0xFFE = false ∧ ((readG t 2).extractLsb 27 16).toNat = 0xFFF ∧ (logNext (s (tGroup [3] [])) t.decider matches .ok (none, _)) = true ∧
    firstFrom (fun r => !rankTaken (tGroup [3] []) r) 0 4095 = some 1 ∧
    (logRecord (s (tGroup [3] [])) t.decider { kind := 3, slot := 0, num := 7, cl := 0, tid := 1, val := 1 } matches .ok _) = true ∧
    (tGroup [1] []).has 1 = true ∧ hasStores (s (tGroup [1] [])) 0 1 = false ∧ (tGroup [1] [1]).passed.contains 1 = true ∧
    (arriveGroup (tGroup [1] []) 1).full = true ∧ (arriveGroup (tGroup [1, 3] []) 1).full = false ∧ (tGroup [3] []).has 1 = false ∧ t.inTrap = false :=
  ⟨rfl, by decide +kernel⟩
theorem witness_GroupsRankAndGatherTheirMembers_stops :
    let t := tThread [(1, 0x00000007)]
    let s := fun (g : Group) => (tState t).setGroup 7 g
    let w := (s (tGroup [1] [])).modCore 0 fun c => { c with stores := [tEntry] }
    Issues (s (tGroup [3] [])) t ∧ t.inTrap = false ∧ ((s (tGroup [3] [])).group 7).rank 1 = none ∧ rankTaken (tGroup [3] []) 0 = true ∧
    ((readG t 1).extractLsb 27 16).toNat = 0 ∧ (w.group 7).has 1 = true ∧ hasStores w (w.coreOf t) w.cur = true ∧
    (s (tGroup [3] [])).groups.length < 4096 ∧ 4096 ≤ ({ tState t with groups := List.replicate 4096 (0, tGroup [3] []) } : State).groups.length :=
  ⟨rfl, by decide +kernel⟩
/-- An object of context 0 whose queue holds the places given, of which one may be granted. -/
def tObj (ranked : Bool) (queue : List Nat) (granted : Option Nat) (walking : Bool) : SyncObj :=
  { ranked := ranked, ranks := 2, round := 0, nextRank := 0, queue := queue, granted := granted, walking := walking, walkTid := 1, ctx := 0 }
/-- A place of object 0 that thread 1 owns. -/
def tPlace (st : PlaceState) : Place := { obj := 0, owner := 1, requester := 1, ordinal := 0, round := 0, rank := 0, state := st }
/-- The state with object 0 and places 0 and 1, both of generation 1. -/
def tSync (t : Thread) (o : SyncObj) (a b : PlaceState) : State :=
  (tState t).setCluster 0 { (tState t).cluster 0 with objects := [(0, o)], places := [(0, tPlace a), (1, { tPlace b with rank := 1 })] }
/-- A thread with the handles of object 0 and of places 0 and 1. -/
def syncT : Thread := tThread [(1, syncHandle 1 0 0 0), (2, syncHandle 1 0 0 0), (3, syncHandle 1 0 1 0), (4, 3), (5, 0xFFF1), (6, 1)]
theorem witness_ObjectsAndPlacesAreTakenLowestFirst :
    let s := tSync syncT (tObj false [] none false) .granted .granted
    let r := tSync syncT (tObj true [] none false) .granted .granted
    let q := tSync syncT (tObj false [0] none false) .queued .granted
    Issues s syncT ∧ (readG syncT 5).extractLsb 63 16 = 0 ∧ (readG syncT 5).extractLsb 3 1 = 0 ∧ (readG syncT 5).getLsbD 0 = true ∧
    freeKey 0 (s.cluster 0).objects < 4096 ∧ objectOf s 0 (readG syncT 1) = some (0, tObj false [] none false) ∧
    objectOf q 0 (readG syncT 1) = some (0, tObj false [0] none false) ∧ syncT.inTrap = false ∧ readG syncT 0 = 0 ∧
    (passesLogged s syncT matches .ok (none, _)) = true ∧ objectOf r 0 (readG syncT 1) = some (0, tObj true [] none false) ∧ (readG syncT 6).toNat < 2 ∧
    rankHeld (r.cluster 0) (tObj true [] none false) 1 = false ∧ rankHeld ((tSync syncT (tObj true [] none false) .abandoned .abandoned).cluster 0) (tObj true [] none false) 0 = false ∧
    freeKey 0 (s.cluster 0).places < 32768 ∧
    (decide (modObj (s.modCluster 0 fun c => { c with places := tset c.places 2 (tPlace .queued) }) 0 0 fun o => { o with queue := [2] }) syncT.decider 0 0 true 1
      matches .ok _) := ⟨rfl, by decide +kernel⟩
theorem witness_ObjectsAndPlacesAreTakenLowestFirst_stops :
    let t := tThread [(1, syncHandle 1 0 0 0), (2, 0x10000), (3, 2), (4, 0x10), (6, 1), (7, 2)]
    let s := tSync t (tObj false [] none false) .granted .granted
    let r := tSync t (tObj true [] none false) .queued .granted
    let held := tSync t (tObj true [0, 1] none false) .queued .queued
    Issues s t ∧ t.inTrap = false ∧ (readG t 2).extractLsb 63 16 ≠ 0 ∧ (readG t 3).extractLsb 3 1 ≠ 0 ∧
    ((readG t 4).getLsbD 0 = false ∧ (readG t 4).extractLsb 15 4 ≠ 0) ∧ objectOf s 0 (readG t 2) = none ∧
    objectOf s 0 (readG t 1) = some (0, tObj false [] none false) ∧ readG t 6 ≠ 0 ∧ objectOf r 0 (readG t 1) = some (0, tObj true [] none false) ∧
    2 ≤ (readG t 7).toNat ∧ rankHeld (held.cluster 0) (tObj true [0, 1] none false) 1 = true ∧
    32768 ≤ freeKey 0 ((List.range 32768).map fun i => (i, tPlace .queued)) := ⟨rfl, by decide +kernel⟩
theorem witness_OwnersWaitTryGiveSwapDropAndRelease_stops :
    let other := { tPlace .queued with owner := 3 }
    let s := tSync syncT (tObj false [0, 1] none false) .queued .queued
    let q := s.modCluster 0 fun c => { c with places := [(0, other), (1, tPlace .queued)] }
    let r := tSync syncT (tObj true [0, 1] none false) .queued .queued
    let g := (tSync syncT (tObj false [1] (some 0) false) .granted .queued).modCore 0 fun c => { c with stores := [tEntry] }
    Issues q syncT ∧ syncT.inTrap = false ∧ placeOf q 0 (readG syncT 2) = .live 0 other ∧ other.owner ≠ q.cur ∧
    ownPlace g syncT 1 (readG syncT 2) = .ok (0, tPlace .granted) ∧ hasStores g (g.coreOf syncT) g.cur = true ∧
    ((readG syncT 6).extractLsb 15 0).toNat = s.cur ∧ s.thread? ((readG syncT 4).extractLsb 15 0).toNat = none ∧
    ownPlace s syncT 1 (readG syncT 3) = .ok (1, { tPlace .queued with rank := 1 }) ∧
    placeOf s 0 (readG syncT 2) = .live 0 (tPlace .queued) ∧ (tObj false [0, 1] none false).queue.idxOf 0 ≤ (tObj false [0, 1] none false).queue.idxOf 1 ∧
    ownPlace r syncT 1 (readG syncT 2) = .ok (0, tPlace .queued) ∧ placeOf r 0 (readG syncT 3) = .live 1 { tPlace .queued with rank := 1 } ∧
    tget (r.cluster 0).objects 0 = some (tObj true [0, 1] none false) ∧ (tPlace .queued).round = ({ tPlace .queued with rank := 1 } : Place).round ∧
    (tPlace .queued).rank < ({ tPlace .queued with rank := 1 } : Place).rank ∧
    (decide (modPlace (modPlace r 0 0 fun x => { x with round := 0, rank := 1 }) 0 1 fun x => { x with round := 0, rank := 0 })
      syncT.decider 0 0 true 1 matches .ok _) = true := ⟨rfl, by decide +kernel⟩
-- R126: a swap of places in a ranked object exchanges their ranks.
theorem test_xswap_ranked :
    (match exec (.xswap 2 3) (tSync syncT (tObj true [0, 1] none false) .queued .queued) with
     | .next s => ((s.cluster 0).places.map fun p => p.2.rank)
     | _ => []) = [1, 0] := by decide +kernel
theorem witness_OwnersWaitTryGiveSwapDropAndRelease :
    let s := (tSync syncT (tObj false [1] (some 0) false) .granted .queued).setThread 3 { peerT with seat := .resident 1 }
    let r := tSync syncT (tObj true [0] none false) .queued .abandoned
    let q := tSync syncT (tObj false [0, 1] none false) .queued .queued
    Issues s syncT ∧ ownPlace s syncT 1 (readG syncT 2) = .ok (0, tPlace .granted) ∧ ownPlace r syncT 1 (readG syncT 2) = .ok (0, tPlace .queued) ∧
    ownPlace r syncT 1 (readG syncT 3) = .ok (1, { tPlace .abandoned with rank := 1 }) ∧ syncT.inTrap = false ∧
    s.thread? ((readG syncT 4).extractLsb 15 0).toNat = some { peerT with seat := .resident 1 } ∧ peerT.ctx = syncT.ctx ∧
    hasStores s (s.coreOf syncT) s.cur = false ∧ placeOf q 0 (readG syncT 3) = .live 1 { tPlace .queued with rank := 1 } ∧
    tget (q.cluster 0).objects 0 = some (tObj false [0, 1] none false) ∧ (tObj false [0, 1] none false).queue.idxOf 0 < (tObj false [0, 1] none false).queue.idxOf 1 ∧
    (decide (modObj q 0 0 fun o => { o with queue := swapEntries o.queue 0 1 }) syncT.decider 0 0 true 1 matches .ok _) = true ∧
    (releasePlace s syncT.decider 0 0 1 matches .ok _) = true ∧ (dropsLogged q syncT.decider (tPlace .queued) matches .ok (none, _)) = true ∧
    tget (r.cluster 0).objects 0 = some (tObj true [0] none false) := ⟨rfl, by decide +kernel⟩
theorem witness_XstatReadsAndWalksGrant :
    let s := tSync syncT (tObj false [1] none true) .granted .queued
    let e := tSync syncT (tObj false [] none true) .granted .granted
    Issues s syncT ∧ placeOf s 0 (syncHandle 2 0 0 0) = .stale ∧ placeOf s 0 (readG syncT 3) = .live 1 { tPlace .queued with rank := 1 } ∧
    tget (s.cluster 0).objects 0 = some (tObj false [1] none true) ∧ walkHead (s.cluster 0) (tObj false [1] none true) = .queued 1 ∧
    tget (e.cluster 0).objects 0 = some (tObj false [] none true) ∧ walkHead (e.cluster 0) (tObj false [] none true) = .nobody := ⟨rfl, by decide +kernel⟩
theorem witness_KeysAreSetSteppedReadAndDrawn :
    let key : KeyReg := { valid := true, tensor := 1, step := 1, seed := 7 }
    let t := writeK (tThread [(1, 0x0000000100000001)]) 2 key
    Issues (tState t) t ∧ (readK t 2).valid = true ∧ (readK t 3).valid = false ∧ keyUsed (tState t) t 3 { key with step := 2 } = false ∧
    keyUsed (retireKey (tState t) t.ctx (readK t 3)) t 3 key = true ∧ t.inTrap = false ∧ ((tState t).ctx t.ctx).logMode.getLsbD 2 = false :=
  ⟨rfl, by decide +kernel⟩
theorem witness_BarriersCountPostsAndBytes_waits :
    let s := (tState potT).modCore 0 fun c => { c with stores := [{ tEntry with rel := true }] }
    let t := owing1 potT
    Issues s potT ∧ resolve s potT (readG potT 2) 16 .write = .ok (.pot 0 0x10, s) ∧ hasStores s (s.coreOf potT) s.cur = true ∧
    hasReleases s (s.coreOf potT) s.cur = true ∧ Issues (tState t) t ∧ hasStores (tState t) ((tState t).coreOf t) 1 = false ∧
    t.remotePending ≠ [] := ⟨rfl, rfl, by decide, by decide, rfl, by decide, by decide⟩
theorem witness_BarriersCountPostsAndBytes :
    let s := fun (b : Barrier) => putBarrier (tState potT) 0 0x10 b
    let b := fun (posts : Nat) (isOver : Bool) => ({ count := 0, posts := posts, isOver := isOver, complete := decide (posts = 0) } : Barrier)
    Issues (tState potT) potT ∧ (readG potT 2).toNat % 16 = 0 ∧ (readG potT 2).getLsbD 63 = true ∧
    resolve (tState potT) potT (readG potT 2) 16 .write = .ok (.pot 0 0x10, tState potT) ∧ hasStores (tState potT) 0 1 = false ∧
    barrierAt (s (b 0 false)) 0 0x10 = b 0 false ∧ barrierAt (s (b 65535 false)) 0 0x10 = b 65535 false ∧ barrierAt (s (b 0 true)) 0 0x10 = b 0 true ∧
    potT.inTrap = false := ⟨rfl, by decide, by decide, rfl, by decide +kernel⟩

theorem witness_TrapEntrySavesTheAddressAndEntersTheHandler :
    (tState memT).thread? 1 = some memT ∧ memT.inTrap = false ∧ (tState (inHandler memT)).thread? 1 = some (inHandler memT) ∧
    (inHandler memT).inTrap = true ∧ FaultRecord.none.count = 0 ∧ ({ FaultRecord.none with count := BitVec.allOnes 32 }).count ≠ 0 := ⟨rfl, rfl, rfl, by decide⟩
theorem witness_SoftwareTrapsAndTheReturn :
    Issues (tState memT) memT ∧ memT.inTrap = false ∧ memT.system = true ∧ Issues (tState (inHandler memT)) (inHandler memT) ∧
    (inHandler memT).system = true ∧ (inHandler memT).inTrap = true ∧ Issues (tState { memT with status := 0 }) { memT with status := 0 } ∧
    ({ memT with status := 0 } : Thread).system = false := ⟨rfl, rfl, rfl, rfl, by decide, by decide, rfl, by decide⟩
theorem witness_ControlRegistersAreReadAndWritten :
    Issues (tState memT) memT ∧ memT.system = true ∧ memT.inTrap = false ∧ csrReadOnly 0x00 = false ∧ csrSystem 0x00 = true ∧ csrReadOnly 0x07 = true ∧
    csrReadOnly 0x05 = false ∧ csrSystem 0x05 = false ∧ Issues (tState { memT with status := 0 }) { memT with status := 0 } ∧
    ({ memT with status := 0 } : Thread).system = false ∧ ((tState memT).ctx memT.ctx).history[memT.histSel.toNat]? = none ∧
    ([(1, 2)] : List (Nat × Nat))[memT.histSel.toNat]? = some (1, 2) ∧ (1 : Word).extractLsb 1 0 ≠ 2 ∧ idleObjects (tState memT) memT.ctx = [] :=
  ⟨rfl, by decide, by decide, by decide, by decide, by decide, by decide, by decide, rfl, by decide, rfl, rfl, by decide, by decide⟩
theorem witness_ThreadsSpawnExitYieldWaitAndMigrate :
    let full := (List.range 48).foldl (fun s i => s.setThread (i + 2)
      (newThread s 0 0 (if i < 31 then .resident (i + 1) else .spilled (i - 31)) 0 0 0 true 0 none)) (tState memT)
    Issues (tState memT) memT ∧ hasStores (tState memT) 0 1 = false ∧ (createThread (tState memT) 0 0 0x100 1 0 true 0 none).isSome = true ∧
    (createThread full 0 0 0x100 1 0 true 0 none) = none ∧ (retireThread (tState memT) 1 false matches .ok _) = true ∧
    oldestSpilled (tState memT) 0 = none ∧ memT.isSpilled = false ∧
    oldestSpilled ((tState memT).setThread 3 { peerT with seat := .spilled 0 }) memT.lcore = some (3, { peerT with seat := .spilled 0 }) ∧ 3 ≠ (tState memT).cur :=
  ⟨rfl, by decide +kernel⟩
-- R50: the program counter of a thread that SPAWN makes from a base that is no word address has its two low bits zero.
theorem test_spawn_word_address :
    (match exec (.spawn 5 1 0) (tState (tThread [(1, 0x2003)])) with
     | .next s => (gAfter 5 (.next s)).bind fun r => (s.thread? r.toNat).map Thread.pc
     | _ => none) = some 0x2000 := by decide +kernel
-- R6, R53: a write of TVALUE is ignored and gives the old value.
theorem test_csrw_tvalue :
    (threadAfter (exec (.csrw 5 1 2) (tState { tThread [(1, 7)] with tvalue := 9 }))).map (fun t => (readG t 5, t.tvalue, t.pc)) =
      some (9, 9, 0x104) := by decide
theorem witness_ThreadsSpawnExitYieldWaitAndMigrate_drains :
    Issues (tStores memT 1) memT ∧ hasStores (tStores memT 1) ((tStores memT 1).coreOf memT) (tStores memT 1).cur = true := ⟨rfl, by decide⟩
theorem witness_ThreadsSpawnExitYieldWaitAndMigrate_waits :
    let t := { memT with waitArmed := true }
    (readG memT 0).extractLsb 31 0 = 0 ∧ Issues (tState t) t ∧ t.waitArmed = true ∧ t.waitLeft = 0 ∧ (readG memT 1).extractLsb 31 0 ≠ 0 ∧
    memT.waitArmed = false := ⟨by decide, rfl, by decide⟩
theorem witness_ThreadsSpawnExitYieldWaitAndMigrate_migrates :
    let s := (tState memT).setLct 5 { LctEntry.none with tag := 1, allocated := true, phys := 1 }
    Issues s memT ∧ memT.system = true ∧ (readG memT 1).extractLsb 63 7 = 0 ∧ (s.lct 5).allocated = true ∧ (s.lct 5).ctx.toNat = memT.ctx ∧
    s.backed 5 = true ∧ 5 ≠ memT.lcore ∧ s.backed 0 = true ∧ Issues (tState { memT with status := 0 }) { memT with status := 0 } ∧
    ({ memT with status := 0 } : Thread).system = false ∧ ({ memT with status := 0 } : Thread).inTrap = false :=
  ⟨rfl, by decide, by decide, by decide, by decide, by decide, by decide, by decide, rfl, by decide⟩
theorem witness_WakesExpiriesAndReportsReachTheirThread :
    let w := { memT with run := .waiting .count, waitLeft := 0 }
    let r : Report := { cause := .page, warning := false, precise := false, engine := 3, tvalue := 9, slot := 7 }
    let d := { memT with sliceDue := true, status := 9 }
    (tState w).thread? 1 = some w ∧ ({ tState w with wakes := [{ tid := 1, reason := .count }] }).wakes[0]? = some { tid := 1, reason := .count } ∧
    w.run = .waiting .count ∧ w.waitLeft = 0 ∧ (tState d).thread? 1 = some d ∧ d.sliceDue = true ∧ d.sliceTraps = true ∧ d.inTrap = false ∧
    ({ memT with sliceDue := true } : Thread).sliceTraps = false ∧ oldestSpilled (tState memT) memT.lcore = none ∧
    ({ tState memT with reports := [(1, r)] }).reports[0]? = some (1, r) ∧ memT.run = .ready ∧ ({ memT with reports := [r] } : Thread).reports = [r] :=
  ⟨rfl, rfl, rfl, rfl, rfl, by decide +kernel⟩
theorem witness_WakesExpiriesAndReportsReachTheirThread_expiry :
    let r : Report := { cause := .page, warning := false, precise := false, engine := 3, tvalue := 9, slot := 7 }
    let d := { memT with sliceDue := true }
    let x := { peerT with seat := .spilled 0 }
    let s := (tState d).setThread 3 x
    s.thread? 1 = some d ∧ d.sliceDue = true ∧ d.sliceTraps = false ∧ oldestSpilled s d.lcore = some (3, x) ∧ 3 ≠ 1 ∧
    ({ d with status := 9, reports := [r] } : Thread).sliceTraps = true ∧ ({ d with status := 9, reports := [r] } : Thread).reports = [r] ∧
    memT.sliceDue = false := by decide +kernel
theorem witness_VectorOperationsActOnEachElement : Issues (tState memT) memT ∧ Ty.isVInt .s8 = true ∧ Ty.isVInt .n32 = true ∧ 63 < Ty.lanes .s8 :=
  ⟨rfl, by decide⟩
theorem witness_VectorElementsMoveConvertAndReduce :
    let t := writeK memT 2 { valid := true, tensor := 1, step := 1, seed := 7 }
    Issues (tState t) t ∧ (readK t 2).valid = true ∧ (readK t 3).valid = false ∧ t.inTrap = false ∧ 15 < Ty.lanes .f32 ∧ 31 < Ty.lanes .bf16 :=
  ⟨rfl, by decide⟩

/-- A tile's configuration for handle 0; the signature is right for no words when it is 0 (R232). -/
def tCfg (kind : TileKind) (sw : List SwitchWord) (sig : W32) : TileCfg :=
  { handle := 0, entry := 0, words := [], sig := sig, kind := kind, switches := sw }
/-- The tile the witnesses use: tile 0 of core 0. -/
def tLoc : TileLoc := { core := 0, tile := 0 }
/-- The handle word of handle 0, generation 1, cluster 0. -/
def hWord : Word := 0x0100000000000000
/-- Handle 0 with one entry, in a state. -/
def tHandle (st : HandleState) (cfg : Option TileCfg) : Handle :=
  { Handle.start 0 1 3 0 128 { core := 0, row := 0, col := 0 } none [{ loc := tLoc, lcore := 0, stream := 72, copyB := false, cfg := cfg }] with state := st }
/-- A launch of handle 0 in a state. -/
def tLaunch (st : LaunchState) : Launch := { Launch.start (tState memT) memT false 0 with state := st }
/-- A thread with the handle in g1 and 5 in g5. -/
def graphT : Thread := tThread [(1, hWord), (5, 5)]
/-- The state with handle 0 and a launch. -/
def tGraph (t : Thread) (x : Handle) (v : Option Launch) : State :=
  let s := (tState t).setHandle 0 0 x
  match v with
  | some v => s.setLaunch 0 0 v
  | none => s
/-- An image of one entry and no dictionary at byte 0 of page 0 (R220, R221). -/
def tImage : List Byte :=
  leBytes 8 0x0000000100000080 ++ leBytes 8 0x0000004000010000 ++ leBytes 8 64 ++ List.replicate 40 0 ++ leBytes 8 0x0000004800000000

theorem witness_GraphsAreLoadedSwappedAndDropped_load :
    let t := tThread []
    let s := { tMapped t with mem := mwrites [] 0 tImage }
    let full := s.modCluster 0 fun c => { c with handles := (List.range 1024).map fun i => (i, tHandle .loaded none) }
    let busy := s.setHandle 0 0 (tHandle .loading none)
    Issues s t ∧ (cfgldChecks s t (readG t 0) (readG t 0) matches .ok _) = true ∧
    (∃ p, cfgldChecks busy t (readG t 0) (readG t 0) = .ok p ∧ loadBlocked p.2.2.2 0 p.2.2.1 = true) ∧
    (∃ p, cfgldChecks s t (readG t 0) (readG t 0) = .ok p ∧ freeKey 0 (p.2.2.2.cluster 0).handles < 1024 ∧ loadBlocked p.2.2.2 0 p.2.2.1 = false ∧
      hasStores p.2.2.2 0 1 = false ∧ (imageBytes p.2.2.2 t.ctx (!t.system) p.1.dictOff (4 * p.1.dicts) matches .ok _) = true) ∧
    1024 ≤ freeKey 0 (full.cluster 0).handles := by
  refine ⟨rfl, by decide +kernel, ⟨_, rfl, by decide +kernel⟩, ⟨_, rfl, by decide +kernel⟩, by decide +kernel⟩
theorem witness_GraphsAreLoadedSwappedAndDropped :
    Issues (tGraph graphT (tHandle .loaded none) none) graphT ∧ graphT.inTrap = false ∧ (readG graphT 5).toNat % 64 ≠ 0 ∧
    (0x0010000000000000 : Word).toNat % 64 = 0 ∧ (0x0010000000000000 : Word).extractLsb 63 52 ≠ 0 ∧
    graphOf (tGraph graphT (tHandle .loaded none) none) graphT hWord = some (0, tHandle .loaded none) ∧
    graphOf (tGraph graphT (tHandle .rejected none) none) graphT hWord = some (0, tHandle .rejected none) ∧
    graphOf (tGraph graphT (tHandle .frozen none) none) graphT hWord = some (0, tHandle .frozen none) ∧
    launchRuns (tGraph graphT (tHandle .loaded none) none) 0 0 = false ∧
    graphOf (tGraph graphT (tHandle .active none) (some (tLaunch .running))) graphT hWord = some (0, tHandle .active none) ∧
    launchRuns (tGraph graphT (tHandle .active none) (some (tLaunch .running))) 0 0 = true ∧
    graphOf (tState graphT) graphT hWord = none := ⟨rfl, by decide +kernel⟩
theorem witness_LoadsEndWithAVerdict :
    let w := { memT with run := .waiting .load }
    let bad := { tHandle .loading none with reason := 5 }
    let fin := { tHandle .loading none with next := 1 }
    let e : Placed := { loc := tLoc, lcore := 0, stream := 72, copyB := false, cfg := none }
    let k := configTok 16 (leBytes 4 7)
    let dict := { tHandle .loading none with dictToks := [(0, 0, configTok 8 ([0, 1] ++ leBytes 4 7))] }
    let foul := { tHandle .loading none with dictToks := [(0, 0, configTok 8 ([240, 1] ++ leBytes 4 7))] }
    let run := { tHandle .loading none with tokens := [k] }
    let path := setPath (tGraph w run none) 0 0 0 [k]
    let cross := { fin with entries := [{ e with cfg := some (tCfg .pass [{ dest := 0, src := 1, slots := 1, vc := 0, more := false, pass := false }] 0) }] }
    (tGraph w cross none).thread? cross.loader = some w ∧ cross.reason = 0 ∧ cross.entries.length ≤ cross.next ∧
    crossBad (preview (tGraph w cross none) cross) cross ≠ none ∧ (tGraph w fin none).thread? fin.loader = some w ∧
    (tGraph w bad none).handle? 0 0 = some bad ∧ bad.state = .loading ∧ (tGraph w bad none).thread? bad.loader = some w ∧ bad.reason ≠ 0 ∧
    w.run = .waiting .load ∧ w.inTrap = false ∧ fin.reason = 0 ∧ fin.entries.length ≤ fin.next ∧ crossBad (preview (tGraph w fin none) fin) fin = none ∧
    dict.reason = 0 ∧ (takeDict (tgetD ((tGraph w dict none).core 0).dicts 0 []) (configTok 8 ([0, 1] ++ leBytes 4 7))) = some [7] ∧
    takeDict (tgetD ((tGraph w foul none).core 0).dicts 0 []) (configTok 8 ([240, 1] ++ leBytes 4 7)) = none ∧ run.dictToks = [] ∧
    run.entries[run.next]? = some e ∧ midTile (tGraph w run none) run = true ∧ (path.tile tLoc).loading = none ∧
    pathToks path 0 (decoderColumn 0) 0 = k :: [] ∧ configFoul k = false ∧ midTile (setPath path 0 0 0 []) run = true := by decide +kernel
theorem witness_TilesSwapFreezeAndReload :
    let c := tCfg .pass [] 0
    let d := tCfg .pass [] 1
    let armed := (tGraph memT (tHandle .loaded none) none).modTile tLoc fun t => { t with shadow := some c, armed := true }
    let runs := (tGraph memT (tHandle .active none) none).modTile tLoc fun t => { t with active := some c }
    let wrong := (tGraph memT (tHandle .active none) none).modTile tLoc fun t => { t with active := some d }
    let frozen := (tGraph memT (tHandle .frozen none) none).modTile tLoc fun t => { t with active := some d, tagAll := true }
    let foul := armed.modTile tLoc fun t => { t with active := some d }
    let stays := (tGraph memT (tHandle .frozen none) none).modTile tLoc fun t => { t with shadow := some c, armed := true, active := some c }
    ((armed.tile tLoc).shadow = some c ∧ (armed.tile tLoc).armed = true ∧ drainedTile (armed.tile tLoc) = true ∧
      foulDrain (armed.tile tLoc) = none ∧ frozenAt armed tLoc = false ∧ repairing armed tLoc = false ∧ foulDrain (stays.tile tLoc) = none ∧ frozenAt stays tLoc = true ∧ foulDrain (foul.tile tLoc) = some d ∧ drainedTile (foul.tile tLoc) = true) ∧
    ((runs.tile tLoc).armed = false ∧ (runs.tile tLoc).active = some c ∧ c.foul = false ∧ (armed.tile tLoc).active = none) ∧
    ((oddTile 1 && Decidable.decide (1 < 96)) = true ∧ (oddTile tLoc.tile && Decidable.decide (tLoc.tile < 96)) = false) ∧
    ((wrong.tile tLoc).active = some d ∧ d.foul = true ∧ wrong.handle? (tLoc.core / 132) d.handle = some (tHandle .active none)) ∧
    (frozen.handle? 0 0 = some (tHandle .frozen none) ∧ frozenTiles frozen 0 (tHandle .frozen none) ≠ [] ∧ launchRuns frozen 0 0 = false ∧
      (reloadBad frozen (tHandle .frozen none) true (frozenTiles frozen 0 (tHandle .frozen none))).isSome = true) := by
  decide +kernel
theorem witness_TilesSwapFreezeAndReload_running :
    let v := { tLaunch .running with marks := 1, marksDone := 1 }
    let s := (tGraph memT (tHandle .frozen none) (some v)).modTile tLoc fun t => { t with active := some (tCfg .pass [] 1), tagAll := true }
    let hold := fun (v : Launch) => (((s.setLaunch 0 0 v).launch? 0 0).any fun v => sinksHold s 0 (tHandle .frozen none) v.marks && v.marksDone = v.marks : Bool)
    launchRuns s 0 0 = true ∧ s.launch? 0 0 = some v ∧ hold v = true ∧ hold { v with marksDone := 0 } = false := by decide +kernel
theorem witness_TilesSwapFreezeAndReload_ends :
    let v := tLaunch .queued
    let s := fun (v : Launch) => (tGraph memT (tHandle .frozen none) (some v)).modTile tLoc fun t => { t with active := some (tCfg .pass [] 1), tagAll := true }
    let wait := ((tGraph memT (tHandle .active none) none).modTile tLoc fun t => { t with active := some (tCfg .pass [] 0), edge := { EdgeSt.start with awaitSeq := some 3 } })
    launchRuns (s v) 0 0 = false ∧ (s v).launch? 0 0 = some v ∧ v.state ≠ .ended ∧ frozenTiles (s v) 0 (tHandle .frozen none) ≠ [] ∧
    (reloadBad (s v) (tHandle .frozen none) true (frozenTiles (s v) 0 (tHandle .frozen none))).isSome = true ∧
    ((s (tLaunch .ended)).launch? 0 0).map Launch.state = some .ended ∧ repairing wait tLoc = true ∧
    stopsAfter { v with preempting := true } = true := by decide +kernel
/-- A source pot: a stream buffer whose push route has no source (R219). -/
def tSource : TileCfg :=
  tCfg (.pot (.stream 4 [])) [{ dest := 6, src := 6, slots := 1, vc := 0, more := false, pass := false }] 0
/-- An inject record for source 0: 64 bytes of payload, data (R273). -/
def tRecord : List Byte := leBytes 64 5 ++ List.replicate 64 0
theorem witness_LaunchesAreQueuedAwaitedFedAndMarked :
    let x := { tHandle .active none with solution := some { islands := [] } }
    let ok := tGraph graphT x (some (tLaunch .ended))
    let run := tGraph graphT x (some (tLaunch .running))
    Issues ok graphT ∧ graphOf ok graphT (readG graphT 1) = some (0, x) ∧ x.state = .active ∧ x.solution ≠ none ∧ launchLive ok 0 0 = false ∧
    launchOperand (readG graphT 5) = true ∧ hasStores ok (ok.coreOf graphT) ok.cur = false ∧ badKey ok 0 x graphT.k = false ∧
    (tHandle .rejected none).state ≠ .loaded ∧ launchLive run 0 0 = true ∧ graphT.inTrap = false ∧ ok.launch? 0 0 = some (tLaunch .ended) ∧
    run.launch? 0 0 = some (tLaunch .running) ∧ launchRuns run 0 0 = true ∧ launchRuns ok 0 0 = false := ⟨rfl, by decide +kernel⟩
theorem witness_LaunchesAreQueuedAwaitedFedAndMarked_drains :
    let x := { tHandle .active none with solution := some { islands := [] } }
    let s := fun (v : LaunchState) => (tGraph graphT x (some (tLaunch v))).modCore 0 fun c => { c with stores := [tEntry] }
    graphOf (s .ended) graphT (readG graphT 1) = some (0, x) ∧ launchLive (s .ended) 0 0 = false ∧ launchOperand (readG graphT 5) = true ∧
    hasStores (s .ended) ((s .ended).coreOf graphT) 1 = true ∧ launchRuns (s .running) 0 0 = true ∧
    hasStores (s .running) ((s .running).coreOf graphT) 1 = true := by decide +kernel
theorem witness_LaunchesAreQueuedAwaitedFedAndMarked_inject :
    let t := tThread [(1, hWord), (2, 0x8000000000020000)]
    let x := tHandle .active none
    let put := fun (queued : Nat) => (tGraph t x (some (tLaunch .running))).modCore 0 fun c =>
      { c with pots := mwrites [] 0x20000 tRecord, tiles := [(0, { Tile.empty with active := some tSource, pot := { PotSt.start with fifo := List.replicate queued Tok.zero } })] }
    (∃ p, injectBytes (put 3) t (readG t 2) = .ok p ∧ (injectRecord p.1).isSome = true ∧ sourceAt p.2 0 x 0 = some tLoc ∧
      sourceOpen p.2 0 tLoc = true) ∧
    (∃ p, injectBytes (put 4) t (readG t 2) = .ok p ∧ sourceOpen p.2 0 tLoc = false) := ⟨⟨_, rfl, by decide +kernel⟩, ⟨_, rfl, by decide +kernel⟩⟩
/-- A scratchpad pot whose channel 0 the west port drives: a sink. -/
def tPad : TileCfg := tCfg (.pot (.scratch false)) [{ dest := 6, src := 3, slots := 1, vc := 0, more := false, pass := false }] 0
theorem witness_LaunchesEndCheckpointAndSuspend :
    let x := tHandle .active none
    let v := tLaunch .running
    let p := { v with marks := 1, preempting := true }
    let s := fun (x : Handle) (v : Launch) (e : NatSet) => (tGraph memT x (some v)).modTile tLoc fun t => { t with active := some tPad, marks := 1, ended := e }
    (s x v [48]).handle? 0 0 = some x ∧ (s x v [48]).launch? 0 0 = some v ∧ v.state = .running ∧ v.acks = 0 ∧ v.halted = false ∧
    graphSinks (s x v [48]) 0 x = [tLoc] ∧ sinksEnded (s x v [48]) 0 x = true ∧ x.state = .active ∧ ({ v with acks := 1 } : Launch).acks ≠ 0 ∧ p.marksDone < p.marks ∧
    sinksHold (s x p []) 0 x 1 = true ∧ v.marks ≤ v.marksDone ∧ v.preempting = false ∧ p.preempting = true ∧
    ({ p with marksDone := 1 } : Launch).marks ≤ ({ p with marksDone := 1 } : Launch).marksDone ∧
    p.reloading = false ∧ ({ p with reloading := true } : Launch).reloading = true ∧
    sinksEnded (s x { p with marksDone := 1 } []) 0 x = false ∧ (saveTree (s x p []) 0 0).launch? 0 0 ≠ none := by decide +kernel
theorem witness_AdmissionPreemptionAndResumption :
    let q := (tGraph graphT (tHandle .loaded none) (some (tLaunch .queued))).modCluster 0 fun c => { c with queues := [(0, [0])] }
    let run := tGraph graphT (tHandle .active none) (some (tLaunch .running))
    let susp := tGraph graphT (tHandle .active none) (some (tLaunch .suspended))
    (drr 65536 (afterQueue (q.cluster 0).lastQueue (candidates q 0)) (q.cluster 0).deficits).1 = some (0, 0) ∧
    candidates (tState graphT) 0 = [] ∧ run.mgmt.preBusy = false ∧ namedLaunch run hWord = some (0, 0, tLaunch .running) ∧ launchRuns run 0 0 = true ∧
    run.launch? 0 0 = some (tLaunch .running) ∧ namedLaunch susp hWord = some (0, 0, tLaunch .suspended) ∧ launchRuns susp 0 0 = false ∧
    (tLaunch .suspended).state = .suspended ∧ (tLaunch .running).state ≠ .suspended ∧
    ({ run with mgmt := { run.mgmt with preBusy := true } } : State).mgmt.preBusy = true := by decide +kernel
/-- A descriptor: a move of one byte from global byte 0x80 to byte 0x100 of the first pot (R278). -/
def tDesc : List Byte := leBytes 8 0x170 ++ leBytes 8 0x80 ++ leBytes 8 0x8000000000000100 ++ List.replicate 24 0 ++ leBytes 8 0x0000000100000001 ++ List.replicate 8 0
/-- A copy of one tile. -/
def tCopy : Copy :=
  { ctx := 0, user := false, tid := 1, op := 0, ty := 7, src := 0x80, dst := 0x8000000000000100, barrier := 0, toZero := false, fill := 0,
    dims := [(1, 1, 0, 0)],
    next := 0, sent := 0, unacked := [], suspended := none, done := false }
theorem witness_CopiesAreStartedAwaitedAndForwarded :
    let t := tThread [(1, 0x8000000000000000), (2, 0x0100000000000000)]
    let s := (tState t).modCore 0 fun c => { c with pots := mwrites [] 0 tDesc }
    let full := s.modCluster 0 fun k => { k with copies := (List.range 4096).map fun i => (i, tCopy) }
    let w := fun (c : Copy) => s.modCluster 0 fun k => { k with copies := [(0, c)] }
    let m := 1
    Issues s t ∧ (∃ p, located s t (readG t 1) 64 .read = .ok p ∧ hasStores p.2 (p.2.coreOf t) p.2.cur = false ∧
      ∃ q, descBytes t (readG t 1) 1 p.2 = .ok q ∧ bits (w64 (field q.1 0 8)) 11 8 = m ∧
        ∃ r, descBytes t (readG t 1) ((48 + 16 * Nat.min 10 m + 63) / 64) q.2 = .ok r ∧ copyFields t r.2.cur r.1 = some tCopy ∧
          (formOwned r.2 0 t.ctx tCopy.src && formOwned r.2 0 t.ctx tCopy.dst && formOwned r.2 0 t.ctx tCopy.barrier) = true ∧
          freeKey 0 (r.2.cluster 0).copies < 4096) ∧
    4096 ≤ freeKey 0 (full.cluster 0).copies ∧ copyOf (w tCopy) t (readG t 2) = some (0, tCopy) ∧ tCopy.done = false ∧
    copyOf (w { tCopy with done := true }) t (readG t 2) = some (0, { tCopy with done := true }) ∧ copyOf s t (readG t 2) = none ∧ t.inTrap = false ∧
    tCopy.suspended = none ∧ heldFor s 0 0 = false ∧ copyTiles tCopy = 1 ∧ copyTiles tCopy ≤ ({ tCopy with next := 1 } : Copy).next ∧ tCopy.unacked = [] :=
  ⟨rfl, ⟨_, rfl, by decide, ⟨_, rfl, by decide, ⟨_, rfl, by decide +kernel⟩⟩⟩, by decide +kernel⟩
theorem witness_CopiesAreStartedAwaitedAndForwarded_waits :
    let t := tThread [(1, 0x8000000000000000)]
    let s := (tState t).modCore 0 fun c => { c with stores := [tEntry] }
    let far := tChip { tState t with trivet := { (tState t).trivet with chip := 3, assigned := true } } 0
    Issues s t ∧ (∃ p, located s t (readG t 1) 64 .read = .ok p ∧ hasStores p.2 (p.2.coreOf t) p.2.cur = true) ∧
    namesZero s tCopy = false ∧
    namesZero { far with fabric := { far.fabric with identity := [(0, 2 ^ 48)] } } { tCopy with dst := 0x40 } = true :=
  ⟨rfl, ⟨_, rfl, by decide⟩, by decide +kernel, by decide +kernel⟩
theorem witness_CopiesAreStartedAwaitedAndForwarded_held :
    let h : HeldWrite := { copy := 0, ctx := 0, op := 0, ty := 7, lcore := 0, addr := 0x100, value := 5, clears := false, bad := false, arrival := none }
    let b := { h with arrival := some 64 }
    let s := fun (hs : List HeldWrite) => (tState memT).modCore 0 fun c => { c with held := hs }
    ((s [h]).core 0).held.find? (heldReady (s [h])) = some h ∧ h.arrival = none ∧ ((s [b, h]).core 0).held.find? (heldReady (s [b, h])) = some h ∧
    ((s [b]).core 0).held.find? (heldReady (s [b])) = some b ∧ b.arrival = some 64 ∧ ((s []).core 0).held.find? (heldReady (s [])) = none := by decide
theorem witness_CopiesAreStartedAwaitedAndForwarded_tiles :
    let peer := { tCopy with dst := 0x0020000000000100 }
    let s := (tChip (tMapped memT) (2 ^ 48)).modCluster 0 fun k => { k with copies := [(0, tCopy), (1, peer)] }
    tCopy.next < copyTiles tCopy ∧ (∃ p, copyMoves 0 tCopy (tileElems (sourceDims tCopy)) 0 s = .ok p ∧
      peerRuns (copyWidth tCopy.ty) (peerElems p.2 tCopy p.1) = []) ∧
    (∃ p, copyMoves 0 peer (tileElems (sourceDims peer)) 0 s = .ok p ∧
      (peerRuns (copyWidth peer.ty) (peerElems p.2 peer p.1))[peer.sent]?.isSome = true ∧
      (peerRuns (copyWidth peer.ty) (peerElems p.2 peer p.1))[1]? = none) ∧
    (copyMoves 0 tCopy (tileElems (sourceDims tCopy)) 0 (tState memT) matches .error _) = true :=
  ⟨by decide, ⟨_, rfl, by decide +kernel⟩, ⟨_, rfl, by decide +kernel⟩, by decide +kernel⟩
theorem witness_RatesAreRequestedSolvedAndRead :
    let t := tThread [(1, hWord), (2, 1), (3, 4095), (4, 4096), (5, 0x10000), (6, 0x20000), (7, 4 + 16 * 0 + 65536 * 6), (8, 5 + 16 * 0 + 65536 * 4), (9, 7)]
    let s := tGraph t (tHandle .loaded none) none
    Issues s t ∧ solvable s t (readG t 1) = .ok (0, tHandle .loaded none) ∧ rateCount (readG t 2) = true ∧ rateCount (readG t 3) = true ∧
    rateCount (readG t 4) = false ∧ rateCount (readG t 0) = false ∧ t.inTrap = false ∧ graphOf s t (readG t 1) = some (0, tHandle .loaded none) ∧
    readG t 0 = 0 ∧ readG t 5 = 0x10000 ∧ readG t 6 = 0x20000 ∧ readG t 2 = 1 ∧ ownCore s t 0 = true ∧ readG t 7 = BitVec.ofNat 64 (4 + 16 * 0 + 65536 * 6) ∧
    readG t 8 = BitVec.ofNat 64 (5 + 16 * 0 + 65536 * 4) ∧ readG t 9 = 7 ∧
    (tState { memT with run := .waiting .solve }).thread? 1 = some { memT with run := .waiting .solve } := ⟨rfl, by decide +kernel⟩

theorem witness_RatesAreRequestedSolvedAndRead_counts :
    let t := tThread [(1, hWord), (2, 2 + 65536 * 3), (3, 3 + 65536 * 6), (4, 6 + 16 * 47 + 65536 * 1), (5, 0x10007)]
    let w : SwitchWord := { dest := 3, src := 4, slots := 1, vc := 0, more := false, pass := false }
    let sieve : StageCfg := { cls := 10, op := 0, srcA := 2, srcB := 0, ty := 11, rnd := 0, sat := false, md := 0, out := 1, ext := [] }
    let edge : Handle := { tHandle .loaded (some (tCfg (.pan [sieve]) [w] 0)) with entries :=
      [{ loc := { core := 0, tile := 0 }, lcore := 0, stream := 72, copyB := false, cfg := some (tCfg (.pan [sieve]) [w] 0) }] }
    let s := tGraph t edge none
    let out : Placed := { loc := { core := 0, tile := 84 }, lcore := 0, stream := 72, copyB := false, cfg := some (tCfg .pass [{ w with dest := 2 }] 0) }
    (graphBounds s { edge with entries := [out] }).length = 1 ∧
    Issues s t ∧ graphOf s t (readG t 1) = some (0, edge) ∧ (graphSieves edge).length = 1 ∧ readG t 3 = BitVec.ofNat 64 (3 + 16 * 0 + 65536 * 6) ∧
    readG t 2 = BitVec.ofNat 64 (2 + 16 * 0 + 65536 * 3) ∧ readG t 4 = BitVec.ofNat 64 (6 + 16 * 47 + 65536 * 1) ∧ (readG t 0).toNat < 128 ∧
    ownCore s t 0 = true ∧ ownCore s t 127 = false ∧ readG t 5 = 0x10007 ∧ ((takeSnapshot s 0 0 edge).handle? 0 0).isSome = true :=
  ⟨by decide +kernel, rfl, by decide +kernel⟩
/-- A switch word. -/
def tWord (dest src slots vc : Nat) : SwitchWord := { dest := dest, src := src, slots := slots, vc := vc, more := false, pass := false }
/-- A data token. -/
def tTok (n : Nat) : Tok := { kind := .data, tag := false, level := 0, seq := 0, payload := BitVec.ofNat 512 n }
/-- Tile 0 of core 0 in a given configuration with queues of its own; tokens wait on its east and west ports, channel 0. -/
def tFab (c : TileCfg) (own : Tbl (List Tok)) (east west : List Tok) : State :=
  (((tGraph memT (tHandle .active none) (some (tLaunch .running))).modTile tLoc fun t => { t with active := some c, running := true, links := own }).modTile
    { core := 0, tile := 1 } fun t => { t with links := [(24, east)] }).modTile { core := 0, tile := 96 } fun t => { t with links := [(8, west)] }
/-- A pan whose stage 1 adds the heads of the east and west ports and emits on the switch. -/
def tStage : StageCfg := { cls := 1, op := 0, srcA := 2, srcB := 4, ty := 11, rnd := 0, sat := false, md := 0, out := 1, ext := [] }
/-- That pan, its emissions going to the south port. -/
def tPan : TileCfg := tCfg (.pan [tStage]) [tWord 2 4 1 0] 0
theorem witness_StagesFireAndSwitchesForward_stages :
    let s := tFab tPan [] [tTok 1] [tTok 2]
    let full := tFab tPan [(16, [tTok 9])] [tTok 1] [tTok 2]
    let one := tFab tPan [] [] []
    (s.tile tLoc).active = some tPan ∧ tPan.kind = .pan [tStage] ∧ ([tStage] : List StageCfg)[1 - 1]? = some tStage ∧ tStage.idle = false ∧
    governedOk (s.tile tLoc) = true ∧ tStage.cls ≠ 6 ∧ mayEmit s tLoc [tStage] 1 tStage (tTok 3) = true ∧ mayEmit full tLoc [tStage] 1 tStage (tTok 3) = false ∧
    ({ StageSt.start with outq := [tTok 3] } : StageSt).outq = tTok 3 :: [] ∧ (tgetD (s.tile tLoc).stages 1 StageSt.start).outq = [] ∧
    tStage.cls = 1 ∧ tStage.srcA ≠ tStage.srcB ∧ tStage.srcB ≠ 0 ∧ tStage.scaled = false ∧
    (namedInputs (s.tile tLoc) 1 tStage).map (inputHead s tLoc) = [some (tTok 1), some (tTok 2)] ∧ 1 ≤ tStage.srcA ∧ tStage.srcB ≤ 5 ∧
    (namedInputs (one.tile tLoc) 1 { tStage with srcB := 0 }).map (inputHead one tLoc) = [none] ∧ governedOk Tile.empty = false ∧
    (let both := tCfg (.pan [{ tStage with srcB := 2 }]) [tWord 4 1 1 0, tWord 5 1 1 1, tWord 2 4 1 0] 0
     let s := tFab both [(linkKey 4 0, [tTok 1]), (linkKey 5 1, [tTok 2])] [] []
     (namedInputs (s.tile tLoc) 1 { tStage with srcB := 2 }).map (inputHead s tLoc) = [some (tTok 1), some (tTok 2)] ∧
     selectedWord (s.tile tLoc).words 4 1 = some (tWord 4 1 1 0) ∧ selectedWord (s.tile tLoc).words 4 2 = none) := by decide +kernel
theorem witness_StagesFireAndSwitchesForward_switches :
    let c := tCfg .pass [tWord 2 1 1 0] 0
    let s := fun (k : Tok) => tFab c [] [k] []
    let full := tFab c [(16, [tTok 9])] [tTok 1] []
    let edge : TileLoc := { core := 0, tile := 84 }
    (chainsOf ((s (tTok 1)).tile tLoc).words).find? (fun (i, _) => i = 0) = some (0, tWord 2 1 1 0 :: []) ∧ (tWord 2 1 1 0).src < 4 ∧
    portHead (s (tTok 1)) routeFuel tLoc 1 0 = some (tTok 1) ∧ misplaced (tTok 1) 0 = false ∧ chainFree (s (tTok 1)) tLoc [tWord 2 1 1 0] = true ∧
    (portTake routeFuel (s (tTok 1)) tLoc 1 0).isSome = true ∧ misplaced { tTok 1 with kind := .reserved } 0 = true ∧
    portHead (s { tTok 1 with kind := .reserved }) routeFuel tLoc 1 0 = some { tTok 1 with kind := .reserved } ∧
    chainFree full tLoc [tWord 2 1 1 0] = false ∧ portHead full routeFuel tLoc 1 0 = some (tTok 1) ∧
    (((tState memT).modTile edge fun t => { t with active := some c }).tile edge).words[0]? = some (tWord 2 1 1 0) ∧ crosses edge 2 = true := by decide +kernel
/-- A pot of a mode whose channel 0 the west port drives, with tokens waiting. -/
def tPot (m : PotMode) (own : List Tok) : State := tFab (tCfg (.pot m) [tWord 6 3 1 0, tWord 1 5 1 0] 0) [(48, own)] [] []
/-- An update record: add 5 as a 32-bit number at byte 8. -/
def tRec : UpdateRec := { off := 8, op := 1, ty := 11, zero := 0, operand := 5 }
theorem witness_PotsTakeAndGiveTokens_scratch :
    let s := tPot (.scratch false) [tTok 1]
    potMode (s.tile tLoc) = some (.scratch false) ∧ governedOk (s.tile tLoc) = true ∧ localHead s tLoc 0 = some (tTok 1) ∧
    (scratchOrder (s.tile tLoc)).find? (scratchReady s tLoc) = some 0 ∧
    sinkRole (modPot (noteFiring (localTake (scratchPressed s tLoc) tLoc 0 (tTok 1)) tLoc) tLoc fun p => { p with lastVc := 0 }) tLoc = .plain ∧
    (s.core 0).pots.wf = true ∧ (tTok 1).tag = false ∧ ({ tTok 1 with tag := true } : Tok).tag = true ∧ 3 < 4 := by
  decide +kernel
theorem witness_PotsTakeAndGiveTokens_stream :
    let s := tPot (.stream 1 []) [tTok 1]
    let full := s.modTile tLoc fun t => { t with pot := { t.pot with fifo := [tTok 2] } }
    let stuck := full.modTile tLoc fun t => { t with links := [(8, [tTok 3])] }
    potMode (s.tile tLoc) = some (.stream 1 []) ∧ pushWord (s.tile tLoc) = some (tWord 6 3 1 0) ∧ (tWord 6 3 1 0).src ≠ 6 ∧
    0 < spaceOf (s.tile tLoc) ∧ spaceOf (full.tile tLoc) = 0 ∧ localHead s tLoc 0 = some (tTok 1) ∧
    isEgressPot (full.tile tLoc) = false ∧ isSourcePot (full.tile tLoc) = false ∧ governedOk (full.tile tLoc) = true ∧
    (popNext (full.tile tLoc).pot).map Prod.fst = some (tTok 2) ∧ (bufferPop full tLoc).map Prod.fst = some (tTok 2) ∧
    placeFoul full tLoc 0 = false ∧ placeFoul (setPoison full 0 (potBase 0) true) tLoc 0 = true ∧
    (popNext (full.tile tLoc).pot).map (fun p => p.2.fifo.length) = some 0 ∧ (full.tile tLoc).pot.fifo.length = 1 ∧ (tTok 2).kind = .data ∧
    sourceFree full tLoc 5 none = true ∧ sourceFree stuck tLoc 5 none = false := by
  decide +kernel
theorem witness_PotsTakeAndGiveTokens_atomic :
    let k := tTok (8 + 2 ^ 32 + 11 * 2 ^ 40 + 5 * 2 ^ 64)
    let bound := { tTok 1 with kind := .bound }
    let s := tPot (.atomic 0 0 0) [k]
    let b := tFab (tCfg (.pot (.atomic 0 0 0)) [tWord 6 3 1 7, tWord 1 5 1 7] 0) [(55, [bound])] [] []
    potMode (s.tile tLoc) = some (.atomic 0 0 0) ∧ governedOk (s.tile tLoc) = true ∧ (s.tile tLoc).pot.outq = [] ∧ potSeven s tLoc = none ∧
    drivenChannels (s.tile tLoc) = [0] ∧ localHead s tLoc 0 = some k ∧ potJoin s tLoc = .ok [(0, k)] ∧ dataFree s tLoc = true ∧ k.kind = .data ∧
    potMode (b.tile tLoc) = some (.atomic 0 0 0) ∧ governedOk (b.tile tLoc) = true ∧ (b.tile tLoc).pot.outq = [] ∧ localHead b tLoc 7 = some bound ∧
    bound.kind = .bound ∧ sourceFree b tLoc 5 (some 7) = true ∧
    tRec.op ≠ 0xFF ∧ recordApplies 0 0 0 tRec = some (.add, .n32) ∧ recordApplies 0 0 0 { tRec with off := 9 } = none ∧ (s.core 0).pots.wf = true := by
  decide +kernel
theorem witness_PotsTakeAndGiveTokens_seven :
    let k := { tTok 1 with kind := .bound }
    let s := (tFab (tCfg (.pot (.atomic 0 0 0)) [tWord 6 3 1 7, tWord 6 1 1 0, tWord 1 5 1 7] 0) [(55, [k]), (48, [{ tTok 2 with tag := true }])] [] []).modTile
      tLoc fun t => { t with links := t.links ++ [(15, [k])] }
    potMode (s.tile tLoc) = some (.atomic 0 0 0) ∧ governedOk (s.tile tLoc) = true ∧ (s.tile tLoc).pot.outq = [] ∧ potSeven s tLoc = none ∧
    localHead s tLoc 7 ≠ none ∧ potJoin (sevenPressed s tLoc) tLoc = .ok [(0, { tTok 2 with tag := true })] ∧
    dataFree (sevenPressed s tLoc) tLoc = true := by decide +kernel
theorem witness_PotsTakeAndGiveTokens_mandoline :
    let s := tPot (.mandoline 3 1 1 1 11) [{ tTok 1 with kind := .streamEnd }]
    let out := s.modTile tLoc fun t => { t with pot := { t.pot with outq := [tTok 2] } }
    let one := tPot (.mandoline 3 1 1 1 11) [tTok 1]
    let stuck := out.modTile tLoc fun t => { t with links := [(8, [tTok 3]), (48, [tTok 1])] }
    let take := fun (s : State) => ((mandolineTake 3 1 1 (rowToks 1 11) s tLoc).tile tLoc).pot.outq
    take out = tTok 2 :: [] ∧ (tTok 2).kind = .data ∧ dataFree out tLoc = true ∧ take one = [] ∧ potJoin one tLoc = .ok [(0, tTok 1)] ∧
    (tTok 1).kind = .data ∧ mandolineTakes 3 (rowToks 1 11) (one.tile tLoc).pot = true ∧
    take stuck = tTok 2 :: [] ∧ dataFree stuck tLoc = false ∧
    potMode (s.tile tLoc) = some (.mandoline 3 1 1 1 11) ∧ governedOk (s.tile tLoc) = true ∧ potSeven s tLoc = none ∧
    potMode (one.tile tLoc) = some (.mandoline 3 1 1 1 11) ∧ governedOk (one.tile tLoc) = true ∧ potSeven one tLoc = none ∧
    ((windowKeys 3 1 1 1 2 0).dropLast.any fun key => placeFoul one tLoc (linePlace 3 1 1 key)) = false := by decide +kernel
/-- A controller node of a kind without a window. -/
def tNode (kind : Nat) : NodeCfg := { kind := kind, children := 1, bound := false, window := 0, parent := 15, trip := 2 }
/-- A controller pot with one node, its state, its own messages, and tokens on local channels 0 and 1. -/
def tCtl (n : NodeCfg) (x : NodeSt) (ms : List CtlMsg) (a b : List Tok) : State :=
  (tFab (tCfg (.pot (.host [n])) [tWord 6 3 1 0, tWord 6 1 1 1, tWord 1 5 1 0, tWord 2 7 1 7] 0) [(48, a), (49, b)] [] []).modTile tLoc
    fun t => { t with nodes := [(0, x)], ctl := ms }
theorem witness_ControllerNodesPassPermitsAndDones :
    let z := NodeSt.start
    let permit : CtlMsg := { done := false, node := 0, child := 0, count := 1 }
    let full := (tCtl (tNode 0) z [] [] []).modTile tLoc fun t => { t with links := [(23, [tTok 1])] }
    let waits := (tCtl (tNode 0) { z with credit := 1 } [] [] []).modTile tLoc fun t => { t with links := [(23, [tTok 1])] }
    (full.tile tLoc).active.isSome = true ∧ nodeStarts (tCtl (tNode 0) z [permit] [] []) tLoc = [] ∧
    nodeStarts waits tLoc ≠ [] ∧ firstStart waits tLoc = none ∧
    (firstStart (tCtl (tNode 0) { z with credit := 1 } [] [] []) tLoc).isSome = true ∧ firstStart (tCtl (tNode 0) z [permit] [] []) tLoc = none ∧
    nextPermit (tCtl (tNode 0) z [permit] [] []) tLoc = some (0, permit) ∧ nextPermit (tCtl (tNode 0) z [] [] []) tLoc = none ∧
    (hostNodes ((tCtl (tNode 0) z [] [] []).tile tLoc))[0]? = some (tNode 0) ∧ (tNode 2).kind ≤ 2 ∧
    0 < (((tCtl (tNode 0) { z with credit := 1 } [] [] []).tile tLoc).node 0).credit ∧ (tNode 0).window = 0 ∧ isHost ((tCtl (tNode 0) z [] [] []).tile tLoc) = true ∧
    owing (tCtl (tNode 1) { z with issued := [(0, 1)], returned := [(0, 1)] } [] [] []) tLoc = some (0, tNode 1) ∧ owing (tCtl (tNode 0) z [] [] []) tLoc = none ∧
    ((tCtl (tNode 0) z [{ permit with done := true }] [] []).tile tLoc).ctl.zipIdx.find? (fun (m, _) => m.done) = some ({ permit with done := true }, 0) ∧
    nextDone (tCtl (tNode 0) { z with issued := [(0, 1)] } [{ permit with done := true }] [] []) tLoc = some (0, { permit with done := true }) ∧
    ((tCtl (tNode 0) z [permit] [] []).tile tLoc).ctl.any CtlMsg.done = false ∧
    (let two := tFab (tCfg (.pot (.host [tNode 0, { tNode 1 with parent := 0 }])) [] 0) [] [] []
     (childrenOf two tLoc 0)[0]?.map (fun c => match c with
       | .node m => m
       | .word _ => 9) = some 1) ∧
    tgetD (((tCtl (tNode 0) z [] [] []).tile tLoc).node 0).issued 0 0 ≤ tgetD (((tCtl (tNode 0) z [] [] []).tile tLoc).node 0).returned 0 0 := by
  decide +kernel
theorem witness_ControllerNodesPassPermitsAndDones_data :
    let x := { NodeSt.start with selects := [(false, true)] }
    let first := { NodeSt.start with carryLeft := 1, carryFirst := true }
    let later := { NodeSt.start with carryLeft := 1, carryFirst := false }
    let stuck := (tCtl (tNode 4) x [] [] []).modTile tLoc fun t => { t with links := [(8, [tTok 1]), (48, [tTok 1])] }
    nodeAt (tCtl (tNode 4) x [] [tTok 1] []) tLoc 0 4 = some x ∧ localHead (tCtl (tNode 4) x [] [tTok 1] []) tLoc 0 = some (tTok 1) ∧
    sourceFree (tCtl (tNode 4) x [] [tTok 1] []) tLoc 5 (some 0) = true ∧ sourceFree stuck tLoc 5 (some 0) = false ∧ localHead stuck tLoc 0 = some (tTok 1) ∧
    nodeAt (tCtl (tNode 5) x [] [tTok 1] []) tLoc 0 5 = some x ∧ sourceFree (tCtl (tNode 5) x [] [tTok 1] []) tLoc 5 (some 0) = true ∧
    nodeAt (tCtl (tNode 6) first [] [tTok 1] []) tLoc 0 6 = some first ∧ sourceFree (tCtl (tNode 6) first [] [tTok 1] []) tLoc 5 (some 0) = true ∧
    nodeDoneFree (tCtl (tNode 6) later [] [] [tTok 1]) tLoc 0 = true ∧ sourceFree (tCtl (tNode 6) later [] [] [tTok 1]) tLoc 5 (some 1) = true ∧
    nodeAt (tCtl (tNode 6) later [] [] [tTok 1]) tLoc 0 6 = some later ∧ localHead (tCtl (tNode 6) later [] [] [tTok 1]) tLoc 1 = some (tTok 1) := by
  decide +kernel
/-- The edge node at the west end of row 0, with a configuration, a state and tokens of its own; its tile sends it tokens. -/
def tEdge (c : EdgeCfg) (e : EdgeSt) (running : Bool) (own : Tbl (List Tok)) (sent : List Tok) : State :=
  (tFab (tCfg .pass [tWord 3 4 1 0] 0) [(24, sent)] [] []).modTile { core := 0, tile := 96 } fun t =>
    { t with active := some (tCfg (.edge c) [] 0), running := running, edge := e, links := own }
/-- That edge node. -/
def tRim : TileLoc := { core := 0, tile := 96 }
/-- A spout of one round of one byte. -/
def tSpout (write : Bool) : EdgeCfg := .spout write 7 1 0x40 0 [{ extent := 1, tile := 1, stride := 1 }]
theorem witness_EdgeNodesMoveRoundsAndRepliesArrive_reads :
    let z := EdgeSt.start
    let s := tEdge (tSpout false) z true [] []
    let due := s.setLaunch 0 0 { tLaunch .running with marks := 1 }
    let again := { z with reinject := some 1, window := [{ tTok 1 with seq := 1 }] }
    edgeCfg s tRim = some (tSpout false) ∧ edgeRuns s tRim = true ∧ (edgeSt s tRim).ended = false ∧ (edgeSt s tRim).collected = [] ∧ tRim.core ≠ portCore ∧
    dueMark s tRim = none ∧ dueMark due tRim = some 1 ∧ edgeRuns (tEdge (tSpout false) z false [] []) tRim = false ∧
    (edgeSt (tEdge (tSpout false) again true [] []) tRim).reinject = some 1 ∧ edgeOutFree (tEdge (tSpout false) again true [] []) tRim = true ∧
    edgeOutFree (tEdge (tSpout false) again true [(8, [tTok 2])] []) tRim = false ∧
    (edgeSt (tEdge (tSpout false) { z with pending := [tTok 3] } true [] []) tRim).pending = tTok 3 :: [] ∧ z.faulted = none ∧ z.awaitReply = false := by
  decide +kernel
theorem witness_EdgeNodesMoveRoundsAndRepliesArrive_writes :
    let z := EdgeSt.start
    let s := tEdge (tSpout true) z true [] [tTok 1]
    let g := tEdge (.gather 7 1 0x40 0 1 1 false 1) z true [] [tTok 1]
    let peer : TileLoc := { core := 0, tile := 104 }
    let n := fun (send : Bool) => (tEdge (.port send 0 1 0 0) z true [] []).modTile peer fun t =>
      { t with active := some (tCfg (.edge (.port (!send) 0 0 0 0)) [] 0) }
    edgeCfg s tRim = some (tSpout true) ∧ (edgeSt s tRim).ended = false ∧ (edgeSt s tRim).faulted = none ∧
    ({ z with committing := [tTok 1] } : EdgeSt).committing ≠ [] ∧ z.committing = [] ∧ ({ z with collected := [tTok 1] } : EdgeSt).collected.length = 1 ∧
    z.collected.length < 1 ∧ edgeHead s tRim = some (tTok 1) ∧ sinkRole s tRim = .plain ∧ tRim.core ≠ portCore ∧
    edgeCfg g tRim = some (.gather 7 1 0x40 0 1 1 false 1) ∧ edgeHead g tRim = some (tTok 1) ∧ (edgeSt g tRim).collected = [] ∧
    edgeCfg (n true) tRim = some (.port true 0 1 0 0) ∧ namedBack (n true) tRim (networkPeer (n true) tRim 0 1 0) true = true ∧
    namedBack (n false) tRim (networkPeer (n false) tRim 0 1 0) false = true ∧
    namedBack (tEdge (.port true 0 1 0 0) z true [] []) tRim (networkPeer s tRim 0 1 0) true = false := by decide +kernel
/-- A table of one large page, at byte 0 (R306, R307). -/
def tTable : Memory := mwrites (mwrites (mwrites [] 0 (leBytes 8 0x10001)) 0x10000 (leBytes 8 0x20001)) 0x20000 (leBytes 8 0x20003F)
theorem witness_EdgeNodesMoveRoundsAndRepliesArrive_walks :
    let w : Walk := { ctx := 0, va := 0x40, acc := .read, user := true, loc := tRim, result := none }
    let s := { (tState memT) with mem := tTable }
    ((s.modRim 0 fun x => { x with walks := [w] }).rim 0).walks[0]? = some w ∧ w.result = none ∧
    walk tTable (s.ctx 0).root 0x40 = .ok (0x20003F, 21) ∧ leafCheck 0x20003F 21 0x40 .read true = .ok 0x200040 ∧
    walk [] (s.ctx 0).root 0x40 = .error (.fail false 1 0) := by decide +kernel
theorem witness_EdgeNodesMoveRoundsAndRepliesArrive_replies :
    let r : MemReply := { tile := 96, tag := 1, handle := 0, operands := some [tTok 1] }
    let s := fun (r : MemReply) => (tGraph memT (tHandle .active none) (some (tLaunch .running))).modCore 0 fun c => { c with replies := [r] }
    ((s r).core 0).replies[0]? = some r ∧ r.tag = coreTag (s r) 0 ∧ r.operands = some [tTok 1] ∧ ({ r with tag := 2 } : MemReply).tag ≠ coreTag (s r) 0 ∧
    ({ r with operands := none } : MemReply).operands = none ∧ (s r).launch? (0 / 132) r.handle = some (tLaunch .running) := by decide +kernel

/-- The state in a power state, with READY[0]. -/
def tPower (p : Power) : State := { tState memT with power := p, mgmt := { Mgmt.reset with ready := 1 } }
theorem witness_PowerFallsReturnsAndIsCapped :
    let graph := (tGraph memT (tHandle .active none) (some { tLaunch .running with quiesced := true, marks := 1 })).modTile tLoc
      fun t => { t with active := some tPad }
    (3799 : Word).toNat < 3800 ∧ (tPower .running).power ≠ .off ∧ (3399 : Word).toNat < 3400 ∧ (tPower .running).power = .running ∧
    (tPower .quiescing).power = .quiescing ∧ allHold (tPower .quiescing) = true ∧ allHold graph = false ∧ 4000 ≤ (4000 : Word).toNat ∧
    (tPower .holding).power = .holding ∧ 263 < 264 ∧ (420 : Int) ≤ 420 ∧ (419 : Int) < 420 ∧ capAccepted (tPower .running).mgmt 0x0000000100000001 = true ∧
    capAccepted (tPower .running).mgmt 0x0001000000000001 = false ∧ ({ Mgmt.reset with capSeen := true } : Mgmt).capSeen = true ∧ State.reset.power = .off ∧
    powerFailure Flash.reset (SelfTest.mk 4000 true true [] []) = 0 ∧ powerFailure Flash.reset (SelfTest.mk 4000 false true [] []) = 3 ∧
    powerFailure { Flash.reset with boardSigned := false } (SelfTest.mk 4000 true true [] []) = 5 ∧
    powerFailure { Flash.reset with trivetA := { bytes := [], signed := false } } (SelfTest.mk 4000 true true [] []) = 0 ∧
    ¬4000 ≤ (3999 : BitVec 16).toNat ∧ 4000 ≤ (4000 : BitVec 16).toNat := by decide +kernel
/-- A rate step that changes nothing. -/
def tStep : RateStep := { handle := 0, admission := false, islands := [], retried := false, counts := [] }
theorem witness_RatesFollowRegulatorsPowerAndHeat :
    let s := (tPower .running).modCluster 0 fun c => { c with step := some tStep, budget := 0 }
    (s.cluster 0).step = some tStep ∧ ((tPower .running).cluster 0).step = none ∧ ((tPower .running).cluster 0).budget = 0 ∧
    ([].map fun (x : Nat × Nat) => railPower s 0 x.1 (x.2 % 1024)).sum ≤ (s.cluster 0).budget ∧ (4399 : Word).toNat < 4400 ∧ 4400 ≤ (4400 : Word).toNat ∧
    ({ Mgmt.reset with droop := true } : Mgmt).droop = true ∧ s.backed 0 = true ∧ 0 < 64 ∧ (379 : Int) < 380 ∧
    (∀ x ∈ (s.cluster (0 / 132)).handles, sourcesRun s (0 / 132) x.1 = false) ∧ (s.cluster (0 / 132)).retry = none ∧ (359 : Int) < 360 := by decide +kernel
theorem witness_SystemCommandsActOnWhatTheySelect :
    let s := tPower .running
    let busy := s.modCtx 0 fun c => { c with invBusy := some (0, 2 ^ 52) }
    let held := busy.modCore 0 fun c => { c with stores := [tEntry] }
    let zero := s.modCore 1 fun c => { c with zeroing := some 0 }
    finishable s = [] ∧ finishable busy = [0] ∧ finishable held = [] ∧ (s.ctx 0).invBusy = none ∧ (busy.ctx 0).invBusy = some (0, 2 ^ 52) ∧ staleWork busy 0 0 (2 ^ 52) = false ∧ staleWork held 0 0 (2 ^ 52) = true ∧
    (zero.core 1).zeroing ≠ none ∧ zero.logical 1 = none ∧ (s.core 1).zeroing = none ∧ (newctlThread s 0).isSome = true ∧ newctlThread s 1 = none ∧
    (0x8000 : Word).extractLsb 63 15 ≠ 0 ∧ ({ s.mgmt with svcRsp := [5] } : Mgmt).svcRsp = 5 :: [] ∧ s.mgmt.svcRsp = [] := by decide +kernel
theorem witness_SystemCommandsActOnWhatTheySelect_gives :
    let s := (tPower .running).setLct 0 { LctEntry.none with tag := 1, allocated := true, phys := 0, ctx := 0 }
    selectedCore s = 0 ∧ (s.lct 0).allocated = true ∧ (s.lct 0).ctx ≠ (0x4100 : Word).extractLsb 13 8 ∧ s.backed 0 = true := by decide
-- R283: what names another context for an entry in use frees it first.
theorem test_lct_moves : (writtenEntry { LctEntry.none with tag := 1, allocated := true, phys := 0, ctx := 0 } 0x4100 false).allocated = false ∧
    (writtenEntry { LctEntry.none with tag := 1 } 0x4100 false).allocated = true := by decide
theorem witness_WindowsApertureAndRegistersActForTheHost_rings :
    let s := tPower .running
    let t := s.setWindow false 0 { Window.reset with tail := 2 }
    windowOpen s 0 = true ∧ windowOpen s 256 = true ∧ 767 < (768 : Word).toNat ∧ ringCount 0 1 < ringCount 0 (t.window false 0).tail ∧ (767 : Word).toNat ≤ 767 ∧
    ringCount 0 (t.window false 0).tail ≤ ringCount 0 767 ∧ ringCount 0 0 < ringCount 0 767 ∧ (0x10000 : Word).getLsbD 16 = true ∧ (0xFFFF : Word).getLsbD 16 = false ∧
    windowPot s false 0 { Window.reset with atts := 0x10000 } = none := by decide +kernel
theorem witness_WindowsApertureAndRegistersActForTheHost_push :
    let w := { Window.reset with tail := 1, atth := hWord, atts := 0x10000 }
    let s := fun (c : TileCfg) (st : LaunchState) (running : Bool) => (((tGraph memT (tHandle .active none) (some (tLaunch st))).modTile tLoc fun t =>
      { t with active := some c, running := running }).setWindow false 0 w).setWindow true 0 w
    let e := tCfg (.pot (.stream 4 [])) [tWord 6 3 1 0] 0
    let full := (s e .running true).setWindow true 0 { w with tail := 767 }
    let queued := (s tSource .running true).modTile tLoc fun t => { t with pot := { t.pot with fifo := List.replicate 4 (tTok 1) } }
    let ready := (s e .running true).modTile tLoc fun t => { t with pot := { t.pot with fifo := [tTok 1] } }
    bit w.atts 16 = true ∧ w.head ≠ w.tail ∧ windowPot (s tSource .running true) false 0 w = some (0, 0, tLoc) ∧
    launchRuns (s tSource .running true) 0 0 = true ∧ launchRuns (s tSource .ended true) 0 0 = false ∧ slotTok (0, 0) = some (tTok 0) ∧
    slotTok (BitVec.ofNat 32 (7 * 2 ^ 29), 0) = none ∧ sourceOpen (s tSource .running true) 0 tLoc = true ∧ sourceOpen queued 0 tLoc = false ∧
    windowPot (s e .running true) true 0 w = some (0, 0, tLoc) ∧ ((s e .running true).tile tLoc).active = some e ∧ e.handle = 0 ∧
    ringCount (full.window true 0).head (full.window true 0).tail = 767 ∧ ringCount w.head w.tail ≠ 767 ∧
    (egressTake ready tLoc).map (fun p => p.1.isSome) = some true := by decide +kernel
theorem witness_WindowsApertureAndRegistersActForTheHost_aperture :
    let s := tPower .running
    16 < 32 ∧ 16 % 16 = 0 ∧ bit s.mgmt.ready 0 = true ∧ 2 ^ 36 - 8 + 8 ≤ 2 ^ 36 ∧
    (((List.range 8).map fun i => s.mgmt.apBase.toNat + (2 ^ 36 - 8) + i).all populated) = true ∧
    (((List.range 8).map fun i => (0x1FFFFFFFFC : Word).toNat + 0 + i).all populated) = false ∧ bit State.reset.mgmt.ready 0 = false ∧
    33 < 34 ∧ 31 % 16 ≠ 0 ∧ 0x7FFF < 0x8000 ∧ regionsOpen s 16 = true ∧ vfContext s 1 = none ∧ 0x1FFFF8 + 8 ≤ 0x200000 ∧ 0x200 + 8 ≤ 0x208 := by decide +kernel
/-- A request of the host, with a record of command 3 at byte 0x40. -/
def tService (a : Word) (r : List Byte) : State :=
  { tPower .running with mem := mwrites [] 0x40 r, mgmt := { Mgmt.reset with ready := 1, svcReq := [a, 0x40] } }
theorem witness_ServiceRequestsAreAnsweredInTurn :
    let rec0 := leBytes 8 0 ++ leBytes 8 (2 ^ 48) ++ List.replicate 16 0
    let s := fun (a : Word) (r : List Byte) => tService a r
    (s 1 []).mgmt.svcReq = 1 :: 0x40 :: [] ∧ ((1 : Word).setWidth 8).toNat = 1 ∧ (0x801 : Word).extractLsb 63 16 = 0 ∧ 7 < ((0x801 : Word).extractLsb 15 8).toNat ∧
    ((0x701 : Word).extractLsb 15 8).toNat ≤ 7 ∧ (0x40 : Word).toNat % 64 = 0 ∧ (readFor (s 1 []) .host 0x40 64).isSome = true ∧
    ((2 : Word).extractLsb 63 8 = 0 ∧ (0x102 : Word).extractLsb 63 8 ≠ 0) ∧ Trivet.reset.attest = false ∧ ({ Trivet.reset with attest := true } : Trivet).quotes < 32768 ∧
    (readFor (s 3 rec0) .host 0x40 32).map Prod.fst = some rec0 ∧ recordOk 3 rec0 = true ∧ field rec0 0 1 = 0 ∧ field rec0 2 2 ≤ 255 ∧
    (BitVec.ofNat 64 (field rec0 8 8)).extractLsb 15 10 = 0 ∧ (BitVec.ofNat 64 (field rec0 8 8)).extractLsb 63 51 = 0 ∧
    bits (identity (s 3 rec0) 0) 47 32 = field rec0 4 2 ∧ field rec0 1 1 = 0 ∧ recordOk 0x103 rec0 = false ∧ anyLaunchRuns (s 3 rec0) = false := by decide +kernel
theorem witness_ServiceRequestsAreAnsweredInTurn_verifies :
    let hd : List Byte := leBytes 4 100 ++ List.replicate 16 0 ++ leBytes 4 72 ++ leBytes 4 2668 ++ List.replicate 36 0
    field hd 20 4 ≠ 0 ∧ field hd 24 4 = lmsLength ∧ field hd 20 4 ≤ field hd 0 4 ∧ field hd 0 4 < field hd 20 4 + lmsLength ∧
    field (leBytes 4 71 ++ hd.drop 4) 0 4 < field hd 20 4 ∧ hd.length = 64 := by decide +kernel
theorem witness_ServiceRequestsAreAnsweredInTurn_records :
    let r := fun (op : Nat) => leBytes 8 op ++ leBytes 8 0x1000 ++ List.replicate 16 0
    let s := tService 3 (r 1)
    [0, 1, 2, 3, 4].all (fun op => recordOk 3 (r op) && field (r op) 0 1 == op) = true ∧
    bits (identity s 0) 47 32 ≠ field (leBytes 8 0x100000000) 4 2 ∧ (readFor s .host 0x1000 4096).isSome = true ∧
    (writeFor s .host (field (r 1) 8 8) (leBytes 64 0)).isSome = true ∧
    anyLaunchRuns (tGraph memT (tHandle .active none) (some (tLaunch .running))) = true ∧
    logFits 0x1000 0x1000 = true ∧ logFits 0x1FFFFFFFFF 1 = false ∧ tget Flash.reset.keys 7 = none ∧
    tget ({ Flash.reset with keys := [(7, [])] } : Flash).keys 7 = some [] := by decide +kernel
theorem witness_EveryWordDecodesToItsInstruction : wellFormed (.add .s64 31 31 31) = true ∧ (encode (.add .s64 31 31 31)).isSome = true := by decide
theorem witness_WhatDecodesEncodesToTheSameWord : decode 0b000010_00001_00000_0000000000000101#32 = .ok (.addi 1 0 5) := by decide
/-- A state whose next move is a slot of core 0, with the line of address 0x100 buffered and NOP in it. -/
def tSlot (pc : Word) (lines : List Line) : State :=
  let s := tMapped { memT with pc := pc }
  { s.modCore 0 fun c => { c with lines := lines } with schedule := [.slot 0] }
/-- That line. -/
def tLine (w : Nat) : Line := { ctx := 0, line := 4, pline := 4, bytes := lineWith 0 w }
theorem witness_AStepRunsTheDecodedInstruction :
    let nop := 0b10010100000000000000011100000000
    let s := tSlot 0x100 [tLine nop]
    issuing { s with schedule := [] } 0 = true ∧
    (let s1 := openSlot { s with schedule := [] } 0
     pickThread s1 0 (s1.core (s1.phys 0)).lastSlot = some (0, 1) ∧
     (let s2 := dropStale (takeReport { s1.modCore (s1.phys 0) (fun c => { c with lastSlot := 0 }) with cur := 1 } 1) 1
      s2.thread? 1 = some { memT with pc := 0x100 } ∧ (fetchAt s2 { memT with pc := 0x100 }).1 = .word (BitVec.ofNat 32 nop) ∧
      decode (BitVec.ofNat 32 nop) = .ok .nop)) ∧
    (fetchAt (tSlot 0x100 [tLine 0]) { memT with pc := 0x100 }).1 = .word 0 ∧ decode 0 = .error .major ∧
    (fetchAt (tSlot 0x100 []) { memT with pc := 0x100 }).1 = .miss ∧ (fetchAt (tSlot 0x102 []) { memT with pc := 0x102 }).1 = .trap .align ∧
    ({ s with schedule := [.event .reset] } : State).schedule = .event .reset :: [] ∧
    (0xFFFFFFFFFFFFC : Word).toNat % 4 = 0 ∧ (0xFFFFFFFFFFFFC : Word).toNat < 2 ^ 52 ∧
    (translate s 0 (0x100 : Word).toNat .fetch false).1 = .ok 0x100 ∧
    (s.core (s.coreOf memT)).lines.find? (fun l => l.ctx = memT.ctx && l.line = (0x100 : Word).toNat / 64) = some (tLine nop) := by decide +kernel
theorem witness_EveryStepKeepsMemoryCanonical :
    let s := { State.reset with schedule := [.event .reset], mem := [(0x40, 5)] }
    MemorySafe s ∧ Steps s (dropReady { State.reset with mem := [(0x40, 5)] }) :=
  ⟨⟨rfl, fun _ _ h => absurd h (by simp [State.reset])⟩, rfl⟩
theorem witness_ResetLeavesEveryRegisterAtItsValue : (0x00 ∈ [0x00, 0x230]) ∧ 1 < 2 ∧ 1 ≤ 15 ∧ 15 ≤ 15 := by decide
end

section
/-! PROOFS. Control and status registers (R53, R133): the words that they read and keep, and what CSRR, CSRW, CSRS and CSRC do. -/

namespace Sys2Proof.Machine

open Sys2Proof

/-! ## Fields and masks of a word -/

/-- A field of a word is the pattern of its number. -/
theorem extractLsb_of_bits {x : Word} {hi lo : Nat} {v : BitVec (hi - lo + 1)} (h : lo ≤ hi) (hv : bits x hi lo = v.toNat) :
    x.extractLsb hi lo = v :=
  BitVec.eq_of_toNat_eq ((bits_extract x hi lo h).symm.trans hv)

/-- A field of a word made of a number. -/
theorem bits_w64 (n hi lo : Nat) : bits (w64 n) hi lo = n % 2 ^ 64 / 2 ^ lo % 2 ^ (hi + 1 - lo) := by
  simp [bits, w64]

/-- The low bits of a word are what a mask of ones keeps. -/
theorem w64_mod_two_pow (x : Word) (n : Nat) (h : n ≤ 64) : w64 (x.toNat % 2 ^ n) = x &&& w64 (2 ^ n - 1) := by
  have hp : 2 ^ n ≤ 2 ^ 64 := Nat.pow_le_pow_right (by omega) h
  have hm : x.toNat % 2 ^ n < 2 ^ n := Nat.mod_lt _ (Nat.two_pow_pos n)
  apply BitVec.eq_of_toNat_eq
  rw [BitVec.toNat_and, w64, w64, BitVec.toNat_ofNat, BitVec.toNat_ofNat, Nat.mod_eq_of_lt (by omega : 2 ^ n - 1 < 2 ^ 64),
    Nat.and_two_pow_sub_one_eq_mod, Nat.mod_eq_of_lt (by omega)]

/-- Clearing the low bits is a mask. -/
theorem clearLow_eq_and (x : Word) (n : Nat) : clearLow x n = x &&& ~~~w64 (2 ^ n - 1) := by
  apply BitVec.eq_of_getLsbD_eq
  intro i hi
  rw [clearLow_bit, BitVec.getLsbD_and, BitVec.getLsbD_not, getLsbD_w64, Nat.testBit_two_pow_sub_one]
  by_cases hn : i < n <;> simp [hn, hi]

/-- What LOGMODE keeps of a value is a mask: the cursor, the replay bit and the mode (R53). -/
theorem logModeWrite_eq_and (x : Word) : logModeWrite x = x &&& 0xFFFFFFFF00000007 := by
  have hx : x.toNat < 2 ^ 64 := x.isLt
  have hor : logModeWrite x = clearLow x 32 ||| w64 (x.toNat % 2 ^ 3) := by
    apply BitVec.eq_of_toNat_eq
    have hlow : x.toNat % 2 ^ 3 < 2 ^ 32 := by omega
    have hsum := Nat.two_pow_add_eq_or_of_lt hlow (x.toNat / 2 ^ 32)
    rw [BitVec.toNat_or, clearLow, logModeWrite, w64, w64, w64, BitVec.toNat_ofNat, BitVec.toNat_ofNat, BitVec.toNat_ofNat,
      Nat.mod_eq_of_lt (by omega : x.toNat / 2 ^ 32 * 2 ^ 32 < 2 ^ 64), Nat.mod_eq_of_lt (by omega : x.toNat % 2 ^ 3 < 2 ^ 64),
      Nat.mul_comm (x.toNat / 2 ^ 32), ← hsum]
    simp only [bits]
    omega
  rw [hor, clearLow_eq_and, w64_mod_two_pow x 3 (by omega), ← BitVec.and_or_distrib_left]
  rfl

/-! ## Reads -/

/-- The watch addresses are registers 0x10 to 0x13 (R53). -/
theorem readCsr_watchAddr (s : State) (tid : Nat) (t : Thread) (i : Fin 4) : readCsr s tid t (0x10 + i) = t.watchAddr[i] := by
  have hr : readCsr s tid t (0x10 + i) = t.watchAddr.toList.getD i 0 := by fin_cases i <;> rfl
  rw [hr]
  simp

/-- The watch masks are registers 0x14 to 0x17 (R53). -/
theorem readCsr_watchMask (s : State) (tid : Nat) (t : Thread) (i : Fin 4) : readCsr s tid t (0x14 + i) = t.watchMask[i] := by
  have hr : readCsr s tid t (0x14 + i) = t.watchMask.toList.getD i 0 := by fin_cases i <;> rfl
  rw [hr]
  simp

/-- THREADID holds the thread and its context (R53). -/
theorem readCsr_threadId (s : State) (tid : Nat) (t : Thread) :
    (readCsr s tid t 0x07).extractLsb 15 0 = BitVec.ofNat 16 tid ∧
      (readCsr s tid t 0x07).extractLsb 21 16 = BitVec.ofNat 6 t.ctx := by
  have hr : readCsr s tid t 0x07 = w64 (tid % 65536 + 2 ^ 16 * (t.ctx % 64)) := rfl
  constructor <;>
  · refine extractLsb_of_bits (by decide) ?_
    rw [hr, bits_w64, BitVec.toNat_ofNat]
    omega

/-- COREID holds the logical core, its cluster, the physical core for system privilege, and the chip (R53). -/
theorem readCsr_coreId (s : State) (tid : Nat) (t : Thread) :
    let id := readCsr s tid t 0x08
    id.extractLsb 6 0 = BitVec.ofNat 7 t.lcore ∧ id.extractLsb 7 7 = BitVec.ofNat 1 (t.lcore / 128) ∧
      id.extractLsb 15 8 = (if t.system then (s.lct t.lcore).phys else 0) ∧
      id.extractLsb 23 16 = s.trivet.chip ∧ id.extractLsb 63 24 = 0 := by
  have hif : (if t.system then 2 ^ 8 * ((s.lct t.lcore).phys.toNat) else 0) =
      2 ^ 8 * (if t.system then (s.lct t.lcore).phys else 0).toNat := by split <;> rfl
  have hphys := (if t.system then (s.lct t.lcore).phys else 0).isLt
  have hchip := s.trivet.chip.isLt
  have hr : readCsr s tid t 0x08 = w64 (t.lcore % 128 + 2 ^ 7 * (t.lcore / 128 % 2) +
      2 ^ 8 * (if t.system then (s.lct t.lcore).phys else 0).toNat + 2 ^ 16 * s.trivet.chip.toNat) := by
    rw [← hif]; rfl
  intro id
  refine ⟨?_, ?_, ?_, ?_, ?_⟩ <;>
  · refine extractLsb_of_bits (by decide) ?_
    simp only [id, hr, bits_w64, BitVec.ofNat_eq_ofNat, BitVec.toNat_ofNat]
    omega

/-- KEYHIST with an entry: the flag, the index, the tensor and the step (R53). -/
theorem keyHist_fields (s : State) (t : Thread) :
    let hist := keyHist s t
    hist.extractLsb 60 56 = t.histSel ∧
      (∀ key step, (s.ctx t.ctx).history[t.histSel.toNat]? = some (key, step) →
        hist.extractLsb 63 63 = 1 ∧ hist.extractLsb 55 32 = key ∧ hist.extractLsb 31 0 = step) ∧
      ((s.ctx t.ctx).history[t.histSel.toNat]? = none → hist.extractLsb 63 63 = 0) := by
  have hsel := t.histSel.isLt
  intro hist
  cases hh : (s.ctx t.ctx).history[t.histSel.toNat]? with
  | none =>
    have hv : hist = w64 (t.histSel.toNat * 2 ^ 56) := by simp only [hist, keyHist, hh]
    refine ⟨extractLsb_of_bits (by decide) ?_, nofun, fun _ => extractLsb_of_bits (by decide) ?_⟩ <;>
    · simp only [hv, bits_w64, BitVec.ofNat_eq_ofNat, BitVec.toNat_ofNat]
      omega
  | some p =>
    obtain ⟨key, step⟩ := p
    have hkey := key.isLt
    have hstep := step.isLt
    have hv : hist = w64 (2 ^ 63 + t.histSel.toNat * 2 ^ 56 + key.toNat * 2 ^ 32 + step.toNat) := by
      simp only [hist, keyHist, hh]
    refine ⟨extractLsb_of_bits (by decide) ?_, ?_, nofun⟩
    · rw [hv, bits_w64]
      omega
    · rintro _ _ ⟨⟩
      refine ⟨extractLsb_of_bits (by decide) ?_, extractLsb_of_bits (by decide) ?_, extractLsb_of_bits (by decide) ?_⟩ <;>
      · simp only [hv, bits_w64, BitVec.ofNat_eq_ofNat, BitVec.toNat_ofNat]
        omega

/-! ## Writes -/

/-- A write of a watch register sets its address, or the twelve low bits of its mask (R53). -/
theorem writeCsrThread_watch (t : Thread) (x : Word) (i : Fin 4) :
    (writeCsrThread t (0x10 + i) x).watchAddr[i] = x ∧ (writeCsrThread t (0x14 + i) x).watchMask[i] = x &&& 0xFFF := by
  have ha : (writeCsrThread t (0x10 + i) x).watchAddr = t.watchAddr.setIfInBounds i x := by fin_cases i <;> rfl
  have hm : (writeCsrThread t (0x14 + i) x).watchMask = t.watchMask.setIfInBounds i (w64 (x.toNat % 2 ^ 12)) := by
    fin_cases i <;> rfl
  rw [ha, hm, w64_mod_two_pow x 12 (by omega)]
  simp [w64]

/-- What the thread's own registers keep of a value (R53). -/
theorem writeCsrThread_fields (t : Thread) (x : Word) :
    (writeCsrThread t 0x00 x).status = x &&& 0xF ∧ (writeCsrThread t 0x03 x).tvec = x &&& ~~~3 ∧
      (writeCsrThread t 0x04 x).tpc = x &&& ~~~3 ∧ (writeCsrThread t 0x06 x).slice = x.setWidth 32 ∧
      (writeCsrThread t 0x0C x).histSel = x.extractLsb 60 56 := by
  have hsel : x.extractLsb 60 56 = BitVec.ofNat 5 (bits x 60 56) := extractLsb_of_bits (by decide) (by
    rw [BitVec.toNat_ofNat, bits]
    omega)
  exact ⟨w64_mod_two_pow x 4 (by omega), clearLow_eq_and x 2, clearLow_eq_and x 2, rfl, hsel.symm⟩

/-- The context's idle objects do not depend on its registers. -/
theorem idleObjects_congr {s s' : State} (h : s'.clusters = s.clusters) (ctx : Nat) : idleObjects s' ctx = idleObjects s ctx := by
  simp only [idleObjects, State.cluster, h]

/-- A mode other than replay does not turn at the end of a log (R136). -/
theorem logTurn_of_mode {c : Ctx} (h : logMode c ≠ 2) : logTurn c = c := by
  simp [logTurn, h]

/-- A context that does not replay and has no grant due keeps the registers of its log as they have been written (R136). -/
theorem logModeWritten_ctx {s : State} {d : Decider} (hm : logMode (s.ctx d.ctx) ≠ 2) (hi : idleObjects s d.ctx = []) :
    (logModeWritten s d).ctx d.ctx = s.ctx d.ctx := by
  let s1 := wakeWhere (s.modCtx d.ctx logTurn) WaitReason.onLog
  have hc : s1.ctx d.ctx = s.ctx d.ctx := (State.ctx_modCtx_same ..).trans (logTurn_of_mode hm)
  have hr : replaying s1 d = false := by simp [replaying, hc, logTurn_of_mode hm, hm]
  have hi1 : idleObjects s1 d.ctx = [] := (idleObjects_congr rfl d.ctx).trans hi
  have hw : logModeWritten s d = s1 := by simp [logModeWritten, s1, hr, hi1]
  rw [hw, hc]

/-- The mode that LOGMODE has after a write is replay where the value's is (R53). -/
theorem logMode_logModeWrite {x : Word} (c : Ctx) (h : x.extractLsb 1 0 ≠ 2) :
    logMode { c with logMode := logModeWrite x } ≠ 2 := by
  have hb : bits x 1 0 ≠ 2 := fun hb => h (extractLsb_of_bits (by decide) hb)
  have hw : bits (logModeWrite x) 1 0 = bits x 1 0 := by
    have hx := x.isLt
    rw [logModeWrite, bits_w64]
    simp only [bits]
    omega
  simp only [logMode, hw]
  split
  · decide
  · exact hb

/-- A write of LOGMODE that starts no replay and finds no grant due keeps the value's fields (R53, R136). -/
theorem writeCsrCtx_logMode (s : State) (ctx : Nat) (x : Word) (hx : x.extractLsb 1 0 ≠ 2) (hi : idleObjects s ctx = []) :
    ((writeCsrCtx s ctx 0x0B x).ctx ctx).logMode = x &&& 0xFFFFFFFF00000007 := by
  have hm : logMode ((s.modCtx ctx fun c => { c with logMode := logModeWrite x }).ctx ctx) ≠ 2 := by
    rw [State.ctx_modCtx_same]
    exact logMode_logModeWrite _ hx
  have hw := logModeWritten_ctx (d := { ctx := ctx, user := false, quiet := false }) hm ((idleObjects_congr rfl ctx).trans hi)
  calc ((writeCsrCtx s ctx 0x0B x).ctx ctx).logMode
      = ((s.modCtx ctx fun c => { c with logMode := logModeWrite x }).ctx ctx).logMode := congrArg Ctx.logMode hw
    _ = logModeWrite x := by rw [State.ctx_modCtx_same]
    _ = x &&& 0xFFFFFFFF00000007 := logModeWrite_eq_and x

/-- LOGBASE is a multiple of 64 bytes, and LOGHEAD keeps the whole value (R53). -/
theorem writeCsrCtx_logBase_logHead (s : State) (ctx : Nat) (x : Word) :
    ((writeCsrCtx s ctx 0x09 x).ctx ctx).logBase = x &&& ~~~63 ∧ ((writeCsrCtx s ctx 0x0A x).ctx ctx).logHead = x := by
  simp only [writeCsrCtx, State.ctx_modCtx_same, clearLow_eq_and]
  exact ⟨rfl, trivial⟩

/-! ## CSRW, CSRS and CSRC -/

/-- The instruction of each way to form the new value (R133). -/
def CsrOp.instr (op : CsrOp) (d a : GReg) (csr : BitVec 7) : Instr :=
  match op with
  | .write => .csrw d a csr
  | .set => .csrs d a csr
  | .clear => .csrc d a csr

/-- The three instructions are one access. -/
theorem exec_csrInstr (op : CsrOp) (d a : GReg) (csr : BitVec 7) (s : State) :
    exec (op.instr d a csr) s = perform s fun s t => csrAccess s t (op.instr d a csr) op d a csr := by
  cases op <;> rfl

section
variable {s : State} {t : Thread} {op : CsrOp} {d a : GReg} {csr : BitVec 7}

/-- CSRR completes with the register (R133). -/
theorem csrr_writesG (ht : Issues s t) : WritesG s t (.csrr d csr) d (readCsr s s.cur t csr.toNat) :=
  have hi : exec (.csrr d csr) s =
      perform s fun s t => .ok (.onRegs s t fun x => writeG x d (readCsr s s.cur t csr.toNat)) := rfl
  completes_of_effect hi ht rfl

/-- A set or clear by g0 only reads (R133). -/
theorem csrInstr_reads (ht : Issues s t) (hop : op ≠ .write) (ha : a = 0) :
    WritesG s t (op.instr d a csr) d (readCsr s s.cur t csr.toNat) :=
  completes_of_effect (exec_csrInstr ..) ht (if_pos ⟨hop, ha⟩)

/-- CSRW, and CSRS and CSRC by another register than g0, write (R133). -/
theorem not_csrReads (hw : op = .write ∨ a ≠ 0) : ¬ (op ≠ .write ∧ a = 0) :=
  fun ⟨hop, ha⟩ => hw.elim hop (· ha)

/-- A form that writes a read-only register traps (R53, R133). -/
theorem csrInstr_readOnly (ht : Issues s t) (hn : t.inTrap = false) (hw : op = .write ∨ a ≠ 0) (hr : csrReadOnly csr.toNat = true) :
    Traps s t (op.instr d a csr) .illegal (instrWord (op.instr d a csr)) := by
  refine traps_of_perform (exec_csrInstr ..) ht hn ?_
  simp only [csrAccess, if_neg (not_csrReads hw), hr, if_true, trapWith]

/-- A form that writes a privileged register traps outside system mode (R53, R133). -/
theorem csrInstr_privileged (ht : Issues s t) (hn : t.inTrap = false) (hw : op = .write ∨ a ≠ 0)
    (hr : csrReadOnly csr.toNat = false) (hs : csrSystem csr.toNat = true) (hu : t.system = false) :
    Traps s t (op.instr d a csr) .privilege (instrWord (op.instr d a csr)) := by
  refine traps_of_perform (exec_csrInstr ..) ht hn ?_
  simp only [csrAccess, if_neg (not_csrReads hw)]
  simp [hr, hs, hu, trapWith]

/-- A form that writes CIR clears the bits that it names; CSRC leaves them (R53). -/
theorem csrInstr_cir (ht : Issues s t) (hw : op = .write ∨ a ≠ 0) (hc : csr.toNat = 5) :
    Completes s (op.instr d a csr)
      (if op = .clear then s else s.modCtx t.ctx fun c => { c with cir := c.cir &&& ~~~((readG t a).setWidth 4) })
      (fun r => writeG r d (readCsr s s.cur t csr.toNat)) (t.pc + 4) := by
  refine completes_of_effect (exec_csrInstr ..) ht ?_
  have hr : csrReadOnly 5 = false := rfl
  have hs : csrSystem 5 = false := rfl
  simp only [csrAccess, if_neg (not_csrReads hw)]
  simp [hc, hr, hs, Effect.onRegs, seqPc]

/-- A form that writes any other register gives the old value and stores the new one (R53, R133). -/
theorem csrInstr_writes (ht : Issues s t) (hw : op = .write ∨ a ≠ 0) (hr : csrReadOnly csr.toNat = false) (hc : csr.toNat ≠ 5)
    (hs : csrSystem csr.toNat = true → t.system = true) :
    let old := readCsr s s.cur t csr.toNat
    let new := csrNew op old (readG t a)
    Completes s (op.instr d a csr) (writeCsrCtx s t.ctx csr.toNat new)
      (fun r => writeG (writeCsrThread r csr.toNat new) d old) (t.pc + 4) := by
  refine completes_of_effect (exec_csrInstr ..) ht ?_
  have hp : (csrSystem csr.toNat && !t.system) = false := by
    cases hcs : csrSystem csr.toNat with
    | false => rfl
    | true => simp [hs hcs]
  simp only [csrAccess, if_neg (not_csrReads hw)]
  simp [hr, hp, hc, Effect.onRegs, seqPc]

end

/-- Settles O33: each instruction by what its access does with the register's class, then the fields read and kept. -/
theorem controlRegistersAreReadAndWritten : Obligations.ControlRegistersAreReadAndWritten := by
  unfold Obligations.ControlRegistersAreReadAndWritten
  refine ⟨fun s t d a csr ht => ?_, fun s tid t x => ?_⟩
  · refine ⟨csrr_writesG ht, fun ha => ?_, fun hr hc hs => ?_, fun hc => ?_, fun hn hr => ?_, fun hn hr hs hu => ?_⟩
    · exact ⟨csrInstr_reads (op := .set) ht nofun ha, csrInstr_reads (op := .clear) ht nofun ha⟩
    · exact ⟨csrInstr_writes (op := .write) ht (.inl rfl) hr hc hs, fun ha =>
        ⟨csrInstr_writes (op := .set) ht (.inr ha) hr hc hs, csrInstr_writes (op := .clear) ht (.inr ha) hr hc hs⟩⟩
    · exact ⟨csrInstr_cir (op := .write) ht (.inl rfl) hc, fun ha =>
        ⟨csrInstr_cir (op := .set) ht (.inr ha) hc, csrInstr_cir (op := .clear) ht (.inr ha) hc⟩⟩
    · exact ⟨csrInstr_readOnly (op := .write) ht hn (.inl rfl) hr, fun ha =>
        ⟨csrInstr_readOnly (op := .set) ht hn (.inr ha) hr, csrInstr_readOnly (op := .clear) ht hn (.inr ha) hr⟩⟩
    · exact ⟨csrInstr_privileged (op := .write) ht hn (.inl rfl) hr hs hu, fun ha =>
        ⟨csrInstr_privileged (op := .set) ht hn (.inr ha) hr hs hu, csrInstr_privileged (op := .clear) ht hn (.inr ha) hr hs hu⟩⟩
  · obtain ⟨hstatus, htvec, htpc, hslice, hhist⟩ := writeCsrThread_fields t x
    obtain ⟨hbase, hhead⟩ := writeCsrCtx_logBase_logHead s t.ctx x
    refine ⟨⟨rfl, rfl, rfl, rfl, rfl, rfl, rfl, rfl, rfl, rfl, fun i => ⟨readCsr_watchAddr s tid t i, readCsr_watchMask s tid t i⟩⟩,
      readCsr_threadId s tid t, readCsr_coreId s tid t, keyHist_fields s t,
      ⟨hstatus, htvec, htpc, hslice, hhist, writeCsrThread_watch t x⟩, hbase, hhead, writeCsrCtx_logMode s t.ctx x⟩

end Sys2Proof.Machine
end

section
/-! PROOFS. Power (R297, R301, R322, R326 to R332): what a falling input, power off, the cap, a failing replica and a power-up do. -/

namespace Sys2Proof.Machine

open Sys2Proof

/-! ## The input (R330) -/

section
variable {s : State} {v : BitVec 16}

/-- Below 38 V the firmware marks every running launch (R330). -/
theorem inputBelow38V_marks (hv : v.toNat < 3800) (hp : s.power ≠ .off) : exec (.inputBelow38V v) s =
    .next (forLaunches (setInput s (inputWord v true (bit s.mgmt.input 18))) markLaunch) :=
  if_neg (not_or.mpr ⟨by omega, hp⟩)

/-- Below 34 V every launch is quiesced (R330). -/
theorem quiesce_quiesces (hv : v.toNat < 3400) (hp : s.power = .running) : exec (.quiesce v) s = .next (forLaunches
    { setInput s (inputWord v (bit s.mgmt.input 17) true) with power := .quiescing } quiesceLaunch) :=
  if_neg (not_or.mpr ⟨by omega, not_not.mpr hp⟩)

/-- Issue stops, and the store buffers drain, once the sinks hold the marker or the time is up (R330). -/
theorem sequencerStop_holds {up : Bool} (hp : s.power = .quiescing) (hup : up = true ∨ allHold s = true) :
    exec (.sequencerStop up) s = .next (s.cores.foldl (fun s c => drainCore s c.1) { s with power := .holding }) :=
  if_neg (not_or.mpr ⟨not_not.mpr hp, by rcases hup with h | h <;> simp [h]⟩)

/-- Issue goes on until then (R330). -/
theorem sequencerStop_stays (hh : allHold s = false) : exec (.sequencerStop false) s = .next s :=
  if_pos (.inr (by simp [hh]))

/-- At 40 V the launches that are held go on (R330). -/
theorem inputRestored_continues (hv : 4000 ≤ v.toNat) (hp : s.power = .holding) : exec (.inputRestored v) s =
    .next (forLaunches { setInput s (inputWord v false false) with power := .running } unquiesce) :=
  if_neg (not_or.mpr ⟨by omega, not_not.mpr hp⟩)

/-- Power goes off when the hold-up is exhausted (R330). -/
theorem holdUpExhausted_off (hp : s.power = .quiescing ∨ s.power = .holding) : exec .holdUpExhausted s = .next (powerOff s) :=
  congrArg Host.Outcome.next (if_pos hp)

/-! ## Off (R301, R326, R331) -/

/-- Without power the ready flag is clear (R301). -/
theorem powerOff_notReady (s : State) : bit (powerOff s).mgmt.ready 0 = false := by
  have hready : (powerOff s).mgmt.ready = 0 := rfl
  rw [hready]
  decide

/-- A core's sensor at 105 °C or above turns the package off and records the trip (R331). -/
theorem thermalTrip_off {core : Nat} {temp : Int} (hc : core < 264) (hp : s.power ≠ .off) (ht : 420 ≤ temp) :
    exec (.thermalTrip core temp) s = .next { dropReady s with flash := { s.flash with trip := true } } :=
  if_neg (by simp only [hp, or_false]; omega)

/-- Below 105 °C nothing trips (R331). -/
theorem thermalTrip_stays {core : Nat} {temp : Int} (ht : temp < 420) : exec (.thermalTrip core temp) s = .next s :=
  if_pos (.inr (.inl ht))

end

/-! ## The cap (R332) -/

/-- Sharing the budget changes the clusters alone. -/
theorem shareBudget_frame (s : State) : shareBudget s = { s with clusters := (shareBudget s).clusters } := by
  unfold shareBudget
  split <;> rfl

/-- Sharing the budget leaves the one in force. -/
@[simp] theorem budgetInForce_shareBudget (s : State) : budgetInForce (shareBudget s) = budgetInForce s := by
  rw [shareBudget_frame]
  rfl

/-- The clusters' budgets together stay within the one in force (R4, R332). -/
theorem shareBudget_within (s : State) :
    ((shareBudget s).cluster 0).budget + ((shareBudget s).cluster 1).budget ≤ packageBudget (shareBudget s) := by
  have hp : packageBudget (shareBudget s) = packageBudget s := by simp only [packageBudget, budgetInForce_shareBudget]
  rw [hp]
  unfold shareBudget
  split
  · assumption
  · simp only [State.cluster_modCluster, Nat.zero_ne_one, if_false, if_true]
    omega

/-- An accepted token puts its budget in force, between the floor and the maximum, and the clusters share it (R332). -/
theorem cap_takesForce {s : State} {v : Word} (hv : capAccepted s.mgmt v = true) : ∃ s', exec (.cap v) s = .next s' ∧
    s'.mgmt.capFloor = false ∧ s'.mgmt.capSeq = v.setWidth 32 ∧ s'.mgmt.capBudget = clampBudget s.flash (v.extractLsb 47 32) ∧
    budgetInForce s' = clampBudget s.flash (v.extractLsb 47 32) ∧ s'.mem = s.mem ∧ s'.threads = s.threads ∧
    (s'.cluster 0).budget + (s'.cluster 1).budget ≤ packageBudget s' := by
  let s1 := { s with mgmt := { s.mgmt with
    capBudget := clampBudget s.flash (BitVec.ofNat 16 (bits v 47 32)), capSeq := BitVec.ofNat 32 (bits v 31 0),
    capSeen := true, capFloor := false } }
  have hexec : exec (.cap v) s = .next (shareBudget s1) := by
    change execCap v s = _
    simp only [execCap, hv, if_true, Bool.not_true, s1]
  have hbudget : BitVec.ofNat 16 (bits v 47 32) = v.extractLsb 47 32 := by
    rw [bits_extract v 47 32, BitVec.ofNat_toNat]
    exact BitVec.setWidth_eq _
  have hseq : BitVec.ofNat 32 (bits v 31 0) = v.setWidth 32 := by
    apply BitVec.eq_of_toNat_eq
    simp [bits]
  have hforce : budgetInForce (shareBudget s1) = clampBudget s.flash (v.extractLsb 47 32) := by
    rw [budgetInForce_shareBudget, ← hbudget]
    rfl
  refine ⟨shareBudget s1, hexec, ?_, ?_, ?_, hforce, ?_, ?_, shareBudget_within s1⟩ <;> rw [shareBudget_frame]
  · exact hseq
  · exact congrArg (clampBudget s.flash) hbudget

/-- A token that is not accepted starts the fallback's time again, as a heartbeat does (R332). -/
theorem cap_refused {s : State} {v : Word} (hv : capAccepted s.mgmt v = false) (hs : s.mgmt.capSeen = true) :
    exec (.cap v) s = .next (shareBudget { s with mgmt := { s.mgmt with capFloor := false } }) := by
  change execCap v s = _
  simp [execCap, hv, hs]

/-- A heartbeat keeps the accepted budget in force (R332). -/
theorem hbeat_keepsBudget {s : State} {v : Word} (hs : s.mgmt.capSeen = true) :
    exec (.hbeat v) s = .next (shareBudget { s with mgmt := { s.mgmt with capFloor := false } }) := by
  change execHbeat v s = _
  simp [execHbeat, hs]

/-- Without a token or heartbeat the floor takes force, and the last sequence stays (R332). -/
theorem capFloorTimeout_floor (s : State) : ∃ s', exec .capFloorTimeout s = .next s' ∧ budgetInForce s' = s.flash.floor ∧
    s'.mgmt.capSeq = s.mgmt.capSeq ∧ (s'.cluster 0).budget + (s'.cluster 1).budget ≤ packageBudget s' := by
  refine ⟨_, rfl, ?_, ?_, shareBudget_within _⟩
  · rw [budgetInForce_shareBudget]
    rfl
  · rw [shareBudget_frame]

/-! ## Replicas (R297) -/

/-- A failing replica raises the entry of its core's band by one code, up to 80, and no other (R297). -/
theorem replicaFailure_raises {s : State} {core : Nat} (hc : core < 264) :
    let band := ceilOver (s.core core).frac.rat 64
    ∃ s', exec (.replicaFailure core) s = .next s' ∧ s'.mem = s.mem ∧
      tgetD (s'.core core).table band 0 = min 80 (tgetD (s.core core).table band 0 + 1) ∧
      ∀ j, j ≠ band → tgetD (s'.core core).table j 0 = tgetD (s.core core).table j 0 := by
  refine ⟨_, if_neg (by omega), rfl, ?_, fun j hj => ?_⟩ <;> rw [State.core_modCore_same]
  · exact tgetD_tset_same ..
  · exact tgetD_tset_other _ _ _ _ _ hj

/-! ## Power-up (R295 to R301, R327, R328) -/

/-- Below 40 V, or with the power on, no phase begins (R327). -/
theorem powerOn_stays {s : State} {r : SelfTest} (h : s.power ≠ .off ∨ r.input.toNat < 4000) :
    exec (.powerOn r) s = .next s :=
  if_pos h

/-- A power-up ends with READY and INPUT written, and every function's vector 0 fires for the change (R322, R327). -/
def announce (b : State) (r : SelfTest) (ready : Word) : State :=
  fireEvery { b with mgmt := { b.mgmt with ready := ready, input := inputWord r.input false false } }

/-- The end of a power-up changes READY, INPUT and MSI-X alone. -/
theorem announce_frame (b : State) (r : SelfTest) (ready : Word) : announce b r ready =
    { b with mgmt := { b.mgmt with ready := ready, input := inputWord r.input false false }, msix := (announce b r ready).msix } :=
  fireEvery_frame _

section
variable (b : State) (r : SelfTest) (ready : Word)

@[simp] theorem announce_threads : (announce b r ready).threads = b.threads := by rw [announce_frame]
@[simp] theorem announce_flash : (announce b r ready).flash = b.flash := by rw [announce_frame]
@[simp] theorem announce_trivet : (announce b r ready).trivet = b.trivet := by rw [announce_frame]
@[simp] theorem announce_power : (announce b r ready).power = b.power := by rw [announce_frame]
@[simp] theorem announce_mgmt : (announce b r ready).mgmt =
    { b.mgmt with ready := ready, input := inputWord r.input false false } := by rw [announce_frame]
@[simp] theorem announce_cluster (cl : Nat) : (announce b r ready).cluster cl = b.cluster cl := by
  unfold State.cluster
  rw [announce_frame]
@[simp] theorem announce_core (c : Nat) : (announce b r ready).core c = b.core c := by
  unfold State.core
  rw [announce_frame]

end

section
variable {s : State} {r : SelfTest}

/-- From 40 V on a package without power runs the phases (R327). -/
theorem powerOn_runs (hp : s.power = .off) (hv : 4000 ≤ r.input.toNat) : ¬ (s.power ≠ .off ∨ r.input.toNat < 4000) :=
  not_or.mpr ⟨not_not.mpr hp, by omega⟩

/-- A power-up whose phases pass boots the package (R295 to R301). -/
theorem powerOn_boots (hp : s.power = .off) (hv : 4000 ≤ r.input.toNat) (hf : powerFailure s.flash r = 0) :
    ∃ written attest, exec (.powerOn r) s = .next (announce
      (bootedState s.choose.2 r (flashAfter s.flash (powerFailure s.flash r) written) attest) r
      (readyWord (powerFailure s.flash r) s.flash.trip)) :=
  ⟨_, _, (if_neg (powerOn_runs hp hv)).trans
    (congrArg (fun b => Host.Outcome.next (announce b r (readyWord (powerFailure s.flash r) s.flash.trip))) (if_pos hf))⟩

/-- A power-up with a phase that fails leaves the package off (R295, R327). -/
theorem powerOn_stops (hp : s.power = .off) (hv : 4000 ≤ r.input.toNat) (hf : powerFailure s.flash r ≠ 0) :
    ∃ written, exec (.powerOn r) s = .next (announce
      { powerOff s.choose.2 with flash := flashAfter s.flash (powerFailure s.flash r) written } r
      (readyWord (powerFailure s.flash r) s.flash.trip)) :=
  ⟨_, (if_neg (powerOn_runs hp hv)).trans
    (congrArg (fun b => Host.Outcome.next (announce b r (readyWord (powerFailure s.flash r) s.flash.trip))) (if_neg hf))⟩

end

/-- A power-up without a failure moves the boot ordinal on (R328). -/
theorem flashAfter_ordinal {f : Flash} {failure : BitVec 8} (written : Bool) (h : failure = 0) :
    (flashAfter f failure written).ordinal = f.ordinal + 1 := by
  subst h
  rfl

/-- READY as a number (R334). -/
theorem readyWord_toNat (failure : BitVec 8) (trip : Bool) :
    (readyWord failure trip).toNat = (if failure = 0 then 1 else 0) + (if trip then 2 else 0) + 256 * failure.toNat := by
  have hfail := failure.isLt
  rw [readyWord, w64, BitVec.toNat_ofNat]
  split <;> split <;> omega

/-- READY holds the flag, the last trip and the failure (R334). -/
theorem readyWord_fields (failure : BitVec 8) (trip : Bool) :
    bit (readyWord failure trip) 0 = (failure == 0) ∧ bit (readyWord failure trip) 1 = trip ∧
      (readyWord failure trip).extractLsb 15 8 = failure := by
  have hfail := failure.isLt
  refine ⟨?_, ?_, extractLsb_of_bits (by decide) ?_⟩
  · rw [Bool.eq_iff_iff, bit, decide_eq_true_iff, readyWord_toNat, beq_iff_eq]
    by_cases hf : failure = 0
    · simp only [hf, if_true, iff_true]
      split <;> omega
    · simp only [hf, if_false, iff_false]
      split <;> omega
  · rw [Bool.eq_iff_iff, bit, decide_eq_true_iff, readyWord_toNat]
    cases trip
    · simp only [Bool.false_eq_true, if_false, iff_false]
      split <;> omega
    · simp only [if_true, iff_true]
      split <;> omega
  · rw [bits, readyWord_toNat]
    split <;> split <;> omega

/-- A table that lists a function on a range of numbers reads as the function. -/
theorem tgetD_map_range {α : Type} (f : Nat → α) (d : α) {n c : Nat} (hc : c < n) :
    tgetD ((List.range n).map fun c => (c, f c)) c d = f c := by
  have hget : ∀ l : List Nat, c ∈ l → tget (l.map fun c => (c, f c)) c = some (f c) := by
    intro l
    induction l with
    | nil => simp
    | cons k l ih =>
      intro hm
      by_cases hk : k = c
      · simp [tget, hk]
      · simpa [tget, hk] using ih (List.mem_of_ne_of_mem (Ne.symm hk) hm)
  rw [tgetD, hget _ (List.mem_range.mpr hc), Option.getD_some]

/-- A boot fills both clusters' tables, with half of the floor as each one's budget (R298, R332). -/
theorem cluster_bootedState (s : State) (r : SelfTest) (f : Flash) (attest : Bool) {cl : Nat} (h : cl < 2) :
    (bootedState s r f attest).cluster cl = clusterAfter r f cl := by
  interval_cases cl <;> rfl

/-- A boot leaves each physical core as its self-test says (R296 to R300). -/
theorem core_bootedState (s : State) (r : SelfTest) (f : Flash) (attest : Bool) {c : Nat} (h : c < 264) :
    (bootedState s r f attest).core c = coreAfter r c :=
  tgetD_map_range _ _ h

/-- What a power-up at 40 V or more leaves, whether its phases pass or one fails (R295 to R301, R327, R328, R334). -/
theorem powerOn_result {s : State} {r : SelfTest} (hp : s.power = .off) (hv : 4000 ≤ r.input.toNat) :
    let failure := powerFailure s.flash r
    ∃ s', exec (.powerOn r) s = .next s' ∧ s'.threads = [] ∧ s'.flash.trip = false ∧
      bit s'.mgmt.ready 1 = s.flash.trip ∧ s'.mgmt.ready.extractLsb 15 8 = failure ∧
      s'.mgmt.input = inputWord r.input false false ∧
      (failure = 0 → bit s'.mgmt.ready 0 = true ∧ s'.power = .running ∧ s'.flash.ordinal = s.flash.ordinal + 1 ∧
        s'.trivet.image = runningCopy s.flash.trivetA s.flash.trivetB ∧
        s'.trivet.firmware = runningCopy s.flash.firmwareA s.flash.firmwareB ∧
        (∀ cl, cl < 2 → (s'.cluster cl).lct = filledTable r cl ∧ (s'.cluster cl).budget = s.flash.floor.toNat * 10 ^ 9 / 2) ∧
        (∀ c, c < 264 → s'.core c = coreAfter r c)) ∧
      (failure ≠ 0 → bit s'.mgmt.ready 0 = false ∧ s'.power = .off) := by
  intro failure
  obtain ⟨hflag, htrip, hcode⟩ := readyWord_fields failure s.flash.trip
  by_cases hf : failure = 0
  · obtain ⟨written, attest, hexec⟩ := powerOn_boots hp hv hf
    refine ⟨_, hexec, ?_⟩
    simp only [announce_threads, announce_flash, announce_trivet, announce_power, announce_mgmt, announce_cluster, announce_core]
    refine ⟨rfl, rfl, htrip, hcode, trivial, fun _ => ?_, fun h => absurd hf h⟩
    refine ⟨hflag.trans (beq_iff_eq.mpr hf), rfl, flashAfter_ordinal written hf, rfl, rfl, fun cl hcl => ?_,
      fun c hc => core_bootedState _ r _ attest hc⟩
    rw [cluster_bootedState _ r _ attest hcl]
    exact ⟨rfl, rfl⟩
  · obtain ⟨written, hexec⟩ := powerOn_stops hp hv hf
    refine ⟨_, hexec, ?_⟩
    simp only [announce_threads, announce_flash, announce_power, announce_mgmt]
    exact ⟨rfl, rfl, htrip, hcode, trivial, fun h => absurd h hf, fun _ => ⟨hflag.trans (beq_false_of_ne hf), rfl⟩⟩

/-- Settles O50: event by event, what each does in the states that it acts in. -/
theorem powerFallsReturnsAndIsCapped : Obligations.PowerFallsReturnsAndIsCapped := by
  unfold Obligations.PowerFallsReturnsAndIsCapped
  intro s
  refine ⟨fun v => inputBelow38V_marks, fun v => quiesce_quiesces, fun up => sequencerStop_holds, fun _ => sequencerStop_stays,
    fun v => inputRestored_continues, holdUpExhausted_off, ⟨rfl, rfl⟩, ⟨rfl, rfl, rfl, rfl, rfl, rfl, rfl, powerOff_notReady s⟩,
    fun core temp hc hp => ⟨fun ht => ⟨_, thermalTrip_off hc hp ht, rfl, rfl, rfl⟩, thermalTrip_stays⟩,
    fun v => cap_takesForce, fun v => cap_refused, fun v => hbeat_keepsBudget, capFloorTimeout_floor s,
    fun core => replicaFailure_raises, fun r => powerOn_stays, fun r => powerOn_result⟩

end Sys2Proof.Machine
end

section
/-! PROOFS. Encoding, then decoding (R15 to R44): the law of each instruction, gathered over all of them. -/

namespace Sys2Proof.Laws.Codec

/-- Every instruction meets its law: each instruction of a thread by its own, the events because they have no word. -/
theorem statement_all : ∀ i : Instr, Statement i
  | .add .. => add _ _ _ _ | .sub .. => sub _ _ _ _ | .mul .. => mul _ _ _ _ | .mulh .. => mulh _ _ _ _
  | .div .. => div _ _ _ _ | .rem .. => rem _ _ _ _ | .adds .. => adds _ _ _ _ | .subs .. => subs _ _ _ _
  | .and .. => and _ _ _ _ | .or .. => or _ _ _ _ | .xor .. => xor _ _ _ _ | .andn .. => andn _ _ _ _ | .sll .. => sll _ _ _ _
  | .srl .. => srl _ _ _ _ | .sra .. => sra _ _ _ _ | .rotl .. => rotl _ _ _ _ | .seq .. => seq _ _ _ _
  | .slt .. => slt _ _ _ _ | .sle .. => sle _ _ _ _ | .min .. => min _ _ _ _ | .max .. => max _ _ _ _ | .sel .. => sel _ _ _ _
  | .bfx .. => bfx _ _ _ _ | .bfi .. => bfi _ _ _ _ | .clz .. => clz _ _ _ | .popc .. => popc _ _ _
  | .addi .. => addi _ _ _ | .andi .. => andi _ _ _ | .ori .. => ori _ _ _ | .xori .. => xori _ _ _ | .slti .. => slti _ _ _
  | .lui .. => lui _ _ _ | .addpc .. => addpc _ _
  | .slli .. => slli _ _ _ | .srli .. => srli _ _ _ | .srai .. => srai _ _ _ | .rotli .. => rotli _ _ _
  | .beq .. => beq _ _ _ | .bne .. => bne _ _ _ | .blt .. => blt _ _ _ | .bge .. => bge _ _ _ | .bltn .. => bltn _ _ _
  | .bgen .. => bgen _ _ _ | .j .. => j _ | .jl .. => jl _ | .jlr .. => jlr _ _ _ | .loop .. => loop _ _
  | .ld .. => ld _ _ _ _ _ | .st .. => st _ _ _ _ _ | .ldv .. => ldv _ _ _ _ | .stv .. => stv _ _ _ _ | .ldw .. => ldw _ _ _ _
  | .ldc .. => ldc _ _ _ _ | .stf .. => stf _ _ _ _ | .clrf .. => clrf _ _
  | .amo .. => amo _ _ _ _ _ _ | .fence .. => fence _ _ | .rst .. => rst _ _ _ _ | .rat .. => rat _ _ _ _ _ _
  | .send .. => send _ _ | .recv .. => recv _ _ | .bindIn .. => bindIn _ _ _ | .bindOut .. => bindOut _ _ _
  | .unbind .. => unbind _ | .poll .. => poll _ _ | .bindPort .. => bindPort _ _
  | .join .. => join _ _ | .leave .. => leave _ | .gbar .. => gbar _ | .gsize .. => gsize _ _ | .grank .. => grank _ _
  | .xnew .. => xnew _ _ | .xfree .. => xfree _ | .xreq .. => xreq _ _ _ | .xwait .. => xwait _ | .xtry .. => xtry _ _
  | .xgive .. => xgive _ _ | .xswap .. => xswap _ _ | .xdrop .. => xdrop _ | .xrel .. => xrel _ | .xstat .. => xstat _ _
  | .kset .. => kset _ _ _ | .kstep .. => kstep _ _ | .kget .. => kget _ _ _ | .rdraw .. => rdraw _ _ _ _
  | .bcinit .. => bcinit _ _ | .bcpost .. => bcpost _ _ | .bcwait .. => bcwait _ _
  | .cfgld .. => cfgld _ _ _ | .cfgswap .. => cfgswap _ | .cfgdrop .. => cfgdrop _ | .launch .. => launch _ _ _
  | .lwait .. => lwait _ | .inject .. => inject _ _ | .mark .. => mark _
  | .copy .. => copy _ _ | .cpwait .. => cpwait _ | .rate .. => rate _ _ _ | .solve .. => solve _ _ | .rstat .. => rstat _ _ _
  | .trap .. => trap _ | .rett => rett | .csrr .. => csrr _ _ | .csrw .. => csrw _ _ _ | .csrs .. => csrs _ _ _
  | .csrc .. => csrc _ _ _ | .spawn .. => spawn _ _ _ | .exit => exit | .yield => yield | .wait .. => wait _
  | .waitany .. => waitany _ _ | .migrate .. => migrate _ | .brk .. => brk _ | .nop => nop | .chkerr .. => chkerr _
  | .vadd .. => vadd _ _ _ _ _ _ | .vsub .. => vsub _ _ _ _ _ _ | .vmul .. => vmul _ _ _ _ _ _ | .vfma .. => vfma _ _ _ _ _ _
  | .vmin .. => vmin _ _ _ _ _ _ | .vmax .. => vmax _ _ _ _ _ _ | .vabs .. => vabs _ _ _ _ _ | .vneg .. => vneg _ _ _ _ _
  | .vand .. => vand _ _ _ _ _ _ | .vor .. => vor _ _ _ _ _ _ | .vxor .. => vxor _ _ _ _ _ _ | .vshl .. => vshl _ _ _ _ _ _
  | .vshr .. => vshr _ _ _ _ _ _ | .vsra .. => vsra _ _ _ _ _ _ | .vcmpeq .. => vcmpeq _ _ _ _ _ _
  | .vcmplt .. => vcmplt _ _ _ _ _ _ | .vcmple .. => vcmple _ _ _ _ _ _ | .vsel .. => vsel _ _ _ _ _ _
  | .vexp2 .. => vexp2 _ _ _ _ _ | .vlog2 .. => vlog2 _ _ _ _ _ | .vrcp .. => vrcp _ _ _ _ _ | .vrsqrt .. => vrsqrt _ _ _ _ _
  | .vmulh .. => vmulh _ _ _ _ _ _
  | .vcvt .. => vcvt _ _ _ _ _ _ _ | .vperm .. => vperm _ _ _ _ | .vbcast .. => vbcast _ _ _ | .vins .. => vins _ _ _ _
  | .vext .. => vext _ _ _ _ | .vrot .. => vrot _ _ _ _ | .vred .. => vred _ _ _ _
  | .wakeWord .. | .sliceExpiry .. | .waitCountExpiry .. | .instructionLineFill .. | .storeDrain .. | .impreciseReport ..
  | .releaseWalk .. | .launchAdmission .. | .launchEnd .. | .checkpointComplete .. | .preemptionComplete .. | .copyTile ..
  | .copyForward .. | .monitorWindowEnd .. | .regulatorSettled .. | .settleTimeout .. | .telemetrySample .. | .droop ..
  | .droopRecovery .. | .inputBelow38V .. | .quiesce .. | .sequencerStop .. | .inputRestored .. | .thermalTrip ..
  | .replicaFailure .. | .configScrub .. | .configReload .. | .tileSwap .. | .tileConfigToken .. | .loadComplete ..
  | .solveComplete .. | .stageFiring .. | .switchForward .. | .scratchpadWrite .. | .streamBufferPush .. | .streamBufferPop ..
  | .atomicPipelineUpdate .. | .mandolineWindow .. | .controllerPermit .. | .controllerDone .. | .steer .. | .merge ..
  | .loopCarry .. | .spoutReadRound .. | .spoutWriteRound .. | .spoutReinject .. | .indirectGather ..
  | .networkPortTransfer .. | .translationWalk .. | .memoryAtomic .. | .memoryReply .. | .dieLinkFlit .. | .peerFlit ..
  | .linkRetrain .. | .messageTransit .. | .peerRst .. | .peerRat .. | .peerCopyData .. | .peerReducingData ..
  | .peerChannelToken .. | .acknowledgement .. | .ratReply .. | .horizon .. | .replayTimeout .. | .powerOn .. | .cap ..
  | .hbeat .. | .preempt .. | .resume .. | .fqresume .. | .lctWrite .. | .newctl .. | .verifyImage .. | .attestationQuote ..
  | .writeEntry .. | .readFabricState .. | .restoreFabricState .. | .publishHorizon .. | .setRetentionLog ..
  | .installGeneralFirmware .. | .ingressTailWrite .. | .egressHeadWrite .. | .attachmentWrite .. | .ingressPush ..
  | .egressSlotWrite .. | .apertureRead .. | .apertureWrite .. | .msixUnmask .. | .registerWrite .. | .undefinedInstruction ..
  | .occupancyExchange .. | .linkTrained .. | .potZeroingComplete .. | .ceilingRaise .. | .reset | .clearFaultRecord
  | .invalidateContext | .invalidateRange | .resetContext | .svcrsp | .holdUpExhausted | .capFloorTimeout
  | .invalidateComplete => of_no_word rfl

/-- Settles O55, by cases on the instruction. -/
theorem everyWordDecodesToItsInstruction : Obligations.EveryWordDecodesToItsInstruction := by
  unfold Obligations.EveryWordDecodesToItsInstruction
  exact statement_all

end Sys2Proof.Laws.Codec
end

section
/-! PROOFS. Decoding, then encoding (R15 to R44): a word that decodes is the word of the instruction it decodes to. A word is
the packing of its fields in each format of R17, so a decoder has to check just those fields that it does not hand on. -/

namespace Sys2Proof

/-! ## A word is the packing of its fields (R17) -/

section
variable {w : W32} {op : BitVec 6} {d a b : BitVec 5} {vd va vb : BitVec 4} {ty : BitVec 4}

theorem packT3_eq_iff {fn : BitVec 7} : packT3 op d a b fn ty = w ↔
    field w 26 6 = op ∧ fD w = d ∧ fA w = a ∧ fB w = b ∧ field w 4 7 = fn ∧ field w 0 4 = ty := by
  refine ⟨by rintro rfl; simp [fD, fA, fB], ?_⟩
  rintro ⟨rfl, rfl, rfl, rfl, rfl, rfl⟩
  exact BitVec.eq_of_toNat_eq (by simp only [packT3_toNat, fD, fA, fB, field_toNat]; omega)

theorem packAtom_eq_iff {ord : BitVec 3} {fn : BitVec 4} : packAtom op d a b ord fn ty = w ↔
    field w 26 6 = op ∧ fD w = d ∧ fA w = a ∧ fB w = b ∧ field w 8 3 = ord ∧ field w 4 4 = fn ∧ field w 0 4 = ty := by
  refine ⟨by rintro rfl; simp [fD, fA, fB], ?_⟩
  rintro ⟨rfl, rfl, rfl, rfl, rfl, rfl, rfl⟩
  exact BitVec.eq_of_toNat_eq (by simp only [packAtom_toNat, fD, fA, fB, field_toNat]; omega)

theorem packTI_eq_iff {imm : BitVec 16} : packTI op d a imm = w ↔
    field w 26 6 = op ∧ fD w = d ∧ fA w = a ∧ fImm w = imm := by
  refine ⟨by rintro rfl; simp [fD, fA, fImm], ?_⟩
  rintro ⟨rfl, rfl, rfl, rfl⟩
  exact BitVec.eq_of_toNat_eq (by simp only [packTI_toNat, fD, fA, fImm, field_toNat]; omega)

theorem packTJ_eq_iff {off : BitVec 26} : packTJ op off = w ↔ field w 26 6 = op ∧ field w 0 26 = off := by
  refine ⟨by rintro rfl; simp, ?_⟩
  rintro ⟨rfl, rfl⟩
  exact BitVec.eq_of_toNat_eq (by simp only [packTJ_toNat, field_toNat]; omega)

theorem packTM_eq_iff {off : BitVec 11} {size : BitVec 3} {q : BitVec 2} : packTM op d a off size q = w ↔
    field w 26 6 = op ∧ fD w = d ∧ fA w = a ∧ field w 5 11 = off ∧ field w 2 3 = size ∧ field w 0 2 = q := by
  refine ⟨by rintro rfl; simp [fD, fA], ?_⟩
  rintro ⟨rfl, rfl, rfl, rfl, rfl, rfl⟩
  exact BitVec.eq_of_toNat_eq (by simp only [packTM_toNat, fD, fA, field_toNat]; omega)

theorem packTS_eq_iff {fn : BitVec 7} {lo : BitVec 4} : packTS op d a b fn lo = w ↔
    field w 26 6 = op ∧ fD w = d ∧ fA w = a ∧ fB w = b ∧ field w 4 7 = fn ∧ field w 0 4 = lo := by
  refine ⟨by rintro rfl; simp [fD, fA, fB], ?_⟩
  rintro ⟨rfl, rfl, rfl, rfl, rfl, rfl⟩
  exact BitVec.eq_of_toNat_eq (by simp only [packTS_toNat, fD, fA, fB, field_toNat]; omega)

/-- The value of a word from its major opcode and the rest. -/
theorem toNat_of_major {k : Nat} (hop : (field w 26 6).toNat = k) : w.toNat = k * 67108864 + w.toNat % 67108864 := by
  rw [field_toNat] at hop
  omega

theorem packSys_eq_iff {fn : BitVec 4} {p : BitVec 7} : packSys d a b fn p = w ↔
    field w 26 6 = 0x25 ∧ fD w = d ∧ fA w = a ∧ fB w = b ∧ field w 7 4 = fn ∧ field w 0 7 = p := by
  refine ⟨by rintro rfl; simp [fD, fA, fB], ?_⟩
  rintro ⟨hop, rfl, rfl, rfl, rfl, rfl⟩
  have hw := toNat_of_major (k := 0x25) (congrArg BitVec.toNat hop)
  exact BitVec.eq_of_toNat_eq (by simp only [packSys_toNat, fD, fA, fB, field_toNat]; omega)

theorem packFence_eq_iff {kind : BitVec 2} {scope : BitVec 3} : packFence kind scope = w ↔
    field w 26 6 = 0x1B ∧ field w 5 21 = 0 ∧ field w 3 2 = kind ∧ field w 0 3 = scope := by
  refine ⟨by rintro rfl; simp, ?_⟩
  rintro ⟨hop, hz, rfl, rfl⟩
  have hw := toNat_of_major (k := 0x1B) (congrArg BitVec.toNat hop)
  have hz : (field w 5 21).toNat = 0 := congrArg BitVec.toNat hz
  exact BitVec.eq_of_toNat_eq (by simp only [packFence_toNat, field_toNat] at hz ⊢; omega)

theorem packTV_eq_iff {rnd : BitVec 3} {sat : Bool} {fn : BitVec 6} : packTV vd va vb rnd sat fn ty = w ↔
    field w 26 6 = 0x26 ∧ fVd w = vd ∧ fVa w = va ∧ fVb w = vb ∧ field w 11 3 = rnd ∧
      field w 10 1 = BitVec.ofBool sat ∧ field w 4 6 = fn ∧ field w 0 4 = ty := by
  refine ⟨by rintro rfl; simp [fVd, fVa, fVb], ?_⟩
  rintro ⟨hop, rfl, rfl, rfl, rfl, hs, rfl, rfl⟩
  have hw := toNat_of_major (k := 0x26) (congrArg BitVec.toNat hop)
  exact BitVec.eq_of_toNat_eq (by simp only [packTV_toNat, fVd, fVa, fVb, field_toNat, ← hs]; omega)

theorem packVC_eq_iff {cg : BitVec 4} {k rnd : BitVec 3} {dt st : BitVec 4} : packVC vd va cg k rnd dt st = w ↔
    field w 26 6 = 0x27 ∧ fVd w = vd ∧ fVa w = va ∧ field w 14 4 = cg ∧ field w 11 3 = k ∧ field w 8 3 = rnd ∧
      field w 4 4 = dt ∧ field w 0 4 = st := by
  refine ⟨by rintro rfl; simp [fVd, fVa], ?_⟩
  rintro ⟨hop, rfl, rfl, rfl, rfl, rfl, rfl, rfl⟩
  have hw := toNat_of_major (k := 0x27) (congrArg BitVec.toNat hop)
  exact BitVec.eq_of_toNat_eq (by simp only [packVC_toNat, fVd, fVa, field_toNat]; omega)

theorem packVP_eq_iff {fn : BitVec 4} {e : BitVec 6} : packVP vd va vb fn e ty = w ↔
    field w 26 6 = 0x28 ∧ fVd w = vd ∧ fVa w = va ∧ fVb w = vb ∧ field w 10 4 = fn ∧ field w 4 6 = e ∧ field w 0 4 = ty := by
  refine ⟨by rintro rfl; simp [fVd, fVa, fVb], ?_⟩
  rintro ⟨hop, rfl, rfl, rfl, rfl, rfl, rfl⟩
  have hw := toNat_of_major (k := 0x28) (congrArg BitVec.toNat hop)
  exact BitVec.eq_of_toNat_eq (by simp only [packVP_toNat, fVd, fVa, fVb, field_toNat]; omega)

theorem packVG_eq_iff {g : BitVec 5} {fn : BitVec 4} {e : BitVec 6} : packVG vd g fn e ty = w ↔
    field w 26 6 = 0x28 ∧ fVd w = vd ∧ field w 17 5 = g ∧ field w 14 3 = 0 ∧ field w 10 4 = fn ∧ field w 4 6 = e ∧
      field w 0 4 = ty := by
  refine ⟨by rintro rfl; simp [fVd], ?_⟩
  rintro ⟨hop, rfl, rfl, hz, rfl, rfl, rfl⟩
  have hw := toNat_of_major (k := 0x28) (congrArg BitVec.toNat hop)
  have hz : (field w 14 3).toNat = 0 := congrArg BitVec.toNat hz
  exact BitVec.eq_of_toNat_eq (by simp only [packVG_toNat, fVd, field_toNat] at hz ⊢; omega)

end

/-! ## Values and parts of a field -/

/-- A bit string of a known value is that numeral. -/
theorem eq_ofNat {n k : Nat} {x : BitVec n} (h : x.toNat = k) : x = BitVec.ofNat n k := by
  rw [← h, BitVec.ofNat_toNat, BitVec.setWidth_eq]

/-- A slot or k register in a 5-bit field whose upper bits are zero is the low bits, padded (R18). -/
theorem wide3_low3 : ∀ r : BitVec 5, hi3Zero r = true → wide3 (low3 r) = r := by decide

/-- A one-bit field read as a Boolean and written back. -/
theorem ofBool_eq_one_self : ∀ x : BitVec 1, BitVec.ofBool (decide (x = 1#1)) = x := by decide

section
variable {w : W32}

/-- A field is its upper part beside its lower part. -/
theorem field_eq_append (lo n m : Nat) : field w lo (m + n) = field w (lo + n) m ++ field w lo n :=
  (BitVec.extractLsb'_append_extractLsb'_eq_extractLsb' rfl).symm

/-- The last operand of BIND_IN and BIND_OUT is a slot below a zero bit (R29). -/
theorem last_eq_slot (h : field w 3 1 = 0) : field w 0 4 = (0 : BitVec 1) ++ field w 0 3 := by
  rw [← h]; exact field_eq_append 0 3 1

/-- The last operand of KGET and LAUNCH is one bit below three zeros (R29). -/
theorem last_eq_bit (h : field w 1 3 = 0) : field w 0 4 = (0 : BitVec 3) ++ field w 0 1 := by
  rw [← h]; exact field_eq_append 0 1 3

/-- A v register in a 5-bit field stands below a zero bit (R25). -/
theorem fD_eq_vreg (h : field w 25 1 = 0) : fD w = (0 : BitVec 1) ++ field w 21 4 := by
  rw [← h]; exact field_eq_append 21 4 1

/-- The upper immediate bits of LUI stand below three zeros (R24). -/
theorem fA_eq_upper (h : field w 18 3 = 0) : fA w = (0 : BitVec 3) ++ field w 16 2 := by
  rw [← h]; exact field_eq_append 16 2 3

/-- The immediate of a shift: eight zeros, the kind and the amount (R24). -/
theorem fImm_eq_shift {k : BitVec 2} (h : field w 8 8 = 0) (hk : field w 6 2 = k) :
    fImm w = (0 : BitVec 8) ++ k ++ field w 0 6 := by
  rw [← h, ← hk]; exact (field_eq_append 0 6 10).trans (congrArg (· ++ field w 0 6) (field_eq_append 6 2 8))

end

/-! ## Codes (R20, R21, R26 to R28, R34) -/

theorem Ty.eq_code {c : BitVec 4} {t : Ty} (h : Ty.ofCode c = some t) : c = t.code := by
  unfold Ty.ofCode at h
  split at h <;> cases h <;> exact eq_ofNat ‹_›

theorem Rnd.eq_code {c : BitVec 3} {r : Rnd} (h : Rnd.ofCode c = some r) : c = r.code := by
  unfold Rnd.ofCode at h
  split at h <;> cases h <;> exact eq_ofNat ‹_›

theorem LdQual.eq_code {c : BitVec 2} {q : LdQual} (h : LdQual.ofCode c = some q) : c = q.code := by
  unfold LdQual.ofCode at h
  split at h <;> cases h <;> exact eq_ofNat ‹_›

theorem StQual.eq_code {c : BitVec 2} {q : StQual} (h : StQual.ofCode c = some q) : c = q.code := by
  unfold StQual.ofCode at h
  split at h <;> cases h <;> exact eq_ofNat ‹_›

theorem MemOrder.eq_code {c : BitVec 3} {o : MemOrder} (h : MemOrder.ofCode c = some o) : c = o.code := by
  unfold MemOrder.ofCode at h
  split at h <;> cases h <;> exact eq_ofNat ‹_›

theorem AmoOp.eq_code {c : BitVec 4} {o : AmoOp} (h : AmoOp.ofCode c = some o) : c = o.code := by
  unfold AmoOp.ofCode at h
  split at h <;> cases h <;> exact eq_ofNat ‹_›

theorem FenceKind.eq_code {c : BitVec 2} {k : FenceKind} (h : FenceKind.ofCode c = some k) : c = k.code := by
  unfold FenceKind.ofCode at h
  split at h <;> cases h <;> exact eq_ofNat ‹_›

theorem FenceScope.eq_code {c : BitVec 3} {k : FenceScope} (h : FenceScope.ofCode c = some k) : c = k.code := by
  unfold FenceScope.ofCode at h
  split at h <;> cases h <;> exact eq_ofNat ‹_›

theorem RedOp.eq_code {c : BitVec 6} {o : RedOp} (h : RedOp.ofCode c = some o) : c = o.code := by
  unfold RedOp.ofCode at h
  split at h <;> cases h <;> exact eq_ofNat ‹_›

/-! ## What a decoding accepts (R19) -/

/-- Every instruction that a decoding accepts is well formed, and `w` is its word. -/
def EncodesTo (w : W32) (r : Except Reject Instr) : Prop := ∀ i, r = .ok i → wellFormed i = true ∧ encode i = some w

section
variable {w v : W32}

theorem error_encodesTo {e : Reject} : EncodesTo w (.error e) := fun _ h => by cases h

/-- The last two checks: enough that the instruction's own word is `w` whenever the fields that must be zero are (R19). -/
theorem finish_encodesTo {z : Bool} {i : Instr} (he : encode i = some v) (hv : z = true → v = w) :
    EncodesTo w (finish z i) := by
  intro j hj
  unfold finish at hj
  split at hj
  · cases hj
  · next hz =>
    split at hj
    · next hi =>
      cases hj
      exact ⟨hi, he.trans (congrArg some (hv (by simpa using hz)))⟩
    · cases hj

theorem withCode_encodesTo {α : Type} {why : Reject} {o : Option α} {k : α → Except Reject Instr}
    (h : ∀ x, o = some x → EncodesTo w (k x)) : EncodesTo w (withCode why o k) := by
  cases o with
  | none => exact error_encodesTo
  | some x => exact h x rfl

/-! ## The decoders, one major opcode at a time -/

theorem decodeInt_encodesTo (hop : field w 26 6 = 0x01) : EncodesTo w (decodeInt w) := by
  refine withCode_encodesTo fun ty hty => ?_
  split
  case h_25 hfn | h_26 hfn =>
    exact finish_encodesTo rfl fun hz => packT3_eq_iff.mpr
      ⟨hop, rfl, rfl, of_decide_eq_true hz, eq_ofNat hfn, Ty.eq_code hty⟩
  case h_27 => exact error_encodesTo
  all_goals
    rename_i hfn
    exact finish_encodesTo rfl fun _ => packT3_eq_iff.mpr ⟨hop, rfl, rfl, rfl, eq_ofNat hfn, Ty.eq_code hty⟩

theorem decodeShift_encodesTo (hop : field w 26 6 = 0x09) : EncodesTo w (decodeShift w) := by
  unfold decodeShift
  split
  case h_4 h0 h1 h2 =>
    have hk : (field w 6 2).toNat = 3 := by
      have hlt := (field w 6 2).isLt
      have hne : (field w 6 2).toNat ≠ 0 ∧ (field w 6 2).toNat ≠ 1 ∧ (field w 6 2).toNat ≠ 2 := ⟨h0, h1, h2⟩
      omega
    exact finish_encodesTo rfl fun hz => packTI_eq_iff.mpr
      ⟨hop, rfl, rfl, fImm_eq_shift (of_decide_eq_true hz) (eq_ofNat hk)⟩
  all_goals
    rename_i hk
    exact finish_encodesTo rfl fun hz => packTI_eq_iff.mpr
      ⟨hop, rfl, rfl, fImm_eq_shift (of_decide_eq_true hz) (eq_ofNat hk)⟩

theorem decodeLoadStore_ld_encodesTo (hop : field w 26 6 = 0x14) : EncodesTo w (decodeLoadStore 0x14 w) :=
  withCode_encodesTo fun _ hq => finish_encodesTo rfl fun _ =>
    packTM_eq_iff.mpr ⟨hop, rfl, rfl, rfl, rfl, LdQual.eq_code hq⟩

theorem decodeLoadStore_st_encodesTo (hop : field w 26 6 = 0x15) : EncodesTo w (decodeLoadStore 0x15 w) :=
  withCode_encodesTo fun _ hq => finish_encodesTo rfl fun _ =>
    packTM_eq_iff.mpr ⟨hop, rfl, rfl, rfl, rfl, StQual.eq_code hq⟩

theorem decodeLoadStore_ldv_encodesTo (hop : field w 26 6 = 0x16) : EncodesTo w (decodeLoadStore 0x16 w) :=
  withCode_encodesTo fun _ hq => finish_encodesTo rfl (by
    simp +contextual [packTM_eq_iff, hop, LdQual.eq_code hq, fD_eq_vreg])

theorem decodeLoadStore_stv_encodesTo (hop : field w 26 6 = 0x17) : EncodesTo w (decodeLoadStore 0x17 w) :=
  withCode_encodesTo fun _ hq => finish_encodesTo rfl (by
    simp +contextual [packTM_eq_iff, hop, StQual.eq_code hq, fD_eq_vreg])

theorem decodeFullEmpty_encodesTo {major : Nat} (hop : field w 26 6 = BitVec.ofNat 6 major) :
    EncodesTo w (decodeFullEmpty major w) := by
  unfold decodeFullEmpty
  split
  case h_4 hfn => exact finish_encodesTo rfl (by simp +contextual [packTM_eq_iff, hop, eq_ofNat hfn])
  case h_5 => exact error_encodesTo
  all_goals
    rename_i hfn
    exact finish_encodesTo rfl fun _ => packTM_eq_iff.mpr ⟨hop, rfl, rfl, rfl, rfl, eq_ofNat hfn⟩

theorem decodeAmo_encodesTo (hop : field w 26 6 = 0x1A) : EncodesTo w (decodeAmo w) :=
  withCode_encodesTo fun _ hord => withCode_encodesTo fun _ hfn => withCode_encodesTo fun _ hty =>
    finish_encodesTo rfl fun _ => packAtom_eq_iff.mpr
      ⟨hop, rfl, rfl, rfl, MemOrder.eq_code hord, AmoOp.eq_code hfn, Ty.eq_code hty⟩

theorem decodeRemote_encodesTo (hop : field w 26 6 = 0x1C) : EncodesTo w (decodeRemote w) := by
  refine withCode_encodesTo fun _ hord => withCode_encodesTo fun _ hty => ?_
  split
  · next hfn =>
    exact finish_encodesTo rfl fun hz => packAtom_eq_iff.mpr
      ⟨hop, of_decide_eq_true hz, rfl, rfl, MemOrder.eq_code hord, eq_ofNat hfn, Ty.eq_code hty⟩
  · exact withCode_encodesTo fun _ hfn => finish_encodesTo rfl fun _ => packAtom_eq_iff.mpr
      ⟨hop, rfl, rfl, rfl, MemOrder.eq_code hord, AmoOp.eq_code hfn, Ty.eq_code hty⟩

theorem decodeFence_encodesTo (hop : field w 26 6 = 0x1B) : EncodesTo w (decodeFence w) :=
  withCode_encodesTo fun _ hk => withCode_encodesTo fun _ hs => finish_encodesTo rfl fun hz =>
    packFence_eq_iff.mpr ⟨hop, of_decide_eq_true hz, FenceKind.eq_code hk, FenceScope.eq_code hs⟩

theorem decodeChannel_encodesTo (hop : field w 26 6 = 0x1D) : EncodesTo w (decodeChannel w) := by
  unfold decodeChannel
  split
  case h_8 => exact error_encodesTo
  all_goals
    rename_i hfn
    exact finish_encodesTo rfl (by simp +contextual [packTS_eq_iff, hop, eq_ofNat hfn, wide3_low3, last_eq_slot])

theorem decodeGroup_encodesTo (hop : field w 26 6 = 0x1E) : EncodesTo w (decodeGroup w) := by
  unfold decodeGroup
  split
  case h_6 => exact error_encodesTo
  all_goals
    rename_i hfn
    exact finish_encodesTo rfl (by simp +contextual [packTS_eq_iff, hop, eq_ofNat hfn])

theorem decodeObject_encodesTo (hop : field w 26 6 = 0x1F) : EncodesTo w (decodeObject w) := by
  unfold decodeObject
  split
  case h_11 => exact error_encodesTo
  all_goals
    rename_i hfn
    exact finish_encodesTo rfl (by simp +contextual [packTS_eq_iff, hop, eq_ofNat hfn])

theorem decodeKey_encodesTo (hop : field w 26 6 = 0x20) : EncodesTo w (decodeKey w) := by
  unfold decodeKey
  split
  case h_5 => exact error_encodesTo
  all_goals
    rename_i hfn
    exact finish_encodesTo rfl (by simp +contextual [packTS_eq_iff, hop, eq_ofNat hfn, wide3_low3, last_eq_bit])

theorem decodeBarrier_encodesTo (hop : field w 26 6 = 0x21) : EncodesTo w (decodeBarrier w) := by
  unfold decodeBarrier
  split
  case h_4 => exact error_encodesTo
  all_goals
    rename_i hfn
    exact finish_encodesTo rfl (by simp +contextual [packTS_eq_iff, hop, eq_ofNat hfn])

theorem decodeConfig_encodesTo (hop : field w 26 6 = 0x22) : EncodesTo w (decodeConfig w) := by
  unfold decodeConfig
  split
  case h_8 => exact error_encodesTo
  all_goals
    rename_i hfn
    exact finish_encodesTo rfl (by simp +contextual [packTS_eq_iff, hop, eq_ofNat hfn, last_eq_bit, ofBool_eq_one_self])

theorem decodeCopy_encodesTo (hop : field w 26 6 = 0x23) : EncodesTo w (decodeCopy w) := by
  unfold decodeCopy
  split
  case h_3 => exact error_encodesTo
  all_goals
    rename_i hfn
    exact finish_encodesTo rfl (by simp +contextual [packTS_eq_iff, hop, eq_ofNat hfn])

theorem decodeRate_encodesTo (hop : field w 26 6 = 0x24) : EncodesTo w (decodeRate w) := by
  unfold decodeRate
  split
  case h_4 => exact error_encodesTo
  all_goals
    rename_i hfn
    exact finish_encodesTo rfl (by simp +contextual [packTS_eq_iff, hop, eq_ofNat hfn])

theorem decodeSystem_encodesTo (hop : field w 26 6 = 0x25) : EncodesTo w (decodeSystem w) := by
  unfold decodeSystem
  split
  case h_7 hfn =>
    exact finish_encodesTo rfl fun _ => packSys_eq_iff.mpr
      ⟨hop, rfl, rfl, BitVec.extractLsb'_append_eq_left.symm, eq_ofNat hfn, BitVec.extractLsb'_append_eq_right.symm⟩
  case h_16 => exact error_encodesTo
  all_goals
    rename_i hfn
    exact finish_encodesTo rfl (by simp +contextual [packSys_eq_iff, hop, eq_ofNat hfn])

theorem decodeVector_encodesTo (hop : field w 26 6 = 0x26) : EncodesTo w (decodeVector w) := by
  refine withCode_encodesTo fun _ hty => withCode_encodesTo fun _ hrnd => ?_
  dsimp only
  split
  · exact error_encodesTo
  split
  case h_24 => exact error_encodesTo
  case h_7 hfn | h_8 hfn | h_19 hfn | h_20 hfn | h_21 hfn | h_22 hfn =>
    exact finish_encodesTo rfl fun hz => packTV_eq_iff.mpr ⟨hop, rfl, rfl, of_decide_eq_true hz, Rnd.eq_code hrnd,
      (ofBool_eq_one_self _).symm, eq_ofNat hfn, Ty.eq_code hty⟩
  all_goals
    rename_i hfn
    exact finish_encodesTo rfl fun _ => packTV_eq_iff.mpr ⟨hop, rfl, rfl, rfl, Rnd.eq_code hrnd,
      (ofBool_eq_one_self _).symm, eq_ofNat hfn, Ty.eq_code hty⟩

theorem decodeVcvt_encodesTo (hop : field w 26 6 = 0x27) : EncodesTo w (decodeVcvt w) :=
  withCode_encodesTo fun _ hrnd => withCode_encodesTo fun _ hdt => withCode_encodesTo fun _ hst =>
    finish_encodesTo rfl fun _ => packVC_eq_iff.mpr
      ⟨hop, rfl, rfl, rfl, rfl, Rnd.eq_code hrnd, Ty.eq_code hdt, Ty.eq_code hst⟩

theorem decodePermute_encodesTo (hop : field w 26 6 = 0x28) : EncodesTo w (decodePermute w) := by
  refine withCode_encodesTo fun _ hty => ?_
  have hty := Ty.eq_code hty
  dsimp only
  split
  case h_1 hfn | h_5 hfn => exact finish_encodesTo rfl (by simp +contextual [packVP_eq_iff, hop, eq_ofNat hfn, hty])
  case h_2 hfn | h_3 hfn | h_4 hfn =>
    exact finish_encodesTo rfl (by simp +contextual [packVG_eq_iff, hop, eq_ofNat hfn, hty])
  case h_6 hfn =>
    exact withCode_encodesTo fun _ he => finish_encodesTo rfl fun hz => packVP_eq_iff.mpr
      ⟨hop, rfl, rfl, of_decide_eq_true hz, eq_ofNat hfn, RedOp.eq_code he, hty⟩
  case h_7 => exact error_encodesTo

end

/-- Every word encodes back from what it decodes to: by cases on the major opcode (R22). -/
theorem decode_encodesTo (w : W32) : EncodesTo w (decode w) := by
  unfold decode
  split
  case h_1 hop => exact decodeInt_encodesTo (eq_ofNat hop)
  case h_7 hop =>
    exact finish_encodesTo rfl fun hz => packTI_eq_iff.mpr ⟨eq_ofNat hop, rfl, fA_eq_upper (of_decide_eq_true hz), rfl⟩
  case h_8 hop | h_19 hop =>
    exact finish_encodesTo rfl fun hz => packTI_eq_iff.mpr ⟨eq_ofNat hop, rfl, of_decide_eq_true hz, rfl⟩
  case h_9 hop => exact decodeShift_encodesTo (eq_ofNat hop)
  case h_16 hop | h_17 hop => exact finish_encodesTo rfl fun _ => packTJ_eq_iff.mpr ⟨eq_ofNat hop, rfl⟩
  case h_20 hop => exact decodeLoadStore_ld_encodesTo (eq_ofNat hop)
  case h_21 hop => exact decodeLoadStore_st_encodesTo (eq_ofNat hop)
  case h_22 hop => exact decodeLoadStore_ldv_encodesTo (eq_ofNat hop)
  case h_23 hop => exact decodeLoadStore_stv_encodesTo (eq_ofNat hop)
  case h_24 hop | h_25 hop => exact decodeFullEmpty_encodesTo (eq_ofNat hop)
  case h_26 hop => exact decodeAmo_encodesTo (eq_ofNat hop)
  case h_27 hop => exact decodeFence_encodesTo (eq_ofNat hop)
  case h_28 hop => exact decodeRemote_encodesTo (eq_ofNat hop)
  case h_29 hop => exact decodeChannel_encodesTo (eq_ofNat hop)
  case h_30 hop => exact decodeGroup_encodesTo (eq_ofNat hop)
  case h_31 hop => exact decodeObject_encodesTo (eq_ofNat hop)
  case h_32 hop => exact decodeKey_encodesTo (eq_ofNat hop)
  case h_33 hop => exact decodeBarrier_encodesTo (eq_ofNat hop)
  case h_34 hop => exact decodeConfig_encodesTo (eq_ofNat hop)
  case h_35 hop => exact decodeCopy_encodesTo (eq_ofNat hop)
  case h_36 hop => exact decodeRate_encodesTo (eq_ofNat hop)
  case h_37 hop => exact decodeSystem_encodesTo (eq_ofNat hop)
  case h_38 hop => exact decodeVector_encodesTo (eq_ofNat hop)
  case h_39 hop => exact decodeVcvt_encodesTo (eq_ofNat hop)
  case h_40 hop => exact decodePermute_encodesTo (eq_ofNat hop)
  case h_41 => exact error_encodesTo
  all_goals
    rename_i hop
    exact finish_encodesTo rfl fun _ => packTI_eq_iff.mpr ⟨eq_ofNat hop, rfl, rfl, rfl⟩

/-- Settles O56, by cases on the major opcode and then on the function in it. -/
theorem whatDecodesEncodesToTheSameWord : Obligations.WhatDecodesEncodesToTheSameWord := by
  unfold Obligations.WhatDecodesEncodesToTheSameWord
  exact decode_encodesTo

end Sys2Proof
end

section
/-! PROOFS. Words that the spec assembles, and words that it leaves undefined (R19, R24, R26, R29, R30, R33). A word that is
assembled from an instruction decodes to it by the law of O55; of the others, each stops at one check of R19. -/

namespace Sys2Proof

variable {w : W32}

/-- A well-formed instruction is what its word decodes to. -/
theorem decode_of_encode {i : Instr} (hi : wellFormed i = true) (hw : encode i = some w) : decode w = .ok i :=
  Laws.Codec.statement_all i hi w hw

/-- No instruction has major opcode 0, or one above 0x28 (R19, R22). -/
theorem decode_reserved_major (h : (field w 26 6).toNat = 0 ∨ 0x28 < (field w 26 6).toNat) : decode w = .error .major := by
  unfold decode
  split
  case h_41 => rfl
  all_goals omega

/-- Major opcode 1 is that of the integer operations (R22). -/
theorem decode_int (h : (field w 26 6).toNat = 1) : decode w = decodeInt w := by
  simp only [decode, h]

/-- Major opcode 0x25 is that of the system instructions (R22). -/
theorem decode_system (h : (field w 26 6).toNat = 0x25) : decode w = decodeSystem w := by
  simp only [decode, h]

/-- Integer functions above 25 are no instruction (R19, R23). -/
theorem decodeInt_reserved_function {ty : Ty} (hty : Ty.ofCode (field w 0 4) = some ty) (h : 25 < (field w 4 7).toNat) :
    decodeInt w = .error .secondary := by
  rw [decodeInt, hty, withCode_some]
  split
  case h_27 => rfl
  all_goals omega

/-- ADD of a type that is no integer type has an invalid operand (R19, R23). -/
theorem decodeInt_add_nonInteger {ty : Ty} (hty : Ty.ofCode (field w 0 4) = some ty) (hfn : (field w 4 7).toNat = 0)
    (hint : ty.isInt = false) : decodeInt w = .error .operand := by
  simp only [decodeInt, hty, withCode_some, hfn, finish, wellFormed, hint]
  rfl

/-- EXIT with a nonzero bit in a field that R30 has zero is no instruction (R19). -/
theorem decodeSystem_exit_nonzero (hfn : (field w 7 4).toNat = 8)
    (hz : (fD w = 0 && fA w = 0 && fB w = 0 && field w 0 7 = 0) = false) : decodeSystem w = .error .zeroField := by
  simp only [decodeSystem, hfn]
  rw [hz]
  rfl

/-- Settles O57: the assembled words by their encodings, the undefined ones by the check that each fails. -/
theorem wordsOfTheWorkedExamplesDecode : Obligations.WordsOfTheWorkedExamplesDecode := by
  unfold Obligations.WordsOfTheWorkedExamplesDecode
  refine ⟨decode_of_encode ?_ ?_, decode_of_encode ?_ ?_, decode_of_encode ?_ ?_, decode_of_encode ?_ ?_,
    decode_of_encode ?_ ?_, decode_of_encode ?_ ?_, decode_of_encode ?_ ?_, decode_of_encode ?_ ?_, decode_of_encode ?_ ?_,
    decode_of_encode ?_ ?_, decode_reserved_major (.inl ?_), (decode_int ?_).trans (decodeInt_reserved_function (ty := .s64) ?_ ?_),
    (decode_system ?_).trans (decodeSystem_exit_nonzero ?_ ?_), (decode_int ?_).trans (decodeInt_add_nonInteger (ty := .f32) ?_ ?_ ?_)⟩
  all_goals decide

end Sys2Proof
end

section
/-! PROOFS. One step (R16, R47, R62, R64, R102, R139): which move it makes, which thread a slot picks, what the fetch gives, and
the instruction that then runs. -/

namespace Sys2Proof.Machine

open Sys2Proof

/-! ## Who issues stays who issues -/

theorem wakeOne_cur (s : State) (tid : Nat) (p : WaitReason → Bool) : (wakeOne s tid p).cur = s.cur := by rw [wakeOne_frame]

theorem wakeWhere_cur (s : State) (p : WaitReason → Bool) : (wakeWhere s p).cur = s.cur := by rw [wakeWhere_frame]

@[simp] theorem wakePresent_cur (s : State) (pa : Nat) : (wakePresent s pa).cur = s.cur := by
  unfold wakePresent
  dsimp only
  rw [wakeWhere_cur, State.modRim_cur, State.modRim_cur]
  exact foldl_field _ State.cur (fun s (w : Waiter) => wakeOne_cur s w.tid _) _ _

@[simp] theorem wakeGranule_cur (s : State) (core addr : Nat) : (wakeGranule s core addr).cur = s.cur := by
  unfold wakeGranule
  exact foldl_field _ State.cur (fun s (w : Waiter) => wakeOne_cur s w.tid _) _ _

/-- A thread that gives up its turns at granules still issues (R117). -/
@[simp] theorem dropTurns_cur (s : State) (tid : Nat) : (dropTurns s tid).cur = s.cur := by
  unfold dropTurns
  rw [foldl_field _ State.cur (fun s g => wakePresent_cur s (16 * g)),
    foldl_field _ State.cur (fun s (p : Nat × Nat) => wakeGranule_cur s p.1 (16 * p.2)), rimRoom_frame]
  rfl

@[simp] theorem dropStale_cur (s : State) (tid : Nat) : (dropStale s tid).cur = s.cur := by
  unfold dropStale
  split
  · rfl
  · split
    · exact dropTurns_cur s tid
    · rfl

/-- A thread that takes its oldest report still issues (R140). -/
@[simp] theorem takeReport_cur (s : State) (tid : Nat) : (takeReport s tid).cur = s.cur := by
  unfold takeReport
  split
  · rfl
  · split
    · rfl
    · split <;> rfl

/-! ## The fetch (R64, R102) -/

/-- A fetch changes what the rim dies hold, and nothing else. -/
theorem fetchAt_frame (s : State) (t : Thread) : (fetchAt s t).2 = { s with rims := (fetchAt s t).2.rims } := by
  unfold fetchAt
  split
  · rfl
  · split
    · rfl
    · have h := translate_frame s t.ctx t.pc.toNat .fetch (!t.system)
      split
      · next he =>
        rw [he] at h
        split <;> exact h
      · next he =>
        rw [he] at h
        exact h

/-- The thread that issues is the same after its fetch. -/
theorem fetchAt_issues {s s' : State} {t : Thread} {f : Fetched} (hf : fetchAt s t = (f, s')) (ht : Issues s t) :
    Issues s' t := by
  have h : s' = { s with rims := s'.rims } := by simpa only [hf] using fetchAt_frame s t
  rw [h]
  exact ht

/-- The fetch of a word from its instruction line, after the checks of the address and its translation. -/
theorem fetchAt_line {s s' : State} {t : Thread} {p : Nat} {w : Bool} {l : Line} (halign : t.pc.toNat % 4 = 0)
    (hrange : t.pc.toNat < 2 ^ 52) (ht : translate s t.ctx t.pc.toNat .fetch (!t.system) = (.ok p, w, s'))
    (hl : (s'.core (s'.coreOf t)).lines.find? (fun l => l.ctx = t.ctx && l.line = t.pc.toNat / 64) = some l) :
    fetchAt s t = (.word (BitVec.ofNat 32 (leNat ((l.bytes.drop (t.pc.toNat % 64)).take 4))), s') := by
  have hbits : bits t.pc 63 52 = 0 := by rw [bits, Nat.div_eq_of_lt hrange]; rfl
  simp only [fetchAt, halign, hbits, ht, hl, ne_eq, not_true_eq_false, if_false]

/-! ## What a slot issues -/

/-- A thread as it is when it fetches in its slot: it has taken its oldest report, and given up turns of an instruction that it
has left (R117, R140). -/
def atFetch (s : State) (tid : Nat) : State := dropStale (takeReport { s with cur := tid } tid) tid

@[simp] theorem atFetch_cur (s : State) (tid : Nat) : (atFetch s tid).cur = tid := by simp [atFetch]

/-- Where the slot's thread is, it is the one that issues. -/
theorem atFetch_issues {s : State} {tid : Nat} {t : Thread} (ht : (atFetch s tid).thread? tid = some t) :
    Issues (atFetch s tid) t := by
  rw [Issues, atFetch_cur, ht]

section
variable {s s3 : State} {tid : Nat} {t : Thread} (ht : (atFetch s tid).thread? tid = some t)
include ht

theorem issueThread_word {w : W32} {i : Instr} (hf : fetchAt (atFetch s tid) t = (.word w, s3)) (hd : decode w = .ok i) :
    issueThread s tid = .instr i s3 := by
  unfold atFetch at ht hf
  simp only [issueThread, ht, hf, hd]

theorem issueThread_undefined {w : W32} {e : Reject} (hf : fetchAt (atFetch s tid) t = (.word w, s3))
    (hd : decode w = .error e) : issueThread s tid = .instr (.undefinedInstruction w) s3 := by
  unfold atFetch at ht hf
  simp only [issueThread, ht, hf, hd]

theorem issueThread_miss (hf : fetchAt (atFetch s tid) t = (.miss, s3)) :
    issueThread s tid = .idle (missLine s3 tid t) := by
  unfold atFetch at ht hf
  simp only [issueThread, ht, hf]

theorem issueThread_trap {c : Cause} (hf : fetchAt (atFetch s tid) t = (.trap c, s3)) :
    issueThread s tid = .idle (takeTrap s3 tid c t.pc false) := by
  unfold atFetch at ht hf
  simp only [issueThread, ht, hf]

end

/-- The slot of a core that issues is that of the thread it picks (R62). -/
theorem issueSlot_picked {s : State} {lc slot tid : Nat} (hi : issuing s lc = true)
    (hp : pickThread (openSlot s lc) lc ((openSlot s lc).core ((openSlot s lc).phys lc)).lastSlot = some (slot, tid)) :
    issueSlot s lc =
      issueThread ((openSlot s lc).modCore ((openSlot s lc).phys lc) fun c => { c with lastSlot := slot }) tid := by
  simp [issueSlot, hi, hp]

/-! ## The step -/

/-- A step whose move is an event runs the event (R47). -/
theorem step_event {s : State} {i : Instr} {r : List Move} (h : s.schedule = .event i :: r) :
    step s = exec i { s with schedule := r } := by
  simp only [step, nextMove, h]

section
variable {s s' : State} {lc : Nat} {r : List Move} (hs : s.schedule = .slot lc :: r)
include hs

/-- A step whose move is an issue slot runs the instruction that the slot issues (R62). -/
theorem step_slot_instr {i : Instr} (h : issueSlot { s with schedule := r } lc = .instr i s') : step s = exec i s' := by
  simp only [step, nextMove, hs, slotStep, h]

/-- A slot that issues nothing leaves the state as it has made it. -/
theorem step_slot_idle (h : issueSlot { s with schedule := r } lc = .idle s') : step s = .next s' := by
  simp only [step, nextMove, hs, slotStep, h]

end

/-- Settles O58: the event, the four outcomes of the picked thread's fetch, and the word that stands in an instruction line. -/
theorem aStepRunsTheDecodedInstruction : Obligations.AStepRunsTheDecodedInstruction := by
  unfold Obligations.AStepRunsTheDecodedInstruction
  intro s
  refine ⟨fun i r => step_event, ?_, fun t w p s3 halign hrange htr l hl => fetchAt_line halign hrange htr hl⟩
  intro lc r slot tid hs hi s1 hp s2 t ht
  have hpick := issueSlot_picked hi hp
  refine ⟨fun w s3 hf => ⟨fun i hd => ⟨?_, fetchAt_issues hf (atFetch_issues ht)⟩, fun e hd => ?_⟩, fun s3 hf => ?_,
    fun c s3 hf => ?_⟩
  · exact step_slot_instr hs (hpick.trans (issueThread_word ht hf hd))
  · exact step_slot_instr hs (hpick.trans (issueThread_undefined ht hf hd))
  · exact step_slot_idle hs (hpick.trans (issueThread_miss ht hf))
  · exact step_slot_idle hs (hpick.trans (issueThread_trap ht hf))

end Sys2Proof.Machine
end

section
/-! PROOFS. The end of a load (R46, R223, R226, R227): what LOAD_COMPLETE does to the handle and the loading thread, and what a
dictionary token and a token of the configuration path do. -/

namespace Sys2Proof.Machine

open Sys2Proof

/-! ## Reports and held threads -/

/-- A report queues, and changes nothing else, for a thread that is not waiting (R140). -/
theorem deliverReport_ready {s : State} {tid : Nat} {t : Thread} (ht : s.thread? tid = some t) (hr : t.run = .ready)
    (r : Report) : deliverReport s tid r = s.setThread tid (queueReport t r) := by
  simp only [deliverReport, ht, hr]

@[simp] theorem queueReport_run (t : Thread) (r : Report) : (queueReport t r).run = t.run := by
  unfold queueReport; split <;> rfl

@[simp] theorem releaseLoads_mem (s : State) : (releaseLoads s).mem = s.mem := rfl

@[simp] theorem releaseLoads_handle (s : State) (cl h : Nat) : (releaseLoads s).handle? cl h = s.handle? cl h := rfl

/-- Loads that may try again leave every thread that is ready as it is (R224). -/
theorem releaseLoads_thread_ready {s : State} {tid : Nat} {t : Thread} (ht : s.thread? tid = some t) (hr : t.run = .ready) :
    (releaseLoads s).thread? tid = some t := by
  simp only [releaseLoads, release_thread, ht, Option.map_some, hr]

/-! ## CFGLD completes (R223) -/

/-- The loading thread past its CFGLD, with the value in the register that CFGLD names. -/
def pastLoad (x : Handle) (v : Word) (t : Thread) : Thread := advance (writeG t (BitVec.ofNat 5 x.dest) v) (t.pc + 4)

@[simp] theorem pastLoad_run (x : Handle) (v : Word) (t : Thread) : (pastLoad x v t).run = .ready := rfl

section
variable {s : State} {x : Handle} {t : Thread} (ht : s.thread? x.loader = some t) (v : Word)
include ht

/-- The end of CFGLD changes the loading thread's record, and charges its queue. -/
theorem finishLoader_eq : finishLoader s x v = chargeQueue (s.setThread x.loader (pastLoad x v t)) t := by
  simp only [finishLoader, ht]
  rw [finish_eq (afterTrap_onRegs ..)]
  simp only [Effect.onRegs, State.modThread_some _ ht, pastLoad, seqPc]

theorem finishLoader_thread : (finishLoader s x v).thread? x.loader = some (pastLoad x v t) := by
  simp [finishLoader_eq ht]

theorem finishLoader_handle (cl h : Nat) : (finishLoader s x v).handle? cl h = s.handle? cl h := by
  simp [finishLoader_eq ht]

theorem finishLoader_mem : (finishLoader s x v).mem = s.mem := by
  simp [finishLoader_eq ht]

end

/-- The report of a rejected load (R137, R223). -/
def cfgrejectReport (g : Word) : Report :=
  { cause := .cfgreject, warning := false, precise := false, engine := 0, tvalue := g, slot := 4 }

theorem rejectReport_ready {s : State} {tid : Nat} {t : Thread} (ht : s.thread? tid = some t) (hr : t.run = .ready) (g : Word) :
    rejectReport s tid g = s.setThread tid (queueReport t (cfgrejectReport g)) :=
  deliverReport_ready ht hr _

/-! ## What a verdict leaves (R223) -/

/-- What LOAD_COMPLETE leaves of a load that it accepts. -/
def loadAccepted (s : State) (cl h : Nat) (x : Handle) : State :=
  releaseLoads (finishLoader (s.setHandle cl h { x with state := .loaded }) x (graphWord s cl h))

/-- What LOAD_COMPLETE leaves of a load that it rejects, with the handle as it is recorded. -/
def loadRejected (s : State) (cl h : Nat) (x y : Handle) : State :=
  releaseLoads (rejectReport (finishLoader (s.setHandle cl h y) x (graphWord s cl h)) x.loader (graphWord s cl h))

section
variable {s : State} {x : Handle} {t : Thread} (ht : s.thread? x.loader = some t) (cl h : Nat)
include ht

/-- The loading thread of an accepted load is past its CFGLD with the handle. -/
theorem loadAccepted_result :
    (loadAccepted s cl h x).handle? cl h = some { x with state := .loaded } ∧ (loadAccepted s cl h x).mem = s.mem ∧
      (loadAccepted s cl h x).thread? x.loader = some (pastLoad x (graphWord s cl h) t) := by
  have ht' : (s.setHandle cl h { x with state := .loaded }).thread? x.loader = some t := by rw [State.thread_setHandle, ht]
  refine ⟨?_, ?_, releaseLoads_thread_ready (finishLoader_thread ht' _) (pastLoad_run ..)⟩
  · rw [loadAccepted, releaseLoads_handle, finishLoader_handle ht', State.handle_setHandle_same]
  · rw [loadAccepted, releaseLoads_mem, finishLoader_mem ht', State.setHandle_mem]

/-- The loading thread of a rejected load is past its CFGLD with the handle, and the report queues there. -/
theorem loadRejected_result (y : Handle) :
    (loadRejected s cl h x y).handle? cl h = some y ∧ (loadRejected s cl h x y).mem = s.mem ∧
      (loadRejected s cl h x y).thread? x.loader =
        some (queueReport (pastLoad x (graphWord s cl h) t) (cfgrejectReport (graphWord s cl h))) := by
  have ht' : (s.setHandle cl h y).thread? x.loader = some t := by rw [State.thread_setHandle, ht]
  have hr := rejectReport_ready (finishLoader_thread ht' (graphWord s cl h)) (pastLoad_run ..) (graphWord s cl h)
  refine ⟨?_, ?_, releaseLoads_thread_ready ?_ ((queueReport_run ..).trans (pastLoad_run ..))⟩
  · rw [loadRejected, releaseLoads_handle, hr, State.handle_setThread, finishLoader_handle ht', State.handle_setHandle_same]
  · rw [loadRejected, releaseLoads_mem, hr, State.setThread_mem, finishLoader_mem ht', State.setHandle_mem]
  · rw [hr, State.thread_setThread_same]

end

/-! ## LOAD_COMPLETE (R163, R223) -/

theorem exec_loadComplete (cl h : Nat) (s : State) : exec (.loadComplete cl h) s = execLoadComplete cl h s := by rfl

section
variable {s : State} {cl h : Nat} {x : Handle} (hx : s.handle? cl h = some x) (hl : x.state = .loading)
include hx hl

/-- LOAD_COMPLETE of a load in which no entry and no cross-tile check has failed. -/
theorem loadComplete_accepts (hr : x.reason = 0) (hn : x.entries.length ≤ x.next) (hc : crossBad (preview s x) x = none) :
    exec (.loadComplete cl h) s = .next (loadAccepted s cl h x) := by
  simp [exec_loadComplete, execLoadComplete, loadAccepted, hx, hl, hr, hc, Nat.not_lt.mpr hn]

/-- LOAD_COMPLETE of a load in which an entry has failed. -/
theorem loadComplete_rejects_entry (hr : x.reason ≠ 0) :
    exec (.loadComplete cl h) s = .next (loadRejected s cl h x { x with state := .rejected }) := by
  simp [exec_loadComplete, execLoadComplete, loadRejected, hx, hl, hr]

/-- LOAD_COMPLETE of a load whose entries stand and whose cross-tile checks fail: reason 12. -/
theorem loadComplete_rejects_cross {i k : Nat} (hr : x.reason = 0) (hn : x.entries.length ≤ x.next)
    (hc : crossBad (preview s x) x = some (i, k)) :
    exec (.loadComplete cl h) s = .next (loadRejected s cl h x
      { x with state := .rejected, reason := 12, badTile := i % x.tableLen, badWord := k }) := by
  simp [exec_loadComplete, execLoadComplete, loadRejected, finishLoader, hx, hl, hr, hc, Nat.not_lt.mpr hn]

/-- A rejected load, whichever check has failed. -/
theorem loadComplete_rejects (hbad : x.reason ≠ 0 ∨ x.entries.length ≤ x.next ∧ crossBad (preview s x) x ≠ none) :
    ∃ y : Handle, y.state = .rejected ∧ exec (.loadComplete cl h) s = .next (loadRejected s cl h x y) := by
  by_cases hr : x.reason = 0
  · obtain ⟨hn, hc⟩ := hbad.resolve_left (not_not_intro hr)
    obtain ⟨⟨i, k⟩, hc⟩ := Option.ne_none_iff_exists'.mp hc
    exact ⟨_, rfl, loadComplete_rejects_cross hx hl hr hn hc⟩
  · exact ⟨_, rfl, loadComplete_rejects_entry hx hl hr⟩

end

/-! ## The configuration path (R46, R227) -/

@[simp] theorem setPath_handle (s : State) (core col r : Nat) (ks : List Tok) (cl h : Nat) :
    (setPath s core col r ks).handle? cl h = s.handle? cl h := rfl

@[simp] theorem setPath_tile (s : State) (core col r : Nat) (ks : List Tok) (l : TileLoc) :
    (setPath s core col r ks).tile l = s.tile l := by
  rw [setPath, State.tile, State.core_modCore]
  split
  · next hc => rw [State.tile, hc]
  · rfl

/-- A sound token that is not the last of its tile is added to what the tile has, which is nothing (R46, R226). -/
theorem takeConfig_first {s : State} {cl h : Nat} {x : Handle} {e : Placed} {k : Tok} (hk : configFoul k = false)
    (hm : midTile s x = true) (hl : (s.tile e.loc).loading = none) :
    takeConfig s cl h x e k =
      s.modTile e.loc fun t => { t with loading := some (h, (configBytes k).2.2.take (configBytes k).2.1) } := by
  simp [takeConfig, hk, hm, hl]

/-- The token that stands at the target's row is the next to move: its tile takes it (R227). -/
theorem moveConfig_takes {s : State} {cl h : Nat} {x : Handle} {e : Placed} {k : Tok} {r : List Tok}
    (hp : pathToks s e.loc.core (decoderColumn e.loc.tile) e.row = k :: r) :
    moveConfig s cl h x e = takeConfig (setPath s e.loc.core (decoderColumn e.loc.tile) e.row r) cl h x e k := by
  simp only [moveConfig, hp]

/-- The first token of a tile, as it reaches the tile's row. -/
theorem moveConfig_first {s : State} {cl h : Nat} {x : Handle} {e : Placed} {k : Tok} {r : List Tok}
    (hp : pathToks s e.loc.core (decoderColumn e.loc.tile) e.row = k :: r) (hk : configFoul k = false)
    (hm : midTile (setPath s e.loc.core (decoderColumn e.loc.tile) e.row r) x = true) (hl : (s.tile e.loc).loading = none) :
    moveConfig s cl h x e = (setPath s e.loc.core (decoderColumn e.loc.tile) e.row r).modTile e.loc fun t =>
      { t with loading := some (h, (configBytes k).2.2.take (configBytes k).2.1) } := by
  rw [moveConfig_takes hp, takeConfig_first hk hm (by rw [setPath_tile, hl])]

/-! ## TILE_CONFIG_TOKEN (R46, R223, R226 to R228) -/

theorem exec_tileConfigToken (cl h : Nat) (s : State) : exec (.tileConfigToken cl h) s = execTileConfigToken cl h s := by rfl

section
variable {s : State} {cl h : Nat} {x : Handle} (hx : s.handle? cl h = some x)
include hx

/-- A load that has failed takes no more tokens. -/
theorem tileConfigToken_rejected (hr : x.reason ≠ 0) : exec (.tileConfigToken cl h) s = .next s := by
  simp [exec_tileConfigToken, execTileConfigToken, hx, hr]

section
variable (hl : x.state = .loading) (hr : x.reason = 0)
include hl hr

/-- A dictionary token that its decoder takes (R46). -/
theorem tileConfigToken_dict {core col : Nat} {k : Tok} {r : List (Nat × Nat × Tok)} {dict : List W32}
    (hd : x.dictToks = (core, col, k) :: r) (ht : takeDict (tgetD (s.core core).dicts col []) k = some dict) :
    exec (.tileConfigToken cl h) s = .next ((setDict s (core, col) dict).setHandle cl h { x with dictToks := r }) := by
  simp [exec_tileConfigToken, execTileConfigToken, hx, hl, hr, hd, ht]

/-- A malformed dictionary token rejects the load (R226, reason 15). -/
theorem tileConfigToken_dict_foul {core col : Nat} {k : Tok} {r : List (Nat × Nat × Tok)}
    (hd : x.dictToks = (core, col, k) :: r) (ht : takeDict (tgetD (s.core core).dicts col []) k = none) :
    exec (.tileConfigToken cl h) s = .next (rejectLoad s cl h x 0 0 15) := by
  simp [exec_tileConfigToken, execTileConfigToken, hx, hl, hr, hd, ht]

/-- While an entry's tokens are under way, one of them moves (R227). -/
theorem tileConfigToken_moves {e : Placed} (hd : x.dictToks = []) (he : x.entries[x.next]? = some e)
    (hm : midTile s x = true) : exec (.tileConfigToken cl h) s = .next (moveConfig s cl h x e) := by
  simp [exec_tileConfigToken, execTileConfigToken, hx, hl, hr, hd, he, hm]

end
end

/-- Settles O39: LOAD_COMPLETE rejects or accepts; a dictionary token is taken or refused; a token of the path moves, and the
tile at its row takes it; a failed load takes nothing. -/
theorem loadsEndWithAVerdict : Obligations.LoadsEndWithAVerdict := by
  unfold Obligations.LoadsEndWithAVerdict
  intro s cl h x hx hl
  refine ⟨fun t ht => ⟨fun hbad => ?_, fun hr hn hc => ?_⟩, fun core col k r hr hd => ⟨fun dict => ?_, ?_⟩,
    fun e hr hd he hm => ⟨tileConfigToken_moves hx hl hr hd he hm, fun k r hp hk hm1 hload => ?_⟩, tileConfigToken_rejected hx⟩
  · obtain ⟨y, hy, hexec⟩ := loadComplete_rejects hx hl hbad
    obtain ⟨hhandle, hmem, hthread⟩ := loadRejected_result ht cl h y
    exact ⟨_, hexec, by rw [hhandle, Option.map_some, hy], hmem, hthread⟩
  · obtain ⟨hhandle, hmem, hthread⟩ := loadAccepted_result ht cl h
    exact ⟨_, loadComplete_accepts hx hl hr hn hc, by rw [hhandle, Option.map_some], hmem, hthread⟩
  · exact tileConfigToken_dict hx hl hr hd
  · exact tileConfigToken_dict_foul hx hl hr hd
  · rw [tileConfigToken_moves hx hl hr hd he hm, moveConfig_first hp hk hm1 hload]
    refine ⟨_, rfl, ?_, ?_, ?_⟩
    · rw [State.tile_modTile_same]
    · rw [State.tile_modTile_same, setPath_tile]
    · rw [State.handle_modTile, setPath_handle, hx]

end Sys2Proof.Machine
end

section
/-! PROOFS. Global memory (R64 to R66, R116, R302, R338): what a load reads and waits for, what a store buffers, and what the
drain of an entry and the fill of an instruction line do. -/

namespace Sys2Proof.Machine

open Sys2Proof

/-! ## Loads -/

/-- The bytes that a thread's load reads in global memory, and the state that it leaves (R65, R116). -/
def globalBytes (s : State) (t : Thread) (q : LdQual) (ea : Word) (pa n : Nat) : List Byte × State :=
  loadGlobal s (s.coreOf t) s.cur t.ctx ea.toNat pa n q

/-- The stores that a load of global memory waits for have drained: an acquire's are all of the thread's, those of .fresh its
releasing ones (R338). -/
def LoadFree (s : State) (t : Thread) (q : LdQual) : Prop :=
  (q = .acq → hasStores s (s.coreOf t) s.cur = false) ∧ (q = .fresh → hasReleases s (s.coreOf t) s.cur = false)

section
variable {s s1 : State} {t : Thread} {ea : Word} {pa n : Nat} {presence : Bool} {q : LdQual}

theorem loadHold_free (h : LoadFree s t q) : loadHold s t (.glob pa presence) q = .ok () := by
  obtain ⟨hacq, hfresh⟩ := h
  cases q with
  | plain => rfl
  | fresh => simp [loadHold, afterReleases, hfresh rfl]
  | acq => exact drained_ok (hacq rfl)

theorem loadHold_held (h : ¬LoadFree s t q) : loadHold s t (.glob pa presence) q = .error (.wait .storeBuffer s) := by
  cases q with
  | plain => exact absurd ⟨nofun, nofun⟩ h
  | fresh =>
    have hr : hasReleases s (s.coreOf t) s.cur = true := by simpa [LoadFree] using h
    simp [loadHold, afterReleases, hr]
  | acq => exact drained_wait (by simpa [LoadFree] using h)

section
variable (hr : resolve s t ea n .read = .ok (.glob pa presence, s1))
include hr

theorem loadBytes_held (h : ¬LoadFree s1 t q) : loadBytes s t ea n q = .error (.wait .storeBuffer s1) := by
  simp [loadBytes, located_ok hr, loadHold_held h]

theorem loadBytes_poisoned {g : Nat} (h : LoadFree s1 t q) (hg : s1.poisonAt pa n = some g) :
    loadBytes s t ea n q = .error (.trap .poison (w64 (ea.toNat + 16 * g - pa))) := by
  simp [loadBytes, located_ok hr, loadHold_free h, peek, hg, trapWith]

theorem loadBytes_clean (h : LoadFree s1 t q) (hg : s1.poisonAt pa n = none) :
    loadBytes s t ea n q = .ok (globalBytes s1 t q ea pa n) := by
  simp [loadBytes, located_ok hr, loadHold_free h, peek, hg, globalBytes]

/-- What an instruction that loads from global memory does: it waits, completes, or takes POISON (R116, R137, R302, R338). -/
theorem globalLoad_cases {i : Instr} {f : State → Thread → Except Stop Effect} {g : List Byte → Thread → Thread} (ht : Issues s t)
    (hi : exec i s = perform s f)
    (hf : f s t = (loadBytes s t ea n q).map fun r => { Effect.onRegs r.2 t (g r.1) with watch := some (ea, n, .load) })
    (hg : ∀ b x, (g b x).status = x.status) :
    (¬LoadFree s1 t q → Waits s i s1 .storeBuffer) ∧
    (LoadFree s1 t q → s1.poisonAt pa n = none →
      CompletesAccess s t i ea.toNat n .load (globalBytes s1 t q ea pa n).2 (g (globalBytes s1 t q ea pa n).1)) ∧
    (∀ k, LoadFree s1 t q → s1.poisonAt pa n = some k → t.inTrap = false →
      Traps s t i .poison (w64 (ea.toNat + 16 * k - pa))) := by
  refine ⟨fun h => waits_of_perform hi ht ?_, fun h hp => completesAccess_of_perform hi ht (x := t) ?_ ?_ fun hn => ?_,
    fun k h hp hn => traps_of_perform hi ht hn ?_⟩
  · rw [hf, loadBytes_held hr h]; rfl
  · rw [hf, loadBytes_clean hr h hp]; rfl
  · rw [globalBytes, loadGlobal_frame]
    exact (resolve_thread hr s.cur).trans ht
  · rw [Thread.inTrap, hg]; exact hn
  · rw [hf, loadBytes_poisoned hr h hp]; rfl

end

/-- A search over the granules of an access finds none exactly where none of them is of the kind (R302). -/
theorem find_granules_none {a n : Nat} {f : Nat → Bool} (hn : 0 < n) :
    (granules a n).find? f = none ↔ ∀ g, a / 16 ≤ g → g ≤ (a + n - 1) / 16 → f g = false := by
  simp [mem_granules hn]

/-- A load leaves memory, threads and pots, and without undrained stores of the thread and a buffered line that serves it, it
reads the bytes of memory (R65, R66, R116). -/
theorem globalBytes_reads (s : State) (t : Thread) (q : LdQual) (ea : Word) (pa n : Nat) :
    (globalBytes s t q ea pa n).2.mem = s.mem ∧ (globalBytes s t q ea pa n).2.threads = s.threads ∧
    (∀ c, ((globalBytes s t q ea pa n).2.core c).pots = (s.core c).pots) ∧
    (q ≠ .plain ∨ lineOf s (s.coreOf t) t.ctx (ea.toNat / 64) = none →
      (∀ e ∈ (s.core (s.coreOf t)).stores, e.tid ≠ s.cur) → (globalBytes s t q ea pa n).1 = mreads s.mem pa n) :=
  ⟨by rw [globalBytes, loadGlobal_frame], by rw [globalBytes, loadGlobal_frame], fun c => loadGlobal_pots ..,
    fun hq h => loadGlobal_reads hq h⟩

end

theorem exec_ld (q : LdQual) (size : BitVec 3) (d base : GReg) (off : BitVec 11) (s : State) :
    exec (.ld q size d base off) s = execLd q size d base off s := by rfl

theorem exec_ldv (q : LdQual) (v : VReg) (base : GReg) (off : BitVec 11) (s : State) :
    exec (.ldv q v base off) s = execLdv q v base off s := by rfl

/-- Settles O9: LD and LDV are loads of global memory; the granules marked are found from the first on; the bytes are memory's. -/
theorem globalLoadsReturnTheBytesOfMemory : Obligations.GlobalLoadsReturnTheBytesOfMemory := by
  unfold Obligations.GlobalLoadsReturnTheBytesOfMemory
  intro s s1 t q size d base v off pa presence ht n ea eav got free
  refine ⟨fun hr => ?_, fun hr => ?_, fun m hm => ⟨find_granules_none hm, fun g => find_granules hm⟩,
    fun w k => globalBytes_reads s1 t q w pa k, fun w k acc hr => ?_⟩
  · exact globalLoad_cases (g := fun b r => writeG r d (loadValue (Decidable.decide (4 ≤ size.toNat)) b)) hr ht (exec_ld ..) rfl
      fun _ _ => writeG_status ..
  · exact globalLoad_cases (g := fun b r => writeV r v (bytesTok b)) hr ht (exec_ldv ..) rfl fun _ _ => rfl
  · exact ⟨resolve_mem hr, by rw [resolve_frame hr], resolve_cores hr, resolve_cur hr⟩

/-! ## Stores -/

/-- The entry of a store in the store buffer (R66). -/
def bufferedStore (s : State) (t : Thread) (q : StQual) (ea : Word) (pa : Nat) (b : List Byte) : State :=
  s.modCore (s.coreOf t) fun c =>
    { c with stores := c.stores ++
        [{ tid := s.cur, ctx := t.ctx, va := ea.toNat, pa := pa, bytes := b, rel := Decidable.decide (q = .rel), allVa := false }] }

/-- A store waits for stores of its thread that have not drained (R338). -/
def StoreUndrained (s : State) (t : Thread) (q : StQual) : Prop := q = .rel ∧ hasStores s (s.coreOf t) s.cur = true

/-- A store waits for remote operations of its thread that are not acknowledged (R338). -/
def StoreUnanswered (t : Thread) (q : StQual) : Prop := q = .rel ∧ t.remotePending ≠ []

section
variable {s s1 : State} {t : Thread} {ea : Word} {b : List Byte} {pa : Nat} {presence : Bool} {q : StQual}

theorem storeHold_free (hd : ¬StoreUndrained s t q) (ha : ¬StoreUnanswered t q) :
    storeHold s t (.glob pa presence) q = .ok () := by
  cases q with
  | plain => rfl
  | rel =>
    have hs : hasStores s (s.coreOf t) s.cur = false := by simpa [StoreUndrained] using hd
    have hp : t.remotePending = [] := by simpa [StoreUnanswered] using ha
    simp [storeHold, released, drained_ok hs, hp]

theorem storeHold_unanswered (hd : ¬StoreUndrained s t q) (ha : StoreUnanswered t q) :
    storeHold s t (.glob pa presence) q = .error (.wait .remote s) := by
  obtain ⟨rfl, hp⟩ := ha
  have hs : hasStores s (s.coreOf t) s.cur = false := by simpa [StoreUndrained] using hd
  simp [storeHold, released, drained_ok hs, hp]

theorem storeHold_undrained (hd : StoreUndrained s t q) :
    storeHold s t (.glob pa presence) q = .error (.wait .storeBuffer s) := by
  obtain ⟨rfl, hs⟩ := hd
  simp [storeHold, released, drained_wait hs]

/-- What an instruction that stores to global memory does: its entry is buffered, or it waits (R66, R338). -/
theorem globalStore_cases {n : Nat} {i : Instr} {f : State → Thread → Except Stop Effect} (ht : Issues s t)
    (hr : resolve s t ea n .write = .ok (.glob pa presence, s1)) (hn : b.length = n) (hi : exec i s = perform s f)
    (hf : f s t = (storeBytes s t ea b q).map fun s => storeEffect s t ea n) :
    (¬StoreUndrained s1 t q → ¬StoreUnanswered t q → (s1.core (s1.coreOf t)).stores.length < 64 →
      CompletesAccess s t i ea.toNat n .store (bufferedStore s1 t q ea pa b) id) ∧
    (¬StoreUndrained s1 t q → StoreUnanswered t q → Waits s i s1 .remote) ∧
    (StoreUndrained s1 t q ∨ ¬StoreUnanswered t q ∧ ¬(s1.core (s1.coreOf t)).stores.length < 64 → Waits s i s1 .storeBuffer) := by
  have hl := located_ok (hn ▸ hr)
  refine ⟨fun hd ha hroom => completesAccess_of_perform hi ht (x := t) ?_ ?_ id, fun hd ha => waits_of_perform hi ht ?_,
    fun h => waits_of_perform hi ht ?_⟩
  · have hb : storeBytes s t ea b q = .ok (bufferedStore s1 t q ea pa b) := by
      simp [storeBytes, hl, storeHold_free hd ha, Nat.not_le.mpr hroom, bufferedStore]
    rw [hf, hb]; rfl
  · exact (resolve_thread hr s.cur).trans ht
  · have hb : storeBytes s t ea b q = .error (.wait .remote s1) := by
      simp [storeBytes, hl, storeHold_unanswered hd ha]
    rw [hf, hb]; rfl
  · have hb : storeBytes s t ea b q = .error (.wait .storeBuffer s1) := by
      by_cases hd : StoreUndrained s1 t q
      · simp [storeBytes, hl, storeHold_undrained hd]
      · obtain ⟨ha, hfull⟩ := h.resolve_left hd
        simp [storeBytes, hl, storeHold_free hd ha, Nat.not_lt.mp hfull]
    rw [hf, hb]; rfl

end

theorem exec_st (q : StQual) (size : BitVec 3) (d base : GReg) (off : BitVec 11) (s : State) :
    exec (.st q size d base off) s = execSt q size d base off s := by rfl

theorem exec_stv (q : StQual) (v : VReg) (base : GReg) (off : BitVec 11) (s : State) :
    exec (.stv q v base off) s = execStv q v base off s := by rfl

/-- Settles O11: ST and STV are stores to global memory. -/
theorem globalStoresEnterTheStoreBuffer : Obligations.GlobalStoresEnterTheStoreBuffer := by
  unfold Obligations.GlobalStoresEnterTheStoreBuffer
  intro s s1 t q size d base v off pa presence ht n ea eav core undrained unanswered room entered
  exact ⟨fun hr => globalStore_cases ht hr (leBytes_length ..) (exec_st ..) rfl,
    fun hr => globalStore_cases ht hr (tokBytes_length _) (exec_stv ..) rfl⟩

/-! ## Drains (R66) -/

theorem exec_storeDrain (core n : Nat) (s : State) : exec (.storeDrain core n) s = execStoreDrain core n s := by rfl

section
variable {s : State} {core n : Nat} {e : StoreEntry} (he : (s.core core).stores[n]? = some e)
include he

/-- An entry that is not the oldest of its thread stays (R66). -/
theorem storeDrain_stays (ho : ((s.core core).stores.take n).any (fun x => x.tid = e.tid) = true) :
    exec (.storeDrain core n) s = .next s := by
  rw [exec_storeDrain, execStoreDrain, he]
  exact if_pos ho

/-- The oldest entry of its thread leaves the buffer and is performed (R66). -/
theorem storeDrain_performs (ho : ((s.core core).stores.take n).any (fun x => x.tid = e.tid) = false) :
    exec (.storeDrain core n) s =
      .next (releaseStores (performStore (s.modCore core fun c => { c with stores := c.stores.eraseIdx n }) core e) core) := by
  rw [exec_storeDrain, execStoreDrain, he]
  exact if_neg (by simp [ho])

end

@[simp] theorem performStore_mem (s : State) (core : Nat) (e : StoreEntry) :
    (performStore s core e).mem = mwrites s.mem e.pa e.bytes := rfl

@[simp] theorem performStore_contexts (s : State) (core : Nat) (e : StoreEntry) : (performStore s core e).contexts = s.contexts := rfl

/-- A store that is performed leaves the store buffers and the pots (R66). -/
theorem performStore_core (s : State) (core : Nat) (e : StoreEntry) (c : Nat) :
    ((performStore s core e).core c).stores = (s.core c).stores ∧ ((performStore s core e).core c).pots = (s.core c).pots := by
  unfold performStore
  rw [State.core_modCore]
  split
  · rename_i h; subst h; exact ⟨rfl, rfl⟩
  · exact ⟨rfl, rfl⟩

/-- Threads that were held go on; nothing else changes (R66). -/
theorem releaseStores_frame (s : State) (core : Nat) : releaseStores s core = { s with threads := (releaseStores s core).threads } := rfl

/-! ## Instruction lines (R64) -/

theorem exec_instructionLineFill (core n : Nat) (s : State) :
    exec (.instructionLineFill core n) s = execInstructionLineFill core n s := by rfl

/-- What a fill of the n-th line asked for makes of a core (R64). -/
def takeFill (n : Nat) (l : Line) (c : Core) : Core := { c with fills := c.fills.eraseIdx n, lines := (l :: c.lines).take 1632 }

/-- The fill of a line that was asked for and is found (R64). -/
theorem lineFill_fills {s s1 : State} {core n ctx line pa : Nat} {presence : Bool} (hf : (s.core core).fills[n]? = some (ctx, line))
    (ht : translate s ctx (64 * line) .fetch false = (.ok pa, presence, s1)) :
    exec (.instructionLineFill core n) s = .next (wakeLine (s1.modCore core
      (takeFill n { ctx := ctx, line := line, pline := pa / 64, bytes := s1.readMem pa 64 })) core) := by
  rw [exec_instructionLineFill, execInstructionLineFill, hf]
  simp only [ht]
  rfl

@[simp] theorem wakeLine_core (s : State) (core c : Nat) : (wakeLine s core).core c = s.core c := rfl

/-- The wake words after a fill: those before, and one for each thread of the core that waits for a line (R57, R64). -/
theorem mem_wakeLine {s : State} {core : Nat} {w : Wake} : w ∈ (wakeLine s core).wakes ↔
    w ∈ s.wakes ∨ w.reason = .line ∧ ∃ t, (w.tid, t) ∈ s.threads ∧ t.run = .waiting .line ∧ s.coreOf t = core := by
  obtain ⟨tid, reason⟩ := w
  simp only [wakeLine, List.mem_append, List.mem_filterMap, Option.ite_none_right_eq_some, Bool.and_eq_true, decide_eq_true_eq,
    Option.some.injEq, Wake.mk.injEq, Prod.exists]
  refine or_congr_right ⟨?_, ?_⟩
  · rintro ⟨k, t, hm, ⟨hw, hc⟩, rfl, rfl⟩
    exact ⟨rfl, t, hm, hw, hc⟩
  · rintro ⟨rfl, t, hm, hw, hc⟩
    exact ⟨tid, t, hm, ⟨hw, hc⟩, rfl, rfl⟩

/-- Settles O12: a drain performs the oldest entry of its thread alone; a fill brings its line, and its wake words go to the
threads that wait for one. -/
theorem drainsAndLineFillsActOnTheirEntry : Obligations.DrainsAndLineFillsActOnTheirEntry := by
  unfold Obligations.DrainsAndLineFillsActOnTheirEntry
  intro s core n
  refine ⟨fun e he => ⟨storeDrain_stays he, fun ho hwf => ⟨_, storeDrain_performs he ho, ?_, fun x => ?_, fun c => ?_, rfl⟩⟩,
    fun ctx line pa presence s1 hf ht => ⟨_, lineFill_fills hf ht, ?_⟩⟩
  · rw [releaseStores_frame]
    exact (performStore_core ..).1.trans (by rw [State.core_modCore_same])
  · exact mread_mwrites _ _ _ hwf
  · rw [releaseStores_frame]
    refine (performStore_core ..).2.trans ?_
    rw [State.core_modCore]
    split
    · rename_i h; rw [h]
    · rfl
  · have hs : s1 = { s with rims := s1.rims } := by
      have h := translate_frame s ctx (64 * line) .fetch false
      rwa [ht] at h
    rw [hs]
    refine ⟨?_, ?_, rfl, rfl, fun w h => mem_wakeLine.2 (.inl h), fun tid t hm hr hc => mem_wakeLine.2 (.inr ⟨rfl, t, hm, hr, hc⟩),
      fun w => mem_wakeLine.1⟩
    · rw [wakeLine_core, State.core_modCore_same]; rfl
    · rw [wakeLine_core, State.core_modCore_same]; rfl

end Sys2Proof.Machine
end

section
/-! PROOFS. Threads (R50, R55, R58, R59, R61, R133): what a thread is as it is created, who gets a slot that is given up, and what
SPAWN, EXIT, YIELD, WAIT, MIGRATE and CHKERR do. -/

namespace Sys2Proof.Machine

open Sys2Proof

/-! ## The slot that a thread gives up (R58, R59) -/

/-- A fold over a table does not see a write of an entry that it passes over, before and after. -/
theorem foldl_tset {α β : Type} (f : β → Nat × α → β) {l : Tbl α} {n : Nat} {x y : α} (hl : tget l n = some x)
    (hx : ∀ b, f b (n, x) = b) (hy : ∀ b, f b (n, y) = b) (b : β) : (tset l n y).foldl f b = l.foldl f b := by
  induction l generalizing b with
  | nil => cases hl
  | cons p r ih =>
    obtain ⟨k, v⟩ := p
    by_cases hlt : n < k
    · simp [tset, hlt, hy]
    · by_cases hk : n = k
      · subst hk
        obtain rfl : v = x := by simpa [tget] using hl
        simp [tset, hx, hy]
      · have hr : tget r n = some x := by simpa [tget, Ne.symm hk] using hl
        simp [tset, hlt, hk, ih hr]

/-- The oldest spilled-ready thread depends on the threads alone. -/
theorem oldestSpilled_congr {s s' : State} (h : s'.threads = s.threads) (lc : Nat) : oldestSpilled s' lc = oldestSpilled s lc := by
  unfold oldestSpilled; rw [h]

/-- The record of a resident thread is no candidate for a slot: writing it leaves the oldest spilled-ready thread. -/
theorem oldestSpilled_setThread_resident {s : State} {tid : Nat} {t u : Thread} (ht : s.thread? tid = some t)
    (hr : t.isSpilled = false) (hu : u.seat = t.seat) (lc : Nat) : oldestSpilled (s.setThread tid u) lc = oldestSpilled s lc := by
  have hr' : u.isSpilled = false := by rw [Thread.isSpilled, hu]; exact hr
  unfold oldestSpilled
  exact foldl_tset _ ht (fun b => by simp [hr]) (fun b => by simp [hr']) none

@[simp] theorem foldContext_threads (s : State) (ctx : Nat) : (foldContext s ctx).threads = s.threads := rfl
@[simp] theorem foldContext_mem (s : State) (ctx : Nat) : (foldContext s ctx).mem = s.mem := rfl
@[simp] theorem foldContext_thread (s : State) (ctx n : Nat) : (foldContext s ctx).thread? n = s.thread? n := rfl

section
variable {s : State} {tid : Nat} {t : Thread} (ht : s.thread? tid = some t)
include ht

/-- No thread wants the slot: the thread keeps it (R58). -/
theorem preemptThread_keeps (ho : oldestSpilled s t.lcore = none) : preemptThread s tid = s := by
  simp [preemptThread, ht, ho]

/-- The thread and the oldest spilled-ready thread exchange their places, and the context's reports fold (R58, R59, R143). -/
theorem preemptThread_gives {n : Nat} {x : Thread} (ho : oldestSpilled s t.lcore = some (n, x)) :
    preemptThread s tid = foldContext ((({ s with arrivals := s.arrivals + 1 }).setThread n { x with seat := t.seat }).setThread tid
      { t with seat := x.seat, readySince := s.arrivals }) t.ctx := by
  simp [preemptThread, ht, ho]

/-- The two threads of an exchange hold each other's place, and no other record changes (R58). -/
theorem preemptThread_thread {n : Nat} {x : Thread} (ho : oldestSpilled s t.lcore = some (n, x)) (hn : n ≠ tid) :
    (preemptThread s tid).thread? n = some { x with seat := t.seat } ∧
    (preemptThread s tid).thread? tid = some { t with seat := x.seat, readySince := s.arrivals } ∧
    ∀ m, m ≠ tid → m ≠ n → (preemptThread s tid).thread? m = s.thread? m := by
  rw [preemptThread_gives ht ho]
  refine ⟨?_, ?_, fun m hm hmn => ?_⟩
  · rw [foldContext_thread, State.thread_setThread, if_neg hn, State.thread_setThread_same]
  · rw [foldContext_thread, State.thread_setThread_same]
  · rw [foldContext_thread, State.thread_setThread, if_neg hm, State.thread_setThread, if_neg hmn]
    rfl

theorem preemptThread_mem : (preemptThread s tid).mem = s.mem := by
  cases ho : oldestSpilled s t.lcore with
  | none => rw [preemptThread_keeps ht ho]
  | some p => rw [preemptThread_gives ht ho]; rfl

end

/-! ## A thread as it is created (R50, R55) -/

section
variable (s : State) (ctx lc : Nat) (seat : Seat) (pc g1 g2 : Word) (system : Bool) (tvec : Word) (queue : Option Nat)

/-- Every g register is zero but g1 and g2 (R55). -/
theorem readG_newThread (r : GReg) :
    readG (newThread s ctx lc seat pc g1 g2 system tvec queue) r = if r = 1 then g1 else if r = 2 then g2 else 0 := by
  by_cases h0 : r = 0
  · subst h0; simp
  · by_cases h1 : r = 1
    · subst h1; rfl
    · by_cases h2 : r = 2
      · subst h2; rfl
      · have n1 : 1 ≠ r.toNat := fun h => h1 (BitVec.eq_of_toNat_eq h.symm)
        have n2 : 2 ≠ r.toNat := fun h => h2 (BitVec.eq_of_toNat_eq h.symm)
        rw [readG, if_neg h0, if_neg h1, if_neg h2]
        simp [newThread, n1, n2]

/-- Bits [1:0] of the program counter are zero (R50). -/
theorem pc_newThread : (newThread s ctx lc seat pc g1 g2 system tvec queue).pc = pc &&& ~~~3 := clearLow_eq_and pc 2

/-- No v register, key register or channel slot holds anything (R55). -/
theorem registers_newThread :
    let t := newThread s ctx lc seat pc g1 g2 system tvec queue
    (∀ v : VReg, readV t v = 0) ∧ (∀ k : KReg, (readK t k).valid = false) ∧ ∀ i, (t.chEnd i).bound = false := by
  refine ⟨fun v => ?_, fun k => ?_, fun i => ?_⟩
  · simp [readV, newThread]
  · simp [readK, newThread, KeyReg.none]
  · show ((Vector.replicate 8 ChanEnd.none).toList.getD i ChanEnd.none).bound = false
    rw [Vector.toList_replicate, List.getD_eq_getElem?_getD, List.getElem?_replicate]
    split <;> rfl

end

/-! ## SPAWN and EXIT (R55, R61) -/

/-- An instruction that acts on registers alone completes with the next address and the charge (R59, R90). -/
theorem finish_onRegs (tid : Nat) (s : State) (t : Thread) (f : Thread → Thread) :
    finish tid t (Effect.onRegs s t f) = chargeQueue (s.modThread tid fun x => advance (f x) (t.pc + 4)) t := finish_eq rfl

theorem exec_spawn (d a : GReg) (off : BitVec 12) (s : State) : exec (.spawn d a off) s = execSpawn d a off s := by rfl
theorem exec_exit (s : State) : exec .exit s = execExit s := by rfl
theorem exec_yield (s : State) : exec .yield s = execYield s := by rfl
theorem exec_wait (a : GReg) (s : State) : exec (.wait a) s = execWait a s := by rfl
theorem exec_migrate (a : GReg) (s : State) : exec (.migrate a) s = execMigrate a s := by rfl
theorem exec_chkerr (d : GReg) (s : State) : exec (.chkerr d) s = execChkerr d s := by rfl

/-- The thread that SPAWN asks for (R55, R133). -/
def spawned (s : State) (t : Thread) (a : GReg) (off : BitVec 12) : Option (Nat × State) :=
  createThread s t.ctx t.lcore (wordTarget (if a = 0 then t.pc else readG t a) off) (w64 s.cur) 0 t.system t.tvec none

section
variable {s : State} {t : Thread} (ht : Issues s t)
include ht

section
variable (h : hasStores s (s.coreOf t) s.cur = true)
include h

/-- SPAWN is a release: it waits for the thread's stores (R66). -/
theorem spawn_waits (d a : GReg) (off : BitVec 12) : Waits s (.spawn d a off) s .storeBuffer :=
  waits_of_perform (exec_spawn ..) ht (by rw [drained_wait h])

/-- EXIT is a release: it waits for the thread's stores (R66). -/
theorem exit_waits : Waits s .exit s .storeBuffer := waits_of_perform (exec_exit s) ht (by rw [drained_wait h])

end

section
variable (h : hasStores s (s.coreOf t) s.cur = false)
include h

/-- SPAWN gives the new thread's identifier (R55). -/
theorem spawn_creates {d a : GReg} {off : BitVec 12} {tid : Nat} {s1 : State} (hm : spawned s t a off = some (tid, s1)) :
    Completes s (.spawn d a off) s1 (fun r => writeG r d (w64 tid)) (t.pc + 4) := by
  refine completes_of_effect (exec_spawn ..) ht ?_
  rw [spawned] at hm
  rw [drained_ok h]
  simp only [hm]
  rfl

/-- SPAWN gives 0 where no thread can be created (R55). -/
theorem spawn_refused {d a : GReg} {off : BitVec 12} (hm : spawned s t a off = none) : WritesG s t (.spawn d a off) d 0 := by
  refine completes_of_effect (exec_spawn ..) ht ?_
  rw [spawned] at hm
  rw [drained_ok h]
  simp only [hm]
  rfl

/-- EXIT retires its own thread (R61). -/
theorem exit_retires {s1 : State} (hr : retireThread s s.cur false = .ok s1) : Completes s .exit s1 id (t.pc + 4) :=
  completes_of_effect (exec_exit s) ht (by rw [drained_ok h, hr]; rfl)

end

/-! ## YIELD (R59, R133) -/

/-- YIELD completes where no thread wants the slot (R133). -/
theorem yield_completes (ho : oldestSpilled s t.lcore = none) : Completes s .yield s id (t.pc + 4) := by
  have hthread : s.thread? s.cur = some t := ht
  refine ⟨finish s.cur t (Effect.onRegs s t id), ?_, ?_, ?_⟩
  · simp [exec_yield, execYield, hthread, hasSpilled, ho]
  · simp [finish_onRegs]
  · rw [finish_onRegs]; exact AgreeBut.modThread ..

/-- A thread as it yields: it is past YIELD, and SLICE is reloaded (R59, R133). -/
def yielded (s : State) (t : Thread) : Thread :=
  let x := advance t (t.pc + 4)
  { x with slice := sliceLen (s.ctx t.ctx), sliceDue := x.sliceDue && x.sliceTraps }

/-- YIELD gives its slot to the oldest spilled-ready thread (R58, R133). -/
theorem yield_gives {n : Nat} {x : Thread} (ho : oldestSpilled s t.lcore = some (n, x)) (hn : n ≠ s.cur) (hr : t.isSpilled = false) :
    ∃ s', exec .yield s = .next s' ∧ s'.mem = s.mem ∧ s'.thread? n = some { x with seat := t.seat } ∧
      ∃ since, s'.thread? s.cur = some { yielded s t with seat := x.seat, readySince := since } := by
  have hthread : s.thread? s.cur = some t := ht
  let s1 := (chargeQueue (s.setThread s.cur (advance t (t.pc + 4))) t).setThread s.cur (yielded s t)
  have hexec : exec .yield s = .next (preemptThread s1 s.cur) := by
    simp [exec_yield, execYield, hthread, hasSpilled, ho, finish_onRegs, State.modThread, s1, yielded]
  have hs1 : s1.thread? s.cur = some (yielded s t) := State.thread_setThread_same ..
  have hthreads : s1.threads = (s.setThread s.cur (yielded s t)).threads := by
    simp [s1, State.setThread]
  have ho1 : oldestSpilled s1 (yielded s t).lcore = some (n, x) := by
    rw [oldestSpilled_congr hthreads, oldestSpilled_setThread_resident (u := yielded s t) hthread hr rfl]
    exact ho
  obtain ⟨hget, hown, -⟩ := preemptThread_thread hs1 ho1 hn
  exact ⟨_, hexec, (preemptThread_mem hs1).trans (by simp [s1]), hget, _, hown⟩

/-! ## WAIT, MIGRATE and CHKERR (R133, R143, R284) -/

section
variable {a : GReg}

/-- WAIT completes at a count of zero, and when its slots have passed (R133). -/
theorem wait_completes (h : bits (readG t a) 31 0 = 0 ∨ t.waitArmed = true ∧ t.waitLeft = 0) :
    Completes s (.wait a) s (fun r => { r with waitArmed := false }) (t.pc + 4) :=
  completes_of_effect (exec_wait ..) ht (if_pos h)

/-- WAIT starts to count its slots (R133). -/
theorem wait_counts (hn : bits (readG t a) 31 0 ≠ 0) (ha : t.waitArmed = false) :
    Waits s (.wait a) (s.modThread s.cur fun r => { r with waitArmed := true, waitLeft := bits (readG t a) 31 0 }) .count := by
  refine waits_of_perform (exec_wait ..) ht ?_
  simp [hn, ha]

/-- The logical core that MIGRATE names (R133). -/
def migrateTarget (t : Thread) (a : GReg) : Nat := 128 * (t.lcore / 128) + bits (readG t a) 6 0

/-- MIGRATE outside system mode traps (R133). -/
theorem migrate_privilege (hu : t.system = false) (hn : t.inTrap = false) :
    Traps s t (.migrate a) .privilege (instrWord (.migrate a)) :=
  traps_of_perform (exec_migrate ..) ht hn (by simp [hu, trapWith])

/-- MIGRATE of the thread's own core cancels its request, and that of another core of its context is recorded (R133, R284). -/
theorem migrate_requests (hs : t.system = true) (hz : bits (readG t a) 63 7 = 0)
    (hal : (s.lct (migrateTarget t a)).allocated = true) (hc : (s.lct (migrateTarget t a)).ctx.toNat = t.ctx)
    (hb : s.backed (migrateTarget t a) = true) :
    Completes s (.migrate a) s
      (fun r => { r with migrateTo := if migrateTarget t a = t.lcore then none else some (migrateTarget t a) }) (t.pc + 4) := by
  refine completes_of_effect (exec_migrate ..) ht ?_
  unfold migrateTarget at *
  by_cases hT : 128 * (t.lcore / 128) + bits (readG t a) 6 0 = t.lcore
  · rw [hT] at hal hc hb
    simp [hs, hz, hT, hal, hc, hb, Effect.onRegs, seqPc]
  · simp [hs, hz, hT, hal, hc, hb, Effect.onRegs, seqPc]

end

/-- CHKERR folds the context's reports and gives CIR (R133, R143). -/
theorem chkerr_folds (d : GReg) : Completes s (.chkerr d) (foldContext s t.ctx)
    (fun r => writeG r d (((foldContext s t.ctx).ctx t.ctx).cir.setWidth 64)) (t.pc + 4) :=
  completes_of_effect (exec_chkerr ..) ht rfl

end

/-- Settles O34: each instruction by what it does in its cases, and the fields of a new thread. -/
theorem threadsSpawnExitYieldWaitAndMigrate : Obligations.ThreadsSpawnExitYieldWaitAndMigrate := by
  unfold Obligations.ThreadsSpawnExitYieldWaitAndMigrate
  refine ⟨fun s t d a off ht => ?_, fun s ctx lc seat pc g1 g2 system tvec queue r => ?_⟩
  · intro ga base made T folded settled
    have hcount : bits ga 31 0 = (ga.extractLsb 31 0).toNat := bits_extract ga 31 0
    have hT : migrateTarget t a = T := congrArg (128 * (t.lcore / 128) + ·) (bits_extract ga 6 0)
    refine ⟨fun h => ?_, fun tid s1 h hm => spawn_creates ht h hm, fun h hm => spawn_refused ht h hm,
      fun s1 h hr => ⟨retireThread_thread hr, exit_retires ht h hr⟩, yield_completes ht, fun n x ho hn hr => ?_, fun h => ?_,
      fun hn ha => ?_, fun hs hz hal hc hb => ?_, migrate_privilege ht, chkerr_folds ht d⟩
    · have hs : hasStores s (s.coreOf t) s.cur = true := Bool.not_eq_false _ ▸ h
      exact ⟨spawn_waits ht hs d a off, exit_waits ht hs⟩
    · obtain ⟨s', hexec, hmem, hget, since, hown⟩ := yield_gives ht ho hn hr
      exact ⟨s', hexec, hmem, hget, by rw [hown]; rfl⟩
    · exact wait_completes ht (h.imp_left (bits_zero ga 31 0).2)
    · have hw := wait_counts (a := a) ht (fun h => hn ((bits_zero ga 31 0).1 h)) ha
      rwa [hcount] at hw
    · have hm := migrate_requests ht hs ((bits_zero ga 63 7).2 hz) (hT ▸ hal) (hT ▸ hc) (hT ▸ hb)
      rw [hT] at hm
      refine ⟨fun h => ?_, fun h => ⟨s, ?_, rfl, rfl, rfl⟩⟩
      · simpa only [if_pos h] using hm
      · simpa only [if_neg h] using hm
  · obtain ⟨hv, hk, hch⟩ := registers_newThread s ctx lc seat pc g1 g2 system tvec queue
    exact ⟨readG_newThread .., pc_newThread .., rfl, rfl, rfl, rfl, rfl, rfl, hv, hk, hch, rfl, rfl⟩

/-! ## Slices that run out (R59) -/

theorem exec_sliceExpiry (tid : Nat) (s : State) : exec (.sliceExpiry tid) s = .next (expireSlice s tid) := by rfl

/-- A thread whose slice has run out, with SLICE reloaded (R59). -/
def reloaded (s : State) (t : Thread) : Thread := { t with slice := sliceLen (s.ctx t.ctx), sliceDue := false }

/-- A slice that runs out without a trap gives the slot up, if another thread wants it (R59). -/
theorem expireSlice_preempts {s : State} {tid : Nat} {t : Thread} (ht : s.thread? tid = some t) (hd : t.sliceDue = true)
    (hn : t.sliceTraps = false) : expireSlice s tid = preemptThread (s.setThread tid (reloaded s t)) tid := by
  simp [expireSlice, ht, hd, hn, reloaded]

/-- A resident thread whose slice runs out gives its slot to the oldest spilled-ready thread (R58, R59). -/
theorem sliceExpiry_gives {s : State} {tid n : Nat} {t x : Thread} (ht : s.thread? tid = some t) (hd : t.sliceDue = true)
    (hs : t.sliceTraps = false) (hr : t.isSpilled = false) (ho : oldestSpilled s t.lcore = some (n, x)) (hn : n ≠ tid) :
    ∃ s', exec (.sliceExpiry tid) s = .next s' ∧ s'.mem = s.mem ∧ s'.thread? n = some { x with seat := t.seat } ∧
      s'.thread? tid = some { reloaded s t with seat := x.seat, readySince := s.arrivals } ∧
      (∀ m, m ≠ tid → m ≠ n → s'.thread? m = s.thread? m) ∧
      (s'.ctx t.ctx).cir = ((foldContext s t.ctx).ctx t.ctx).cir := by
  have h1 : (s.setThread tid (reloaded s t)).thread? tid = some (reloaded s t) := State.thread_setThread_same ..
  have ho1 := (oldestSpilled_setThread_resident (u := reloaded s t) ht hr rfl t.lcore).trans ho
  obtain ⟨hget, hown, hother⟩ := preemptThread_thread h1 ho1 hn
  refine ⟨_, (exec_sliceExpiry ..).trans (congrArg _ (expireSlice_preempts ht hd hs)), preemptThread_mem h1, hget, hown,
    fun m hm hmn => (hother m hm hmn).trans ?_, ?_⟩
  · rw [State.thread_setThread, if_neg hm]
  · rw [preemptThread_gives h1 ho1]
    rfl

/-- A spilled-ready thread of core 0, in one of its spilled records. -/
def spilledReady (record : Nat) : Thread := newThread State.reset 0 0 (.spilled record) 0 0 0 false 0 none

/-- A spilled-ready thread whose slice has run out. -/
def spilledDue : Thread := { spilledReady 1 with sliceDue := true }

/-- Two spilled-ready threads of one age, in a table whose keys do not rise. -/
def unorderedThreads : State := { State.reset with threads := [(5, spilledReady 0), (3, spilledDue)] }

/-- Thread 5 comes first in the table before SLICE of thread 3 reloads, and thread 3 after: it gives its place to itself. -/
theorem expireSlice_unordered : oldestSpilled unorderedThreads 0 = some (5, spilledReady 0) ∧
    (expireSlice unorderedThreads 3).thread? 5 = some (spilledReady 0) := ⟨rfl, rfl⟩

/-- Refutes O35: the statement is about every state, also one whose thread table is not in rising order. Where two spilled-ready
threads are of one age, the oldest is the first in the table, and in such a table the write that reloads SLICE of the expiring
thread puts its record first. So thread 5, the oldest when the slice of the spilled thread 3 runs out, does not get its place. For
a resident thread the exchange is as stated in every state (`sliceExpiry_gives`). -/
theorem not_wakesExpiriesAndReportsReachTheirThread : ¬ Obligations.WakesExpiriesAndReportsReachTheirThread := by
  unfold Obligations.WakesExpiriesAndReportsReachTheirThread
  intro h
  obtain ⟨holdest, hkeeps⟩ := expireSlice_unordered
  obtain ⟨-, -, -, -, hgives, -⟩ := h unorderedThreads 3 spilledDue rfl
  obtain ⟨s', hexec, hget, -⟩ := hgives 5 (spilledReady 0) rfl rfl holdest (by decide)
  obtain rfl : expireSlice unorderedThreads 3 = s' := by
    rw [exec_sliceExpiry] at hexec
    exact Host.Outcome.next.inj hexec
  rw [hkeeps] at hget
  exact absurd (congrArg (Option.map Thread.seat) hget) (by decide)

end Sys2Proof.Machine
end

section
/-! PROOFS. The commands of system software (R54, R64, R281 to R283, R286, R310, R322, R334, R335): what each changes of the
context, the table entry, the core or the replies that it selects, and what it leaves. -/

namespace Sys2Proof.Machine

open Sys2Proof

/-! ## Grants that need no record (R129, R136) -/

/-- Nothing but the clusters' tables and the wake words has changed. -/
def SyncOnly (s s' : State) : Prop := s' = { s with clusters := s'.clusters, wakes := s'.wakes }

theorem SyncOnly.refl (s : State) : SyncOnly s s := rfl

theorem SyncOnly.trans {s s1 s2 : State} (h1 : SyncOnly s s1) (h2 : SyncOnly s1 s2) : SyncOnly s s2 := by
  unfold SyncOnly at *
  rw [h1] at h2
  exact h2

theorem SyncOnly.mem_eq {s s' : State} (h : SyncOnly s s') : s'.mem = s.mem := by rw [h]

theorem SyncOnly.ctx_eq {s s' : State} (h : SyncOnly s s') (n : Nat) : s'.ctx n = s.ctx n := by rw [h]; rfl

theorem grantPlace_syncOnly (s : State) (cl n i : Nat) : SyncOnly s (grantPlace s cl n i) := by
  unfold SyncOnly grantPlace
  dsimp only
  split
  · rw [wakeOne_frame]; rfl
  · rfl

theorem passPlace_syncOnly (s : State) (cl n i : Nat) : SyncOnly s (passPlace s cl n i) := rfl

section
variable {d : Decider}

/-- A grant of a context that does not record is no entry of its log (R136). -/
theorem grantReached_syncOnly {s s' : State} {ranked : Bool} {cl n i : Nat} (hm : logMode (s.ctx d.ctx) ≠ 1)
    (h : grantReached s (some d) ranked cl n i = .ok s') : SyncOnly s s' := by
  have hg : grantReached s (some d) ranked cl n i = .ok (grantPlace s cl n i) := by
    simp [grantReached, logRecord, hm, Except.map]
  rw [hg] at h
  cases h
  exact grantPlace_syncOnly ..

/-- A walk of a context that does not record changes the sync unit alone (R129, R136). -/
theorem walkObject_syncOnly {cl n left : Nat} {s s' : State} (hm : logMode (s.ctx d.ctx) ≠ 1)
    (h : walkObject (some d) cl n left s = .ok s') : SyncOnly s s' := by
  induction left generalizing s with
  | zero =>
    rw [walkObject] at h
    dsimp only at h
    split at h
    · cases h; exact .refl _
    · split at h
      · cases h; rfl
      · exact grantReached_syncOnly hm h
      · cases h; exact .refl _
  | succ left ih =>
    rw [walkObject] at h
    dsimp only at h
    split at h
    · cases h; exact .refl _
    · split at h
      · cases h; rfl
      · exact grantReached_syncOnly hm h
      · rename_i i _
        have hp := passPlace_syncOnly s cl n i
        exact hp.trans (ih (by rwa [hp.ctx_eq]) h)

/-- The grants that are made as replay ends change the sync unit alone, where the context does not record (R136). -/
theorem regrants_syncOnly (l : List (Nat × Nat)) {s : State} (hm : logMode (s.ctx d.ctx) ≠ 1) :
    SyncOnly s (l.foldl (fun s o => orStay s (regrantOne d s o)) s) := by
  induction l generalizing s with
  | nil => exact .refl s
  | cons o l ih =>
    have h1 : SyncOnly s (orStay s (regrantOne d s o)) := by
      cases hr : regrantOne d s o with
      | ok s' => exact walkObject_syncOnly hm hr
      | error e => exact .refl s
    exact h1.trans (ih (by rwa [h1.ctx_eq]))

/-- A context whose log is off keeps its registers as they are written, and memory stays (R136). -/
theorem logModeWritten_off {s : State} (hm : logMode (s.ctx d.ctx) = 0) :
    (logModeWritten s d).ctx d.ctx = s.ctx d.ctx ∧ (logModeWritten s d).mem = s.mem := by
  let s1 := wakeWhere (s.modCtx d.ctx logTurn) WaitReason.onLog
  have hturn : logTurn (s.ctx d.ctx) = s.ctx d.ctx := logTurn_of_mode (by simp [hm])
  have hc : s1.ctx d.ctx = s.ctx d.ctx := (State.ctx_modCtx_same ..).trans hturn
  have hr : replaying s1 d = false := by simp [replaying, hc, hturn, hm]
  have hw : logModeWritten s d = (idleObjects s1 d.ctx).foldl (fun s o => orStay s (regrantOne d s o)) s1 := by
    simp [logModeWritten, s1, hr]
  have hs := regrants_syncOnly (d := d) (idleObjects s1 d.ctx) (s := s1) (by simp [hc, hm])
  rw [hw]
  exact ⟨(hs.ctx_eq _).trans hc, hs.mem_eq⟩

end

/-! ## CTXCTL (R54, R286, R310) -/

theorem exec_clearFaultRecord (s : State) : exec .clearFaultRecord s = execClearFaultRecord s := by rfl
theorem exec_resetContext (s : State) : exec .resetContext s = execResetContext s := by rfl
theorem exec_invalidateContext (s : State) : exec .invalidateContext s = .next (beginInvalidate s 0 (2 ^ 52)) := by rfl
theorem exec_invalidateRange (s : State) : exec .invalidateRange s =
    .next (beginInvalidate s (s.ctx s.mgmt.ctxSel.toNat).invBase.toNat
      ((s.ctx s.mgmt.ctxSel.toNat).invBase.toNat + (s.ctx s.mgmt.ctxSel.toNat).invLen.toNat)) := by rfl

/-- The context that CTXSEL selects (R334). -/
def State.selected (s : State) : Nat := s.mgmt.ctxSel.toNat

/-- CTXCTL takes a command where no invalidate of the selected context is in progress (R334). -/
theorem ctxctlTaken_iff {s : State} : ctxctlTaken s = true ↔ (s.ctx s.selected).invBusy = none := Option.isNone_iff_eq_none

/-- A change of the selected context leaves the others. -/
theorem ctx_modSelected (s : State) (f : Ctx → Ctx) :
    (modSelected s f).ctx s.selected = f (s.ctx s.selected) ∧ ∀ n, n ≠ s.selected → (modSelected s f).ctx n = s.ctx n :=
  ⟨State.ctx_modCtx_same .., fun _ hn => (State.ctx_modCtx ..).trans (if_neg hn)⟩

/-- A buffered translation of the context in the range is dropped, at every rim die (R310). -/
theorem dropTranslations_tlb {s : State} {ctx lo hi n : Nat} {e : TlbEntry} (h : e ∈ ((dropTranslations s ctx lo hi).rim n).tlb)
    (hc : e.ctx = ctx) : pageMeets e.vpage e.bits lo hi = false := by
  unfold dropTranslations State.rim tgetD at h
  dsimp only at h
  rw [tget_tmap] at h
  cases hr : tget s.rims n with
  | none => rw [hr] at h; cases h
  | some r =>
    rw [hr] at h
    simpa [hc] using (List.mem_filter.1 h).2

section
variable {s : State} (hb : (s.ctx s.selected).invBusy = none)
include hb

/-- CLEAR_FAULT_RECORD clears the record of the selected context alone (R286). -/
theorem clearFaultRecord_clears :
    ∃ s', exec .clearFaultRecord s = .next s' ∧ s'.ctx s.selected = { s.ctx s.selected with fault := FaultRecord.none } ∧
      (∀ n, n ≠ s.selected → s'.ctx n = s.ctx n) ∧ s'.mem = s.mem ∧ s'.threads = s.threads := by
  have ht := ctxctlTaken_iff.2 hb
  obtain ⟨hsel, hother⟩ := ctx_modSelected s fun c => { c with fault := FaultRecord.none }
  exact ⟨_, by rw [exec_clearFaultRecord, execClearFaultRecord, if_pos ht], hsel, hother, rfl, rfl⟩

/-- RESET_CONTEXT resets what R54 lists, and leaves memory (R54). -/
theorem resetContext_resets : ∃ s', exec .resetContext s = .next s' ∧
    s'.ctx s.selected = resetContextState (s.ctx s.selected) ∧ s'.mem = s.mem := by
  have ht := ctxctlTaken_iff.2 hb
  obtain ⟨hsel, -⟩ := ctx_modSelected s resetContextState
  have hmode : logMode ((modSelected s resetContextState).ctx s.selected) = 0 := by rw [hsel]; simp [resetContextState, logMode, bits]
  obtain ⟨hctx, hmem⟩ := logModeWritten_off (d := { ctx := s.selected, user := false, quiet := false }) hmode
  exact ⟨_, by rw [exec_resetContext, execResetContext, ht]; rfl, hctx.trans hsel, hmem⟩

/-- An invalidate drops every buffered translation of its range in the selected context, and is in progress (R310). -/
theorem beginInvalidate_drops (lo hi : Nat) :
    ((beginInvalidate s lo hi).ctx s.selected).invBusy = some (lo, hi) ∧ (beginInvalidate s lo hi).mem = s.mem ∧
    (∀ n, n ≠ s.selected → (beginInvalidate s lo hi).ctx n = s.ctx n) ∧
    ∀ n e, e ∈ ((beginInvalidate s lo hi).rim n).tlb → e.ctx = s.selected → pageMeets e.vpage e.bits lo hi = false := by
  have ht := ctxctlTaken_iff.2 hb
  have hbegin : beginInvalidate s lo hi =
      modSelected (dropTranslations s s.selected lo hi) fun c => { c with invBusy := some (lo, hi) } := by
    rw [beginInvalidate, ht]; rfl
  obtain ⟨hsel, hother⟩ := ctx_modSelected (dropTranslations s s.selected lo hi) fun c => { c with invBusy := some (lo, hi) }
  rw [hbegin]
  exact ⟨congrArg Ctx.invBusy hsel, rfl, hother, fun _ _ => dropTranslations_tlb⟩

end

/-- A command of CTXCTL is ignored while an invalidate of the selected context is in progress (R334). -/
theorem ctxctl_ignored {s : State} (hb : (s.ctx s.selected).invBusy ≠ none) : exec .clearFaultRecord s = .next s ∧
    exec .resetContext s = .next s ∧ exec .invalidateContext s = .next s ∧ exec .invalidateRange s = .next s := by
  have ht : ctxctlTaken s = false := Bool.eq_false_iff.2 (mt ctxctlTaken_iff.1 hb)
  have hbegin : ∀ lo hi, beginInvalidate s lo hi = s := fun lo hi => by rw [beginInvalidate, ht]; rfl
  exact ⟨by rw [exec_clearFaultRecord, execClearFaultRecord, ht]; rfl, by rw [exec_resetContext, execResetContext, ht]; rfl,
    by rw [exec_invalidateContext, hbegin], by rw [exec_invalidateRange, hbegin]⟩

/-! ## The end of an invalidate (R310, R312) -/

theorem exec_invalidateComplete (s : State) : exec .invalidateComplete s = execInvalidateComplete s := by rfl

/-- The invalidate of a context is in progress and nothing of the old entries remains (R310). -/
def mayFinish (s : State) (n : Nat) : Bool := (s.ctx n).invBusy.any fun r => !staleWork s n r.1 r.2

theorem finishable_eq (s : State) : finishable s = (List.range 64).filter (mayFinish s) := by
  unfold finishable
  rw [← List.filterMap_eq_filter]
  refine List.filterMap_congr fun n _ => ?_
  cases hb : (s.ctx n).invBusy with
  | none => simp [Option.guard, mayFinish, hb]
  | some r => cases hs : staleWork s n r.1 r.2 <;> simp [Option.guard, mayFinish, hb, hs]

theorem mem_finishable {s : State} {c : Nat} : c ∈ finishable s ↔
    c < 64 ∧ ∃ lo hi, (s.ctx c).invBusy = some (lo, hi) ∧ staleWork s c lo hi = false := by
  simp [finishable_eq, mayFinish, Option.any_eq_true]

/-- A deferred read that is released leaves the contexts (R312). -/
theorem releaseDeferred_contexts (s : State) (d : Deferred) : (releaseDeferred s d).contexts = s.contexts := by
  unfold releaseDeferred
  split
  · unfold modEdge
    split
    · split <;> rfl
    · rfl
  · rw [wakeOne_frame]

/-- What an invalidate does as it completes leaves the contexts (R310, R312). -/
theorem endInvalidate_contexts (s : State) (c lo hi : Nat) : (endInvalidate s c lo hi).contexts = s.contexts := by
  unfold endInvalidate
  dsimp only
  rw [rimRoom_frame]
  exact foldl_field releaseDeferred State.contexts releaseDeferred_contexts _ _

/-- An invalidate that completes is no longer in progress; those of the other contexts are as they were (R310). -/
theorem completeInvalidate_busy {s : State} {c lo hi : Nat} (hb : (s.ctx c).invBusy = some (lo, hi)) :
    ((completeInvalidate s c).ctx c).invBusy = none ∧
    ∀ e, e ≠ c → ((completeInvalidate s c).ctx e).invBusy = (s.ctx e).invBusy := by
  have hctx : ∀ e, (completeInvalidate s c).ctx e =
      ((endInvalidate s c lo hi).modCtx c fun x => { x with invBusy := none }).ctx e := fun e => by
    simp only [completeInvalidate, hb]
    rw [firePhysical_frame]
    rfl
  refine ⟨?_, fun e he => ?_⟩
  · rw [hctx, State.ctx_modCtx_same]
  · rw [hctx, State.ctx_modCtx, if_neg he, State.ctx, endInvalidate_contexts]
    rfl

/-- INVALIDATE_COMPLETE ends one invalidate of those that may complete (R310, log 2). -/
theorem invalidateComplete_one {s : State} {c : Nat} (hc : c ∈ finishable s) :
    ∃ d s1, d ∈ finishable s ∧ (∀ n, s1.ctx n = s.ctx n) ∧ exec .invalidateComplete s = .next (completeInvalidate s1 d) := by
  rw [exec_invalidateComplete, execInvalidateComplete]
  generalize hl : finishable s = l at hc ⊢
  match l with
  | [] => cases hc
  | [a] => exact ⟨a, s, List.mem_singleton.2 rfl, fun _ => rfl, rfl⟩
  | a :: b :: r =>
    have hlt : s.choose.1 % ((b :: r).length + 1) < (a :: b :: r).length := Nat.mod_lt _ (by simp)
    refine ⟨(a :: b :: r).getD (s.choose.1 % ((b :: r).length + 1)) a, s.choose.2, ?_, fun _ => rfl, rfl⟩
    rw [List.getD_eq_getElem _ _ hlt]
    exact List.getElem_mem hlt

/-- The only invalidate that may complete does (R310). -/
theorem invalidateComplete_only {s : State} {c : Nat} (hc : c ∈ finishable s) (ho : ∀ d ∈ finishable s, d = c) :
    exec .invalidateComplete s = .next (completeInvalidate s c) := by
  have hnodup : (finishable s).Nodup := finishable_eq s ▸ List.nodup_range.filter _
  have hl : finishable s = [c] := by
    have hrep := List.eq_replicate_of_mem ho
    have hlen := List.length_pos_of_mem hc
    rw [hrep, List.nodup_replicate] at hnodup
    rw [hrep, Nat.le_antisymm hnodup hlen]
    rfl
  rw [exec_invalidateComplete, execInvalidateComplete, hl]

/-! ## The logical core table (R64, R266, R281 to R283) -/

/-- The entry that a write of LCT gives the selected logical core (R281 to R283). -/
def lctWritten (s : State) (v : Word) : LctEntry :=
  writtenEntry (s.lct (selectedCore s)) v (s.core (132 * (selectedCore s / 128) + bits v 7 0)).zeroing.isSome

/-- The write gives the selected core to a context that did not have it. -/
def lctGains (s : State) (v : Word) : Bool :=
  (lctWritten s v).allocated && !((s.lct (selectedCore s)).allocated && (s.lct (selectedCore s)).ctx = (lctWritten s v).ctx)

/-- Energy is settled where the cluster passes to another context (R266). -/
def lctSettled (s : State) (v : Word) : State :=
  if lctGains s v then switchContext s (selectedCore s / 128) (lctWritten s v).ctx.toNat else s

/-- The core behind an entry that is freed is to be zeroed (R283). -/
def lctFreed (s : State) (v : Word) : State :=
  if (s.lct (selectedCore s)).allocated && !(lctWritten s v).allocated && (lctSettled s v).backed (selectedCore s) then
    (lctSettled s v).modCore ((lctSettled s v).phys (selectedCore s)) fun c =>
      { c with zeroing := some (s.lct (selectedCore s)).ctx.toNat }
  else lctSettled s v

/-- The instruction lines of a core go as it passes to another context (R64). -/
def lctFlushed (s s1 : State) (v : Word) : State :=
  if lctGains s v && s1.backed (selectedCore s) then s1.modCore (s1.phys (selectedCore s)) fun c => { c with lines := [] } else s1

/-- LCT_WRITE in its steps: energy, the core that is freed, the entry, the instruction lines. -/
theorem exec_lctWrite (v : Word) (s : State) :
    exec (.lctWrite v) s = .next (lctFlushed s ((lctFreed s v).setLct (selectedCore s) (lctWritten s v)) v) := by rfl

/-- A context switch of a cluster settles energy: no thread and no byte changes (R266). -/
theorem switchContext_frame (s : State) (cl ctx : Nat) : switchContext s cl ctx =
    { s with clusters := (switchContext s cl ctx).clusters, contexts := (switchContext s cl ctx).contexts } := by
  unfold switchContext
  dsimp only
  split
  · rfl
  · split <;> rfl

theorem lctFreed_mem_threads (s : State) (v : Word) : (lctFreed s v).mem = s.mem ∧ (lctFreed s v).threads = s.threads := by
  have hs : (lctSettled s v).mem = s.mem ∧ (lctSettled s v).threads = s.threads := by
    unfold lctSettled
    split
    · rw [switchContext_frame]; exact ⟨rfl, rfl⟩
    · exact ⟨rfl, rfl⟩
  unfold lctFreed
  split <;> exact hs

/-- The flush of the instruction lines leaves the table, memory and the threads (R64). -/
theorem lctFlushed_frame (s s1 : State) (v : Word) :
    (∀ lc, (lctFlushed s s1 v).lct lc = s1.lct lc) ∧ (lctFlushed s s1 v).mem = s1.mem ∧ (lctFlushed s s1 v).threads = s1.threads := by
  unfold lctFlushed
  split <;> exact ⟨fun _ => rfl, rfl, rfl⟩

/-- LCT_WRITE writes the selected entry, and changes neither memory nor a thread (R281, R282). -/
theorem lctWrite_writes (s : State) (v : Word) : ∃ s', exec (.lctWrite v) s = .next s' ∧
    s'.lct (selectedCore s) = lctWritten s v ∧ s'.mem = s.mem ∧ s'.threads = s.threads := by
  obtain ⟨hlct, hmem, hthreads⟩ := lctFlushed_frame s ((lctFreed s v).setLct (selectedCore s) (lctWritten s v)) v
  obtain ⟨hmem1, hthreads1⟩ := lctFreed_mem_threads s v
  exact ⟨_, exec_lctWrite v s, by rw [hlct, State.lct_setLct_same], hmem.trans hmem1, hthreads.trans hthreads1⟩

/-- A write that names another context for an allocated entry frees it, under the new context's number (log 92). -/
theorem writtenEntry_moves {e : LctEntry} {v : Word} (zeroing : Bool) (ha : e.allocated = true) (hc : e.ctx ≠ v.extractLsb 13 8) :
    (writtenEntry e v zeroing).allocated = false ∧ (writtenEntry e v zeroing).ctx = v.extractLsb 13 8 := by
  have hb := bits_extract v 13 8
  have hm : e.ctx.toNat ≠ bits v 13 8 := fun h => hc (BitVec.eq_of_toNat_eq (h.trans hb))
  refine ⟨by simp [writtenEntry, ha, hm], ?_⟩
  rw [writtenEntry, hb]
  exact BitVec.ofNat_toNat ..

/-- A core whose entry another context is named for is freed, and its pots are to be zeroed first (R283). -/
theorem lctWrite_frees {s : State} {v : Word} (ha : (s.lct (selectedCore s)).allocated = true)
    (hc : (s.lct (selectedCore s)).ctx ≠ v.extractLsb 13 8) (hb : s.backed (selectedCore s) = true) :
    exec (.lctWrite v) s = .next ((s.modCore (s.phys (selectedCore s)) fun c =>
      { c with zeroing := some (s.lct (selectedCore s)).ctx.toNat }).setLct (selectedCore s) (lctWritten s v)) := by
  have hfree : (lctWritten s v).allocated = false := (writtenEntry_moves _ ha hc).1
  have hgains : lctGains s v = false := by simp [lctGains, hfree]
  simp [exec_lctWrite, lctFlushed, lctFreed, lctSettled, hgains, hfree, ha, hb]

/-! ## Pots (R283) -/

theorem exec_potZeroingComplete (core : Nat) (s : State) : exec (.potZeroingComplete core) s = execPotZeroingComplete core s := by rfl

/-- Where no copy is inbound, the core's pots are zeroed, and nothing else changes (R283). -/
theorem potZeroingComplete_zeroes {s : State} {core : Nat} (hz : (s.core core).zeroing ≠ none)
    (hi : ∀ lc, s.logical core = some lc → inboundCopies s lc = false) :
    exec (.potZeroingComplete core) s =
      .next (s.modCore core fun c => { c with pots := [], full := [], poisoned := [], zeroing := none }) := by
  have hn : (s.core core).zeroing.isNone = false := by simpa [Option.isSome_iff_ne_none] using hz
  rw [exec_potZeroingComplete, execPotZeroingComplete]
  cases hl : s.logical core with
  | none => simp [hn]
  | some lc => simp [hn, hi lc hl]

/-- A core that is not being zeroed stays (log 17). -/
theorem potZeroingComplete_stays {s : State} {core : Nat} (hz : (s.core core).zeroing = none) :
    exec (.potZeroingComplete core) s = .next s := by
  rw [exec_potZeroingComplete, execPotZeroingComplete, hz]
  simp

/-! ## NEWCTL (R335) and SVCRSP (R334) -/

theorem exec_newctl (v : Word) (s : State) : exec (.newctl v) s = execNewctl v s := by rfl
theorem exec_svcrsp (s : State) :
    exec .svcrsp s = .next (answerHost (dropReply s) (some (leBytes 8 (svcWord s).toNat))) := by rfl

/-- NEWCTL creates the thread and tells its identifier (R335). -/
theorem newctl_creates {s s1 : State} {v : Word} {tid : Nat} (h : newctlThread s v = some (tid, s1)) :
    ∃ s', exec (.newctl v) s = .next s' ∧ s'.threads = s1.threads ∧ s'.mgmt.newRefused = false ∧
      s'.mgmt.newTid = BitVec.ofNat 16 tid := by
  simp only [exec_newctl, execNewctl, h]
  refine ⟨_, rfl, ?_, rfl, rfl⟩
  rw [firePhysical_frame]
  dsimp only
  split <;> rfl

/-- NEWCTL is refused where no thread can be created (R335). -/
theorem newctl_refused {s : State} {v : Word} (h : newctlThread s v = none) :
    ∃ s', exec (.newctl v) s = .next s' ∧ s'.threads = s.threads ∧ s'.mgmt.newRefused = true := by
  simp only [exec_newctl, execNewctl, h]
  exact ⟨_, rfl, rfl, rfl⟩

/-- A write of NEWCTL with other bits set creates no thread (R335). -/
theorem newctlThread_reserved {s : State} {v : Word} (h : v.extractLsb 63 15 ≠ 0) : newctlThread s v = none := by
  have hb : bits v 63 15 ≠ 0 := fun hz => h ((bits_zero v 63 15).1 hz)
  rw [newctlThread]
  exact if_pos (.inl hb)

/-- SVCRSP as it reads while a reply stands: bit 63, and the oldest reply's other bits (R334). -/
theorem svcWord_reply {s : State} {r : Word} {rest : List Word} (h : s.mgmt.svcRsp = r :: rest) :
    (svcWord s).toNat = 2 ^ 63 + r.toNat % 2 ^ 63 := by
  simp only [svcWord, h, w64, bits, BitVec.toNat_ofNat]
  omega

/-- Settles O52: each command by its effect and its frame. -/
theorem systemCommandsActOnWhatTheySelect : Obligations.SystemCommandsActOnWhatTheySelect := by
  unfold Obligations.SystemCommandsActOnWhatTheySelect
  intro s sel
  refine ⟨fun hb => ⟨clearFaultRecord_clears hb, ?_, ?_, ?_⟩, ctxctl_ignored, fun h => ?_, fun c lo hi hc hb hs ho => ?_,
    fun c lo hi hc hb hs => ?_, fun v => ?_, fun v => ?_, fun core hz hi => ?_, fun core => potZeroingComplete_stays,
    fun v tid s1 => newctl_creates, fun v => newctl_refused, fun v => newctlThread_reserved, fun r rest h => ?_, fun h => ?_⟩
  · obtain ⟨s', hexec, hctx, hmem⟩ := resetContext_resets hb
    refine ⟨s', hexec, ?_⟩
    rw [show s'.ctx sel = _ from hctx]
    exact ⟨rfl, rfl, rfl, rfl, rfl, rfl, rfl, hmem⟩
  · exact ⟨_, exec_invalidateContext s, beginInvalidate_drops hb 0 (2 ^ 52)⟩
  · exact ⟨_, exec_invalidateRange s, beginInvalidate_drops hb _ _⟩
  · have hl : finishable s = [] := by
      refine List.eq_nil_iff_forall_not_mem.2 fun c hc => ?_
      obtain ⟨-, lo, hi, hb, hs⟩ := mem_finishable.1 hc
      simp [h c lo hi hb] at hs
    rw [exec_invalidateComplete, execInvalidateComplete, hl]
  · rw [invalidateComplete_only (mem_finishable.2 ⟨hc, lo, hi, hb, hs⟩) fun d hd => ?_]
    · simp only [completeInvalidate, hb]
    · obtain ⟨-, lo', hi', hb', hs'⟩ := mem_finishable.1 hd
      by_contra hne
      simp [ho d lo' hi' hne hb'] at hs'
  · obtain ⟨d, s1, hd, hctx, hexec⟩ := invalidateComplete_one (mem_finishable.2 ⟨hc, lo, hi, hb, hs⟩)
    obtain ⟨-, lo', hi', hb', -⟩ := mem_finishable.1 hd
    obtain ⟨hdone, hother⟩ := completeInvalidate_busy (s := s1) (c := d) (by rw [hctx]; exact hb')
    exact ⟨_, d, hexec, ⟨_, hb'⟩, hdone, fun e he => by rw [hother e he, hctx]⟩
  · have hw := lctWrite_writes s v
    rwa [lctWritten, bits_extract v 7 0] at hw
  · intro lc ha hc hb
    obtain ⟨hfree, hnew⟩ := writtenEntry_moves (s.core (132 * (lc / 128) + bits v 7 0)).zeroing.isSome ha hc
    refine ⟨_, lctWrite_frees ha hc hb, ?_, ?_, ?_⟩
    · rw [State.lct_setLct_same]; exact hfree
    · rw [State.lct_setLct_same]; exact hnew
    · rw [State.setLct_core_read, State.core_modCore_same]
  · exact ⟨_, potZeroingComplete_zeroes hz hi, rfl, State.core_modCore_same ..⟩
  · refine ⟨_, exec_svcrsp s, ?_, ?_⟩
    · exact congrArg List.tail h
    · exact congrArg (fun n => s.mgmt.hostReads ++ [some (leBytes 8 n)]) (svcWord_reply h)
  · refine ⟨_, exec_svcrsp s, ?_, ?_⟩
    · exact congrArg List.tail h
    · exact congrArg (fun w : Word => s.mgmt.hostReads ++ [some (leBytes 8 w.toNat)]) (show svcWord s = 0 by simp [svcWord, h])

end Sys2Proof.Machine
end

section
/-! PROOFS. Reset (R54, R300, R301, R326, R334): what each part of the state holds. -/

namespace Sys2Proof.Machine

open Sys2Proof

/-- Memory is canonical at reset (R203, R300). -/
theorem memorySafe_reset : MemorySafe State.reset := ⟨rfl, nofun⟩

/-- The registers that read zero at reset (R334). -/
def zeroAtReset : List Nat :=
  [0x00, 0x38, 0x40, 0x48, 0x50, 0x60, 0x68, 0x70, 0x78, 0x98, 0xA0, 0xA8, 0xB0, 0xB8, 0xC8, 0xD0, 0xD8, 0xE8, 0xF0, 0xF8,
    0x208, 0x210, 0x218, 0x220, 0x230]

theorem mgmtRead_zeroAtReset : ∀ off ∈ zeroAtReset, mgmtRead State.reset off = 0 := by decide

/-- A virtual function's entry of VFCTX is its number, disabled (R320, R334). -/
theorem mgmtRead_vfCtx_reset {l v : Nat} (hl : l < 2) (h1 : 1 ≤ v) (h15 : v ≤ 15) :
    mgmtRead State.reset (0x100 + 8 * (15 * l + v - 1)) = BitVec.ofNat 64 (16 * l + v) := by
  have hall : ∀ l < 2, ∀ i < 15, mgmtRead State.reset (0x100 + 8 * (15 * l + i)) = BitVec.ofNat 64 (16 * l + (i + 1)) := by decide
  obtain ⟨i, rfl⟩ := Nat.exists_eq_add_of_le' h1
  exact hall l hl i (by omega)

/-- No window has a token or an attachment (R321, R334). -/
theorem window_reset (e : Bool) (win : Nat) : State.reset.window e win = Window.reset := by cases e <;> rfl

/-- Settles O60: every table is empty, so that every entry is its default; the registers by their values. -/
theorem resetLeavesEveryRegisterAtItsValue : Obligations.ResetLeavesEveryRegisterAtItsValue := by
  unfold Obligations.ResetLeavesEveryRegisterAtItsValue
  refine ⟨memorySafe_reset, fun _ => rfl, rfl, rfl, fun _ => ⟨rfl, rfl, rfl, rfl, rfl, rfl, rfl, rfl, rfl⟩, fun _ _ => rfl,
    fun _ => ⟨rfl, rfl, rfl⟩, fun _ _ => ⟨rfl, rfl⟩, fun _ => rfl, mgmtRead_zeroAtReset, rfl, fun l v => mgmtRead_vfCtx_reset,
    fun e win => ?_⟩
  rw [window_reset]
  exact ⟨rfl, rfl, rfl, rfl, rfl⟩

end Sys2Proof.Machine
end

section
/-! PROOFS. Atomics in a pot (R70, R105, R118, R137, R338): what each operation makes of two patterns, what an access of an order
waits for, and what AMO in a pot does. -/

namespace Sys2Proof.Machine
open Sys2Proof

/-! ## What an atomic writes (R118) -/

/-- The value of a pattern of a type's width, by the type's signedness (R71). -/
theorem intVal_toNat (ty : Ty) (x : BitVec ty.width) : intVal ty x.toNat = if ty.isSigned then x.toInt else (x.toNat : Int) := by
  unfold intVal
  rw [sextNat_eq _ (width_pos ty), BitVec.ofNat_toNat, BitVec.setWidth_eq, BitVec.toNat_mod_cancel]

section
variable (ty : Ty) (x y c : BitVec ty.width) (cmp : Nat)

theorem amoNew_swap : amoNew .swap ty x.toNat y.toNat cmp = y.toNat := BitVec.toNat_mod_cancel y

theorem amoNew_add : amoNew .add ty x.toNat y.toNat cmp = (x + y).toNat := by
  rw [amoNew, BitVec.toNat_mod_cancel, BitVec.toNat_add]

theorem amoNew_and : amoNew .and ty x.toNat y.toNat cmp = (x &&& y).toNat := by
  rw [amoNew, BitVec.toNat_mod_cancel, BitVec.toNat_and]

theorem amoNew_or : amoNew .or ty x.toNat y.toNat cmp = (x ||| y).toNat := by
  rw [amoNew, BitVec.toNat_mod_cancel, BitVec.toNat_or]

theorem amoNew_xor : amoNew .xor ty x.toNat y.toNat cmp = (x ^^^ y).toNat := by
  rw [amoNew, BitVec.toNat_mod_cancel, BitVec.toNat_xor]

theorem amoNew_cas : amoNew .cas ty x.toNat y.toNat c.toNat = (if x = c then y else x).toNat := by
  simp only [amoNew, BitVec.toNat_mod_cancel, BitVec.toNat_inj, apply_ite BitVec.toNat]

theorem amoNew_min :
    amoNew .min ty x.toNat y.toNat cmp = (if intVal ty y.toNat < intVal ty x.toNat then y else x).toNat := by
  simp only [amoNew, BitVec.toNat_mod_cancel, apply_ite BitVec.toNat]

theorem amoNew_max :
    amoNew .max ty x.toNat y.toNat cmp = (if intVal ty x.toNat < intVal ty y.toNat then y else x).toNat := by
  simp only [amoNew, BitVec.toNat_mod_cancel, apply_ite BitVec.toNat]

theorem amoNew_fadd :
    amoNew .fadd ty x.toNat y.toNat cmp = result ty .rn false (addNum .rn (value ty x.toNat) (value ty y.toNat)) := by
  rw [amoNew, BitVec.toNat_mod_cancel, fAdd]

end

/-- A sum with a NaN is a NaN (R105). -/
theorem addNum_nan {u v : Num} {b : Bool} (rnd : Rnd) (h : u = .nan b ∨ v = .nan b) : addNum rnd u v = .nan false := by
  rcases h with rfl | rfl
  · cases v <;> rfl
  · cases u <;> rfl

/-- A floating atomic of which an operand is a NaN writes the canonical one (R70). -/
theorem amoNew_fadd_nan (ty : Ty) (x y : BitVec ty.width) (cmp : Nat) {b : Bool}
    (h : value ty x.toNat = .nan b ∨ value ty y.toNat = .nan b) : amoNew .fadd ty x.toNat y.toNat cmp = nanOf ty false := by
  rw [amoNew_fadd, addNum_nan .rn h, result]

/-- Sums halfway between two patterns go to the even one, down and up; one past the greatest goes to infinity; the least
subnormals add exactly (R70, R105). -/
theorem amoNew_fadd_examples :
    amoNew .fadd .f32 0x3F800000 0x33800000 0 = 0x3F800000 ∧ amoNew .fadd .f32 0x3F800001 0x33800000 0 = 0x3F800002 ∧
    amoNew .fadd .f32 0x7F7FFFFF 0x7F7FFFFF 0 = 0x7F800000 ∧ amoNew .fadd .f32 1 1 0 = 2 ∧
    amoNew .fadd .bf16 0x3F80 0x3B80 0 = 0x3F80 ∧ nanOf .f32 false = 0x7FC00000 ∧ nanOf .bf16 false = 0x7FC0 := by
  decide

/-! ## What an ordered access waits for (R338) -/

theorem releases_iff {ord : MemOrder} : releases ord = true ↔ ord = .rel ∨ ord = .acqrel := by
  cases ord <;> decide

theorem acquires_iff {ord : MemOrder} : acquires ord = true ↔ ord = .acq ∨ ord = .acqrel := by
  cases ord <;> decide

/-- The stores that an access in a pot of an order waits for have not all drained: a release's are all of the thread's, those of
another order its releasing ones (R338). -/
def orderUndrained (s : State) (t : Thread) (ord : MemOrder) : Bool :=
  if ord = .rel ∨ ord = .acqrel then hasStores s (s.coreOf t) s.cur else hasReleases s (s.coreOf t) s.cur

/-- The check that an access in a pot of an order makes before it acts (R338). -/
def orderHold (s : State) (t : Thread) (ord : MemOrder) : Except Stop Unit :=
  if releases ord then released s t else afterReleases s t

theorem orderHold_of_rel {ord : MemOrder} (h : ord = .rel ∨ ord = .acqrel) (s : State) (t : Thread) :
    orderHold s t ord = released s t := if_pos (releases_iff.2 h)

theorem orderHold_of_not_rel {ord : MemOrder} (h : ¬(ord = .rel ∨ ord = .acqrel)) (s : State) (t : Thread) :
    orderHold s t ord = afterReleases s t := if_neg (mt releases_iff.1 h)

section
variable {s : State} {t : Thread} {ord : MemOrder}

theorem orderHold_undrained (h : orderUndrained s t ord = true) : orderHold s t ord = .error (.wait .storeBuffer s) := by
  unfold orderUndrained at h
  split at h
  next hr => rw [orderHold_of_rel hr, released, drained_wait h]
  next hr => rw [orderHold_of_not_rel hr, afterReleases, if_pos h]

theorem orderHold_unanswered (h : orderUndrained s t ord = false) (hr : ord = .rel ∨ ord = .acqrel) (hp : t.remotePending ≠ []) :
    orderHold s t ord = .error (.wait .remote s) := by
  rw [orderUndrained, if_pos hr] at h
  simp only [orderHold_of_rel hr, released, drained_ok h, if_neg hp]

theorem orderHold_settled (h : orderUndrained s t ord = false) (hp : ord = .rel ∨ ord = .acqrel → t.remotePending = []) :
    orderHold s t ord = .ok () := by
  unfold orderUndrained at h
  split at h
  next hr => simp only [orderHold_of_rel hr, released, drained_ok h, if_pos (hp hr)]
  next hr => simp only [orderHold_of_not_rel hr, afterReleases, h, Bool.false_eq_true, if_false]

end

/-! ## AMO in a pot (R118, R137, R338) -/

theorem exec_amo (op : AmoOp) (ord : MemOrder) (ty : Ty) (d a b : GReg) (s : State) :
    exec (.amo op ord ty d a b) s = execAmo op ord ty d a b s := by rfl

/-- The pattern that stands where an atomic of a type acts in a pot. -/
def potOld (s : State) (ty : Ty) (core addr : Nat) : Nat := leNat (mreads (s.core core).pots addr (ty.width / 8))

/-- The state with an atomic performed in a pot, and its acquire (R114, R118). -/
def potAmoState (s : State) (t : Thread) (op : AmoOp) (ord : MemOrder) (ty : Ty) (operand compare : Word) (core addr : Nat) :
    State :=
  let s1 := potStore s core addr (leBytes (ty.width / 8) (amoNew op ty (potOld s ty core addr) operand.toNat compare.toNat))
  if ord = .acq ∨ ord = .acqrel then acquireFor s1 t else s1

@[simp] theorem potAmoState_thread (s : State) (t : Thread) (op : AmoOp) (ord : MemOrder) (ty : Ty) (operand compare : Word)
    (core addr n : Nat) : (potAmoState s t op ord ty operand compare core addr).thread? n = s.thread? n := by
  unfold potAmoState
  split
  · rw [acquireFor_thread, potStore_thread]
  · rw [potStore_thread]

section
variable {s : State} {t : Thread} {op : AmoOp} {ord : MemOrder} {ty : Ty} {d a b : GReg} {core addr : Nat} (ht : Issues s t)
  (hr : resolve s t (readG t a) (ty.width / 8) .atomic = .ok (.pot core addr, s))
include ht hr

/-- An atomic on a poisoned granule names the first one that it touches (R137, R203). -/
theorem potAmo_poisoned {g : Nat} (hp : s.potPoison core addr (ty.width / 8) = some g) (hn : t.inTrap = false) :
    Traps s t (.amo op ord ty d a b) .poison (w64 ((readG t a).toNat + 16 * g - addr)) :=
  traps_of_perform (exec_amo ..) ht hn (by simp [atomWidth, located_ok hr, peek, hp, trapWith])

section
variable (hp : s.potPoison core addr (ty.width / 8) = none)
include hp

theorem potAmo_held {r : WaitReason} (hh : orderHold s t ord = .error (.wait r s)) : Waits s (.amo op ord ty d a b) s r := by
  unfold orderHold at hh
  exact waits_of_perform (exec_amo ..) ht (by simp [atomWidth, located_ok hr, peek, hp, hh])

theorem potAmo_completes (hh : orderHold s t ord = .ok ()) :
    CompletesAccess s t (.amo op ord ty d a b) (readG t a).toNat (ty.width / 8) .store
      (potAmoState s t op ord ty (readG t b) (readG t d) core addr) (fun r => writeG r d (extendTy ty (potOld s ty core addr))) := by
  unfold orderHold at hh
  refine completesAccess_of_perform (x := t) (exec_amo ..) ht ?_ ?_ fun hn => ?_
  · simp [atomWidth, located_ok hr, peek, hp, hh, potAmoState, potOld, acquires_iff, amoOld, State.potRead]
  · rw [potAmoState_thread]; exact ht
  · rw [Thread.inTrap, writeG_status]; exact hn

end
end

/-- Settles O14: each operation by its lemma on patterns; AMO in a pot by the check that its order makes. -/
theorem potAtomicsActInOneStep : Obligations.PotAtomicsActInOneStep := by
  unfold Obligations.PotAtomicsActInOneStep
  refine ⟨fun ty x y c => ?_, amoNew_fadd_examples, ?_⟩
  · refine ⟨amoNew_swap .., amoNew_add .., amoNew_and .., amoNew_or .., amoNew_xor .., amoNew_cas .., fun _ => ?_,
      fun _ => ⟨amoNew_fadd .., fun _ => amoNew_fadd_nan ty x y _⟩⟩
    simp only [amoNew_min, amoNew_max, intVal_toNat, and_self]
  · intro s t op ord ty d a b core addr ht n ea old new s1 rel undrained hr
    exact ⟨fun hp => ⟨fun hu => potAmo_held ht hr hp (orderHold_undrained hu),
        fun hu hrel hne => potAmo_held ht hr hp (orderHold_unanswered hu hrel hne),
        fun hu hrel => potAmo_completes ht hr hp (orderHold_settled hu hrel)⟩,
      fun _ hp hn => potAmo_poisoned ht hr hp hn⟩

end Sys2Proof.Machine
end

section
/-! PROOFS. Integer register operations (R91 to R95): what each writes, with the results of division and of the bit fields. -/

namespace Sys2Proof.Machine

open Sys2Proof

/-! ## Patterns and results of a type (R91) -/

/-- Extending the number of a pattern extends the pattern. -/
theorem extendTy_toNat {ty : Ty} (v : BitVec ty.width) : extendTy ty v.toNat = extended ty v :=
  extendTy_of_toNat v.toNat_mod_cancel

/-- The low bits of a complement. -/
theorem lowBits_not (ty : Ty) (x : Word) : lowBits ty (~~~x) = ~~~lowBits ty x := BitVec.setWidth_not (width_le ty)

/-- The pattern of a typed value is the low bits that it reads. -/
theorem ofInt_typedValue (ty : Ty) (x : Word) : BitVec.ofInt ty.width (typedValue ty x) = lowBits ty x := by
  unfold typedValue
  split
  · exact BitVec.ofInt_toInt
  · rw [BitVec.ofInt_natCast, BitVec.ofNat_toNat, BitVec.setWidth_eq]

/-- A compare's result (R92). -/
theorem flag01_decide (p : Prop) [Decidable p] : flag01 (Decidable.decide p) = if p then 1 else 0 := by simp [flag01]

/-- The leading zeros of a pattern place its highest one bit (R92). -/
theorem leadingZeros_spec {w : Nat} (x : BitVec w) :
    if x = 0 then leadingZeros w x.toNat = w
    else leadingZeros w x.toNat < w ∧ 2 ^ (w - 1 - leadingZeros w x.toNat) ≤ x.toNat ∧
      x.toNat < 2 ^ (w - leadingZeros w x.toNat) := by
  split
  next hx => simp [hx, leadingZeros]
  next hx =>
    have hn : x.toNat ≠ 0 := fun h => hx (BitVec.eq_of_toNat_eq h)
    have hlog : x.toNat.log2 < w := (Nat.log2_lt hn).2 x.isLt
    have hlz : leadingZeros w x.toNat = w - 1 - x.toNat.log2 := if_neg hn
    rw [hlz, show w - 1 - (w - 1 - x.toNat.log2) = x.toNat.log2 by omega,
      show w - (w - 1 - x.toNat.log2) = x.toNat.log2 + 1 by omega]
    exact ⟨by omega, Nat.log2_self_le hn, Nat.lt_log2_self⟩

/-- The one bits of a pattern, counted one by one (R92). -/
theorem onesCount_toNat {w : Nat} (x : BitVec w) : onesCount w x.toNat = ((List.range w).filter x.getLsbD).length := by
  unfold onesCount
  congr 2
  funext i
  exact Nat.testBit_eq_decide_div_mod_eq.symm

/-! ## The shapes of an integer operation -/

section
variable {s : State} {t : Thread} {ty : Ty} {i : Instr} {d a b : GReg} (ht : Issues s t)
include ht

/-- An instruction that only computes the value of a g register writes it. -/
theorem writesG_value {v : Thread → Word} {x : Word} (hi : exec i s = regStep s fun t => writeG t d (v t)) (hv : v t = x) :
    WritesG s t i d x :=
  writesG_of_regStep ht hi (congrArg (writeG t d) hv)

/-- An exact operation on the typed values of two registers writes its result reduced and extended. -/
theorem writesG_exact (f : Int → Int → Int)
    (hi : exec i s = regStep s fun t => writeG t d (intResultW ty (f (operand ty (readG t a)) (operand ty (readG t b))))) :
    WritesG s t i d (reduced ty (f (typedValue ty (readG t a)) (typedValue ty (readG t b)))) := by
  rw [← intResultW_eq, ← operand_eq, ← operand_eq]
  exact writesG_value ht hi rfl

/-- An operation on patterns writes its pattern extended. -/
theorem writesG_pattern {p : Thread → Nat} {v : BitVec ty.width}
    (hi : exec i s = regStep s fun t => writeG t d (extendTy ty (p t))) (hv : p t = v.toNat) :
    WritesG s t i d (extended ty v) := by
  rw [← extendTy_toNat, ← hv]
  exact writesG_value ht hi rfl

/-- A compare of the typed values of two registers writes 1 or 0. -/
theorem writesG_compare (r : Int → Int → Prop) [DecidableRel r]
    (hi : exec i s = regStep s fun t => writeG t d (flag01 (r (operand ty (readG t a)) (operand ty (readG t b))))) :
    WritesG s t i d (if r (typedValue ty (readG t a)) (typedValue ty (readG t b)) then 1 else 0) := by
  rw [← flag01_decide, ← operand_eq, ← operand_eq]
  exact writesG_value ht hi rfl

/-- ADDS and SUBS clamp the exact result to the type's range. -/
theorem writesG_clamped (f : Int → Int → Int)
    (hi : exec i s = regStep s fun t =>
      writeG t d (intResultW ty (clampTo ty (f (operand ty (readG t a)) (operand ty (readG t b)))))) :
    WritesG s t i d (reduced ty (max (leastOf ty) (min (greatestOf ty)
      (f (typedValue ty (readG t a)) (typedValue ty (readG t b)))))) := by
  rw [← clampTo_eq]
  exact writesG_exact ht (fun A B => clampTo ty (f A B)) hi

end

/-- Settles O1: each operation by its shape, and the bits of the patterns that it makes. -/
theorem integerOperationsWriteTheirTableResult : Obligations.IntegerOperationsWriteTheirTableResult := by
  unfold Obligations.IntegerOperationsWriteTheirTableResult
  intro s t ty d a b ht _ A B x y n
  have hx : pattern ty (readG t a) = x.toNat := pattern_eq ..
  have hy : pattern ty (readG t b) = y.toNat := pattern_eq ..
  refine ⟨writesG_exact ht (· + ·) rfl, writesG_exact ht (· - ·) rfl, writesG_exact ht (· * ·) rfl,
    writesG_exact ht (· * · / 2 ^ ty.width) rfl, writesG_clamped ht (· + ·) rfl, writesG_clamped ht (· - ·) rfl,
    writesG_pattern ht rfl ?and, writesG_pattern ht rfl ?or, writesG_pattern ht rfl ?xor, writesG_pattern ht rfl ?andn,
    writesG_pattern ht rfl ?sll, writesG_pattern ht rfl ?srl, writesG_pattern ht rfl ?sra, writesG_pattern ht rfl ?rotl,
    writesG_compare ht (· = ·) rfl, writesG_compare ht (· < ·) rfl, writesG_compare ht (· ≤ ·) rfl,
    writesG_exact ht min rfl, writesG_exact ht max rfl, writesG_pattern ht rfl ?sel,
    ⟨leadingZeros ty.width x.toNat, ?clz, leadingZeros_spec x⟩, ?popc⟩
  case and => rw [hx, hy, BitVec.toNat_and]
  case or => rw [hx, hy, BitVec.toNat_or]
  case xor => rw [hx, hy, BitVec.toNat_xor]
  case andn => rw [hx, pattern_eq, lowBits_not, BitVec.toNat_and]
  case sll => rw [hx, shiftL_eq]
  case srl => rw [hx, shiftR_eq]
  case sra => rw [hx, shiftA_eq (width_pos ty)]
  case rotl => rw [hx, rotL_eq (width_pos ty)]
  case sel =>
    split
    · exact hx
    · exact hy
  case clz =>
    rw [← hx]
    exact writesG_value ht rfl rfl
  case popc =>
    rw [← onesCount_toNat, ← hx]
    exact writesG_value ht rfl rfl

/-! ## Division (R93) -/

/-- The remainder of a division toward zero has the sign of the dividend, or is zero. -/
theorem tmod_sign (a b : Int) : a.tmod b = 0 ∨ (0 ≤ a.tmod b ↔ 0 ≤ a) := by
  by_cases ha : 0 ≤ a
  · exact .inr (iff_of_true (Int.tmod_nonneg b ha) ha)
  · have hn : 0 ≤ (-a).tmod b := Int.tmod_nonneg b (by omega)
    rw [Int.neg_tmod] at hn
    omega

/-- The remainder is smaller than the divisor. -/
theorem abs_tmod_lt {a b : Int} (hb : b ≠ 0) : |a.tmod b| < |b| := by
  have h : (a.tmod b).natAbs < b.natAbs := by
    rw [Int.natAbs_tmod]
    exact Nat.mod_lt _ (Int.natAbs_pos.2 hb)
  rw [Int.abs_eq_natAbs, Int.abs_eq_natAbs]
  exact_mod_cast h

/-- The quotient is no larger than the dividend. -/
theorem natAbs_tdiv_le (a b : Int) : (a.tdiv b).natAbs ≤ a.natAbs := by
  rw [Int.natAbs_tdiv]
  exact Nat.div_le_self ..

/-- It is as large only for the divisors 1 and -1. -/
theorem eq_one_or_neg_one_of_natAbs_tdiv {a b : Int} (ha : a ≠ 0) (h : (a.tdiv b).natAbs = a.natAbs) : b = 1 ∨ b = -1 := by
  rw [Int.natAbs_tdiv] at h
  have hb := (Nat.div_eq_self.1 h).resolve_left (Int.natAbs_ne_zero.2 ha)
  omega

/-- A typed value lies in its type's range. -/
theorem typedValue_range (ty : Ty) (x : Word) : leastOf ty ≤ typedValue ty x ∧ typedValue ty x ≤ greatestOf ty := by
  unfold leastOf greatestOf typedValue
  split
  · have hlo := (lowBits ty x).le_toInt
    have hhi := (lowBits ty x).toInt_lt
    omega
  · have hhi : ((lowBits ty x).toNat : Int) < 2 ^ ty.width := by exact_mod_cast (lowBits ty x).isLt
    omega

/-- The greatest value of a signed type is the least one's negative less one (R71). -/
theorem greatestOf_signed {ty : Ty} (h : ty.isSigned = true) : greatestOf ty = -leastOf ty - 1 := by
  simp [greatestOf, leastOf, h]

/-- Outside the overflow case the quotient lies in the type's range. -/
theorem tdiv_range {ty : Ty} {a b : Int} (ha : leastOf ty ≤ a ∧ a ≤ greatestOf ty) (hb : leastOf ty ≤ b)
    (h : ¬(ty.isSigned = true ∧ a = leastOf ty ∧ b = -1)) : leastOf ty ≤ a.tdiv b ∧ a.tdiv b ≤ greatestOf ty := by
  obtain ⟨halo, hahi⟩ := ha
  have hle := natAbs_tdiv_le a b
  cases hs : ty.isSigned with
  | false =>
    have hleast : leastOf ty = 0 := by simp [leastOf, hs]
    have hq : 0 ≤ a.tdiv b := Int.tdiv_nonneg (by omega) (by omega)
    omega
  | true =>
    have hgreatest := greatestOf_signed hs
    refine ⟨by omega, not_lt.1 fun hgt => ?_⟩
    have hone := eq_one_or_neg_one_of_natAbs_tdiv (a := a) (b := b) (by omega) (by omega)
    have hleast : a = leastOf ty := by omega
    rcases hone with rfl | rfl
    · rw [Int.tdiv_one] at hgt
      omega
    · exact h ⟨hs, hleast, rfl⟩

/-- The most negative value divided by -1 wraps to itself. -/
theorem ofInt_quotient_least {ty : Ty} (h : ty.isSigned = true) :
    BitVec.ofInt ty.width (quotient (leastOf ty) (-1)) = BitVec.ofInt ty.width (leastOf ty) := by
  revert h
  cases ty <;> decide

/-- The pattern of -1 is all ones. -/
theorem ofInt_neg_one (w : Nat) : BitVec.ofInt w (-1) = BitVec.allOnes w := by
  rw [BitVec.ofInt_neg]
  exact BitVec.neg_one_eq_allOnes

/-- Settles O2: quotient and remainder toward zero, and the two corners that they leave. -/
theorem divisionTruncatesAndItsTwoCornersAreFixed : Obligations.DivisionTruncatesAndItsTwoCornersAreFixed := by
  unfold Obligations.DivisionTruncatesAndItsTwoCornersAreFixed
  refine ⟨by decide, fun s t ty d a b ht _ => ?_⟩
  intro A B
  refine ⟨BitVec.ofInt ty.width (quotient A B), BitVec.ofInt ty.width (remainder A B), writesG_exact ht quotient rfl,
    writesG_exact ht remainder rfl, fun hB => ?zero, fun hs hA hB => ?overflow, fun hB hno => ?exact⟩
  case zero =>
    rw [quotient, remainder, if_pos hB, if_pos hB]
    exact ⟨ofInt_neg_one ty.width, ofInt_typedValue ..⟩
  case overflow =>
    have hlow : lowBits ty (readG t a) = BitVec.ofInt ty.width A := (ofInt_typedValue ..).symm
    rw [hlow, hA, hB]
    exact ⟨ofInt_quotient_least hs, by simp [remainder]⟩
  case exact =>
    rw [quotient, remainder, if_neg hB, if_neg hB]
    exact ⟨_, _, rfl, rfl, (Int.tdiv_mul_add_tmod A B).symm, abs_tmod_lt hB, tmod_sign A B,
      tdiv_range (typedValue_range ty _) (typedValue_range ty _).1 hno⟩

/-! ## Bit fields (R95) -/

/-- The position of a field, and its length up to bit 63. -/
theorem fieldSpan_eq (gb : Word) :
    fieldSpan gb = (gb.toNat % 64, min (gb.toNat / 64 % 128) (64 - gb.toNat % 64)) := by
  have hpos : bits gb 5 0 = gb.toNat % 64 := by simp [bits]
  have hlen : bits gb 12 6 = gb.toNat / 64 % 128 := by simp [bits]
  simp only [fieldSpan, hpos, hlen, Prod.mk.injEq, true_and]
  split <;> omega

/-- A bit of a field of a number. -/
theorem testBit_field (n pos len i : Nat) :
    (n / 2 ^ pos % 2 ^ len).testBit i = (Decidable.decide (i < len) && n.testBit (pos + i)) := by
  rw [Nat.testBit_mod_two_pow, Nat.testBit_div_two_pow, Nat.add_comm]

/-- A number with a field replaced, as what stands above the field, the new field, and what stands below it. -/
theorem insert_split (n m pos len : Nat) : n - n / 2 ^ pos % 2 ^ len * 2 ^ pos + m * 2 ^ pos =
    2 ^ pos * (2 ^ len * (n / 2 ^ pos / 2 ^ len) + m) + n % 2 ^ pos := by
  have hhi := Nat.div_add_mod (n / 2 ^ pos) (2 ^ len)
  have hlo := Nat.div_add_mod n (2 ^ pos)
  generalize n / 2 ^ pos / 2 ^ len = above at *
  generalize n / 2 ^ pos % 2 ^ len = old at *
  generalize n % 2 ^ pos = below at *
  have hn : n = 2 ^ pos * (2 ^ len * above) + below + old * 2 ^ pos := by
    rw [← hlo, ← hhi]
    ring
  rw [hn, Nat.add_sub_cancel]
  ring

section
variable {gb : Word} {pos len : Nat} (hspan : fieldSpan gb = (pos, len))
include hspan

/-- A bit that BFX extracts, by the place in its field; past it the sign or zero. -/
theorem extractField_bit (ty : Ty) (a : Word) {i : Nat} (hi : i < 64) : (extractField ty a gb).getLsbD i =
    if i < len then a.getLsbD (pos + i) else ty.isSigned && 0 < len && a.getLsbD (pos + len - 1) := by
  simp only [extractField, hspan]
  by_cases hlen : len = 0
  · simp [hlen]
  have hpos : 0 < len := Nat.pos_of_ne_zero hlen
  have hbit := testBit_field a.toNat pos len
  rw [if_neg hlen]
  cases hs : ty.isSigned with
  | true =>
    have hsx : BitVec.ofInt 64 (sextNat len (a.toNat / 2 ^ pos % 2 ^ len)) =
        (BitVec.ofNat len (a.toNat / 2 ^ pos % 2 ^ len)).signExtend 64 := by
      rw [sextNat_eq len hpos]
      rfl
    rw [if_pos rfl, hsx, BitVec.getLsbD_signExtend, BitVec.msb_eq_getLsbD_last, BitVec.getLsbD_ofNat, BitVec.getLsbD_ofNat,
      hbit, hbit, ← Nat.add_sub_assoc hpos]
    by_cases hil : i < len <;> simp [hi, hil, hpos, BitVec.getLsbD]
  | false =>
    rw [if_neg Bool.false_ne_true, getLsbD_w64, if_pos hi, hbit]
    by_cases hil : i < len <;> simp [hil, BitVec.getLsbD]

/-- A bit after BFI: the source's inside the field, the old one outside. -/
theorem insertField_bit (old a : Word) {i : Nat} (hi : i < 64) : (insertField old a gb).getLsbD i =
    if pos ≤ i ∧ i < pos + len then a.getLsbD (i - pos) else old.getLsbD i := by
  simp only [insertField, hspan]
  rw [getLsbD_w64, if_pos hi, insert_split, Nat.testBit_two_pow_mul_add _ (Nat.mod_lt _ (Nat.two_pow_pos pos)),
    Nat.testBit_two_pow_mul_add _ (Nat.mod_lt _ (Nat.two_pow_pos len)), Nat.testBit_mod_two_pow, Nat.testBit_mod_two_pow,
    Nat.testBit_div_two_pow, Nat.testBit_div_two_pow]
  by_cases hlo : i < pos
  · simp [hlo, BitVec.getLsbD]
  by_cases hin : i < pos + len
  · have hlen : i - pos < len := by omega
    simp [hlo, hin, hlen, not_lt.1 hlo, BitVec.getLsbD]
  · have hlen : ¬ i - pos < len := by omega
    have hback : i - pos - len + len + pos = i := by omega
    simp [hlo, hin, hlen, hback, BitVec.getLsbD]

end

/-- Settles O3: the bits of the extracted and of the inserted field. -/
theorem bitFieldsExtractAndInsert : Obligations.BitFieldsExtractAndInsert := by
  unfold Obligations.BitFieldsExtractAndInsert
  intro s t ty d a b ht hty pos len
  have hspan : fieldSpan (readG t b) = (pos, len) := fieldSpan_eq _
  have hsigned : ty.isSigned = Decidable.decide (ty = .s64) := by rcases hty with rfl | rfl <;> rfl
  refine ⟨_, _, writesG_value ht rfl rfl, writesG_value ht rfl rfl, fun i hi => ?_, fun i hi h64 => ?_, fun i h64 => ?_⟩
  · rw [extractField_bit hspan ty _ (by omega), if_pos hi]
  · rw [extractField_bit hspan ty _ h64, if_neg (by omega), hsigned]
  · exact insertField_bit hspan _ _ h64

end Sys2Proof.Machine
end

section
/-! PROOFS. Immediate forms, branches, jumps and LOOP (R97, R99 to R101, R133): the values that they write and where they go. -/

namespace Sys2Proof.Machine

open Sys2Proof

/-! ## Values of the immediate forms (R97) -/

/-- A whole register made of a pattern of 64 bits. -/
theorem w64_toNat (x : Word) : w64 x.toNat = x := by simp [w64]

/-- SLTI compares with the value of the immediate. -/
theorem flag01_slt_sx (x : Word) (imm : BitVec 16) : flag01 (x.slt (sx imm)) = if x.toInt < imm.toInt then 1 else 0 := by
  rw [← flag01_decide, ← BitVec.toInt_signExtend_of_le (v := 64) (x := imm) (by decide)]
  rfl

/-- LUI's value is the sign-extended immediate, shifted. -/
theorem luiValue_eq (imm : BitVec 16) (h : BitVec 2) : luiValue imm h = imm.signExtend 64 <<< (16 * h.toNat) := by
  rw [luiValue, BitVec.ofInt_mul, BitVec.shiftLeft_eq_mul_twoPow]
  congr 1
  apply BitVec.eq_of_toNat_eq
  rw [BitVec.toNat_twoPow, BitVec.toNat_ofInt]
  norm_cast

section
variable {s : State} {t : Thread} (ht : Issues s t)
include ht

/-- NOP changes nothing but the address (R133). -/
theorem nop_completes : Completes s .nop s id (t.pc + 4) :=
  Completes.congr (completes_of_regStep rfl ht) ht rfl

end

/-- Settles O4: each form writes its value; the shifts are those of a register of 64 bits. -/
theorem immediateFormsActOnWholeRegisters : Obligations.ImmediateFormsActOnWholeRegisters := by
  unfold Obligations.ImmediateFormsActOnWholeRegisters
  refine ⟨by decide, fun s t d a imm h n ht => ?_⟩
  intro x
  have hn : n.toNat % 64 = n.toNat := Nat.mod_eq_of_lt n.isLt
  refine ⟨writesG_value ht rfl rfl, writesG_value ht rfl rfl, writesG_value ht rfl rfl, writesG_value ht rfl rfl,
    writesG_value ht rfl (flag01_slt_sx x imm), writesG_value ht rfl (luiValue_eq imm h), writesG_value ht rfl rfl,
    writesG_value ht rfl ?slli, writesG_value ht rfl ?srli, writesG_value ht rfl ?srai, writesG_value ht rfl ?rotli,
    nop_completes ht⟩
  case slli => rw [shiftL_eq, w64_toNat]
  case srli => rw [shiftR_eq, w64_toNat]
  case srai => rw [shiftA_eq (by decide), w64_toNat]
  case rotli => rw [rotL_eq (by decide), w64_toNat, hn]

/-! ## Branches, jumps and LOOP (R99 to R101) -/

section
variable {s : State} {t : Thread} {i : Instr} (ht : Issues s t)
include ht

/-- A branch completes with its change of the registers, at the address that it goes to. -/
theorem branch_completes {f g : Thread → Thread} {target : Thread → Word} {pc : Word} (hi : exec i s = branchStep s f target)
    (hf : f t = g t) (hpc : target t = pc) : Completes s i s g pc := by
  rw [← hpc]
  exact Completes.congr (completes_of_branchStep hi ht) ht hf

/-- A conditional branch goes to its target when the condition holds, and on when it does not (R99). -/
theorem conditional_completes {off : BitVec 16} {taken : Thread → Bool} {c : Bool}
    (hi : exec i s = branchStep s id fun t => branchTo t (taken t) off) (hc : taken t = c) :
    Completes s i s id (if c then t.pc + 4 * off.signExtend 64 else t.pc + 4) :=
  branch_completes ht hi rfl (congrArg (branchTo t · off) hc)

/-- JLR goes to a word address (R100). -/
theorem jlr_completes {d a : GReg} {imm : BitVec 16} (h : (readG t a + imm.signExtend 64).toNat % 4 = 0) :
    Completes s (.jlr d a imm) s (fun r => writeG r d (t.pc + 4)) (readG t a + imm.signExtend 64) :=
  have hi : exec (.jlr d a imm) s = execJlr d a imm s := rfl
  completes_of_effect hi ht (if_neg (not_not.2 h))

/-- JLR to any other address raises ALIGN (R100). -/
theorem jlr_traps {d a : GReg} {imm : BitVec 16} (h : (readG t a + imm.signExtend 64).toNat % 4 ≠ 0) (hn : t.inTrap = false) :
    Traps s t (.jlr d a imm) .align (readG t a + imm.signExtend 64) :=
  have hi : exec (.jlr d a imm) s = execJlr d a imm s := rfl
  traps_of_perform hi ht hn (if_pos h)

/-- LOOP with a trip counter of zero falls through (R101). -/
theorem loop_zero {a : GReg} {off : BitVec 16} (h : readG t a = 0) : Completes s (.loop a off) s id (t.pc + 4) :=
  branch_completes ht rfl (if_pos h) (by simp [branchTo, h, seqPc])

/-- LOOP with trips left counts one, and goes back while the counter is not zero (R101). -/
theorem loop_counts {a : GReg} {off : BitVec 16} (h : readG t a ≠ 0) :
    Completes s (.loop a off) s (fun r => writeG r a (readG t a - 1))
      (if readG t a - 1 ≠ 0 then t.pc + 4 * off.signExtend 64 else t.pc + 4) := by
  refine branch_completes ht rfl (if_neg h) ?_
  have hone : readG t a - 1 ≠ 0 ↔ readG t a ≠ 1 := not_congr sub_eq_zero
  simp only [branchTo, decide_eq_true h, Bool.true_and, decide_eq_true_eq, hone]
  rfl

end

/-- Settles O5: each branch by its comparison. -/
theorem branchesGoToTheirTargetWhenTheConditionHolds : Obligations.BranchesGoToTheirTargetWhenTheConditionHolds := by
  unfold Obligations.BranchesGoToTheirTargetWhenTheConditionHolds
  intro s t a b off ht x y next
  have hge : (!x.slt y) = Decidable.decide (y.toInt ≤ x.toInt) := by simp only [BitVec.slt, ← decide_not, not_lt]
  have hgen : (!x.ult y) = Decidable.decide (y.toNat ≤ x.toNat) := by simp only [BitVec.ult, ← decide_not, not_lt]
  exact ⟨conditional_completes ht rfl rfl, conditional_completes ht rfl rfl, conditional_completes ht rfl rfl,
    conditional_completes ht rfl hge, conditional_completes ht rfl rfl, conditional_completes ht rfl hgen⟩

/-- Settles O6: the jumps, JLR by its target's alignment, LOOP by its counter. -/
theorem jumpsAndLoopsGoWhereTheySay : Obligations.JumpsAndLoopsGoWhereTheySay := by
  unfold Obligations.JumpsAndLoopsGoWhereTheySay
  intro s t d a imm off ht target
  exact ⟨branch_completes ht rfl rfl rfl, branch_completes ht rfl rfl rfl, jlr_completes ht, jlr_traps ht, loop_zero ht,
    loop_counts ht⟩

end Sys2Proof.Machine
end

section
/-! PROOFS. Vector instructions (R104 to R107, R109 to R112): the elements that each writes, and what the integer lanes compute. -/

namespace Sys2Proof.Machine

open Sys2Proof

/-! ## The shapes of a vector instruction -/

section
variable {s : State} {t : Thread} {i : Instr} {ty : Ty} {d a b : VReg} (ht : Issues s t)
include ht

/-- A vector made element by element writes each element's pattern. -/
theorem writesV_elements {f : Thread → Nat → Nat} {v : Nat → Nat}
    (hi : exec i s = regStep s fun t => writeV t d (pack ty.width ((List.range ty.lanes).map (f t))))
    (hv : ∀ e, e < ty.lanes → f t e % 2 ^ ty.width = v e) :
    ∃ x, WritesV s t i d x ∧ ∀ e, e < ty.lanes → elem ty.width x e = v e :=
  ⟨_, writesV_of_regStep ht hi rfl, fun e he => (elem_pack_map _ _ _ e he (lanes_width ty)).trans (hv e he)⟩

variable {rnd : Rnd} {sat : Bool} {op : LaneOp}

/-- An operation on the elements of two vectors and the old destination (R104). -/
theorem writesV_lanes (hi : exec i s = vectorStep op rnd sat ty d a b s) :
    ∃ x, WritesV s t i d x ∧ ∀ e, e < ty.lanes → elem ty.width x e =
      laneOp op ty rnd sat (elem ty.width (readV t a) e) (elem ty.width (readV t b) e) (elem ty.width (readV t d) e) %
        2 ^ ty.width :=
  writesV_elements ht hi fun _ _ => rfl

/-- An operation on the elements of one vector, whose other operand does not count (R104). -/
theorem writesV_unary (hi : exec i s = vectorStep op rnd sat ty d a 0 s)
    (hop : ∀ x y z, laneOp op ty rnd sat x y z = laneOp op ty rnd sat x 0 z) :
    ∃ x, WritesV s t i d x ∧ ∀ e, e < ty.lanes → elem ty.width x e =
      laneOp op ty rnd sat (elem ty.width (readV t a) e) 0 (elem ty.width (readV t d) e) % 2 ^ ty.width :=
  writesV_elements ht hi fun _ _ => congrArg (· % 2 ^ ty.width) (hop ..)

end

/-! ## Integer lanes (R106, R107) -/

/-- A wrapped integer is its bit vector's number. -/
theorem wrapInt_eq (w : Nat) (v : Int) : wrapInt w v = (BitVec.ofInt w v).toNat := (BitVec.toNat_ofInt v).symm

/-- The result of a lane, wrapped or clamped (R106). -/
theorem intResult_eq (ty : Ty) (sat : Bool) (v : Int) : intResult ty sat v =
    (BitVec.ofInt ty.width (if sat then max (leastOf ty) (min (greatestOf ty) v) else v)).toNat := by
  rw [intResult, wrapInt_eq, clampTo_eq]

/-- The mask of a relation (R107). -/
theorem maskOf_eq (w : Nat) (p : Prop) [Decidable p] :
    maskOf w p = (if p then BitVec.allOnes w else 0).toNat := by
  by_cases hp : p <;> simp [maskOf, hp]

/-- The integer types of vectors have no floating lanes. -/
theorem laneOp_int {ty : Ty} (h : ty.isVInt = true) (op : LaneOp) (rnd : Rnd) (sat : Bool) (a b c : Nat) :
    laneOp op ty rnd sat a b c = intLane op ty sat a b := by
  have hf : ty.isVFloat = false := by
    revert h
    cases ty <;> decide
  rw [laneOp, hf, if_neg Bool.false_ne_true]

section
variable (ty : Ty) (sat : Bool) (x y : BitVec ty.width)

theorem intLane_abs : intLane .abs ty sat x.toNat y.toNat = intResult ty sat |intVal ty x.toNat| := by
  rw [← Int.natCast_natAbs]
  rfl

theorem intLane_mulh : intLane .mulh ty sat x.toNat y.toNat =
    (BitVec.ofInt ty.width (intVal ty x.toNat * intVal ty y.toNat / 2 ^ ty.width)).toNat := by
  have h : intLane .mulh ty sat x.toNat y.toNat =
    wrapInt ty.width (intVal ty x.toNat * intVal ty y.toNat / (2 ^ ty.width : Nat)) := rfl
  rw [h, wrapInt_eq]
  norm_cast

theorem intLane_min :
    intLane .min ty sat x.toNat y.toNat = (if intVal ty y.toNat < intVal ty x.toNat then y else x).toNat :=
  (apply_ite BitVec.toNat ..).symm

theorem intLane_max :
    intLane .max ty sat x.toNat y.toNat = (if intVal ty x.toNat < intVal ty y.toNat then y else x).toNat :=
  (apply_ite BitVec.toNat ..).symm

end

/-- Settles O36: the elements of each instruction by its lane operation, and the integer lanes on patterns. -/
theorem vectorOperationsActOnEachElement : Obligations.VectorOperationsActOnEachElement := by
  unfold Obligations.VectorOperationsActOnEachElement
  refine ⟨fun s t rnd sat ty d a b ht => ?elements, fun ty rnd sat x y c hty => ?integers⟩
  case elements =>
    intro lanes unary
    have binary {i : Instr} {op : LaneOp} (hi : exec i s = vectorStep op rnd sat ty d a b s) : lanes i op :=
      writesV_lanes ht hi
    have single {i : Instr} {op : LaneOp} (hi : exec i s = vectorStep op rnd sat ty d a 0 s)
        (hop : ∀ x y z, laneOp op ty rnd sat x y z = laneOp op ty rnd sat x 0 z) : unary i op :=
      writesV_unary ht hi hop
    refine ⟨binary rfl, binary rfl, binary rfl, binary rfl, binary rfl, binary rfl, binary rfl, binary rfl, binary rfl,
      binary rfl, binary rfl, binary rfl, binary rfl, binary rfl, binary rfl, binary rfl, single rfl fun _ _ _ => rfl,
      single rfl fun _ _ _ => rfl, single rfl fun _ _ _ => rfl, single rfl fun _ _ _ => rfl, single rfl fun _ _ _ => rfl,
      single rfl fun _ _ _ => rfl, writesV_elements ht rfl fun e _ => ?_⟩
    split <;> exact elem_mod ..
  case integers =>
    intro A B lane kept
    have hA : intVal ty x.toNat = A := intVal_toNat ty x
    have hB : intVal ty y.toNat = B := intVal_toNat ty y
    simp only [lane, kept, laneOp_int hty, ← intResult_eq, ← hA, ← hB]
    exact ⟨rfl, rfl, rfl, rfl, intLane_abs .., (BitVec.toNat_and ..).symm, (BitVec.toNat_or ..).symm, (BitVec.toNat_xor ..).symm,
      shiftL_eq .., shiftR_eq .., shiftA_eq (width_pos ty) .., intLane_mulh .., intLane_min .., intLane_max .., maskOf_eq ..,
      maskOf_eq .., maskOf_eq ..⟩

/-! ## Moves, conversions and reductions (R109 to R112) -/

section
variable {s : State} {t : Thread} {ty : Ty} {d a : VReg} (ht : Issues s t)
include ht

/-- VBCAST writes one pattern to every element (R111). -/
theorem vbcast_elements (g : GReg) : ∃ x, WritesV s t (.vbcast ty d g) d x ∧
    ∀ e, e < ty.lanes → elem ty.width x e = (readG t g).toNat % 2 ^ ty.width := by
  refine ⟨_, writesV_of_regStep ht rfl rfl, fun e he => ?_⟩
  rw [elem_pack _ _ _ (le_trans (Nat.mul_le_mul_left _ he) (lanes_width ty))]
  simp [he, pattern]

/-- VRED writes the reduction to element 0, and zero to the others (R111). -/
theorem vred_elements (op : RedOp) : ∃ x, WritesV s t (.vred op ty d a) d x ∧ ∀ e, e < ty.lanes → elem ty.width x e =
    if e = 0 then reduceList op ty ((List.range ty.lanes).map (elem ty.width (readV t a))) % 2 ^ ty.width else 0 := by
  refine ⟨_, writesV_of_regStep ht rfl rfl, fun e he => ?_⟩
  rw [elem_pack _ _ _ (le_trans (Nat.mul_le_mul_left _ he) (lanes_width ty))]
  cases e with
  | zero => rfl
  | succ n => simp

variable {rnd : Rnd} {dt st : Ty} {k : KReg} {cg : BitVec 4}

/-- VCVT with a key that is valid where the rounding draws converts the elements that both types have (R109). -/
theorem vcvt_elements (hk : rnd = .rs → (readK t k).valid = true) : ∃ x, WritesV s t (.vcvt rnd dt st d a k cg) d x ∧
    ∀ e, e < dt.lanes → elem dt.width x e =
      if e < st.lanes then
        convert st dt rnd true (if rnd = .rs then
          (keyDraw (readK t k) ((readG t (cg.setWidth 5)).setWidth 48 + BitVec.ofNat 48 e) 0).toNat else 0)
          (elem st.width (readV t a) e) % 2 ^ dt.width
      else 0 := by
  have hi : exec (.vcvt rnd dt st d a k cg) s = execVcvt rnd dt st d a k cg s := rfl
  have hvalid : ¬(rnd = .rs ∧ (!(readK t k).valid) = true) := fun ⟨hr, hv⟩ => by simp [hk hr] at hv
  refine ⟨_, Completes.congr (completes_of_effect hi ht (if_neg hvalid)) ht rfl, fun e he => ?_⟩
  rw [convertLanes, elem_pack_map _ _ _ e he (lanes_width dt)]
  by_cases hst : e < st.lanes
  · rw [if_pos (lt_min hst he), if_pos hst]
  · rw [if_neg fun h => hst (lt_min_iff.1 h).1, if_neg hst, Nat.zero_mod]

/-- VCVT that draws from an invalid key traps with the key's word (R110). -/
theorem vcvt_invalidKey (hr : rnd = .rs) (hk : (readK t k).valid = false) (hn : t.inTrap = false) :
    Traps s t (.vcvt rnd dt st d a k cg) .illegal (keyWord0 (readK t k)) :=
  have hi : exec (.vcvt rnd dt st d a k cg) s = execVcvt rnd dt st d a k cg s := rfl
  traps_of_perform hi ht hn (if_pos ⟨hr, by rw [hk]; rfl⟩)

end

/-- Settles O37: instruction by instruction, the elements that it writes. -/
theorem vectorElementsMoveConvertAndReduce : Obligations.VectorElementsMoveConvertAndReduce := by
  unfold Obligations.VectorElementsMoveConvertAndReduce
  intro s t rnd ty dt st op d a b g k cg n ht w A each
  refine ⟨writesV_elements ht rfl fun e _ => ?vperm, vbcast_elements ht g, writesV_elements ht rfl fun e _ => ?vins,
    writesV_elements ht rfl fun e _ => elem_mod .., vred_elements ht op, writesG_value ht rfl (extendTy_eq ..),
    vcvt_elements ht, vcvt_invalidKey ht⟩
  case vperm =>
    dsimp only
    split
    · exact elem_mod ..
    · exact Nat.zero_mod _
  case vins =>
    split
    · exact Nat.mod_mod ..
    · exact elem_mod ..

end Sys2Proof.Machine
end

section
/-! PROOFS. Addresses and the memory of pots (R113, R116, R137, R145, R146, R203, R338): the checks that an access makes in order,
what loads and stores of a pot wait for, read and change, and which watchpoint an access matches. -/

namespace Sys2Proof.Machine

open Sys2Proof

/-! ## The checks on an effective address (R113) -/

section
variable {s : State} {t : Thread} {ea : Word} {width : Nat} {acc : Access}

theorem resolve_misaligned (ha : ea.toNat % width ≠ 0) : resolve s t ea width acc = .error .align := if_pos ha

/-- The checks on a pot address, in the fields of the address (R113). -/
theorem resolve_potAddress (ha : ea.toNat % width = 0) (hp : ea.getLsbD 63 = true) :
    resolve s t ea width acc =
      let lc := 128 * (t.lcore / 128) + (ea.extractLsb 29 23).toNat
      let pot := (ea.extractLsb 22 17).toNat
      if ea.extractLsb 62 30 ≠ 0 ∨ 47 < pot then .error .potrange
      else if (s.lct lc).allocated = false ∨ (s.lct lc).ctx.toNat ≠ t.ctx then .error .protect
      else if isScratch (s.tile { core := s.phys lc, tile := potTile pot }) = false then .error .potrange
      else .ok (.pot (s.phys lc) (ea.extractLsb 22 0).toNat, s) := by
  have hbit : bit ea 63 = true := (bit_eq ea 63).trans hp
  rw [resolve, if_neg (not_not.2 ha), if_pos hbit]
  simp only [ne_eq, bits_zero ea 62 30, bits_extract ea 22 17, bits_extract ea 29 23, bits_extract ea 22 0, potCore,
    Bool.not_eq_true']

section
variable (ha : ea.toNat % width = 0) (hg : ea.getLsbD 63 = false)
include ha hg

theorem resolve_reserved (hz : ea.extractLsb 62 52 ≠ 0) : resolve s t ea width acc = .error .protect := by
  rw [resolve, if_neg (not_not.2 ha), if_neg (by rw [bit_eq, hg]; exact Bool.false_ne_true), if_pos (mt (bits_zero ..).1 hz)]

variable {s' : State} {presence : Bool} (hz : ea.extractLsb 62 52 = 0)
include hz

theorem resolve_translated {pa : Nat} (ht : translate s t.ctx ea.toNat acc (!t.system) = (.ok pa, presence, s')) :
    resolve s t ea width acc = .ok (.glob pa presence, s') := by
  rw [Thread.system] at ht
  rw [resolve, if_neg (not_not.2 ha), if_neg (by rw [bit_eq, hg]; exact Bool.false_ne_true),
    if_neg (not_not.2 ((bits_zero ..).2 hz)), ht]

theorem resolve_unmapped {protect : Bool} {reason level : Nat}
    (ht : translate s t.ctx ea.toNat acc (!t.system) = (.fail protect reason level, presence, s')) :
    resolve s t ea width acc = .error (if protect then .protect else .page) := by
  rw [Thread.system] at ht
  rw [resolve, if_neg (not_not.2 ha), if_neg (by rw [bit_eq, hg]; exact Bool.false_ne_true),
    if_neg (not_not.2 ((bits_zero ..).2 hz)), ht]
  rfl

end
end

/-! ## Instructions whose address fails a check (R113, R137) -/

theorem exec_ldw (size : BitVec 3) (d base : GReg) (off : BitVec 11) (s : State) :
    exec (.ldw size d base off) s = execLdw size d base off s := by rfl

theorem exec_ldc (size : BitVec 3) (d base : GReg) (off : BitVec 11) (s : State) :
    exec (.ldc size d base off) s = execLdc size d base off s := by rfl

theorem exec_stf (size : BitVec 3) (d base : GReg) (off : BitVec 11) (s : State) :
    exec (.stf size d base off) s = execStf size d base off s := by rfl

theorem exec_clrf (base : GReg) (off : BitVec 11) (s : State) : exec (.clrf base off) s = execClrf base off s := by rfl

section
variable {s : State} {t : Thread} {ea : Word} {n : Nat} {acc : Access} {c : Cause}

theorem loadBytes_unlocated (h : resolve s t ea n .read = .error c) (q : LdQual) :
    loadBytes s t ea n q = .error (.trap c ea) := by
  simp [loadBytes, located_error h]

theorem storeBytes_unlocated {b : List Byte} (hb : b.length = n) (h : resolve s t ea n .write = .error c) (q : StQual) :
    storeBytes s t ea b q = .error (.trap c ea) := by
  simp [storeBytes, located_error (hb ▸ h)]

theorem loadFull_unlocated {consume : Bool} (h : resolve s t ea n (if consume then .atomic else .read) = .error c) :
    loadFull s t ea n consume = .error (.trap c ea) := by
  simp [loadFull, located_error h]

theorem storeFull_unlocated {b : List Byte} (hb : b.length = n) (h : resolve s t ea n .write = .error c) :
    storeFull s t ea b = .error (.trap c ea) := by
  simp [storeFull, located_error (hb ▸ h)]

theorem clearFull_unlocated (h : resolve s t ea 1 .write = .error c) : clearFull s t ea = .error (.trap c ea) := by
  simp [clearFull, located_error h]

/-- An instruction whose access is refused traps, whatever it would do with the access. -/
theorem traps_of_access {α : Type} {i : Instr} {f : State → Thread → Except Stop Effect} {r : Except Stop α} {g : α → Effect}
    {v : Word} (ht : Issues s t) (hn : t.inTrap = false) (hi : exec i s = perform s f) (hf : f s t = r.map g)
    (hr : r = .error (.trap c v)) : Traps s t i c v :=
  traps_of_perform hi ht hn (by rw [hf, hr]; rfl)

end

/-- Settles O7: the fields that each check reads, in order; then each instruction by the access that it makes. -/
theorem addressChecksAreOrderedAndTrapWithTheAddress : Obligations.AddressChecksAreOrderedAndTrapWithTheAddress := by
  unfold Obligations.AddressChecksAreOrderedAndTrapWithTheAddress
  constructor
  · intro s t ea width acc lc e pot scratch
    refine ⟨resolve_misaligned, fun ha hp => ?pot, fun ha hg => ⟨resolve_reserved ha hg, fun hz presence s' =>
      ⟨fun pa => resolve_translated ha hg hz, fun protect reason level => resolve_unmapped ha hg hz⟩⟩⟩
    case pot =>
      rw [resolve_potAddress ha hp]
      refine ⟨fun h => if_pos h, fun hz hpot => ?_⟩
      rw [if_neg (not_or.2 ⟨not_not.2 hz, not_lt.2 hpot⟩)]
      refine ⟨fun h => if_pos h, fun hal hctx => ?_⟩
      rw [if_neg (not_or.2 ⟨ne_false_of_eq_true hal, not_not.2 hctx⟩)]
      exact ⟨fun h => if_pos h, fun h => if_neg (ne_false_of_eq_true h)⟩
  · intro s t ql qs op ord ty size d base b v off c ht hn at_ n
    refine ⟨fun h => ⟨?_, ?_⟩, fun h => ⟨?_, ?_⟩, fun h => ?_, fun h => ?_, fun h => ?_, fun h => ?_, fun h => ?_⟩
    · exact traps_of_access ht hn (exec_ld ..) rfl (loadBytes_unlocated h ql)
    · exact traps_of_access ht hn (exec_ldw ..) rfl (loadFull_unlocated h)
    · exact traps_of_access ht hn (exec_st ..) rfl (storeBytes_unlocated (leBytes_length ..) h qs)
    · exact traps_of_access ht hn (exec_stf ..) rfl (storeFull_unlocated (leBytes_length ..) h)
    · exact traps_of_access ht hn (exec_ldc ..) rfl (loadFull_unlocated h)
    · exact traps_of_access ht hn (exec_clrf ..) rfl (clearFull_unlocated h)
    · exact traps_of_access ht hn (exec_ldv ..) rfl (loadBytes_unlocated h ql)
    · exact traps_of_access ht hn (exec_stv ..) rfl (storeBytes_unlocated (tokBytes_length _) h qs)
    · exact traps_of_perform (exec_amo ..) ht hn (by simp [atomWidth, located_error h])

end Sys2Proof.Machine
end

section
/-! PROOFS. Loads and stores of pots (R116, R137, R145, R146, R203, R338): what they wait for, read and change, and which watchpoint
an access matches. -/

namespace Sys2Proof.Machine

open Sys2Proof

/-! ## What an access waits for (R338) -/

section
variable {s : State} {t : Thread}

theorem released_undrained (h : hasStores s (s.coreOf t) s.cur = true) : released s t = .error (.wait .storeBuffer s) := by
  simp [released, drained_wait h]

theorem released_unanswered (h : hasStores s (s.coreOf t) s.cur = false) (hp : t.remotePending ≠ []) :
    released s t = .error (.wait .remote s) := by
  simp [released, drained_ok h, hp]

theorem released_settled (h : hasStores s (s.coreOf t) s.cur = false) (hp : t.remotePending = []) : released s t = .ok () := by
  simp [released, drained_ok h, hp]

theorem afterReleases_free (h : hasReleases s (s.coreOf t) s.cur = false) : afterReleases s t = .ok () := by
  simp [afterReleases, h]

theorem afterReleases_held (h : hasReleases s (s.coreOf t) s.cur = true) :
    afterReleases s t = .error (.wait .storeBuffer s) := by
  simp [afterReleases, h]

end

/-! ## Loads (R116, R338) -/

section
variable {s : State} {t : Thread}

/-- The state that a load of a pot leaves: an acquire empties the read buffer (R114). -/
def potLoadState (s : State) (t : Thread) (q : LdQual) : State := if q = .acq then acquireFor s t else s

@[simp] theorem potLoadState_mem (q : LdQual) : (potLoadState s t q).mem = s.mem := by
  unfold potLoadState; split <;> rfl

@[simp] theorem potLoadState_threads (q : LdQual) : (potLoadState s t q).threads = s.threads := by
  unfold potLoadState; split <;> rfl

@[simp] theorem potLoadState_pots (q : LdQual) (c : Nat) : ((potLoadState s t q).core c).pots = (s.core c).pots := by
  unfold potLoadState
  split
  · exact acquireFor_pots ..
  · rfl

variable {ea : Word} {n core a : Nat} {q : LdQual}

/-- What an instruction that loads from a pot does: it waits, completes, or takes POISON (R116, R137, R203, R338). -/
theorem potLoad_cases {i : Instr} {f : State → Thread → Except Stop Effect} {g : List Byte → Thread → Thread} (ht : Issues s t)
    (hr : resolve s t ea n .read = .ok (.pot core a, s)) (hi : exec i s = perform s f)
    (hf : f s t = (loadBytes s t ea n q).map fun r => { Effect.onRegs r.2 t (g r.1) with watch := some (ea, n, .load) })
    (hg : ∀ b x, (g b x).status = x.status) :
    (¬hasReleases s (s.coreOf t) s.cur = false → Waits s i s .storeBuffer) ∧
    (hasReleases s (s.coreOf t) s.cur = false → s.potPoison core a n = none →
      CompletesAccess s t i ea.toNat n .load (potLoadState s t q) (g (mreads (s.core core).pots a n))) ∧
    (∀ k, hasReleases s (s.coreOf t) s.cur = false → s.potPoison core a n = some k → t.inTrap = false →
      Traps s t i .poison (w64 (ea.toNat + 16 * k - a))) := by
  refine ⟨fun h => waits_of_perform hi ht ?_, fun h hp => completesAccess_of_perform hi ht (x := t) ?_ ?_ fun hn => ?_,
    fun k h hp hn => traps_of_access ht hn hi hf ?_⟩
  · have hb : loadBytes s t ea n q = .error (.wait .storeBuffer s) := by
      simp [loadBytes, located_ok hr, loadHold, afterReleases_held (Bool.not_eq_false _ ▸ h)]
    rw [hf, hb]; rfl
  · have hb : loadBytes s t ea n q = .ok (mreads (s.core core).pots a n, potLoadState s t q) := by
      simp [loadBytes, located_ok hr, loadHold, afterReleases_free h, peek, hp, State.potRead, potLoadState]
    rw [hf, hb]; rfl
  · exact (congrArg (tget · s.cur) (potLoadState_threads q)).trans ht
  · rw [Thread.inTrap, hg]; exact hn
  · simp [loadBytes, located_ok hr, loadHold, afterReleases_free h, peek, hp, trapWith]

end

/-! ## Watchpoints (R145, R146) -/

section
variable {mask : Word} {x m : Nat} {k : WatchKind}

/-- A watchpoint matches an access: its mask selects the access's kind, and an armed byte of its doubleword lies in the access. -/
theorem watchHits_iff {addr : Word} {selects : Prop} (hk : maskSelects mask k = true ↔ mask.getLsbD 10 = true ∧ selects) :
    watchHits addr mask x m k = true ↔ mask.getLsbD 10 = true ∧ selects ∧
      ∃ b, b < 8 ∧ mask.getLsbD b = true ∧ x ≤ addr.toNat / 8 * 8 + b ∧ addr.toNat / 8 * 8 + b < x + m := by
  simp only [watchHits, Bool.and_eq_true, List.any_eq_true, List.mem_range, decide_eq_true_eq, hk, bit_eq, and_assoc]

variable {t : Thread}

/-- The watchpoint i of a thread matches an access (R145). -/
def Thread.watches (t : Thread) (x m : Nat) (k : WatchKind) (i : Fin 4) : Bool :=
  watchHits t.watchAddr[i] t.watchMask[i] x m k

/-- The watchpoint that the search of R146 tries at a position is that of the thread's registers. -/
theorem watchHits_getD (i : Nat) (hi : i < 4) : watchHits (t.watchAddr.toList.getD i 0) (t.watchMask.toList.getD i 0) x m k =
    t.watches x m k ⟨i, hi⟩ := by
  simp [Thread.watches, hi]

theorem watchMatch_none_iff : watchMatch t x m k = none ↔ ∀ i, t.watches x m k i = false := by
  have hfind : watchMatch t x m k = none ↔ (List.range 4).find?
      (fun i => watchHits (t.watchAddr.toList.getD i 0) (t.watchMask.toList.getD i 0) x m k) = none := by
    unfold watchMatch
    split
    next h => simp only [h, reduceCtorEq]
    next h => simp only [h]
  rw [hfind, List.find?_range_eq_none, Fin.forall_iff]
  exact forall₂_congr fun i hi => by rw [watchHits_getD i hi, Bool.not_eq_true']

/-- The lowest watchpoint that matches gives WATCH its value: its doubleword, with its number (R146). -/
theorem watchMatch_first {i : Fin 4} (h : t.watches x m k i = true) (hlt : ∀ j < i, t.watches x m k j = false) :
    watchMatch t x m k = some (i.val, w64 (t.watchAddr[i].toNat / 8 * 8 + i)) := by
  have hfind : (List.range 4).find?
      (fun i => watchHits (t.watchAddr.toList.getD i 0) (t.watchMask.toList.getD i 0) x m k) = some i.val := by
    refine List.find?_range_eq_some.2 ⟨(watchHits_getD i.val i.isLt).trans h, List.mem_range.2 i.isLt, fun j hj => ?_⟩
    rw [watchHits_getD j (hj.trans i.isLt), hlt _ hj]
    rfl
  rw [watchMatch, hfind]
  simp

end

/-- Settles O8: LD and LDV are loads of a pot; the granules marked are found from the first on; the watchpoints are those of the
thread's registers. -/
theorem potLoadsReturnTheBytesThatStandThere : Obligations.PotLoadsReturnTheBytesThatStandThere := by
  unfold Obligations.PotLoadsReturnTheBytesThatStandThere
  intro s t q size d base v off core a ht n ea eav s1 free
  refine ⟨fun hr => ?_, fun hr => ?_, potLoadState_mem q, potLoadState_threads q, potLoadState_pots q, fun hq => ?_,
    fun m hm => ⟨find_granules_none hm, fun g => find_granules hm⟩, fun x m k => ?watch⟩
  · exact potLoad_cases (g := fun b r => writeG r d (loadValue (Decidable.decide (4 ≤ size.toNat)) b)) ht hr (exec_ld ..) rfl
      fun _ _ => writeG_status ..
  · exact potLoad_cases (g := fun b r => writeV r v (bytesTok b)) ht hr (exec_ldv ..) rfl fun _ _ => rfl
  · exact (congrArg (fun s' : State => (s'.core (s.coreOf t)).readBuf) (if_pos hq)).trans (acquireFor_readBuf s t)
  case watch =>
    intro hits
    have hwatch : ∀ i, t.watches x m k i = true ↔ hits i := fun i => by
      cases k <;> exact watchHits_iff (by simp [maskSelects, bit_eq])
    have hfree : ∀ i, t.watches x m k i = false ↔ ¬hits i := fun i => by rw [← hwatch, Bool.not_eq_true]
    exact ⟨watchMatch_none_iff.trans (forall_congr' hfree), fun i hi hlt =>
      watchMatch_first ((hwatch i).2 hi) fun j hj => (hfree j).2 (hlt j hj)⟩

/-! ## Stores (R116, R338) -/

section
variable {s : State} {t : Thread} {q : StQual}

/-- The stores that a store to a pot waits for have not all drained: a releasing one's are all of the thread's, a plain one's its
releasing ones (R338). -/
def potUndrained (s : State) (t : Thread) (q : StQual) : Bool :=
  if q = .rel then hasStores s (s.coreOf t) s.cur else hasReleases s (s.coreOf t) s.cur

variable {core a : Nat}

theorem storeHold_pot_undrained (h : potUndrained s t q = true) :
    storeHold s t (.pot core a) q = .error (.wait .storeBuffer s) := by
  cases q with
  | plain => exact afterReleases_held h
  | rel => exact released_undrained h

theorem storeHold_pot_unanswered (h : potUndrained s t q = false) (hq : q = .rel) (hp : t.remotePending ≠ []) :
    storeHold s t (.pot core a) q = .error (.wait .remote s) := by
  subst hq
  exact released_unanswered h hp

theorem storeHold_pot_free (h : potUndrained s t q = false) (hp : q = .rel → t.remotePending = []) :
    storeHold s t (.pot core a) q = .ok () := by
  cases q with
  | plain => exact afterReleases_free h
  | rel => exact released_settled h (hp rfl)

/-- What an instruction that stores to a pot does: it waits, or its bytes are written at once (R116, R338). -/
theorem potStore_cases {ea : Word} {b : List Byte} {n : Nat} {i : Instr} {f : State → Thread → Except Stop Effect}
    (ht : Issues s t) (hr : resolve s t ea n .write = .ok (.pot core a, s)) (hn : b.length = n) (hi : exec i s = perform s f)
    (hf : f s t = (storeBytes s t ea b q).map fun s => storeEffect s t ea n) :
    (potUndrained s t q = true → Waits s i s .storeBuffer) ∧
    (potUndrained s t q = false → q = .rel → t.remotePending ≠ [] → Waits s i s .remote) ∧
    (potUndrained s t q = false → (q = .rel → t.remotePending = []) →
      CompletesAccess s t i ea.toNat n .store (potStore s core a b) id) := by
  have hl := located_ok (hn ▸ hr)
  refine ⟨fun h => waits_of_perform hi ht ?_, fun h hq hp => waits_of_perform hi ht ?_,
    fun h hp => completesAccess_of_perform hi ht (x := t) ?_ ((potStore_thread ..).trans ht) id⟩
  · rw [hf, show storeBytes s t ea b q = .error (.wait .storeBuffer s) by
      simp [storeBytes, hl, storeHold_pot_undrained h]]
    rfl
  · rw [hf, show storeBytes s t ea b q = .error (.wait .remote s) by
      simp [storeBytes, hl, storeHold_pot_unanswered h hq hp]]
    rfl
  · rw [hf, show storeBytes s t ea b q = .ok (potStore s core a b) by
      simp [storeBytes, hl, storeHold_pot_free h hp]]
    rfl

end

/-- Settles O10: ST and STV are stores to a pot; a store to a pot writes its bytes in that pot. -/
theorem potStoresChangeExactlyTheirBytes : Obligations.PotStoresChangeExactlyTheirBytes := by
  unfold Obligations.PotStoresChangeExactlyTheirBytes
  intro s t q size d base v off core a ht n ea eav undrained
  refine ⟨fun hr => ?_, fun hr => ?_, fun bytes hwf => ⟨potStore_mem .., potStore_threads .., ?_, ?_,
    pots_potStore s core a bytes hwf⟩⟩
  · exact potStore_cases ht hr (leBytes_length ..) (exec_st ..) rfl
  · exact potStore_cases ht hr (tokBytes_length _) (exec_stv ..) rfl
  · rw [potStore_frame]; rfl
  · rw [potStore_frame]; rfl

end Sys2Proof.Machine
end

section
/-! PROOFS. Full/empty accesses (R117, R137, R146, R311, R312, R338): what LDW, LDC, STF and CLRF do at a granule of a pot and of
global memory, and where the presence bit of a granule lies. -/

namespace Sys2Proof.Machine

open Sys2Proof

/-! ## LDW and LDC (R117, R312, R338) -/

/-- LDC, which empties its granule, or LDW (R117). -/
def loadWhenFull (consume : Bool) (size : BitVec 3) (d base : GReg) (off : BitVec 11) : Instr :=
  cond consume (.ldc size d base off) (.ldw size d base off)

theorem exec_loadWhenFull (consume : Bool) (size : BitVec 3) (d base : GReg) (off : BitVec 11) (s : State) :
    exec (loadWhenFull consume size d base off) s = perform s fun s t =>
      (loadFull s t (effAddr t base off (sizeWidth size)) (sizeWidth size) consume).map fun r =>
        { Effect.onRegs r.2 t (fun x => writeG x d (loadValue (sizeSigned size) r.1)) with
          watch := some (effAddr t base off (sizeWidth size), sizeWidth size, cond consume .both .load) } := by
  cases consume <;> rfl

/-- The state after a full granule has been read: the thread's turns are over, and its read buffer is empty; LDC leaves the granule
empty (R114, R117). -/
def tookState (s : State) (t : Thread) (loc : Loc) (consume : Bool) : State :=
  let s1 := rimRoom (clearTurns s s.cur)
  acquireFor (if consume then putFull s1 loc false else s1) t

@[simp] theorem putFull_thread (s : State) (loc : Loc) (b : Bool) (n : Nat) : (putFull s loc b).thread? n = s.thread? n := by
  cases loc <;> rfl

@[simp] theorem tookState_thread (s : State) (t : Thread) (loc : Loc) (consume : Bool) (n : Nat) :
    (tookState s t loc consume).thread? n = s.thread? n := by
  unfold tookState
  rw [acquireFor_thread]
  split
  · exact putFull_thread ..
  · rfl

/-- A read that waits at its granule: that is empty, or an earlier LDC is to empty it (R117). -/
def MustWait (s : State) (loc : Loc) (full consume : Bool) : Prop := full = false ∨ consume = true ∧ outOfTurn s loc = true

theorem mustWait_iff {s : State} {loc : Loc} {full consume : Bool} :
    MustWait s loc full consume ↔ (!full || (consume && outOfTurn s loc)) = true := by
  simp [MustWait]

section
variable {s s1 : State} {t : Thread} {size : BitVec 3} {d base : GReg} {off : BitVec 11} {ea : Word} {n : Nat} {loc : Loc}
  {consume : Bool} (hr : resolve s t ea n (if consume then .atomic else .read) = .ok (loc, s1))
include hr

/-- A page that keeps no presence bits refuses the access (R117). -/
theorem loadFull_refused {e : Stop} (hf : isFull s1 ea loc = .error e) : loadFull s t ea n consume = .error e := by
  simp only [loadFull, located_ok hr, hf]

variable (ht : Issues s t) (hea : ea = effAddr t base off (sizeWidth size)) (hn : n = sizeWidth size)
include ht hea hn

theorem loadWhenFull_refused {c : Cause} {v : Word} (hf : isFull s1 ea loc = .error (.trap c v)) (ho : t.inTrap = false) :
    Traps s t (loadWhenFull consume size d base off) c v := by
  subst hea hn
  exact traps_of_access ht ho (exec_loadWhenFull ..) rfl (loadFull_refused hr hf)

/-- What LDW and LDC do: they wait for stores, wait in turn at the granule or before its rim die, or read (R117, R312, R338). -/
theorem loadWhenFull_cases {full : Bool} (hf : isFull s1 ea loc = .ok full) :
    (∀ r, fullHold s1 t loc = .error (.wait r s1) → Waits s (loadWhenFull consume size d base off) s1 r) ∧
    (fullHold s1 t loc = .ok () →
      (∀ b, ¬MustWait s1 loc full consume → peek s1 ea loc n = .ok b →
        CompletesAccess s t (loadWhenFull consume size d base off) ea.toNat n (cond consume .both .load) (tookState s1 t loc consume)
          (fun x => writeG x d (loadValue (sizeSigned size) b))) ∧
      (MustWait s1 loc full consume →
        (rimHold s1 loc = none →
          Waits s (loadWhenFull consume size d base off) (takeTurn s1 t ea loc consume) (granuleWait loc)) ∧
        ∀ r, rimHold s1 loc = some r → Waits s (loadWhenFull consume size d base off) s1 (.rim r))) := by
  subst hea hn
  have hl := located_ok hr
  refine ⟨fun r hh => waits_of_perform (exec_loadWhenFull ..) ht ?_, fun hh =>
    ⟨fun b hw hp => completesAccess_of_perform (x := t) (exec_loadWhenFull ..) ht ?_ ?_ fun ho => ?_,
      fun hw => ⟨fun hroom => waits_of_perform (exec_loadWhenFull ..) ht ?_,
        fun r hroom => waits_of_perform (exec_loadWhenFull ..) ht ?_⟩⟩⟩
  · simp only [loadFull, hl, hf, hh]; rfl
  · simp only [loadFull, hl, hf, hh, if_neg (mt mustWait_iff.2 hw), hp]; rfl
  · rw [tookState_thread]; exact (resolve_thread hr s.cur).trans ht
  · rw [Thread.inTrap, writeG_status]; exact ho
  · simp only [loadFull, hl, hf, hh, if_pos (mustWait_iff.1 hw), hroom]; rfl
  · simp only [loadFull, hl, hf, hh, if_pos (mustWait_iff.1 hw), hroom]; rfl

end

/-! ## STF and CLRF (R117, R338) -/

/-- A fill of a presence granule changes memory, the rim dies and the wake words (R311, R312). -/
theorem fillPresent_frame (s : State) (pa : Nat) : fillPresent s pa = { s with
    mem := (setPresent s pa true).mem, rims := (fillPresent s pa).rims, wakes := (fillPresent s pa).wakes } := by
  unfold fillPresent wakePresent
  dsimp only
  rw [wakeWhere_frame, foldl_wakes _ (fun s (w : Waiter) => wakeOne_frame s w.tid _)]
  rfl

@[simp] theorem fillLoc_thread (s : State) (loc : Loc) (n : Nat) : (fillLoc s loc).thread? n = s.thread? n := by
  cases loc with
  | pot core a => show (s.fill core a).thread? n = _; rw [fill_frame]; rfl
  | glob pa presence => show (fillPresent s pa).thread? n = _; rw [fillPresent_frame]; rfl

/-- The state with bytes written at a location at once (R117). -/
def writtenAt (s : State) (t : Thread) (ea : Word) (b : List Byte) : Loc → State
  | .pot core a => potStore s core a b
  | .glob pa _ => writeThrough s (s.coreOf t) t.ctx ea.toNat pa b

@[simp] theorem writtenAt_thread (s : State) (t : Thread) (ea : Word) (b : List Byte) (loc : Loc) (n : Nat) :
    (writtenAt s t ea b loc).thread? n = s.thread? n := by
  cases loc with
  | pot core a => exact potStore_thread ..
  | glob pa presence => rfl

section
variable {s s1 : State} {t : Thread} {size : BitVec 3} {d base : GReg} {off : BitVec 11} {ea : Word} {n : Nat} {loc : Loc}
  (ht : Issues s t)
include ht

section
variable (hea : ea = effAddr t base off (sizeWidth size)) (hn : n = sizeWidth size) (hr : resolve s t ea n .write = .ok (loc, s1))
include hea hn hr

theorem stf_refused {c : Cause} {v : Word} (hf : isFull s1 ea loc = .error (.trap c v)) (ho : t.inTrap = false) :
    Traps s t (.stf size d base off) c v := by
  subst hea hn
  have hl : located s t _ (leBytes (sizeWidth size) (readG t d).toNat).length .write = .ok (loc, s1) :=
    located_ok (by rwa [leBytes_length])
  exact traps_of_access ht ho (exec_stf ..) rfl (by simp only [storeFull, storeData, hl, hf])

/-- What STF does: it waits for the thread's stores and then for its remote operations, or writes and fills (R117, R338). -/
theorem stf_cases {full : Bool} (hf : isFull s1 ea loc = .ok full) :
    (hasStores s1 (s1.coreOf t) s1.cur = true → Waits s (.stf size d base off) s1 .storeBuffer) ∧
    (hasStores s1 (s1.coreOf t) s1.cur = false → t.remotePending ≠ [] → Waits s (.stf size d base off) s1 .remote) ∧
    (hasStores s1 (s1.coreOf t) s1.cur = false → t.remotePending = [] →
      CompletesAccess s t (.stf size d base off) ea.toNat n .store
        (fillLoc (writtenAt s1 t ea (leBytes n (readG t d).toNat) loc) loc) id) := by
  subst hea hn
  have hl : located s t _ (leBytes (sizeWidth size) (readG t d).toNat).length .write = .ok (loc, s1) :=
    located_ok (by rwa [leBytes_length])
  refine ⟨fun h => waits_of_perform (exec_stf ..) ht ?_, fun h hp => waits_of_perform (exec_stf ..) ht ?_,
    fun h hp => completesAccess_of_perform (x := t) (exec_stf ..) ht ?_ ?_ id⟩
  · simp only [storeFull, storeData, hl, hf, released_undrained h]; rfl
  · simp only [storeFull, storeData, hl, hf, released_unanswered h hp]; rfl
  · cases loc <;> simp only [storeFull, storeData, hl, hf, released_settled h hp] <;> rfl
  · rw [fillLoc_thread, writtenAt_thread]; exact (resolve_thread hr s.cur).trans ht

end

section
variable (hr : resolve s t (effAddr t base off 1) 1 .write = .ok (loc, s1))
include hr

theorem clrf_refused {c : Cause} {v : Word} (hf : isFull s1 (effAddr t base off 1) loc = .error (.trap c v))
    (ho : t.inTrap = false) : Traps s t (.clrf base off) c v :=
  traps_of_access ht ho (exec_clrf ..) rfl (by simp only [clearFull, located_ok hr, hf])

/-- CLRF empties its granule and waits for nothing (R117). -/
theorem clrf_empties {full : Bool} (hf : isFull s1 (effAddr t base off 1) loc = .ok full) :
    CompletesAccess s t (.clrf base off) (effAddr t base off 1).toNat 1 .store (putFull s1 loc false) id := by
  refine completesAccess_of_perform (x := t) (exec_clrf ..) ht ?_ ?_ id
  · simp only [clearFull, located_ok hr, hf]; rfl
  · rw [putFull_thread]; exact (resolve_thread hr s.cur).trans ht

end
end

/-! ## Presence bits (R311) -/

/-- Bits of a number after one that is clear has been set. -/
theorem testBit_add_two_pow {n i : Nat} (h : n.testBit i = false) (j : Nat) :
    (n + 2 ^ i).testBit j = (Decidable.decide (j = i) || n.testBit j) := by
  rcases lt_trichotomy j i with hj | rfl | hj
  · rw [Nat.add_comm, Nat.testBit_two_pow_add_gt hj, decide_eq_false hj.ne, Bool.false_or]
  · rw [Nat.add_comm, Nat.testBit_two_pow_add_eq, h, decide_eq_true rfl]; rfl
  · obtain ⟨k, rfl⟩ := Nat.exists_eq_add_of_lt hj
    have heven : n / 2 ^ i % 2 ≠ 1 := by simpa [Nat.testBit_eq_decide_div_mod_eq] using h
    have hhalf : (n / 2 ^ i + 1) / 2 = n / 2 ^ i / 2 := by omega
    have habove (x : Nat) : x.testBit (i + k + 1) = (x / 2 ^ i / 2).testBit k := by
      rw [Nat.add_right_comm, Nat.add_comm, Nat.add_comm i, ← Nat.testBit_succ, Nat.testBit_div_two_pow]
      congr 1; omega
    rw [decide_eq_false (by omega), Bool.false_or, habove, habove, Nat.add_div_right _ (Nat.two_pow_pos i), hhalf]

/-- One bit of a number written, the others kept: what a write of a presence bit makes of its byte. -/
def putBit (n i : Nat) (b : Bool) : Nat :=
  if b then (if n / 2 ^ i % 2 = 1 then n else n + 2 ^ i) else if n / 2 ^ i % 2 = 1 then n - 2 ^ i else n

theorem testBit_putBit (n i j : Nat) (b : Bool) : (putBit n i b).testBit j = if j = i then b else n.testBit j := by
  have hon : (n / 2 ^ i % 2 = 1) = (n.testBit i = true) := by rw [Nat.testBit_eq_decide_div_mod_eq, decide_eq_true_eq]
  simp only [putBit, hon]
  cases hi : n.testBit i with
  | false =>
    cases b with
    | false => by_cases hj : j = i <;> simp [hj, hi]
    | true => by_cases hj : j = i <;> simp [hj, testBit_add_two_pow hi]
  | true =>
    cases b with
    | true => by_cases hj : j = i <;> simp [hj, hi]
    | false =>
      obtain ⟨m, rfl⟩ := Nat.exists_eq_add_of_le' (Nat.ge_two_pow_of_testBit hi)
      have hm : m.testBit i = false := by simpa [Nat.add_comm m, Nat.testBit_two_pow_add_eq] using hi
      by_cases hj : j = i <;> simp [hj, hm, testBit_add_two_pow hm]

theorem present_eq (s : State) (pa : Nat) :
    present s pa = (mread s.mem (presenceBit s pa).1).toNat.testBit (presenceBit s pa).2 :=
  (Nat.testBit_eq_decide_div_mod_eq ..).symm

theorem setPresent_mem (s : State) (pa : Nat) (b : Bool) : (setPresent s pa b).mem = mwrite s.mem (presenceBit s pa).1
    (BitVec.ofNat 8 (putBit (mread s.mem (presenceBit s pa).1).toNat (presenceBit s pa).2 b)) := rfl

/-- Each granule has a presence bit of its own (R311). -/
theorem presenceBit_inj (s : State) (p q : Nat) :
    ((presenceBit s q).1 = (presenceBit s p).1 ∧ (presenceBit s q).2 = (presenceBit s p).2) ↔ q / 16 = p / 16 := by
  simp only [presenceBit]
  omega

/-- A write of a presence bit is read back for its granule, and for no other (R311). -/
theorem present_setPresent {s : State} (h : s.mem.wf = true) (p q : Nat) (b : Bool) :
    present (setPresent s p b) q = if q / 16 = p / 16 then b else present s q := by
  rw [present_eq, present_eq, show presenceBit (setPresent s p b) q = presenceBit s q from rfl, setPresent_mem,
    mread_mwrite _ _ _ h]
  simp only [← presenceBit_inj s p q]
  by_cases ha : (presenceBit s q).1 = (presenceBit s p).1
  · have hlt : (presenceBit s q).2 < 8 := Nat.mod_lt _ (by decide)
    rw [if_pos ha, BitVec.toNat_ofNat, Nat.testBit_mod_two_pow, decide_eq_true hlt, Bool.true_and, testBit_putBit, ha]
    simp
  · rw [if_neg ha, if_neg fun h => ha h.1]

theorem nsMem_setFull (s : State) (core a : Nat) (b : Bool) (g : Nat) :
    nsMem ((s.setFull core a b).core core).full g = if g = a / 16 then b else nsMem (s.core core).full g := by
  rw [State.setFull, State.core_modCore_same]
  cases b <;> by_cases hg : g = a / 16 <;> simp [nsPut, hg]

/-- Settles O13: each instruction by its cases, for a granule of a pot and for one of global memory. -/
theorem fullEmptyAccessesActOnTheirGranule : Obligations.FullEmptyAccessesActOnTheirGranule := by
  unfold Obligations.FullEmptyAccessesActOnTheirGranule
  constructor
  · intro s t size d base off core a ht n ea ea1 full value took
    have hfull : isFull s ea (.pot core a) = .ok full := rfl
    have hread {b : List Byte} (hp : s.potPoison core a n = none) (hb : mreads (s.core core).pots a n = b) :
        peek s ea (.pot core a) n = .ok b := by
      simp [peek, hp, State.potRead, hb]
    have ldw := fun hr => loadWhenFull_cases (consume := false) (d := d) hr ht rfl rfl hfull
    have ldc := fun hr => loadWhenFull_cases (consume := true) (d := d) hr ht rfl rfl hfull
    refine ⟨fun h => ⟨fun hr => (ldw hr).1 _ (afterReleases_held h), fun hr => (ldc hr).1 _ (afterReleases_held h)⟩,
      fun hr h => ⟨fun hf hp => ?_, fun hf => ?_⟩, fun hr h => ⟨fun hf ho hp => ?_, fun hf => ?_⟩, fun hr => ?_, fun hr => ?_,
      fun g b => nsMem_setFull s core a b g⟩
    · exact ((ldw hr).2 (afterReleases_free h)).1 _ (by simp [MustWait, hf]) (hread hp rfl)
    · exact (((ldw hr).2 (afterReleases_free h)).2 (.inl hf)).1 rfl
    · exact ((ldc hr).2 (afterReleases_free h)).1 _ (by simp [MustWait, hf, ho]) (hread hp rfl)
    · exact (((ldc hr).2 (afterReleases_free h)).2 (hf.imp_right fun ho => ⟨rfl, ho⟩)).1 rfl
    · obtain ⟨hheld, hunanswered, hdone⟩ := stf_cases (d := d) ht rfl rfl hr hfull
      exact ⟨hdone, hunanswered, hheld⟩
    · exact clrf_empties ht hr rfl
  · intro s s1 t size d base off pa ht n ea ea1 loc value took drained
    have hfull : isFull s1 ea loc = .ok (present s1 pa) := rfl
    have hread {b : List Byte} (hp : s1.poisonAt pa n = none) (hb : mreads s1.mem pa n = b) : peek s1 ea loc n = .ok b := by
      simp [loc, peek, hp, State.readMem, hb]
    have ldw := fun hr => loadWhenFull_cases (consume := false) (d := d) hr ht rfl rfl hfull
    have ldc := fun hr => loadWhenFull_cases (consume := true) (d := d) hr ht rfl rfl hfull
    refine ⟨fun ho => ⟨fun hr => ?_, fun hr => ?_, fun hr => ?_, fun hr => ?_⟩,
      fun hr => ⟨fun h => ?_, fun h hf hp => ?_, fun h hf => ?_⟩,
      fun hr => ⟨fun h => ?_, fun h hf hturn hp => ?_, fun h hf => ?_⟩, fun hr => ?_, fun hr => ?_, fun hwf b q => ?_⟩
    · exact loadWhenFull_refused (consume := false) hr ht rfl rfl rfl ho
    · exact loadWhenFull_refused (consume := true) hr ht rfl rfl rfl ho
    · exact stf_refused ht rfl rfl hr rfl ho
    · exact clrf_refused ht hr rfl ho
    · exact (ldw hr).1 _ (drained_wait (Bool.not_eq_false _ ▸ h))
    · exact ((ldw hr).2 (drained_ok h)).1 _ (by simp [MustWait, hf]) (hread hp rfl)
    · exact ((ldw hr).2 (drained_ok h)).2 (.inl hf)
    · exact (ldc hr).1 _ (drained_wait (Bool.not_eq_false _ ▸ h))
    · exact ((ldc hr).2 (drained_ok h)).1 _ (by simp [MustWait, hf, hturn]) (hread hp rfl)
    · exact ((ldc hr).2 (drained_ok h)).2 (hf.imp_right fun ho => ⟨rfl, ho⟩)
    · obtain ⟨hheld, hunanswered, hdone⟩ := stf_cases (d := d) ht rfl rfl hr hfull
      exact ⟨fun h => hheld (Bool.not_eq_false _ ▸ h), hunanswered, hdone⟩
    · exact clrf_empties ht hr rfl
    · exact present_setPresent hwf pa q b

end Sys2Proof.Machine
end

section
/-! PROOFS. Atomics of global memory, fences and remote operations (R113, R118 to R120, R137, R146, R303, R338): what each waits for,
what it leaves to the memory side or sends, and what the memory side performs. -/

namespace Sys2Proof.Machine

open Sys2Proof

/-! ## AMO on a global address (R118, R338) -/

/-- The check that an atomic of global memory makes before it goes to the memory side (R338). -/
def globalHold (s : State) (t : Thread) (ord : MemOrder) : Except Stop Unit := if releases ord then released s t else drained s t

section
variable {s : State} {t : Thread} {ord : MemOrder}

theorem globalHold_undrained (h : hasStores s (s.coreOf t) s.cur = true) : globalHold s t ord = .error (.wait .storeBuffer s) := by
  unfold globalHold
  split
  · exact released_undrained h
  · exact drained_wait h

theorem globalHold_unanswered (h : hasStores s (s.coreOf t) s.cur = false) (hr : ord = .rel ∨ ord = .acqrel)
    (hp : t.remotePending ≠ []) : globalHold s t ord = .error (.wait .remote s) :=
  (if_pos (releases_iff.2 hr)).trans (released_unanswered h hp)

theorem globalHold_settled (h : hasStores s (s.coreOf t) s.cur = false) (hp : ord = .rel ∨ ord = .acqrel → t.remotePending = []) :
    globalHold s t ord = .ok () := by
  unfold globalHold
  split
  next hr => exact released_settled h (hp (releases_iff.1 hr))
  next => exact drained_ok h

end

section
variable {s s1 : State} {t : Thread} {op : AmoOp} {ord : MemOrder} {ty : Ty} {d a b : GReg} {pa : Nat} {presence : Bool}
  (ht : Issues s t) (hr : resolve s t (readG t a) (ty.width / 8) .atomic = .ok (.glob pa presence, s1))
include ht hr

theorem globalAmo_poisoned {g : Nat} (hp : s1.poisonAt pa (ty.width / 8) = some g) (hn : t.inTrap = false) :
    Traps s t (.amo op ord ty d a b) .poison (w64 ((readG t a).toNat + 16 * g - pa)) :=
  traps_of_perform (exec_amo ..) ht hn (by simp [atomWidth, located_ok hr, peek, hp, trapWith])

variable (hp : s1.poisonAt pa (ty.width / 8) = none)
include hp

theorem globalAmo_held {r : WaitReason} (hh : globalHold s1 t ord = .error (.wait r s1)) : Waits s (.amo op ord ty d a b) s1 r := by
  unfold globalHold at hh
  exact waits_of_perform (exec_amo ..) ht (by simp [atomWidth, located_ok hr, peek, hp, hh])

theorem globalAmo_queued (hh : globalHold s1 t ord = .ok ()) : Waits s (.amo op ord ty d a b)
    { s1 with atomics := s1.atomics ++
      [{ tid := s1.cur, pa := pa, va := readG t a, op := op, ty := ty, operand := readG t b, compare := readG t d,
         dest := d.toNat, ord := ord }] } .atomic := by
  unfold globalHold at hh
  exact waits_of_perform (exec_amo ..) ht (by simp [atomWidth, located_ok hr, peek, hp, hh])

end

/-! ## The memory-side unit (R118, R303) -/

/-- The pattern that stands where a queued atomic acts. -/
def AtomicReq.old (r : AtomicReq) (s : State) : Nat := leNat (mreads s.mem r.pa (r.ty.width / 8))

/-- The bytes that a queued atomic writes. -/
def AtomicReq.bytes (r : AtomicReq) (s : State) : List Byte :=
  leBytes (r.ty.width / 8) (amoNew r.op r.ty (r.old s) r.operand.toNat r.compare.toNat)

/-- The state with the k-th queued atomic performed, and its acquire (R114, R118). -/
def performedAtomic (s : State) (k : Nat) (r : AtomicReq) (t : Thread) : State :=
  let s1 := { s with atomics := s.atomics.eraseIdx k }
  let s2 := writeThrough s1 (s1.coreOf t) t.ctx r.va.toNat r.pa (r.bytes s)
  if acquires r.ord then acquire s2 (s2.coreOf t) r.tid else s2

/-- What its thread completes with: the old value, and the access that watchpoints see (R118, R146). -/
def atomicEffect (s : State) (k : Nat) (r : AtomicReq) (t : Thread) : Effect :=
  { Effect.onRegs (performedAtomic s k r t) t (fun x => writeG x (BitVec.ofNat 5 r.dest) (extendTy r.ty (r.old s))) with
    watch := some (r.va, r.ty.width / 8, .store) }

section
variable {s : State} {k : Nat} {r : AtomicReq} {t : Thread}

theorem performedAtomic_frame : performedAtomic s k r t = { s with
    atomics := s.atomics.eraseIdx k, mem := mwrites s.mem r.pa (r.bytes s), poison := (performedAtomic s k r t).poison,
    cores := (performedAtomic s k r t).cores } := by
  unfold performedAtomic
  dsimp only
  split <;> rfl

theorem exec_memoryAtomic (hk : s.atomics[k]? = some r) (ht : s.thread? r.tid = some t)
    (hp : s.poisonAt r.pa (r.ty.width / 8) = none) :
    exec (.memoryAtomic k) s = .next (finish r.tid t (atomicEffect s k r t)) := by
  have ht1 : ({ s with atomics := s.atomics.eraseIdx k } : State).thread? r.tid = some t := ht
  have hp1 : ({ s with atomics := s.atomics.eraseIdx k } : State).poisonAt r.pa (r.ty.width / 8) = none := hp
  show execMemoryAtomic k s = _
  simp only [execMemoryAtomic, atomWidth, hk, ht1, hp1]
  rfl

theorem performedAtomic_thread (n : Nat) : (performedAtomic s k r t).thread? n = s.thread? n := by
  rw [performedAtomic_frame]; rfl

/-- The memory-side unit writes the bytes of the operand that it was given, and its thread has the old value (R118). -/
theorem memoryAtomic_completes (hk : s.atomics[k]? = some r) (ht : s.thread? r.tid = some t)
    (hp : s.poisonAt r.pa (r.ty.width / 8) = none) (hwf : s.mem.wf = true)
    (hw : watchMatch t r.va.toNat (r.ty.width / 8) .store = none) :
    ∃ s', exec (.memoryAtomic k) s = .next s' ∧ s'.atomics = s.atomics.eraseIdx k ∧
      s'.thread? r.tid = some (advance (writeG t (BitVec.ofNat 5 r.dest) (extendTy r.ty (r.old s))) (t.pc + 4)) ∧
      (∀ x, mread s'.mem x =
        if r.pa ≤ x ∧ x < r.pa + r.ty.width / 8 then (r.bytes s).getD (x - r.pa) 0 else mread s.mem x) ∧
      (∀ m, m ≠ r.tid → s'.thread? m = s.thread? m) := by
  have hafter : afterTrap t (atomicEffect s k r t) = none := by simp [afterTrap, atomicEffect, Effect.onRegs, hw]
  refine ⟨_, exec_memoryAtomic hk ht hp, ?_, ?_, fun x => ?_, fun m hm => ?_⟩ <;> rw [finish_eq hafter]
  · rw [chargeQueue_frame]
    exact (State.modThread_atomics ..).trans (congrArg State.atomics performedAtomic_frame)
  · rw [chargeQueue_thread, State.thread_modThread_same, atomicEffect]
    exact congrArg (Option.map _) ((performedAtomic_thread _).trans ht)
  · have hmem : (performedAtomic s k r t).mem = mwrites s.mem r.pa (r.bytes s) := congrArg State.mem performedAtomic_frame
    rw [chargeQueue_mem, State.modThread_mem, atomicEffect, Effect.onRegs, hmem, mread_mwrites _ _ _ hwf, AtomicReq.bytes,
      leBytes_length]
  · rw [chargeQueue_thread, State.thread_modThread, if_neg hm]
    exact performedAtomic_thread m

/-- A watchpoint that the atomic matches is taken after it (R146). -/
theorem memoryAtomic_watched (hk : s.atomics[k]? = some r) (ht : s.thread? r.tid = some t)
    (hp : s.poisonAt r.pa (r.ty.width / 8) = none) {w : Nat} {v : Word}
    (hw : watchMatch t r.va.toNat (r.ty.width / 8) .store = some (w, v)) (hn : t.inTrap = false) :
    ∃ s', exec (.memoryAtomic k) s = .next s' ∧ s'.thread? r.tid = some (enterTrap
      (advance (writeG t (BitVec.ofNat 5 r.dest) (extendTy r.ty (r.old s))) (t.pc + 4)) .watch v (t.pc + 4) true false 0) := by
  have hafter : afterTrap t (atomicEffect s k r t) = some (.watch, v, false) := by
    simp [afterTrap, atomicEffect, Effect.onRegs, hw]
  have hthread : (chargeQueue ((atomicEffect s k r t).state.modThread r.tid fun x =>
      advance ((atomicEffect s k r t).regs x) (atomicEffect s k r t).pc) t).thread? r.tid =
      some (advance (writeG t (BitVec.ofNat 5 r.dest) (extendTy r.ty (r.old s))) (t.pc + 4)) := by
    rw [chargeQueue_thread, State.thread_modThread_same, atomicEffect]
    exact congrArg (Option.map _) ((performedAtomic_thread _).trans ht)
  refine ⟨_, exec_memoryAtomic hk ht hp, ?_⟩
  rw [finish_after hafter, takeTrap_outside hthread (by simpa [advance, Thread.inTrap] using hn), State.thread_setThread_same]
  rfl

end

/-- Settles O15: AMO by the check that it makes and the request that it leaves; then what the memory side does with one. -/
theorem globalAtomicsArePerformedAtTheMemorySide : Obligations.GlobalAtomicsArePerformedAtTheMemorySide := by
  unfold Obligations.GlobalAtomicsArePerformedAtTheMemorySide
  intro s s1 t op ord ty d a b pa presence
  refine ⟨fun ht hr hp => ⟨fun h => globalAmo_held ht hr hp (globalHold_undrained h),
      fun h hrel hne => globalAmo_held ht hr hp (globalHold_unanswered h hrel hne),
      fun h hrel => globalAmo_queued ht hr hp (globalHold_settled h hrel)⟩,
    fun g ht hr hp hn => globalAmo_poisoned ht hr hp hn, fun k r hk ht hp hwf => ?_⟩
  exact ⟨fun w v hw hn => memoryAtomic_watched hk ht hp hw hn, memoryAtomic_completes hk ht hp hwf⟩

/-! ## Fences (R119) -/

theorem exec_fence (kind : FenceKind) (scope : FenceScope) (s : State) :
    exec (.fence kind scope) s = execFence kind scope s := by rfl

section
variable {s : State} {t : Thread} {kind : FenceKind} {scope : FenceScope} (ht : Issues s t)
include ht

theorem fence_undrained (hk : kind ≠ .acq) (h : hasStores s (s.coreOf t) s.cur = true) :
    Waits s (.fence kind scope) s .storeBuffer :=
  waits_of_perform (exec_fence ..) ht (by simp [hk, drained_wait h])

theorem fence_unanswered (hk : kind ≠ .acq) (h : hasStores s (s.coreOf t) s.cur = false) (hs : scope = .domain)
    (hp : t.remotePending ≠ []) : Waits s (.fence kind scope) s .remote :=
  waits_of_perform (exec_fence ..) ht (by simp [hk, drained_ok h, hs, hp])

theorem fence_completes
    (h : kind = .acq ∨ hasStores s (s.coreOf t) s.cur = false ∧ (scope = .domain → t.remotePending = [])) :
    Completes s (.fence kind scope) (if kind = .rel then s else acquireFor s t) id (t.pc + 4) := by
  refine completes_of_effect (exec_fence ..) ht ?_
  by_cases hk : kind = .acq
  · simp [hk, Effect.onRegs, seqPc]
  · obtain ⟨hs, hp⟩ := h.resolve_left hk
    have hwait : ¬(kind ≠ .acq ∧ scope = .domain ∧ t.remotePending ≠ []) := fun ⟨_, hd, hne⟩ => hne (hp hd)
    simp only [if_neg hk, drained_ok hs, if_neg hwait]
    rfl

end

/-- Settles O16: a fence by what it waits for; an acquire empties the read buffer alone. -/
theorem fencesWaitForStoresAndEmptyTheReadBuffer : Obligations.FencesWaitForStoresAndEmptyTheReadBuffer := by
  unfold Obligations.FencesWaitForStoresAndEmptyTheReadBuffer
  intro s t kind scope ht
  exact ⟨fence_undrained ht, fence_unanswered ht, fence_completes ht, acquireFor_readBuf s t, acquireFor_mem s t,
    acquireFor_threads s t⟩

/-! ## RST and RAT (R113, R120, R338) -/

theorem exec_rst (ord : MemOrder) (ty : Ty) (a b : GReg) (s : State) : exec (.rst ord ty a b) s = execRst ord ty a b s := by rfl

theorem exec_rat (op : AmoOp) (ord : MemOrder) (ty : Ty) (d a b : GReg) (s : State) :
    exec (.rat op ord ty d a b) s = execRat op ord ty d a b s := by rfl

/-- A remote address passes its checks: it is aligned, its reserved bits are zero, and its chip is known (R113, R120). -/
structure RemoteGood (s : State) (ga : Word) (width : Nat) : Prop where
  aligned : ga.toNat % width = 0
  reserved : ga.extractLsb 63 60 = 0
  known : idValid s (ga.extractLsb 59 52).toNat = true

/-- There is room for one more remote operation of a thread (R120, R357). -/
structure RemoteRoom (s : State) (t : Thread) (chip : Nat) : Prop where
  pending : t.remotePending.length < 16
  replay : canSend s chip = true

section
variable {s : State} {t : Thread} {ga : Word} {width chip : Nat}

theorem remoteChecks_good (h : RemoteGood s ga width) : remoteChecks s ga width = .ok () := by
  obtain ⟨ha, hz, hv⟩ := h
  rw [remoteChecks, if_neg (not_not.2 ha), if_neg (not_not.2 ((bits_zero ga 63 60).2 hz)), bits_extract ga 59 52, hv]
  rfl

theorem remoteChecks_misaligned (h : ga.toNat % width ≠ 0) : remoteChecks s ga width = .error (.trap .align ga) := if_pos h

theorem remoteChecks_unknown (ha : ga.toNat % width = 0)
    (h : ga.extractLsb 63 60 ≠ 0 ∨ idValid s (ga.extractLsb 59 52).toNat = false) :
    remoteChecks s ga width = .error (.trap .protect ga) := by
  rw [remoteChecks, if_neg (not_not.2 ha), bits_extract ga 59 52]
  by_cases hz : ga.extractLsb 63 60 = 0
  · rw [if_neg (not_not.2 ((bits_zero ga 63 60).2 hz)), h.resolve_left (not_not.2 hz)]
    rfl
  · rw [if_pos (mt (bits_zero ga 63 60).1 hz)]
    rfl

theorem orderHold_of_settled {ord : MemOrder} (h : if ord = .rel ∨ ord = .acqrel then
    hasStores s (s.coreOf t) s.cur = false ∧ t.remotePending = [] else hasReleases s (s.coreOf t) s.cur = false) :
    orderHold s t ord = .ok () := by
  split at h
  next hr => exact (orderHold_of_rel hr s t).trans (released_settled h.1 h.2)
  next hr => exact (orderHold_of_not_rel hr s t).trans (afterReleases_free h)

theorem remoteRoom_ok (h : RemoteRoom s t chip) : remoteRoom s t chip = .ok () :=
  if_neg (by simp [h.pending, h.replay])

theorem remoteRoom_full (h : ¬RemoteRoom s t chip) : remoteRoom s t chip = .error (.wait .remote s) :=
  if_pos (or_iff_not_imp_left.2 fun hp => by simpa using mt (RemoteRoom.mk (Nat.not_le.1 hp)) h)

end

section
variable {s : State} {t : Thread} {op : AmoOp} {ord : MemOrder} {ty : Ty} {d a b : GReg} (ht : Issues s t)
include ht

/-- An operation whose address fails a check traps with the address (R113, R120). -/
theorem remote_traps {c : Cause} (hc : remoteChecks s (readG t a) (ty.width / 8) = .error (.trap c (readG t a)))
    (hn : t.inTrap = false) :
    Traps s t (.rst ord ty a b) c (readG t a) ∧ Traps s t (.rat op ord ty d a b) c (readG t a) :=
  ⟨traps_of_perform (exec_rst ..) ht hn (by simp [atomWidth, hc]), traps_of_perform (exec_rat ..) ht hn (by simp [atomWidth, hc])⟩

variable (hg : RemoteGood s (readG t a) (ty.width / 8))
include hg

/-- An operation waits for what its order waits for (R338). -/
theorem remote_held {r : WaitReason} (hh : orderHold s t ord = .error (.wait r s)) :
    Waits s (.rst ord ty a b) s r ∧ Waits s (.rat op ord ty d a b) s r := by
  unfold orderHold at hh
  exact ⟨waits_of_perform (exec_rst ..) ht (by simp [atomWidth, remoteChecks_good hg, hh]),
    waits_of_perform (exec_rat ..) ht (by simp [atomWidth, remoteChecks_good hg, hh])⟩

variable (hh : orderHold s t ord = .ok ())
include hh

/-- An operation waits for room (R120, R357). -/
theorem remote_full (hroom : ¬RemoteRoom s t ((readG t a).extractLsb 59 52).toNat) :
    Waits s (.rst ord ty a b) s .remote ∧ Waits s (.rat op ord ty d a b) s .remote := by
  unfold orderHold at hh
  have hfull : remoteRoom s t (bits (readG t a) 59 52) = .error (.wait .remote s) := by
    rw [bits_extract _ 59 52]; exact remoteRoom_full hroom
  exact ⟨waits_of_perform (exec_rst ..) ht (by simp [atomWidth, remoteChecks_good hg, hh, hfull]),
    waits_of_perform (exec_rat ..) ht (by simp [atomWidth, remoteChecks_good hg, hh, hfull])⟩

variable (hroom : RemoteRoom s t ((readG t a).extractLsb 59 52).toNat)
include hroom

/-- RST is numbered and sent, and its thread goes on (R120). -/
theorem rst_sent :
    let chip := ((readG t a).extractLsb 59 52).toNat
    let sent := sendNumbered s (mkMsg chip 0 t.ctx 0 0 (accessPayload ((readG t a).extractLsb 51 0).toNat (readG t b) 0 .swap ty))
    Completes s (.rst ord ty a b) sent.2 (fun x => { x with remotePending := x.remotePending ++ [(chip, sent.1)] }) (t.pc + 4) := by
  unfold orderHold at hh
  refine completes_of_effect (exec_rst ..) ht ?_
  simp only [atomWidth, bits_extract _ 59 52, bits_extract _ 51 0, remoteChecks_good hg, hh, remoteRoom_ok hroom]
  rfl

/-- RAT is numbered and sent, and holds its thread until the reply (R120). -/
theorem rat_sent :
    let chip := ((readG t a).extractLsb 59 52).toNat
    let sent := sendNumbered s
      (mkMsg chip 1 t.ctx 0 s.cur (accessPayload ((readG t a).extractLsb 51 0).toNat (readG t b) (readG t d) op ty))
    Waits s (.rat op ord ty d a b)
      (sent.2.modThread s.cur fun x => { x with remotePending := x.remotePending ++ [(chip, sent.1)] })
      (.ratReply chip sent.1 d.toNat ty (Decidable.decide (ord = .acq ∨ ord = .acqrel))) := by
  intro chip sent
  have hcur : sent.2.cur = s.cur := emitMsg_cur ..
  have hacq : acquires ord = Decidable.decide (ord = .acq ∨ ord = .acqrel) := by
    rw [Bool.eq_iff_iff, acquires_iff, decide_eq_true_eq]
  unfold orderHold at hh
  refine waits_of_perform (exec_rat ..) ht ?_
  simp only [atomWidth, bits_extract _ 59 52, bits_extract _ 51 0, remoteChecks_good hg, hh, remoteRoom_ok hroom]
  show Except.error (Stop.wait _ (sent.2.modThread sent.2.cur _)) = _
  rw [hcur, hacq]

end

/-- Settles O17: RST and RAT by their checks, by what they wait for, and by the message that they send. -/
theorem remoteOperationsAreCheckedThenSent : Obligations.RemoteOperationsAreCheckedThenSent := by
  unfold Obligations.RemoteOperationsAreCheckedThenSent
  intro s t op ord ty d a b ht ga chip addr good settled room rst rat
  have hold : settled → orderHold s t ord = .ok () := orderHold_of_settled
  have hgood : good → RemoteGood s ga (ty.width / 8) := fun ⟨ha, hz, hv⟩ => ⟨ha, hz, hv⟩
  have hroomy : room → RemoteRoom s t chip := fun ⟨hp, hc⟩ => ⟨hp, hc⟩
  have hfull : ¬room → ¬RemoteRoom s t chip := mt fun hr => ⟨hr.pending, hr.replay⟩
  refine ⟨fun hg hs hr => ⟨rst_sent ht (hgood hg) (hold hs) (hroomy hr), rat_sent ht (hgood hg) (hold hs) (hroomy hr)⟩,
    fun hg hs hr => remote_full ht (hgood hg) (hold hs) (hfull hr),
    fun hg h => remote_held ht (hgood hg) (orderHold_undrained h),
    fun hg hrel h hne => remote_held ht (hgood hg) (orderHold_unanswered ((if_pos hrel).trans h) hrel hne),
    fun hn ha => remote_traps ht (remoteChecks_misaligned ha) hn,
    fun hn ha h => remote_traps ht (remoteChecks_unknown ha h) hn⟩

end Sys2Proof.Machine
end

section
/-! PROOFS. Messages that arrive (R118, R120, R311, R355 to R360, R363, R364): what applying one of each kind changes, and what
acknowledgements, replies, horizons and messages in transit do. -/

namespace Sys2Proof.Machine

open Sys2Proof

/-! ## Applying a message (R355, R356, R363, R364) -/

/-- The address that a message names in the translation of its context (R355). -/
def Msg.va (m : Msg) : Nat := payloadNat m 0 8 % 2 ^ 52

/-- The bytes of copy and reducing data (R363). -/
def Msg.data (m : Msg) : List Byte := (m.payload.drop 16).take (payloadNat m 8 1)

/-- The bytes of a remote access (R120). -/
def Msg.width (m : Msg) : Nat := (payloadTy m 25).width / 8

/-- The state with the watchpoints of an applied message seen (R147). -/
def peerWatched (s : State) (m : Msg) (n : Nat) : State := watchEngine s m.ctx.toNat 0 m.va n 0xE0

@[simp] theorem peerWatched_mem (s : State) (m : Msg) (n : Nat) : (peerWatched s m n).mem = s.mem := watchEngine_mem ..

section
variable {s s1 : State} {m : Msg} {pa : Nat} {presence : Bool}

theorem applyMsg_store (hm : m.type = 0) (ht : translate s m.ctx.toNat m.va .write true = (.ok pa, presence, s1)) :
    applyMsg s m = .done
      (peerWatched (peerStore s1 pa (leBytes m.width (payloadNat m 8 8)) presence) m m.width) none := by
  unfold applyMsg
  rw [hm]
  show (match translate s m.ctx.toNat m.va .write true with | (.ok pa, pres, s) => _ | (r, _, s) => _) = _
  rw [ht]
  rfl

/-- The pattern that stands where a remote atomic acts. -/
def Msg.old (m : Msg) (s : State) (pa : Nat) : Nat := leNat (mreads s.mem pa m.width)

/-- The pattern that a remote atomic writes (R118). -/
def Msg.new (m : Msg) (s : State) (pa : Nat) : Nat :=
  amoNew (payloadOp m) (payloadTy m 25) (m.old s pa) (payloadNat m 8 8) (payloadNat m 16 8)

theorem applyMsg_atomic (hm : m.type = 1) (ht : translate s m.ctx.toNat m.va .atomic true = (.ok pa, presence, s1)) :
    applyMsg s m = .done (peerWatched (s1.writeMem pa (leBytes m.width (m.new s1 pa))) m m.width)
      (some (w64 (m.old s1 pa))) := by
  unfold applyMsg
  rw [hm]
  show (match translate s m.ctx.toNat m.va .atomic true with | (.ok pa, pres, s) => _ | (r, _, s) => _) = _
  rw [ht]
  rfl

theorem applyMsg_copy (hm : m.type = 2) (ht : translate s m.ctx.toNat m.va .write true = (.ok pa, presence, s1)) :
    applyMsg s m = .done (peerWatched (engineWrite s1 pa m.data presence) m m.data.length) none := by
  unfold applyMsg
  rw [hm]
  show (match translate s m.ctx.toNat m.va .write true with | (.ok pa, pres, s) => _ | (r, _, s) => _) = _
  rw [ht]
  rfl

theorem applyMsg_reduce (hm : m.type = 3) (ht : translate s m.ctx.toNat m.va .atomic true = (.ok pa, presence, s1)) :
    applyMsg s m = .done
      (peerWatched (reduceInto s1 pa (payloadNat m 9 1) (payloadTy m 10) m.data) m m.data.length) none := by
  unfold applyMsg
  rw [hm]
  show (match translate s m.ctx.toNat m.va .atomic true with | (.ok pa, pres, s) => _ | (r, _, s) => _) = _
  rw [ht]
  rfl

/-- Bytes written through a translation stand in memory, and every other byte is as it was before. -/
theorem mread_translated_write {s2 : State} {acc : Access} {b : List Byte} (hwf : s1.mem.wf = true)
    (ht : translate s m.ctx.toNat m.va acc true = (.ok pa, presence, s1)) (h2 : s2.mem = mwrites s1.mem pa b) (x : Nat) :
    mread s2.mem x = if pa ≤ x ∧ x < pa + b.length then b.getD (x - pa) 0 else mread s.mem x := by
  have hmem : s1.mem = s.mem := by
    have h := translate_mem s m.ctx.toNat m.va acc true
    rwa [ht] at h
  rw [h2, mread_mwrites _ _ _ hwf, hmem]

/-- A store of 8 bytes by a peer leaves its granule of a presence page full (R364, log 26). -/
theorem present_peerStore {b : List Byte} (hwf : s.mem.wf = true) (hb : b.length = 8) (n : Nat) :
    present (peerWatched (peerStore s pa b true) m n) pa = true := by
  have hfill : peerStore s pa b true = fillPresent (s.writeMem pa b) pa := if_pos (by simp [hb])
  have hframe (s' : State) (hm : s'.mem = (setPresent (s.writeMem pa b) pa true).mem) (hg : s'.mgmt = s.mgmt) :
      present s' pa = true := by
    have h := present_setPresent (s := s.writeMem pa b) (wf_mwrites pa b hwf) pa pa true
    rw [if_pos rfl] at h
    rw [← h, present, present, presenceBit, presenceBit, hm, hg]
    rfl
  refine hframe _ ?_ ?_
  · rw [peerWatched_mem, hfill, fillPresent_frame]
  · rw [peerWatched, watchEngine_frame, hfill, fillPresent_frame]
    rfl

/-- The end of the fabric that takes a message's token: it is bound, receives, names the sender, and has room (R362). -/
structure TakesToken (p : StreamPort) (m : Msg) : Prop where
  receives : p.send = false
  sender : (p.desc.extractLsb 15 8).toNat = m.src.toNat
  channel : (p.desc.extractLsb 21 16).toNat = m.requester.toNat / 256 % 64
  room : p.buffer.length < 64

theorem applyMsg_token (hm : m.type = 4) : applyMsg s m = applyToken s m := by
  unfold applyMsg
  rw [hm]
  rfl

/-- A token joins the buffer of its port, and nothing else changes but the wake words and the count of arrivals (R356, R362). -/
theorem applyToken_joins {p : StreamPort} (hp : s.port? m.port.toNat = some p) (ht : TakesToken p m) :
    ∃ s2, applyToken s m = .done s2 none ∧
      s2.port? m.port.toNat = some { p with buffer := p.buffer ++ [(s.arrivals, msgTok m 0)] } ∧ s2.mem = s.mem := by
  obtain ⟨hsend, hsrc, hport, hroom⟩ := ht
  let s1 := s.arrive.2.setPort m.port.toNat { p with buffer := p.buffer ++ [(s.arrivals, msgTok m 0)] }
  have hin : s1.port? m.port.toNat = some { p with buffer := p.buffer ++ [(s.arrivals, msgTok m 0)] } := tget_tset_same ..
  have hblock : ¬(bits p.desc 15 8 ≠ m.src.toNat ∨ bits p.desc 21 16 ≠ m.requester.toNat / 256 % 64 ∨ p.send = true ∨
      64 ≤ p.buffer.length) := by
    rw [bits_extract p.desc 15 8, bits_extract p.desc 21 16]
    simp [hsrc, hport, hsend, hroom]
  simp only [applyToken, hp, if_neg hblock]
  split
  · refine ⟨_, rfl, ?_, ?_⟩
    · rw [wakeSlot, wakeOne_frame]; exact hin
    · rw [wakeSlot, wakeOne_frame]; rfl
  · exact ⟨s1, rfl, hin, rfl⟩

end

/-- Settles O19: kind by kind, the state that applying the message leaves. -/
theorem applyingAMessageActsOnItsTarget : Obligations.ApplyingAMessageActsOnItsTarget := by
  unfold Obligations.ApplyingAMessageActsOnItsTarget
  intro s s1 m pa hwf va n old data
  refine ⟨fun hm ht => ⟨_, applyMsg_store hm ht, fun x => ?_⟩, fun hm hn ht => ⟨_, applyMsg_store hm ht, ?_⟩,
    fun hm ht => ⟨_, applyMsg_atomic hm ht, fun x => ?_⟩, fun hm ht => ⟨_, applyMsg_copy hm ht, fun x => ?_⟩,
    fun hm ht => ⟨_, applyMsg_reduce hm ht, peerWatched_mem ..⟩, fun hm p hp hsend hsrc hport hroom => ?_⟩
  · exact (mread_translated_write hwf ht (peerWatched_mem ..) x).trans (by rw [leBytes_length]; rfl)
  · exact present_peerStore hwf ((leBytes_length ..).trans hn) _
  · exact (mread_translated_write hwf ht (peerWatched_mem ..) x).trans (by rw [leBytes_length]; rfl)
  · exact mread_translated_write hwf ht (peerWatched_mem ..) x
  · rw [applyMsg_token hm]
    exact applyToken_joins hp ⟨hsend, hsrc, hport, hroom⟩

/-! ## Acknowledgements, replies and horizons (R120, R356 to R359) -/

/-- The state without the n-th message of the inbox. -/
def inboxTaken (s : State) (n : Nat) : State := { s with fabric := { s.fabric with inbox := s.fabric.inbox.eraseIdx n } }

section
variable {s : State} {n : Nat} {m : Msg} (hin : s.fabric.inbox[n]? = some m)
include hin

theorem takeInbox_some {types : List Nat} (ht : types.contains m.type.toNat = true) :
    takeInbox s n types = some (m, inboxTaken s n) := by
  simp only [takeInbox, hin, ht, if_true]
  rfl

theorem acknowledgement_through (hm : m.type = 5) (hf : ackFailures m = []) : exec (.acknowledgement n) s =
    .next (ackThrough (inboxTaken s n) m.src.toNat (BitVec.ofNat 32 (payloadNat m 0 4))) := by
  show execAcknowledgement n s = _
  simp only [execAcknowledgement, takeInbox_some hin (types := [5]) (by rw [hm]; rfl), hf, List.foldl_nil]

/-- The reply of a RAT completes the thread that waits for it with the old value (R120, R359). -/
theorem ratReply_completes {tid : Nat} {t : Thread} {chip dest : Nat} {q : BitVec 32} {ty : Ty} {acq : Bool} (hm : m.type = 6)
    (hw : ratWaiter s m.src.toNat m.seq = some (tid, t)) (ht : s.thread? tid = some t)
    (hr : t.run = .waiting (.ratReply chip q dest ty acq)) :
    ∃ s', exec (.ratReply n) s = .next s' ∧ s'.mem = s.mem ∧
      s'.thread? tid = some (advance (writeG t (BitVec.ofNat 5 dest) (extendTy ty (payloadNat m 0 8))) (t.pc + 4)) := by
  let s1 := if acq then acquire (inboxTaken s n) ((inboxTaken s n).coreOf t) tid else inboxTaken s n
  have hmem : s1.mem = s.mem := by dsimp only [s1]; split <;> rfl
  have hthread : s1.thread? tid = some t := by dsimp only [s1]; split <;> exact ht
  refine ⟨finish tid t (Effect.onRegs s1 t fun x => writeG x (BitVec.ofNat 5 dest) (amoOld ty (payloadNat m 0 8))), ?_, ?_, ?_⟩
  · have hw' : ratWaiter (inboxTaken s n) m.src.toNat m.seq = some (tid, t) := hw
    show execRatReply n s = _
    simp only [execRatReply, takeInbox_some hin (types := [6]) (by rw [hm]; rfl), hw', hr]
    rfl
  · rw [finish_eq rfl, chargeQueue_mem, State.modThread_mem]; exact hmem
  · rw [finish_eq rfl, chargeQueue_thread, State.thread_modThread_same]
    exact congrArg (Option.map _) hthread

/-- A horizon frees what is retained up to its first value, and the replies before its second (R358, R359). -/
theorem horizon_frees (hm : m.type = 7) :
    ∃ s', exec (.horizon n) s = .next s' ∧ s'.mem = s.mem ∧
      (s'.dest m.src.toNat).retained =
        (s.dest m.src.toNat).retained.filter (fun x => !seqLe x.1 (BitVec.ofNat 32 (payloadNat m 0 4))) ∧
      (s'.source m.src.toNat).replies =
        (s.source m.src.toNat).replies.filter (fun p => seqLe (BitVec.ofNat 32 (payloadNat m 4 4)) p.1) := by
  have hi : exec (.horizon n) s = execHorizon n s := rfl
  rw [hi]
  simp only [execHorizon, takeInbox_some hin (types := [7]) (by rw [hm]; rfl)]
  refine ⟨_, rfl, rfl, ?_, ?_⟩
  · exact congrArg DestSt.retained ((dest_setDest ..).trans (if_pos rfl))
  · exact congrArg SourceSt.replies ((source_setSource ..).trans (if_pos rfl))

end

/-- An acknowledgement takes what it covers from a thread's pending operations, and keeps its registers and its address (R120). -/
theorem ackThrough_keeps {s : State} {chip tid : Nat} {a : BitVec 32} {t : Thread} (h : s.thread? tid = some t) :
    ∃ t', (ackThrough s chip a).thread? tid = some t' ∧
      t'.remotePending = t.remotePending.filter (fun p => !(p.1 = chip && seqLe p.2 a)) ∧ t'.g = t.g ∧ t'.pc = t.pc := by
  refine ⟨_, ackThrough_thread h, ?_⟩
  dsimp only
  split
  · exact ⟨rfl, rfl, rfl⟩
  · split <;> exact ⟨rfl, rfl, rfl⟩
  · exact ⟨rfl, rfl, rfl⟩

/-- Without a retention log nothing is retained (R358, log 43). -/
theorem foldl_retainMsg_none {s : State} (h : s.fabric.logSize = none) (chip : Nat) (l : List Msg) :
    l.foldl (retainMsg chip) s = s := by
  induction l with
  | nil => rfl
  | cons m l ih =>
    have hm : retainMsg chip s m = s := by simp [retainMsg, freeLogPlace, h]
    rw [List.foldl_cons, hm, ih]

theorem ackThrough_unlogged {s : State} (h : s.fabric.logSize = none) (chip : Nat) (a : BitVec 32) :
    (ackThrough s chip a).mem = s.mem ∧ ((ackThrough s chip a).dest chip).retained = (s.dest chip).retained := by
  unfold ackThrough wakeCopies wakeSenders
  dsimp only
  rw [wakeWhere_frame, foldl_retainMsg_none (s := s.setDest chip _) h]
  refine ⟨rfl, ?_⟩
  show ((s.setDest chip _).dest chip).retained = _
  rw [dest_setDest, if_pos rfl]

/-! ## Messages in transit (R360) -/

section
variable {s : State} {n router : Nat} {m : Msg} (ht : s.fabric.transit[n]? = some (router, m))

/-- The state without the n-th message in transit. -/
def transitTaken (s : State) (n : Nat) : State := { s with fabric := { s.fabric with transit := s.fabric.transit.eraseIdx n } }

include ht

theorem messageTransit_delivers (hv : idValid s m.dest.toNat = true) (hs : idSelf s m.dest.toNat = true) :
    exec (.messageTransit n) s = .next (takeOwn (transitTaken s n) m) := by
  have hown : (idValid (transitTaken s n) m.dest.toNat && idSelf (transitTaken s n) m.dest.toNat) = true :=
    Bool.and_eq_true_iff.2 ⟨hv, hs⟩
  show execMessageTransit n s = _
  simp only [execMessageTransit, ht]
  exact if_pos hown

/-- The link by which a message in transit goes on (R360). -/
def onwardLink (s : State) (chip : Nat) : Option Nat := if idValid s chip && !idHeld s chip then routeLink s chip else none

section
variable (ho : (idValid s m.dest.toNat && idSelf s m.dest.toNat) = false)
include ho

theorem messageTransit_goesOn {l : Nat} (hl : onwardLink s m.dest.toNat = some l) :
    exec (.messageTransit n) s = .next (linkSend (transitTaken s n) l m) := by
  have ho' : ¬(idValid (transitTaken s n) m.dest.toNat && idSelf (transitTaken s n) m.dest.toNat) = true :=
    ne_true_of_eq_false ho
  show execMessageTransit n s = _
  simp only [execMessageTransit, ht]
  refine (if_neg ho').trans ?_
  split
  next k hk => cases (hk.symm.trans hl : some k = some l); rfl
  next hk => cases (hk.symm.trans hl : none = some l)

theorem messageTransit_dropped (hl : onwardLink s m.dest.toNat = none) :
    exec (.messageTransit n) s = .next { transitTaken s n with fabric := { (transitTaken s n).fabric with
      transitDropped := tmod (transitTaken s n).fabric.transitDropped router 0 (· + 1) } } := by
  have ho' : ¬(idValid (transitTaken s n) m.dest.toNat && idSelf (transitTaken s n) m.dest.toNat) = true :=
    ne_true_of_eq_false ho
  show execMessageTransit n s = _
  simp only [execMessageTransit, ht]
  refine (if_neg ho').trans ?_
  split
  next k hk => cases (hk.symm.trans hl : some k = none)
  next => rfl

end
end

/-- Settles O20: message by message, and for one in transit by the entry of its destination. -/
theorem acknowledgementsRepliesAndRoutes : Obligations.AcknowledgementsRepliesAndRoutes := by
  unfold Obligations.AcknowledgementsRepliesAndRoutes
  intro s n
  refine ⟨fun m hin hm hf => ?acknowledgement,
    fun m tid t chip q dest ty acq hin hm hw ht hr => ratReply_completes hin hm hw ht hr, fun m hin hm => horizon_frees hin hm,
    fun chip => ⟨rfl, resendAll_mem s chip⟩, fun router m ht => ?transit⟩
  case acknowledgement =>
    exact ⟨_, acknowledgement_through hin hm hf, ackThrough_replay .., fun tid t ht => ackThrough_keeps ht,
      fun hl => ackThrough_unlogged (s := inboxTaken s n) hl ..⟩
  case transit =>
    refine ⟨messageTransit_delivers ht, fun l hv hs hh hl => messageTransit_goesOn ht (by simp [hs]) ?_, fun h => ?_⟩
    · simp [onwardLink, hv, hh, hl]
    · rcases h with hv | ⟨hs, hh | hl⟩
      · exact messageTransit_dropped ht (by simp [hv]) (by simp [onwardLink, hv])
      · exact messageTransit_dropped ht (by simp [hs]) (by simp [onwardLink, hh])
      · exact messageTransit_dropped ht (by simp [hs]) (by simp [onwardLink, hl])

end Sys2Proof.Machine
end

section
/-! PROOFS. Channels (R121, R133, R134, R136, R314, R338, R356, R362): what SEND and RECV do with a word, what binding and unbinding
leave of a slot, what POLL tells, and the slot that WAITANY takes. -/

namespace Sys2Proof.Machine

open Sys2Proof

/-! ## SEND (R121, R338, R356) -/

theorem exec_send (ch : ChSlot) (b : GReg) (s : State) : exec (.send ch b) s = execSend ch b s := by rfl

theorem exec_recv (d : GReg) (ch : ChSlot) (s : State) : exec (.recv d ch) s = execRecv d ch s := by rfl

/-- A slot of a thread is no sending end (R121, R362). -/
def NoSendEnd (s : State) (t : Thread) (slot : Nat) : Prop :=
  !(t.chEnd slot).bound ∨ !(t.chEnd slot).out ∨ (!(t.chEnd slot).port ∧ (s.chan s.cur slot).gone) ∨ joinsOther s (t.chEnd slot)

/-- The package that a stream port sends to (R362). -/
def portChip (s : State) (e : ChanEnd) : Nat := match s.port? (e.desc.toNat - 16) with
  | some p => bits p.desc 15 8
  | none => 0

/-- A port's word has no place in the replay buffer of its package (R356). -/
def SendHeld (s : State) (e : ChanEnd) : Prop := e.port ∧ e.desc.toNat ≥ 16 ∧ !canSend s (portChip s e)

theorem noSendEnd_iff {s : State} {t : Thread} {slot : Nat} : NoSendEnd s t slot ↔
    (t.chEnd slot).bound = false ∨ (t.chEnd slot).out = false ∨
      ((t.chEnd slot).port = false ∧ (s.chan s.cur slot).gone = true) ∨ joinsOther s (t.chEnd slot) = true := by
  simp only [NoSendEnd, Bool.not_eq_true']

theorem portChip_of_port {s : State} {e : ChanEnd} {p : StreamPort} (hp : s.port? (e.desc.toNat - 16) = some p) :
    portChip s e = (p.desc.extractLsb 15 8).toNat := by
  rw [portChip, hp]
  exact bits_extract p.desc 15 8

theorem not_sendHeld_of_room {s : State} {e : ChanEnd} {p : StreamPort} (hp : s.port? (e.desc.toNat - 16) = some p)
    (hc : canSend s (p.desc.extractLsb 15 8).toNat = true) : ¬SendHeld s e := by
  rintro ⟨_, _, hfull⟩
  rw [portChip_of_port hp, hc] at hfull
  cases hfull

theorem not_sendHeld_of_channel {s : State} {e : ChanEnd} (h : e.port = false ∨ e.desc.toNat < 16) : ¬SendHeld s e := by
  rintro ⟨hport, hdesc, _⟩
  rcases h with h | h
  · rw [h] at hport; cases hport
  · omega

/-- A stream port with a free place is bound (R362). -/
theorem port_of_freePlaces {s : State} {tid : Nat} {t : Thread} {slot : Nat} (hport : (t.chEnd slot).port = true)
    (hd : 16 ≤ (t.chEnd slot).desc.toNat) (hf : freePlaces s tid t slot ≠ 0) :
    ∃ p, s.port? ((t.chEnd slot).desc.toNat - 16) = some p := by
  cases hp : s.port? ((t.chEnd slot).desc.toNat - 16) with
  | some p => exact ⟨p, rfl⟩
  | none =>
    have hne : (t.chEnd slot).desc.toNat ≠ requestPort := by unfold requestPort; omega
    simp [freePlaces, hport, hne, hp] at hf

section
variable {s : State} {t : Thread} {ch : ChSlot} {b : GReg} (ht : Issues s t)
include ht

theorem send_refused (h : NoSendEnd s t ch.toNat) (hn : t.inTrap = false) : Traps s t (.send ch b) .channel (w64 ch.toNat) :=
  traps_of_perform (exec_send ..) ht hn (if_pos h)

variable (h : ¬NoSendEnd s t ch.toNat)
include h

theorem send_waits (hf : freePlaces s s.cur t ch.toNat = 0) : Waits s (.send ch b) s (.send ch.toNat) :=
  waits_of_perform (exec_send ..) ht ((if_neg h).trans (if_pos hf))

variable (hf : freePlaces s s.cur t ch.toNat ≠ 0)
include hf

theorem send_held (hh : SendHeld s (t.chEnd ch.toNat)) : Waits s (.send ch b) s .remote :=
  waits_of_perform (exec_send ..) ht ((if_neg h).trans ((if_neg hf).trans (if_pos hh)))

variable (hh : ¬SendHeld s (t.chEnd ch.toNat))
include hh

theorem send_undrained (hs : hasStores s (s.coreOf t) s.cur = true) : Waits s (.send ch b) s .storeBuffer :=
  waits_of_perform (exec_send ..) ht ((if_neg h).trans ((if_neg hf).trans ((if_neg hh).trans (by rw [drained_wait hs]))))

theorem send_completes (hs : hasStores s (s.coreOf t) s.cur = false) :
    Completes s (.send ch b) (sendWord s s.cur t ch.toNat (readG t b)) id (t.pc + 4) :=
  completes_of_effect (exec_send ..) ht ((if_neg h).trans ((if_neg hf).trans ((if_neg hh).trans (by rw [drained_ok hs]; rfl))))

end

/-- A word that is sent stands last among the words of the other end (R121). -/
theorem sendWord_words {s : State} {tid slot p q : Nat} {t : Thread} (hc : (t.chEnd slot).port = false)
    (hf : formed s tid slot = some (p, q)) (w : Word) :
    ((sendWord s tid t slot w).chan p q).words = (s.chan p q).words ++ [{ at_ := s.arrivals, word := w }] := by
  simp only [sendWord, hc, Bool.not_false, if_true, hf, chanPush, wakeSlot]
  rw [wakeOne_frame]
  exact congrArg Chan.words (tgetD_tset_same ..)

/-! ## RECV (R121) -/

/-- A slot of a thread is no receiving end (R121, R362). -/
def NoRecvEnd (s : State) (t : Thread) (slot : Nat) : Prop :=
  !(t.chEnd slot).bound ∨ (t.chEnd slot).out ∨ joinsOther s (t.chEnd slot)

theorem noRecvEnd_iff {s : State} {t : Thread} {slot : Nat} : NoRecvEnd s t slot ↔
    (t.chEnd slot).bound = false ∨ (t.chEnd slot).out = true ∨ joinsOther s (t.chEnd slot) = true := by
  simp only [NoRecvEnd, Bool.not_eq_true']

theorem joinsOther_channel {s : State} {e : ChanEnd} (h : e.port = false) : joinsOther s e = false := by
  simp [joinsOther, h]

section
variable {s : State} {t : Thread} {ch : ChSlot} {d : GReg} (ht : Issues s t)
include ht

theorem recv_refused (h : NoRecvEnd s t ch.toNat) (hn : t.inTrap = false) : Traps s t (.recv d ch) .channel (w64 ch.toNat) :=
  traps_of_perform (exec_recv ..) ht hn (if_pos h)

variable (h : ¬NoRecvEnd s t ch.toNat)
include h

theorem recv_completes {w : ChanWord} {rest : List ChanWord} (hw : waitingWords s s.cur t ch.toNat = w :: rest) :
    Completes s (.recv d ch) (acquireFor (dropWord s s.cur t ch.toNat) t) (fun r => writeG r d w.word) (t.pc + 4) :=
  completes_of_effect (exec_recv ..) ht ((if_neg h).trans (by rw [hw]; rfl))

variable (hw : waitingWords s s.cur t ch.toNat = [])
include hw

theorem recv_waits (hg : (s.chan s.cur ch.toNat).gone = false) : Waits s (.recv d ch) s (.recv ch.toNat) := by
  refine waits_of_perform (exec_recv ..) ht ((if_neg h).trans ?_)
  rw [hw]
  exact if_neg (by simp [hg])

theorem recv_gone (hc : (t.chEnd ch.toNat).port = false) (hg : (s.chan s.cur ch.toNat).gone = true) (hn : t.inTrap = false) :
    Traps s t (.recv d ch) .channel (w64 ch.toNat) := by
  refine traps_of_perform (exec_recv ..) ht hn ((if_neg h).trans ?_)
  rw [hw]
  exact if_pos ⟨by rw [hc]; rfl, hg⟩

end

/-- A receiving end keeps all but its oldest word (R121). -/
theorem dropWord_words {s : State} {tid slot : Nat} {t : Thread} (hc : (t.chEnd slot).port = false) :
    ((dropWord s tid t slot).chan tid slot).words = (waitingWords s tid t slot).tail := by
  have hw : waitingWords s tid t slot = (s.chan tid slot).words := if_pos (by rw [hc]; rfl)
  simp only [dropWord, hc, Bool.not_false, if_true, wakeSlot]
  rw [wakeOne_frame, hw]
  exact congrArg Chan.words (tgetD_tset_same ..)

/-- Settles O22: SEND and RECV by the checks that they make in order, and by the words of the ends. -/
theorem channelsMoveOneWordAtATime : Obligations.ChannelsMoveOneWordAtATime := by
  unfold Obligations.ChannelsMoveOneWordAtATime
  intro s t ch d b ht e gone free words
  have hsend (hb : e.bound = true) (ho : e.out = true) (hg : e.port = false → gone = false) (hj : joinsOther s e = false) :
      ¬NoSendEnd s t ch.toNat := by
    rw [noSendEnd_iff]
    rintro (h | h | ⟨h, h'⟩ | h)
    · exact Bool.false_ne_true (h.symm.trans hb)
    · exact Bool.false_ne_true (h.symm.trans ho)
    · exact Bool.false_ne_true ((hg h).symm.trans h')
    · exact Bool.false_ne_true (hj.symm.trans h)
  have hrecv (hb : e.bound = true) (ho : e.out = false) (hj : joinsOther s e = false) : ¬NoRecvEnd s t ch.toNat := by
    rw [noRecvEnd_iff]
    rintro (h | h | h)
    · exact Bool.false_ne_true (h.symm.trans hb)
    · exact Bool.false_ne_true (ho.symm.trans h)
    · exact Bool.false_ne_true (hj.symm.trans h)
  refine ⟨fun hb ho hg hj hc hf hs => send_completes ht (hsend hb ho hg hj) hf (fun hh => ?room) hs,
    fun hb ho hg hj hf => send_waits ht (hsend hb ho hg hj) hf,
    fun hb ho hg hj hf => ⟨fun p hp hd hport => ⟨fun hc => ?full, fun hc hs => ?_⟩, fun hc hs => ?_⟩,
    fun hn h => send_refused ht (noSendEnd_iff.2 h) hn,
    fun w rest hb ho hj hw => recv_completes ht (hrecv hb ho hj) hw,
    fun hb ho hw hc hg => recv_waits ht (hrecv hb ho (joinsOther_channel hc)) hw hg, fun hn h => ?refused,
    fun hc p q hf => sendWord_words hc hf _, fun hc => dropWord_words hc⟩
  case room =>
    obtain ⟨p, hp⟩ := port_of_freePlaces hh.1 hh.2.1 hf
    exact not_sendHeld_of_room hp (hc hh.1 hh.2.1 p hp) hh
  case full =>
    exact send_held ht (hsend hb ho hg hj) hf ⟨hp, hd, by rw [portChip_of_port hport, hc]; rfl⟩
  · exact send_undrained ht (hsend hb ho hg hj) hf (not_sendHeld_of_room hport hc) hs
  · exact send_undrained ht (hsend hb ho hg hj) hf (not_sendHeld_of_channel hc) hs
  case refused =>
    by_cases hno : NoRecvEnd s t ch.toNat
    · exact recv_refused ht hno hn
    · have hkinds := mt noRecvEnd_iff.2 hno
      rcases h with h | h | ⟨hw, hc, hg⟩ | h
      · exact absurd (.inl h) hkinds
      · exact absurd (.inr (.inl h)) hkinds
      · exact recv_gone ht hno hw hc hg hn
      · exact absurd (.inr (.inr h)) hkinds

/-! ## BIND, UNBIND, POLL and BIND.port (R121, R314, R362) -/

/-- The end that BIND records (R121). -/
def peerEnd (x : Word) (slot : ChSlot) (out : Bool) : ChanEnd :=
  { peer := BitVec.ofNat 16 (x.extractLsb 15 0).toNat, pslot := slot, out := out, bound := true, port := false, desc := 0 }

/-- What a thread's BIND leaves, with the wake words of a channel that it forms (R57, R121). -/
def boundState (s : State) (t : Thread) (ch : ChSlot) (e : ChanEnd) : State :=
  let s1 := (s.dropChan s.cur ch.toNat).setThread s.cur (t.setEnd ch.toNat e)
  match formed s1 s1.cur ch.toNat with
  | some (p, q) => wakeSlot (wakeSlot s1 p q) s1.cur ch.toNat
  | none => s1

theorem boundState_frame (s : State) (t : Thread) (ch : ChSlot) (e : ChanEnd) : boundState s t ch e =
    { (s.dropChan s.cur ch.toNat).setThread s.cur (t.setEnd ch.toNat e) with wakes := (boundState s t ch e).wakes } := by
  unfold boundState
  simp only
  split
  · unfold wakeSlot
    rw [wakeOne_frame, wakeOne_frame]
  · rfl

@[simp] theorem boundState_thread (s : State) (t : Thread) (ch : ChSlot) (e : ChanEnd) :
    (boundState s t ch e).thread? s.cur = some (t.setEnd ch.toNat e) := by
  rw [boundState_frame]
  exact State.thread_setThread_same ..

section
variable {s : State} {t : Thread} {ch slot : ChSlot} {b : GReg} {out : Bool}

theorem bindSlot_free {p : Thread} (he : (t.chEnd ch.toNat).bound = false) (h0 : ((readG t b).extractLsb 15 0).toNat ≠ 0)
    (hmax : ((readG t b).extractLsb 15 0).toNat ≠ 0xFFFF) (hp : s.thread? ((readG t b).extractLsb 15 0).toNat = some p)
    (hc : p.ctx = t.ctx) (hf : formed s ((readG t b).extractLsb 15 0).toNat slot.toNat = none) :
    bindSlot s t ch b slot out = .ok (.onRegs (boundState s t ch (peerEnd (readG t b) slot out)) t id) := by
  have hx := bits_extract (readG t b) 15 0
  simp only [bindSlot, hx, he, h0, hmax, hp, hc, hf, Bool.false_eq_true, false_or, decide_true, Bool.not_true, if_false]
  rfl

theorem bindSlot_refused (h : (t.chEnd ch.toNat).bound = true ∨ ((readG t b).extractLsb 15 0).toNat = 0 ∨
    ((readG t b).extractLsb 15 0).toNat = 0xFFFF ∨ s.thread? ((readG t b).extractLsb 15 0).toNat = none) :
    bindSlot s t ch b slot out = channelTrap ch := by
  have hx := bits_extract (readG t b) 15 0
  refine if_pos ?_
  rw [hx]
  rcases h with h | h | h | h
  · exact .inl h
  · exact .inr (.inl h)
  · exact .inr (.inr (.inl h))
  · exact .inr (.inr (.inr (.inl (by rw [h]; rfl))))

theorem exec_bind {s : State} (out : Bool) : exec (cond out (.bindOut ch b slot) (.bindIn ch b slot)) s =
    perform s fun s t => bindSlot s t ch b slot out := by
  cases out <;> rfl

end

/-- Unbinding a slot leaves the thread's record but for that slot (R121). -/
theorem unbindSlot_thread {s : State} {tid slot : Nat} {t : Thread} (ht : s.thread? tid = some t) :
    (unbindSlot s tid slot).thread? tid =
      some (if (t.chEnd slot).bound = true then t.setEnd slot ChanEnd.none else t) := by
  have hmark (s : State) (p q : Nat) : (markGone s p q).thread? tid = s.thread? tid := by
    simp only [State.thread?, markGone_threads]
  by_cases hb : (t.chEnd slot).bound = true
  · simp only [unbindSlot, ht, hb, Bool.not_true, Bool.false_eq_true, if_false, if_true]
    split
    · rw [hmark]
      split
      · split
        · simp
        · split <;> exact State.thread_setThread_same ..
      · simp
    · split
      · split
        · simp
        · split <;> exact State.thread_setThread_same ..
      · simp
  · simp [unbindSlot, ht, hb]

section
variable {s : State} {t : Thread} (ht : Issues s t) (ch : ChSlot) (b : GReg)
include ht

theorem unbind_completes : Completes s (.unbind ch) (unbindSlot s s.cur ch.toNat) id (t.pc + 4) := by
  have hi : exec (.unbind ch) s = execUnbind ch s := rfl
  exact completes_of_effect hi ht rfl

theorem bindPort_service {desc : Nat} {out : Bool} (hx : readG t b = 1 ∧ desc = 1 ∧ out = true ∨
    readG t b = 0x101 ∧ desc = 2 ∧ out = false) (hs : t.system = true) (he : (t.chEnd ch.toNat).bound = false)
    (hd : holdsPort t desc = false) : Completes s (.bindPort ch b) (bindEnd s t ch desc out) id (t.pc + 4) := by
  have hi : exec (.bindPort ch b) s = execBindPort ch b s := rfl
  refine completes_of_effect hi ht ?_
  rcases hx with ⟨hx, rfl, rfl⟩ | ⟨hx, rfl, rfl⟩
  · simp [hx, hs, he, hd, requestPort, Effect.onRegs, seqPc]
  · simp [hx, hs, he, hd, replyPort, Effect.onRegs, seqPc]

theorem bindPort_stream {p : StreamPort} {s1 : State} (hx : (readG t b).extractLsb 7 0 = 2)
    (he : (t.chEnd ch.toNat).bound = false) (hp : portOf s t (readG t b) = some (p, s1)) :
    Completes s (.bindPort ch b)
      (retrySources (bindEnd (s1.setPort (nearPort (readG t b)) p) t ch (16 + nearPort (readG t b)) p.send)) id (t.pc + 4) := by
  have hi : exec (.bindPort ch b) s = execBindPort ch b s := rfl
  have hno : ¬(readG t b = 1 ∨ readG t b = 0x101) := by
    rintro (h | h)
    · rw [h] at hx; exact absurd hx (by decide)
    · rw [h] at hx; exact absurd hx (by decide)
  have hkind : bits (readG t b) 7 0 = 2 := by
    rw [bits_extract (readG t b) 7 0, hx]; rfl
  refine completes_of_effect hi ht ((if_neg hno).trans ((if_neg ?_).trans ?_))
  · rintro (h | h)
    · exact absurd (he.symm.trans h) (by decide)
    · exact h hkind
  · simp only [hp]
    rfl

end

/-- Settles O23: BIND by the peer that its operand names, and BIND.port by the port that its descriptor asks for. -/
theorem bindingRecordsTheOtherEnd : Obligations.BindingRecordsTheOtherEnd := by
  unfold Obligations.BindingRecordsTheOtherEnd
  intro s t ch slot d b ht e x tid end_
  refine ⟨fun p he h0 hmax hp hc hf => ?bind, fun hn h => ⟨?_, ?_⟩, unbind_completes ht ch, unbindSlot_thread ht,
    ?poll, fun hx hs he hd => bindPort_service ht ch b (.inl ⟨hx, rfl, rfl⟩) hs he hd,
    fun hx hs he hd => bindPort_service ht ch b (.inr ⟨hx, rfl, rfl⟩) hs he hd,
    fun p s1 hx he hp => bindPort_stream ht ch b hx he hp⟩
  case bind =>
    have hstep (out : Bool) : ∃ s1, Completes s (cond out (.bindOut ch b slot) (.bindIn ch b slot)) s1 id (t.pc + 4) ∧
        s1.thread? s.cur = some (t.setEnd ch.toNat (end_ out)) ∧ s1.mem = s.mem ∧ s1.cores = s.cores := by
      refine ⟨boundState s t ch (end_ out), completes_of_effect (exec_bind out) ht (bindSlot_free he h0 hmax hp hc hf),
        boundState_thread .., ?_, ?_⟩
      all_goals rw [boundState_frame]; rfl
    exact ⟨hstep false, hstep true⟩
  · exact traps_of_perform (exec_bind false) ht hn (bindSlot_refused h)
  · exact traps_of_perform (exec_bind true) ht hn (bindSlot_refused h)
  case poll =>
    have hi : exec (.poll d ch) s = execPoll d ch s := rfl
    have h := completes_of_effect hi ht rfl
    simp only [Bool.not_eq_true'] at h
    exact h

/-! ## WAITANY (R133, R134, R136) -/

theorem logMode_of_low_bits {c : Ctx} (h : c.logMode.toNat % 4 = 0) : logMode c = 0 := by
  have hb : bits c.logMode 1 0 = c.logMode.toNat % 4 := by simp [bits]
  simp [logMode, hb, h]

/-- A context whose log is off neither replays nor records (R136). -/
theorem logNext_off {s : State} {d : Decider} (h : logMode (s.ctx d.ctx) = 0) :
    logNext s d = .ok (none, s.modCtx d.ctx logTurn) := by
  have hc : (s.modCtx d.ctx logTurn).ctx d.ctx = s.ctx d.ctx :=
    (State.ctx_modCtx_same ..).trans (logTurn_of_mode (by omega))
  simp [logNext, hc, h]

theorem logRecord_off {s : State} {d : Decider} (h : logMode (s.ctx d.ctx) = 0) (e : LogEntry) : logRecord s d e = .ok s :=
  if_pos (by omega)

section
variable {s s1 : State} {t : Thread} {d a : GReg} (ht : Issues s t) (hm : maskSlots ((readG t a).extractLsb 7 0).toNat ≠ [])
  (hr : ∀ i ∈ maskSlots ((readG t a).extractLsb 7 0).toNat, notReceiving s s.cur t i = false)
  (hl : logNext s t.decider = .ok (none, s1))
include ht hm hr hl

theorem waitany_waits (hf : firstSlot s1 s1.cur t (maskSlots ((readG t a).extractLsb 7 0).toNat) = none) :
    Waits s (.waitany d a) s1 .waitany := by
  have hi : exec (.waitany d a) s = execWaitany d a s := rfl
  have hfind := List.find?_eq_none.2 fun i h => Bool.eq_false_iff.1 (hr i h)
  refine waits_of_perform hi ht ?_
  simp only [bits_extract (readG t a) 7 0, if_neg hm, hfind, hl, hf]

theorem waitany_completes {i : Nat} {s2 : State}
    (hf : firstSlot s1 s1.cur t (maskSlots ((readG t a).extractLsb 7 0).toNat) = some i)
    (hrec : logRecord s1 t.decider { kind := 2, slot := i, num := 0, cl := t.lcore / 128, tid := s1.cur, val := 0 } = .ok s2) :
    Completes s (.waitany d a) s2 (fun r => writeG r d (BitVec.ofNat 64 i)) (t.pc + 4) := by
  have hi : exec (.waitany d a) s = execWaitany d a s := rfl
  have hfind := List.find?_eq_none.2 fun i h => Bool.eq_false_iff.1 (hr i h)
  refine completes_of_effect hi ht ?_
  simp only [bits_extract (readG t a) 7 0, if_neg hm, hfind, hl, hf, hrec]
  rfl

end

/-- Settles O24: WAITANY by the slot whose word stands first, and the log of a context that keeps none. -/
theorem waitanyTakesTheFirstWordToArrive : Obligations.WaitanyTakesTheFirstWordToArrive := by
  unfold Obligations.WaitanyTakesTheFirstWordToArrive
  intro s s1 t d a ht slots hm hr hl
  refine ⟨fun i s2 hf hrec => waitany_completes ht hm hr hl hf hrec, fun hf => waitany_waits ht hm hr hl hf, fun hoff => ?_⟩
  have hmode : logMode (s.ctx t.decider.ctx) = 0 := logMode_of_low_bits hoff
  have hs1 : s1 = s.modCtx t.decider.ctx logTurn := by
    have h := hl.symm.trans (logNext_off hmode)
    injection h with h
    exact (Prod.mk.inj h).2
  have hmode1 : logMode (s1.ctx t.decider.ctx) = 0 := by
    rw [hs1, State.ctx_modCtx_same, logTurn_of_mode (by omega), hmode]
  refine ⟨?_, ?_, ?_, ?_, logRecord_off hmode1⟩
  all_goals rw [hs1]; rfl

end Sys2Proof.Machine
end

section
/-! PROOFS. Groups (R122): what JOIN does by rank and room, LEAVE and GBAR as releases of a member, and the reads. -/

namespace Sys2Proof.Machine

open Sys2Proof

/-- The group that a well-formed operand names (R122). -/
theorem groupOf_ok {ga : Word} (h63 : ga.extractLsb 63 28 = 0) (h15 : ga.extractLsb 15 12 = 0) :
    groupOf ga = .ok (ga.extractLsb 11 0).toNat := by
  have hz : ¬(bits ga 63 28 ≠ 0 ∨ bits ga 15 12 ≠ 0) := by
    rw [bits_extract ga 63 28, bits_extract ga 15 12, h63, h15]
    decide
  exact (if_neg hz).trans (by rw [bits_extract ga 11 0])

/-- A group's room for one more member of a thread's own groups (R122). -/
structure JoinRoom (s : State) (g : Group) : Prop where
  own : (groupsOf s s.cur).length < 8
  members : g.members.length < 4095
  groups : s.groups.length < 4096

section
variable {s : State} {t : Thread} {d a : GReg} {n : Nat} (ht : Issues s t) (hn : groupOf (readG t a) = .ok n)
include ht hn

/-! ## Reads -/

theorem gsize_writes : WritesG s t (.gsize d a) d (BitVec.ofNat 64 (s.group n).members.length) := by
  have hi : exec (.gsize d a) s = execGsize d a s := rfl
  exact completes_of_effect hi ht (by rw [hn]; rfl)

theorem grank_writes_rank {r : Nat} (hr : (s.group n).rank s.cur = some r) : WritesG s t (.grank d a) d (BitVec.ofNat 64 r) := by
  have hi : exec (.grank d a) s = execGrank d a s := rfl
  exact completes_of_effect hi ht (by rw [hn]; simp only [Except.map, hr]; rfl)

theorem grank_writes_none (hr : (s.group n).rank s.cur = none) : WritesG s t (.grank d a) d (BitVec.allOnes 64) := by
  have hi : exec (.grank d a) s = execGrank d a s := rfl
  exact completes_of_effect hi ht (by rw [hn]; simp only [Except.map, hr]; rfl)

/-! ## JOIN -/

theorem join_member {r : Nat} (hr : (s.group n).rank s.cur = some r) : WritesG s t (.join d a) d (BitVec.ofNat 64 r) := by
  have hi : exec (.join d a) s = execJoin d a s := rfl
  exact completes_of_effect hi ht (by simp only [hn, hr]; rfl)

variable (hr : (s.group n).rank s.cur = none)
include hr

theorem join_no_room (hroom : ¬JoinRoom s (s.group n)) (ho : t.inTrap = false) :
    Traps s t (.join d a) .handle (readG t a) := by
  have hi : exec (.join d a) s = execJoin d a s := rfl
  have hfull : 8 ≤ (groupsOf s s.cur).length ∨ 4095 ≤ (s.group n).members.length ∨ 4096 ≤ s.groups.length := by
    by_contra hroom'
    exact hroom ⟨by omega, by omega, by omega⟩
  exact traps_of_perform hi ht ho (by simp only [hn, hr, if_pos hfull]; rfl)

variable (hroom : JoinRoom s (s.group n))
include hroom

omit hn ht hr in
theorem not_full_of_room : ¬(8 ≤ (groupsOf s s.cur).length ∨ 4095 ≤ (s.group n).members.length ∨ 4096 ≤ s.groups.length) := by
  obtain ⟨hown, hmembers, hgroups⟩ := hroom
  omega

theorem join_held (hw : ((readG t a).extractLsb 27 16).toNat ≠ 0xFFF)
    (hk : rankTaken (s.group n) ((readG t a).extractLsb 27 16).toNat = true) (ho : t.inTrap = false) :
    Traps s t (.join d a) .handle (readG t a) := by
  have hi : exec (.join d a) s = execJoin d a s := rfl
  refine traps_of_perform hi ht ho ?_
  simp only [hn, hr, if_neg (not_full_of_room hroom), bits_extract (readG t a) 27 16, if_pos hw, hk, if_true]
  rfl

theorem join_asked (hw : ((readG t a).extractLsb 27 16).toNat ≠ 0xFFF)
    (hk : rankTaken (s.group n) ((readG t a).extractLsb 27 16).toNat = false) :
    Completes s (.join d a) (joinGroup s n ((readG t a).extractLsb 27 16).toNat)
      (fun x => writeG x d (BitVec.ofNat 64 ((readG t a).extractLsb 27 16).toNat)) (t.pc + 4) := by
  have hi : exec (.join d a) s = execJoin d a s := rfl
  refine completes_of_effect hi ht ?_
  simp only [hn, hr, if_neg (not_full_of_room hroom), bits_extract (readG t a) 27 16, if_pos hw, hk, Bool.false_eq_true, if_false]
  rfl

theorem join_lowest {s1 s2 : State} {r : Nat} (hw : ((readG t a).extractLsb 27 16).toNat = 0xFFF)
    (hl : logNext s t.decider = .ok (none, s1)) (hf : firstFrom (fun r => !rankTaken (s.group n) r) 0 4095 = some r)
    (hrec : logRecord s1 t.decider { kind := 3, slot := 0, num := n, cl := t.lcore / 128, tid := s1.cur, val := r } = .ok s2) :
    Completes s (.join d a) (joinGroup s2 n r) (fun x => writeG x d (BitVec.ofNat 64 r)) (t.pc + 4) := by
  have hi : exec (.join d a) s = execJoin d a s := rfl
  have hw' : ¬(bits (readG t a) 27 16 ≠ 0xFFF) := by rw [bits_extract (readG t a) 27 16, hw]; decide
  refine completes_of_effect hi ht ?_
  simp only [hn, hr, if_neg (not_full_of_room hroom), if_neg hw', hl, hf, Option.getD_some, hrec]
  rfl

end

/-! ## LEAVE and GBAR -/

/-- What GBAR leaves for a member that has passed (R122). -/
def passBarrier (s : State) (t : Thread) (n : Nat) : State :=
  acquireFor (s.setGroup n { s.group n with passed := (s.group n).passed.filter (· ≠ s.cur) }) t

/-- The member's group that a well-formed operand names (R122). -/
theorem memberOf_ok {s : State} {ga : Word} {n : Nat} (hn : groupOf ga = .ok n) (hm : (s.group n).has s.cur = true) :
    memberOf s ga = .ok n := by
  simp [memberOf, hn, hm]

theorem memberOf_stranger {s : State} {ga : Word} {n : Nat} (hn : groupOf ga = .ok n) (hm : (s.group n).has s.cur = false) :
    memberOf s ga = .error (.trap .handle ga) := by
  simp [memberOf, hn, hm, trapWith]

section
variable {s : State} {t : Thread} {a : GReg} {n : Nat} (ht : Issues s t)
include ht

theorem leave_stranger (hm : memberOf s (readG t a) = .error (.trap .handle (readG t a))) (ho : t.inTrap = false) :
    Traps s t (.leave a) .handle (readG t a) := by
  have hi : exec (.leave a) s = execLeave a s := rfl
  exact traps_of_perform hi ht ho (by rw [hm])

theorem gbar_stranger (hm : memberOf s (readG t a) = .error (.trap .handle (readG t a))) (ho : t.inTrap = false) :
    Traps s t (.gbar a) .handle (readG t a) := by
  have hi : exec (.gbar a) s = execGbar a s := rfl
  exact traps_of_perform hi ht ho (by rw [hm])

variable (hm : memberOf s (readG t a) = .ok n)
include hm

theorem leave_undrained (hs : hasStores s (s.coreOf t) s.cur = true) : Waits s (.leave a) s .storeBuffer := by
  have hi : exec (.leave a) s = execLeave a s := rfl
  exact waits_of_perform hi ht (by rw [hm, drained_wait hs])

theorem gbar_undrained (hs : hasStores s (s.coreOf t) s.cur = true) : Waits s (.gbar a) s .storeBuffer := by
  have hi : exec (.gbar a) s = execGbar a s := rfl
  exact waits_of_perform hi ht (by rw [hm, drained_wait hs])

variable (hs : hasStores s (s.coreOf t) s.cur = false)
include hs

theorem leave_completes : Completes s (.leave a) (leaveGroup s s.cur n) id (t.pc + 4) := by
  have hi : exec (.leave a) s = execLeave a s := rfl
  exact completes_of_effect hi ht (by rw [hm, drained_ok hs]; rfl)

theorem gbar_passed (hp : (s.group n).passed.contains s.cur = true) :
    Completes s (.gbar a) (passBarrier s t n) id (t.pc + 4) := by
  have hi : exec (.gbar a) s = execGbar a s := rfl
  exact completes_of_effect hi ht (by simp only [hm, drained_ok hs, if_pos hp]; rfl)

variable (hp : (s.group n).passed.contains s.cur = false)
include hp

theorem gbar_last (hg : (arriveGroup (s.group n) s.cur).full = true) : Completes s (.gbar a)
    (passBarrier (advanceGroup (s.setGroup n (arriveGroup (s.group n) s.cur)) n) t n) id (t.pc + 4) := by
  have hi : exec (.gbar a) s = execGbar a s := rfl
  exact completes_of_effect hi ht (by
    simp only [hm, drained_ok hs, if_neg (Bool.eq_false_iff.1 hp), if_pos hg]; rfl)

theorem gbar_waits (hg : (arriveGroup (s.group n) s.cur).full = false) :
    Waits s (.gbar a) (s.setGroup n (arriveGroup (s.group n) s.cur)) (.group n) := by
  have hi : exec (.gbar a) s = execGbar a s := rfl
  exact waits_of_perform hi ht (by
    simp only [hm, drained_ok hs, if_neg (Bool.eq_false_iff.1 hp), if_neg (Bool.eq_false_iff.1 hg)])

end

/-- Settles O25: JOIN by the room and the rank, LEAVE and GBAR by membership and the thread's stores. -/
theorem groupsRankAndGatherTheirMembers : Obligations.GroupsRankAndGatherTheirMembers := by
  unfold Obligations.GroupsRankAndGatherTheirMembers
  intro s t d a ht ga n g want out h63 h15
  have hn : groupOf (readG t a) = .ok n := groupOf_ok h63 h15
  refine ⟨fun r hr => ⟨join_member ht hn hr, grank_writes_rank ht hn hr⟩, fun hr => grank_writes_none ht hn hr,
    gsize_writes ht hn, fun hr ho h => ?refused,
    fun hr h8 h4095 h4096 hw hk => join_asked ht hn hr ⟨h8, h4095, h4096⟩ hw hk,
    fun s1 s2 r hr h8 h4095 h4096 hw hl hf hrec => join_lowest ht hn hr ⟨h8, h4095, h4096⟩ hw hl hf hrec,
    fun hm hs => ?member, fun hm hs => ?undrained, fun hm ho => ?stranger⟩
  case refused =>
    by_cases hroom : JoinRoom s g
    · rcases h with h | h | h | ⟨hw, hk⟩
      · exact absurd hroom.own (by omega)
      · exact absurd hroom.members (by omega)
      · exact absurd hroom.groups (by omega)
      · exact join_held ht hn hr hroom hw hk ho
    · exact join_no_room ht hn hr hroom ho
  case member =>
    have hg := memberOf_ok hn hm
    exact ⟨leave_completes ht hg hs, fun hp => gbar_passed ht hg hs hp,
      fun hp => ⟨fun hf => gbar_last ht hg hs hp hf, fun hf => gbar_waits ht hg hs hp hf⟩⟩
  case undrained =>
    have hg := memberOf_ok hn hm
    exact ⟨leave_undrained ht hg hs, gbar_undrained ht hg hs⟩
  case stranger =>
    have hg := memberOf_stranger hn hm
    exact ⟨leave_stranger ht hg ho, gbar_stranger ht hg ho⟩

end Sys2Proof.Machine
end

section
/-! PROOFS. Exclusive objects and places (R123 to R129, R384): what XNEW, XFREE and XREQ take, what an owner does with its place,
what XSTAT reads and what a walk grants. -/

namespace Sys2Proof.Machine

open Sys2Proof

/-! ## XNEW (R124, R384) -/

/-- A word of XNEW that R124 refuses. -/
def BadObjectWord (x : Word) : Prop :=
  bits x 63 16 ≠ 0 ∨ bits x 3 1 ≠ 0 ∨ (!bit x 0 ∧ bits x 15 4 ≠ 0)

theorem badObjectWord_iff {x : Word} : BadObjectWord x ↔
    x.extractLsb 63 16 ≠ 0 ∨ x.extractLsb 3 1 ≠ 0 ∨ x.getLsbD 0 = false ∧ x.extractLsb 15 4 ≠ 0 := by
  simp only [BadObjectWord, bit_eq, Bool.not_eq_true', ne_eq, bits_zero x 63 16, bits_zero x 3 1, bits_zero x 15 4]

/-- The object that XNEW makes (R124). -/
def newObject (x : Word) (ctx : Nat) : SyncObj :=
  { ranked := x.getLsbD 0, ranks := (x.extractLsb 15 4).toNat + 1, round := 0, nextRank := 0, queue := [], granted := none,
    walking := false, walkTid := 0, ctx := ctx }

section
variable {s : State} {t : Thread} {d a : GReg} (ht : Issues s t)
include ht

theorem xnew_refused (h : BadObjectWord (readG t a)) (ho : t.inTrap = false) : Traps s t (.xnew d a) .handle (readG t a) := by
  have hi : exec (.xnew d a) s = execXnew d a s := rfl
  exact traps_of_perform hi ht ho (if_pos h)

variable (h : ¬BadObjectWord (readG t a))
include h

theorem xnew_none_free (hf : 4096 ≤ freeKey 0 (s.cluster (t.lcore / 128)).objects) : WritesG s t (.xnew d a) d 0 := by
  have hi : exec (.xnew d a) s = execXnew d a s := rfl
  exact completes_of_effect hi ht ((if_neg h).trans (if_pos hf))

theorem xnew_completes {cl n : Nat} (hcl : cl = t.lcore / 128) (hn : n = freeKey 0 (s.cluster cl).objects) (hf : n < 4096) :
    Completes s (.xnew d a)
      (s.setCluster cl { s.cluster cl with objects := tset (s.cluster cl).objects n (newObject (readG t a) t.ctx) })
      (fun r => writeG r d (syncHandle ((s.cluster cl).objGen n) n 0 cl)) (t.pc + 4) := by
  subst hcl hn
  have hi : exec (.xnew d a) s = execXnew d a s := rfl
  refine completes_of_effect hi ht ((if_neg h).trans ((if_neg (Nat.not_le.2 hf)).trans ?_))
  simp only [newObject, ← bit_eq, ← bits_extract (readG t a) 15 4]
  rfl

end

/-! ## XFREE (R124, R384) -/

section
variable {s : State} {t : Thread} {a : GReg} (ht : Issues s t)
include ht

theorem xfree_no_object (hx : objectOf s (t.lcore / 128) (readG t a) = none) (ho : t.inTrap = false) :
    Traps s t (.xfree a) .handle (readG t a) := by
  have hi : exec (.xfree a) s = execXfree a s := rfl
  exact traps_of_perform hi ht ho (by simp only [hx]; rfl)

theorem xfree_busy {m : Nat} {o : SyncObj} (hx : objectOf s (t.lcore / 128) (readG t a) = some (m, o))
    (hb : o.queue ≠ [] ∨ o.granted ≠ none) (ho : t.inTrap = false) : Traps s t (.xfree a) .handle (readG t a) := by
  have hi : exec (.xfree a) s = execXfree a s := rfl
  have hb' : o.queue ≠ [] ∨ o.granted.isSome := hb.imp_right Option.isSome_iff_ne_none.2
  exact traps_of_perform hi ht ho (by simp only [hx, if_pos hb']; rfl)

theorem xfree_completes {m : Nat} {o : SyncObj} (hx : objectOf s (t.lcore / 128) (readG t a) = some (m, o))
    (hq : o.queue = []) (hg : o.granted = none) : Completes s (.xfree a) (s.modCluster (t.lcore / 128) fun c =>
      { c with objects := tdel c.objects m, objGens := tset c.objGens m (nextGen (c.objGen m)) }) id (t.pc + 4) := by
  have hi : exec (.xfree a) s = execXfree a s := rfl
  exact completes_of_effect hi ht (by simp [hx, hq, hg, Effect.onRegs, seqPc])

end

/-! ## XREQ (R127, R128) -/

/-- The place that XREQ queues (R127). -/
def requestedPlace (s s1 : State) (t : Thread) (m : Nat) (o : SyncObj) (rank : Word) : Place :=
  { obj := m, owner := s1.cur, requester := s1.cur, ordinal := t.xreqOrdinal,
    round := if o.ranked then requestRound (s.cluster (t.lcore / 128)) o rank.toNat else 0, rank := rank.toNat, state := .queued }

/-- A place stands last in the queue of its object (R127). -/
def queuePlace (s : State) (cl m i : Nat) (p : Place) : State :=
  modObj (s.modCluster cl fun c => { c with places := tset c.places i p }) cl m fun o => { o with queue := o.queue ++ [i] }

/-- A rank that XREQ may not ask an object for (R127, R128). -/
def BadRank (c : Cluster) (o : SyncObj) (rank : Word) : Prop :=
  (!o.ranked ∧ rank ≠ 0) ∨ (o.ranked ∧ (o.ranks ≤ rank.toNat ∨ rankHeld c o rank.toNat))

theorem not_badRank {c : Cluster} {o : SyncObj} {rank : Word} (hp : o.ranked = false → rank = 0)
    (hr : o.ranked = true → rank.toNat < o.ranks ∧ rankHeld c o rank.toNat = false) : ¬BadRank c o rank := by
  rintro (⟨hk, h⟩ | ⟨hk, h⟩)
  · exact h (hp (by simpa using hk))
  · obtain ⟨hlt, hfree⟩ := hr hk
    rcases h with h | h
    · omega
    · exact Bool.false_ne_true (hfree.symm.trans h)

section
variable {s : State} {t : Thread} {d a b : GReg} (ht : Issues s t)
include ht

theorem xreq_no_object (hx : objectOf s (t.lcore / 128) (readG t a) = none) (ho : t.inTrap = false) :
    Traps s t (.xreq d a b) .handle (readG t a) := by
  have hi : exec (.xreq d a b) s = execXreq d a b s := rfl
  exact traps_of_perform hi ht ho (by simp only [hx]; rfl)

variable {m : Nat} {o : SyncObj} (hx : objectOf s (t.lcore / 128) (readG t a) = some (m, o))
include hx

theorem xreq_bad_rank (h : BadRank (s.cluster (t.lcore / 128)) o (readG t b)) (ho : t.inTrap = false) :
    Traps s t (.xreq d a b) .handle (readG t b) := by
  have hi : exec (.xreq d a b) s = execXreq d a b s := rfl
  exact traps_of_perform hi ht ho (by simp only [hx]; exact if_pos h)

variable (h : ¬BadRank (s.cluster (t.lcore / 128)) o (readG t b))
include h

theorem xreq_none_free (hf : 32768 ≤ freeKey 0 (s.cluster (t.lcore / 128)).places) : WritesG s t (.xreq d a b) d 0 := by
  have hi : exec (.xreq d a b) s = execXreq d a b s := rfl
  exact completes_of_effect hi ht (by simp only [hx]; exact (if_neg h).trans (if_pos hf))

theorem xreq_completes {s1 s3 : State} {i : Nat} (hi : i = freeKey 0 (s.cluster (t.lcore / 128)).places) (hf : i < 32768)
    (hlog : (if o.ranked then .ok (none, s) else passesLogged s t) = Except.ok (none, s1))
    (hdec : decide (queuePlace s1 (t.lcore / 128) m i (requestedPlace s s1 t m o (readG t b))) t.decider (t.lcore / 128) m true
      (queuePlace s1 (t.lcore / 128) m i (requestedPlace s s1 t m o (readG t b))).cur = .ok s3) :
    Completes s (.xreq d a b) s3
      (fun r => writeG { r with xreqOrdinal := if o.ranked then r.xreqOrdinal else r.xreqOrdinal + 1 } d
        (syncHandle ((s.cluster (t.lcore / 128)).placeGen i) m i (t.lcore / 128))) (t.pc + 4) := by
  subst hi
  have hi : exec (.xreq d a b) s = execXreq d a b s := rfl
  refine completes_of_effect hi ht ?_
  simp only [hx]
  refine (if_neg h).trans ((if_neg (Nat.not_le.2 hf)).trans ?_)
  rw [hlog]
  simp only [requestedPlace, queuePlace] at hdec
  simp only [hdec]
  rfl

end

/-- Settles O26: XNEW by its word and the free objects, XFREE by the places, XREQ by the object, the rank and the free places. -/
theorem objectsAndPlacesAreTakenLowestFirst : Obligations.ObjectsAndPlacesAreTakenLowestFirst := by
  unfold Obligations.ObjectsAndPlacesAreTakenLowestFirst
  intro s t d a b ht x cl c n
  refine ⟨fun h63 h3 h15 => ?new, fun ho h => xnew_refused ht (badObjectWord_iff.2 h) ho,
    fun ho hx => ⟨xfree_no_object ht hx ho, xreq_no_object ht hx ho⟩, fun m o hx => ⟨fun ho h => ?rank, fun hf hp hr => ?none⟩,
    fun m o hx hq hg => xfree_completes ht hx hq hg, fun m o hx hb ho => xfree_busy ht hx hb ho, ?request⟩
  case new =>
    have hok : ¬BadObjectWord x := by
      rw [badObjectWord_iff]
      rintro (h | h | ⟨hk, h⟩)
      · exact h h63
      · exact h h3
      · rcases h15 with h15 | h15
        · exact Bool.false_ne_true (hk.symm.trans h15)
        · exact h h15
    exact ⟨fun hf => xnew_completes ht hok rfl rfl hf, fun hf => xnew_none_free ht hok hf⟩
  case rank => exact xreq_bad_rank ht hx (by simpa only [BadRank, Bool.not_eq_true'] using h) ho
  case none => exact xreq_none_free ht hx (not_badRank hp hr) hf
  case request =>
    intro m o s1 s3 hx hp hr i p s2 hf hdec
    refine xreq_completes ht hx (not_badRank (fun hk => (hp hk).1) fun hk => ⟨(hr hk).1, (hr hk).2.1⟩) rfl hf ?_ hdec
    cases hk : o.ranked with
    | false => exact (hp hk).2
    | true => rw [(hr hk).2.2]; rfl

end Sys2Proof.Machine
end

section
/-! PROOFS. What the owner of a place does with it (R125, R128, R129), what XSTAT reads (R123), and what a walk grants (R129). -/

namespace Sys2Proof.Machine

open Sys2Proof

/-! ## The place of an operand (R128) -/

theorem placeOf_live_place {s : State} {cl i : Nat} {h : Word} {p : Place} (hp : placeOf s cl h = .live i p) :
    tget (s.cluster cl).places i = some p := by
  unfold placeOf at hp
  simp only at hp
  split at hp
  · cases hp
  · split at hp
    · split at hp
      · cases hp
      · split at hp
        · next hget _ _ => cases hp; exact hget
        · cases hp
    · cases hp

theorem ownPlace_place {s : State} {t : Thread} {tid i : Nat} {h : Word} {p : Place} (hp : ownPlace s t tid h = .ok (i, p)) :
    tget (s.cluster (t.lcore / 128)).places i = some p := by
  unfold ownPlace at hp
  split at hp
  · next hl =>
    split at hp
    · cases hp; exact placeOf_live_place hl
    · cases hp
  · cases hp

theorem ownPlace_stranger {s : State} {t : Thread} {tid : Nat} {h : Word}
    (hp : ∀ i p, placeOf s (t.lcore / 128) h = .live i p → p.owner ≠ tid) :
    ownPlace s t tid h = .error (.trap .handle h) := by
  unfold ownPlace
  split
  · next hl => exact if_neg (hp _ _ hl)
  · rfl

/-- A value that is no place of the thread's own raises HANDLE in every instruction of an owner (R128). -/
theorem owners_refused {s : State} {t : Thread} (d a b : GReg) (ht : Issues s t) (ho : t.inTrap = false)
    (h : ownPlace s t s.cur (readG t a) = .error (.trap .handle (readG t a))) :
    Traps s t (.xwait a) .handle (readG t a) ∧ Traps s t (.xtry d a) .handle (readG t a) ∧
      Traps s t (.xgive a b) .handle (readG t a) ∧ Traps s t (.xswap a b) .handle (readG t a) ∧
      Traps s t (.xrel a) .handle (readG t a) ∧ Traps s t (.xdrop a) .handle (readG t a) := by
  have hwait : exec (.xwait a) s = execXwait a s := rfl
  have htry : exec (.xtry d a) s = execXtry d a s := rfl
  have hgive : exec (.xgive a b) s = execXgive a b s := rfl
  have hswap : exec (.xswap a b) s = execXswap a b s := rfl
  have hrel : exec (.xrel a) s = execXrel a s := rfl
  have hdrop : exec (.xdrop a) s = execXdrop a s := rfl
  refine ⟨traps_of_perform hwait ht ho ?_, traps_of_perform htry ht ho ?_, traps_of_perform hgive ht ho ?_,
    traps_of_perform hswap ht ho ?_, traps_of_perform hrel ht ho ?_, traps_of_perform hdrop ht ho ?_⟩
  all_goals simp only [h]

section
variable {s : State} {t : Thread} {d a b : GReg} {i : Nat} {p : Place} (ht : Issues s t)
  (hown : ownPlace s t s.cur (readG t a) = .ok (i, p))
include ht hown

/-! ## XWAIT and XTRY (R128) -/

theorem xwait_granted (hp : p.state = .granted) : Completes s (.xwait a) (acquireFor s t) id (t.pc + 4) := by
  have hi : exec (.xwait a) s = execXwait a s := rfl
  exact completes_of_effect hi ht (by simp only [hown, hp]; rfl)

theorem xwait_queued (hp : p.state = .queued) : Waits s (.xwait a) s (.place (readG t a)) := by
  have hi : exec (.xwait a) s = execXwait a s := rfl
  exact waits_of_perform hi ht (by simp only [hown, hp])

theorem xwait_abandoned (hp : p.state = .abandoned) (ho : t.inTrap = false) : Traps s t (.xwait a) .handle (readG t a) := by
  have hi : exec (.xwait a) s = execXwait a s := rfl
  exact traps_of_perform hi ht ho (by simp only [hown, hp]; rfl)

theorem xtry_granted (hp : p.state = .granted) :
    Completes s (.xtry d a) (acquireFor s t) (fun r => writeG r d 1) (t.pc + 4) := by
  have hi : exec (.xtry d a) s = execXtry d a s := rfl
  exact completes_of_effect hi ht (by simp only [hown, hp, if_true]; rfl)

theorem xtry_not_granted (hp : p.state ≠ .granted) : WritesG s t (.xtry d a) d 0 := by
  have hi : exec (.xtry d a) s = execXtry d a s := rfl
  exact completes_of_effect hi ht (by simp only [hown, hp, decide_false]; rfl)

/-! ## XGIVE (R125, R128, R135) -/

theorem xgive_no_peer (h : ∀ x, s.thread? ((readG t b).extractLsb 15 0).toNat = some x → x.ctx ≠ t.ctx)
    (ho : t.inTrap = false) : Traps s t (.xgive a b) .handle (readG t b) := by
  have hi : exec (.xgive a b) s = execXgive a b s := rfl
  refine traps_of_perform hi ht ho ?_
  simp only [hown, bits_extract (readG t b) 15 0]
  cases hx : s.thread? ((readG t b).extractLsb 15 0).toNat with
  | none => rfl
  | some x => simp [h x hx, trapWith]

theorem xgive_self (h : ((readG t b).extractLsb 15 0).toNat = s.cur) : Completes s (.xgive a b) s id (t.pc + 4) := by
  have hi : exec (.xgive a b) s = execXgive a b s := rfl
  have ht' : s.thread? s.cur = some t := ht
  exact completes_of_effect hi ht (by simp [hown, bits_extract (readG t b) 15 0, h, ht', Effect.onRegs, seqPc])

variable {x : Thread} (hx : s.thread? ((readG t b).extractLsb 15 0).toNat = some x) (hc : x.ctx = t.ctx)
  (hne : ((readG t b).extractLsb 15 0).toNat ≠ s.cur)
include hx hc hne

theorem xgive_completes (hf : p.state = .granted → hasStores s (s.coreOf t) s.cur = false) : Completes s (.xgive a b)
    (modPlace s (t.lcore / 128) i fun q => { q with owner := ((readG t b).extractLsb 15 0).toNat }) id (t.pc + 4) := by
  have hi : exec (.xgive a b) s = execXgive a b s := rfl
  have hd : (if p.state = .granted then drained s t else .ok ()) = .ok () := by
    split
    · next hp => exact drained_ok (hf hp)
    · rfl
  refine completes_of_effect hi ht ?_
  simp only [hown, bits_extract (readG t b) 15 0, hx, hc, decide_true, Bool.not_true, Bool.false_eq_true, if_neg hne, if_false, hd]
  rfl

theorem xgive_undrained (hp : p.state = .granted) (hs : hasStores s (s.coreOf t) s.cur = true) :
    Waits s (.xgive a b) s .storeBuffer := by
  have hi : exec (.xgive a b) s = execXgive a b s := rfl
  refine waits_of_perform hi ht ?_
  simp only [hown, bits_extract (readG t b) 15 0, hx, hc, decide_true, Bool.not_true, Bool.false_eq_true, if_neg hne, if_false, hp,
    if_true, drained_wait hs]

end

/-! ## XSWAP (R128, R129) -/

/-- The place `j` comes after the place `i` in the order of their object (R128). -/
def comesLater (o : SyncObj) (p q : Place) (i j : Nat) : Bool :=
  if o.ranked then p.round < q.round || (p.round = q.round && p.rank < q.rank)
  else o.queue.idxOf i < o.queue.idxOf j

/-- A second place that XSWAP refuses (R128). -/
def NoSwap (o : SyncObj) (p q : Place) (i j : Nat) : Prop :=
  q.obj ≠ p.obj ∨ q.state ≠ .queued ∨ !comesLater o p q i j

theorem comesLater_ranked {o : SyncObj} {p q : Place} {i j : Nat} (h : o.ranked = true) :
    comesLater o p q i j = true ↔ p.round < q.round ∨ p.round = q.round ∧ p.rank < q.rank := by
  simp [comesLater, h]

theorem comesLater_plain {o : SyncObj} {p q : Place} {i j : Nat} (h : o.ranked = false) :
    comesLater o p q i j = true ↔ o.queue.idxOf i < o.queue.idxOf j := by
  simp [comesLater, h]

theorem not_noSwap {o : SyncObj} {p q : Place} {i j : Nat} (hobj : q.obj = p.obj) (hq : q.state = .queued)
    (hl : comesLater o p q i j = true) : ¬NoSwap o p q i j := by
  simp [NoSwap, hobj, hq, hl]

/-- The order or the ranks by which XSWAP refuses a second place (R128, R129). -/
theorem noSwap_of_order {o : SyncObj} {p q : Place} {i j : Nat}
    (h : q.obj ≠ p.obj ∨ q.state ≠ .queued ∨ (o.ranked = false ∧ o.queue.idxOf j ≤ o.queue.idxOf i) ∨
      (o.ranked = true ∧ (q.round < p.round ∨ q.round = p.round ∧ q.rank ≤ p.rank))) : NoSwap o p q i j := by
  rcases h with h | h | ⟨hk, h⟩ | ⟨hk, h⟩
  · exact .inl h
  · exact .inr (.inl h)
  · refine .inr (.inr ?_)
    rw [Bool.not_eq_true', Bool.eq_false_iff, ne_eq, comesLater_plain hk]
    omega
  · refine .inr (.inr ?_)
    rw [Bool.not_eq_true', Bool.eq_false_iff, ne_eq, comesLater_ranked hk]
    omega

section
variable {s : State} {t : Thread} {a b : GReg} {i : Nat} {p : Place} (ht : Issues s t)
  (hown : ownPlace s t s.cur (readG t a) = .ok (i, p))
include ht hown

theorem xswap_not_queued (hp : p.state ≠ .queued) (ho : t.inTrap = false) : Traps s t (.xswap a b) .handle (readG t a) := by
  have hi : exec (.xswap a b) s = execXswap a b s := rfl
  exact traps_of_perform hi ht ho (by simp only [hown]; exact if_pos hp)

variable {j : Nat} {q : Place} {o : SyncObj} (hp : p.state = .queued)
  (hplace : placeOf s (t.lcore / 128) (readG t b) = .live j q) (hobj : tget (s.cluster (t.lcore / 128)).objects p.obj = some o)
include hp hplace hobj

theorem xswap_refused (h : NoSwap o p q i j) (ho : t.inTrap = false) : Traps s t (.xswap a b) .handle (readG t b) := by
  have hi : exec (.xswap a b) s = execXswap a b s := rfl
  refine traps_of_perform hi ht ho ?_
  simp only [hown, hp, ne_eq, not_true_eq_false, if_false, hplace, hobj]
  exact if_pos h

variable (h : ¬NoSwap o p q i j)
include h

theorem xswap_ranked {s2 : State} (hk : o.ranked = true)
    (hdec : decide (modPlace (modPlace s (t.lcore / 128) i fun x => { x with round := q.round, rank := q.rank })
      (t.lcore / 128) j fun x => { x with round := p.round, rank := p.rank }) t.decider (t.lcore / 128) p.obj true s.cur = .ok s2) :
    Completes s (.xswap a b) s2 id (t.pc + 4) := by
  have hi : exec (.xswap a b) s = execXswap a b s := rfl
  refine completes_of_effect hi ht ?_
  simp only [hown, hp, ne_eq, not_true_eq_false, if_false, hplace, hobj]
  refine (if_neg h).trans ?_
  simp only [hk, if_true]
  exact congrArg (Except.map _) hdec

theorem xswap_plain {s2 : State} (hk : o.ranked = false)
    (hdec : decide (modObj s (t.lcore / 128) p.obj fun o => { o with queue := swapEntries o.queue i j }) t.decider
      (t.lcore / 128) p.obj true s.cur = .ok s2) :
    Completes s (.xswap a b) s2 id (t.pc + 4) := by
  have hi : exec (.xswap a b) s = execXswap a b s := rfl
  refine completes_of_effect hi ht ?_
  simp only [hown, hp, ne_eq, not_true_eq_false, if_false, hplace, hobj]
  refine (if_neg h).trans ?_
  simp only [hk, Bool.false_eq_true, if_false]
  exact congrArg (Except.map _) hdec

end

/-! ## XREL and XDROP (R125, R128, R129) -/

/-- A queued place of a ranked object is abandoned (R125). -/
theorem dropQueued_ranked {s : State} {d : Decider} {cl i : Nat} {p : Place} {o : SyncObj}
    (hp : tget (s.cluster cl).places i = some p) (ho : tget (s.cluster cl).objects p.obj = some o) (hk : o.ranked = true) :
    dropQueued s d cl i = .ok (abandonPlace s cl i) := by
  simp [dropQueued, hp, ho, hk]

/-- A queued place that the log does not name next is abandoned, and what it held back passes (R129, R136). -/
theorem dropQueued_plain {s s1 : State} {d : Decider} {cl i : Nat} {p : Place} {o : SyncObj}
    (hp : tget (s.cluster cl).places i = some p) (ho : tget (s.cluster cl).objects p.obj = some o) (hk : o.ranked = false)
    (hd : d.quiet = false) (hl : dropsLogged s d p = .ok (none, s1)) :
    dropQueued s d cl i = .ok (passIdle (abandonPlace s1 cl i) cl p.obj) := by
  simp [dropQueued, hp, ho, hk, hd, hl]

section
variable {s : State} {t : Thread} {a : GReg} {i : Nat} {p : Place} (ht : Issues s t)
  (hown : ownPlace s t s.cur (readG t a) = .ok (i, p))
include ht hown

theorem xrel_not_granted (hp : p.state ≠ .granted) (ho : t.inTrap = false) : Traps s t (.xrel a) .handle (readG t a) := by
  have hi : exec (.xrel a) s = execXrel a s := rfl
  exact traps_of_perform hi ht ho (by simp only [hown]; exact if_neg hp)

theorem xrel_undrained (hp : p.state = .granted) (hs : hasStores s (s.coreOf t) s.cur = true) :
    Waits s (.xrel a) s .storeBuffer := by
  have hi : exec (.xrel a) s = execXrel a s := rfl
  exact waits_of_perform hi ht (by simp only [hown, hp, if_true, releaseFor, drained_wait hs])

theorem xdrop_undrained (hp : p.state = .granted) (hs : hasStores s (s.coreOf t) s.cur = true) :
    Waits s (.xdrop a) s .storeBuffer := by
  have hi : exec (.xdrop a) s = execXdrop a s := rfl
  exact waits_of_perform hi ht (by simp only [hown, hp, releaseFor, drained_wait hs])

theorem xrel_releases {s2 : State} (hp : p.state = .granted) (hs : hasStores s (s.coreOf t) s.cur = false)
    (hr : releasePlace s t.decider (t.lcore / 128) i s.cur = .ok s2) : Completes s (.xrel a) s2 id (t.pc + 4) := by
  have hi : exec (.xrel a) s = execXrel a s := rfl
  exact completes_of_effect hi ht (by simp only [hown, hp, if_true, releaseFor, drained_ok hs, hr]; rfl)

theorem xdrop_releases {s2 : State} (hp : p.state = .granted) (hs : hasStores s (s.coreOf t) s.cur = false)
    (hr : releasePlace s t.decider (t.lcore / 128) i s.cur = .ok s2) : Completes s (.xdrop a) s2 id (t.pc + 4) := by
  have hi : exec (.xdrop a) s = execXdrop a s := rfl
  exact completes_of_effect hi ht (by simp only [hown, hp, releaseFor, drained_ok hs, hr]; rfl)

theorem xdrop_queued {s2 : State} (hp : p.state = .queued) (hd : dropQueued s t.decider (t.lcore / 128) i = .ok s2) :
    Completes s (.xdrop a) s2 id (t.pc + 4) := by
  have hi : exec (.xdrop a) s = execXdrop a s := rfl
  exact completes_of_effect hi ht (by simp only [hown, hp, hd]; rfl)

theorem xdrop_abandoned (hp : p.state = .abandoned) : Completes s (.xdrop a) s id (t.pc + 4) := by
  have hi : exec (.xdrop a) s = execXdrop a s := rfl
  exact completes_of_effect hi ht (by simp only [hown, hp]; rfl)

end

/-- Settles O27: each instruction of an owner by the state of the place, its operands, and the thread's stores. -/
theorem ownersWaitTryGiveSwapDropAndRelease : Obligations.OwnersWaitTryGiveSwapDropAndRelease := by
  unfold Obligations.OwnersWaitTryGiveSwapDropAndRelease
  refine ⟨fun s t d a b ht ho h => owners_refused d a b ht ho (ownPlace_stranger h), ?_⟩
  intro s t d a b i p ht h cl free hown
  have hplace := ownPlace_place hown
  have hdrained (hf : free = true) : hasStores s (s.coreOf t) s.cur = false := by simpa [free] using hf
  have hwaiting (hf : free = false) : hasStores s (s.coreOf t) s.cur = true := by simpa [free] using hf
  refine ⟨fun hp => ⟨xwait_granted ht hown hp, xtry_granted ht hown hp⟩, fun hp => xtry_not_granted ht hown hp,
    fun hp => xwait_queued ht hown hp, fun hp ho => xwait_abandoned ht hown hp ho,
    fun x hx hc hne hf => xgive_completes ht hown hx hc hne fun hp => hdrained (hf hp),
    fun hp hf => ⟨fun x hx hc hne => xgive_undrained ht hown hx hc hne hp (hwaiting hf),
      xrel_undrained ht hown hp (hwaiting hf), xdrop_undrained ht hown hp (hwaiting hf)⟩,
    fun hself => xgive_self ht hown hself, fun ho hx => xgive_no_peer ht hown hx ho,
    fun hp ho => xswap_not_queued ht hown hp ho,
    fun j q o hp hl hobj ho hno => xswap_refused ht hown hp hl hobj (noSwap_of_order hno) ho,
    fun j q o s2 hp hl hobj hk hq hst hlater hdec => ?ranked, fun j q o s2 hp hl hobj hk hq hst hlater hdec => ?plain,
    fun s2 hp hf hr => ⟨xrel_releases ht hown hp (hdrained hf) hr, xdrop_releases ht hown hp (hdrained hf) hr⟩,
    fun o hp hobj => ⟨fun hk => xdrop_queued ht hown hp (dropQueued_ranked hplace hobj hk),
      fun s1 hk hl => xdrop_queued ht hown hp (dropQueued_plain hplace hobj hk rfl hl)⟩,
    fun hp => xdrop_abandoned ht hown hp, fun hp ho => xrel_not_granted ht hown hp ho⟩
  case ranked => exact xswap_ranked ht hown hp hl hobj (not_noSwap hq hst ((comesLater_ranked hk).2 hlater)) hk hdec
  case plain => exact xswap_plain ht hown hp hl hobj (not_noSwap hq hst ((comesLater_plain hk).2 hlater)) hk hdec

/-! ## XSTAT and the walk of a release (R123, R128, R129) -/

/-- A change of an object stands in the table. -/
theorem modObj_object {s : State} {cl n : Nat} {o : SyncObj} (h : tget (s.cluster cl).objects n = some o)
    (f : SyncObj → SyncObj) : tget ((modObj s cl n f).cluster cl).objects n = some (f o) := by
  simp [modObj, h]

/-- A change of a place leaves the objects. -/
theorem modPlace_objects (s : State) (cl i : Nat) (f : Place → Place) :
    ((modPlace s cl i f).cluster cl).objects = (s.cluster cl).objects := by
  unfold modPlace
  rw [State.cluster_modCluster_same]
  split <;> rfl

/-- An object that grants a place holds it and walks no more (R129). -/
theorem grantPlace_object {s : State} {cl n : Nat} {o : SyncObj} (h : tget (s.cluster cl).objects n = some o) (i : Nat) :
    tget ((grantPlace s cl n i).cluster cl).objects n =
      some { o with queue := o.queue.filter (· ≠ i), granted := some i, walking := false } := by
  unfold grantPlace
  simp only
  split
  · rw [wakeOne_frame]
    exact (congrArg (tget · n) (modPlace_objects ..)).trans (modObj_object h _)
  · exact (congrArg (tget · n) (modPlace_objects ..)).trans (modObj_object h _)

/-- A clock of a walk is the walk of its object (R129). -/
theorem exec_releaseWalk {s s' : State} {cl n : Nat} {o : SyncObj} (h : tget (s.cluster cl).objects n = some o)
    (hw : o.walking = true) (hr : walkObject none cl n 8 s = .ok s') : exec (.releaseWalk cl n) s = .next s' := by
  show execReleaseWalk cl n s = _
  simp [execReleaseWalk, h, hw, hr]

theorem walkObject_queued {s : State} {cl n i left : Nat} {o : SyncObj} (h : tget (s.cluster cl).objects n = some o)
    (hh : walkHead (s.cluster cl) o = .queued i) : walkObject none cl n left s = .ok (grantPlace s cl n i) := by
  unfold walkObject
  simp only [h, hh]
  rfl

theorem walkObject_nobody {s : State} {cl n left : Nat} {o : SyncObj} (h : tget (s.cluster cl).objects n = some o)
    (hh : walkHead (s.cluster cl) o = .nobody) :
    walkObject none cl n left s = .ok (modObj s cl n fun o => { o with walking := false }) := by
  unfold walkObject
  simp only [h, hh]

/-- Settles O28: XSTAT by what its operand names, and a clock of a walk by what stands at the head of the object. -/
theorem xstatReadsAndWalksGrant : Obligations.XstatReadsAndWalksGrant := by
  unfold Obligations.XstatReadsAndWalksGrant
  intro s t d a ht cl
  have hi : exec (.xstat d a) s = execXstat d a s := rfl
  refine ⟨fun hp => completes_of_effect hi ht (by simp only [cl] at hp; simp only [hp]; rfl),
    fun i p o hp ho => completes_of_effect hi ht (by simp only [cl] at hp ho; simp only [hp, ho]; rfl),
    fun obj o i ho hw hh => ?_, fun obj o ho hw hh => ?_⟩
  · exact ⟨exec_releaseWalk ho hw (walkObject_queued ho hh), _, grantPlace_object ho i, rfl, rfl⟩
  · exact ⟨_, exec_releaseWalk ho hw (walkObject_nobody ho hh), modObj_object ho _⟩

end Sys2Proof.Machine
end

section
/-! PROOFS. The key registers (R52, R130, R131), and the traps of software with their return (R133, R137, R139). -/

namespace Sys2Proof.Machine

open Sys2Proof

/-! ## Keys -/

/-- A pair that retires changes no thread (R131). -/
@[simp] theorem retireKey_thread (s : State) (ctx : Nat) (k : KeyReg) (n : Nat) : (retireKey s ctx k).thread? n = s.thread? n := by
  unfold retireKey
  split <;> rfl

/-- A pair that retires leaves LOGMODE (R131). -/
theorem retireKey_logMode (s : State) (ctx : Nat) (k : KeyReg) : ((retireKey s ctx k).ctx ctx).logMode = (s.ctx ctx).logMode := by
  unfold retireKey
  split
  · rw [State.ctx_modCtx_same]
  · rfl

theorem newKey_unused {s : State} {t : Thread} {k : KReg} {key : KeyReg}
    (h : keyUsed (retireKey s t.ctx (readK t k)) t k.toNat key = false) :
    newKey s t k key = .onRegs (retireKey s t.ctx (readK t k)) t fun x => writeK x k key := by
  simp [newKey, h, Effect.onRegs]

theorem newKey_reused {s : State} {t : Thread} {k : KReg} {key : KeyReg}
    (h : keyUsed (retireKey s t.ctx (readK t k)) t k.toNat key = true) (hm : (s.ctx t.ctx).logMode.getLsbD 2 = false) :
    newKey s t k key = { Effect.onRegs (retireKey s t.ctx (readK t k)) t (fun x => writeK x k key) with
      after := some (.keyreuse, keyWord0 key, true) } := by
  simp only [newKey, h, bit_eq, retireKey_logMode, hm, Bool.not_false, Bool.and_true, if_true]

/-- The key that KSET writes (R130). -/
def setKey (x seed : Word) : KeyReg :=
  { valid := true, tensor := x.extractLsb 55 32, step := x.extractLsb 31 0, seed := seed }

theorem exec_kset (k : KReg) (a b : GReg) (s : State) : exec (.kset k a b) s =
    perform s fun s t => .ok (newKey s t k (setKey (readG t a) (readG t b))) := by
  have hx (x : Word) : BitVec.ofNat 24 (bits x 55 32) = x.extractLsb 55 32 ∧ BitVec.ofNat 32 (bits x 31 0) = x.extractLsb 31 0 := by
    rw [bits_extract x 55 32, bits_extract x 31 0]
    exact ⟨BitVec.ofNat_toNat .. |>.trans (BitVec.setWidth_eq _), BitVec.ofNat_toNat .. |>.trans (BitVec.setWidth_eq _)⟩
  show execKset k a b s = _
  simp only [execKset, setKey, hx]

section
variable {s : State} {t : Thread} {d a b : GReg} {k : KReg} (ht : Issues s t)
include ht

theorem kset_completes (h : keyUsed (retireKey s t.ctx (readK t k)) t k.toNat (setKey (readG t a) (readG t b)) = false) :
    Completes s (.kset k a b) (retireKey s t.ctx (readK t k)) (fun r => writeK r k (setKey (readG t a) (readG t b))) (t.pc + 4) :=
  completes_of_effect (exec_kset ..) ht (congrArg Except.ok (newKey_unused h))

/-- A pair in use gives the warning KEYREUSE after KSET (R131). -/
theorem kset_warns (h : keyUsed (retireKey s t.ctx (readK t k)) t k.toNat (setKey (readG t a) (readG t b)) = true)
    (ho : t.inTrap = false) (hm : (s.ctx t.ctx).logMode.getLsbD 2 = false) :
    ∃ s', exec (.kset k a b) s = .next s' ∧ s'.thread? s.cur =
      some (enterTrap (advance (writeK t k (setKey (readG t a) (readG t b))) (t.pc + 4)) .keyreuse
        (keyWord0 (setKey (readG t a) (readG t b))) (t.pc + 4) true true 0) :=
  trapsAfter_of_perform (x := t) (exec_kset ..) ht (congrArg Except.ok (newKey_reused h hm)) rfl
    ((retireKey_thread ..).trans ht) ho

theorem kget_word0 : WritesG s t (.kget d k 0) d (keyWord0 (readK t k)) := by
  have hi : exec (.kget d k 0) s = execKget d k 0 s := rfl
  exact completes_of_effect hi ht (if_pos rfl)

theorem invalid_key_refused (index : BitVec 4) (hv : (readK t k).valid = false) (ho : t.inTrap = false) :
    Traps s t (.kstep k a) .illegal (keyWord0 (readK t k)) ∧ Traps s t (.kget d k 1) .illegal (keyWord0 (readK t k)) ∧
      Traps s t (.rdraw d k b index) .illegal (keyWord0 (readK t k)) := by
  have hstep : exec (.kstep k a) s = execKstep k a s := rfl
  have hget : exec (.kget d k 1) s = execKget d k 1 s := rfl
  have hdraw : exec (.rdraw d k b index) s = execRdraw d k b index s := rfl
  have hv' : (!(readK t k).valid) = true := by rw [hv]; rfl
  exact ⟨traps_of_perform hstep ht ho (if_pos hv'), traps_of_perform hget ht ho ((if_neg (by decide)).trans (if_pos hv')),
    traps_of_perform hdraw ht ho (if_pos hv')⟩

variable (hv : (readK t k).valid = true)
include hv

theorem kstep_completes {step : KeyReg}
    (hs : step = { readK t k with step := (readK t k).step + (readG t a).extractLsb 31 0 })
    (h : keyUsed (retireKey s t.ctx (readK t k)) t k.toNat step = false) :
    Completes s (.kstep k a) (retireKey s t.ctx (readK t k)) (fun r => writeK r k step) (t.pc + 4) := by
  have hi : exec (.kstep k a) s = execKstep k a s := rfl
  have hv' : ¬(!(readK t k).valid) = true := by rw [hv]; decide
  subst hs
  exact completes_of_effect hi ht ((if_neg hv').trans (congrArg Except.ok (newKey_unused h)))

theorem kget_seed : WritesG s t (.kget d k 1) d (readK t k).seed := by
  have hi : exec (.kget d k 1) s = execKget d k 1 s := rfl
  have hv' : ¬(!(readK t k).valid) = true := by rw [hv]; decide
  exact completes_of_effect hi ht ((if_neg (by decide)).trans (if_neg hv'))

theorem rdraw_writes (index : BitVec 4) : WritesG s t (.rdraw d k b index) d
    ((keyDraw (readK t k) ((readG t b).extractLsb 47 0) (BitVec.ofNat 8 (index.toNat + 1))).setWidth 64) := by
  have hi : exec (.rdraw d k b index) s = execRdraw d k b index s := rfl
  have hv' : ¬(!(readK t k).valid) = true := by rw [hv]; decide
  exact Completes.congr (completes_of_effect hi ht (if_neg hv')) ht rfl

end

/-- Settles O29: the key instructions by the validity of the register and the use of the new pair. -/
theorem keysAreSetSteppedReadAndDrawn : Obligations.KeysAreSetSteppedReadAndDrawn := by
  unfold Obligations.KeysAreSetSteppedReadAndDrawn
  intro s t d a b k index ht key set step s1
  exact ⟨fun h => kset_completes ht h, fun hv h => kstep_completes ht hv rfl h, kget_word0 ht,
    fun hv => ⟨kget_seed ht hv, rdraw_writes ht hv index⟩, fun hv ho => invalid_key_refused ht index hv ho,
    fun h ho hm => kset_warns ht h ho hm⟩

/-! ## Software traps and the return -/

section
variable {s : State} {t : Thread} (ht : Issues s t)
include ht

theorem trap_enters (n : BitVec 7) (ho : t.inTrap = false) : ∃ s', exec (.trap n) s = .next s' ∧
    s'.thread? s.cur = some (enterTrap (advance t (t.pc + 4)) .swtrap (n.setWidth 64) (t.pc + 4) true false 0) := by
  have hi : exec (.trap n) s = execTrap n s := rfl
  exact trapsAfter_of_perform (x := t) hi ht rfl rfl ht ho

theorem brk_traps (n : BitVec 7) (ho : t.inTrap = false) : Traps s t (.brk n) .brk (n.setWidth 64) := by
  have hi : exec (.brk n) s = execBrk n s := rfl
  exact traps_of_perform hi ht ho rfl

theorem undefinedInstruction_traps (w : W32) (ho : t.inTrap = false) :
    Traps s t (.undefinedInstruction w) .illegal (w.setWidth 64) :=
  congrArg Host.Outcome.next (takeTrap_outside ht ho _ _ _)

theorem rett_user (hs : t.system = false) (ho : t.inTrap = false) : Traps s t .rett .privilege (instrWord .rett) := by
  have hi : exec .rett s = execRett s := rfl
  exact traps_of_perform hi ht ho (if_pos (by rw [hs]; rfl))

variable (hs : t.system = true)
include hs

theorem rett_outside (ho : t.inTrap = false) : Traps s t .rett .illegal (instrWord .rett) := by
  have hi : exec .rett s = execRett s := rfl
  exact traps_of_perform hi ht ho ((if_neg (by rw [hs]; decide)).trans (if_pos (by rw [ho]; rfl)))

theorem rett_returns (ho : t.inTrap = true) : Completes s .rett s returnFromTrap t.tpc := by
  have hi : exec .rett s = execRett s := rfl
  exact completes_of_effect hi ht ((if_neg (by rw [hs]; decide)).trans (if_neg (by rw [ho]; decide)))

end

/-- Settles O32: the traps of software by their instructions, RETT by the privilege and the handler, and STATUS bit by bit. -/
theorem softwareTrapsAndTheReturn : Obligations.SoftwareTrapsAndTheReturn := by
  unfold Obligations.SoftwareTrapsAndTheReturn
  intro s t n w ht
  refine ⟨fun ho => ⟨trap_enters ht n ho, brk_traps ht n ho, undefinedInstruction_traps ht w ho⟩,
    fun hs ho => rett_returns ht hs ho, fun hs ho => rett_outside ht hs ho, fun hs ho => rett_user ht hs ho,
    fun x => ⟨statusOnReturn_bit x 0, statusOnReturn_bit x 1, fun i hi => ?_⟩⟩
  rw [statusOnReturn_bit, if_neg (by omega), if_neg (by omega)]

end Sys2Proof.Machine
end

section
/-! PROOFS. Byte-counting barriers (R132, R338): the bytes of a barrier, the checks of its operand, and the waits, posts and
warnings of BCINIT, BCPOST and BCWAIT. -/

namespace Sys2Proof.Machine

open Sys2Proof

/-! ## The bytes of a barrier -/

/-- A number reads back from its bytes as far as they hold it (R5). -/
theorem leNat_leBytes (n k : Nat) : leNat (leBytes n k) = k % 256 ^ n := by
  induction n generalizing k with
  | zero => rw [pow_zero, Nat.mod_one]; rfl
  | succ n ih =>
    rw [leBytes, leNat, ih, BitVec.toNat_ofNat, Nat.mod_mod, pow_succ', Nat.mod_mul]

theorem leNat_lt (b : List Byte) : leNat b < 256 ^ b.length := by
  induction b with
  | nil => decide
  | cons x r ih =>
    have hx := x.isLt
    rw [leNat, List.length_cons, pow_succ]
    omega

/-- A count of 64 bits stands for itself. -/
theorem sextNat_wrapInt_sextNat (n : Nat) : sextNat 64 (wrapInt 64 (sextNat 64 n)) = sextNat 64 n := by
  simp only [sextNat_eq 64 (by decide), ofNat_wrapInt, BitVec.ofInt_toInt]

theorem sextNat_wrapInt (x : Int) : sextNat 64 (wrapInt 64 x) = (BitVec.ofInt 64 x).toInt := by
  rw [sextNat_eq 64 (by decide), ofNat_wrapInt]

/-- A barrier is read from the pots alone (R132). -/
theorem barrierAt_congr {s s' : State} {core : Nat} (h : (s'.core core).pots = (s.core core).pots) (addr : Nat) :
    barrierAt s' core addr = barrierAt s core addr := by
  have hread : s'.potRead core addr 11 = s.potRead core addr 11 := by rw [State.potRead, h, State.potRead]
  unfold barrierAt
  rw [hread]

theorem barrierAt_count (s : State) (core addr : Nat) :
    sextNat 64 (wrapInt 64 (barrierAt s core addr).count) = (barrierAt s core addr).count := by
  simp only [barrierAt, sextNat_wrapInt_sextNat]

theorem barrierAt_posts_lt (s : State) (core addr : Nat) : (barrierAt s core addr).posts < 65536 := by
  have hlen : ((s.potRead core addr 11).drop 8 |>.take 2).length ≤ 2 := List.length_take_le ..
  exact (leNat_lt _).trans_le (Nat.pow_le_pow_right (by decide) hlen)

/-- The byte of a barrier's flags (R132). -/
def flagByte (b : Barrier) : Nat := (if b.isOver then 1 else 0) + if b.complete then 2 else 0

theorem flagByte_bits (b : Barrier) :
    Decidable.decide (flagByte b % 256 ^ 1 % 2 = 1) = b.isOver ∧ Decidable.decide (flagByte b % 256 ^ 1 / 2 % 2 = 1) = b.complete := by
  unfold flagByte
  cases b.isOver <;> cases b.complete <;> decide

/-- The 11 bytes of a barrier, field by field (R132). -/
theorem barrierAt_of_bytes {s : State} {core addr : Nat} {count posts flags : Nat}
    (h : s.potRead core addr 11 = leBytes 8 count ++ leBytes 2 posts ++ leBytes 1 flags) :
    barrierAt s core addr = { count := sextNat 64 (count % 256 ^ 8), posts := posts % 256 ^ 2,
                              isOver := flags % 256 ^ 1 % 2 = 1, complete := flags % 256 ^ 1 / 2 % 2 = 1 } := by
  have htake : (leBytes 8 count ++ leBytes 2 posts ++ leBytes 1 flags).take 8 = leBytes 8 count := by
    rw [List.append_assoc, List.take_left' (leBytes_length ..)]
  have hmid : ((leBytes 8 count ++ leBytes 2 posts ++ leBytes 1 flags).drop 8).take 2 = leBytes 2 posts := by
    rw [List.append_assoc, List.drop_left' (leBytes_length ..), List.take_left' (leBytes_length ..)]
  have hdrop : (leBytes 8 count ++ leBytes 2 posts ++ leBytes 1 flags).drop 10 = leBytes 1 flags :=
    List.drop_left' (by rw [List.length_append, leBytes_length, leBytes_length])
  simp only [barrierAt, h, htake, hmid, hdrop, leNat_leBytes]

/-- A barrier whose fields fit reads back as it was written (R132). -/
theorem barrierAt_putBarrier {s : State} {core : Nat} (hwf : (s.core core).pots.wf = true) (addr : Nat) {b : Barrier}
    (hc : sextNat 64 (wrapInt 64 b.count) = b.count) (hp : b.posts < 65536) :
    barrierAt (putBarrier s core addr b) core addr = b := by
  have hlen : (leBytes 8 (wrapInt 64 b.count) ++ leBytes 2 b.posts ++ leBytes 1 (flagByte b)).length = 11 := by
    simp only [List.length_append, leBytes_length]
  have hread := potRead_potStore s core addr (leBytes 8 (wrapInt 64 b.count) ++ leBytes 2 b.posts ++ leBytes 1 (flagByte b)) hwf
  rw [hlen] at hread
  have hcount : wrapInt 64 b.count % 256 ^ 8 = wrapInt 64 b.count := by
    rw [wrapInt_eq]
    exact Nat.mod_eq_of_lt (BitVec.isLt _)
  obtain ⟨hover, hcomplete⟩ := flagByte_bits b
  refine (barrierAt_of_bytes (s := putBarrier s core addr b) hread).trans ?_
  have hposts : b.posts % 256 ^ 2 = b.posts := Nat.mod_eq_of_lt hp
  rw [hcount, hc, hposts, hover, hcomplete]

/-- Clearing over leaves the other fields of a barrier (R132). -/
theorem barrierAt_clearOver {s : State} {core : Nat} (hwf : (s.core core).pots.wf = true) (addr : Nat) :
    barrierAt (putBarrier s core addr { barrierAt s core addr with isOver := false }) core addr =
      { barrierAt s core addr with isOver := false } := by
  have hc := barrierAt_count s core addr
  have hp := barrierAt_posts_lt s core addr
  generalize barrierAt s core addr = x at hc hp ⊢
  exact barrierAt_putBarrier hwf addr hc hp

/-! ## The instructions -/

/-- An operand that names a barrier (R113, R132). -/
theorem barrierOf_ok {s : State} {t : Thread} {ga : Word} {core addr : Nat} (ha : ga.toNat % 16 = 0) (hp : ga.getLsbD 63 = true)
    (hr : resolve s t ga 16 .write = .ok (.pot core addr, s)) : barrierOf s t ga = .ok (core, addr, s) := by
  have hbit : ¬(!bit ga 63) = true := by rw [bit_eq, hp]; decide
  exact (if_neg (not_not.2 ha)).trans ((if_neg hbit).trans (by rw [located_ok hr]))

section
variable {s : State} {t : Thread} {d a b : GReg} {core addr : Nat} (ht : Issues s t)
  (hb : barrierOf s t (readG t a) = .ok (core, addr, s))
include ht hb

theorem barrier_held {r : WaitReason} (hr : released s t = .error (.wait r s)) :
    Waits s (.bcinit a b) s r ∧ Waits s (.bcpost a b) s r := by
  have hinit : exec (.bcinit a b) s = execBcinit a b s := rfl
  have hpost : exec (.bcpost a b) s = execBcpost a b s := rfl
  exact ⟨waits_of_perform hinit ht (by simp only [hb, hr]), waits_of_perform hpost ht (by simp only [hb, hr])⟩

theorem bcinit_completes (hr : released s t = .ok ()) : Completes s (.bcinit a b) (putBarrier s core addr (recompute
    { count := 0, posts := ((readG t b).extractLsb 15 0).toNat, isOver := false, complete := false })) id (t.pc + 4) := by
  have hi : exec (.bcinit a b) s = execBcinit a b s := rfl
  exact completes_of_effect hi ht (by rw [hb, hr, bits_extract (readG t b) 15 0]; rfl)

theorem bcpost_completes (hr : released s t = .ok ()) : Completes s (.bcpost a b) (putBarrier s core addr (recompute
    { barrierAt s core addr with
      count := (BitVec.ofInt 64 ((barrierAt s core addr).count + (readG t b).toNat)).toInt,
      posts := (barrierAt s core addr).posts - 1 })) id (t.pc + 4) := by
  have hi : exec (.bcpost a b) s = execBcpost a b s := rfl
  exact completes_of_effect hi ht (by rw [hb, hr]; simp only [sextNat_wrapInt]; rfl)

theorem bcwait_held (hr : afterReleases s t = .error (.wait .storeBuffer s)) : Waits s (.bcwait d a) s .storeBuffer := by
  have hi : exec (.bcwait d a) s = execBcwait d a s := rfl
  exact waits_of_perform hi ht (by simp only [hb, hr])

variable (hr : afterReleases s t = .ok ())
include hr

/-- A BCWAIT that finds over clears it, and BCOVER follows (R132). -/
theorem bcwait_over (ho : (barrierAt s core addr).isOver = true) (hn : t.inTrap = false) :
    CompletesInto s (.bcwait d a) (putBarrier (acquireFor s t) core addr { barrierAt s core addr with isOver := false })
      (fun x => writeG x d (BitVec.ofInt 64 (barrierAt s core addr).count)) (t.pc + 4) .bcover (readG t a) true := by
  have hi : exec (.bcwait d a) s = execBcwait d a s := rfl
  have hcount : w64 (wrapInt 64 (barrierAt s core addr).count) = BitVec.ofInt 64 (barrierAt s core addr).count :=
    ofNat_wrapInt 64 _
  have hout (x : Word) : (writeG t d x).inTrap = false := by rw [Thread.inTrap, writeG_status]; exact hn
  rw [← hcount]
  exact completesInto_of_perform (x := t) hi ht (by simp only [hb, hr, ho, if_true]; rfl) rfl
    ((potStore_thread (acquireFor s t) ..).trans ht) (hout _)

variable (ho : (barrierAt s core addr).isOver = false)
include ho

theorem bcwait_complete (hc : (barrierAt s core addr).complete = true) :
    Completes s (.bcwait d a) (acquireFor s t) (fun r => writeG r d 0) (t.pc + 4) := by
  have hi : exec (.bcwait d a) s = execBcwait d a s := rfl
  exact completes_of_effect hi ht (by simp only [hb, hr, ho, hc, Bool.false_eq_true, if_false, if_true]; rfl)

theorem bcwait_waits (hc : (barrierAt s core addr).complete = false) :
    Waits s (.bcwait d a) s (.barrier (granuleKey core addr)) := by
  have hi : exec (.bcwait d a) s = execBcwait d a s := rfl
  exact waits_of_perform hi ht (by simp only [hb, hr, ho, hc, Bool.false_eq_true, if_false])

end

/-- The barrier of BCINIT: complete at once where it waits for no post (R132). -/
theorem recompute_fresh (posts : BitVec 16) :
    recompute { count := 0, posts := posts.toNat, isOver := false, complete := false } =
      { count := 0, posts := posts.toNat, isOver := false, complete := Decidable.decide (posts = 0) } := by
  have hz : posts.toNat = 0 ↔ posts = 0 := BitVec.toNat_eq (y := 0#16) |>.symm
  simp [recompute, hz]

/-- A BCWAIT that finds over leaves a barrier that differs in over alone (R132). -/
theorem barrierAt_after_over {s s' : State} {t : Thread} {tid core addr : Nat}
    (h : AgreeBut tid (putBarrier (acquireFor s t) core addr { barrierAt s core addr with isOver := false }) s')
    (hwf : (s.core core).pots.wf = true) : barrierAt s' core addr = { barrierAt s core addr with isOver := false } := by
  have hpots := acquireFor_pots s t core
  have hx : barrierAt (acquireFor s t) core addr = barrierAt s core addr := barrierAt_congr hpots addr
  obtain ⟨_, _, hs'⟩ := h
  rw [hs', ← hx]
  exact barrierAt_clearOver (by rw [hpots]; exact hwf) addr

/-- Settles O30: each instruction by what the thread waits for and by the barrier's flags, and the flags by their fields. -/
theorem barriersCountPostsAndBytes : Obligations.BarriersCountPostsAndBytes := by
  unfold Obligations.BarriersCountPostsAndBytes
  intro s t d a b core addr ht ga x posts free halign hpot hres
  have hb : barrierOf s t (readG t a) = .ok (core, addr, s) := barrierOf_ok halign hpot hres
  refine ⟨fun hs => barrier_held ht hb (released_undrained hs),
    fun hs hp => barrier_held ht hb (released_unanswered hs hp),
    fun hf => bcwait_held ht hb (afterReleases_held (Bool.eq_true_of_not_eq_false hf)),
    fun hs hp => ⟨?init, bcpost_completes ht hb (released_settled hs hp)⟩,
    fun hf ho hc => bcwait_complete ht hb (afterReleases_free hf) ho hc,
    fun hf ho hc => bcwait_waits ht hb (afterReleases_free hf) ho hc, fun hf ho hn => ?clears, fun n => ?arrive,
    fun y => ⟨rfl, rfl, ?complete, ?flag⟩⟩
  case init =>
    rw [← recompute_fresh]
    exact bcinit_completes ht hb (released_settled hs hp)
  case clears =>
    obtain ⟨s', hstep, hthread, hrest⟩ := bcwait_over ht hb (d := d) (afterReleases_free hf) ho hn
    refine ⟨s', hstep, ?_, barrierAt_after_over hrest⟩
    have hkeep : (putBarrier (acquireFor s t) core addr { barrierAt s core addr with isOver := false }).thread? s.cur = some t :=
      (potStore_thread (acquireFor s t) ..).trans ht
    rw [hthread, hkeep]
    rfl
  case arrive =>
    rw [← sextNat_wrapInt]
    rfl
  case complete => simp [recompute]
  case flag => simp [recompute]

end Sys2Proof.Machine
end

section
/-! PROOFS. Traps (R61, R137, R138, R141, R286): TCAUSE and STATUS at trap entry, and the trap inside a handler; the end, the
checkpoint and the suspension of a launch (R143, R233, R271, R274, R276). -/

namespace Sys2Proof.Machine

open Sys2Proof

/-! ## Taking a trap (R137, R138) -/

theorem Cause.code_lt (c : Cause) : c.code < 256 := by cases c <;> decide

/-- TCAUSE with its two flags as numbers. -/
theorem tcauseWord_eq (c : Cause) (precise warning : Bool) (engine : Nat) : tcauseWord c precise warning engine =
    w64 (engine % 256 * 65536 + precise.toNat * 512 + warning.toNat * 256 + c.code) := by
  cases precise <;> cases warning <;> rfl

/-- The fields of TCAUSE: the code, the flags and the engine; the others are zero (R138). -/
theorem tcauseWord_fields (c : Cause) (precise warning : Bool) (engine : Nat) :
    let x := tcauseWord c precise warning engine
    x.extractLsb 7 0 = BitVec.ofNat 8 c.code ∧ x.getLsbD 8 = warning ∧ x.getLsbD 9 = precise ∧ x.extractLsb 15 10 = 0 ∧
      x.extractLsb 23 16 = BitVec.ofNat 8 engine ∧ x.extractLsb 63 24 = 0 := by
  have hcode := c.code_lt
  have hprecise := precise.toNat_le
  have hwarning := warning.toNat_le
  have flag {n : Nat} (i : Nat) (b : Bool) (h : n % 2 ^ 64 / 2 ^ i % 2 = b.toNat) : (w64 n).getLsbD i = b := by
    rw [← bit_eq, bit, w64, BitVec.toNat_ofNat, h]
    cases b <;> rfl
  rw [tcauseWord_eq]
  refine ⟨extractLsb_of_bits (by decide) ?code, flag 8 _ (by omega), flag 9 _ (by omega), extractLsb_of_bits (by decide) ?low,
    extractLsb_of_bits (by decide) ?source, extractLsb_of_bits (by decide) ?high⟩
  all_goals simp only [bits_w64, BitVec.ofNat_eq_ofNat, BitVec.toNat_ofNat]; omega

/-- STATUS at trap entry: the privilege is kept in bit 2, the handler runs in system mode (R138). -/
theorem statusOnEntry_bits (x : Word) : (statusOnEntry x).getLsbD 0 = true ∧ (statusOnEntry x).getLsbD 1 = true ∧
    (statusOnEntry x).getLsbD 2 = x.getLsbD 0 ∧ ∀ i, 3 ≤ i → (statusOnEntry x).getLsbD i = x.getLsbD i := by
  refine ⟨statusOnEntry_bit x 0, statusOnEntry_bit x 1, statusOnEntry_bit x 2, fun i hi => ?_⟩
  rw [statusOnEntry_bit, if_neg (by omega), if_neg (by omega)]

/-! ## The trap inside a handler (R141, R286) -/

/-- The fault is recorded, and the thread retires, which nothing stops (R61, R141). -/
theorem takeTrap_retires {s : State} {tid : Nat} {t : Thread} (ht : s.thread? tid = some t) (hn : t.inTrap = true) (c : Cause)
    (v : Word) :
    ∃ s', retireThread (s.modCtx t.ctx fun x => { x with fault := recordFault x.fault tid c t.pc v }) tid true = .ok s' ∧
      takeTrap s tid c v false = s' ∧ s'.thread? tid = none := by
  obtain ⟨s', hs'⟩ := retireThread_quiet (s.modCtx t.ctx fun x => { x with fault := recordFault x.fault tid c t.pc v }) tid
  refine ⟨s', hs', ?_, retireThread_thread hs'⟩
  rw [takeTrap_nested ht hn, nestedTrap]
  simp only [hs']

/-- The first fault is recorded whole (R286). -/
theorem recordFault_first {r : FaultRecord} (h : r.count = 0) (tid : Nat) (c : Cause) (tpc value : Word) :
    recordFault r tid c tpc value =
      { tid := BitVec.ofNat 16 tid, cause := BitVec.ofNat 8 c.code, count := 1, tpc := tpc, tvalue := value } := by
  have hone : (if r.count = BitVec.allOnes 32 then r.count else r.count + 1) = 1 := by rw [h]; decide
  rw [recordFault, if_pos h, hone]

/-- A later fault is counted, as far as the count goes (R286). -/
theorem recordFault_later {r : FaultRecord} (h : r.count ≠ 0) (tid : Nat) (c : Cause) (tpc value : Word) :
    recordFault r tid c tpc value = { r with count := if r.count = BitVec.allOnes 32 then r.count else r.count + 1 } :=
  if_neg h

/-- Settles O31: trap entry by the fields of TCAUSE and the bits of STATUS, the trap in a handler by the quiet retirement. -/
theorem trapEntrySavesTheAddressAndEntersTheHandler : Obligations.TrapEntrySavesTheAddressAndEntersTheHandler := by
  unfold Obligations.TrapEntrySavesTheAddressAndEntersTheHandler
  refine ⟨fun t c v tpc precise warning engine => ?entry, fun s tid t c v w ht hn => takeTrap_outside ht hn c v w,
    fun s tid t c v ht hn => takeTrap_retires ht hn c v, fun r tid c tpc v => ⟨fun h => recordFault_first h .., fun h => ?later⟩⟩
  case entry =>
    obtain ⟨hcode, hwarning, hprecise, hlow, hengine, hhigh⟩ := tcauseWord_fields c precise warning engine
    obtain ⟨hsystem, hin, hold, hrest⟩ := statusOnEntry_bits t.status
    exact ⟨hcode, hwarning, hprecise, hlow, hengine, hhigh, rfl, rfl, rfl, hsystem, hin, hold, hrest, rfl, rfl, rfl, rfl, rfl, rfl,
      rfl, rfl, rfl, rfl⟩
  case later =>
    rw [recordFault_later h]
    exact ⟨rfl, rfl, rfl, rfl, rfl⟩

/-! ## The end of a launch (R271) -/

theorem exec_launchEnd (cl h : Nat) (s : State) : exec (.launchEnd cl h) s = execLaunchEnd cl h s := by rfl

theorem exec_checkpointComplete (cl h : Nat) (s : State) : exec (.checkpointComplete cl h) s = execCheckpointComplete cl h s := by rfl

theorem exec_preemptionComplete (cl h : Nat) (s : State) : exec (.preemptionComplete cl h) s = execPreemptionComplete cl h s := by rfl

/-- The answer to a pre-emption command leaves the launches (R276). -/
@[simp] theorem preemptDone_launch (s : State) (cl h : Nat) : (preemptDone s).launch? cl h = s.launch? cl h := by
  unfold preemptDone
  split <;> rfl

section
variable {s : State} {cl h : Nat} {x : Handle} {v : Launch} (hx : s.handle? cl h = some x) (hv : s.launch? cl h = some v)
include hx hv

theorem endLaunch_launch : (endLaunch s cl h).launch? cl h = some { v with state := .ended, preempting := false } := by
  simp only [endLaunch, hx, hv]
  show State.launch? (if _ then _ else _) cl h = _
  split
  · rw [preemptDone_launch, State.launch_setLaunch_same]
  · rw [State.launch_setLaunch_same]

theorem launchEnd_ends (hr : v.state = .running) (ha : v.acks = 0) (hh : v.halted = false) (he : sinksEnded s h x = true)
    (hs : x.state = .active) : exec (.launchEnd cl h) s = .next (endLaunch s cl h) := by
  simp only [exec_launchEnd, execLaunchEnd, hx, hv, hr, ha, hh, he, hs]
  rfl

/-- A store that is not acknowledged holds the end back (R271). -/
theorem launchEnd_waits (ha : v.acks ≠ 0) : exec (.launchEnd cl h) s = .next s := by
  simp only [exec_launchEnd, execLaunchEnd, hx, hv, if_pos (Or.inr ha : v.state ≠ .running ∨ v.acks ≠ 0)]

/-! ## Checkpoints (R143, R274) -/

/-- The launch with the slot of its next marker in its record (R274). -/
def slotTaken (s : State) (cl h : Nat) (v : Launch) (slot : SaveSlot) : State :=
  s.setLaunch cl h { v with marksDone := v.marksDone + 1, slots := tset v.slots (slotOf (v.marksDone + 1)) slot }

theorem checkpointComplete_completes (hr : v.state = .running) (hm : v.marksDone < v.marks)
    (hh : sinksHold s h x (v.marksDone + 1) = true) :
    exec (.checkpointComplete cl h) s =
      .next (foldContext (writeSlot (slotTaken s cl h v (fillSlot s h x (v.slotFor (v.marksDone + 1)))) cl h v.ctx
        (fillSlot s h x (v.slotFor (v.marksDone + 1)))) v.ctx) := by
  have hgo : ¬(v.state ≠ .running ∨ v.marks < v.marksDone + 1 ∨ (!sinksHold s h x (v.marksDone + 1)) = true) := by
    simp [hr, hh]; omega
  simp only [exec_checkpointComplete, execCheckpointComplete, hx, hv, if_neg hgo, slotTaken]

/-- No marker is due. -/
theorem checkpointComplete_waits (hm : v.marks ≤ v.marksDone) : exec (.checkpointComplete cl h) s = .next s := by
  have hstop : v.state ≠ .running ∨ v.marks < v.marksDone + 1 ∨ (!sinksHold s h x (v.marksDone + 1)) = true :=
    .inr (.inl (by omega))
  simp only [exec_checkpointComplete, execCheckpointComplete, hx, hv, if_pos hstop]

/-! ## Pre-emption (R233, R276) -/

/-- The launch is suspended, its tiles idle, its cores free, and the command is answered (R276). -/
theorem preemptionComplete_suspends (hr : v.state = .running) (hp : v.preempting = true) (hl : v.reloading = false)
    (hm : v.marks ≤ v.marksDone) (he : sinksEnded s h x = false) :
    exec (.preemptionComplete cl h) s = .next (preemptDone (foldContext ((graphCores x).foldl leaveCore (idleGraph
      ((saveTree s cl h).setLaunch cl h
        { ((saveTree s cl h).launch? cl h).getD v with state := .suspended, preempting := false }) h x)) v.ctx)) := by
  have hgo : ¬(v.state ≠ .running ∨ (!v.preempting) = true ∨ v.reloading = true ∨ v.marksDone < v.marks ∨
      sinksEnded s h x = true) := by
    simp [hr, hp, hl, he]; omega
  simp only [exec_preemptionComplete, execPreemptionComplete, hx, hv, if_neg hgo]

theorem preemptionComplete_waits (hw : v.preempting = false ∨ v.reloading = true) :
    exec (.preemptionComplete cl h) s = .next s := by
  have hstop : v.state ≠ .running ∨ (!v.preempting) = true ∨ v.reloading = true ∨ v.marksDone < v.marks ∨
      sinksEnded s h x = true :=
    .inr (hw.elim (fun hp => .inl (by rw [hp]; rfl)) fun hl => .inr (.inl hl))
  simp only [exec_preemptionComplete, execPreemptionComplete, hx, hv, if_pos hstop]

end

/-- Settles O42: each event by what it waits for, and the launch's record after it. -/
theorem launchesEndCheckpointAndSuspend : Obligations.LaunchesEndCheckpointAndSuspend := by
  unfold Obligations.LaunchesEndCheckpointAndSuspend
  intro s cl h x v hx hv hr
  refine ⟨fun ha hh he hs => ⟨launchEnd_ends hx hv hr ha hh he hs, ?ended⟩, fun ha => launchEnd_waits hx hv ha,
    fun hm hh => ⟨checkpointComplete_completes hx hv hr hm hh, ?slot⟩, fun hm => checkpointComplete_waits hx hv hm,
    fun hp hl hm he => preemptionComplete_suspends hx hv hr hp hl hm he, fun hw => preemptionComplete_waits hx hv hw⟩
  case ended => rw [endLaunch_launch hx hv]; rfl
  case slot => rw [State.launch_setLaunch_same]; rfl

end Sys2Proof.Machine
end

section
/-! PROOFS. Pan stages and switches (R142, R153, R155, R157, R161, R200, R243, R255): what a stage does with what it holds and with
its heads, and what a chain does with the head of its port. -/

namespace Sys2Proof.Machine

open Sys2Proof

/-! ## Tokens that end nothing (R160, R167) -/

section
variable {k : Tok}

theorem Tok.ends_of_kind (h : k.kind ≠ .streamEnd) : k.ends = false := by simp [Tok.ends, h]

theorem Tok.last_of_kind (h : k.kind ≠ .streamEnd) : k.last = false := by simp [Tok.last, h]

/-- A token that ends nothing sends no done (R167). -/
theorem doneFree_of_kind (h : k.kind ≠ .streamEnd) (s : State) (l : TileLoc) : doneFree s l k = true := by
  simp [doneFree, Tok.ends_of_kind h]

/-- A token that ends nothing costs no credit (R167). -/
theorem chargeCredit_of_kind (h : k.kind ≠ .streamEnd) (s : State) (l : TileLoc) : chargeCredit s l k = s := by
  simp [chargeCredit, Tok.ends_of_kind h]

theorem Tok.kind_ne_of_data {x : TokKind} (h : k.kind = .data) (hx : TokKind.data ≠ x) : k.kind ≠ x := h ▸ hx

end

/-! ## The join rule (R158) -/

theorem joinHeads_none : joinHeads [none] = .wait false := rfl

theorem joinHeads_two {a b : Tok} (ha : a.kind = .data) (hb : b.kind = .data) : joinHeads [some a, some b] = .data := by
  simp [joinHeads, ha, hb]

/-! ## Pan stages (R157, R182 to R186, R200) -/

theorem exec_stageFiring (l : TileLoc) (i : Nat) (s : State) : exec (.stageFiring l i) s = execStageFiring l i s := by rfl

/-- The classes that make one token of one token of each input (R182 to R186, R193, R194). -/
def plainClass (g : StageCfg) : Prop := g.cls = 1 ∨ g.cls = 2 ∨ g.cls = 3 ∨ g.cls = 4 ∨ g.cls = 7 ∨ g.cls = 8

/-- A stage of a plain class makes one token with the table's result, the tag of either head, and the position of the first. -/
theorem fireData_plain {g : StageCfg} (hg : plainClass g) (hb : 1 ≤ g.srcB) (gs : List StageCfg) (i : Nat) (key : KeyReg)
    (st : StageSt) (a b : Tok) : fireData gs i g key st (some a) (some b) =
      { st := st, mismatch := false,
        out := [dataTok (a.tag || b.tag) a.level.toNat a.seq
          (stageResult g (operandOf g st g.srcA (some a)) (operandOf g st g.srcB (some b)))] } := by
  have hsrc : ¬g.srcB = 0 := by omega
  rcases hg with h | h | h | h | h | h <;>
    simp only [fireData, h, if_neg hsrc, Option.or_some, Option.map_some, Option.getD_some]

section
variable {s : State} {l : TileLoc} {gs : List StageCfg} {i : Nat} {g : StageCfg}

/-- A stage whose one input has nothing does nothing (R157). -/
theorem stageAct_waits (hh : (namedInputs (s.tile l) i g).map (inputHead s l) = [none]) : stageAct s l gs i g = s := by
  obtain ⟨x, hx, hn⟩ := List.map_eq_singleton_iff.1 hh
  simp only [stageAct, hx, List.map, hn, joinHeads_none, Bool.false_eq_true, if_false]

/-- Data on both inputs of a plain class is taken in one firing (R157, R158, R182 to R186). -/
theorem stageAct_plain {a b : Tok} (hg : plainClass g) (hscaled : g.scaled = false) (ha : a.kind = .data) (hb : b.kind = .data)
    (hh : (namedInputs (s.tile l) i g).map (inputHead s l) = [some a, some b]) (ha1 : 1 ≤ g.srcA) (ha5 : g.srcA ≤ 5)
    (hb1 : 1 ≤ g.srcB) (hb5 : g.srcB ≤ 5) :
    let st := tgetD (s.tile l).stages i StageSt.start
    stageAct s l gs i g = stageTake s l gs i g (namedInputs (s.tile l) i g)
      { st := st, mismatch := false, poisoned := a.tag || b.tag,
        out := [dataTok (a.tag || b.tag) a.level.toNat a.seq
          (stageResult g (operandOf g st g.srcA (some a)) (operandOf g st g.srcB (some b)))] } := by
  have hdot : ¬g.cls = 6 := by unfold plainClass at hg; omega
  have hquant : g.isQuant = false := by
    have : ¬g.cls = 5 := by unfold plainClass at hg; omega
    simp [StageCfg.isQuant, this]
  obtain ⟨x, r, hx, hhead, hr⟩ := List.map_eq_cons_iff.1 hh
  obtain ⟨y, hy, hhead'⟩ := List.map_eq_singleton_iff.1 hr
  have hscale : (g.scaled && a.kind = .data && a.level ≠ 0) = false := by simp [hscaled]
  have hA : (if 1 ≤ g.srcA ∧ g.srcA ≤ 5 then [some a, some b].head?.join else none) = some a := if_pos ⟨ha1, ha5⟩
  have hB : (if 1 ≤ g.srcB ∧ g.srcB ≤ 5 then [some a, some b].getLast?.join else none) = some b := if_pos ⟨hb1, hb5⟩
  have htag : [some a, some b].any (Option.any Tok.tag) = (a.tag || b.tag) := by simp
  simp only [stageAct, hx, hy, List.map, hhead, hhead', hscale, joinHeads_two ha hb, hdot, hquant, hA, hB, htag,
    fireData_plain hg hb1, decide_false, Bool.false_and, Bool.false_eq_true, if_false]

end

/-- A stage that is not idle, with credit where it is governed, may fire (R157, R167). -/
theorem stageFiring_runs {s : State} {l : TileLoc} {i : Nat} {g : StageCfg} (hi : i ≠ 0) (hidle : g.idle = false)
    (hgov : governedOk (s.tile l) = true) : ¬(i = 0 ∨ g.idle = true ∨ (!governedOk (s.tile l)) = true) := by
  simp [hi, hidle, hgov]

section
variable {s : State} {l : TileLoc} {c : TileCfg} {gs : List StageCfg} {i : Nat} {g : StageCfg}
  (hc : (s.tile l).active = some c) (hk : c.kind = .pan gs) (hi : i ≠ 0) (hg : gs[i - 1]? = some g) (hidle : g.idle = false)
  (hgov : governedOk (s.tile l) = true) (hdot : g.cls ≠ 6)
include hc hk hi hg hidle hgov hdot

theorem stageFiring_acts (hq : (tgetD (s.tile l).stages i StageSt.start).outq = []) :
    exec (.stageFiring l i) s = .next (stageAct s l gs i g) := by
  simp only [exec_stageFiring, execStageFiring, hc, hk, hg, if_neg (stageFiring_runs hi hidle hgov), if_neg hdot, hq]

variable {k : Tok} {r : List Tok} (hq : (tgetD (s.tile l).stages i StageSt.start).outq = k :: r)
include hq

/-- A token that waits is emitted, and a quant stage takes its next token in the same firing (R157, R200). -/
theorem stageFiring_emits (hm : mayEmit s l gs i g k = true) :
    let st := tgetD (s.tile l).stages i StageSt.start
    let s1 := stageEmit (s.modTile l fun t => { t with stages := tset t.stages i { st with outq := r } }) l gs i g k
    exec (.stageFiring l i) s =
      .next (if g.isQuant ∧ k.level = 0 ∧ st.outq.all (·.kind = .data) then quantTake s1 l gs i g else s1) := by
  simp only [exec_stageFiring, execStageFiring, hc, hk, hg, if_neg (stageFiring_runs hi hidle hgov), if_neg hdot, hq, if_pos hm]

/-- A token that waits for a slot is back-pressured (R157, R255). -/
theorem stageFiring_pressed (hm : mayEmit s l gs i g k = false) :
    exec (.stageFiring l i) s = .next (notePressed s l (stageChains s l g)) := by
  simp only [exec_stageFiring, execStageFiring, hc, hk, hg, if_neg (stageFiring_runs hi hidle hgov), if_neg hdot, hq, hm, Bool.false_eq_true, if_false]

end

/-- A governed element without credit does not fire (R167). -/
theorem stageFiring_governed {s : State} {l : TileLoc} (h : governedOk (s.tile l) = false) (i : Nat) :
    exec (.stageFiring l i) s = .next s := by
  rw [exec_stageFiring, execStageFiring]
  simp only [h, Bool.not_false, or_true, if_true]
  split
  · rfl
  · split
    · split <;> rfl
    · rfl

/-! ## The inputs of a stage (R153, R155) -/

theorem stageInput_word {t : Tile} {code dest : Nat} {w : SwitchWord} (h1 : 1 ≤ code) (h4 : code ≤ 4)
    (hw : selectedWord t.words dest (code - 1) = some w) (i : Nat) : stageInput t i code dest = localInput t w.dest w.vc := by
  have h5 : ¬code = 5 := by omega
  simp only [stageInput, if_neg h5, if_pos (And.intro h1 h4), hw]

theorem stageInput_port {t : Tile} {code dest : Nat} (h1 : 1 ≤ code) (h4 : code ≤ 4)
    (hw : selectedWord t.words dest (code - 1) = none) (i : Nat) : stageInput t i code dest = some (.port (code - 1) 0) := by
  have h5 : ¬code = 5 := by omega
  simp only [stageInput, if_neg h5, if_pos (And.intro h1 h4), hw]

/-! ## Switches (R153, R161, R162, R243) -/

theorem exec_switchForward (l : TileLoc) (word : Nat) (s : State) :
    exec (.switchForward l word) s = execSwitchForward l word s := by rfl

section
variable {s : State} {l : TileLoc} {word : Nat} {w : SwitchWord} {r : List SwitchWord} {k : Tok}
  (hf : (chainsOf (s.tile l).words).find? (fun (i, _) => i = word) = some (word, w :: r)) (hsrc : w.src < 4)
  (hp : portHead s routeFuel l w.src w.vc = some k)
include hf hsrc hp

/-- The first switch that a misplaced token reaches drops it (R161, R162). -/
theorem switchForward_drops {k' : Tok} {s1 : State} (hm : misplaced k w.vc = true)
    (ht : portTake routeFuel s l w.src w.vc = some (k', s1)) :
    exec (.switchForward l word) s = .next (noteDrop (noteBoundDrop s1 l w.src w.vc) l) := by
  simp only [exec_switchForward, execSwitchForward, hf, if_neg (Nat.not_le.2 hsrc), hp, if_pos hm, ht]

variable (hm : misplaced k w.vc = false)
include hm

/-- Where every destination is free the token leaves through all of them (R39, R153, R157). -/
theorem switchForward_forwards {k' : Tok} {s1 : State} (hfree : chainFree s l (w :: r) = true)
    (ht : portTake routeFuel s l w.src w.vc = some (k', s1)) :
    exec (.switchForward l word) s = .next (passMark (chainPush s1 l (w :: r) k') l k') := by
  simp only [exec_switchForward, execSwitchForward, hf, if_neg (Nat.not_le.2 hsrc), hp, hm, Bool.false_eq_true, if_false,
    if_pos hfree, ht]

/-- Otherwise it stays, and the boundary links that it waits for count the clock (R255). -/
theorem switchForward_stays (hfree : chainFree s l (w :: r) = false) :
    exec (.switchForward l word) s = .next (noteFull s l [w :: r]) := by
  simp only [exec_switchForward, execSwitchForward, hf, if_neg (Nat.not_le.2 hsrc), hp, hm, hfree, Bool.false_eq_true, if_false]

end

/-- The sender of a boundary link learns what has been taken (R243). -/
theorem occupancyExchange_learns {s : State} {l : TileLoc} {word : Nat} {w : SwitchWord} (hw : (s.tile l).words[word]? = some w)
    (hd : w.dest < 4) (hx : crosses l w.dest = true) : ∃ s', exec (.occupancyExchange l word) s = .next s' ∧ s'.mem = s.mem ∧
      ((s'.tile l).bound (linkKey w.dest w.vc)).takenKnown = ((s.tile l).bound (linkKey w.dest w.vc)).taken := by
  have hexec : exec (.occupancyExchange l word) s = execOccupancyExchange l word s := by rfl
  simp only [hexec, execOccupancyExchange, hw, if_pos (And.intro hd hx)]
  refine ⟨_, rfl, rfl, ?_⟩
  rw [State.tile_modTile_same, Tile.bound, tgetD_tset_same]

/-- Settles O46: a stage by what it holds and by its heads, a chain by its port's head and by what is free. -/
theorem stagesFireAndSwitchesForward : Obligations.StagesFireAndSwitchesForward := by
  unfold Obligations.StagesFireAndSwitchesForward
  intro s l
  refine ⟨fun i c gs g hc hk hi hg hidle hgov hdot => ⟨fun k r hq hm => stageFiring_emits hc hk hi hg hidle hgov hdot hq hm,
      fun k r hq hm => stageFiring_pressed hc hk hi hg hidle hgov hdot hq hm, fun hq hh => ?waits,
      fun a b hcls hq hs ha hb hh ha1 ha5 hb1 hb5 => ?data, fun code w h1 h4 hw => stageInput_word h1 h4 hw i,
      fun code h1 h4 hw => stageInput_port h1 h4 hw i⟩,
    fun i hgov => stageFiring_governed hgov i,
    fun word w r k hf hsrc hp => ⟨fun hm k' s1 ht => switchForward_drops hf hsrc hp hm ht,
      fun hm hfree k' s1 ht => switchForward_forwards hf hsrc hp hm hfree ht,
      fun hm hfree => switchForward_stays hf hsrc hp hm hfree⟩,
    fun word w hw hd hx => occupancyExchange_learns hw hd hx⟩
  case waits => rw [stageFiring_acts hc hk hi hg hidle hgov hdot hq, stageAct_waits hh]
  case data =>
    rw [stageFiring_acts hc hk hi hg hidle hgov hdot hq, stageAct_plain hcls hs ha hb hh ha1 ha5 hb1 hb5]

end Sys2Proof.Machine
end

section
/-! PROOFS. Pots (R142, R157, R158, R161, R203, R205, R207 to R214, R255): what each mode writes, takes and gives, and what it
forwards on channel 7. -/

namespace Sys2Proof.Machine

open Sys2Proof

/-! ## What a tile keeps -/

/-- A change of a core's other parts leaves its tiles. -/
theorem State.tile_modCore (s : State) (c : Nat) {f : Core → Core} (hf : ∀ x, (f x).tiles = x.tiles) (l : TileLoc) :
    (s.modCore c f).tile l = s.tile l := by
  unfold State.tile
  rw [State.core_modCore]
  split
  · rw [hf, ‹l.core = c›]
  · rfl

/-- A change of a tile leaves the other parts of every core. -/
theorem State.core_modTile_frame (s : State) (l : TileLoc) (f : Tile → Tile) (c : Nat) :
    (s.modTile l f).core c = { s.core c with tiles := ((s.modTile l f).core c).tiles } := by
  rw [State.modTile, State.setTile, State.core_modCore]
  split
  · rw [‹c = l.core›]
  · rfl

@[simp] theorem modPot_pot (s : State) (l : TileLoc) (f : PotSt → PotSt) : ((modPot s l f).tile l).pot = f (s.tile l).pot := by
  rw [modPot, State.tile_modTile_same]

@[simp] theorem modPot_core_pots (s : State) (l : TileLoc) (f : PotSt → PotSt) (c : Nat) :
    ((modPot s l f).core c).pots = (s.core c).pots := by
  rw [modPot, State.core_modTile_frame]

@[simp] theorem modPot_core_full (s : State) (l : TileLoc) (f : PotSt → PotSt) (c : Nat) :
    ((modPot s l f).core c).full = (s.core c).full := by
  rw [modPot, State.core_modTile_frame]

@[simp] theorem modPot_core_poisoned (s : State) (l : TileLoc) (f : PotSt → PotSt) (c : Nat) :
    ((modPot s l f).core c).poisoned = (s.core c).poisoned := by
  rw [modPot, State.core_modTile_frame]

@[simp] theorem potStore_tile (s : State) (core addr : Nat) (b : List Byte) (l : TileLoc) :
    (potStore s core addr b).tile l = s.tile l := by
  have hwrite : (s.potWrite core addr b).tile l = s.tile l := by
    unfold State.potWrite
    exact State.tile_modCore _ _ (by intro _; rfl) _
  rw [State.tile, potStore_core]
  exact hwrite

/-! ## The granules of a token (R203, R205) -/

@[simp] theorem setPoison_tile (s : State) (core a : Nat) (on : Bool) (l : TileLoc) : (setPoison s core a on).tile l = s.tile l := by
  unfold setPoison
  exact State.tile_modCore _ _ (by intro _; rfl) _

theorem setPoison_pots (s : State) (core a : Nat) (on : Bool) : ((setPoison s core a on).core core).pots = (s.core core).pots := by
  rw [setPoison, State.core_modCore_same]

/-- The four granules are poisoned (R203). -/
theorem setPoison_marks (s : State) (core a : Nat) {d : Nat} (hd : d < 4) :
    nsMem ((setPoison s core a true).core core).poisoned (a / 16 + d) = true := by
  rw [setPoison, State.core_modCore_same]
  have hcases : d = 0 ∨ d = 1 ∨ d = 2 ∨ d = 3 := by omega
  rcases hcases with rfl | rfl | rfl | rfl <;> simp

/-- The four granules of a token become full (R205). -/
def fillToken (s : State) (core a : Nat) : State := [0, 16, 32, 48].foldl (fun s d => s.fill core (a + d)) s

theorem fill_core (s : State) (core addr c : Nat) : (s.fill core addr).core c = (s.setFull core addr true).core c := by
  rw [fill_frame]
  rfl

theorem fill_full (s : State) (core addr g : Nat) :
    nsMem ((s.fill core addr).core core).full g = if g = addr / 16 then true else nsMem (s.core core).full g := by
  rw [fill_core, nsMem_setFull]

theorem fill_poisoned (s : State) (core addr : Nat) : ((s.fill core addr).core core).poisoned = (s.core core).poisoned := by
  rw [fill_core, State.setFull, State.core_modCore_same]

section
variable (s : State) (core a : Nat)

theorem fillToken_tile (l : TileLoc) : (fillToken s core a).tile l = s.tile l := by
  simp only [fillToken, List.foldl, fill_tile]

theorem fillToken_pots (c : Nat) : ((fillToken s core a).core c).pots = (s.core c).pots := by
  simp only [fillToken, List.foldl, fill_pots]

theorem fillToken_poisoned : ((fillToken s core a).core core).poisoned = (s.core core).poisoned := by
  simp only [fillToken, List.foldl, fill_poisoned]

theorem fillToken_mem : (fillToken s core a).mem = s.mem := by
  simp only [fillToken, List.foldl, fill_mem]

theorem fillToken_full {d : Nat} (hd : d < 4) : nsMem ((fillToken s core a).core core).full (a / 16 + d) = true := by
  have h1 : (a + 16) / 16 = a / 16 + 1 := by omega
  have h2 : (a + 32) / 16 = a / 16 + 2 := by omega
  have h3 : (a + 48) / 16 = a / 16 + 3 := by omega
  have hcases : d = 0 ∨ d = 1 ∨ d = 2 ∨ d = 3 := by omega
  simp only [fillToken, List.foldl, fill_full, h1, h2, h3]
  rcases hcases with rfl | rfl | rfl | rfl <;> simp

end

/-! ## Scratchpad (R205) -/

/-- A data token's bytes, or the poison of one whose discard is final, at an address (R205, R234). -/
def tokenStored (s : State) (core a : Nat) (k : Tok) : State :=
  if k.tag then setPoison s core a true else potStore s core a (tokBytes k.payload)

/-- A data token is stored, its granules become full, and the cursor moves on (R205). -/
theorem scratchData_eq (s : State) (l : TileLoc) (v : Nat) (k : Tok) :
    let c := cursorOf (s.tile l).pot v
    scratchData s l v k = modPot (fillToken (tokenStored s l.core (potBase l.tile + c) k) l.core (potBase l.tile + c)) l
      fun p => { p with cursors := tset p.cursors v (nextCursor v c) } := rfl

section
variable {s : State} {core a : Nat} {k : Tok}

theorem tokenStored_bytes (hwf : (s.core core).pots.wf = true) (hk : k.tag = false) :
    (tokenStored s core a k).potRead core a 64 = tokBytes k.payload := by
  have hread := potRead_potStore s core a (tokBytes k.payload) hwf
  rw [tokBytes_length] at hread
  rw [tokenStored, hk]
  exact hread

theorem tokenStored_tagged (hk : k.tag = true) : tokenStored s core a k = setPoison s core a true := if_pos hk

theorem tokenStored_mem : (tokenStored s core a k).mem = s.mem := by
  unfold tokenStored
  split
  · rfl
  · exact potStore_mem ..

end

section
variable (s : State) (l : TileLoc) (v : Nat) {k : Tok}

/-- An untagged token is written whole at its cursor (R205). -/
theorem scratchData_bytes (hwf : (s.core l.core).pots.wf = true) (hk : k.tag = false) :
    (scratchData s l v k).potRead l.core (potBase l.tile + cursorOf (s.tile l).pot v) 64 = tokBytes k.payload := by
  rw [scratchData_eq, State.potRead, modPot_core_pots, fillToken_pots]
  exact tokenStored_bytes hwf hk

/-- A tagged token writes no byte (R234). -/
theorem scratchData_tagged (hk : k.tag = true) : ((scratchData s l v k).core l.core).pots = (s.core l.core).pots := by
  rw [scratchData_eq, modPot_core_pots, fillToken_pots, tokenStored_tagged hk, setPoison_pots]

theorem scratchData_cursor (k : Tok) : cursorOf ((scratchData s l v k).tile l).pot v =
    0x4000 * v + (cursorOf (s.tile l).pot v + 64) % 0x4000 := by
  rw [scratchData_eq, modPot_pot, cursorOf, tgetD_tset_same, nextCursor]

theorem scratchData_mem (k : Tok) : (scratchData s l v k).mem = s.mem := by
  rw [scratchData_eq, modPot, State.modTile_mem, fillToken_mem, tokenStored_mem]

theorem scratchData_full (k : Tok) {d : Nat} (hd : d < 4) : nsMem ((scratchData s l v k).core l.core).full
    ((potBase l.tile + cursorOf (s.tile l).pot v) / 16 + d) = true := by
  rw [scratchData_eq, modPot_core_full, fillToken_full _ _ _ hd]

/-- A tagged token poisons its granules (R203, R234). -/
theorem scratchData_poisons (hk : k.tag = true) {d : Nat} (hd : d < 4) : nsMem ((scratchData s l v k).core l.core).poisoned
    ((potBase l.tile + cursorOf (s.tile l).pot v) / 16 + d) = true := by
  rw [scratchData_eq, modPot_core_poisoned, fillToken_poisoned, tokenStored_tagged hk, setPoison_marks _ _ _ hd]

end

/-- A scratchpad acts on the head of the channel whose turn it is (R205). -/
theorem scratchpadWrite_takes {s : State} {l : TileLoc} {f : Bool} {v : Nat} {k : Tok}
    (hm : potMode (s.tile l) = some (.scratch f)) (hg : governedOk (s.tile l) = true) (hk : localHead s l v = some k)
    (hv : (scratchOrder (s.tile l)).find? (scratchReady s l) = some v) :
    let s1 := modPot (noteFiring (localTake (scratchPressed s l) l v k) l) l fun p => { p with lastVc := v }
    sinkRole s1 l = .plain → exec (.scratchpadWrite l) s = .next (scratchTake s1 l v k none) := by
  intro s1 hrole
  have hexec : exec (.scratchpadWrite l) s = execScratchpadWrite l s := by rfl
  simp only [hexec, execScratchpadWrite, hm, hg, hv, hk, Bool.not_true, Bool.false_eq_true, if_false]
  rw [hrole]

/-! ## Stream buffer (R207, R208) -/

section
variable {s : State} {l : TileLoc} {cap : Nat} {pre : List Vec512} (hm : potMode (s.tile l) = some (.stream cap pre))

section
variable {w : SwitchWord} (hw : pushWord (s.tile l) = some w)
include hm hw

/-- A pushed token is stored while there is space (R207). -/
theorem streamBufferPush_stores (hsrc : w.src ≠ 6) (hg : governedOk (s.tile l) = true) (hspace : 0 < spaceOf (s.tile l)) {k : Tok}
    (hk : localHead s l w.vc = some k) :
    exec (.streamBufferPush l) s = .next (noteFiring (bufferStore (localTake s l w.vc k) l k) l) := by
  have hexec : exec (.streamBufferPush l) s = execStreamBufferPush l s := by rfl
  have hgo : ¬(spaceOf (s.tile l) = 0 ∨ (!governedOk (s.tile l)) = true) := by simp [hg]; omega
  simp only [hexec, execStreamBufferPush, hm, hw, if_neg hgo, if_neg hsrc, hk]

theorem streamBufferPush_full (hspace : spaceOf (s.tile l) = 0) : exec (.streamBufferPush l) s = .next s := by
  have hexec : exec (.streamBufferPush l) s = execStreamBufferPush l s := by rfl
  simp only [hexec, execStreamBufferPush, hm, hw, hspace, true_or, if_true]

end

/-- The buffer is a queue (R207). -/
theorem bufferStore_pot (s : State) (l : TileLoc) (k : Tok) : ((bufferStore s l k).tile l).pot =
    { (s.tile l).pot with fifo := (s.tile l).pot.fifo ++ [k], pushed := (s.tile l).pot.pushed + 1 } := by
  rw [bufferStore, modPot_pot, storePlace, setPoison_tile]

section
variable {k : Tok} {p : PotSt} (hn : popNext (s.tile l).pot = some (k, p))
include hn

theorem bufferPop_clean
    (hf : placeFoul s l (((s.tile l).pot.pushed - (s.tile l).pot.fifo.length) % streamCap (s.tile l)) = false) :
    bufferPop s l = some (k, modPot s l fun _ => p) := by
  simp only [bufferPop, hn, Option.map_some, hf, Bool.and_false, Bool.false_eq_true, if_false]

/-- A token that is read from a poisoned place is tagged (R142, R203). -/
theorem bufferPop_foul
    (hf : placeFoul s l (((s.tile l).pot.pushed - (s.tile l).pot.fifo.length) % streamCap (s.tile l)) = true)
    (hl : p.fifo.length ≠ (s.tile l).pot.fifo.length) :
    bufferPop s l = some ({ k with tag := true }, noteStageCir (modPot s l fun _ => p) l (s.tile l).marks 0) := by
  simp only [bufferPop, hn, Option.map_some, hf, decide_eq_true hl, Bool.and_true, if_true]

end

section
variable {k : Tok} {s1 : State} (he : isEgressPot (s.tile l) = false) (hsrc : isSourcePot (s.tile l) = false)
  (hg : governedOk (s.tile l) = true) (hp : bufferPop s l = some (k, s1))
include hm he hsrc hg hp

/-- The oldest token leaves while the pop route has a free slot (R157, R207). -/
theorem streamBufferPop_emits (hk : k.kind = .data) (hfree : sourceFree s l 5 none = true) :
    exec (.streamBufferPop l) s = .next (noteFiring (chargeCredit (sourcePush
      (s1.modTile l fun t => { t with ended := if k.last then nsAdd t.ended 100 else t.ended }) l 5 none k) l k) l) := by
  have hexec : exec (.streamBufferPop l) s = execStreamBufferPop l s := by rfl
  have hmark : k.kind ≠ .marker := Tok.kind_ne_of_data hk (by decide)
  have hdone : doneFree s l k = true := doneFree_of_kind (Tok.kind_ne_of_data hk (by decide)) s l
  simp only [hexec, execStreamBufferPop, hm, he, hsrc, hg, hp, hfree, hdone, if_neg hmark, Bool.not_true, Bool.false_and,
    Bool.and_true, Bool.or_false, Bool.false_eq_true, if_false]

theorem streamBufferPop_pressed (hfree : sourceFree s l 5 none = false) :
    exec (.streamBufferPop l) s = .next (notePressed s l (sourceChains (s.tile l) 5 none)) := by
  have hexec : exec (.streamBufferPop l) s = execStreamBufferPop l s := by rfl
  simp only [hexec, execStreamBufferPop, hm, he, hsrc, hg, hp, hfree, Bool.not_true, Bool.not_false, Bool.false_and,
    Bool.or_false, Bool.false_eq_true, if_false, if_true]

end

end

/-! ## The joined inputs of a pot (R158, R161) -/

/-- One head calls for a firing, on data or on its kind (R158). -/
theorem joinHeads_one (k : Tok) : joinHeads [some k] = .data ∨ joinHeads [some k] = .same := by
  by_cases hk : k.kind = .data
  · exact .inl (by simp [joinHeads, hk])
  · exact .inr (by simp [joinHeads, hk])

section
variable {s : State} {l : TileLoc} {v : Nat} {k : Tok}

theorem potJoin_one (hv : drivenChannels (s.tile l) = [v]) (hk : localHead s l v = some k) : potJoin s l = .ok [(v, k)] := by
  simp only [potJoin, hv, List.map, hk, if_neg (List.cons_ne_nil v [])]
  rcases joinHeads_one k with hj | hj <;> rw [hj] <;> rfl

theorem joined_one (v : Nat) (k : Tok) : joined [(v, k)] = some k := by simp [joined]

theorem sevenPressed_none (h : localHead s l 7 = none) : sevenPressed s l = s := by
  simp [sevenPressed, h]

/-- A head that stays on channel 7 is back-pressured (R255). -/
theorem sevenPressed_some (h : localHead s l 7 ≠ none) :
    sevenPressed s l = notePressed s l (sourceChains (s.tile l) 5 (some 7)) :=
  if_pos (Option.isSome_iff_ne_none.2 h)

theorem potMark_of_kind (h : k.kind ≠ .marker) (s : State) (l : TileLoc) : potMark s l k = s := if_pos (.inl h)

/-- A bound is forwarded on channel 7 (R161). -/
theorem potSeven_bound (hk : localHead s l 7 = some k) (hb : k.kind = .bound) (hfree : sourceFree s l 5 (some 7) = true) :
    potSeven s l = some (sourcePush (noteFiring (localTake s l 7 k) l) l 5 (some 7) k) := by
  have hend : k.kind ≠ .streamEnd := by rw [hb]; decide
  have hmark : k.kind ≠ .marker := by rw [hb]; decide
  simp only [potSeven, hk, hfree, doneFree_of_kind hend, potMark_of_kind hmark, Tok.last_of_kind hend, chargeCredit_of_kind hend,
    Bool.and_true, Bool.not_true, Bool.false_and, Bool.false_eq_true, if_false]

end

/-! ## Atomic pipeline (R209 to R211) -/

theorem exec_atomicPipelineUpdate (l : TileLoc) (s : State) :
    exec (.atomicPipelineUpdate l) s = execAtomicPipelineUpdate l s := by rfl

section
variable {s : State} {l : TileLoc} {bank lo nb : Nat} {k : Tok} (hm : potMode (s.tile l) = some (.atomic bank lo nb))
  (hg : governedOk (s.tile l) = true) (hq : (s.tile l).pot.outq = [])
include hm hg hq

/-- An update token is taken, and its reply is emitted (R209, R210). -/
theorem atomicPipelineUpdate_replies {v : Nat} {x : Tok} {s1 : State} (h7 : potSeven s l = none)
    (hj : potJoin (sevenPressed s l) l = .ok [(v, k)]) (hfree : dataFree (sevenPressed s l) l = true) (hk : k.kind = .data)
    (hu : updateToken (noteFiring (localTake (sevenPressed s l) l v k) l) l bank lo nb k = (s1, x)) :
    exec (.atomicPipelineUpdate l) s = .next (dataPush (modPot s1 l fun p => { p with outq := [] }) l x) := by
  have hdone := doneFree_of_kind (Tok.kind_ne_of_data hk (x := .streamEnd) (by decide)) (sevenPressed s l) l
  simp only [exec_atomicPipelineUpdate, execAtomicPipelineUpdate, hm, hg, hq, h7, hj, joined_one, hfree, hdone, potTakes,
    List.foldl, List.map, updateTokens, hu, hk, ne_eq, not_true_eq_false, Bool.and_self, Bool.not_true, Bool.false_eq_true,
    if_false]
  rfl

/-- A bound at channel 7 goes first (R161). -/
theorem atomicPipelineUpdate_bound (hk : localHead s l 7 = some k) (hb : k.kind = .bound)
    (hfree : sourceFree s l 5 (some 7) = true) :
    exec (.atomicPipelineUpdate l) s = .next (sourcePush (noteFiring (localTake s l 7 k) l) l 5 (some 7) k) := by
  simp only [exec_atomicPipelineUpdate, execAtomicPipelineUpdate, hm, hg, hq, potSeven_bound hk hb hfree, Bool.not_true,
    Bool.false_eq_true, if_false]

end

section
variable {l : TileLoc} {bank lo nb : Nat} {r : UpdateRec} {s : State} (hop : r.op ≠ 0xFF)
include hop

/-- A record that the pot applies writes the new value and answers the old one (R209, R211). -/
theorem applyRecords_applies {op : AmoOp} {ty : Ty} (ha : recordApplies bank lo nb r = some (op, ty)) :
    let n := ty.width / 8
    let a := potBase l.tile + r.off
    let old := leNat (s.potRead l.core a n)
    applyRecords l bank lo nb [r] s = (potStore s l.core a (leBytes n (amoNew op ty old r.operand 0)),
      [{ r with operand := old }], (s.potPoison l.core a n).isSome, (s.potPoison l.core a n).isSome) := by
  simp only [applyRecords, if_neg hop, ha, Bool.false_or]

/-- A misrouted record is counted, and answers 0 with a tag (R211). -/
theorem applyRecords_misroutes (ha : recordApplies bank lo nb r = none) : applyRecords l bank lo nb [r] s =
    (modPot s l fun p => { p with misroute := p.misroute + 1 }, [{ r with operand := 0 }], true, false) := by
  simp only [applyRecords, if_neg hop, ha]

end

theorem updateToken_eq {l : TileLoc} {bank lo nb : Nat} {s s1 : State} {k : Tok} {out : List UpdateRec} {tag bad : Bool}
    (h : applyRecords l bank lo nb (recordsOf k.payload) s = (s1, out, tag, bad)) :
    updateToken s l bank lo nb k = (if bad || k.tag then noteStageCir s1 l (s1.tile l).marks 0 else s1,
      { k with payload := BitVec.ofNat 512 ((out.zipIdx.map fun (r, j) => recordBits r * 2 ^ (128 * j)).sum),
               tag := k.tag || tag }) := by
  simp only [updateToken, h]

/-! ## Mandoline (R212 to R214) -/

section
variable {s : State} {l : TileLoc} {k st d width ty : Nat} (hm : potMode (s.tile l) = some (.mandoline k st d width ty))
  (hg : governedOk (s.tile l) = true) (h7 : potSeven s l = none)
include hm hg h7

section
variable {x : Tok} {r : List Tok}
  (hq : ((mandolineTake k st d (rowToks width ty) (sevenPressed s l) l).tile l).pot.outq = x :: r)
include hq

/-- A window token that waits is emitted (R213). -/
theorem mandolineWindow_emits (hx : x.kind = .data) (hfree : dataFree (sevenPressed s l) l = true) :
    exec (.mandolineWindow l) s = .next (dataPush (noteFiring (modPot
      (mandolineTake k st d (rowToks width ty) (sevenPressed s l) l) l fun p => { p with outq := r }) l) l x) := by
  have hexec : exec (.mandolineWindow l) s = execMandolineWindow l s := by rfl
  have hdone := doneFree_of_kind (Tok.kind_ne_of_data hx (x := .streamEnd) (by decide)) (sevenPressed s l) l
  simp only [hexec, execMandolineWindow, hm, hg, h7, hq, hfree, hdone, Bool.and_self, Bool.not_true, Bool.false_eq_true, if_false,
    if_pos hx]

theorem mandolineWindow_pressed (hfree : dataFree (sevenPressed s l) l = false) : exec (.mandolineWindow l) s =
    .next (notePressed (sevenPressed s l) l (dataChains ((sevenPressed s l).tile l))) := by
  have hexec : exec (.mandolineWindow l) s = execMandolineWindow l s := by rfl
  simp only [hexec, execMandolineWindow, hm, hg, h7, hq, hfree, Bool.false_and, Bool.not_true, Bool.not_false, Bool.false_eq_true,
    if_false, if_true]

end

/-- A firing that only takes (R213). -/
theorem mandolineWindow_takes {ks : List (Nat × Tok)}
    (hq : ((mandolineTake k st d (rowToks width ty) (sevenPressed s l) l).tile l).pot.outq = [])
    (hj : potJoin (sevenPressed s l) l = .ok ks) : exec (.mandolineWindow l) s =
      .next (noteFiring (mandolineTake k st d (rowToks width ty) (sevenPressed s l) l) l) := by
  have hexec : exec (.mandolineWindow l) s = execMandolineWindow l s := by rfl
  simp only [hexec, execMandolineWindow, hm, hg, h7, hq, hj, Bool.not_true, Bool.false_eq_true, if_false]

end

/-- A row token is kept while its windows have room (R213). -/
theorem mandolineTake_data {s : State} {l : TileLoc} {k st d T v : Nat} {x : Tok} (hj : potJoin s l = .ok [(v, x)])
    (hx : x.kind = .data) (ht : mandolineTakes k T (s.tile l).pot = true) :
    mandolineTake k st d T s l = mandolineStore k st d T (localTake s l v x) l x := by
  simp only [mandolineTake, hj, joined_one, if_pos hx, if_pos ht, potTakes, List.foldl, List.map]

theorem mandolineStore_clean {s : State} {l : TileLoc} {k st d T : Nat}
    (hf : ((windowKeys k st d T (s.tile l).pot.row (s.tile l).pot.col).dropLast.any fun key =>
      placeFoul s l (linePlace k d T key)) = false) (x : Tok) :
    let s1 := storePlace s l (linePlace k d T ((s.tile l).pot.row * T + (s.tile l).pot.col))
    mandolineStore k st d T s l x =
      modPot (if x.tag then noteStageCir s1 l (s.tile l).marks 0 else s1) l fun p => mandolinePut k st d T false p x := by
  simp only [mandolineStore, hf, Bool.false_or]

/-- Settles O47: a pot by its mode, and in each by its head, by what waits and by what is free. -/
theorem potsTakeAndGiveTokens : Obligations.PotsTakeAndGiveTokens := by
  unfold Obligations.PotsTakeAndGiveTokens
  intro s l
  refine ⟨fun f v k hm hg hk hv => scratchpadWrite_takes hm hg hk hv,
    fun v k hwf => ⟨scratchData_bytes s l v hwf, scratchData_tagged s l v, scratchData_cursor s l v k, scratchData_mem s l v k⟩,
    fun v k d hd => ⟨scratchData_full s l v k hd, fun hk => scratchData_poisons s l v hk hd⟩,
    fun cap pre w hm hw hsrc hg => ⟨fun hspace k hk => streamBufferPush_stores hm hw hsrc hg hspace hk,
      fun hspace => streamBufferPush_full hm hw hspace⟩,
    fun k => ?queue, fun k p hn => ⟨fun hf => bufferPop_clean hn hf, fun hf hl => bufferPop_foul hn hf hl⟩,
    fun cap pre k s1 hm he hsrc hg hp => ⟨fun hk hfree => streamBufferPop_emits hm he hsrc hg hp hk hfree,
      fun hfree => streamBufferPop_pressed hm he hsrc hg hp hfree⟩,
    fun v k hv hk => potJoin_one hv hk, fun h => sevenPressed_none h, fun h => sevenPressed_some h,
    fun bank lo nb v k x s1 hm hg hq h7 hj hfree hk hu => atomicPipelineUpdate_replies hm hg hq h7 hj hfree hk hu,
    fun bank lo nb k hm hg hq hk hb hfree => atomicPipelineUpdate_bound hm hg hq hk hb hfree,
    fun bank lo nb k out tag bad s1 h => updateToken_eq h, fun bank lo nb r op ty hop ha hwf => ?applies,
    fun bank lo nb r hop ha => applyRecords_misroutes hop ha,
    fun k st d width ty hm hg h7 => ⟨fun x r hq hx hfree => mandolineWindow_emits hm hg h7 hq hx hfree,
      fun x r hq hfree => mandolineWindow_pressed hm hg h7 hq hfree, fun ks hq hj => mandolineWindow_takes hm hg h7 hq hj,
      fun v x hj hx ht => mandolineTake_data hj hx ht⟩,
    fun k st d T x hf => mandolineStore_clean hf x⟩
  case queue =>
    rw [bufferStore_pot]
    exact ⟨rfl, rfl⟩
  case applies =>
    intro n a old
    have hread := potRead_potStore s l.core a (leBytes n (amoNew op ty old r.operand 0)) hwf
    rw [leBytes_length] at hread
    exact ⟨_, _, _, applyRecords_applies hop ha, hread⟩

end Sys2Proof.Machine
end

section
/-! PROOFS. Controller nodes (R142, R157, R164 to R170): permits, dones, and the nodes that pass data. -/

namespace Sys2Proof.Machine

open Sys2Proof

/-! ## The state of a node -/

@[simp] theorem modNode_node_same (s : State) (l : TileLoc) (i : Nat) (f : NodeSt → NodeSt) :
    ((modNode s l i f).tile l).node i = f ((s.tile l).node i) := by
  rw [modNode, State.tile_modTile_same, Tile.node, tmod, tgetD_tset_same, Tile.node]

/-! ## Permits (R164 to R167) -/

theorem exec_controllerPermit (l : TileLoc) (s : State) : exec (.controllerPermit l) s = execControllerPermit l s := by rfl

/-- The nodes that lack a slot are back-pressured (R157, R255). -/
def permitPressed (s : State) (l : TileLoc) : State :=
  if nodeStarts s l = [] then s else notePressed s l (sourceChains (s.tile l) 7 none)

section
variable {s : State} {l : TileLoc} {c : TileCfg} (hc : (s.tile l).active = some c)
include hc

/-- What a node can start comes first (R166). -/
theorem controllerPermit_starts {s' : State} (hs : firstStart s l = some s') :
    exec (.controllerPermit l) s = .next (noteFiring s' l) := by
  simp only [exec_controllerPermit, execControllerPermit, hc, hs, Option.isNone_some, Bool.false_eq_true, if_false]

variable (hs : firstStart s l = none)
include hs

/-- Then a permit inside the pot (R165). -/
theorem controllerPermit_gives {i : Nat} {m : CtlMsg} (hp : nextPermit (permitPressed s l) l = some (i, m)) :
    exec (.controllerPermit l) s = .next
      (givePermit ((permitPressed s l).modTile l fun t => { t with ctl := t.ctl.eraseIdx i }) l m.node m.count) := by
  unfold permitPressed at hp ⊢
  simp only [exec_controllerPermit, execControllerPermit, hc, hs, hp, Option.isNone_some, Bool.false_eq_true, if_false]

/-- Then the head of the control sink (R165, R167). -/
theorem controllerPermit_sinks (hp : nextPermit (permitPressed s l) l = none) :
    exec (.controllerPermit l) s = .next (sinkPermit (permitPressed s l) l) := by
  unfold permitPressed at hp ⊢
  simp only [exec_controllerPermit, execControllerPermit, hc, hs, hp, Option.isNone_some, Bool.false_eq_true, if_false]

end

/-- A permit raises the credit of a node that is no loop-carry (R166). -/
theorem givePermit_credit {s : State} {l : TileLoc} {i : Nat} {n : NodeCfg} (hn : (hostNodes (s.tile l))[i]? = some n)
    (hk : n.kind ≠ 6) (c : Nat) : ((givePermit s l i c).tile l).node i =
      { (s.tile l).node i with credit := ((s.tile l).node i).credit + c } := by
  simp only [givePermit, hn, if_neg hk, modNode_node_same]

/-- A chain, fan or ring node with credit admits an iteration (R166). -/
theorem nodeStart_admits {s : State} {l : TileLoc} {i : Nat} {n : NodeCfg} (hk : n.kind ≤ 2)
    (hcredit : 0 < ((s.tile l).node i).credit) (hw : n.window = 0) : nodeStart s l i n =
      some (admitOne s l i n, (issueTo n ((s.tile l).node i).started).all (permitFree s l i)) := by
  have hadmit : canAdmit n ((s.tile l).node i) = true := by simp [canAdmit, hk, hcredit, hw]
  simp only [nodeStart, hadmit, if_true]

theorem permitFree_inner {s : State} {l : TileLoc} {i j m : Nat} (h : (childrenOf s l i)[j]? = some (.node m)) :
    permitFree s l i j = true := by
  simp only [permitFree, h]

/-! ## Dones (R164, R166) -/

theorem exec_controllerDone (l : TileLoc) (s : State) : exec (.controllerDone l) s = execControllerDone l s := by rfl

section
variable {s : State} {l : TileLoc} (hh : isHost (s.tile l) = true)
include hh

theorem controllerDone_reports {i : Nat} {n : NodeCfg} (ho : owing s l = some (i, n)) :
    exec (.controllerDone l) s = .next (noteFiring (reportDone s l i n) l) := by
  simp only [exec_controllerDone, execControllerDone, hh, ho, Bool.not_true, Bool.false_eq_true, if_false]

variable (ho : owing s l = none)
include ho

theorem controllerDone_takes {i : Nat} {m : CtlMsg} (hd : nextDone s l = some (i, m)) : exec (.controllerDone l) s =
    .next (noteFiring (takeDone (s.modTile l fun t => { t with ctl := t.ctl.eraseIdx i }) l m.node m.child m.count) l) := by
  simp only [exec_controllerDone, execControllerDone, hh, ho, hd, Bool.not_true, Bool.false_eq_true, if_false]

/-- Without a done in the pot the control sink's is taken (R164). -/
theorem controllerDone_sinks (hd : (s.tile l).ctl.any CtlMsg.done = false) :
    exec (.controllerDone l) s = .next (sinkDone s l) := by
  have hnone : nextDone s l = none := by
    rw [nextDone, Option.map_eq_none_iff, List.find?_eq_none]
    rintro ⟨m, i⟩ hm
    have hdone : m.done = false := by simpa using List.any_eq_false.1 hd m (List.fst_mem_of_mem_zipIdx hm)
    simp [hdone]
  simp only [exec_controllerDone, execControllerDone, hh, ho, hnone, hd, Bool.not_true, Bool.false_eq_true, if_false]

end

/-- A done for which no permit is out is dropped (R166). -/
theorem takeDone_drops {s : State} {l : TileLoc} {i j : Nat} {n : NodeCfg} (hn : (hostNodes (s.tile l))[i]? = some n)
    (hr : tgetD ((s.tile l).node i).issued j 0 ≤ tgetD ((s.tile l).node i).returned j 0) (c : Nat) :
    takeDone s l i j c = noteDrop s l := by
  simp only [takeDone, hn, hr, or_true, if_true]

/-! ## Nodes that pass data (R142, R169, R170) -/

section
variable {k : Tok} (hk : k.kind = .data)
include hk

theorem withTag_data (tag : Bool) : withTag k tag = { k with tag := k.tag || tag } := if_pos hk

theorem nodeMark_data (s : State) (l : TileLoc) : nodeMark s l k = s := if_pos (Tok.kind_ne_of_data hk (by decide))

/-- Data costs a node no credit (R167). -/
theorem nodeEmit_data (s : State) (l : TileLoc) (i v : Nat) :
    nodeEmit s l i v k = sourcePush (noteFiring s l) l 5 (some v) k := by
  simp only [nodeEmit, Tok.ends_of_kind (Tok.kind_ne_of_data hk (by decide)), Bool.false_and, Bool.false_eq_true, if_false]

theorem nodeFree_data (s : State) (l : TileLoc) (i v : Nat) : nodeFree s l i v k = sourceFree s l 5 (some v) := by
  simp only [nodeFree, Tok.ends_of_kind (Tok.kind_ne_of_data hk (by decide)), Bool.false_and, Bool.not_false, Bool.true_or,
    Bool.and_true]

theorem noteTainted_data (s : State) (l : TileLoc) : noteTainted s l k = if k.tag then noteCir s l 0 else s := by
  simp only [noteTainted, hk, decide_true, Bool.true_and]

/-- A node that has taken data emits it with the tag of its select (R159, R170). -/
theorem nodeEmit_passes (s : State) (l : TileLoc) (i v : Nat) (tag : Bool) :
    nodeEmit (nodeMark (noteTainted s l (withTag k tag)) l k) l i v (withTag k tag) =
      sourcePush (noteFiring (noteTainted s l { k with tag := k.tag || tag }) l) l 5 (some v) { k with tag := k.tag || tag } := by
  rw [nodeMark_data hk, withTag_data hk]
  exact nodeEmit_data (k := { k with tag := k.tag || tag }) hk _ l i v

section
variable {s : State} {l : TileLoc} {n : Nat} {x : NodeSt} {b tag : Bool} {r : List (Bool × Bool)}
  (hs : x.selects = (b, tag) :: r)
include hs

section
variable (hx : nodeAt s l n 4 = some x) (hh : localHead s l (2 * n) = some k)
include hx hh

/-- The head goes to the output that the select names (R170). -/
theorem steer_passes (hfree : sourceFree s l 5 (some (2 * n + (if b then 1 else 0))) = true) : exec (.steer l n) s =
    .next (sourcePush (noteFiring (noteTainted (modNode (localTake s l (2 * n) k) l n fun x => { x with selects := r }) l
      { k with tag := k.tag || tag }) l) l 5 (some (2 * n + (if b then 1 else 0))) { k with tag := k.tag || tag }) := by
  have hexec : exec (.steer l n) s = execSteer l n s := by rfl
  simp only [hexec, execSteer, hx, hh, hs, nodeFree_data hk, hfree, Bool.not_true, Bool.false_eq_true, if_false,
    nodeEmit_passes hk]

theorem steer_pressed (hfree : sourceFree s l 5 (some (2 * n + (if b then 1 else 0))) = false) : exec (.steer l n) s =
    .next (notePressed s l (sourceChains (s.tile l) 5 (some (2 * n + (if b then 1 else 0))))) := by
  have hexec : exec (.steer l n) s = execSteer l n s := by rfl
  simp only [hexec, execSteer, hx, hh, hs, nodeFree_data hk, hfree, Bool.not_false, if_true]

end

/-- The head of the selected input goes to output 0 (R170). -/
theorem merge_passes (hx : nodeAt s l n 5 = some x) (hh : localHead s l (2 * n + (if b then 1 else 0)) = some k)
    (hfree : sourceFree s l 5 (some (2 * n)) = true) : exec (.merge l n) s =
    .next (sourcePush (noteFiring (noteTainted
      (modNode (localTake s l (2 * n + (if b then 1 else 0)) k) l n fun x => { x with selects := r }) l
      { k with tag := k.tag || tag }) l) l 5 (some (2 * n)) { k with tag := k.tag || tag }) := by
  have hexec : exec (.merge l n) s = execMerge l n s := by rfl
  simp only [hexec, execMerge, hx, hh, hs, nodeFree_data hk, hfree, Bool.not_true, Bool.false_eq_true, if_false,
    nodeEmit_passes hk]

end

section
variable {s : State} {l : TileLoc} {n : Nat} {x : NodeSt} (hx : nodeAt s l n 6 = some x) (hl : x.carryLeft ≠ 0)
include hx hl

/-- A loop's first value comes from input 0 (R170). -/
theorem loopCarry_first (hfirst : x.carryFirst = true) (hh : localHead s l (2 * n) = some k)
    (hfree : sourceFree s l 5 (some (2 * n)) = true) : exec (.loopCarry l n) s = .next (sourcePush
      (noteFiring (modNode (noteTainted (localTake s l (2 * n) k) l k) l n fun x => { x with carryFirst := false }) l) l 5
      (some (2 * n)) k) := by
  have hexec : exec (.loopCarry l n) s = execLoopCarry l n s := by rfl
  simp only [hexec, execLoopCarry, hx, hfirst, or_true, if_true, hh, if_neg hl, hk, ne_eq, not_true_eq_false, if_false, hfree,
    Bool.not_true, Bool.false_eq_true]

/-- The others come from input 1, and the last leaves on output 1 (R170). -/
theorem loopCarry_later (hfirst : x.carryFirst = false) (hh : localHead s l (2 * n + 1) = some k)
    (hdone : nodeDoneFree s l n = true)
    (hfree : sourceFree s l 5 (some (if x.carryLeft = 1 then 2 * n + 1 else 2 * n)) = true) :
    exec (.loopCarry l n) s = .next (doneParent (sourcePush
      (modNode (noteFiring (noteTainted (localTake s l (2 * n + 1) k) l k) l) l n fun x => { x with carryLeft := x.carryLeft - 1 })
      l 5 (some (if x.carryLeft = 1 then 2 * n + 1 else 2 * n)) k) l n 1) := by
  have hexec : exec (.loopCarry l n) s = execLoopCarry l n s := by rfl
  have hlater : ¬(x.carryLeft = 0 ∨ x.carryFirst = true) := by simp [hl, hfirst]
  simp only [hexec, execLoopCarry, hx, if_neg hlater, hh, hfree, hdone, Bool.and_self, Bool.not_true, Bool.false_eq_true, if_false,
    nodeMark_data hk]

end

end

/-- Settles O48: permits and dones by which of them comes first, the nodes that pass data by their selects and slots. -/
theorem controllerNodesPassPermitsAndDones : Obligations.ControllerNodesPassPermitsAndDones := by
  unfold Obligations.ControllerNodesPassPermitsAndDones
  intro s l
  refine ⟨fun c hc => ⟨fun s' hs => controllerPermit_starts hc hs, fun i m hs hp => controllerPermit_gives hc hs hp,
      fun hs hp => controllerPermit_sinks hc hs hp⟩,
    fun i n c hn hk => givePermit_credit hn hk c, fun i n hk hcredit hw => nodeStart_admits hk hcredit hw,
    fun i j m h => permitFree_inner h,
    fun hh => ⟨fun i n ho => controllerDone_reports hh ho, fun m i ho hd => controllerDone_takes hh ho hd,
      fun ho hd => controllerDone_sinks hh ho hd⟩,
    fun i n j c hn hr => takeDone_drops hn hr c,
    fun n x k b tag r hx hh hs hk => ⟨fun hfree => steer_passes hk hs hx hh hfree, fun hfree => steer_pressed hk hs hx hh hfree⟩,
    fun n x k b tag r hx hs hh hk hfree => merge_passes hk hs hx hh hfree, fun k hk => noteTainted_data hk s l,
    fun n x k hx hfree hl hfirst hh hk => loopCarry_first hk hx hl hfirst hh hfree,
    fun n x k hx hdone hl hfirst hfree hh hk => loopCarry_later hk hx hl hfirst hh hdone hfree⟩

end Sys2Proof.Machine
end

section
/-! PROOFS. Edge stream nodes (R142, R171, R215 to R218, R234, R255, R305): rounds read and written, re-injection, gathers and network
ports; the ends of walks (R308, R309) and the replies of memory (R217, R282). -/

namespace Sys2Proof.Machine

open Sys2Proof

/-! ## Reading spouts (R216, R218, R234, R274) -/

theorem exec_spoutReadRound (l : TileLoc) (s : State) : exec (.spoutReadRound l) s = execSpoutReadRound l s := by rfl

theorem exec_spoutReinject (l : TileLoc) (s : State) : exec (.spoutReinject l) s = execSpoutReinject l s := by rfl

/-- The window from the sequence asked for stands to be emitted again (R216, R234). -/
def reinjected (s : State) (l : TileLoc) (n : BitVec 24) : State := modEdge s l fun e =>
  { e with reinject := none, collected := e.window.dropWhile fun k => !(k.kind = .data && k.seq = n) }

section
variable {s : State} {l : TileLoc} {ty round base fill : Nat} {ds : List Dim}
  (hc : edgeCfg s l = some (.spout false ty round base fill ds))
include hc

/-- A source waits for its launch (R225). -/
theorem spoutReadRound_waits (hr : edgeRuns s l = false) : exec (.spoutReadRound l) s = .next s := by
  simp only [exec_spoutReadRound, execSpoutReadRound, hc, hr, Bool.not_false, Bool.true_or, if_true]

section
variable (hr : edgeRuns s l = true) (he : (edgeSt s l).ended = false) (hcol : (edgeSt s l).collected = [])
  (hin : (edgeSt s l).reinject = none) (hl : l.core ≠ portCore)
include hr he hcol hin hl

/-- A marker that is due goes first, else the round or the next one (R216, R274). -/
theorem spoutReadRound_step : exec (.spoutReadRound l) s =
    .next ((dueMark s l).elim (readStep s l (.spout false ty round base fill ds) 0) (edgeMark s l)) := by
  have hruns : (!edgeRuns s l || (edgeSt s l).ended) = false := by simp [hr, he]
  have hreads : ((edgeSt s l).reinject.isSome || (l.core ≠ portCore && (edgeSt s l).collected ≠ [])) = false := by
    simp [hin, hcol]
  simp only [exec_spoutReadRound, execSpoutReadRound, hc, hruns, hreads, if_neg hl, Bool.false_eq_true, if_false]
  cases dueMark s l with
  | none => rfl
  | some m => rfl

end

section
variable {n : BitVec 24} (hn : (edgeSt s l).reinject = some n)
include hn

theorem spoutReinject_emits {k : Tok} {r : List Tok} (hw : (edgeSt (reinjected s l n) l).collected = k :: r)
    (hfree : edgeOutFree (reinjected s l n) l = true) : exec (.spoutReinject l) s =
      .next (modEdge (edgeEmit (reinjected s l n) l k) l fun e => { e with collected := r }) := by
  unfold reinjected at hw hfree ⊢
  simp only [exec_spoutReinject, execSpoutReinject, hc, hn, hw, if_pos hfree]

/-- A clock in which the output of a tile's node has no place is counted (R255). -/
theorem spoutReinject_pressed (hfree : edgeOutFree (reinjected s l n) l = false) : exec (.spoutReinject l) s =
    .next (if (edgeSt (reinjected s l n) l).collected = [] ∨ l.core = portCore then reinjected s l n
      else notePressed (reinjected s l n) l []) := by
  cases hw : (edgeSt (reinjected s l n) l).collected with
  | nil =>
    rw [if_pos (Or.inl rfl)]
    unfold reinjected at hw ⊢
    simp only [exec_spoutReinject, execSpoutReinject, hc, hn, hw]
  | cons k r =>
    simp only [reduceCtorEq, false_or]
    unfold reinjected at hw hfree ⊢
    simp only [exec_spoutReinject, execSpoutReinject, hc, hn, hw, hfree, Bool.false_eq_true, if_false]

end

end

/-- The next token that has been read is emitted (R216). -/
theorem readStep_emits {s : State} {l : TileLoc} {k : Tok} {r : List Tok} (hf : (edgeSt s l).faulted = none)
    (hw : (edgeSt s l).awaitReply = false) (hp : (edgeSt s l).pending = k :: r) (c : EdgeCfg) (lo : Nat) :
    readStep s l c lo = emitPending s l c k := by
  simp only [readStep, hf, hw, hp, Option.isSome_none, Bool.or_self, Bool.false_eq_true, if_false]

/-! ## Writing spouts (R217, R218) -/

/-- The round that commits goes on, unless a fault holds it (R218). -/
def roundCommitted (s : State) (l : TileLoc) (ty base : Nat) (ds : List Dim) : State :=
  if (edgeSt s l).committing ≠ [] && (edgeSt s l).faulted.isNone then commitRound s l ty base ds else s

theorem roundCommitted_idle {s : State} {l : TileLoc} (h : (edgeSt s l).committing = [] ∨ (edgeSt s l).faulted ≠ none)
    (ty base : Nat) (ds : List Dim) : roundCommitted s l ty base ds = s := by
  rcases h with h | h
  · simp [roundCommitted, h]
  · simp [roundCommitted, Option.isNone_eq_false_iff.2 (Option.isSome_iff_ne_none.2 h)]

/-- The other buffer takes the next token the while, and a full one follows (R218). -/
theorem spoutWriteRound_step {s : State} {l : TileLoc} {ty round base fill : Nat} {ds : List Dim}
    (hc : edgeCfg s l = some (.spout true ty round base fill ds)) (he : (edgeSt s l).ended = false) :
    exec (.spoutWriteRound l) s =
      .next (writeSwap (writeNext (roundCommitted s l ty base ds) l ty round ds) l round) := by
  have hexec : exec (.spoutWriteRound l) s = execSpoutWriteRound l s := by rfl
  simp only [hexec, execSpoutWriteRound, hc, he, Bool.false_eq_true, if_false, roundCommitted]

section
variable {s : State} {l : TileLoc} {round : Nat}

theorem writeNext_none (hh : edgeHead s l = none) (ty : Nat) (ds : List Dim) : writeNext s l ty round ds = s := by
  simp only [writeNext, hh]

/-- Data is taken while the round has room (R217, R218). -/
theorem writeNext_data {k : Tok} (hh : edgeHead s l = some k) (hk : k.kind = .data)
    (hroom : (edgeSt s l).collected.length < round) (hl : l.core ≠ portCore) (hrole : sinkRole s l = .plain) (ty : Nat)
    (ds : List Dim) : writeNext s l ty round ds = writeSink (noteFiring (edgeTake s l) l) l ty ds k none := by
  have hopen : writeBlocked (edgeSt s l) round k = false := by simp [writeBlocked, hk, hroom]
  simp only [writeNext, hh, hopen, if_neg hl, hrole, writeFire, Bool.false_eq_true, if_false]

/-- A full round moves to the buffer that commits once that is free (R218). -/
theorem writeSwap_full (hc : (edgeSt s l).committing = []) (hf : (edgeSt s l).collected.length = round) :
    writeSwap s l round = modEdge s l fun e => { e with committing := e.collected, collected := [] } := by
  simp only [writeSwap, hc, hf, decide_true, Bool.true_or, Bool.and_self, if_true]

end

/-! ## Gathers and network ports (R142, R171, R305) -/

/-- A gather takes an index token; a tagged one is noted (R142, R305). -/
theorem indirectGather_takes {s : State} {l : TileLoc} {ty round base fill rows rowLen : Nat} {signed : Bool} {stride : Int}
    {k : Tok} (hc : edgeCfg s l = some (.gather ty round base fill rows rowLen signed stride)) (he : (edgeSt s l).ended = false)
    (hcol : (edgeSt s l).collected = []) (hh : edgeHead s l = some k) (hk : k.kind = .data) : exec (.indirectGather l) s =
      .next (modEdge (if k.tag then noteEdgeCir (edgeTake s l) l 0 else edgeTake s l) l
        fun e => { e with collected := [k], tile := 0, pos := 0 }) := by
  have hexec : exec (.indirectGather l) s = execIndirectGather l s := by rfl
  simp only [hexec, execIndirectGather, hc, he, hcol, hh, hk, ne_eq, not_true_eq_false, Bool.false_eq_true, if_false, if_true]

section
variable {s : State} {l : TileLoc} {send : Bool} {core edge row vc : Nat}
  (hc : edgeCfg s l = some (.port send core edge row vc))
include hc

/-- A port that is named back moves a token in its direction (R171). -/
theorem networkPortTransfer_moves (hb : namedBack s l (networkPeer s l core edge row) send = true) :
    exec (.networkPortTransfer l) s = .next (if send then networkSend s l (networkPeer s l core edge row) vc
      else networkReceive s l (networkPeer s l core edge row) vc) := by
  have hexec : exec (.networkPortTransfer l) s = execNetworkPortTransfer l s := by rfl
  simp only [hexec, execNetworkPortTransfer, hc, hb, Bool.not_true, Bool.false_eq_true, if_false]

theorem networkPortTransfer_stays (hb : namedBack s l (networkPeer s l core edge row) send = false) :
    exec (.networkPortTransfer l) s = .next s := by
  have hexec : exec (.networkPortTransfer l) s = execNetworkPortTransfer l s := by rfl
  simp only [hexec, execNetworkPortTransfer, hc, hb, Bool.not_false, if_true]

end

/-! ## Walks (R308, R309) -/

section
variable {s : State} {rim n : Nat} {w : Walk} (hw : (s.rim rim).walks[n]? = some w) (hr : w.result = none)
include hw hr

/-- A walk to a leaf that allows the access ends in a buffered translation (R309). -/
theorem endWalk_fills {leaf : Word} {nbits pa : Nat} (hwalk : walk s.mem (s.ctx w.ctx).root w.va = .ok (leaf, nbits))
    (hleaf : leafCheck leaf nbits w.va w.acc w.user = .ok pa) : endWalk s rim n =
      tlbFill (s.modRim rim fun x => { x with walks := x.walks.eraseIdx n }) w.ctx w.va leaf nbits := by
  simp only [endWalk, hw, hr, hwalk, hleaf, Option.isSome_none, Bool.false_eq_true, if_false]

/-- A failure is kept for the round that asked (R309). -/
theorem endWalk_keeps {r : WalkResult} (hwalk : walk s.mem (s.ctx w.ctx).root w.va = .error r) : endWalk s rim n =
    s.modRim rim fun x => { x with walks := x.walks.set n { w with result := some r } } := by
  simp only [endWalk, hw, hr, hwalk, Option.isSome_none, Bool.false_eq_true, if_false]

theorem translationWalk_keeps {r : WalkResult} (hwalk : walk s.mem (s.ctx w.ctx).root w.va = .error r) :
    ∃ s', exec (.translationWalk rim n) s = .next s' ∧ (s'.rim rim).walks[n]? = some { w with result := some r } ∧
      s'.mem = s.mem := by
  refine ⟨endWalk s rim n, rfl, ?_, ?_⟩
  · rw [endWalk_keeps hw hr hwalk, State.rim_modRim_same, List.getElem?_set_self', hw]
    rfl
  · rw [endWalk_frame]

end

/-! ## Replies (R217, R282, R302) -/

theorem exec_memoryReply (core : Nat) (x : ReplyRead) (s : State) :
    exec (.memoryReply core x) s = execMemoryReply core x s := by rfl

/-- What a tier's code has found changes a rim die's count or a poison mark alone (R302). -/
theorem noteTier_frame (s : State) (err : TierError) :
    noteTier s err = { s with rims := (noteTier s err).rims, poison := (noteTier s err).poison } := by
  cases err with
  | clean => rfl
  | corrected pa => rfl
  | uncorrectable pa =>
    unfold noteTier
    dsimp only
    split <;> rfl

/-- The reply has left its core's list (R282). -/
def replyTaken (s : State) (core n : Nat) (err : TierError) : State :=
  (noteTier s err).modCore core fun c => { c with replies := c.replies.eraseIdx n }

section
variable (s : State) (core n : Nat) (err : TierError)

theorem noteTier_core (c : Nat) : (noteTier s err).core c = s.core c := by
  rw [noteTier_frame]
  rfl

theorem replyTaken_mem : (replyTaken s core n err).mem = s.mem := by
  rw [replyTaken, State.modCore_mem, noteTier_frame]

theorem replyTaken_clusters : (replyTaken s core n err).clusters = s.clusters := by
  rw [replyTaken, State.modCore_clusters, noteTier_frame]

theorem replyTaken_core : (replyTaken s core n err).core core =
    { s.core core with replies := (s.core core).replies.eraseIdx n } := by
  rw [replyTaken, State.core_modCore_same, noteTier_core]

theorem replyTaken_launch (cl h : Nat) : (replyTaken s core n err).launch? cl h = s.launch? cl h := by
  unfold State.launch? State.cluster
  rw [replyTaken_clusters]

/-- The region tag stands in the table of the cluster (R282). -/
theorem replyTaken_coreTag (c : Nat) : coreTag (replyTaken s core n err) c = coreTag s c := by
  unfold coreTag State.logical State.lct State.cluster
  rw [replyTaken_clusters]

end

section
variable {s : State} {core n : Nat} {r : MemReply} (hr : (s.core core).replies[n]? = some r) (err : TierError)
include hr

/-- A reply with another region tag is dropped and counted (R282). -/
theorem memoryReply_stale (ht : r.tag ≠ coreTag s core) : exec (.memoryReply core { n := n, err := err }) s =
    .next ((replyTaken s core n err).modCore core fun c => { c with staleReplies := c.staleReplies + 1 }) := by
  rw [← replyTaken_coreTag s core n err, replyTaken] at ht
  simp only [exec_memoryReply, execMemoryReply, noteTier_core, hr, if_pos ht, replyTaken]

variable (ht : r.tag = coreTag s core)
include ht

/-- Operands reach the node that waits for them (R282). -/
theorem memoryReply_operands {ks : List Tok} (ho : r.operands = some ks) : exec (.memoryReply core { n := n, err := err }) s =
    .next ((replyTaken s core n err).modTile { core := core, tile := r.tile } fun t =>
      { t with edge := { t.edge with pending := ks, awaitReply := false } }) := by
  rw [← replyTaken_coreTag s core n err, replyTaken] at ht
  simp only [exec_memoryReply, execMemoryReply, noteTier_core, hr, if_neg (not_not.2 ht), ho, replyTaken]

/-- An acknowledgement lowers the launch's count (R217). -/
theorem memoryReply_acknowledges {x : Launch} (ho : r.operands = none) (hx : s.launch? (core / 132) r.handle = some x) :
    exec (.memoryReply core { n := n, err := err }) s =
      .next ((replyTaken s core n err).setLaunch (core / 132) r.handle { x with acks := x.acks - 1 }) := by
  rw [← replyTaken_coreTag s core n err, replyTaken] at ht
  rw [← replyTaken_launch s core n err, replyTaken] at hx
  simp only [exec_memoryReply, execMemoryReply, noteTier_core, hr, if_neg (not_not.2 ht), ho, hx, replyTaken]

end

/-- Settles O49: each edge node by its block and by what it holds, a walk by its finding, a reply by its tag and its operands. -/
theorem edgeNodesMoveRoundsAndRepliesArrive : Obligations.EdgeNodesMoveRoundsAndRepliesArrive := by
  unfold Obligations.EdgeNodesMoveRoundsAndRepliesArrive
  intro s l
  refine ⟨fun ty round base fill ds hc => ⟨fun hr he hcol hin hl => ⟨fun m hm => ?marks, fun hm => ?reads⟩,
      fun hr => spoutReadRound_waits hc hr,
      fun n hn => ⟨fun hfree => spoutReinject_pressed hc hn hfree, fun k r hw hfree => spoutReinject_emits hc hn hw hfree⟩,
      fun k r hf hw hp => readStep_emits hf hw hp _ 0⟩,
    fun ty round base fill ds hc he => ⟨spoutWriteRound_step hc he, fun hi => ⟨fun hh => ?idle, fun k hh hk hroom hl hrole => ?takes⟩,
      fun hcom hfull => writeSwap_full hcom hfull⟩,
    fun ty round base fill rows rowLen signed stride k hc he hcol hh hk => indirectGather_takes hc he hcol hh hk,
    fun send core edge row vc hc => ⟨fun hb hsend => ?sends, fun hb hsend => ?receives,
      fun hb => networkPortTransfer_stays hc hb⟩,
    fun rim n w leaf nbits r hw hr hwalk hleaf => congrArg Host.Outcome.next (endWalk_fills hw hr hwalk hleaf),
    fun rim n w r hw hr hwalk => translationWalk_keeps hw hr hwalk,
    fun core n err r hr => ⟨fun ht => ⟨_, memoryReply_stale hr err ht, replyTaken_mem s core n err, ?count, ?tiles⟩,
      fun ks ht ho => ⟨_, memoryReply_operands hr err ht ho, replyTaken_mem s core n err, ?pending, ?arrived⟩,
      fun x ht ho hx => ⟨_, memoryReply_acknowledges hr err ht ho hx, replyTaken_mem s core n err,
        State.launch_setLaunch_same ..⟩⟩⟩
  case marks => rw [spoutReadRound_step hc hr he hcol hin hl, hm]; rfl
  case reads => rw [spoutReadRound_step hc hr he hcol hin hl, hm]; rfl
  case idle => rw [spoutWriteRound_step hc he, roundCommitted_idle hi, writeNext_none hh]
  case takes => rw [spoutWriteRound_step hc he, roundCommitted_idle hi, writeNext_data hh hk hroom hl hrole]
  case sends => rw [networkPortTransfer_moves hc hb, hsend]; rfl
  case receives => rw [networkPortTransfer_moves hc hb, hsend]; rfl
  case count => rw [State.core_modCore_same, replyTaken_core]
  case tiles => rw [State.core_modCore_same, replyTaken_core]
  case pending => rw [State.tile_modTile_same]
  case arrived => rw [State.tile_modTile_same]

end Sys2Proof.Machine
end

section
/-! PROOFS. Swaps, freezes, scrubs and reloads of tiles (R203, R229, R232 to R234): what each event does by what it finds at its
tile or handle, and what a swap and a freeze leave there. -/

namespace Sys2Proof.Machine

open Sys2Proof

/-! ## What a swap leaves at its tile (R229) -/

/-- The places of preloaded tokens are marks of the pot; no tile changes. -/
theorem preloadPlaces_tile (s : State) (l l' : TileLoc) (k : TileKind) : (preloadPlaces s l k).tile l' = s.tile l' := by
  unfold preloadPlaces
  split
  · exact State.tile_modCore s _ (fun _ => by rfl) l'
  · rfl

theorem preloadPlaces_mem (s : State) (l : TileLoc) (k : TileKind) : (preloadPlaces s l k).mem = s.mem := by
  unfold preloadPlaces
  split <;> rfl

/-- The full bits of a pot's granules, and who waits for them, are no part of a tile (R43). -/
theorem potActivate_tile (s : State) (l l' : TileLoc) (k : TileKind) : (potActivate s l k).tile l' = s.tile l' := by
  unfold potActivate
  split
  · dsimp only
    split
    · exact State.tile_modCore s _ (fun _ => by rfl) l'
    · rw [foldl_field _ (State.tile · l') (fun s g => fill_tile s _ _ l')]
      exact State.tile_modCore s _ (fun _ => by rfl) l'
  · exact preloadPlaces_tile s l l' k

theorem potActivate_mem (s : State) (l : TileLoc) (k : TileKind) : (potActivate s l k).mem = s.mem := by
  unfold potActivate
  split
  · dsimp only
    split
    · rfl
    · rw [foldl_field _ State.mem (fun s g => fill_mem s _ _)]
      rfl
  · exact preloadPlaces_mem s l k

theorem leaveRims_mem (s : State) (l : TileLoc) : (leaveRims s l).mem = s.mem := by
  unfold leaveRims modEdge
  dsimp only
  rw [rimRoom_frame]
  split
  · split <;> rfl
  · rfl

theorem wakeInject_frame (s : State) (l : TileLoc) : wakeInject s l = { s with wakes := (wakeInject s l).wakes } := by
  unfold wakeInject
  split <;> rfl

/-- The permits of a launch go to the tile's control messages (R164). -/
theorem permitRoots_tile (s : State) (l : TileLoc) :
    (permitRoots s l).tile l = { s.tile l with ctl := ((permitRoots s l).tile l).ctl } := by
  unfold permitRoots
  generalize rootNodes s l = ns
  induction ns generalizing s with
  | nil => rfl
  | cons i r ih => rw [List.foldl_cons, ih, postCtl, State.tile_modTile_same]

theorem permitRoots_mem (s : State) (l : TileLoc) : (permitRoots s l).mem = s.mem :=
  foldl_field _ State.mem (fun _ _ => by rfl) _ s

/-- The tile of a swap before its pot, its waiters and its permits: the shadow is active (R229). -/
def swappedIn (s : State) (l : TileLoc) (c : TileCfg) : State :=
  let s := if 96 ≤ l.tile then leaveRims s l else s
  s.modTile l fun t => { startTile { t with shadow := none, armed := false } c with
    running := sourcesStart s (l.core / 132) c.handle, edge := { EdgeSt.start with pending := keptTokens t c } }

theorem swappedIn_tile (s : State) (l : TileLoc) (c : TileCfg) :
    ((swappedIn s l c).tile l).active = some c ∧ ((swappedIn s l c).tile l).shadow = none ∧
      ((swappedIn s l c).tile l).armed = false := by
  rw [swappedIn, State.tile_modTile_same]
  exact ⟨rfl, rfl, rfl⟩

theorem swappedIn_mem (s : State) (l : TileLoc) (c : TileCfg) : (swappedIn s l c).mem = s.mem := by
  rw [swappedIn, State.modTile_mem]
  split
  · exact leaveRims_mem s l
  · rfl

/-- Who waits to inject into a source that has swapped tries again (R57, log 62). -/
def injectWoken (s : State) (l : TileLoc) (c : TileCfg) : State := if c.isSource then wakeInject s l else s

/-- The root nodes of a tile that has swapped have their permit where the launch runs (R164). -/
def permitsGiven (s : State) (l : TileLoc) (c : TileCfg) : State :=
  if launchRuns s (l.core / 132) c.handle then permitRoots s l else s

theorem injectWoken_frame (s : State) (l : TileLoc) (c : TileCfg) :
    injectWoken s l c = { s with wakes := (injectWoken s l c).wakes } := by
  unfold injectWoken
  split
  · exact wakeInject_frame s l
  · rfl

theorem injectWoken_tile (s : State) (l : TileLoc) (c : TileCfg) (l' : TileLoc) : (injectWoken s l c).tile l' = s.tile l' := by
  rw [injectWoken_frame]
  rfl

theorem injectWoken_mem (s : State) (l : TileLoc) (c : TileCfg) : (injectWoken s l c).mem = s.mem := by
  rw [injectWoken_frame]

theorem permitsGiven_tile (s : State) (l : TileLoc) (c : TileCfg) :
    (permitsGiven s l c).tile l = { s.tile l with ctl := ((permitsGiven s l c).tile l).ctl } := by
  unfold permitsGiven
  split
  · exact permitRoots_tile s l
  · rfl

theorem permitsGiven_mem (s : State) (l : TileLoc) (c : TileCfg) : (permitsGiven s l c).mem = s.mem := by
  unfold permitsGiven
  split
  · exact permitRoots_mem s l
  · rfl

theorem swapTile_eq {s : State} {l : TileLoc} {c : TileCfg} (h : (s.tile l).shadow = some c) :
    swapTile s l = permitsGiven (injectWoken (potActivate (swappedIn s l c) l c.kind) l c) l c := by
  rw [swapTile, h]
  rfl

/-- A swap makes the shadow active and leaves global memory (R229). -/
theorem swapTile_takes {s : State} {l : TileLoc} {c : TileCfg} (h : (s.tile l).shadow = some c) :
    ((swapTile s l).tile l).active = some c ∧ ((swapTile s l).tile l).shadow = none ∧
      ((swapTile s l).tile l).armed = false ∧ (swapTile s l).mem = s.mem := by
  obtain ⟨hactive, hshadow, harmed⟩ := swappedIn_tile s l c
  rw [swapTile_eq h, permitsGiven_tile, permitsGiven_mem, injectWoken_tile, injectWoken_mem, potActivate_tile, potActivate_mem,
    swappedIn_mem]
  exact ⟨hactive, hshadow, harmed, rfl⟩

/-! ## TILE_SWAP (R229, R232 to R234) -/

theorem exec_tileSwap (l : TileLoc) (s : State) : exec (.tileSwap l) s = execTileSwap l s := by rfl

/-- Without a shadow that is armed and stands at its drain point nothing happens. -/
theorem tileSwap_waits {s : State} {l : TileLoc}
    (h : (s.tile l).shadow = none ∨ (s.tile l).armed = false ∨ drainedTile (s.tile l) = false) :
    exec (.tileSwap l) s = .next s := by
  rw [exec_tileSwap, execTileSwap]
  cases hc : (s.tile l).shadow with
  | none => rfl
  | some c =>
    have hgo : (!((s.tile l).armed && drainedTile (s.tile l))) = true := by
      rcases h with h | h | h
      · rw [hc] at h; cases h
      · rw [h]; rfl
      · rw [h, Bool.and_false]; rfl
    exact if_pos hgo

section
variable {s : State} {l : TileLoc} {c : TileCfg} (hc : (s.tile l).shadow = some c) (ha : (s.tile l).armed = true)
  (hd : drainedTile (s.tile l) = true)
include hc ha hd

/-- A store that fails its signature at the drain point freezes its graph (R232, R233). -/
theorem tileSwap_freezes {a : TileCfg} (hf : foulDrain (s.tile l) = some a) :
    exec (.tileSwap l) s = .next (freezeTile s l a) := by
  simp [exec_tileSwap, execTileSwap, hc, ha, hd, hf]

/-- A frozen graph keeps its configuration until its reload, and a tile on the way of a repair does not swap (R233, R234). -/
theorem tileSwap_held (hf : foulDrain (s.tile l) = none) (hh : frozenAt s l = true ∨ repairing s l = true) :
    exec (.tileSwap l) s = .next s := by
  simp [exec_tileSwap, execTileSwap, hc, ha, hd, hf, hh]

theorem tileSwap_swaps (hf : foulDrain (s.tile l) = none) (hz : frozenAt s l = false) (hr : repairing s l = false) :
    let armedIn := fun (s : State) => (((s.handle? (l.core / 132) c.handle).map Handle.armed).getD false : Bool)
    let s1 := settleGraph (swapTile s l) (l.core / 132) c.handle
    exec (.tileSwap l) s = .next (if armedIn s && !armedIn s1 then graphChange s1 (l.core / 132) c.handle else s1) := by
  simp [exec_tileSwap, execTileSwap, hc, ha, hd, hf, hz, hr]

end

/-! ## CONFIG_SCRUB (R203, R232) -/

theorem exec_configScrub (l : TileLoc) (err : StoreError) (s : State) :
    exec (.configScrub l err) s = execConfigScrub l err s := by rfl

/-- The scrubber finds nothing to change at a store without an error whose signature matches. -/
theorem configScrub_clean {s : State} {l : TileLoc} (h : ∀ c, (s.tile l).active = some c → c.foul = false) :
    exec (.configScrub l .clean) s = .next s := by
  cases hc : (s.tile l).active with
  | none => simp [exec_configScrub, execConfigScrub, hc]
  | some c => simp [exec_configScrub, execConfigScrub, hc, h c hc]

section
variable {s : State} {l : TileLoc} {c : TileCfg}

/-- A wrong signature freezes the graph (R232, R233). -/
theorem configScrub_foul (hc : (s.tile l).active = some c) (hf : c.foul = true) :
    exec (.configScrub l .clean) s = .next (freezeTile s l c) := by
  simp [exec_configScrub, execConfigScrub, hc, hf]

/-- An error of one bit is corrected and counted (R232). -/
theorem configScrub_singleBit (hc : (s.tile l).active = some c) (hf : c.foul = false) :
    exec (.configScrub l .singleBit) s = .next (s.modCore l.core fun k => { k with corrected := k.corrected + 1 }) := by
  simp [exec_configScrub, execConfigScrub, hc, hf]

/-- An error of two bits freezes the graph (R233). -/
theorem configScrub_doubleBit (hc : (s.tile l).active = some c) : exec (.configScrub l .doubleBit) s = .next (freezeTile s l c) := by
  simp [exec_configScrub, execConfigScrub, hc]

/-- Without an active configuration there is no graph to freeze (log 64). -/
theorem configScrub_doubleBit_idle (hc : (s.tile l).active = none) : exec (.configScrub l .doubleBit) s = .next s := by
  simp [exec_configScrub, execConfigScrub, hc]

/-- An error of one bit in a shadow is corrected and counted too (R232). -/
theorem configScrub_singleBit_idle (hc : (s.tile l).active = none) : exec (.configScrub l .singleBit) s = .next
    (if (s.tile l).shadow.isSome then s.modCore l.core fun k => { k with corrected := k.corrected + 1 } else s) := by
  simp [exec_configScrub, execConfigScrub, hc]

variable (h : (s.tile l).active = none ∨ (s.tile l).active = some c ∧ c.foul = false)
include h

/-- Two wrong bits in a granule of a pot poison it (R203). -/
theorem configScrub_potDouble {g : Nat} (hp : (oddTile l.tile && l.tile < 96) = true) :
    exec (.configScrub l (.potDouble g)) s = .next
      (s.modCore l.core fun k => { k with poisoned := nsAdd k.poisoned (potBase l.tile / 16 + g % 8192) }) := by
  rw [exec_configScrub, execConfigScrub]
  rcases h with hc | ⟨hc, hf⟩
  · simp only [hc, hp]; rfl
  · simp only [hc, hf, hp]; rfl

/-- A tile without a pot has no granule to poison. -/
theorem configScrub_potDouble_none {g : Nat} (hp : (oddTile l.tile && l.tile < 96) = false) :
    exec (.configScrub l (.potDouble g)) s = .next s := by
  rw [exec_configScrub, execConfigScrub]
  rcases h with hc | ⟨hc, hf⟩
  · simp only [hc, hp]; rfl
  · simp only [hc, hf, hp]; rfl

end

/-! ## Freezing (R233) -/

/-- A marker that becomes due at the sources leaves the tiles. -/
theorem markLaunch_tile (s : State) (cl h : Nat) (l : TileLoc) : (markLaunch s cl h).tile l = s.tile l := by
  unfold markLaunch
  split
  · exact State.tile_setLaunch ..
  · rfl

theorem markLaunch_handle (s : State) (cl h n m : Nat) : (markLaunch s cl h).handle? n m = s.handle? n m := by
  unfold markLaunch
  split
  · exact State.handle_setLaunch ..
  · rfl

/-- The launch of a frozen graph has one more marker due, behind which it is reloaded (R233). -/
def freezeLaunch (s : State) (cl h : Nat) : State :=
  if !launchRuns s cl h then s else
  let s := markLaunch s cl h
  match s.launch? cl h with
  | some v => s.setLaunch cl h { v with reloading := true }
  | none => s

theorem freezeLaunch_tile (s : State) (cl h : Nat) (l : TileLoc) : (freezeLaunch s cl h).tile l = s.tile l := by
  unfold freezeLaunch
  split
  · rfl
  · dsimp only
    split
    · rw [State.tile_setLaunch, markLaunch_tile]
    · exact markLaunch_tile ..

theorem freezeLaunch_handle (s : State) (cl h n m : Nat) : (freezeLaunch s cl h).handle? n m = s.handle? n m := by
  unfold freezeLaunch
  split
  · rfl
  · dsimp only
    split
    · rw [State.handle_setLaunch, markLaunch_handle]
    · exact markLaunch_handle ..

theorem freezeTile_eq {s : State} {l : TileLoc} {c : TileCfg} {x : Handle}
    (hx : s.handle? (l.core / 132) c.handle = some x) :
    freezeTile s l c =
      let s := s.modTile l fun t => { t with tagAll := true }
      if x.state = .frozen then s
      else freezeLaunch (s.setHandle (l.core / 132) c.handle { x with state := .frozen }) (l.core / 132) c.handle := by
  simp only [freezeTile, State.handle_modTile, hx]
  rfl

/-- The tile emits tagged tokens, and its handle is frozen (R233). -/
theorem freezeTile_marks {s : State} {l : TileLoc} {c : TileCfg} {x : Handle}
    (hx : s.handle? (l.core / 132) c.handle = some x) :
    ((freezeTile s l c).tile l).tagAll = true ∧
      ((freezeTile s l c).handle? (l.core / 132) c.handle).map Handle.state = some .frozen := by
  rw [freezeTile_eq hx]
  dsimp only
  split
  · rename_i hz
    rw [State.tile_modTile_same, State.handle_modTile, hx, ← hz]
    exact ⟨rfl, rfl⟩
  · rw [freezeLaunch_tile, freezeLaunch_handle, State.tile_setHandle, State.tile_modTile_same, State.handle_setHandle_same]
    exact ⟨rfl, rfl⟩

/-! ## CONFIG_RELOAD (R233) -/

theorem exec_configReload (cl h : Nat) (s : State) : exec (.configReload cl h) s = execConfigReload cl h s := by rfl

/-- Every sink of a handle's launch holds its last marker, whose slot is complete: the reload may begin (R233). -/
def reloadReady (s : State) (cl h : Nat) (x : Handle) : Bool :=
  (s.launch? cl h).any fun v => sinksHold s h x v.marks && v.marksDone = v.marks

/-- The frozen tiles of a handle run the words of its image again (R233). -/
def reloadAll (s : State) (cl h : Nat) (x : Handle) (user : Bool) (bad : List (Placed × TileCfg)) : State :=
  (bad.foldl (fun s p => reloadInto s x user p.1 p.2) s).setHandle cl h { x with state := if x.armed then .loaded else .active }

/-- A handle whose reload has found a signature that differs (R222, R233). -/
def rejectedReload (s : State) (cl h : Nat) (x : Handle) (i k : Nat) : State :=
  s.setHandle cl h { x with state := .rejected, reason := 1, badTile := i % x.tableLen, badWord := k }

/-- A launch that is reloaded goes on, unless it is to stop after a marker (R233). -/
def resumed (s : State) (cl h : Nat) (v : Launch) : State :=
  let v := { v with reloading := false }
  let s := s.setLaunch cl h v
  if stopsAfter v then s else startSources s cl h

/-- The check of the sinks is passed by a launch that does not run, and by one that is ready. -/
theorem reload_mayBegin {s : State} {cl h : Nat} {x : Handle} (hg : launchRuns s cl h = false ∨ reloadReady s cl h x = true) :
    (launchRuns s cl h && !(sinksHold s h x (((s.launch? cl h).map Launch.marks).getD 0) &&
      ((s.launch? cl h).map Launch.marksDone).getD 0 = ((s.launch? cl h).map Launch.marks).getD 0)) = false := by
  rcases hg with hr | hh
  · rw [hr]; rfl
  · obtain ⟨v, hv, hm⟩ := (Option.any_eq_true _ _).1 hh
    rw [hv, Option.map_some, Option.map_some, Option.getD_some, Option.getD_some, hm, Bool.not_true, Bool.and_false]

section
variable {s : State} {cl h : Nat} {x : Handle} (hx : s.handle? cl h = some x)
include hx

/-- Only a handle that is frozen by a tile of its own is reloaded. -/
theorem configReload_idle (hs : x.state ≠ .frozen ∨ frozenTiles s h x = []) : exec (.configReload cl h) s = .next s := by
  simp only [exec_configReload, execConfigReload, hx, if_pos hs]

variable (hf : ¬(x.state ≠ .frozen ∨ frozenTiles s h x = []))
include hf

/-- A running launch whose sinks do not hold the marker yet holds the reload back (R233). -/
theorem configReload_waits (hr : launchRuns s cl h = true) (hh : reloadReady s cl h x = false) :
    exec (.configReload cl h) s = .next s := by
  obtain ⟨v, hv⟩ : ∃ v, s.launch? cl h = some v := by
    cases hl : s.launch? cl h with
    | none => rw [launchRuns, hl] at hr; cases hr
    | some v => exact ⟨v, rfl⟩
  rw [reloadReady, hv, Option.any_some] at hh
  simp only [exec_configReload, execConfigReload, hx, if_neg hf, hr, hv, Option.map_some, Option.getD_some, hh]
  rfl

variable {user : Bool} (hg : launchRuns s cl h = false ∨ reloadReady s cl h x = true) (hu : reloadUser s cl h = user)
include hg hu

/-- A handle whose launch does not run is reloaded at once (R233, log 34). -/
theorem configReload_reloads (hk : reloadBad s x user (frozenTiles s h x) = none) (hr : launchRuns s cl h = false) :
    exec (.configReload cl h) s = .next (reloadAll s cl h x user (frozenTiles s h x)) := by
  simp only [exec_configReload, execConfigReload, hx, if_neg hf, reload_mayBegin hg, hu, hk]
  rw [hr]
  rfl

/-- A running launch takes back its last slot and goes on (R233, R275). -/
theorem configReload_resumes {v : Launch} (hk : reloadBad s x user (frozenTiles s h x) = none) (hr : launchRuns s cl h = true)
    (hv : (restoreGraph (reloadAll (saveTree s cl h) cl h x user (frozenTiles s h x)) cl h x).launch? cl h = some v) :
    exec (.configReload cl h) s =
      .next (resumed (restoreGraph (reloadAll (saveTree s cl h) cl h x user (frozenTiles s h x)) cl h x) cl h v) := by
  unfold reloadAll at hv
  simp only [exec_configReload, execConfigReload, hx, if_neg hf, reload_mayBegin hg, hu, hk]
  simp only [hr, if_true, hv]
  rfl

variable {i k : Nat} (hk : reloadBad s x user (frozenTiles s h x) = some (i, k))
include hk

/-- Where no launch is left to end, the handle alone is rejected (R233). -/
theorem configReload_rejects (hv : s.launch? cl h = none ∨ (s.launch? cl h).map Launch.state = some .ended) :
    exec (.configReload cl h) s = .next (rejectedReload s cl h x i k) := by
  cases hl : s.launch? cl h with
  | none =>
    simp only [exec_configReload, execConfigReload, hx, if_neg hf, reload_mayBegin hg, hu, hk]
    simp only [State.launch_setHandle, hl]
    rfl
  | some v =>
    have he : v.state = .ended := by simpa [hl] using hv
    simp only [exec_configReload, execConfigReload, hx, if_neg hf, reload_mayBegin hg, hu, hk]
    simp only [State.launch_setHandle, hl, if_pos he]
    rfl

/-- A launch that has not ended ends, and its thread is told (R233). -/
theorem configReload_ends {v : Launch} (hv : s.launch? cl h = some v) (he : v.state ≠ .ended) :
    exec (.configReload cl h) s = .next (rejectReport
      (endLaunch (unqueue (rejectedReload s cl h x i k) cl h) cl h) v.tid (graphWord (rejectedReload s cl h x i k) cl h)) := by
  simp only [exec_configReload, execConfigReload, hx, if_neg hf, reload_mayBegin hg, hu, hk]
  simp only [State.launch_setHandle, hv, if_neg he]
  rfl

end

/-- Settles O40: a swap by what stands at the tile, a scrub by the error that it finds, a reload by the launch and the signatures. -/
theorem tilesSwapFreezeAndReload : Obligations.TilesSwapFreezeAndReload := by
  unfold Obligations.TilesSwapFreezeAndReload
  intro s l c
  refine ⟨fun hc ha hd => ⟨fun a hf => tileSwap_freezes hc ha hd hf, fun hf hh => tileSwap_held hc ha hd hf hh,
      fun hf hz hr => ⟨tileSwap_swaps hc ha hd hf hz hr, swapTile_takes hc⟩⟩,
    tileSwap_waits,
    fun hc hf => ⟨configScrub_clean fun a ha => ?clean, configScrub_singleBit hc hf, configScrub_doubleBit hc⟩,
    fun hc => ⟨configScrub_clean fun a ha => ?idle, configScrub_doubleBit_idle hc, configScrub_singleBit_idle hc⟩,
    fun g hp h => configScrub_potDouble h hp, fun g hp h => configScrub_potDouble_none h hp,
    fun hc hf => configScrub_foul hc hf, fun x hx => freezeTile_marks hx,
    fun cl h x hx => ⟨configReload_idle hx, fun hz hb => ?reload⟩⟩
  case clean => exact Option.some.inj (hc.symm.trans ha) ▸ hf
  case idle => exact absurd (hc.symm.trans ha) (by simp)
  case reload =>
    have hf : ¬(x.state ≠ .frozen ∨ frozenTiles s h x = []) := not_or.2 ⟨not_not.2 hz, hb⟩
    exact ⟨configReload_waits hx hf,
      fun hk => ⟨fun hr => configReload_reloads hx hf (.inl hr) rfl hk hr,
        fun v hr hh hv => configReload_resumes hx hf (.inr hh) rfl hk hr hv⟩,
      fun i k hk hg => ⟨configReload_rejects hx hf hg rfl hk, fun v hv he => configReload_ends hx hf hg rfl hk hv he⟩⟩

end Sys2Proof.Machine
end
section
/-! PROOFS. Canonical memory (R203, R302): what each operation of the machine leaves of it. -/

namespace Sys2Proof.Machine

open Sys2Proof

/-! ## What is kept, for each form of an answer -/

/-- A stop leaves canonical memory: a trap leaves no state of its own, a wait the one that it registers. -/
@[reducible] def StopSafe : Stop → Prop
  | .trap _ _ => True
  | .wait _ s => MemorySafe s

/-- A run that may stop: what it answers satisfies `p`, and a stop leaves canonical memory. -/
@[reducible] def RunSafe {α : Type} (p : α → Prop) : Except Stop α → Prop
  | .ok a => p a
  | .error e => StopSafe e

/-- An answer that may be an error without a state satisfies `p`. -/
@[reducible] def OkSafe {ε α : Type} (p : α → Prop) : Except ε α → Prop
  | .ok a => p a
  | .error _ => True

/-- An answer whose error is a state. -/
@[reducible] def ErrSafe {α : Type} : Except State α → Prop
  | .ok _ => True
  | .error s => MemorySafe s

/-- An answer that may be missing satisfies `p`. -/
@[reducible] def SomeSafe {α : Type} (p : α → Prop) : Option α → Prop
  | some a => p a
  | none => True

/-- The state in which an instruction completes. -/
@[reducible] def EffectSafe (e : Effect) : Prop := MemorySafe e.state

/-- The next state of a step, where there is one. -/
@[reducible] def NextSafe : Result → Prop
  | .next s => MemorySafe s
  | .fault _ => True
  | .refused _ => True

/-- The state that the application of a message leaves, where it is not held back. -/
@[reducible] def AppliedSafe : Applied → Prop
  | .done s _ => MemorySafe s
  | .failed s _ => MemorySafe s
  | .blocked => True

/-- The state that an issue slot leaves, with or without an instruction. -/
@[reducible] def IssueSafe : Issue → Prop
  | .idle s => MemorySafe s
  | .instr _ s => MemorySafe s

section
variable {ε α : Type} {p : α → Prop} {a : α}

theorem RunSafe.ok {r : Except Stop α} (hr : RunSafe p r) (e : r = .ok a) : p a := by rw [e] at hr; exact hr
theorem RunSafe.error {r : Except Stop α} {x : Stop} (hr : RunSafe p r) (e : r = .error x) : StopSafe x := by
  rw [e] at hr; exact hr
theorem OkSafe.ok {r : Except ε α} (hr : OkSafe p r) (e : r = .ok a) : p a := by rw [e] at hr; exact hr
theorem ErrSafe.error {r : Except State α} {s : State} (hr : ErrSafe r) (e : r = .error s) : MemorySafe s := by
  rw [e] at hr; exact hr
theorem SomeSafe.some {r : Option α} (hr : SomeSafe p r) (e : r = Option.some a) : p a := by rw [e] at hr; exact hr
theorem NextSafe.next {r : Result} {s : State} (hr : NextSafe r) (e : r = .next s) : MemorySafe s := by
  rw [e] at hr; exact hr
theorem AppliedSafe.done {r : Applied} {s : State} {v : Option Word} (hr : AppliedSafe r) (e : r = .done s v) :
    MemorySafe s := by
  rw [e] at hr; exact hr
theorem AppliedSafe.failed {r : Applied} {s : State} {c : Cause} (hr : AppliedSafe r) (e : r = .failed s c) :
    MemorySafe s := by
  rw [e] at hr; exact hr
theorem IssueSafe.idle {r : Issue} {s : State} (hr : IssueSafe r) (e : r = .idle s) : MemorySafe s := by
  rw [e] at hr; exact hr
theorem IssueSafe.instr {r : Issue} {s : State} {i : Instr} (hr : IssueSafe r) (e : r = .instr i s) : MemorySafe s := by
  rw [e] at hr; exact hr

theorem ite_next {c : Prop} [Decidable c] {r r' : Result} (hr : NextSafe r) (hr' : NextSafe r') :
    NextSafe (if c then r else r') := by
  split
  · exact hr
  · exact hr'

theorem ite_applied {c : Prop} [Decidable c] {r r' : Applied} (hr : AppliedSafe r) (hr' : AppliedSafe r') :
    AppliedSafe (if c then r else r') := by
  split
  · exact hr
  · exact hr'

theorem ite_issue {c : Prop} [Decidable c] {r r' : Issue} (hr : IssueSafe r) (hr' : IssueSafe r') :
    IssueSafe (if c then r else r') := by
  split
  · exact hr
  · exact hr'

theorem ite_err {c : Prop} [Decidable c] {r r' : Except State α} (hr : ErrSafe r) (hr' : ErrSafe r') :
    ErrSafe (if c then r else r') := by
  split
  · exact hr
  · exact hr'

theorem ite_run {c : Prop} [Decidable c] {r r' : Except Stop α} (hr : RunSafe p r) (hr' : RunSafe p r') :
    RunSafe p (if c then r else r') := by
  split
  · exact hr
  · exact hr'

theorem ite_ok {c : Prop} [Decidable c] {r r' : Except ε α} (hr : OkSafe p r) (hr' : OkSafe p r') :
    OkSafe p (if c then r else r') := by
  split
  · exact hr
  · exact hr'

theorem ite_some {c : Prop} [Decidable c] {r r' : Option α} (hr : SomeSafe p r) (hr' : SomeSafe p r') :
    SomeSafe p (if c then r else r') := by
  split
  · exact hr
  · exact hr'

theorem or_safe {r r' : Option α} (hr : SomeSafe p r) (hr' : SomeSafe p r') : SomeSafe p (r.or r') := by
  cases r with
  | some a => exact hr
  | none => exact hr'

theorem map_safe {β : Type} {q : β → Prop} {r : Except Stop α} {f : α → β} (hr : RunSafe p r) (hf : ∀ a, p a → q (f a)) :
    RunSafe q (r.map f) := by
  cases r with
  | ok a => exact hf a hr
  | error e => exact hr

theorem ok_map_safe {β : Type} {q : β → Prop} {r : Except ε α} {f : α → β} (hr : OkSafe p r) (hf : ∀ a, p a → q (f a)) :
    OkSafe q (r.map f) := by
  cases r with
  | ok a => exact hf a hr
  | error e => trivial

theorem option_map_safe {β : Type} {q : β → Prop} {r : Option α} {f : α → β} (hr : SomeSafe p r) (hf : ∀ a, p a → q (f a)) :
    SomeSafe q (r.map f) := by
  cases r with
  | some a => exact hf a hr
  | none => trivial

theorem bind_safe {β : Type} {q : β → Prop} {r : Option α} {f : α → Option β} (hr : SomeSafe p r)
    (hf : ∀ a, p a → SomeSafe q (f a)) : SomeSafe q (r.bind f) := by
  cases r with
  | some a => exact hf a hr
  | none => trivial

theorem toOption_safe {r : Except ε α} (hr : OkSafe p r) : SomeSafe p r.toOption := by
  cases r with
  | ok a => exact hr
  | error e => trivial

theorem option_map_any {β : Type} {r : Option β} {f : β → α} (hf : ∀ b, p (f b)) : SomeSafe p (r.map f) :=
  option_map_safe (p := fun _ => True) (by cases r <;> trivial) fun b _ => hf b

end

section
variable {s : State}

theorem ite_safe {c : Prop} [Decidable c] {t : State} (hs : MemorySafe s) (ht : MemorySafe t) :
    MemorySafe (if c then s else t) := by
  split
  · exact hs
  · exact ht

theorem ite_snd_safe {α : Type} {c : Prop} [Decidable c] {r r' : α × State} (hr : MemorySafe r.2) (hr' : MemorySafe r'.2) :
    MemorySafe (if c then r else r').2 := by
  split
  · exact hr
  · exact hr'

theorem elim_safe {α : Type} {r : Option α} {f : α → State} (hs : MemorySafe s) (hf : ∀ a, MemorySafe (f a)) :
    MemorySafe (r.elim s f) := by
  cases r with
  | some a => exact hf a
  | none => exact hs

section
variable {schedule : List Move} {focus rota cur choices arrivals : Nat} {oracle : List Nat} {threads : Tbl Thread}
  {chans : Tbl Chan} {groups : Tbl Group} {wakes : List Wake} {reports : List (Nat × Report)} {contexts : Tbl Ctx}
  {clusters : Tbl Cluster} {poison : NatSet} {rims : Tbl Rim} {atomics : List AtomicReq} {fabric : Fabric}
  {ingress egress : Tbl Window} {msix : Tbl Msix} {mgmt : Mgmt} {flash : Flash} {trivet : Trivet} {power : Power}

/-- The canonical form speaks of memory and cores alone: the other fields may be anything. -/
theorem fields_safe (hs : MemorySafe s) : MemorySafe
    { s with
      schedule := schedule, focus := focus, rota := rota, cur := cur, oracle := oracle, choices := choices,
      arrivals := arrivals, threads := threads, chans := chans, groups := groups, wakes := wakes, reports := reports,
      contexts := contexts, clusters := clusters, poison := poison, rims := rims, atomics := atomics,
      fabric := fabric, ingress := ingress, egress := egress, msix := msix, mgmt := mgmt, flash := flash,
      trivet := trivet, power := power } :=
  hs

/-- A change of every core that keeps the form of its pots. -/
theorem tmap_cores_safe {f : Nat → Core → Core} (hf : ∀ n k, k.pots.wf = true → (f n k).pots.wf = true) (hs : MemorySafe s) :
    MemorySafe
      { s with
        cores := tmap s.cores f,
        schedule := schedule, focus := focus, rota := rota, cur := cur, oracle := oracle, choices := choices,
        arrivals := arrivals, threads := threads, chans := chans, groups := groups, wakes := wakes, reports := reports,
        contexts := contexts, clusters := clusters, poison := poison, rims := rims, atomics := atomics,
        fabric := fabric, ingress := ingress, egress := egress, msix := msix, mgmt := mgmt, flash := flash,
        trivet := trivet, power := power } := by
  refine ⟨hs.1, fun c k hk => ?_⟩
  obtain ⟨⟨_, x⟩, hx, he⟩ := List.mem_map.1 hk
  cases he
  exact hf _ x (hs.2 _ x hx)

end

theorem wf_foldl_mwrite {m : Memory} {l : List (Nat × Byte)} (hm : m.wf = true) :
    Memory.wf (l.foldl (fun m x => mwrite m x.1 x.2) m) = true := by
  induction l generalizing m with
  | nil => exact hm
  | cons x r ih => exact ih (wf_mwrite _ _ hm)

theorem safe_of_snd {α : Type} {r : α × State} {a : α} (h : MemorySafe r.2) (e : r = (a, s)) : MemorySafe s := by
  rw [e] at h; exact h
theorem safe_of_fst {α : Type} {r : State × α} {a : α} (h : MemorySafe r.1) (e : r = (s, a)) : MemorySafe s := by
  rw [e] at h; exact h
theorem safe_of_snd_snd {α β : Type} {r : α × β × State} {a : α} {b : β} (h : MemorySafe r.2.2) (e : r = (a, b, s)) :
    MemorySafe s := by
  rw [e] at h; exact h

theorem foldl_safe {α : Type} {f : State → α → State} {l : List α} (hf : ∀ s a, MemorySafe s → MemorySafe (f s a))
    (hs : MemorySafe s) : MemorySafe (l.foldl f s) := by
  induction l generalizing s with
  | nil => exact hs
  | cons a r ih => exact ih (hf s a hs)

theorem foldl_fst_safe {α β : Type} {f : State × β → α → State × β} {l : List α} {r : State × β}
    (hf : ∀ r a, MemorySafe r.1 → MemorySafe (f r a).1) (hr : MemorySafe r.1) : MemorySafe (l.foldl f r).1 := by
  induction l generalizing r with
  | nil => exact hr
  | cons a l ih => exact ih (hf r a hr)

/-! ## Cores and memory -/

theorem core_pots_wf (hs : MemorySafe s) {c : Nat} : (s.core c).pots.wf = true := by
  rw [State.core, tgetD]
  cases hg : tget s.cores c with
  | none => rfl
  | some k => exact hs.2 c k (mem_of_tget hg)

theorem setCore_safe {c : Nat} {k : Core} (hk : k.pots.wf = true) (hs : MemorySafe s) : MemorySafe (s.setCore c k) := by
  refine ⟨hs.1, fun n x hx => ?_⟩
  rcases mem_tset hx with he | hx
  · cases he; exact hk
  · exact hs.2 n x hx

theorem modCore_safe {c : Nat} {f : Core → Core} (hf : ∀ k, k.pots.wf = true → (f k).pots.wf = true) (hs : MemorySafe s) :
    MemorySafe (s.modCore c f) :=
  setCore_safe (hf _ (core_pots_wf hs)) hs

theorem modThread_safe {tid : Nat} {f : Thread → Thread} (hs : MemorySafe s) : MemorySafe (s.modThread tid f) := by
  unfold State.modThread
  split
  · exact hs
  · exact hs

end

section
variable {s : State}

/-! ## Machine/Tables -/

theorem setThread_safe {tid : Nat} {t : Thread} (hs : MemorySafe s) : MemorySafe (s.setThread tid t) := fields_safe hs

theorem setCluster_safe {c : Nat} {k : Cluster} (hs : MemorySafe s) : MemorySafe (s.setCluster c k) := fields_safe hs

theorem modCluster_safe {c : Nat} {f : Cluster → Cluster} (hs : MemorySafe s) : MemorySafe (s.modCluster c f) :=
  setCluster_safe hs

theorem setCtx_safe {c : Nat} {k : Ctx} (hs : MemorySafe s) : MemorySafe (s.setCtx c k) := fields_safe hs

theorem modCtx_safe {c : Nat} {f : Ctx → Ctx} (hs : MemorySafe s) : MemorySafe (s.modCtx c f) := setCtx_safe hs

theorem setRim_safe {c : Nat} {k : Rim} (hs : MemorySafe s) : MemorySafe (s.setRim c k) := fields_safe hs

theorem modRim_safe {c : Nat} {f : Rim → Rim} (hs : MemorySafe s) : MemorySafe (s.modRim c f) := setRim_safe hs

theorem setLct_safe {lc : Nat} {e : LctEntry} (hs : MemorySafe s) : MemorySafe (s.setLct lc e) := modCluster_safe hs

theorem setTile_safe {l : TileLoc} {t : Tile} (hs : MemorySafe s) : MemorySafe (s.setTile l t) := by
  unfold State.setTile
  exact modCore_safe (fun _ hk => hk) hs

theorem modTile_safe {l : TileLoc} {f : Tile → Tile} (hs : MemorySafe s) : MemorySafe (s.modTile l f) :=
  setTile_safe hs

theorem setHandle_safe {cl h : Nat} {x : Handle} (hs : MemorySafe s) : MemorySafe (s.setHandle cl h x) :=
  modCluster_safe hs

theorem setLaunch_safe {cl h : Nat} {x : Launch} (hs : MemorySafe s) : MemorySafe (s.setLaunch cl h x) :=
  modCluster_safe hs

theorem choose_safe (hs : MemorySafe s) : MemorySafe (s.choose).2 := fields_safe hs

theorem arrive_safe (hs : MemorySafe s) : MemorySafe (s.arrive).2 := fields_safe hs

/-! ## Machine/Flags -/

theorem reportCir_safe {cl h marks i : Nat} (hs : MemorySafe s) : MemorySafe (reportCir s cl h marks i) := by
  unfold reportCir
  split
  · exact setLaunch_safe hs
  · exact hs

theorem foldContext_safe {ctx : Nat} (hs : MemorySafe s) : MemorySafe (foldContext s ctx) := by
  unfold foldContext
  exact modCtx_safe (fields_safe hs)

theorem foldLaunch_safe {cl h : Nat} (hs : MemorySafe s) : MemorySafe (foldLaunch s cl h) := by
  unfold foldLaunch
  split
  · exact modCtx_safe (setLaunch_safe hs)
  · exact hs

theorem completeReports_safe {cl h : Nat} (hs : MemorySafe s) : MemorySafe (completeReports s cl h) := by
  unfold completeReports
  split
  · exact modCtx_safe (setLaunch_safe hs)
  · exact hs

/-! ## Machine/Space -/

theorem wakeWhere_safe {p : WaitReason → Bool} (hs : MemorySafe s) : MemorySafe (wakeWhere s p) := fields_safe hs

theorem wakeOne_safe {tid : Nat} {p : WaitReason → Bool} (hs : MemorySafe s) : MemorySafe (wakeOne s tid p) := by
  unfold wakeOne
  split
  · split
    · exact ite_safe (fields_safe hs) hs
    · exact hs
  · exact hs

theorem endWait_safe {tid : Nat} (hs : MemorySafe s) : MemorySafe (endWait s tid) := by
  unfold endWait
  split
  · exact setThread_safe (fields_safe hs)
  · exact hs

theorem seatOldest_safe {lc : Nat} (hs : MemorySafe s) : MemorySafe (seatOldest s lc) := by
  unfold seatOldest
  split
  · exact setThread_safe hs
  · exact hs

theorem release_safe {p : Nat → Thread → WaitReason → Bool} (hs : MemorySafe s) : MemorySafe (release s p) :=
  fields_safe hs

theorem writeMem_safe {pa : Nat} {b : List Byte} (hs : MemorySafe s) : MemorySafe (s.writeMem pa b) :=
  ⟨wf_mwrites _ _ hs.1, hs.2⟩

theorem tlbFill_safe {ctx va : Nat} {leaf : Word} {nbits : Nat} (hs : MemorySafe s) :
    MemorySafe (tlbFill s ctx va leaf nbits) :=
  modRim_safe hs

theorem endWalk_safe {rim n : Nat} (hs : MemorySafe s) : MemorySafe (endWalk s rim n) := by
  unfold endWalk
  split
  · exact hs
  · refine ite_safe hs ?_
    split
    · exact modRim_safe hs
    · split
      · exact tlbFill_safe (modRim_safe hs)
      · exact modRim_safe hs

theorem awaitWalk_safe {ctx va : Nat} (hs : MemorySafe s) : MemorySafe (awaitWalk s ctx va) := by
  unfold awaitWalk
  split
  · exact endWalk_safe hs
  · exact hs

theorem translateNow_safe {ctx va : Nat} {acc : Access} {user : Bool} (hs : MemorySafe s) :
    MemorySafe (translateNow s ctx va acc user).2.2 := by
  unfold translateNow
  split
  · exact hs
  · split
    · exact hs
    · split
      · exact tlbFill_safe hs
      · exact hs

theorem translate_safe {ctx va : Nat} {acc : Access} {user : Bool} (hs : MemorySafe s) :
    MemorySafe (translate s ctx va acc user).2.2 := by
  unfold translate
  exact translateNow_safe (ite_safe hs (awaitWalk_safe hs))

theorem potWrite_safe {core addr : Nat} {b : List Byte} (hs : MemorySafe s) :
    MemorySafe (s.potWrite core addr b) := by
  unfold State.potWrite
  exact modCore_safe (fun _ hk => wf_mwrites _ _ hk) hs

theorem setFull_safe {core addr : Nat} {full : Bool} (hs : MemorySafe s) : MemorySafe (s.setFull core addr full) := by
  unfold State.setFull
  exact modCore_safe (fun _ hk => hk) hs

theorem wakeGranule_safe {core addr : Nat} (hs : MemorySafe s) : MemorySafe (wakeGranule s core addr) := by
  unfold wakeGranule
  exact foldl_safe (fun _ _ ht => wakeOne_safe ht) hs

theorem fill_safe {core addr : Nat} (hs : MemorySafe s) : MemorySafe (s.fill core addr) := by
  unfold State.fill
  exact wakeGranule_safe (setFull_safe hs)

theorem setPresent_safe {pa : Nat} {full : Bool} (hs : MemorySafe s) : MemorySafe (setPresent s pa full) := by
  unfold setPresent
  split
  exact ⟨wf_mwrite _ _ hs.1, hs.2⟩

theorem rimRoom_safe (hs : MemorySafe s) : MemorySafe (rimRoom s) := wakeWhere_safe hs

theorem wakePresent_safe {pa : Nat} (hs : MemorySafe s) : MemorySafe (wakePresent s pa) := by
  unfold wakePresent
  exact wakeWhere_safe (modRim_safe (modRim_safe (foldl_safe (fun _ _ ht => wakeOne_safe ht) hs)))

theorem fillPresent_safe {pa : Nat} (hs : MemorySafe s) : MemorySafe (fillPresent s pa) := by
  unfold fillPresent
  exact wakePresent_safe (setPresent_safe hs)

theorem resolve_safe {t : Thread} {ea : Word} {width : Nat} {acc : Access} (hs : MemorySafe s) :
    OkSafe (fun r => MemorySafe r.2) (resolve s t ea width acc) := by
  unfold resolve
  refine ite_ok trivial (ite_ok (ite_ok trivial (ite_ok trivial (ite_ok trivial hs))) (ite_ok trivial ?_))
  split
  next he => exact safe_of_snd_snd (translate_safe hs) he
  · trivial

theorem acquire_safe {core tid : Nat} (hs : MemorySafe s) : MemorySafe (acquire s core tid) := by
  unfold acquire
  exact modCore_safe (fun _ hk => hk) hs

theorem performStore_safe {core : Nat} {e : StoreEntry} (hs : MemorySafe s) : MemorySafe (performStore s core e) := by
  unfold performStore
  exact modCore_safe (fun _ hk => hk) (writeMem_safe hs)

theorem releaseStores_safe {core : Nat} (hs : MemorySafe s) : MemorySafe (releaseStores s core) := release_safe hs

theorem drainThread_safe {core tid : Nat} (hs : MemorySafe s) : MemorySafe (drainThread s core tid) := by
  unfold drainThread
  exact releaseStores_safe (foldl_safe (fun _ _ ht => performStore_safe ht) (modCore_safe (fun _ hk => hk) hs))

theorem drainCore_safe {core : Nat} (hs : MemorySafe s) : MemorySafe (drainCore s core) := by
  unfold drainCore
  exact releaseStores_safe (foldl_safe (fun _ _ ht => performStore_safe ht) (modCore_safe (fun _ hk => hk) hs))

theorem fillLine_safe {core ctx line pline : Nat} {b : List Byte} (hs : MemorySafe s) :
    MemorySafe (fillLine s core ctx line pline b) := by
  unfold fillLine
  exact modCore_safe (fun _ hk => hk) hs

theorem loadGlobal_safe {core tid ctx va pa n : Nat} {q : LdQual} (hs : MemorySafe s) :
    MemorySafe (loadGlobal s core tid ctx va pa n q).2 := by
  unfold loadGlobal
  dsimp only
  split
  · split
    · exact ite_snd_safe (choose_safe hs) (fillLine_safe (choose_safe hs))
    · exact fillLine_safe hs
  · exact fillLine_safe hs
  · exact acquire_safe hs

/-! ## Machine/Migrate -/

theorem sendReport_safe {tid : Nat} {r : Report} (hs : MemorySafe s) : MemorySafe (sendReport s tid r) :=
  fields_safe hs

theorem clearTurns_safe {tid : Nat} (hs : MemorySafe s) : MemorySafe (clearTurns s tid) := by
  unfold clearTurns
  exact tmap_cores_safe (fun _ _ hk => hk) hs

theorem dropTurns_safe {tid : Nat} (hs : MemorySafe s) : MemorySafe (dropTurns s tid) := by
  unfold dropTurns
  split
  · refine foldl_safe (fun _ _ ht => wakePresent_safe ht) ?_
    refine foldl_safe ?_ (rimRoom_safe (clearTurns_safe hs))
    intro _ _ ht
    split
    exact wakeGranule_safe ht

theorem deliverReport_safe {tid : Nat} {r : Report} (hs : MemorySafe s) : MemorySafe (deliverReport s tid r) := by
  unfold deliverReport
  split
  · exact hs
  · split
    · exact setThread_safe hs
    · exact ite_safe (setThread_safe hs) (endWait_safe (dropTurns_safe (setThread_safe hs)))

theorem chargeQueue_safe {t : Thread} (hs : MemorySafe s) : MemorySafe (chargeQueue s t) := by
  unfold chargeQueue
  split
  · exact hs
  · exact modCluster_safe hs

theorem completeGbar_safe {tid : Nat} (hs : MemorySafe s) : MemorySafe (completeGbar s tid) := by
  unfold completeGbar
  split
  · exact hs
  · split
    · exact hs
    · exact chargeQueue_safe (modThread_safe (endWait_safe (acquire_safe (fields_safe hs))))

theorem settleCore_safe {core : Nat} (hs : MemorySafe s) : MemorySafe (settleCore s core) := by
  unfold settleCore
  exact modCore_safe (fun _ hk => hk) (drainCore_safe hs)

theorem swapNames_safe {a b : Nat} (hs : MemorySafe s) : MemorySafe (swapNames s a b) := by
  unfold swapNames
  exact fields_safe (modCluster_safe (modRim_safe (modRim_safe hs)))

theorem exchange_safe {S T : Nat} (hs : MemorySafe s) : MemorySafe (exchange s S T) := by
  unfold exchange
  extract_lets a b t x y u v eS eT
  have ht : MemorySafe t := settleCore_safe (settleCore_safe hs)
  have hu : MemorySafe u := setCore_safe (core_pots_wf ht) (setCore_safe (core_pots_wf ht) ht)
  have hv : MemorySafe v := swapNames_safe hu
  clear_value v
  exact setLct_safe (setLct_safe hv)

theorem honourMigrate_safe {lc : Nat} {r : Nat × Nat} (hs : MemorySafe s) : MemorySafe (honourMigrate lc s r) := by
  unfold honourMigrate
  split
  exact ite_safe (modThread_safe hs)
    (ite_safe hs (deliverReport_safe (completeGbar_safe (modThread_safe (exchange_safe hs)))))

theorem honourThermal_safe {lc : Nat} (hs : MemorySafe s) : MemorySafe (honourThermal s lc) := by
  unfold honourThermal
  refine ite_safe hs ?_
  split
  · exact ite_safe hs (exchange_safe (modCore_safe (fun _ hk => hk) hs))
  · exact hs

theorem honour_safe {lc : Nat} (hs : MemorySafe s) : MemorySafe (honour s lc) := by
  unfold honour
  exact honourThermal_safe (foldl_safe (fun _ _ ht => honourMigrate_safe ht) hs)

theorem honourAll_safe {members : List Nat} (hs : MemorySafe s) : MemorySafe (honourAll s members) := by
  unfold honourAll
  exact foldl_safe (fun _ _ ht => honour_safe ht) hs

theorem leaveCore_safe {lc : Nat} (hs : MemorySafe s) : MemorySafe (leaveCore s lc) := by
  unfold leaveCore
  exact ite_safe hs (modCore_safe (fun _ hk => hk) (setLct_safe hs))

theorem leaveSpent_safe {lc : Nat} (hs : MemorySafe s) : MemorySafe (leaveSpent s lc) := by
  unfold leaveSpent
  exact ite_safe (leaveCore_safe hs) hs

theorem threadEnded_safe {lc : Nat} (hs : MemorySafe s) : MemorySafe (threadEnded s lc) := by
  unfold threadEnded
  exact leaveSpent_safe (setLct_safe hs)

theorem graphDropped_safe {lc : Nat} (hs : MemorySafe s) : MemorySafe (graphDropped s lc) := by
  unfold graphDropped
  exact leaveSpent_safe (setLct_safe hs)

/-! ## Machine/Sync -/

theorem entryLoc_safe {d : Decider} {i : Nat} {acc : Access} (hs : MemorySafe s) :
    RunSafe (fun r => MemorySafe r.2) (entryLoc s d i acc) := by
  unfold entryLoc
  refine ite_run trivial ?_
  split
  next he => exact safe_of_snd_snd (translate_safe hs) he
  · trivial

theorem logWrite_safe {d : Decider} {e : LogEntry} (hs : MemorySafe s) : RunSafe MemorySafe (logWrite s d e) := by
  unfold logWrite
  refine ite_run trivial ?_
  split
  next he => exact (entryLoc_safe hs).error he
  next he => exact modCtx_safe (writeMem_safe ((entryLoc_safe hs).ok he))

theorem logLost_safe {d : Decider} (hs : MemorySafe s) : MemorySafe (logLost s d) := by
  unfold logLost
  exact wakeWhere_safe (modCtx_safe hs)

theorem logRecord_safe {d : Decider} {e : LogEntry} (hs : MemorySafe s) : RunSafe MemorySafe (logRecord s d e) := by
  unfold logRecord
  refine ite_run hs ?_
  split
  next he => exact (logWrite_safe hs).ok he
  next he => exact ite_run (logLost_safe hs) ((logWrite_safe hs).error he)

theorem logNext_safe {d : Decider} (hs : MemorySafe s) : RunSafe (fun r => MemorySafe r.2) (logNext s d) := by
  unfold logNext
  refine ite_run (modCtx_safe hs) ?_
  dsimp only
  split
  next he => exact (entryLoc_safe (modCtx_safe hs)).ok he
  next he => exact ite_run (logLost_safe (modCtx_safe hs)) ((entryLoc_safe (modCtx_safe hs)).error he)

theorem logConsume_safe {d : Decider} (hs : MemorySafe s) : MemorySafe (logConsume s d) := by
  unfold logConsume
  exact wakeWhere_safe (modCtx_safe hs)

theorem modObj_safe {cl n : Nat} {f : SyncObj → SyncObj} (hs : MemorySafe s) : MemorySafe (modObj s cl n f) :=
  modCluster_safe hs

theorem modPlace_safe {cl i : Nat} {f : Place → Place} (hs : MemorySafe s) : MemorySafe (modPlace s cl i f) :=
  modCluster_safe hs

theorem freePlace_safe {cl i : Nat} (hs : MemorySafe s) : MemorySafe (freePlace s cl i) := modCluster_safe hs

theorem grantPlace_safe {cl n i : Nat} (hs : MemorySafe s) : MemorySafe (grantPlace s cl n i) := by
  unfold grantPlace
  dsimp only
  split
  · exact wakeOne_safe (modPlace_safe (modObj_safe hs))
  · exact modPlace_safe (modObj_safe hs)

theorem grantReached_safe {d : Option Decider} {ranked : Bool} {cl n i : Nat} (hs : MemorySafe s) :
    RunSafe MemorySafe (grantReached s d ranked cl n i) := by
  unfold grantReached
  split
  · exact ite_run (grantPlace_safe hs) (map_safe (logRecord_safe hs) (fun _ ht => grantPlace_safe ht))
  · exact grantPlace_safe hs

theorem passPlace_safe {cl n i : Nat} (hs : MemorySafe s) : MemorySafe (passPlace s cl n i) := by
  unfold passPlace
  exact modObj_safe (freePlace_safe hs)

theorem walkObject_safe {d : Option Decider} {cl n left : Nat} (hs : MemorySafe s) :
    RunSafe MemorySafe (walkObject d cl n left s) := by
  induction left generalizing s with
  | zero =>
    unfold walkObject
    dsimp only
    split
    · exact hs
    · split
      · exact modObj_safe hs
      · exact grantReached_safe hs
      · exact hs
  | succ left ih =>
    unfold walkObject
    dsimp only
    split
    · exact hs
    · split
      · exact modObj_safe hs
      · exact grantReached_safe hs
      · exact ih (passPlace_safe hs)

theorem passAbandoned_safe {cl n left : Nat} (hs : MemorySafe s) : MemorySafe (passAbandoned cl n left s) := by
  induction left generalizing s with
  | zero => exact hs
  | succ left ih =>
    unfold passAbandoned
    split
    · exact hs
    · split
      · exact ih (passPlace_safe hs)
      · exact hs

theorem foldStop_safe {α : Type} {f : State → α → Except Stop State} {l : List α}
    (hf : ∀ s a, MemorySafe s → RunSafe MemorySafe (f s a)) (hs : MemorySafe s) :
    RunSafe MemorySafe (foldStop f l s) := by
  induction l generalizing s with
  | nil => exact hs
  | cons a l ih =>
    unfold foldStop
    split
    next he => exact ih ((hf s a hs).ok he)
    next he => exact (hf s a hs).error he

theorem regrantOne_safe {d : Decider} {o : Nat × Nat} (hs : MemorySafe s) : RunSafe MemorySafe (regrantOne d s o) :=
  walkObject_safe hs

theorem regrant_safe {d : Decider} (hs : MemorySafe s) : RunSafe MemorySafe (regrant s d) := by
  unfold regrant
  exact foldStop_safe (fun _ _ ht => regrantOne_safe ht) hs

theorem replayGrants_safe {d : Decider} {left : Nat} (hs : MemorySafe s) :
    RunSafe MemorySafe (replayGrants d left s) := by
  induction left generalizing s with
  | zero => exact hs
  | succ left ih =>
    unfold replayGrants
    refine ite_run hs ?_
    split
    next he => exact (logNext_safe hs).error he
    next he => exact regrant_safe ((logNext_safe hs).ok he)
    next he =>
      refine ite_run ((logNext_safe hs).ok he) ?_
      split
      · exact (logNext_safe hs).ok he
      · exact ih (logConsume_safe (grantPlace_safe ((logNext_safe hs).ok he)))

theorem endWalks_safe {ctx : Nat} (hs : MemorySafe s) : MemorySafe (endWalks s ctx) := by
  unfold endWalks
  refine foldl_safe ?_ hs
  intro _ _ ht
  refine foldl_safe ?_ ht
  intro _ _ hu
  split
  exact ite_safe hu (modObj_safe (passAbandoned_safe hu))

theorem orStay_safe {r : Except Stop State} (hs : MemorySafe s) (hr : RunSafe MemorySafe r) :
    MemorySafe (orStay s r) := by
  unfold orStay
  split
  · exact hr
  · exact hs

theorem logModeWritten_safe {d : Decider} (hs : MemorySafe s) : MemorySafe (logModeWritten s d) := by
  unfold logModeWritten
  extract_lets t
  have ht : MemorySafe t := wakeWhere_safe (modCtx_safe hs)
  clear_value t
  exact ite_safe (orStay_safe (endWalks_safe ht) (replayGrants_safe (endWalks_safe ht)))
    (foldl_safe (fun _ _ hu => orStay_safe hu (regrantOne_safe hu)) ht)

theorem decide_safe {d : Decider} {cl n : Nat} {atOnce : Bool} {tid : Nat} (hs : MemorySafe s) :
    RunSafe MemorySafe (decide s d cl n atOnce tid) := by
  unfold decide
  split
  · exact hs
  · exact ite_run hs (ite_run (replayGrants_safe (passAbandoned_safe hs))
      (ite_run hs (ite_run (walkObject_safe (modCtx_safe hs)) (modObj_safe (modCtx_safe hs)))))

theorem releasePlace_safe {d : Decider} {cl i tid : Nat} (hs : MemorySafe s) :
    RunSafe MemorySafe (releasePlace s d cl i tid) := by
  unfold releasePlace
  split
  · exact hs
  · exact decide_safe (modObj_safe (freePlace_safe hs))

theorem abandonPlace_safe {cl i : Nat} (hs : MemorySafe s) : MemorySafe (abandonPlace s cl i) := modPlace_safe hs

theorem passIdle_safe {cl n : Nat} (hs : MemorySafe s) : MemorySafe (passIdle s cl n) := by
  unfold passIdle
  split
  · exact ite_safe hs (passAbandoned_safe hs)
  · exact hs

theorem dropsLogged_safe {d : Decider} {p : Place} (hs : MemorySafe s) :
    RunSafe (fun r => MemorySafe r.2) (dropsLogged s d p) := by
  unfold dropsLogged
  split
  next he => exact (logNext_safe hs).error he
  next he => exact (logNext_safe hs).ok he
  next he => exact (logNext_safe hs).ok he

theorem dropQueued_safe {d : Decider} {cl i : Nat} (hs : MemorySafe s) :
    RunSafe MemorySafe (dropQueued s d cl i) := by
  unfold dropQueued
  split
  · exact hs
  · refine ite_run (abandonPlace_safe hs) ?_
    split
    next hf => exact (dropsLogged_safe hs).error hf
    · trivial
    next hf => exact passIdle_safe (abandonPlace_safe ((dropsLogged_safe hs).ok hf))

theorem exitPlaces_safe {d : Decider} {tid : Nat} (hs : MemorySafe s) : RunSafe MemorySafe (exitPlaces s d tid) := by
  unfold exitPlaces
  extract_lets each
  have heach : ∀ cl s, MemorySafe s → RunSafe MemorySafe (each cl s) := by
    intro cl s hs
    unfold each
    have hq := foldStop_safe (l := ownedPlaces s cl tid .queued)
      (fun s i hs => dropQueued_safe (d := d) (cl := cl) (i := i) hs) hs
    dsimp only
    split
    next he => exact hq.error he
    next he => exact foldStop_safe (fun _ _ hs => releasePlace_safe hs) (hq.ok he)
  clear_value each
  split
  next he => exact (heach _ _ hs).error he
  next he => exact heach _ _ ((heach _ _ hs).ok he)

theorem ownPlace_safe {t : Thread} {tid : Nat} {h : Word} : RunSafe (fun _ => True) (ownPlace s t tid h) := by
  unfold ownPlace
  split
  · exact ite_run trivial trivial
  · trivial

theorem setChan_safe {tid slot : Nat} {c : Chan} (hs : MemorySafe s) : MemorySafe (s.setChan tid slot c) :=
  fields_safe hs

theorem dropChan_safe {tid slot : Nat} (hs : MemorySafe s) : MemorySafe (s.dropChan tid slot) := fields_safe hs

theorem wakeSlot_safe {tid slot : Nat} (hs : MemorySafe s) : MemorySafe (wakeSlot s tid slot) := wakeOne_safe hs

theorem chanPush_safe {tid slot : Nat} {w : Word} (hs : MemorySafe s) : MemorySafe (chanPush s tid slot w) := by
  unfold chanPush
  exact wakeSlot_safe (setChan_safe (arrive_safe hs))

theorem markGone_safe {tid slot : Nat} (hs : MemorySafe s) : MemorySafe (markGone s tid slot) := by
  unfold markGone
  exact wakeSlot_safe (setChan_safe hs)

theorem dropPort_safe {n : Nat} (hs : MemorySafe s) : MemorySafe (dropPort s n) := fields_safe hs

theorem unbindSlot_safe {tid slot : Nat} (hs : MemorySafe s) : MemorySafe (unbindSlot s tid slot) := by
  unfold unbindSlot
  split
  · exact hs
  · extract_lets e other t r u
    refine ite_safe hs ?_
    have ht : MemorySafe t := setThread_safe (dropChan_safe hs)
    have hu : MemorySafe u := ite_safe (ite_safe ht (ite_safe (fields_safe ht) (dropPort_safe ht))) ht
    clear_value u other
    split
    · exact markGone_safe hu
    · exact hu

theorem orphanEnds_safe {tid : Nat} (hs : MemorySafe s) : MemorySafe (orphanEnds s tid) := by
  unfold orphanEnds
  refine foldl_safe ?_ hs
  intro _ _ ht
  split
  exact foldl_safe (fun _ _ hu => ite_safe (markGone_safe hu) hu) ht

theorem setGroup_safe {n : Nat} {g : Group} (hs : MemorySafe s) : MemorySafe (s.setGroup n g) := fields_safe hs

theorem advanceGroup_safe {n : Nat} (hs : MemorySafe s) : MemorySafe (advanceGroup s n) := by
  unfold advanceGroup
  exact honourAll_safe (wakeWhere_safe (setGroup_safe hs))

theorem leaveGroup_safe {tid n : Nat} (hs : MemorySafe s) : MemorySafe (leaveGroup s tid n) := by
  unfold leaveGroup
  exact ite_safe hs (ite_safe (advanceGroup_safe (setGroup_safe hs)) (setGroup_safe hs))

theorem retireKey_safe {ctx : Nat} {k : KeyReg} (hs : MemorySafe s) : MemorySafe (retireKey s ctx k) := by
  unfold retireKey
  exact ite_safe (modCtx_safe hs) hs

theorem createThread_safe {ctx lc : Nat} {pc g1 g2 : Word} {system : Bool} {tvec : Word} {queue : Option Nat}
    (hs : MemorySafe s) :
    SomeSafe (fun r => MemorySafe r.2) (createThread s ctx lc pc g1 g2 system tvec queue) := by
  unfold createThread
  dsimp only
  split
  · exact setThread_safe (fields_safe (modCore_safe (fun _ hk => hk) hs))
  · trivial

theorem leaveRequests_safe {tid : Nat} (hs : MemorySafe s) : MemorySafe (leaveRequests s tid) := by
  unfold leaveRequests
  split <;> exact fields_safe hs

theorem freeRecordOf_safe {tid : Nat} (hs : MemorySafe s) : MemorySafe (freeRecordOf s tid) := by
  unfold freeRecordOf
  exact fields_safe (leaveRequests_safe (dropTurns_safe hs))

theorem retireThread_safe {tid : Nat} {quiet : Bool} (hs : MemorySafe s) :
    RunSafe MemorySafe (retireThread s tid quiet) := by
  unfold retireThread
  split
  · exact hs
  · split
    next he => exact (exitPlaces_safe (drainThread_safe hs)).error he
    next he =>
      extract_lets u v w
      have hu : MemorySafe u :=
        foldl_safe (fun _ _ ht => leaveGroup_safe ht) ((exitPlaces_safe (drainThread_safe hs)).ok he)
      have hv : MemorySafe v := foldl_safe (fun _ _ ht => retireKey_safe ht) hu
      have hw : MemorySafe w := foldl_safe (fun _ _ ht => unbindSlot_safe ht) hv
      exact threadEnded_safe (seatOldest_safe (orphanEnds_safe (freeRecordOf_safe hw)))

/-! ## Machine/Ops -/

theorem nestedTrap_safe {tid : Nat} {t : Thread} {cause : Cause} {value : Word} (hs : MemorySafe s) :
    MemorySafe (nestedTrap s tid t cause value) := by
  unfold nestedTrap
  dsimp only
  split
  next he => exact (retireThread_safe (modCtx_safe hs)).ok he
  · exact modCtx_safe hs

theorem takeTrap_safe {tid : Nat} {cause : Cause} {value : Word} {warning : Bool} (hs : MemorySafe s) :
    MemorySafe (takeTrap s tid cause value warning) := by
  unfold takeTrap
  split
  · exact hs
  · exact ite_safe (setThread_safe hs) (ite_safe (setThread_safe hs) (nestedTrap_safe hs))

theorem takeReport_safe {tid : Nat} (hs : MemorySafe s) : MemorySafe (takeReport s tid) := by
  unfold takeReport
  split
  · exact hs
  · split
    · exact hs
    · exact ite_safe hs (setThread_safe hs)

theorem watchEngine_safe {ctx cl ea n engine : Nat} (hs : MemorySafe s) :
    MemorySafe (watchEngine s ctx cl ea n engine) := by
  unfold watchEngine
  refine foldl_safe ?_ hs
  intro _ _ ht
  split
  · refine ite_safe ht ?_
    split
    · exact sendReport_safe ht
    · exact ht

theorem finish_safe {tid : Nat} {t : Thread} {e : Effect} (hs : EffectSafe e) : MemorySafe (finish tid t e) := by
  unfold finish
  split
  · exact chargeQueue_safe (modThread_safe hs)
  · exact takeTrap_safe (chargeQueue_safe (modThread_safe hs))

theorem perform_safe {f : State → Thread → Except Stop Effect} (hf : ∀ s t, MemorySafe s → RunSafe EffectSafe (f s t))
    (hs : MemorySafe s) :
    NextSafe (perform s f) := by
  unfold perform
  split
  · exact hs
  next t _ =>
    have hr := hf s t hs
    split
    next he => exact finish_safe (hr.ok he)
    next he => exact takeTrap_safe hs
    next he => exact modThread_safe (hr.error he)

theorem regStep_safe {f : Thread → Thread} (hs : MemorySafe s) : NextSafe (regStep s f) := by
  unfold regStep
  split
  · exact hs
  · exact chargeQueue_safe (setThread_safe hs)

theorem branchStep_safe {f : Thread → Thread} {target : Thread → Word} (hs : MemorySafe s) :
    NextSafe (branchStep s f target) := by
  unfold branchStep
  split
  · exact hs
  · exact chargeQueue_safe (setThread_safe hs)

theorem drained_safe {t : Thread} (hs : MemorySafe s) : RunSafe (fun _ => True) (drained s t) := ite_run hs trivial

theorem released_safe {t : Thread} (hs : MemorySafe s) : RunSafe (fun _ => True) (released s t) := by
  unfold released
  split
  next he => exact (drained_safe hs).error he
  · exact ite_run trivial hs

theorem afterReleases_safe {t : Thread} (hs : MemorySafe s) : RunSafe (fun _ => True) (afterReleases s t) :=
  ite_run hs trivial

theorem acquireFor_safe {t : Thread} (hs : MemorySafe s) : MemorySafe (acquireFor s t) := acquire_safe hs

theorem potStore_safe {core addr : Nat} {b : List Byte} (hs : MemorySafe s) :
    MemorySafe (potStore s core addr b) := by
  unfold potStore
  exact foldl_safe (fun _ _ ht => wakeWhere_safe ht) (potWrite_safe hs)

theorem located_safe {t : Thread} {ea : Word} {width : Nat} {acc : Access} (hs : MemorySafe s) :
    RunSafe (fun r => MemorySafe r.2) (located s t ea width acc) := by
  unfold located
  split
  next he => exact (resolve_safe hs).ok he
  · trivial

theorem peek_safe {ea : Word} {loc : Loc} {n : Nat} : RunSafe (fun _ => True) (peek s ea loc n) := by
  unfold peek
  dsimp only
  split
  · split <;> trivial
  · split <;> trivial

theorem loadHold_safe {t : Thread} {loc : Loc} {q : LdQual} (hs : MemorySafe s) :
    RunSafe (fun _ => True) (loadHold s t loc q) := by
  unfold loadHold
  split
  · exact afterReleases_safe hs
  · trivial
  · exact afterReleases_safe hs
  · exact drained_safe hs

theorem loadBytes_safe {t : Thread} {ea : Word} {n : Nat} {q : LdQual} (hs : MemorySafe s) :
    RunSafe (fun r => MemorySafe r.2) (loadBytes s t ea n q) := by
  unfold loadBytes
  split
  next he => exact (located_safe hs).error he
  next he =>
    split
    next hf => exact (loadHold_safe ((located_safe hs).ok he)).error hf
    · split
      next hg => exact peek_safe.error hg
      · split
        · exact ite_safe (acquireFor_safe ((located_safe hs).ok he)) ((located_safe hs).ok he)
        · exact loadGlobal_safe ((located_safe hs).ok he)

theorem storeHold_safe {t : Thread} {loc : Loc} {q : StQual} (hs : MemorySafe s) :
    RunSafe (fun _ => True) (storeHold s t loc q) := by
  unfold storeHold
  split
  · exact released_safe hs
  · exact afterReleases_safe hs
  · trivial

theorem storeBytes_safe {t : Thread} {ea : Word} {b : List Byte} {q : StQual} (hs : MemorySafe s) :
    RunSafe MemorySafe (storeBytes s t ea b q) := by
  unfold storeBytes
  split
  next he => exact (located_safe hs).error he
  next he =>
    split
    next hf => exact (storeHold_safe ((located_safe hs).ok he)).error hf
    · split
      · exact potStore_safe ((located_safe hs).ok he)
      · exact ite_run ((located_safe hs).ok he) (modCore_safe (fun _ hk => hk) ((located_safe hs).ok he))

theorem isFull_safe {ea : Word} {loc : Loc} : RunSafe (fun _ => True) (isFull s ea loc) := by
  unfold isFull
  split <;> trivial

theorem putFull_safe {loc : Loc} {full : Bool} (hs : MemorySafe s) : MemorySafe (putFull s loc full) := by
  unfold putFull
  split
  · exact setFull_safe hs
  · exact setPresent_safe hs

theorem fillLoc_safe {loc : Loc} (hs : MemorySafe s) : MemorySafe (fillLoc s loc) := by
  unfold fillLoc
  split
  · exact fill_safe hs
  · exact fillPresent_safe hs

theorem writeThrough_safe {core ctx va pa : Nat} {b : List Byte} (hs : MemorySafe s) :
    MemorySafe (writeThrough s core ctx va pa b) := by
  unfold writeThrough
  exact modCore_safe (fun _ hk => hk) (writeMem_safe hs)

theorem takeTurn_safe {t : Thread} {ea : Word} {loc : Loc} {consume : Bool} (hs : MemorySafe s) :
    MemorySafe (takeTurn s t ea loc consume) := by
  unfold takeTurn
  refine ite_safe hs ?_
  split
  next he =>
    split
    · exact modCore_safe (fun _ hk => hk) (safe_of_snd (arrive_safe hs) he)
    · exact modRim_safe (safe_of_snd (arrive_safe hs) he)

theorem fullHold_safe {t : Thread} {loc : Loc} (hs : MemorySafe s) : RunSafe (fun _ => True) (fullHold s t loc) := by
  unfold fullHold
  split
  · exact afterReleases_safe hs
  · exact drained_safe hs

theorem loadFull_safe {t : Thread} {ea : Word} {n : Nat} {consume : Bool} (hs : MemorySafe s) :
    RunSafe (fun r => MemorySafe r.2) (loadFull s t ea n consume) := by
  unfold loadFull
  split
  next he => exact (located_safe hs).error he
  next he =>
    split
    next hf => exact isFull_safe.error hf
    · split
      next hg => exact (fullHold_safe ((located_safe hs).ok he)).error hg
      · refine ite_run ?_ ?_
        · split
          · exact (located_safe hs).ok he
          · exact takeTurn_safe ((located_safe hs).ok he)
        · split
          next hi => exact peek_safe.error hi
          · exact acquireFor_safe (ite_safe (putFull_safe (rimRoom_safe (clearTurns_safe ((located_safe hs).ok he))))
              (rimRoom_safe (clearTurns_safe ((located_safe hs).ok he))))

theorem storeFull_safe {t : Thread} {ea : Word} {b : List Byte} (hs : MemorySafe s) :
    RunSafe MemorySafe (storeFull s t ea b) := by
  unfold storeFull
  split
  next he => exact (located_safe hs).error he
  next he =>
    split
    next hf => exact isFull_safe.error hf
    · split
      next hg => exact (released_safe ((located_safe hs).ok he)).error hg
      · split
        · exact fillLoc_safe (potStore_safe ((located_safe hs).ok he))
        · exact fillLoc_safe (writeThrough_safe ((located_safe hs).ok he))

theorem clearFull_safe {t : Thread} {ea : Word} (hs : MemorySafe s) : RunSafe MemorySafe (clearFull s t ea) := by
  unfold clearFull
  split
  next he => exact (located_safe hs).error he
  next he =>
    split
    next hf => exact isFull_safe.error hf
    · exact putFull_safe ((located_safe hs).ok he)

theorem writeCsrCtx_safe {ctx csr : Nat} {x : Word} (hs : MemorySafe s) : MemorySafe (writeCsrCtx s ctx csr x) := by
  unfold writeCsrCtx
  split
  · exact modCtx_safe hs
  · exact modCtx_safe hs
  · exact logModeWritten_safe (modCtx_safe hs)
  · exact hs

theorem csrAccess_safe {t : Thread} {i : Instr} {op : CsrOp} {d a : GReg} {csr : BitVec 7} (hs : MemorySafe s) :
    RunSafe EffectSafe (csrAccess s t i op d a csr) := by
  unfold csrAccess
  exact ite_run hs (ite_run trivial (ite_run trivial (ite_run (ite_safe hs (modCtx_safe hs)) (writeCsrCtx_safe hs))))

/-! ## Machine/Atomic -/

theorem execAmo_safe {op : AmoOp} {ord : MemOrder} {ty : Ty} {d a b : GReg} (hs : MemorySafe s) :
    NextSafe (execAmo op ord ty d a b s) := by
  unfold execAmo
  refine perform_safe ?_ hs
  intro _ _ ht
  dsimp only
  split
  next he => exact (located_safe ht).error he
  next he =>
    split
    · split
      next hf => exact peek_safe.error hf
      · split
        next hg =>
          exact RunSafe.error (p := (fun _ => True))
            (ite_run (released_safe ((located_safe ht).ok he)) (afterReleases_safe ((located_safe ht).ok he))) hg
        · exact ite_safe (acquireFor_safe (potStore_safe ((located_safe ht).ok he)))
            (potStore_safe ((located_safe ht).ok he))
    · split
      next hf => exact peek_safe.error hf
      next hf _ =>
        exact RunSafe.error (p := (fun _ => True))
          (ite_run (released_safe ((located_safe ht).ok he)) (drained_safe ((located_safe ht).ok he))) hf
      · exact fields_safe ((located_safe ht).ok he)

theorem execMemoryAtomic_safe {k : Nat} (hs : MemorySafe s) : NextSafe (execMemoryAtomic k s) := by
  unfold execMemoryAtomic
  split
  · exact hs
  · dsimp only
    split
    · exact fields_safe hs
    · split
      · exact takeTrap_safe (fields_safe hs)
      · exact finish_safe (ite_safe (acquire_safe (writeThrough_safe (fields_safe hs)))
          (writeThrough_safe (fields_safe hs)))

theorem execFence_safe {kind : FenceKind} {scope : FenceScope} (hs : MemorySafe s) :
    NextSafe (execFence kind scope s) := by
  unfold execFence
  refine perform_safe ?_ hs
  intro _ _ ht
  split
  next he => exact RunSafe.error (p := (fun _ => True)) (ite_run trivial (drained_safe ht)) he
  · exact ite_run ht (ite_safe ht (acquireFor_safe ht))

/-! ## Machine/Barriers -/

theorem putBarrier_safe {core addr : Nat} {b : Barrier} (hs : MemorySafe s) : MemorySafe (putBarrier s core addr b) :=
  potStore_safe hs

theorem barrierArrive_safe {core addr bytes : Nat} (hs : MemorySafe s) :
    MemorySafe (barrierArrive s core addr bytes) :=
  putBarrier_safe hs

theorem barrierOf_safe {t : Thread} {ga : Word} (hs : MemorySafe s) :
    RunSafe (fun r => MemorySafe r.2.2) (barrierOf s t ga) := by
  unfold barrierOf
  refine ite_run trivial (ite_run trivial ?_)
  split
  next he => exact (located_safe hs).error he
  next he => exact (located_safe hs).ok he
  · trivial

theorem execBcinit_safe {a b : GReg} (hs : MemorySafe s) : NextSafe (execBcinit a b s) := by
  unfold execBcinit
  refine perform_safe ?_ hs
  intro _ _ ht
  split
  next he => exact (barrierOf_safe ht).error he
  next he _ => exact (released_safe ht).error he
  next he _ => exact putBarrier_safe ((barrierOf_safe ht).ok he)

theorem execBcpost_safe {a b : GReg} (hs : MemorySafe s) : NextSafe (execBcpost a b s) := by
  unfold execBcpost
  refine perform_safe ?_ hs
  intro _ _ ht
  split
  next he => exact (barrierOf_safe ht).error he
  next he _ => exact (released_safe ht).error he
  next he _ => exact putBarrier_safe ((barrierOf_safe ht).ok he)

theorem execBcwait_safe {d a : GReg} (hs : MemorySafe s) : NextSafe (execBcwait d a s) := by
  unfold execBcwait
  refine perform_safe ?_ hs
  intro _ _ ht
  dsimp only
  split
  next he => exact (barrierOf_safe ht).error he
  next he _ => exact (afterReleases_safe ht).error he
  next he _ =>
    exact ite_run (putBarrier_safe (acquireFor_safe ((barrierOf_safe ht).ok he)))
      (ite_run (acquireFor_safe ((barrierOf_safe ht).ok he)) ((barrierOf_safe ht).ok he))

/-! ## Machine/Branch -/

theorem execJlr_safe {d a : GReg} {imm : BitVec 16} (hs : MemorySafe s) : NextSafe (execJlr d a imm s) := by
  unfold execJlr
  exact perform_safe (fun _ _ ht => ite_run trivial ht) hs

/-! ## Machine/Signals -/

theorem fire_safe {vec fn : Nat} (hs : MemorySafe s) : MemorySafe (fire s vec fn) := fields_safe hs

theorem firePhysical_safe {vec : Nat} (hs : MemorySafe s) : MemorySafe (firePhysical s vec) := by
  unfold firePhysical
  exact foldl_safe (fun _ _ ht => fire_safe ht) hs

theorem fireEvery_safe (hs : MemorySafe s) : MemorySafe (fireEvery s) := by
  unfold fireEvery
  exact foldl_safe (fun _ _ ht => fire_safe ht) hs

theorem fqWrite_safe {f : EngineFault} (hs : MemorySafe s) : MemorySafe (fqWrite s f).2 := by
  unfold fqWrite
  exact firePhysical_safe (fields_safe (writeMem_safe hs))

theorem preemptDone_safe (hs : MemorySafe s) : MemorySafe (preemptDone s) := by
  unfold preemptDone
  exact ite_safe (firePhysical_safe (fields_safe hs)) hs

theorem switchContext_safe {cl ctx : Nat} (hs : MemorySafe s) : MemorySafe (switchContext s cl ctx) := by
  unfold switchContext
  refine ite_safe hs ?_
  split
  · exact modCluster_safe hs
  · exact modCtx_safe (modCluster_safe hs)

theorem readVirt_safe {ctx n va : Nat} {user : Bool} (hs : MemorySafe s) :
    OkSafe (fun r => MemorySafe r.2) (readVirt ctx user n va s) := by
  induction n generalizing va s with
  | zero => exact hs
  | succ n ih =>
    unfold readVirt
    split
    next he =>
      have hr := ih (va := va + 1) (safe_of_snd_snd (translate_safe hs) he)
      split
      next hf => exact (hr.ok hf :)
      · trivial
    · trivial

theorem mapVirt_safe {ctx n va : Nat} {user : Bool} (hs : MemorySafe s) :
    SomeSafe (fun r => MemorySafe r.2) (mapVirt ctx user n va s) := by
  induction n generalizing va s with
  | zero => exact hs
  | succ n ih =>
    unfold mapVirt
    split
    next he => exact option_map_safe (ih (safe_of_snd_snd (translate_safe hs) he)) fun _ hr => hr
    · trivial

theorem writePhys_safe {l : List (Nat × Byte)} (hs : MemorySafe s) : MemorySafe (writePhys s l) :=
  ⟨wf_foldl_mwrite hs.1, hs.2⟩

theorem writeVirt_safe {ctx : Nat} {user : Bool} {va : Nat} {b : List Byte} (hs : MemorySafe s) :
    SomeSafe MemorySafe (writeVirt s ctx user va b) := by
  unfold writeVirt
  refine option_map_safe (mapVirt_safe hs) ?_
  intro _ ht
  split
  exact writePhys_safe ht

/-! ## Machine/Fabric -/

theorem setLink_safe {l : Nat} {p : PeerLink} (hs : MemorySafe s) : MemorySafe (s.setLink l p) := fields_safe hs

theorem linkSend_safe {l : Nat} {m : Msg} (hs : MemorySafe s) : MemorySafe (linkSend s l m) := setLink_safe hs

theorem setDest_safe {chip : Nat} {d : DestSt} (hs : MemorySafe s) : MemorySafe (s.setDest chip d) := fields_safe hs

theorem setSource_safe {chip : Nat} {d : SourceSt} (hs : MemorySafe s) : MemorySafe (s.setSource chip d) :=
  fields_safe hs

theorem takeOwn_safe {m : Msg} (hs : MemorySafe s) : MemorySafe (takeOwn s m) := by
  unfold takeOwn
  exact ite_safe hs (fields_safe hs)

theorem emitMsg_safe {m : Msg} (hs : MemorySafe s) : MemorySafe (emitMsg s m) := by
  unfold emitMsg
  refine ite_safe hs (ite_safe (takeOwn_safe hs) (ite_safe hs ?_))
  split
  · exact ite_safe (setDest_safe (linkSend_safe hs)) (linkSend_safe hs)
  · exact hs

theorem sendNumbered_safe {m : Msg} (hs : MemorySafe s) : MemorySafe (sendNumbered s m).2 := by
  unfold sendNumbered
  exact emitMsg_safe (setDest_safe hs)

theorem retainMsg_safe {chip : Nat} {m : Msg} (hs : MemorySafe s) : MemorySafe (retainMsg chip s m) := by
  unfold retainMsg
  split
  · exact hs
  · exact setDest_safe (writeMem_safe hs)

theorem resendAll_safe {chip : Nat} (hs : MemorySafe s) : MemorySafe (resendAll s chip) := by
  unfold resendAll
  exact foldl_safe (fun _ _ ht => emitMsg_safe ht) hs

theorem engineWrite_safe {pa : Nat} {b : List Byte} {presence : Bool} (hs : MemorySafe s) :
    MemorySafe (engineWrite s pa b presence) := by
  unfold engineWrite
  exact ite_safe (foldl_safe (fun _ _ ht => fillPresent_safe ht) (writeMem_safe hs)) (writeMem_safe hs)

theorem peerStore_safe {pa : Nat} {b : List Byte} {presence : Bool} (hs : MemorySafe s) :
    MemorySafe (peerStore s pa b presence) := by
  unfold peerStore
  exact ite_safe (fillPresent_safe (writeMem_safe hs)) (writeMem_safe hs)

theorem reduceInto_safe {pa op : Nat} {ty : Ty} {data : List Byte} (hs : MemorySafe s) :
    MemorySafe (reduceInto s pa op ty data) := by
  unfold reduceInto
  exact foldl_safe (fun _ _ ht => writeMem_safe ht) hs

theorem setPort_safe {n : Nat} {p : StreamPort} (hs : MemorySafe s) : MemorySafe (s.setPort n p) := fields_safe hs

theorem applyToken_safe {m : Msg} (hs : MemorySafe s) : AppliedSafe (applyToken s m) := by
  unfold applyToken
  dsimp only
  split
  · trivial
  · refine ite_applied trivial ?_
    split
    · exact wakeSlot_safe (setPort_safe (arrive_safe hs))
    · exact setPort_safe (arrive_safe hs)

theorem peerFault_safe {m : Msg} {va : Nat} {acc : Access} {r : WalkResult} (hs : MemorySafe s) :
    MemorySafe (peerFault s m va acc r) := by
  unfold peerFault
  split
  · exact ite_safe hs (fqWrite_safe hs)
  · exact hs

theorem applyMsg_safe {m : Msg} (hs : MemorySafe s) : AppliedSafe (applyMsg s m) := by
  unfold applyMsg
  dsimp only
  split
  · split
    next hf => exact watchEngine_safe (peerStore_safe (safe_of_snd_snd (translate_safe hs) hf))
    next hf => exact peerFault_safe (safe_of_snd_snd (translate_safe hs) hf)
  · split
    next hf => exact watchEngine_safe (writeMem_safe (safe_of_snd_snd (translate_safe hs) hf))
    next hf => exact peerFault_safe (safe_of_snd_snd (translate_safe hs) hf)
  · split
    next hf => exact watchEngine_safe (engineWrite_safe (safe_of_snd_snd (translate_safe hs) hf))
    next hf => exact peerFault_safe (safe_of_snd_snd (translate_safe hs) hf)
  · split
    next hf => exact watchEngine_safe (reduceInto_safe (safe_of_snd_snd (translate_safe hs) hf))
    next hf => exact peerFault_safe (safe_of_snd_snd (translate_safe hs) hf)
  · exact applyToken_safe hs

theorem sendAck_safe {chip : Nat} (hs : MemorySafe s) : MemorySafe (sendAck s chip) := emitMsg_safe hs

theorem passHeld_safe {chip : Nat} {m : Msg} {replies : List (BitVec 32 × Word)} {failed : List (BitVec 32 × Cause)}
    (hs : MemorySafe s) :
    MemorySafe (passHeld s chip m replies failed) :=
  setSource_safe hs

theorem applyHeld_safe {chip n : Nat} (hs : MemorySafe s) : MemorySafe (applyHeld chip n s) := by
  induction n generalizing s with
  | zero => exact hs
  | succ n ih =>
    unfold applyHeld
    split
    · exact hs
    next m _ =>
      have hm : AppliedSafe (applyMsg s m) := applyMsg_safe hs
      split
      · exact hs
      next he => exact ih (sendAck_safe (passHeld_safe (hm.failed he)))
      next he => exact ih (passHeld_safe (hm.done he))
      next he => exact ih (emitMsg_safe (passHeld_safe (hm.done he)))

theorem advanceSource_safe {chip : Nat} (hs : MemorySafe s) : MemorySafe (advanceSource s chip) := by
  unfold advanceSource
  exact ite_safe hs (sendAck_safe (applyHeld_safe hs))

theorem retrySources_safe (hs : MemorySafe s) : MemorySafe (retrySources s) := by
  unfold retrySources
  refine foldl_safe ?_ hs
  intro _ _ ht
  split
  exact ite_safe ht (advanceSource_safe ht)

theorem arriveNumbered_safe {m : Msg} (hs : MemorySafe s) : MemorySafe (arriveNumbered s m) := by
  unfold arriveNumbered
  refine ite_safe ?_ (ite_safe hs (advanceSource_safe (setSource_safe hs)))
  refine sendAck_safe ?_
  split
  · exact ite_safe (emitMsg_safe hs) hs
  · exact hs

theorem wakeSenders_safe (hs : MemorySafe s) : MemorySafe (wakeSenders s) := release_safe hs

/-! ## Machine/Channels -/

theorem dropWord_safe {tid : Nat} {t : Thread} {slot : Nat} (hs : MemorySafe s) :
    MemorySafe (dropWord s tid t slot) := by
  unfold dropWord
  refine ite_safe (wakeSlot_safe (setChan_safe hs)) (ite_safe (fields_safe hs) ?_)
  split
  · exact retrySources_safe (setPort_safe hs)
  · exact hs

theorem sendWord_safe {tid : Nat} {t : Thread} {slot : Nat} {w : Word} (hs : MemorySafe s) :
    MemorySafe (sendWord s tid t slot w) := by
  unfold sendWord
  refine ite_safe ?_ ?_
  · split
    · exact chanPush_safe hs
    · exact hs
  · refine ite_safe (fields_safe hs) ?_
    split
    · exact sendNumbered_safe hs
    · exact hs

theorem execSend_safe {ch : ChSlot} {b : GReg} (hs : MemorySafe s) : NextSafe (execSend ch b s) := by
  unfold execSend
  refine perform_safe ?_ hs
  intro _ _ ht
  refine ite_run trivial (ite_run ht (ite_run ht ?_))
  split
  next he => exact (drained_safe ht).error he
  · exact sendWord_safe ht

theorem execRecv_safe {d : GReg} {ch : ChSlot} (hs : MemorySafe s) : NextSafe (execRecv d ch s) := by
  unfold execRecv
  refine perform_safe ?_ hs
  intro _ _ ht
  refine ite_run trivial ?_
  split
  · exact ite_run trivial ht
  · exact acquireFor_safe (dropWord_safe ht)

theorem bindSlot_safe {t : Thread} {ch : ChSlot} {b : GReg} {slot : ChSlot} {out : Bool} (hs : MemorySafe s) :
    RunSafe EffectSafe (bindSlot s t ch b slot out) := by
  unfold bindSlot
  refine ite_run trivial ?_
  dsimp only
  split
  · exact wakeSlot_safe (wakeSlot_safe (setThread_safe (dropChan_safe hs)))
  · exact setThread_safe (dropChan_safe hs)

theorem execBindIn_safe {ch : ChSlot} {b : GReg} {slot : ChSlot} (hs : MemorySafe s) :
    NextSafe (execBindIn ch b slot s) := by
  unfold execBindIn
  exact perform_safe (fun _ _ ht => bindSlot_safe ht) hs

theorem execBindOut_safe {ch : ChSlot} {b : GReg} {slot : ChSlot} (hs : MemorySafe s) :
    NextSafe (execBindOut ch b slot s) := by
  unfold execBindOut
  exact perform_safe (fun _ _ ht => bindSlot_safe ht) hs

theorem execUnbind_safe {ch : ChSlot} (hs : MemorySafe s) : NextSafe (execUnbind ch s) := by
  unfold execUnbind
  exact perform_safe (fun _ _ ht => unbindSlot_safe ht) hs

theorem execPoll_safe {d : GReg} {ch : ChSlot} (hs : MemorySafe s) : NextSafe (execPoll d ch s) := by
  unfold execPoll
  exact perform_safe (fun _ _ ht => ht) hs

theorem execWaitany_safe {d a : GReg} (hs : MemorySafe s) : NextSafe (execWaitany d a s) := by
  unfold execWaitany
  refine perform_safe ?_ hs
  intro _ _ ht
  dsimp only
  split
  · trivial
  · split
    next he => exact (logNext_safe ht).error he
    next he =>
      have hu := (logNext_safe ht).ok he
      refine ite_run hu (ite_run trivial (ite_run hu ?_))
      exact map_safe (replayGrants_safe (logConsume_safe hu)) fun _ hv => hv
    next he =>
      have hu := (logNext_safe ht).ok he
      split
      · exact hu
      · split
        next hf => exact (logRecord_safe hu).error hf
        next hf => exact (logRecord_safe hu).ok hf

/-! ## Machine/Save -/

theorem writeSlot_safe {cl h ctx : Nat} {v : SaveSlot} (hs : MemorySafe s) : MemorySafe (writeSlot s cl h ctx v) := by
  unfold writeSlot
  split
  · exact hs
  · exact ite_safe (writeMem_safe hs) hs

/-! ## Machine/Net -/

theorem noteCir_safe {l : TileLoc} {i : Nat} (hs : MemorySafe s) : MemorySafe (noteCir s l i) := by
  unfold noteCir
  dsimp only
  split
  · exact reportCir_safe hs
  · exact hs

theorem noteDrop_safe {l : TileLoc} (hs : MemorySafe s) : MemorySafe (noteDrop s l) := by
  unfold noteDrop
  exact noteCir_safe (modCore_safe (fun _ hk => hk) hs)

theorem noteFiring_safe {l : TileLoc} (hs : MemorySafe s) : MemorySafe (noteFiring s l) := by
  unfold noteFiring
  exact modCore_safe (fun _ hk => hk) hs

theorem noteStageCir_safe {l : TileLoc} {marks i : Nat} (hs : MemorySafe s) :
    MemorySafe (noteStageCir s l marks i) := by
  unfold noteStageCir
  split
  · exact reportCir_safe hs
  · exact hs

theorem noteStarved_safe {l : TileLoc} (hs : MemorySafe s) : MemorySafe (noteStarved s l) := by
  unfold noteStarved
  exact modCore_safe (fun _ hk => hk) hs

theorem enqueue_safe {l : TileLoc} {key : Nat} {k : Tok} {boundary : Bool} (hs : MemorySafe s) :
    MemorySafe (enqueue s l key k boundary) :=
  modTile_safe hs

theorem markTaken_safe {l : TileLoc} {key : Nat} {k : Tok} (hs : MemorySafe s) :
    MemorySafe (markTaken s l key k) := by
  unfold markTaken
  exact ite_safe (modTile_safe hs) hs

theorem wordPush_safe {k : Tok} {fuel : Nat} {l : TileLoc} {w : SwitchWord} (hs : MemorySafe s) :
    MemorySafe (wordPush k fuel s l w) := by
  induction fuel generalizing s l w with
  | zero => exact hs
  | succ fuel ih =>
    unfold wordPush
    refine ite_safe ?_ (enqueue_safe hs)
    split
    · exact hs
    · split
      · exact hs
      · exact ite_safe (noteDrop_safe hs) (foldl_safe (fun _ _ ht => ih ht) (markTaken_safe hs))

theorem chainPush_safe {l : TileLoc} {c : List SwitchWord} {k : Tok} (hs : MemorySafe s) :
    MemorySafe (chainPush s l c k) := by
  unfold chainPush
  exact foldl_safe (fun _ _ ht => wordPush_safe ht) hs

theorem markFork_safe {l : TileLoc} {w : SwitchWord} (hs : MemorySafe s) : MemorySafe (markFork s l w) :=
  modTile_safe hs

theorem clearForks_safe {l : TileLoc} {c : List SwitchWord} (hs : MemorySafe s) : MemorySafe (clearForks s l c) :=
  modTile_safe hs

theorem portTake_safe {fuel : Nat} {l : TileLoc} {port vc : Nat} (hs : MemorySafe s) :
    SomeSafe (fun r => MemorySafe r.2) (portTake fuel s l port vc) := by
  induction fuel generalizing l port vc with
  | zero => trivial
  | succ fuel ih =>
    unfold portTake
    split
    · trivial
    · dsimp only
      split
      · exact markTaken_safe (modTile_safe hs)
      · split
        · trivial
        · split
          · refine ite_some (option_map_any fun _ => markTaken_safe (markFork_safe hs)) ?_
            split
            next he =>
              exact markTaken_safe (foldl_safe (fun _ _ ht => wordPush_safe ht) (clearForks_safe (ih.some he)))
            · trivial
          · trivial

theorem inputTake_safe {l : TileLoc} {i : Input} (hs : MemorySafe s) : MemorySafe (inputTake s l i) := by
  unfold inputTake
  split
  · split
    next he => exact (portTake_safe hs).some he
    · exact hs
  · split
    · exact markTaken_safe (modTile_safe hs)
    · exact hs
  · split
    · refine ite_safe (markFork_safe hs) ?_
      split
      next he => exact chainPush_safe (clearForks_safe ((portTake_safe hs).some he))
      · exact hs
    · exact hs
  · exact modTile_safe hs

theorem sourcePush_safe {l : TileLoc} {src : Nat} {vc : Option Nat} {k : Tok} (hs : MemorySafe s) :
    MemorySafe (sourcePush s l src vc k) := by
  unfold sourcePush
  exact foldl_safe (fun _ _ ht => chainPush_safe ht) hs

theorem edgePush_safe {l : TileLoc} {vc : Nat} {k : Tok} (hs : MemorySafe s) : MemorySafe (edgePush s l vc k) :=
  enqueue_safe hs

theorem pressBound_safe {l : TileLoc} {key : Nat} (hs : MemorySafe s) : MemorySafe (pressBound s l key) :=
  modTile_safe hs

theorem noteFull_safe {l : TileLoc} {cs : List (List SwitchWord)} (hs : MemorySafe s) :
    MemorySafe (noteFull s l cs) := by
  unfold noteFull
  refine foldl_safe ?_ hs
  intro _ _ ht
  split
  exact pressBound_safe ht

theorem notePressed_safe {l : TileLoc} {cs : List (List SwitchWord)} (hs : MemorySafe s) :
    MemorySafe (notePressed s l cs) := by
  unfold notePressed
  exact noteFull_safe (modCore_safe (fun _ hk => hk) hs)

theorem saveElement_safe {l : TileLoc} {ordinal : Nat} {f : Tile → Tile} (hs : MemorySafe s) :
    MemorySafe (saveElement s l ordinal f) := by
  unfold saveElement
  split
  · exact hs
  · dsimp only
    split
    · exact hs
    · exact writeSlot_safe (setLaunch_safe hs)

theorem markLaunch_safe {cl h : Nat} (hs : MemorySafe s) : MemorySafe (markLaunch s cl h) := by
  unfold markLaunch
  split
  · exact setLaunch_safe hs
  · exact hs

theorem stopAfterMark_safe {l : TileLoc} (hs : MemorySafe s) : MemorySafe (stopAfterMark s l) := by
  unfold stopAfterMark
  exact ite_safe (modTile_safe hs) hs

theorem postCtl_safe {l : TileLoc} {m : CtlMsg} (hs : MemorySafe s) : MemorySafe (postCtl s l m) := modTile_safe hs

theorem sendDone_safe {l : TileLoc} {count : Nat} (hs : MemorySafe s) : MemorySafe (sendDone s l count) := by
  unfold sendDone
  split
  · exact chainPush_safe hs
  · split
    · exact hs
    · split
      · exact postCtl_safe hs
      · exact hs

theorem chargeCredit_safe {l : TileLoc} {k : Tok} (hs : MemorySafe s) : MemorySafe (chargeCredit s l k) := by
  unfold chargeCredit
  exact ite_safe (sendDone_safe (setTile_safe hs)) hs

/-! ## Machine/Stages -/

theorem absorbPlane_safe {l : TileLoc} {i : Nat} {g : StageCfg} (hs : MemorySafe s) :
    MemorySafe (absorbPlane s l i g) := by
  unfold absorbPlane
  extract_lets inp st t p
  refine ite_safe hs ?_
  split
  · exact hs
  · extract_lets u put
    have ht : MemorySafe t := inputTake_safe hs
    have hu : MemorySafe u := ite_safe (noteStageCir_safe ht) ht
    have hput : ∀ p, MemorySafe (put p) := fun _ => modTile_safe hu
    clear_value u put
    split
    · exact hput _
    · exact ite_safe (hput _) (ite_safe (hput _) (hput _))
    · exact hu
    · exact noteStageCir_safe (modCore_safe (fun _ hk => hk) hu)

theorem stageEmit_safe {l : TileLoc} {gs : List StageCfg} {i : Nat} {g : StageCfg} {k : Tok} (hs : MemorySafe s) :
    MemorySafe (stageEmit s l gs i g k) := by
  unfold stageEmit
  refine noteFiring_safe ?_
  refine ite_safe ?_ ?_
  · refine chargeCredit_safe ?_
    split
    · exact modTile_safe (modTile_safe (ite_safe (saveElement_safe hs) hs))
    · exact sourcePush_safe (modTile_safe (ite_safe (saveElement_safe hs) hs))
    · exact modTile_safe (ite_safe (saveElement_safe hs) hs)
  · split
    · exact modTile_safe (modTile_safe (ite_safe (saveElement_safe hs) hs))
    · exact sourcePush_safe (modTile_safe (ite_safe (saveElement_safe hs) hs))
    · exact modTile_safe (ite_safe (saveElement_safe hs) hs)

theorem stageFinish_safe {l : TileLoc} {gs : List StageCfg} {i : Nat} {g : StageCfg} {f : Fired} (hs : MemorySafe s) :
    MemorySafe (stageFinish s l gs i g f) := by
  unfold stageFinish
  dsimp only
  split
  · exact noteFiring_safe (modTile_safe (ite_safe (noteStageCir_safe (ite_safe (noteStageCir_safe hs) hs))
      (ite_safe (noteStageCir_safe hs) hs)))
  · exact stageEmit_safe (modTile_safe (ite_safe (noteStageCir_safe (ite_safe (noteStageCir_safe hs) hs))
      (ite_safe (noteStageCir_safe hs) hs)))

theorem stageTake_safe {l : TileLoc} {gs : List StageCfg} {i : Nat} {g : StageCfg} {ins : List Input} {f : Fired}
    (hs : MemorySafe s) :
    MemorySafe (stageTake s l gs i g ins f) := by
  unfold stageTake
  exact ite_safe (notePressed_safe hs) (stageFinish_safe (foldl_safe (fun _ _ ht => inputTake_safe ht) hs))

theorem stageOther_safe {l : TileLoc} {gs : List StageCfg} {i : Nat} {g : StageCfg} {ins : List Input} {hs : List Tok}
    (hm : MemorySafe s) :
    MemorySafe (stageOther s l gs i g ins hs) := by
  unfold stageOther
  split
  · exact hm
  · exact ite_safe (noteDrop_safe (foldl_safe (fun _ _ hs => inputTake_safe hs) hm))
      (ite_safe (stageTake_safe hm) (stageTake_safe hm))

theorem quantTake_safe {l : TileLoc} {gs : List StageCfg} {i : Nat} {g : StageCfg} (hs : MemorySafe s) :
    MemorySafe (quantTake s l gs i g) := by
  unfold quantTake
  exact ite_safe hs (modTile_safe (ite_safe (noteStageCir_safe (foldl_safe (fun _ _ ht => inputTake_safe ht) hs))
    (foldl_safe (fun _ _ ht => inputTake_safe ht) hs)))

theorem stageAct_safe {l : TileLoc} {gs : List StageCfg} {i : Nat} {g : StageCfg} (hs : MemorySafe s) :
    MemorySafe (stageAct s l gs i g) := by
  unfold stageAct
  dsimp only
  split
  · exact ite_safe (noteStageCir_safe (modTile_safe (inputTake_safe hs))) (modTile_safe (inputTake_safe hs))
  next he =>
    split
    · exact ite_safe (noteStarved_safe hs) hs
    · refine foldl_safe ?_ (noteFiring_safe hs)
      intro _ _ ht
      split
      · exact noteDrop_safe (inputTake_safe ht)
      · exact ht
    · exact stageOther_safe hs
    · exact ite_safe (noteStarved_safe hs) (ite_safe (noteFiring_safe (quantTake_safe hs)) (stageTake_safe hs))

theorem execStageFiring_safe {l : TileLoc} {i : Nat} (hs : MemorySafe s) : NextSafe (execStageFiring l i s) := by
  unfold execStageFiring
  extract_lets t
  split
  · exact hs
  · split
    · split
      · exact hs
      · refine ite_next hs ?_
        extract_lets u st
        have hu : MemorySafe u := ite_safe (absorbPlane_safe hs) hs
        clear_value st u
        split
        · refine ite_next (ite_safe (quantTake_safe ?_) ?_) (notePressed_safe hu)
          · exact stageEmit_safe (modTile_safe hu)
          · exact stageEmit_safe (modTile_safe hu)
        · exact stageAct_safe hu
    · exact hs

/-! ## Machine/Pots -/

theorem passMark_safe {l : TileLoc} {k : Tok} (hs : MemorySafe s) : MemorySafe (passMark s l k) := modTile_safe hs

theorem noteBoundDrop_safe {l : TileLoc} {port vc : Nat} (hs : MemorySafe s) :
    MemorySafe (noteBoundDrop s l port vc) := by
  unfold noteBoundDrop
  split
  · exact ite_safe hs (modTile_safe hs)
  · exact hs

theorem execSwitchForward_safe {l : TileLoc} {word : Nat} (hs : MemorySafe s) :
    NextSafe (execSwitchForward l word s) := by
  unfold execSwitchForward
  split
  · refine ite_next hs ?_
    split
    · exact hs
    · refine ite_next ?_ ?_
      · split
        next hg => exact noteDrop_safe (noteBoundDrop_safe ((portTake_safe hs).some hg))
        · exact hs
      · refine ite_next ?_ (noteFull_safe hs)
        split
        next hg => exact passMark_safe (chainPush_safe ((portTake_safe hs).some hg))
        · exact hs
  · exact hs

theorem execOccupancyExchange_safe {l : TileLoc} {word : Nat} (hs : MemorySafe s) :
    NextSafe (execOccupancyExchange l word s) := by
  unfold execOccupancyExchange
  split <;> exact ite_safe (modTile_safe hs) hs

theorem modPot_safe {l : TileLoc} {f : PotSt → PotSt} (hs : MemorySafe s) : MemorySafe (modPot s l f) :=
  modTile_safe hs

theorem localTake_safe {l : TileLoc} {v : Nat} {k : Tok} (hs : MemorySafe s) : MemorySafe (localTake s l v k) := by
  unfold localTake
  split
  · exact markTaken_safe (inputTake_safe hs)
  · exact hs

theorem reopenAt_safe {a1 : Place0} (hs : MemorySafe s) : MemorySafe (reopenAt s a1) := by
  unfold reopenAt
  split <;> exact modTile_safe hs

theorem reopenBack_safe {h fuel : Nat} {xs : List Place0} (hs : MemorySafe s) :
    MemorySafe (reopenBack h fuel xs s) := by
  induction fuel generalizing s xs with
  | zero => exact hs
  | succ fuel ih =>
    cases xs with
    | nil => exact hs
    | cons x xs =>
      unfold reopenBack
      split
      · exact ih (reopenAt_safe hs)
      · exact ih (reopenAt_safe hs)

theorem askRepair_safe {es : List TileLoc} {n : BitVec 24} (hs : MemorySafe s) : MemorySafe (askRepair s es n) := by
  unfold askRepair
  exact foldl_safe (fun _ _ ht => modTile_safe ht) hs

theorem noteRepair_safe {l : TileLoc} (hs : MemorySafe s) : MemorySafe (noteRepair s l) := by
  unfold noteRepair
  exact modCore_safe (fun _ hk => hk) hs

theorem noteFinal_safe {l : TileLoc} {marks : Nat} (hs : MemorySafe s) : MemorySafe (noteFinal s l marks) := by
  unfold noteFinal
  exact noteStageCir_safe (modCore_safe (fun _ hk => hk) hs)

theorem sinkDecide_safe {l : TileLoc} {marks : Nat} {places : List Place0} {m : SinkMemo} {ch : Nat} {k : Tok}
    (hs : MemorySafe s) :
    MemorySafe (sinkDecide s l marks places m ch k).1 := by
  unfold sinkDecide
  dsimp only
  split
  · split
    · exact ite_safe (reopenBack_safe hs) hs
    · split
      · split
        · exact noteRepair_safe (askRepair_safe hs)
        · exact noteFinal_safe hs
      · exact hs
  · split
    · exact ite_safe (reopenBack_safe hs) hs
    · split
      · split
        · exact noteRepair_safe (askRepair_safe hs)
        · exact noteFinal_safe hs
      · exact hs

theorem mismatch_safe {l : TileLoc} {marks : Nat} (hs : MemorySafe s) : MemorySafe (mismatch s l marks) := by
  unfold mismatch
  split
  · exact hs
  · dsimp only
    split
    · exact setLaunch_safe (markLaunch_safe (noteStageCir_safe hs))
    · exact markLaunch_safe (noteStageCir_safe hs)

theorem setPoison_safe {core a : Nat} {on : Bool} (hs : MemorySafe s) : MemorySafe (setPoison s core a on) := by
  unfold setPoison
  exact modCore_safe (fun _ hk => hk) hs

theorem scratchData_safe {l : TileLoc} {v : Nat} {k : Tok} (hs : MemorySafe s) :
    MemorySafe (scratchData s l v k) := by
  unfold scratchData
  exact modPot_safe (foldl_safe (fun _ _ ht => fill_safe ht) (ite_safe (setPoison_safe hs) (potStore_safe hs)))

theorem scratchTile_safe {l : TileLoc} {v : Nat} {k : Tok} (hs : MemorySafe s) :
    MemorySafe (scratchTile s l v k) := by
  unfold scratchTile
  exact ite_safe (barrierArrive_safe hs) (noteStageCir_safe (barrierArrive_safe hs))

theorem scratchOther_safe {l : TileLoc} {v : Nat} {k : Tok} (hs : MemorySafe s) :
    MemorySafe (scratchOther s l v k) := by
  unfold scratchOther
  extract_lets p r m t u
  have ht : MemorySafe t :=
    ite_safe (ite_safe (modTile_safe (saveElement_safe (modPot_safe hs))) (modPot_safe hs)) hs
  exact ite_safe ht (chargeCredit_safe (sourcePush_safe ht))

theorem scratchPressed_safe {l : TileLoc} (hs : MemorySafe s) : MemorySafe (scratchPressed s l) := by
  unfold scratchPressed
  exact ite_safe hs (notePressed_safe hs)

theorem scratchPass_safe {l : TileLoc} {v : Nat} {k : Tok} (hs : MemorySafe s) :
    MemorySafe (scratchPass s l v k) := by
  unfold scratchPass
  exact ite_safe hs (scratchOther_safe hs)

theorem scratchTake_safe {l : TileLoc} {v : Nat} {k : Tok} {other : Option (TileLoc × Tok)} (hs : MemorySafe s) :
    MemorySafe (scratchTake s l v k other) := by
  unfold scratchTake
  extract_lets p behind
  split
  next he =>
    extract_lets t u
    have ht : MemorySafe t := modPot_safe (safe_of_fst (sinkDecide_safe hs) he)
    have hu : MemorySafe u := elim_safe ht fun _ => scratchPass_safe ht
    clear_value t u
    refine ite_safe ht ?_
    split
    · exact scratchData_safe hu
    · exact scratchTile_safe hu
    · exact scratchOther_safe hu

theorem execScratchpadWrite_safe {l : TileLoc} (hs : MemorySafe s) : NextSafe (execScratchpadWrite l s) := by
  unfold execScratchpadWrite
  extract_lets t u
  split
  · refine ite_next hs ?_
    split
    · exact scratchPressed_safe hs
    · split
      · exact hs
      · extract_lets v
        have hv : MemorySafe v := modPot_safe (noteFiring_safe (localTake_safe (scratchPressed_safe hs)))
        clear_value v
        split
        · exact scratchTake_safe hv
        · exact scratchPass_safe hv
        · exact hv
        · split
          · exact hv
          · exact ite_next (scratchPass_safe (scratchPass_safe (mismatch_safe (localTake_safe hv))))
              (scratchTake_safe (localTake_safe hv))
  · exact hs

theorem storePlace_safe {l : TileLoc} {place : Nat} (hs : MemorySafe s) : MemorySafe (storePlace s l place) :=
  setPoison_safe hs

theorem bufferStore_safe {l : TileLoc} {k : Tok} (hs : MemorySafe s) : MemorySafe (bufferStore s l k) := by
  unfold bufferStore
  exact modPot_safe (storePlace_safe hs)

theorem bufferPop_safe {l : TileLoc} (hs : MemorySafe s) : SomeSafe (fun r => MemorySafe r.2) (bufferPop s l) := by
  unfold bufferPop
  refine option_map_any ?_
  intro _
  split
  exact ite_snd_safe (noteStageCir_safe (modPot_safe hs)) (modPot_safe hs)

theorem pushSource_safe {l : TileLoc} {k : Tok} (hs : MemorySafe s) : MemorySafe (pushSource s l k) := by
  unfold pushSource
  exact modTile_safe (bufferStore_safe hs)

theorem portFeed_safe {l : TileLoc} (hs : MemorySafe s) : SomeSafe (fun r => MemorySafe r.2) (portFeed s l) := by
  cases he : portFeed s l with
  | none => trivial
  | some r =>
    obtain ⟨⟨n, p⟩, _, hp⟩ := List.exists_of_findSome?_eq_some he
    dsimp only at hp
    split at hp
    · split at hp
      · cases hp
        exact retrySources_safe (setPort_safe hs)
      · cases hp
    · cases hp

theorem execStreamBufferPush_safe {l : TileLoc} (hs : MemorySafe s) : NextSafe (execStreamBufferPush l s) := by
  unfold execStreamBufferPush
  dsimp only
  split
  · refine ite_next hs (ite_next ?_ ?_)
    · refine ite_next hs ?_
      split
      next hg => exact noteFiring_safe (pushSource_safe ((portFeed_safe hs).some hg))
      · exact hs
    · split
      · exact hs
      · exact noteFiring_safe (bufferStore_safe (localTake_safe hs))
  · exact hs

theorem saveStream_safe {l : TileLoc} {k : Tok} (hs : MemorySafe s) : MemorySafe (saveStream s l k) := by
  unfold saveStream
  exact modTile_safe (saveElement_safe hs)

theorem egressPop_safe {l : TileLoc} (hs : MemorySafe s) : SomeSafe (fun r => MemorySafe r.2) (egressPop s l) := by
  unfold egressPop
  split
  next he => exact ite_some ((bufferPop_safe hs).some he) trivial
  · trivial

theorem egressHold_safe {l : TileLoc} {k : Tok} (hs : MemorySafe s) : MemorySafe (egressHold s l k) := by
  unfold egressHold
  exact chargeCredit_safe (ite_safe (saveStream_safe (ite_safe (modTile_safe hs) hs)) (ite_safe (modTile_safe hs) hs))

theorem egressTake_safe {l : TileLoc} (hs : MemorySafe s) : SomeSafe (fun r => MemorySafe r.2) (egressTake s l) := by
  unfold egressTake
  split
  · trivial
  next he =>
    have ht := (egressPop_safe hs).some he
    extract_lets decided
    have hd : ∀ s other, MemorySafe s → MemorySafe (decided s other).2 := by
      intro _ _ hs
      unfold decided
      extract_lets p behind
      split
      next hf =>
        extract_lets u v
        have hu : MemorySafe u := modPot_safe (safe_of_fst (sinkDecide_safe hs) hf)
        have hv : MemorySafe v := elim_safe hu fun _ => egressHold_safe hu
        clear_value u v
        exact ite_snd_safe hu (ite_snd_safe (egressHold_safe hv) hv)
    clear_value decided
    split
    · exact hd _ _ ht
    · exact egressHold_safe ht
    · trivial
    · split
      · trivial
      next hg =>
        have hp := (egressPop_safe ht).some hg
        exact ite_some (hd _ _ hp) (egressHold_safe (egressHold_safe (mismatch_safe hp)))

theorem portSend_safe {n : Nat} {p : StreamPort} {ctx : Nat} {k : Tok} (hs : MemorySafe s) :
    MemorySafe (portSend s n p ctx k) :=
  sendNumbered_safe hs

theorem egressToPort_safe {l : TileLoc} (hs : MemorySafe s) : MemorySafe (egressToPort s l) := by
  unfold egressToPort
  split
  · exact hs
  · refine ite_safe hs ?_
    split
    · exact hs
    next hf => exact (egressTake_safe hs).some hf
    next hf => exact portSend_safe ((egressTake_safe hs).some hf)

theorem wakeInject_safe {l : TileLoc} (hs : MemorySafe s) : MemorySafe (wakeInject s l) := by
  unfold wakeInject
  split
  next he => exact wakeWhere_safe hs
  · exact hs

theorem execStreamBufferPop_safe {l : TileLoc} (hs : MemorySafe s) : NextSafe (execStreamBufferPop l s) := by
  unfold execStreamBufferPop
  extract_lets t
  split
  · refine ite_next ?_ (ite_next hs ?_)
    · split
      next he => exact egressHold_safe ((egressPop_safe hs).some he)
      · exact egressToPort_safe hs
    · split
      · exact ite_next (notePressed_safe hs) (noteFiring_safe
          (stopAfterMark_safe (sourcePush_safe (saveStream_safe hs))))
      · split
        · exact hs
        next he =>
          refine ite_next (notePressed_safe hs) ?_
          extract_lets u v w
          have hu : MemorySafe u := modTile_safe ((bufferPop_safe hs).some he)
          have hv : MemorySafe v := ite_safe (saveStream_safe hu) hu
          have hw : MemorySafe w := chargeCredit_safe (sourcePush_safe hv)
          clear_value w
          exact noteFiring_safe (ite_safe (wakeInject_safe hw) hw)
  · exact hs

theorem applyRecords_safe {l : TileLoc} {bank lo nb : Nat} {rs : List UpdateRec} (hs : MemorySafe s) :
    MemorySafe (applyRecords l bank lo nb rs s).1 := by
  induction rs generalizing s with
  | nil => exact hs
  | cons r rs ih =>
    unfold applyRecords
    split
    · exact ih hs
    · split
      · exact ih (modPot_safe hs)
      · exact ih (potStore_safe hs)

theorem potJoin_safe {l : TileLoc} (hs : MemorySafe s) : ErrSafe (potJoin s l) := by
  unfold potJoin
  refine ite_err hs ?_
  split
  · exact ite_safe (noteStarved_safe hs) hs
  · refine foldl_safe ?_ (noteFiring_safe hs)
    intro _ _ ht
    split
    · exact noteDrop_safe (localTake_safe ht)
    · exact ht
  · trivial

theorem potTakes_safe {l : TileLoc} {ks : List (Nat × Tok)} (hs : MemorySafe s) : MemorySafe (potTakes s l ks) := by
  unfold potTakes
  refine foldl_safe ?_ hs
  intro _ _ ht
  split
  exact localTake_safe ht

theorem dataPush_safe {l : TileLoc} {k : Tok} (hs : MemorySafe s) : MemorySafe (dataPush s l k) := by
  unfold dataPush
  exact foldl_safe (fun _ _ ht => chainPush_safe ht) hs

theorem potMark_safe {l : TileLoc} {k : Tok} (hs : MemorySafe s) : MemorySafe (potMark s l k) := by
  unfold potMark
  exact ite_safe hs (modTile_safe (saveElement_safe hs))

theorem potSeven_safe {l : TileLoc} (hs : MemorySafe s) : SomeSafe MemorySafe (potSeven s l) := by
  unfold potSeven
  split
  · trivial
  · refine ite_some trivial ?_
    extract_lets t u
    have ht : MemorySafe t := potMark_safe (noteFiring_safe (localTake_safe hs))
    have hu : MemorySafe u := ite_safe (modTile_safe ht) ht
    exact chargeCredit_safe (sourcePush_safe hu)

theorem sevenPressed_safe {l : TileLoc} (hs : MemorySafe s) : MemorySafe (sevenPressed s l) := by
  unfold sevenPressed
  exact ite_safe (notePressed_safe hs) hs

theorem potForward_safe {l : TileLoc} {k : Tok} (hs : MemorySafe s) : MemorySafe (potForward s l k) := by
  unfold potForward
  exact chargeCredit_safe (dataPush_safe (ite_safe (modTile_safe (potMark_safe (ite_safe (noteStageCir_safe hs) hs)))
    (potMark_safe (ite_safe (noteStageCir_safe hs) hs))))

theorem updateToken_safe {l : TileLoc} {bank lo nb : Nat} {k : Tok} (hs : MemorySafe s) :
    MemorySafe (updateToken s l bank lo nb k).1 := by
  unfold updateToken
  split
  next he =>
    exact ite_safe (noteStageCir_safe (safe_of_fst (applyRecords_safe hs) he)) (safe_of_fst (applyRecords_safe hs) he)

theorem updateTokens_safe {l : TileLoc} {bank lo nb : Nat} {ks : List Tok} (hs : MemorySafe s) :
    MemorySafe (updateTokens l bank lo nb ks s).1 := by
  induction ks generalizing s with
  | nil => exact hs
  | cons k ks ih => exact ih (updateToken_safe hs)

theorem execAtomicPipelineUpdate_safe {l : TileLoc} (hs : MemorySafe s) :
    NextSafe (execAtomicPipelineUpdate l s) := by
  unfold execAtomicPipelineUpdate
  dsimp only
  split
  · refine ite_next hs ?_
    split
    · exact ite_next (notePressed_safe hs) (dataPush_safe (modPot_safe (noteFiring_safe hs)))
    · split
      next he => exact (potSeven_safe hs).some he
      · have ht : MemorySafe (sevenPressed s l) := sevenPressed_safe hs
        generalize sevenPressed s l = t at ht
        split
        next he => exact (potJoin_safe ht).error he
        · split
          · exact ht
          · refine ite_next (notePressed_safe ht) (ite_next (potForward_safe (noteFiring_safe (potTakes_safe ht))) ?_)
            refine elim_safe (modPot_safe (updateTokens_safe (noteFiring_safe (potTakes_safe ht)))) fun _ => ?_
            exact dataPush_safe (modPot_safe (updateTokens_safe (noteFiring_safe (potTakes_safe ht))))
  · exact hs

theorem mandolineStore_safe {k st d T : Nat} {l : TileLoc} {x : Tok} (hs : MemorySafe s) :
    MemorySafe (mandolineStore k st d T s l x) := by
  unfold mandolineStore
  exact modPot_safe (ite_safe (noteStageCir_safe (storePlace_safe hs)) (storePlace_safe hs))

theorem mandolinePad_safe {k st d T n : Nat} {l : TileLoc} (hs : MemorySafe s) :
    MemorySafe (mandolinePad k st d T l n s) := by
  induction n generalizing s with
  | zero => exact hs
  | succ n ih =>
    unfold mandolinePad
    exact ite_safe hs (ih (mandolineStore_safe hs))

theorem mandolineTake_safe {k st d T : Nat} {l : TileLoc} (hs : MemorySafe s) :
    MemorySafe (mandolineTake k st d T s l) := by
  unfold mandolineTake
  extract_lets p
  split
  next he => exact (potJoin_safe hs).error he
  · split
    · exact hs
    · refine ite_safe (ite_safe (foldl_safe (fun _ _ ht => mandolineStore_safe ht) (potTakes_safe hs)) hs) ?_
      refine ite_safe hs (ite_safe ?_ (modPot_safe (potTakes_safe hs)))
      extract_lets t u
      have ht : MemorySafe t := potTakes_safe hs
      have hu : MemorySafe u := ite_safe (noteStageCir_safe ht) ht
      exact modPot_safe (mandolinePad_safe hu)

theorem execMandolineWindow_safe {l : TileLoc} (hs : MemorySafe s) : NextSafe (execMandolineWindow l s) := by
  unfold execMandolineWindow
  split
  · refine ite_next hs ?_
    split
    next he => exact (potSeven_safe hs).some he
    · extract_lets t u
      have ht : MemorySafe t := sevenPressed_safe hs
      have hu : MemorySafe u := mandolineTake_safe ht
      clear_value t u
      split
      · split
        · exact noteFiring_safe hu
        · exact hu
      · refine ite_next (notePressed_safe ht) ?_
        exact ite_safe (dataPush_safe (noteFiring_safe (modPot_safe hu)))
          (potForward_safe (noteFiring_safe (modPot_safe hu)))
  · exact hs

/-! ## Machine/Nodes -/

theorem modNode_safe {l : TileLoc} {i : Nat} {f : NodeSt → NodeSt} (hs : MemorySafe s) :
    MemorySafe (modNode s l i f) :=
  modTile_safe hs

theorem ctlTake_safe {l : TileLoc} (hs : MemorySafe s) : MemorySafe (ctlTake s l) := by
  unfold ctlTake
  split
  · exact inputTake_safe hs
  · exact hs

theorem permitChild_safe {l : TileLoc} {i j c : Nat} (hs : MemorySafe s) : MemorySafe (permitChild s l i j c) := by
  unfold permitChild
  split
  · exact postCtl_safe (modNode_safe hs)
  · exact chainPush_safe (modNode_safe hs)
  · exact modNode_safe hs

theorem doneParent_safe {l : TileLoc} {i c : Nat} (hs : MemorySafe s) : MemorySafe (doneParent s l i c) := by
  unfold doneParent
  refine ite_safe hs ?_
  dsimp only
  split
  · exact hs
  · refine ite_safe ?_ (sendDone_safe hs)
    split
    · exact postCtl_safe hs
    · exact hs

theorem issueIteration_safe {l : TileLoc} {i : Nat} {n : NodeCfg} {t : Nat} (hs : MemorySafe s) :
    MemorySafe (issueIteration s l i n t) := by
  unfold issueIteration
  exact foldl_safe (fun _ _ ht => permitChild_safe ht) hs

theorem admitOne_safe {l : TileLoc} {i : Nat} {n : NodeCfg} (hs : MemorySafe s) : MemorySafe (admitOne s l i n) := by
  unfold admitOne
  exact issueIteration_safe (modNode_safe hs)

theorem startLoop_safe {l : TileLoc} {i N : Nat} (hs : MemorySafe s) : MemorySafe (startLoop s l i N) := by
  unfold startLoop
  exact ite_safe (doneParent_safe (modNode_safe hs)) (modNode_safe (modNode_safe hs))

theorem nodeMark_safe {l : TileLoc} {k : Tok} (hs : MemorySafe s) : MemorySafe (nodeMark s l k) := by
  unfold nodeMark
  exact ite_safe hs (modTile_safe (saveElement_safe hs))

theorem passBound_safe {l : TileLoc} (hs : MemorySafe s) : SomeSafe MemorySafe (passBound s l) := by
  unfold passBound
  split
  · trivial
  · exact ite_some trivial (ite_some trivial (sourcePush_safe (nodeMark_safe (localTake_safe hs))))

theorem nodeStart_safe {l : TileLoc} {i : Nat} {n : NodeCfg} (hs : MemorySafe s) :
    SomeSafe (fun r => MemorySafe r.1) (nodeStart s l i n) := by
  unfold nodeStart
  refine ite_some (admitOne_safe hs) ?_
  split
  · exact permitChild_safe hs
  · refine ite_some trivial (ite_some (startLoop_safe hs) ?_)
    split
    · trivial
    · exact ite_some (startLoop_safe (localTake_safe hs)) trivial

theorem firstStart_safe {l : TileLoc} (hs : MemorySafe s) : SomeSafe MemorySafe (firstStart s l) := by
  unfold firstStart
  refine or_safe ?_ (passBound_safe hs)
  cases he : (nodeStarts s l).find? Prod.snd with
  | none => trivial
  | some r =>
    obtain ⟨⟨n, i⟩, _, hn⟩ := List.mem_filterMap.1 (List.mem_of_find?_eq_some he)
    exact (nodeStart_safe hs).some hn

theorem givePermit_safe {l : TileLoc} {i c : Nat} (hs : MemorySafe s) : MemorySafe (givePermit s l i c) := by
  unfold givePermit
  split
  · exact noteDrop_safe hs
  · exact ite_safe (modNode_safe hs) (modNode_safe hs)

theorem giveSelect_safe {l : TileLoc} {i : Nat} {b tag : Bool} (hs : MemorySafe s) :
    MemorySafe (giveSelect s l i b tag) := by
  unfold giveSelect
  split
  · exact ite_safe (modNode_safe hs) (noteDrop_safe hs)
  · exact noteDrop_safe hs

theorem sinkPermit_safe {l : TileLoc} (hs : MemorySafe s) : MemorySafe (sinkPermit s l) := by
  unfold sinkPermit
  split
  · exact hs
  · refine ite_safe (noteDrop_safe (ctlTake_safe hs)) ?_
    split
    · exact ite_safe hs (noteDrop_safe (ctlTake_safe hs))
    · exact ite_safe (noteDrop_safe (ctlTake_safe hs))
        (ite_safe (modTile_safe (ctlTake_safe hs)) (ite_safe (givePermit_safe (ctlTake_safe hs)) hs))
    · exact ite_safe (giveSelect_safe (ctlTake_safe hs)) (noteDrop_safe (ctlTake_safe hs))
    · exact noteDrop_safe (ctlTake_safe hs)

theorem execControllerPermit_safe {l : TileLoc} (hs : MemorySafe s) : NextSafe (execControllerPermit l s) := by
  unfold execControllerPermit
  refine ite_next hs ?_
  split
  next he => exact noteFiring_safe ((firstStart_safe hs).some he)
  · extract_lets t
    have ht : MemorySafe t := ite_safe hs (notePressed_safe hs)
    clear_value t
    split
    · exact givePermit_safe (modTile_safe ht)
    · exact sinkPermit_safe ht

theorem reportDone_safe {l : TileLoc} {i : Nat} {n : NodeCfg} (hs : MemorySafe s) :
    MemorySafe (reportDone s l i n) := by
  unfold reportDone
  exact doneParent_safe (modNode_safe hs)

theorem takeDone_safe {l : TileLoc} {i j c : Nat} (hs : MemorySafe s) : MemorySafe (takeDone s l i j c) := by
  unfold takeDone
  split
  · exact noteDrop_safe hs
  · refine ite_safe (noteDrop_safe hs) ?_
    split
    · exact ite_safe (permitChild_safe (modNode_safe hs)) (doneParent_safe (modNode_safe (modNode_safe hs)))
    · exact reportDone_safe (modNode_safe hs)
    · exact reportDone_safe (modNode_safe hs)
    · exact ite_safe (doneParent_safe (modNode_safe (modNode_safe hs))) (modNode_safe hs)

theorem sinkDone_safe {l : TileLoc} (hs : MemorySafe s) : MemorySafe (sinkDone s l) := by
  unfold sinkDone
  split
  · exact ite_safe (noteFiring_safe (takeDone_safe (ctlTake_safe hs))) (notePressed_safe hs)
  · exact noteDrop_safe (ctlTake_safe hs)
  · exact hs

theorem execControllerDone_safe {l : TileLoc} (hs : MemorySafe s) : NextSafe (execControllerDone l s) := by
  unfold execControllerDone
  refine ite_next hs ?_
  split
  · exact noteFiring_safe (reportDone_safe hs)
  · split
    · exact noteFiring_safe (takeDone_safe (modTile_safe hs))
    · exact sinkDone_safe (ite_safe (notePressed_safe hs) hs)

theorem noteTainted_safe {l : TileLoc} {k : Tok} (hs : MemorySafe s) : MemorySafe (noteTainted s l k) := by
  unfold noteTainted
  exact ite_safe (noteCir_safe hs) hs

theorem nodeEmit_safe {l : TileLoc} {i v : Nat} {k : Tok} (hs : MemorySafe s) : MemorySafe (nodeEmit s l i v k) := by
  unfold nodeEmit
  exact ite_safe (doneParent_safe (modNode_safe (sourcePush_safe (noteFiring_safe hs))))
    (sourcePush_safe (noteFiring_safe hs))

theorem execSteer_safe {l : TileLoc} {node : Nat} (hs : MemorySafe s) : NextSafe (execSteer l node s) := by
  unfold execSteer
  split
  · exact hs
  · split
    · exact ite_next (notePressed_safe hs) (nodeEmit_safe
        (nodeMark_safe (noteTainted_safe (modNode_safe (localTake_safe hs)))))
    · exact noteStarved_safe hs
    · exact noteStarved_safe hs
    · exact hs

theorem execMerge_safe {l : TileLoc} {node : Nat} (hs : MemorySafe s) : NextSafe (execMerge l node s) := by
  unfold execMerge
  split
  · exact hs
  · split
    · exact ite_safe (noteStarved_safe hs) hs
    · dsimp only
      split
      · exact noteStarved_safe hs
      · exact ite_next (notePressed_safe hs) (nodeEmit_safe
          (nodeMark_safe (noteTainted_safe (modNode_safe (localTake_safe hs)))))

theorem execLoopCarry_safe {l : TileLoc} {node : Nat} (hs : MemorySafe s) : NextSafe (execLoopCarry l node s) := by
  unfold execLoopCarry
  split
  · exact hs
  · refine ite_next ?_ ?_
    · split
      · exact hs
      · refine ite_next (ite_next hs (ite_next (notePressed_safe hs) (ite_next (notePressed_safe hs) ?_)))
          (ite_next hs (ite_next (notePressed_safe hs) ?_))
        · exact sourcePush_safe (sourcePush_safe (noteFiring_safe (nodeMark_safe (localTake_safe hs))))
        · exact sourcePush_safe (noteFiring_safe (modNode_safe (noteTainted_safe (localTake_safe hs))))
    · split
      · exact hs
      · refine ite_next (notePressed_safe hs) (doneParent_safe (sourcePush_safe (nodeMark_safe ?_)))
        exact modNode_safe (noteFiring_safe (noteTainted_safe (localTake_safe hs)))

theorem permitRoots_safe {l : TileLoc} (hs : MemorySafe s) : MemorySafe (permitRoots s l) := by
  unfold permitRoots
  exact foldl_safe (fun _ _ ht => postCtl_safe ht) hs

/-! ## Machine/Edges -/

theorem modEdge_safe {l : TileLoc} {f : EdgeSt → EdgeSt} (hs : MemorySafe s) : MemorySafe (modEdge s l f) := by
  unfold modEdge
  refine ite_safe ?_ (modTile_safe hs)
  split
  · exact setPort_safe hs
  · exact hs

theorem edgeEmit_safe {l : TileLoc} {k : Tok} (hs : MemorySafe s) : MemorySafe (edgeEmit s l k) := by
  unfold edgeEmit
  refine ite_safe ?_ (noteFiring_safe (edgePush_safe hs))
  split
  · exact portSend_safe hs
  · exact hs

theorem edgeTake_safe {l : TileLoc} (hs : MemorySafe s) : MemorySafe (edgeTake s l) := by
  unfold edgeTake
  refine ite_safe ?_ ?_
  · split
    · exact retrySources_safe (setPort_safe hs)
    · exact hs
  · split
    next he => exact (portTake_safe hs).some he
    · exact hs

theorem noteEdgeCir_safe {l : TileLoc} {i : Nat} (hs : MemorySafe s) : MemorySafe (noteEdgeCir s l i) := by
  unfold noteEdgeCir
  exact ite_safe (modCtx_safe hs) (noteCir_safe hs)

theorem takeEngine_safe {l : TileLoc} {rim lo : Nat} (hs : MemorySafe s) :
    SomeSafe MemorySafe (takeEngine s l rim lo) := by
  unfold takeEngine
  exact ite_some hs (option_map_any (fun _ => modEdge_safe (modRim_safe hs)))

theorem leaveRims_safe {l : TileLoc} (hs : MemorySafe s) : MemorySafe (leaveRims s l) := by
  unfold leaveRims
  exact modEdge_safe (rimRoom_safe (modRim_safe (modRim_safe hs)))

theorem startWalk_safe {l : TileLoc} {ctx : Nat} {user : Bool} {acc : Access} {va : Nat} (hs : MemorySafe s) :
    MemorySafe (startWalk s l ctx user acc va) := by
  unfold startWalk
  split
  · exact modRim_safe hs
  · exact hs

theorem prepareRound_safe {l : TileLoc} {acc : Access} {vas : List Nat} (hs : MemorySafe s) :
    MemorySafe (prepareRound s l acc vas).2 := by
  unfold prepareRound
  split
  · refine ite_snd_safe ?_ ?_
    · exact foldl_safe (fun _ _ ht => startWalk_safe ht) hs
    · split <;> exact foldl_safe (fun _ _ ht => startWalk_safe ht) hs

theorem voidRound_safe {l : TileLoc} {acc : Access} {va : Nat} {r : WalkResult} (hs : MemorySafe s) :
    MemorySafe (voidRound s l acc va r) := by
  unfold voidRound
  refine ite_safe hs ?_
  exact modEdge_safe (modRim_safe (modRim_safe (fqWrite_safe hs)))

theorem edgePa_safe {l : TileLoc} {acc : Access} {va : Nat} (hs : MemorySafe s) :
    SomeSafe (fun r => MemorySafe r.2.2) (edgePa s l acc va) := by
  unfold edgePa
  split
  · split
    next hf => exact safe_of_snd_snd (translate_safe hs) hf
    · trivial

theorem readLanes_safe {l : TileLoc} {width fill : Nat} {vas : List (Option Nat)} (hs : MemorySafe s) :
    MemorySafe (readLanes l width fill vas s).2.2.2 := by
  induction vas generalizing s with
  | nil => exact hs
  | cons va r ih =>
    cases va with
    | none => exact ih hs
    | some va =>
      unfold readLanes
      split
      · exact hs
      next he =>
        have hp := (edgePa_safe hs).some he
        split
        · exact hp
        · exact ih hp

theorem readItems_safe {l : TileLoc} {ty fill : Nat} {xs : List Item} (hs : MemorySafe s) :
    MemorySafe (readItems l ty fill xs s).state := by
  induction xs generalizing s with
  | nil => exact hs
  | cons x r ih =>
    cases x with
    | tok k => exact ih hs
    | data vas tag =>
      unfold readItems
      dsimp only
      split
      · exact readLanes_safe hs
      · exact ih (readLanes_safe hs)

theorem dropReads_safe {l : TileLoc} {keep : Bool} (hs : MemorySafe s) : MemorySafe (dropReads s l keep) := by
  unfold dropReads
  exact rimRoom_safe (modRim_safe (modRim_safe hs))

theorem deferRead_safe {l : TileLoc} {va pa : Nat} (hs : MemorySafe s) : MemorySafe (deferRead s l va pa) := by
  unfold deferRead
  exact modRim_safe (dropReads_safe hs)

theorem sendOperands_safe {l : TileLoc} {ks : List Tok} (hs : MemorySafe s) : MemorySafe (sendOperands s l ks) := by
  unfold sendOperands
  exact ite_safe (modEdge_safe hs) (modEdge_safe (modCore_safe (fun _ hk => hk) hs))

theorem readPart_safe {l : TileLoc} {c : EdgeCfg} (hs : MemorySafe s) : MemorySafe (readPart s l c) := by
  unfold readPart
  dsimp only
  split
  · split
    · exact deferRead_safe (readItems_safe hs)
    · exact modEdge_safe (readItems_safe hs)
    · exact readItems_safe hs
  · refine sendOperands_safe ?_
    refine modEdge_safe ?_
    refine dropReads_safe ?_
    refine ite_safe ?_ ?_
    · refine noteEdgeCir_safe ?_
      split <;> exact readItems_safe hs
    · split <;> exact readItems_safe hs

theorem emitPending_safe {l : TileLoc} {c : EdgeCfg} {k : Tok} (hs : MemorySafe s) :
    MemorySafe (emitPending s l c k) := by
  unfold emitPending
  exact ite_safe (ite_safe hs (notePressed_safe hs))
    (ite_safe (leaveRims_safe (modEdge_safe (edgeEmit_safe hs))) (modEdge_safe (edgeEmit_safe hs)))

theorem beginRound_safe {l : TileLoc} {c : EdgeCfg} {lo : Nat} (hs : MemorySafe s) :
    MemorySafe (beginRound s l c lo) := by
  unfold beginRound
  split
  · split
    · exact hs
    next hf =>
      refine ite_safe ((takeEngine_safe hs).some hf) ?_
      split
      next hg => exact safe_of_snd (prepareRound_safe ((takeEngine_safe hs).some hf)) hg
      next hg => exact voidRound_safe (safe_of_snd (prepareRound_safe ((takeEngine_safe hs).some hf)) hg)
      next hg =>
        exact readPart_safe (modEdge_safe (safe_of_snd (prepareRound_safe ((takeEngine_safe hs).some hf)) hg))

theorem readStep_safe {l : TileLoc} {c : EdgeCfg} {lo : Nat} (hs : MemorySafe s) :
    MemorySafe (readStep s l c lo) := by
  unfold readStep
  refine ite_safe hs ?_
  split
  · exact emitPending_safe hs
  · exact ite_safe (readPart_safe hs) (beginRound_safe hs)

theorem edgeMark_safe {l : TileLoc} {m : Nat} (hs : MemorySafe s) : MemorySafe (edgeMark s l m) := by
  unfold edgeMark
  exact ite_safe (notePressed_safe hs) (stopAfterMark_safe (modTile_safe (edgeEmit_safe (saveElement_safe hs))))

theorem execSpoutReadRound_safe {l : TileLoc} (hs : MemorySafe s) : NextSafe (execSpoutReadRound l s) := by
  unfold execSpoutReadRound
  split
  · refine ite_next hs (ite_next hs ?_)
    split
    · exact edgeMark_safe hs
    · exact readStep_safe hs
  · exact hs

theorem execSpoutReinject_safe {l : TileLoc} (hs : MemorySafe s) : NextSafe (execSpoutReinject l s) := by
  unfold execSpoutReinject
  split
  · dsimp only
    split
    · refine ite_next ?_ ?_
      · refine modEdge_safe ?_
        refine edgeEmit_safe ?_
        split
        · exact modEdge_safe hs
        · exact hs
      · refine ite_safe ?_ ?_
        · split
          · exact modEdge_safe hs
          · exact hs
        · refine notePressed_safe ?_
          split
          · exact modEdge_safe hs
          · exact hs
    · split
      · exact modEdge_safe hs
      · exact hs
  · exact hs

theorem execIndirectGather_safe {l : TileLoc} (hs : MemorySafe s) : NextSafe (execIndirectGather l s) := by
  unfold execIndirectGather
  split
  · refine ite_next hs (ite_next (ite_next (modEdge_safe hs) (readStep_safe hs)) ?_)
    split
    · exact hs
    · refine ite_next ?_ (ite_next (notePressed_safe hs) ?_)
      · exact modEdge_safe (ite_safe (noteEdgeCir_safe (edgeTake_safe hs)) (edgeTake_safe hs))
      · extract_lets t e u v w
        have ht : MemorySafe t := edgeTake_safe hs
        have hu : MemorySafe u := ite_safe (modTile_safe (saveElement_safe ht)) ht
        have hw : MemorySafe w := modEdge_safe (edgeEmit_safe hu)
        clear_value w
        exact ite_safe (leaveRims_safe hw) hw
  · exact hs

theorem writeRun_safe {l : TileLoc} {id : Nat} {run : Nat × List Byte} (hs : MemorySafe s) :
    MemorySafe (writeRun l id s run) := by
  unfold writeRun
  split
  · exact hs
  next he => exact watchEngine_safe (writeMem_safe ((edgePa_safe hs).some he))

theorem coverLanes_safe {l : TileLoc} {width : Nat} {lanes : List (Option Nat)} (hs : MemorySafe s) :
    MemorySafe (coverLanes l width lanes s) := by
  unfold coverLanes
  exact foldl_safe (fun _ _ ht => fillPresent_safe ht) (fields_safe hs)

theorem writeToken_safe {l : TileLoc} {id ty : Nat} {k : List (Option Nat) × Vec512} (hs : MemorySafe s) :
    MemorySafe (writeToken l id ty s k) := by
  unfold writeToken
  exact coverLanes_safe (foldl_safe (fun _ _ ht => writeRun_safe ht) hs)

theorem raiseAcks_safe {l : TileLoc} {n : Nat} (hs : MemorySafe s) : MemorySafe (raiseAcks s l n) := by
  unfold raiseAcks
  refine ite_safe hs ?_
  split
  · exact hs
  · dsimp only
    split
    · exact setLaunch_safe (modCore_safe (fun _ hk => hk) hs)
    · exact modCore_safe (fun _ hk => hk) hs

theorem commitRound_safe {l : TileLoc} {ty base : Nat} {ds : List Dim} (hs : MemorySafe s) :
    MemorySafe (commitRound s l ty base ds) := by
  unfold commitRound
  split
  · exact hs
  next he =>
    dsimp only
    split
    next hf => exact safe_of_snd (prepareRound_safe ((takeEngine_safe hs).some he)) hf
    next hf => exact voidRound_safe (safe_of_snd (prepareRound_safe ((takeEngine_safe hs).some he)) hf)
    next hf =>
      exact raiseAcks_safe (modEdge_safe (foldl_safe (fun _ _ ht => writeToken_safe ht)
        (safe_of_snd (prepareRound_safe ((takeEngine_safe hs).some he)) hf)))

theorem writeTake_safe {l : TileLoc} {ty : Nat} {ds : List Dim} {k : Tok} (hs : MemorySafe s) :
    MemorySafe (writeTake s l ty ds k) := by
  unfold writeTake
  split
  · exact modEdge_safe hs
  · exact ite_safe hs (noteEdgeCir_safe hs)
  · exact ite_safe hs (modTile_safe (saveElement_safe hs))
  · exact ite_safe (leaveRims_safe (modEdge_safe hs)) hs
  · exact hs

theorem writePass_safe {l : TileLoc} {ty : Nat} {ds : List Dim} {k : Tok} (hs : MemorySafe s) :
    MemorySafe (writePass s l ty ds k) := by
  unfold writePass
  exact ite_safe hs (writeTake_safe hs)

theorem writeSink_safe {l : TileLoc} {ty : Nat} {ds : List Dim} {k : Tok} {other : Option (TileLoc × Tok)}
    (hs : MemorySafe s) :
    MemorySafe (writeSink s l ty ds k other) := by
  unfold writeSink
  refine ite_safe (writeTake_safe (ite_safe (noteEdgeCir_safe hs) hs)) ?_
  dsimp only
  split
  · exact modEdge_safe (sinkDecide_safe hs)
  · exact writeTake_safe (elim_safe (modEdge_safe (sinkDecide_safe hs))
      (fun _ => writePass_safe (modEdge_safe (sinkDecide_safe hs))))

theorem writeFire_safe {l : TileLoc} (hs : MemorySafe s) : MemorySafe (writeFire s l) := by
  unfold writeFire
  exact ite_safe (edgeTake_safe hs) (noteFiring_safe (edgeTake_safe hs))

theorem writeNext_safe {l : TileLoc} {ty round : Nat} {ds : List Dim} (hs : MemorySafe s) :
    MemorySafe (writeNext s l ty round ds) := by
  unfold writeNext
  split
  · exact hs
  · refine ite_safe hs ?_
    split
    · exact writeSink_safe (writeFire_safe hs)
    · exact writePass_safe (writeFire_safe hs)
    · exact hs
    · split
      · exact hs
      · exact ite_safe (writePass_safe (writePass_safe (mismatch_safe (writeFire_safe (writeFire_safe hs)))))
          (writeSink_safe (writeFire_safe (writeFire_safe hs)))

theorem writeSwap_safe {l : TileLoc} {round : Nat} (hs : MemorySafe s) : MemorySafe (writeSwap s l round) := by
  unfold writeSwap
  exact ite_safe (modEdge_safe hs) hs

theorem execSpoutWriteRound_safe {l : TileLoc} (hs : MemorySafe s) : NextSafe (execSpoutWriteRound l s) := by
  unfold execSpoutWriteRound
  split
  · exact ite_next hs (writeSwap_safe (writeNext_safe (ite_safe (commitRound_safe hs) hs)))
  · exact hs

theorem networkSend_safe {l p : TileLoc} {vc : Nat} (hs : MemorySafe s) : MemorySafe (networkSend s l p vc) := by
  unfold networkSend
  split
  · exact hs
  · refine ite_safe (pressBound_safe (notePressed_safe hs)) ?_
    split
    · exact hs
    next hf => exact noteFiring_safe (modEdge_safe (modTile_safe ((portTake_safe hs).some hf)))

theorem networkReceive_safe {l p : TileLoc} {vc : Nat} (hs : MemorySafe s) :
    MemorySafe (networkReceive s l p vc) := by
  unfold networkReceive
  split
  · exact hs
  · exact ite_safe hs (ite_safe (notePressed_safe hs)
      (noteFiring_safe (modTile_safe (modTile_safe (edgePush_safe hs)))))

theorem execNetworkPortTransfer_safe {l : TileLoc} (hs : MemorySafe s) : NextSafe (execNetworkPortTransfer l s) := by
  unfold execNetworkPortTransfer
  split
  · exact ite_next hs (ite_safe (networkSend_safe hs) (networkReceive_safe hs))
  · exact hs

theorem execTranslationWalk_safe {rim n : Nat} (hs : MemorySafe s) : NextSafe (execTranslationWalk rim n s) :=
  endWalk_safe hs

theorem noteTier_safe {err : TierError} (hs : MemorySafe s) : MemorySafe (noteTier s err) := by
  unfold noteTier
  split
  · exact hs
  · exact modRim_safe hs
  · exact ite_safe (fields_safe hs) hs

theorem execMemoryReply_safe {core : Nat} {reply : ReplyRead} (hs : MemorySafe s) :
    NextSafe (execMemoryReply core reply s) := by
  unfold execMemoryReply
  dsimp only
  split
  · exact noteTier_safe hs
  · refine ite_next (modCore_safe (fun _ hk => hk) (modCore_safe (fun _ hk => hk) (noteTier_safe hs))) ?_
    split
    · exact modTile_safe (modCore_safe (fun _ hk => hk) (noteTier_safe hs))
    · split
      · exact setLaunch_safe (modCore_safe (fun _ hk => hk) (noteTier_safe hs))
      · exact modCore_safe (fun _ hk => hk) (noteTier_safe hs)

/-! ## Machine/Graphs -/

theorem freeGraph_safe {cl h : Nat} {x : Handle} (hs : MemorySafe s) : MemorySafe (freeGraph s cl h x) := by
  unfold freeGraph
  exact foldl_safe (fun _ _ ht => graphDropped_safe ht) (modCluster_safe (completeReports_safe hs))

theorem preloadPlaces_safe {l : TileLoc} {k : TileKind} (hs : MemorySafe s) : MemorySafe (preloadPlaces s l k) := by
  unfold preloadPlaces
  split
  · exact modCore_safe (fun _ hk => hk) hs
  · exact hs

theorem potActivate_safe {l : TileLoc} {k : TileKind} (hs : MemorySafe s) : MemorySafe (potActivate s l k) := by
  unfold potActivate
  split
  · exact ite_safe (modCore_safe (fun _ hk => hk) hs)
      (foldl_safe (fun _ _ ht => fill_safe ht) (modCore_safe (fun _ hk => hk) hs))
  · exact preloadPlaces_safe hs

theorem swapTile_safe {l : TileLoc} (hs : MemorySafe s) : MemorySafe (swapTile s l) := by
  unfold swapTile
  split
  · exact hs
  · extract_lets t e u v w
    have ht : MemorySafe t := ite_safe (leaveRims_safe hs) hs
    have hv : MemorySafe v := potActivate_safe (modTile_safe ht)
    have hw : MemorySafe w := ite_safe (wakeInject_safe hv) hv
    clear_value w
    exact ite_safe (permitRoots_safe hw) hw

theorem settleGraph_safe {cl h : Nat} (hs : MemorySafe s) : MemorySafe (settleGraph s cl h) := by
  unfold settleGraph
  split
  · exact hs
  · exact ite_safe (setHandle_safe hs) hs

theorem emptyLinks_safe {l : TileLoc} {count : Bool} (hs : MemorySafe s) : MemorySafe (emptyLinks s l count) := by
  unfold emptyLinks
  exact ite_safe (noteCir_safe (modCore_safe (fun _ hk => hk) (modTile_safe hs))) (modTile_safe hs)

theorem armGraph_safe {cl h : Nat} (hs : MemorySafe s) : MemorySafe (armGraph s cl h) := by
  unfold armGraph
  split
  · exact hs
  · refine settleGraph_safe ?_
    refine foldl_safe ?_ (setHandle_safe hs)
    intro _ _ ht
    split
    · exact ite_safe ht (ite_safe (swapTile_safe ht) (modTile_safe ht))
    · exact ht

theorem dropShadows_safe {h : Nat} {x : Handle} (hs : MemorySafe s) : MemorySafe (dropShadows s h x) := by
  unfold dropShadows
  refine foldl_safe ?_ hs
  intro _ _ ht
  split
  · exact ite_safe (modTile_safe ht) ht
  · exact ht

theorem idleTile_safe {l : TileLoc} (hs : MemorySafe s) : MemorySafe (idleTile s l) := by
  unfold idleTile
  exact modTile_safe (emptyLinks_safe (ite_safe (leaveRims_safe hs) hs))

theorem idleGraph_safe {h : Nat} {x : Handle} (hs : MemorySafe s) : MemorySafe (idleGraph s h x) := by
  unfold idleGraph
  refine foldl_safe ?_ hs
  intro _ _ ht
  split
  · exact ite_safe (idleTile_safe ht) ht
  · exact ht

theorem restartGraph_safe {h : Nat} {x : Handle} (hs : MemorySafe s) : MemorySafe (restartGraph s h x) := by
  unfold restartGraph
  refine foldl_safe ?_ (foldl_safe (fun _ _ ht => emptyLinks_safe ht) hs)
  intro _ _ ht
  split
  · exact modTile_safe (preloadPlaces_safe (ite_safe (leaveRims_safe ht) ht))
  · exact ht

theorem launchThreads_safe {cl : Nat} {x : Handle} {v : Launch} {g1 : Word} {n : Nat} (hs : MemorySafe s) :
    MemorySafe (launchThreads cl x v g1 n s) := by
  induction n with
  | zero => exact hs
  | succ n ih =>
    unfold launchThreads
    dsimp only
    split
    next he => exact (createThread_safe ih).some he
    · exact ih

theorem startSources_safe {cl h : Nat} (hs : MemorySafe s) : MemorySafe (startSources s cl h) := by
  unfold startSources
  split
  next he _ =>
    refine wakeWhere_safe ?_
    refine launchThreads_safe ?_
    refine foldl_safe ?_ (setLaunch_safe hs)
    intro _ _ ht
    split
    · exact ite_safe (modTile_safe ht) ht
    · exact ht
  · exact hs

/-! ## Machine/Rates -/

theorem exchangeAll_safe {cl : Nat} (hs : MemorySafe s) : MemorySafe (exchangeAll s cl) := by
  unfold exchangeAll
  refine tmap_cores_safe (fun _ _ hk => ?_) hs
  split
  · exact hk
  · exact hk

theorem setIslands_safe {t : Tbl (Frac × Nat)} (hs : MemorySafe s) : MemorySafe (setIslands s t) := by
  unfold setIslands
  refine foldl_safe ?_ hs
  intro _ _ ht
  split
  exact modCore_safe (fun _ hk => hk) ht

theorem strobe_safe {cl : Nat} {t : Tbl (Frac × Nat)} (hs : MemorySafe s) : MemorySafe (strobe s cl t) := by
  unfold strobe
  exact exchangeAll_safe (setIslands_safe hs)

theorem newSolution_safe {cl h : Nat} {x : Handle} {v : Option Solution} (hs : MemorySafe s) :
    MemorySafe (newSolution s cl h x v) :=
  setHandle_safe hs

theorem setDue_safe {cl : Nat} {hs : List Nat} {due : Bool} (hm : MemorySafe s) :
    MemorySafe (setDue s cl hs due) := by
  unfold setDue
  refine foldl_safe ?_ hm
  intro _ _ ht
  split
  · exact setHandle_safe ht
  · exact ht

theorem countStep_safe {cl : Nat} {hs : List Nat} (hm : MemorySafe s) : MemorySafe (countStep s cl hs) := by
  unfold countStep
  refine foldl_safe ?_ hm
  intro _ _ ht
  split
  · exact ite_safe (setHandle_safe ht) ht
  · exact ht

theorem applyStep_safe {cl : Nat} {st : RateStep} (hs : MemorySafe s) : MemorySafe (applyStep s cl st) := by
  unfold applyStep
  exact ite_safe (startSources_safe (countStep_safe (strobe_safe hs))) (countStep_safe (strobe_safe hs))

theorem beginStep_safe {cl h : Nat} {admission retried : Bool} (hs : MemorySafe s) :
    MemorySafe (beginStep s cl h admission retried) := by
  unfold beginStep
  refine ite_safe (applyStep_safe (setDue_safe hs)) ?_
  refine modCluster_safe ?_
  refine foldl_safe ?_ (setDue_safe hs)
  intro _ _ ht
  split
  exact modCore_safe (fun _ hk => hk) ht

theorem rateReport_safe {cl h : Nat} (hs : MemorySafe s) : MemorySafe (rateReport s cl h) := by
  unfold rateReport
  split
  · exact sendReport_safe hs
  · exact hs

theorem resolveNow_safe {cl h : Nat} {bumps : List Nat} {retried : Bool} (hs : MemorySafe s) :
    MemorySafe (resolveNow s cl h bumps retried) := by
  unfold resolveNow
  split
  · exact hs
  · extract_lets v t u solved
    have ht : MemorySafe t := setHandle_safe hs
    have hu : MemorySafe u := ite_safe (rateReport_safe ht) ht
    clear_value u
    exact ite_safe hu (beginStep_safe (newSolution_safe (newSolution_safe hu)))

theorem requestSolve_safe {cl h : Nat} {bumps : List Nat} {retried : Bool} (hs : MemorySafe s) :
    MemorySafe (requestSolve s cl h bumps retried) := by
  unfold requestSolve
  exact ite_safe hs (ite_safe (modCluster_safe hs) (resolveNow_safe hs))

theorem resolveWaiting_safe {cl : Nat} (hs : MemorySafe s) : MemorySafe (resolveWaiting s cl) := by
  unfold resolveWaiting
  split
  · exact hs
  · exact requestSolve_safe (modCluster_safe hs)

theorem graphChange_safe {cl h : Nat} (hs : MemorySafe s) : MemorySafe (graphChange s cl h) := by
  unfold graphChange
  split
  · exact hs
  · refine foldl_safe ?_ hs
    intro _ _ ht
    split
    exact ite_safe (requestSolve_safe ht) ht

theorem execRegulatorSettled_safe {cl : Nat} (hs : MemorySafe s) : NextSafe (execRegulatorSettled cl s) := by
  unfold execRegulatorSettled
  split
  · exact hs
  · exact resolveWaiting_safe (applyStep_safe (modCluster_safe hs))

theorem abandonStep_safe {cl : Nat} {retry : Bool} (hs : MemorySafe s) : MemorySafe (abandonStep s cl retry) := by
  unfold abandonStep
  split
  · exact hs
  · exact ite_safe (startSources_safe (setDue_safe (modCluster_safe hs))) (setDue_safe (modCluster_safe hs))

theorem execSettleTimeout_safe {cl : Nat} (hs : MemorySafe s) : NextSafe (execSettleTimeout cl s) := by
  unfold execSettleTimeout
  exact resolveWaiting_safe (abandonStep_safe hs)

theorem thermalWindow_safe {core : Nat} {temp : Int} (hs : MemorySafe s) :
    MemorySafe (thermalWindow s core temp) := by
  unfold thermalWindow
  extract_lets k t k'
  have ht : MemorySafe t := setCore_safe (core_pots_wf hs) hs
  have hk : k'.pots.wf = true := core_pots_wf ht
  clear_value t k'
  refine ite_safe ?_ (setCore_safe hk ht)
  refine ite_safe (setCore_safe hk ht) ?_
  split
  · exact ite_safe (strobe_safe (modCore_safe (fun _ hk => hk) (setCore_safe hk ht)))
      (modCore_safe (fun _ hk => hk) (setCore_safe hk ht))
  · exact modCore_safe (fun _ hk => hk) (setCore_safe hk ht)

theorem sieveWindow_safe {cl core h : Nat} (hs : MemorySafe s) : MemorySafe (sieveWindow s cl core h).1 := by
  unfold sieveWindow
  split
  · exact hs
  · refine foldl_fst_safe ?_ hs
    intro _ _ ht
    split
    · split
      · split
        · exact ht
        · split
          · split
            · exact ht
            · split
              · dsimp only
                split
                · exact setHandle_safe (modTile_safe ht)
                · exact modTile_safe ht
              · exact ht
          · exact ht

theorem latchWindow_safe {core : Nat} (hs : MemorySafe s) : MemorySafe (latchWindow s core) := by
  unfold latchWindow
  exact modCore_safe (fun _ hk => hk) hs

theorem execMonitorWindowEnd_safe {core : Nat} {temp : Int} (hs : MemorySafe s) :
    NextSafe (execMonitorWindowEnd core temp s) := by
  unfold execMonitorWindowEnd
  extract_lets cl t running found u v
  have hfound : MemorySafe found.1 := foldl_fst_safe (fun _ _ ht => sieveWindow_safe ht) (thermalWindow_safe hs)
  have hu : MemorySafe u := latchWindow_safe hfound
  have hv : MemorySafe v := by
    unfold v
    split
    · exact ite_safe (requestSolve_safe (modCluster_safe hu)) hu
    · exact hu
  clear_value v
  exact foldl_safe (fun _ _ ht => requestSolve_safe ht) hv

theorem shareBudget_safe (hs : MemorySafe s) : MemorySafe (shareBudget s) := by
  unfold shareBudget
  exact ite_safe hs (modCluster_safe (modCluster_safe hs))

theorem lowerAll_safe {cl : Nat} (hs : MemorySafe s) : MemorySafe (lowerAll s cl) := by
  unfold lowerAll
  refine strobe_safe ?_
  refine foldl_safe ?_ hs
  intro _ _ ht
  split
  exact modCore_safe (fun _ hk => hk) ht

theorem execTelemetrySample_safe {cl : Nat} {codes : List (Nat × Nat)} (hs : MemorySafe s) :
    NextSafe (execTelemetrySample cl codes s) := by
  unfold execTelemetrySample
  exact ite_safe (lowerAll_safe (modCluster_safe hs)) (modCluster_safe hs)

theorem droopCluster_safe {cl : Nat} (hs : MemorySafe s) : MemorySafe (droopCluster s cl) := by
  unfold droopCluster
  exact resolveWaiting_safe (exchangeAll_safe (setIslands_safe (abandonStep_safe hs)))

theorem setInput_safe {w : Word} (hs : MemorySafe s) : MemorySafe (setInput s w) := by
  unfold setInput
  exact ite_safe (fields_safe hs) (fireEvery_safe (fields_safe hs))

theorem noteInput_safe {input : BitVec 16} (hs : MemorySafe s) : MemorySafe (noteInput s input) := setInput_safe hs

theorem execDroop_safe {input : BitVec 16} (hs : MemorySafe s) : NextSafe (execDroop input s) := by
  unfold execDroop
  exact ite_next hs (ite_next (noteInput_safe hs)
    (droopCluster_safe (droopCluster_safe (fields_safe (noteInput_safe hs)))))

theorem resolveAll_safe {cl : Nat} (hs : MemorySafe s) : MemorySafe (resolveAll s cl) := by
  unfold resolveAll
  refine foldl_safe ?_ hs
  intro _ _ ht
  split
  exact requestSolve_safe ht

theorem execDroopRecovery_safe {input : BitVec 16} (hs : MemorySafe s) : NextSafe (execDroopRecovery input s) := by
  unfold execDroopRecovery
  exact ite_next hs (ite_next (noteInput_safe hs)
    (resolveAll_safe (resolveAll_safe (fields_safe (noteInput_safe hs)))))

theorem execCeilingRaise_safe {cl budget : Nat} {ceilings : List (Nat × Nat × Nat)} (hs : MemorySafe s) :
    NextSafe (execCeilingRaise cl budget ceilings s) := by
  unfold execCeilingRaise
  refine foldl_safe ?_ (modCluster_safe hs)
  intro _ _ ht
  split
  exact ite_safe ht (modCore_safe (fun _ hk => hk) ht)

theorem solvable_safe {t : Thread} {w : Word} : RunSafe (fun _ => True) (solvable s t w) := by
  unfold solvable
  split
  · exact ite_run trivial trivial
  · trivial

theorem execRate_safe {d a b : GReg} (hs : MemorySafe s) : NextSafe (execRate d a b s) := by
  unfold execRate
  refine perform_safe ?_ hs
  intro _ _ ht
  split
  next he => exact solvable_safe.error he
  · exact ite_run trivial (ite_run trivial (requestSolve_safe (setHandle_safe ht)))

theorem solveHandle_safe {cl h : Nat} {x : Handle} (hs : MemorySafe s) : MemorySafe (solveHandle s cl h x).2 := by
  unfold solveHandle
  exact ite_safe (newSolution_safe hs) (setHandle_safe hs)

theorem execSolve_safe {d a : GReg} (hs : MemorySafe s) : NextSafe (execSolve d a s) := by
  unfold execSolve
  split
  · exact hs
  · split
    · exact takeTrap_safe hs
    · exact hs
    · split
      next hg => exact modThread_safe (finish_safe (safe_of_snd (solveHandle_safe hs) hg))

theorem execSolveComplete_safe {tid : Nat} (hs : MemorySafe s) : NextSafe (execSolveComplete tid s) := release_safe hs

theorem takeSnapshot_safe {cl h : Nat} {x : Handle} (hs : MemorySafe s) : MemorySafe (takeSnapshot s cl h x) :=
  setHandle_safe hs

theorem rstatHandle_safe {t : Thread} {d : GReg} {ga gb : Word} {group idx f : Nat} (hs : MemorySafe s) :
    RunSafe EffectSafe (rstatHandle s t d ga gb group idx f) := by
  unfold rstatHandle
  split
  · trivial
  · exact ite_run trivial (ite_run (takeSnapshot_safe hs) hs)

theorem rstatCore_safe {t : Thread} {d : GReg} {ga gb : Word} {group idx f : Nat} (hs : MemorySafe s) :
    RunSafe EffectSafe (rstatCore s t d ga gb group idx f) := by
  unfold rstatCore
  exact ite_run trivial (ite_run trivial hs)

theorem execRstat_safe {d a b : GReg} (hs : MemorySafe s) : NextSafe (execRstat d a b s) := by
  unfold execRstat
  exact perform_safe (fun _ _ ht => ite_run trivial
    (ite_run trivial (ite_run (rstatHandle_safe ht) (rstatCore_safe ht)))) hs

/-! ## Machine/Configure -/

theorem imageBytes_safe {ctx : Nat} {user : Bool} {va n : Nat} (hs : MemorySafe s) :
    RunSafe (fun r => MemorySafe r.2) (imageBytes s ctx user va n) := by
  unfold imageBytes
  split
  next he => exact (readVirt_safe hs).ok he
  · trivial

theorem placeEntry_stop {t : Thread} {ga gb : Word} {im : Image} {o : Origin} {delta : Nat} {copyB : Bool}
    {b : List Byte} :
    RunSafe (fun _ => True) (placeEntry s t ga gb im o delta copyB b) := by
  unfold placeEntry
  refine ite_run trivial (ite_run trivial ?_)
  split
  · trivial
  · trivial

theorem placeTable_safe {t : Thread} {ga gb : Word} {im : Image} {o : Origin} {delta n i : Nat} {copyB : Bool}
    (hs : MemorySafe s) :
    RunSafe (fun r => MemorySafe r.2) (placeTable t ga gb im o delta copyB n i s) := by
  induction n generalizing s i with
  | zero => exact hs
  | succ n ih =>
    unfold placeTable
    split
    next he => exact (imageBytes_safe hs).error he
    next he =>
      split
      next hf => exact placeEntry_stop.error hf
      · have hr := ih (i := i + 1) ((imageBytes_safe hs).ok he)
        split
        next hf => exact hr.error hf
        next hf => exact (hr.ok hf :)

theorem setDict_safe {d : Nat × Nat} {ws : List W32} (hs : MemorySafe s) : MemorySafe (setDict s d ws) := by
  unfold setDict
  exact modCore_safe (fun _ hk => hk) hs

theorem loadDicts_safe {ps : List Placed} {dict : List W32} (hs : MemorySafe s) :
    MemorySafe (loadDicts s ps dict) := by
  unfold loadDicts
  exact foldl_safe (fun _ _ ht => setDict_safe ht) hs

theorem cfgldChecks_safe {t : Thread} {ga gb : Word} (hs : MemorySafe s) :
    RunSafe (fun r => MemorySafe r.2.2.2) (cfgldChecks s t ga gb) := by
  unfold cfgldChecks
  refine ite_run trivial (ite_run trivial (ite_run trivial ?_))
  split
  next he => exact ((imageBytes_safe hs).error he :)
  next he =>
    split
    · trivial
    · split
      next hg => exact ((placeTable_safe (((imageBytes_safe hs).ok he :))).error hg :)
      next hg =>
        split
        · exact ((placeTable_safe (((imageBytes_safe hs).ok he :))).ok hg :)
        · split
          next hj =>
            exact ((placeTable_safe (((placeTable_safe (((imageBytes_safe hs).ok he :))).ok hg :))).error hj :)
          next hj => exact ((placeTable_safe (((placeTable_safe (((imageBytes_safe hs).ok he :))).ok hg :))).ok hj :)

theorem beginLoad_safe {cl h : Nat} {x : Handle} {dict : List W32} (hs : MemorySafe s) :
    MemorySafe (beginLoad s cl h x dict) := by
  unfold beginLoad
  exact setHandle_safe (foldl_safe (fun _ _ ht => setDict_safe ht) hs)

theorem execCfgld_safe {d a b : GReg} (hs : MemorySafe s) : NextSafe (execCfgld d a b s) := by
  unfold execCfgld
  refine perform_safe ?_ hs
  intro _ _ ht
  dsimp only
  split
  next he => exact (drained_safe ht).error he
  next he =>
    split
    next hf => exact (cfgldChecks_safe ht).error hf
    next hf =>
      refine ite_run ((cfgldChecks_safe ht).ok hf) (ite_run ((cfgldChecks_safe ht).ok hf) ?_)
      split
      next hg => exact (imageBytes_safe ((cfgldChecks_safe ht).ok hf)).error hg
      next hg => exact beginLoad_safe ((imageBytes_safe ((cfgldChecks_safe ht).ok hf)).ok hg)

theorem streamBytes_safe {ctx base limit fuel off : Nat} {user : Bool} (hs : MemorySafe s) :
    OkSafe (fun r => MemorySafe r.2) (streamBytes ctx user base limit fuel off s) := by
  induction fuel generalizing s off with
  | zero => exact hs
  | succ fuel ih =>
    unfold streamBytes
    refine ite_ok hs ?_
    split
    · trivial
    next he =>
      dsimp only
      split
      · trivial
      next hf =>
        have ht := (readVirt_safe ((readVirt_safe hs).ok he)).ok hf
        exact ite_ok ht (ok_map_safe (ih ht) fun _ hr => hr)

theorem entryStream_safe {x : Handle} {user : Bool} {e : Placed} (hs : MemorySafe s) :
    OkSafe (fun r => MemorySafe r.2) (entryStream s x user e) :=
  streamBytes_safe hs

theorem releaseLoads_safe (hs : MemorySafe s) : MemorySafe (releaseLoads s) := release_safe hs

theorem finishLoader_safe {x : Handle} {v : Word} (hs : MemorySafe s) : MemorySafe (finishLoader s x v) := by
  unfold finishLoader
  split
  · exact finish_safe hs
  · exact hs

theorem dropLoading_safe {cl h : Nat} {x : Handle} (hs : MemorySafe s) : MemorySafe (dropLoading s cl h x) := by
  unfold dropLoading
  exact releaseLoads_safe (freeGraph_safe (finishLoader_safe
    (foldl_safe (fun _ _ ht => modTile_safe ht) (dropShadows_safe hs))))

theorem faultLoading_safe {cl h : Nat} {x : Handle} {m : Missed} (hs : MemorySafe s) :
    MemorySafe (faultLoading s cl h x m) := by
  unfold faultLoading
  exact releaseLoads_safe (takeTrap_safe (modCluster_safe
    (foldl_safe (fun _ _ ht => modTile_safe ht) (dropShadows_safe hs))))

theorem rejectLoad_safe {cl h : Nat} {x : Handle} {entry word reason : Nat} (hs : MemorySafe s) :
    MemorySafe (rejectLoad s cl h x entry word reason) :=
  setHandle_safe hs

theorem judge_safe {cl h : Nat} {x : Handle} {e : Placed} {b : List Byte} (hs : MemorySafe s) :
    MemorySafe (judge s cl h x e b) := by
  unfold judge
  dsimp only
  split
  · exact rejectLoad_safe (modTile_safe hs)
  · refine ite_safe (rejectLoad_safe (modTile_safe hs)) (ite_safe (rejectLoad_safe (modTile_safe hs)) ?_)
    refine ite_safe ?_ (setHandle_safe (modTile_safe (modTile_safe hs)))
    split
    · exact rejectLoad_safe (setHandle_safe (modTile_safe (modTile_safe hs)))
    · exact setHandle_safe (modTile_safe (modTile_safe hs))

theorem setPath_safe {core col r : Nat} {ks : List Tok} (hs : MemorySafe s) :
    MemorySafe (setPath s core col r ks) := by
  unfold setPath
  exact modCore_safe (fun _ hk => hk) hs

theorem giveVerdict_safe {cl h : Nat} {x : Handle} {e : Placed} {b : List Byte} (hs : MemorySafe s) :
    MemorySafe (giveVerdict s cl h x e b) := by
  unfold giveVerdict
  dsimp only
  split
  · exact ite_safe (dropLoading_safe (judge_safe hs)) (judge_safe hs)
  · exact judge_safe hs

theorem takeConfig_safe {cl h : Nat} {x : Handle} {e : Placed} {k : Tok} (hs : MemorySafe s) :
    MemorySafe (takeConfig s cl h x e k) := by
  unfold takeConfig
  extract_lets col
  split
  extract_lets old b
  clear_value old b
  refine ite_safe ?_ (ite_safe (modTile_safe hs) (giveVerdict_safe hs))
  exact rejectLoad_safe (modTile_safe (foldl_safe (fun _ _ ht => setPath_safe ht) hs))

theorem moveConfig_safe {cl h : Nat} {x : Handle} {e : Placed} (hs : MemorySafe s) :
    MemorySafe (moveConfig s cl h x e) := by
  unfold moveConfig
  dsimp only
  split
  · exact takeConfig_safe (setPath_safe hs)
  · split
    · exact setPath_safe (setPath_safe hs)
    · split
      · exact ite_safe hs (setPath_safe (setHandle_safe hs))
      · exact hs

theorem hearStream_safe {cl h : Nat} {x : Handle} {e : Placed} {k : Tok} {rest : List Tok} (hs : MemorySafe s) :
    MemorySafe (hearStream s cl h x e k rest) := by
  unfold hearStream
  split
  exact ite_safe (rejectLoad_safe hs)
    (ite_safe (setHandle_safe hs) (ite_safe (giveVerdict_safe (setHandle_safe hs)) (setHandle_safe hs)))

theorem execTileConfigToken_safe {cl h : Nat} (hs : MemorySafe s) : NextSafe (execTileConfigToken cl h s) := by
  unfold execTileConfigToken
  split
  · exact hs
  next he =>
    refine ite_next hs ?_
    split
    · split
      · exact setHandle_safe (setDict_safe hs)
      · exact rejectLoad_safe hs
    · split
      · exact hs
      · refine ite_next (moveConfig_safe hs) ?_
        split
        · exact hearStream_safe hs
        · split
          · exact faultLoading_safe hs
          next hj =>
            split
            · exact giveVerdict_safe (setHandle_safe ((entryStream_safe hs).ok hj))
            · exact setHandle_safe ((entryStream_safe hs).ok hj)

theorem rejectReport_safe {tid : Nat} {v : Word} (hs : MemorySafe s) : MemorySafe (rejectReport s tid v) :=
  deliverReport_safe hs

theorem execLoadComplete_safe {cl h : Nat} (hs : MemorySafe s) : NextSafe (execLoadComplete cl h s) := by
  unfold execLoadComplete
  split
  · exact hs
  · exact ite_next hs (releaseLoads_safe (ite_safe (finishLoader_safe (setHandle_safe hs))
      (rejectReport_safe (finishLoader_safe (setHandle_safe hs)))))

theorem execCfgswap_safe {a : GReg} (hs : MemorySafe s) : NextSafe (execCfgswap a s) := by
  unfold execCfgswap
  refine perform_safe ?_ hs
  intro _ _ ht
  split
  · exact ite_run trivial (graphChange_safe (armGraph_safe ht))
  · trivial

theorem unqueue_safe {cl h : Nat} (hs : MemorySafe s) : MemorySafe (unqueue s cl h) := modCluster_safe hs

theorem forgetLaunch_safe {cl h : Nat} (hs : MemorySafe s) : MemorySafe (forgetLaunch s cl h) := by
  unfold forgetLaunch
  exact wakeWhere_safe (unqueue_safe (ite_safe (preemptDone_safe hs) hs))

theorem orphanTiles_safe {h : Nat} {x : Handle} (hs : MemorySafe s) : MemorySafe (orphanTiles s h x) := by
  unfold orphanTiles
  exact foldl_safe (fun _ _ ht => modTile_safe ht) hs

theorem dropGraph_safe {cl h : Nat} {x : Handle} (hs : MemorySafe s) : SomeSafe MemorySafe (dropGraph s cl h x) := by
  unfold dropGraph
  split
  · exact ite_safe (setHandle_safe hs) (dropLoading_safe hs)
  · exact freeGraph_safe (forgetLaunch_safe (idleGraph_safe (dropShadows_safe hs)))
  · exact freeGraph_safe (forgetLaunch_safe (orphanTiles_safe (dropShadows_safe hs)))
  · exact ite_some trivial (freeGraph_safe (forgetLaunch_safe (idleGraph_safe hs)))
  · trivial
  · trivial

theorem execCfgdrop_safe {a : GReg} (hs : MemorySafe s) : NextSafe (execCfgdrop a s) := by
  unfold execCfgdrop
  refine perform_safe ?_ hs
  intro _ _ ht
  split
  · split
    next hf => exact (dropGraph_safe ht).some hf
    · trivial
  · trivial

theorem freezeTile_safe {l : TileLoc} {c : TileCfg} (hs : MemorySafe s) : MemorySafe (freezeTile s l c) := by
  unfold freezeTile
  dsimp only
  split
  · exact modTile_safe hs
  · refine ite_safe (modTile_safe hs) (ite_safe (setHandle_safe (modTile_safe hs)) ?_)
    split
    · exact setLaunch_safe (markLaunch_safe (setHandle_safe (modTile_safe hs)))
    · exact markLaunch_safe (setHandle_safe (modTile_safe hs))

theorem execConfigScrub_safe {l : TileLoc} {err : StoreError} (hs : MemorySafe s) :
    NextSafe (execConfigScrub l err s) := by
  unfold execConfigScrub
  dsimp only
  split
  · refine ite_safe ?_ ?_
    · refine modCore_safe (fun _ hk => hk) ?_
      split
      · exact ite_safe (modCore_safe (fun _ hk => hk) hs) hs
      · exact hs
    · split
      · exact ite_safe (modCore_safe (fun _ hk => hk) hs) hs
      · exact hs
  · refine ite_safe ?_ ?_
    · refine freezeTile_safe ?_
      refine ite_safe ?_ ?_
      · refine modCore_safe (fun _ hk => hk) ?_
        split
        · exact ite_safe (modCore_safe (fun _ hk => hk) hs) hs
        · exact hs
      · split
        · exact ite_safe (modCore_safe (fun _ hk => hk) hs) hs
        · exact hs
    · refine ite_safe ?_ ?_
      · refine modCore_safe (fun _ hk => hk) ?_
        split
        · exact ite_safe (modCore_safe (fun _ hk => hk) hs) hs
        · exact hs
      · split
        · exact ite_safe (modCore_safe (fun _ hk => hk) hs) hs
        · exact hs

theorem execTileSwap_safe {l : TileLoc} (hs : MemorySafe s) : NextSafe (execTileSwap l s) := by
  unfold execTileSwap
  dsimp only
  split
  · refine ite_next hs ?_
    split
    · exact freezeTile_safe hs
    · exact ite_next hs (ite_safe (graphChange_safe (settleGraph_safe (swapTile_safe hs)))
        (settleGraph_safe (swapTile_safe hs)))
  · exact hs

theorem linksSent_safe {l : TileLoc} (hs : MemorySafe s) : MemorySafe (linksSent s l) := modTile_safe hs

theorem restoreGraph_safe {cl h : Nat} {x : Handle} (hs : MemorySafe s) : MemorySafe (restoreGraph s cl h x) := by
  unfold restoreGraph
  split
  · exact hs
  · exact foldl_safe (fun _ _ ht => linksSent_safe
      (modTile_safe (ite_safe (leaveRims_safe (emptyLinks_safe ht)) (emptyLinks_safe ht)))) hs

theorem saveTree_safe {cl h : Nat} (hs : MemorySafe s) : MemorySafe (saveTree s cl h) := by
  unfold saveTree
  split
  · exact hs
  · split
    · exact hs
    · exact writeSlot_safe (setLaunch_safe hs)

theorem reloadInto_safe {x : Handle} {user : Bool} {e : Placed} {c : TileCfg} (hs : MemorySafe s) :
    MemorySafe (reloadInto s x user e c) :=
  modTile_safe hs

theorem endLaunch_safe {cl h : Nat} (hs : MemorySafe s) : MemorySafe (endLaunch s cl h) := by
  unfold endLaunch
  split
  next he _ =>
    refine wakeWhere_safe ?_
    refine ite_safe ?_ ?_
    · refine preemptDone_safe ?_
      refine setLaunch_safe ?_
      refine foldl_safe ?_ (setHandle_safe hs)
      intro x _ ht
      split
      · exact ite_safe (modTile_safe ht) ht
      · exact ht
    · refine setLaunch_safe ?_
      refine foldl_safe ?_ (setHandle_safe hs)
      intro _ _ ht
      split
      · exact ite_safe (modTile_safe ht) ht
      · exact ht
  · exact hs

theorem execConfigReload_safe {cl h : Nat} (hs : MemorySafe s) : NextSafe (execConfigReload cl h s) := by
  unfold execConfigReload
  split
  · exact hs
  · refine ite_next hs (ite_next hs ?_)
    split
    · extract_lets t u v
      have ht : MemorySafe t := foldl_safe (fun _ _ ht => reloadInto_safe ht) (ite_safe (saveTree_safe hs) hs)
      have hu : MemorySafe u := setHandle_safe ht
      clear_value u
      refine ite_next hu ?_
      have hv : MemorySafe v := restoreGraph_safe hu
      clear_value v
      split
      · exact ite_safe (setLaunch_safe hv) (startSources_safe (setLaunch_safe hv))
      · exact hv
    · extract_lets t
      have ht : MemorySafe t := setHandle_safe hs
      clear_value t
      split
      · exact ite_safe ht (rejectReport_safe (endLaunch_safe (unqueue_safe ht)))
      · exact ht

/-! ## Machine/Launch -/

theorem execLaunch_safe {wave : Bool} {a b : GReg} (hs : MemorySafe s) : NextSafe (execLaunch wave a b s) := by
  unfold execLaunch
  refine perform_safe ?_ hs
  intro _ _ ht
  dsimp only
  split
  · trivial
  · refine ite_run trivial (ite_run trivial ?_)
    split
    next hf => exact (drained_safe ht).error hf
    · exact ite_run trivial (modCluster_safe (setLaunch_safe (completeReports_safe ht)))

theorem freshTags_safe {x : Handle} (hs : MemorySafe s) : MemorySafe (freshTags s x) := by
  unfold freshTags
  exact foldl_safe (fun _ _ ht => setLct_safe ht) hs

theorem flushLines_safe {cl : Nat} {x : Handle} (hs : MemorySafe s) : MemorySafe (flushLines s cl x) := by
  unfold flushLines
  exact foldl_safe (fun _ _ ht => modCore_safe (fun _ hk => hk) ht) hs

theorem permitGraph_safe {h : Nat} {x : Handle} (hs : MemorySafe s) : MemorySafe (permitGraph s h x) := by
  unfold permitGraph
  refine foldl_safe ?_ hs
  intro _ _ ht
  split
  · exact ite_safe (permitRoots_safe ht) ht
  · exact ht

theorem restartLaunch_safe {h : Nat} {x : Handle} (hs : MemorySafe s) : MemorySafe (restartLaunch s h x) := by
  unfold restartLaunch
  exact permitGraph_safe (restartGraph_safe hs)

theorem reloadGraph_safe {cl h : Nat} {x : Handle} (hs : MemorySafe s) :
    OkSafe MemorySafe (reloadGraph s cl h x) := by
  unfold reloadGraph
  dsimp only
  split
  · trivial
  · exact restoreGraph_safe (foldl_safe (fun _ _ ht => potActivate_safe (modTile_safe ht)) hs)

theorem reloadDicts_safe {cl h : Nat} {x : Handle} (hs : MemorySafe s) : MemorySafe (reloadDicts s cl h x) := by
  unfold reloadDicts
  dsimp only
  split
  · exact hs
  · split
    · exact hs
    · split
      · exact loadDicts_safe hs
      · exact hs

theorem resumeLaunch_safe {cl h : Nat} {old : Handle} (hs : MemorySafe s) : MemorySafe (resumeLaunch s cl h old) := by
  unfold resumeLaunch
  extract_lets x t u
  have ht : MemorySafe t := setHandle_safe hs
  have hu : MemorySafe u := by
    unfold u
    split
    · exact setLaunch_safe ht
    · exact ht
  clear_value t u
  have hr : OkSafe MemorySafe (reloadGraph (reloadDicts u cl h x) cl h x) := reloadGraph_safe (reloadDicts_safe hu)
  split
  next he => exact beginStep_safe (graphChange_safe (setHandle_safe (hr.ok he)))
  · dsimp only
    split
    · exact rejectReport_safe (endLaunch_safe (setHandle_safe hu))
    · exact setHandle_safe hu

theorem admitHead_safe {cl q h : Nat} (hs : MemorySafe s) : MemorySafe (admitHead s cl q h) := by
  unfold admitHead
  split
  · extract_lets t u v w x
    have hv : MemorySafe v :=
      setLaunch_safe (flushLines_safe (switchContext_safe (freshTags_safe (modCluster_safe hs))))
    clear_value v
    refine ite_safe (resumeLaunch_safe hv) ?_
    have hw : MemorySafe w := setHandle_safe hv
    have hx : MemorySafe x :=
      ite_safe (graphChange_safe (armGraph_safe (permitGraph_safe hw))) (restartLaunch_safe hw)
    exact beginStep_safe hx
  · exact hs

theorem execLaunchAdmission_safe {cl : Nat} (hs : MemorySafe s) : NextSafe (execLaunchAdmission cl s) := by
  unfold execLaunchAdmission
  dsimp only
  split
  · exact admitHead_safe (modCluster_safe hs)
  · exact modCluster_safe hs

theorem execLaunchEnd_safe {cl h : Nat} (hs : MemorySafe s) : NextSafe (execLaunchEnd cl h s) := by
  unfold execLaunchEnd
  split
  · exact ite_next hs (ite_next (ite_safe (endLaunch_safe (setHandle_safe hs)) hs) (ite_safe (endLaunch_safe hs) hs))
  · exact hs

theorem execLwait_safe {a : GReg} (hs : MemorySafe s) : NextSafe (execLwait a s) := by
  unfold execLwait
  refine perform_safe ?_ hs
  intro _ _ ht
  split
  · trivial
  · split
    · trivial
    · exact ite_run ht (acquireFor_safe (foldLaunch_safe ht))

theorem injectBytes_safe {t : Thread} {gb : Word} (hs : MemorySafe s) :
    RunSafe (fun r => MemorySafe r.2) (injectBytes s t gb) := by
  unfold injectBytes
  split
  next he => exact ((loadBytes_safe hs).error he :)
  next he =>
    split
    next hf => exact ((loadBytes_safe (((loadBytes_safe hs).ok he :))).error hf :)
    next hf => exact ((loadBytes_safe (((loadBytes_safe hs).ok he :))).ok hf :)

theorem execInject_safe {a b : GReg} (hs : MemorySafe s) : NextSafe (execInject a b s) := by
  unfold execInject
  refine perform_safe ?_ hs
  intro _ _ ht
  dsimp only
  split
  · trivial
  · refine ite_run trivial ?_
    split
    next hf => exact (drained_safe ht).error hf
    · split
      next hg => exact (injectBytes_safe ht).error hg
      next hg =>
        split
        · trivial
        · split
          · trivial
          · exact ite_run (pushSource_safe ((injectBytes_safe ht).ok hg)) ((injectBytes_safe ht).ok hg)

theorem execMark_safe {a : GReg} (hs : MemorySafe s) : NextSafe (execMark a s) := by
  unfold execMark
  refine perform_safe ?_ hs
  intro _ _ ht
  split
  · trivial
  · exact ite_run (markLaunch_safe ht) trivial

theorem execCheckpointComplete_safe {cl h : Nat} (hs : MemorySafe s) : NextSafe (execCheckpointComplete cl h s) := by
  unfold execCheckpointComplete
  split
  · exact ite_next hs (foldContext_safe (writeSlot_safe (setLaunch_safe hs)))
  · exact hs

theorem execPreemptionComplete_safe {cl h : Nat} (hs : MemorySafe s) : NextSafe (execPreemptionComplete cl h s) := by
  unfold execPreemptionComplete
  split
  · exact ite_next hs (preemptDone_safe (foldContext_safe
      (foldl_safe (fun _ _ ht => leaveCore_safe ht) (idleGraph_safe (setLaunch_safe (saveTree_safe hs))))))
  · exact hs

/-! ## Machine/Remote -/

theorem remoteChecks_safe {ga : Word} {width : Nat} : RunSafe (fun _ => True) (remoteChecks s ga width) := by
  unfold remoteChecks
  exact ite_run trivial (ite_run trivial (ite_run trivial trivial))

theorem remoteRoom_safe {t : Thread} {chip : Nat} (hs : MemorySafe s) :
    RunSafe (fun _ => True) (remoteRoom s t chip) :=
  ite_run hs trivial

theorem execRst_safe {ord : MemOrder} {ty : Ty} {a b : GReg} (hs : MemorySafe s) :
    NextSafe (execRst ord ty a b s) := by
  unfold execRst
  refine perform_safe ?_ hs
  intro _ _ ht
  dsimp only
  split
  next he => exact remoteChecks_safe.error he
  next he _ => exact RunSafe.error (p := (fun _ => True)) (ite_run (released_safe ht) (afterReleases_safe ht)) he
  next he _ _ => exact (remoteRoom_safe ht).error he
  · exact sendNumbered_safe ht

theorem execRat_safe {op : AmoOp} {ord : MemOrder} {ty : Ty} {d a b : GReg} (hs : MemorySafe s) :
    NextSafe (execRat op ord ty d a b s) := by
  unfold execRat
  refine perform_safe ?_ hs
  intro _ _ ht
  dsimp only
  split
  next he => exact remoteChecks_safe.error he
  next he _ => exact RunSafe.error (p := (fun _ => True)) (ite_run (released_safe ht) (afterReleases_safe ht)) he
  next he _ _ => exact (remoteRoom_safe ht).error he
  · exact modThread_safe (sendNumbered_safe ht)

theorem takeInbox_safe {n : Nat} {types : List Nat} (hs : MemorySafe s) :
    SomeSafe (fun r => MemorySafe r.2) (takeInbox s n types) := by
  unfold takeInbox
  split
  · exact ite_some (fields_safe hs) trivial
  · trivial

theorem numberedStep_safe {n type : Nat} (hs : MemorySafe s) : NextSafe (numberedStep s n type) := by
  unfold numberedStep
  split
  next he => exact arriveNumbered_safe ((takeInbox_safe hs).some he)
  · exact hs

theorem execPeerRst_safe {n : Nat} (hs : MemorySafe s) : NextSafe (execPeerRst n s) := numberedStep_safe hs

theorem execPeerRat_safe {n : Nat} (hs : MemorySafe s) : NextSafe (execPeerRat n s) := numberedStep_safe hs

theorem execPeerCopyData_safe {n : Nat} (hs : MemorySafe s) : NextSafe (execPeerCopyData n s) := numberedStep_safe hs

theorem execPeerReducingData_safe {n : Nat} (hs : MemorySafe s) : NextSafe (execPeerReducingData n s) :=
  numberedStep_safe hs

theorem execPeerChannelToken_safe {n : Nat} (hs : MemorySafe s) : NextSafe (execPeerChannelToken n s) :=
  numberedStep_safe hs

theorem abandonRat_safe {chip : Nat} {q : BitVec 32} (hs : MemorySafe s) : MemorySafe (abandonRat s chip q) := by
  unfold abandonRat
  split
  · exact finish_safe hs
  · exact hs

theorem failRemote_safe {chip : Nat} {f : BitVec 32 × Cause} (hs : MemorySafe s) :
    MemorySafe (failRemote chip s f) := by
  unfold failRemote
  split
  · split
    · exact hs
    · split
      · exact abandonRat_safe (deliverReport_safe hs)
      · split
        · exact deliverReport_safe hs
        · exact hs

theorem wakeCopies_safe (hs : MemorySafe s) : MemorySafe (wakeCopies s) := wakeWhere_safe hs

theorem ackThrough_safe {chip : Nat} {a : BitVec 32} (hs : MemorySafe s) : MemorySafe (ackThrough s chip a) := by
  unfold ackThrough
  exact wakeCopies_safe (wakeSenders_safe (fields_safe
    (foldl_safe (fun _ _ ht => retainMsg_safe ht) (setDest_safe hs))))

theorem execAcknowledgement_safe {n : Nat} (hs : MemorySafe s) : NextSafe (execAcknowledgement n s) := by
  unfold execAcknowledgement
  split
  · exact hs
  next he => exact ackThrough_safe (foldl_safe (fun _ _ ht => failRemote_safe ht) ((takeInbox_safe hs).some he))

theorem execRatReply_safe {n : Nat} (hs : MemorySafe s) : NextSafe (execRatReply n s) := by
  unfold execRatReply
  split
  · exact hs
  next he =>
    split
    · exact (takeInbox_safe hs).some he
    · split
      · exact finish_safe (ite_safe (acquire_safe ((takeInbox_safe hs).some he)) ((takeInbox_safe hs).some he))
      · exact (takeInbox_safe hs).some he

theorem execHorizon_safe {n : Nat} (hs : MemorySafe s) : NextSafe (execHorizon n s) := by
  unfold execHorizon
  split
  · exact hs
  next he => exact wakeSenders_safe (setSource_safe (setDest_safe ((takeInbox_safe hs).some he)))

theorem execReplayTimeout_safe {chip : Nat} (hs : MemorySafe s) : NextSafe (execReplayTimeout chip s) :=
  resendAll_safe hs

theorem execMessageTransit_safe {n : Nat} (hs : MemorySafe s) : NextSafe (execMessageTransit n s) := by
  unfold execMessageTransit
  split
  · exact hs
  · refine ite_next (takeOwn_safe (fields_safe hs)) ?_
    split
    · exact linkSend_safe (fields_safe hs)
    · exact fields_safe hs

theorem routerTake_safe {link : Nat} {m : Msg} (hs : MemorySafe s) : MemorySafe (routerTake s link m) := by
  unfold routerTake
  exact ite_safe (fields_safe hs) (ite_safe (takeOwn_safe (setSource_safe hs)) (fields_safe hs))

theorem execPeerFlit_safe {link : Nat} {bytes : List Byte} (hs : MemorySafe s) :
    NextSafe (execPeerFlit link bytes s) := by
  unfold execPeerFlit
  exact ite_next hs (ite_next (setLink_safe hs)
    (ite_next (setLink_safe hs) (foldl_safe (fun _ _ ht => routerTake_safe ht) (setLink_safe hs))))

theorem resendLink_safe {link : Nat} (hs : MemorySafe s) : MemorySafe (resendLink s link) := by
  unfold resendLink
  exact foldl_safe (fun _ _ ht => resendAll_safe ht) hs

theorem execLinkRetrain_safe {link : Nat} {lockLost failed : Bool} (hs : MemorySafe s) :
    NextSafe (execLinkRetrain link lockLost failed s) := by
  unfold execLinkRetrain
  exact ite_next hs (ite_next (ite_next (resendLink_safe (setLink_safe hs)) (setLink_safe hs)) (setLink_safe hs))

theorem execLinkTrained_safe {link lanes : Nat} {expected : BitVec 12} (hs : MemorySafe s) :
    NextSafe (execLinkTrained link lanes expected s) := by
  unfold execLinkTrained
  exact ite_next hs (setLink_safe hs)

theorem execDieLinkFlit_safe {link : Nat} {flit : DieFlit} (hs : MemorySafe s) :
    NextSafe (execDieLinkFlit link flit s) := by
  unfold execDieLinkFlit
  exact ite_next hs (fields_safe hs)

/-! ## Machine/Copies -/

theorem descBytes_safe {t : Thread} {ga : Word} {n : Nat} (hs : MemorySafe s) :
    RunSafe (fun r => MemorySafe r.2) (descBytes t ga n s) := by
  induction n generalizing s with
  | zero => exact hs
  | succ n ih =>
    unfold descBytes
    split
    next he => exact (ih hs).error he
    next he =>
      have hr := loadBytes_safe (t := t) (ea := ga + w64 (64 * n)) (n := 64) (q := .fresh) ((ih hs).ok he)
      split
      next hf => exact hr.error hf
      next hf => exact (hr.ok hf :)

theorem execCopy_safe {d a : GReg} (hs : MemorySafe s) : NextSafe (execCopy d a s) := by
  unfold execCopy
  refine perform_safe ?_ hs
  intro _ _ ht
  dsimp only
  split
  next he => exact (located_safe ht).error he
  next he =>
    have hu := (located_safe ht).ok he
    split
    next hf => exact (drained_safe hu).error hf
    · split
      next hg => exact (descBytes_safe hu).error hg
      next hg =>
        have hv := (descBytes_safe hu).ok hg
        split
        next hi => exact (descBytes_safe hv).error hi
        next hi =>
          have hw := (descBytes_safe hv).ok hi
          split
          · trivial
          · exact ite_run trivial (ite_run hw (modCluster_safe (ite_snd_safe (choose_safe hw) hw)))

theorem execCpwait_safe {a : GReg} (hs : MemorySafe s) : NextSafe (execCpwait a s) := by
  unfold execCpwait
  refine perform_safe ?_ hs
  intro _ _ ht
  split
  · trivial
  · exact ite_run ht (acquireFor_safe (modCluster_safe ht))

theorem copyPlace_safe {cl : Nat} {c : Copy} {a : Word} {acc : Access} (hs : MemorySafe s) :
    OkSafe (fun r => MemorySafe r.2) (copyPlace s cl c a acc) := by
  unfold copyPlace
  refine ite_ok (ite_ok trivial hs) (ite_ok (ite_ok trivial hs) ?_)
  split
  next he => exact safe_of_snd_snd (translate_safe hs) he
  · trivial

theorem copySource_safe {cl : Nat} {c : Copy} {i : Nat} (hs : MemorySafe s) :
    OkSafe (fun r => MemorySafe r.2) (copySource s cl c i) := by
  unfold copySource
  split
  · exact hs
  · exact ok_map_safe (copyPlace_safe hs) (fun _ ht => ht)

theorem copyMoves_safe {cl n i : Nat} {c : Copy} (hs : MemorySafe s) :
    OkSafe (fun r => MemorySafe r.2) (copyMoves cl c n i s) := by
  induction n generalizing s i with
  | zero => exact hs
  | succ n ih =>
    unfold copyMoves
    dsimp only
    split
    · trivial
    next he =>
      have hd := (copyPlace_safe hs).ok he
      split
      · trivial
      next hf =>
        have hr := ih (i := i + 1) ((copySource_safe hd).ok hf)
        split
        · trivial
        next hg => exact (hr.ok hg :)

theorem refuseElement_safe {isl addr : Nat} (hs : MemorySafe s) : MemorySafe (refuseElement s isl addr) :=
  modPot_safe hs

theorem noteConsumed_safe {ctx : Nat} (hs : MemorySafe s) : MemorySafe (noteConsumed s ctx) := modCtx_safe hs

theorem putPot_safe {cl : Nat} {w : HeldWrite} (hs : MemorySafe s) : MemorySafe (putPot cl s w) := by
  unfold putPot
  exact ite_safe (refuseElement_safe hs) (watchEngine_safe
    (modCore_safe (fun _ hk => hk) (potStore_safe (ite_safe (noteConsumed_safe hs) hs))))

theorem putGlobal_safe {cl : Nat} {c : Copy} {va pa value : Nat} {clears bad : Bool} (hs : MemorySafe s) :
    MemorySafe (putGlobal cl c s va pa value clears bad) := by
  unfold putGlobal
  exact watchEngine_safe (fields_safe (writeMem_safe (ite_safe (noteConsumed_safe hs) hs)))

theorem fillMoved_safe {c : Copy} {ms : List Move1} (hs : MemorySafe s) : MemorySafe (fillMoved s c ms) := by
  unfold fillMoved
  exact ite_safe hs (foldl_safe (fun _ _ ht => fillPresent_safe ht) hs)

theorem modCopy_safe {cl n : Nat} {f : Copy → Copy} (hs : MemorySafe s) : MemorySafe (modCopy s cl n f) := by
  unfold modCopy
  split
  · exact modCluster_safe hs
  · exact hs

theorem sendRun_safe {cl n : Nat} {c : Copy} {run : Word × List Nat} (hs : MemorySafe s) :
    MemorySafe (sendRun s cl n c run) := by
  unfold sendRun
  refine ite_safe hs ?_
  exact modCopy_safe (sendNumbered_safe hs)

theorem suspendCopy_safe {cl n : Nat} {c : Copy} {a : Word} {r : WalkResult} {acc : Access} (hs : MemorySafe s) :
    MemorySafe (suspendCopy s cl n c a r acc) := by
  unfold suspendCopy
  refine ite_safe hs ?_
  exact sendReport_safe (modCopy_safe (fqWrite_safe hs))

theorem putMove_safe {cl n : Nat} {c : Copy} {holds : List Nat} {m : Move1 × Bool} (hs : MemorySafe s) :
    MemorySafe (putMove cl n c holds s m) := by
  unfold putMove
  split
  · dsimp only
    split
    · exact ite_safe (modCore_safe (fun _ hk => hk) (ite_safe (noteConsumed_safe hs) hs))
        (putPot_safe (ite_safe (noteConsumed_safe hs) hs))
    · exact putGlobal_safe (ite_safe (noteConsumed_safe hs) hs)
    · exact ite_safe (noteConsumed_safe hs) hs

theorem putArrival_safe {cl n : Nat} {c : Copy} {holds : List Nat} (hs : MemorySafe s) :
    MemorySafe (putArrival s cl n c holds) := by
  unfold putArrival
  exact ite_safe hs (ite_safe (modCore_safe (fun _ hk => hk) hs) (barrierArrive_safe hs))

theorem performTile_safe {cl n : Nat} {c : Copy} {ms : List Move1} (hs : MemorySafe s) :
    MemorySafe (performTile s cl n c ms) := by
  unfold performTile
  exact modCopy_safe (putArrival_safe (fillMoved_safe
    (foldl_safe (fun _ _ ht => putMove_safe ht) (ite_snd_safe hs (choose_safe hs)))))

theorem execCopyTile_safe {cl n : Nat} (hs : MemorySafe s) : NextSafe (execCopyTile cl n s) := by
  unfold execCopyTile
  split
  · exact hs
  · refine ite_next hs (ite_next (ite_safe (wakeCopies_safe (modCopy_safe hs)) hs) ?_)
    split
    · exact suspendCopy_safe hs
    next hf =>
      refine ite_next (performTile_safe ((copyMoves_safe hs).ok hf)) ?_
      split
      · exact sendRun_safe (ite_safe (noteConsumed_safe ((copyMoves_safe hs).ok hf)) ((copyMoves_safe hs).ok hf))
      · exact ite_safe (performTile_safe ((copyMoves_safe hs).ok hf)) ((copyMoves_safe hs).ok hf)

theorem execCopyForward_safe {core : Nat} (hs : MemorySafe s) : NextSafe (execCopyForward core s) := by
  unfold execCopyForward
  split
  · exact hs
  · split
    · exact barrierArrive_safe (modCore_safe (fun _ hk => hk) hs)
    · exact putPot_safe (modCore_safe (fun _ hk => hk) hs)

/-! ## Machine/Groups -/

theorem groupOf_safe {ga : Word} : RunSafe (fun _ => True) (groupOf ga) := ite_run trivial trivial

theorem memberOf_safe {ga : Word} : RunSafe (fun _ => True) (memberOf s ga) := by
  unfold memberOf
  split
  next he => exact groupOf_safe.error he
  · exact ite_run trivial trivial

theorem joinGroup_safe {n rank : Nat} (hs : MemorySafe s) : MemorySafe (joinGroup s n rank) := setGroup_safe hs

theorem execJoin_safe {d a : GReg} (hs : MemorySafe s) : NextSafe (execJoin d a s) := by
  unfold execJoin
  refine perform_safe ?_ hs
  intro _ _ ht
  dsimp only
  split
  next he => exact groupOf_safe.error he
  · split
    · exact ht
    · refine ite_run trivial (ite_run (ite_run trivial (joinGroup_safe ht)) ?_)
      split
      next he => exact (logNext_safe ht).error he
      next he =>
        have hu := (logNext_safe ht).ok he
        refine ite_run hu (ite_run trivial ?_)
        exact map_safe (replayGrants_safe (logConsume_safe hu)) fun _ hv => joinGroup_safe hv
      next he =>
        have hu := (logNext_safe ht).ok he
        split
        next hf => exact (logRecord_safe hu).error hf
        next hf => exact joinGroup_safe ((logRecord_safe hu).ok hf)

theorem execLeave_safe {a : GReg} (hs : MemorySafe s) : NextSafe (execLeave a s) := by
  unfold execLeave
  refine perform_safe ?_ hs
  intro _ _ ht
  split
  next he => exact memberOf_safe.error he
  next he _ => exact (drained_safe ht).error he
  · exact leaveGroup_safe ht

theorem execGbar_safe {a : GReg} (hs : MemorySafe s) : NextSafe (execGbar a s) := by
  unfold execGbar
  refine perform_safe ?_ hs
  intro _ _ ht
  split
  next he => exact memberOf_safe.error he
  next he _ => exact (drained_safe ht).error he
  · exact ite_run (acquireFor_safe (setGroup_safe ht))
      (ite_run (acquireFor_safe (setGroup_safe (advanceGroup_safe (setGroup_safe ht)))) (setGroup_safe ht))

theorem execGsize_safe {d a : GReg} (hs : MemorySafe s) : NextSafe (execGsize d a s) := by
  unfold execGsize
  exact perform_safe (fun _ _ ht => map_safe groupOf_safe (fun _ _ => ht)) hs

theorem execGrank_safe {d a : GReg} (hs : MemorySafe s) : NextSafe (execGrank d a s) := by
  unfold execGrank
  exact perform_safe (fun _ _ ht => map_safe groupOf_safe (fun _ _ => ht)) hs

/-! ## Machine/Power -/

theorem forLaunches_safe {f : State → Nat → Nat → State} (hf : ∀ s cl h, MemorySafe s → MemorySafe (f s cl h))
    (hs : MemorySafe s) :
    MemorySafe (forLaunches s f) :=
  foldl_safe (fun _ cl ht => foldl_safe (fun s h hs => hf s cl h hs) ht) hs

theorem execInputBelow38V_safe {input : BitVec 16} (hs : MemorySafe s) : NextSafe (execInputBelow38V input s) := by
  unfold execInputBelow38V
  exact ite_next hs (forLaunches_safe (fun _ _ _ ht => markLaunch_safe ht) (setInput_safe hs))

theorem quiesceLaunch_safe {cl h : Nat} (hs : MemorySafe s) : MemorySafe (quiesceLaunch s cl h) := by
  unfold quiesceLaunch
  split
  · exact setLaunch_safe (markLaunch_safe hs)
  · exact hs

theorem execQuiesce_safe {input : BitVec 16} (hs : MemorySafe s) : NextSafe (execQuiesce input s) := by
  unfold execQuiesce
  exact ite_next hs (forLaunches_safe (fun _ _ _ ht => quiesceLaunch_safe ht) (fields_safe (setInput_safe hs)))

theorem execSequencerStop_safe {timeUp : Bool} (hs : MemorySafe s) : NextSafe (execSequencerStop timeUp s) := by
  unfold execSequencerStop
  refine ite_next hs ?_
  refine foldl_safe ?_ (fields_safe hs)
  intro _ _ ht
  split
  exact drainCore_safe ht

theorem unquiesce_safe {cl h : Nat} (hs : MemorySafe s) : MemorySafe (unquiesce s cl h) := by
  unfold unquiesce
  split
  · exact ite_safe (startSources_safe (setLaunch_safe hs)) (setLaunch_safe hs)
  · exact hs

theorem execInputRestored_safe {input : BitVec 16} (hs : MemorySafe s) : NextSafe (execInputRestored input s) := by
  unfold execInputRestored
  exact ite_next hs (forLaunches_safe (fun _ _ _ ht => unquiesce_safe ht) (fields_safe (setInput_safe hs)))

theorem powerOff_safe : MemorySafe (powerOff s) := fields_safe memorySafe_reset

theorem execHoldUpExhausted_safe (hs : MemorySafe s) : NextSafe (execHoldUpExhausted s) := by
  unfold execHoldUpExhausted
  exact ite_safe powerOff_safe hs

theorem dropReady_safe : MemorySafe (dropReady s) := by
  unfold dropReady
  exact fields_safe powerOff_safe

theorem execThermalTrip_safe {core : Nat} {temp : Int} (hs : MemorySafe s) :
    NextSafe (execThermalTrip core temp s) := by
  unfold execThermalTrip
  exact ite_next hs (fields_safe dropReady_safe)

theorem execReset_safe : NextSafe (execReset s) := dropReady_safe

theorem execCap_safe {v : Word} (hs : MemorySafe s) : NextSafe (execCap v s) := by
  unfold execCap
  exact shareBudget_safe (fields_safe hs)

theorem execHbeat_safe {v : Word} (hs : MemorySafe s) : NextSafe (execHbeat v s) := by
  unfold execHbeat
  exact shareBudget_safe (fields_safe hs)

theorem execCapFloorTimeout_safe (hs : MemorySafe s) : NextSafe (execCapFloorTimeout s) := by
  unfold execCapFloorTimeout
  exact shareBudget_safe (fields_safe hs)

theorem execReplicaFailure_safe {core : Nat} (hs : MemorySafe s) : NextSafe (execReplicaFailure core s) := by
  unfold execReplicaFailure
  exact ite_next hs (modCore_safe (fun _ hk => hk) hs)

theorem coreAfter_pots {r : SelfTest} {c : Nat} : (coreAfter r c).pots = [] := rfl

theorem bootedState_mem {r : SelfTest} {f : Flash} {attest : Bool} :
    (bootedState s r f attest).mem = mwrites [] defectMapBase (defectMap r f.ordinal) := by
  unfold bootedState
  with_reducible rfl

theorem bootedState_cores {r : SelfTest} {f : Flash} {attest : Bool} :
    (bootedState s r f attest).cores = (List.range 264).map fun c => (c, coreAfter r c) := by
  unfold bootedState
  with_reducible rfl

theorem bootedState_safe {r : SelfTest} {f : Flash} {attest : Bool} : MemorySafe (bootedState s r f attest) := by
  constructor
  · rw [bootedState_mem]
    exact wf_mwrites _ _ rfl
  · intro _ _ hk
    rw [bootedState_cores] at hk
    obtain ⟨_, _, he⟩ := List.mem_map.1 hk
    rw [← (Prod.mk.inj he).2, coreAfter_pots]
    rfl

theorem execPowerOn_safe {r : SelfTest} (hs : MemorySafe s) : NextSafe (execPowerOn r s) := by
  unfold execPowerOn
  refine ite_next hs ?_
  split
  next he => exact fireEvery_safe (fields_safe (ite_safe bootedState_safe (fields_safe powerOff_safe)))

/-! ## Machine/Host -/

theorem answerHost_safe {b : Option (List Byte)} (hs : MemorySafe s) : MemorySafe (answerHost s b) := fields_safe hs

theorem maskVector_safe {fn vec : Nat} {mask : Bool} (hs : MemorySafe s) : MemorySafe (maskVector s fn vec mask) :=
  fields_safe hs

theorem execMsixUnmask_safe {fn vec : Nat} (hs : MemorySafe s) : NextSafe (execMsixUnmask fn vec s) := by
  unfold execMsixUnmask
  exact ite_safe (maskVector_safe hs) hs

theorem setWindow_safe {egress : Bool} {win : Nat} {w : Window} (hs : MemorySafe s) :
    MemorySafe (s.setWindow egress win w) := by
  unfold State.setWindow
  exact ite_safe (fields_safe hs) (fields_safe hs)

theorem execIngressTailWrite_safe {win : Nat} {v : Word} (hs : MemorySafe s) :
    NextSafe (execIngressTailWrite win v s) := by
  unfold execIngressTailWrite
  exact ite_next hs (ite_next (setWindow_safe hs) (setWindow_safe hs))

theorem execEgressHeadWrite_safe {win : Nat} {v : Word} (hs : MemorySafe s) :
    NextSafe (execEgressHeadWrite win v s) := by
  unfold execEgressHeadWrite
  exact ite_next hs (ite_next (setWindow_safe hs) (setWindow_safe hs))

theorem refuseAttachment_safe {egress : Bool} {win : Nat} {w : Window} (hs : MemorySafe s) :
    MemorySafe (refuseAttachment s egress win w) :=
  setWindow_safe hs

theorem execAttachmentWrite_safe {egress : Bool} {win : Nat} {v : Word} (hs : MemorySafe s) :
    NextSafe (execAttachmentWrite egress win v s) := by
  unfold execAttachmentWrite
  exact ite_next hs (ite_next (refuseAttachment_safe hs) (setWindow_safe hs))

theorem advanceHead_safe {win : Nat} {w : Window} (hs : MemorySafe s) : MemorySafe (advanceHead s win w) := by
  unfold advanceHead
  exact ite_safe (fire_safe (setWindow_safe hs)) (setWindow_safe hs)

theorem execIngressPush_safe {win : Nat} (hs : MemorySafe s) : NextSafe (execIngressPush win s) := by
  unfold execIngressPush
  refine ite_next hs ?_
  split
  · exact refuseAttachment_safe hs
  · refine ite_next hs ?_
    split
    · exact advanceHead_safe hs
    · exact ite_next (advanceHead_safe (pushSource_safe hs)) hs

theorem publishSlot_safe {win : Nat} {w : Window} {k : Tok} (hs : MemorySafe s) :
    MemorySafe (publishSlot s win w k) := by
  unfold publishSlot
  exact fire_safe (setWindow_safe hs)

theorem execEgressSlotWrite_safe {win : Nat} (hs : MemorySafe s) : NextSafe (execEgressSlotWrite win s) := by
  unfold execEgressSlotWrite
  refine ite_next hs ?_
  split
  · exact refuseAttachment_safe hs
  · refine ite_next hs ?_
    split
    · exact hs
    next hf => exact (egressTake_safe hs).some hf
    next hf => exact publishSlot_safe ((egressTake_safe hs).some hf)

theorem apertureMap_safe {fn off len : Nat} {acc : Access} (hs : MemorySafe s) :
    SomeSafe (fun r => MemorySafe r.2) (apertureMap s fn off len acc) := by
  unfold apertureMap
  refine ite_some (ite_some hs trivial) ?_
  split
  · trivial
  · refine List.foldlRecOn (motive := SomeSafe fun r : List Nat × State => MemorySafe r.2) _ _ hs fun _ hr _ _ => ?_
    split
    · trivial
    · split
      next he => exact safe_of_snd_snd (translate_safe hr) he
      · trivial

theorem apertureRead_safe {fn off len : Nat} (hs : MemorySafe s) : MemorySafe (apertureRead s fn off len) := by
  unfold apertureRead
  refine ite_safe (answerHost_safe hs) ?_
  split
  · exact answerHost_safe hs
  next he => exact answerHost_safe ((apertureMap_safe hs).some he)

theorem execApertureWrite_safe {fn off : Nat} {b : List Byte} (hs : MemorySafe s) :
    NextSafe (execApertureWrite fn off b s) := by
  unfold execApertureWrite
  refine ite_next hs ?_
  split
  · exact fields_safe hs
  next he =>
    exact writePhys_safe (SomeSafe.some (p := (fun r => MemorySafe r.2)) (ite_some trivial (apertureMap_safe hs)) he)

theorem windowBytes_safe {fn off : Nat} {bs : List Byte} (hs : MemorySafe s) :
    MemorySafe (windowBytes s fn off bs) := by
  induction bs generalizing s off with
  | nil => exact hs
  | cons b bs ih => exact ih (ite_safe (setWindow_safe hs) hs)

theorem modSelected_safe {f : Ctx → Ctx} (hs : MemorySafe s) : MemorySafe (modSelected s f) := modCtx_safe hs

theorem writeLogMode_safe {v : Word} (hs : MemorySafe s) : MemorySafe (writeLogMode s v) := by
  unfold writeLogMode
  exact logModeWritten_safe (modSelected_safe hs)

theorem mgmtWrite_safe {off : Nat} {v : Word} (hs : MemorySafe s) : MemorySafe (mgmtWrite s off v) := by
  unfold mgmtWrite
  split
  · exact fields_safe hs
  · exact modSelected_safe hs
  · exact modSelected_safe hs
  · exact modSelected_safe hs
  · exact modSelected_safe hs
  · exact fields_safe hs
  · exact fields_safe hs
  · exact fields_safe hs
  · exact fields_safe hs
  · exact fields_safe hs
  · exact fields_safe hs
  · exact fields_safe hs
  · exact modSelected_safe hs
  · exact modSelected_safe hs
  · exact modSelected_safe hs
  · exact writeLogMode_safe hs
  · exact fields_safe hs
  · exact fields_safe hs
  · exact ite_safe (fields_safe hs) hs

theorem tableWrite_safe {fn off : Nat} {v : Word} (hs : MemorySafe s) : MemorySafe (tableWrite s fn off v) := by
  unfold tableWrite
  exact ite_safe hs (ite_safe (fields_safe hs) (ite_safe (maskVector_safe (fields_safe hs)) hs))

theorem execRegisterWrite_safe {w : RegWrite} (hs : MemorySafe s) : NextSafe (execRegisterWrite w s) := by
  unfold execRegisterWrite
  split
  · refine ite_next hs (ite_next (tableWrite_safe hs) ?_)
    exact ite_safe (mgmtWrite_safe hs) hs
  · exact ite_safe (windowBytes_safe hs) hs

theorem dropReply_safe (hs : MemorySafe s) : MemorySafe (dropReply s) := fields_safe hs

theorem registersRead_safe {fn off len : Nat} (hs : MemorySafe s) : MemorySafe (registersRead s fn off len) := by
  unfold registersRead
  exact ite_safe (answerHost_safe hs) (answerHost_safe (ite_safe (dropReply_safe hs) hs))

theorem windowsRead_safe {fn off len : Nat} (hs : MemorySafe s) : MemorySafe (windowsRead s fn off len) := by
  unfold windowsRead
  exact ite_safe (answerHost_safe hs) (answerHost_safe hs)

theorem execApertureRead_safe {region : HostRegion} {off len : Nat} (hs : MemorySafe s) :
    NextSafe (execApertureRead region off len s) := by
  unfold execApertureRead
  split
  · exact registersRead_safe hs
  · exact windowsRead_safe hs
  · exact apertureRead_safe hs

/-! ## Machine/Keys -/

theorem newKey_safe {t : Thread} {k : KReg} {key : KeyReg} (hs : MemorySafe s) : EffectSafe (newKey s t k key) :=
  retireKey_safe hs

theorem execKset_safe {k : KReg} {a b : GReg} (hs : MemorySafe s) : NextSafe (execKset k a b s) := by
  unfold execKset
  exact perform_safe (fun _ _ ht => newKey_safe ht) hs

theorem execKstep_safe {k : KReg} {a : GReg} (hs : MemorySafe s) : NextSafe (execKstep k a s) := by
  unfold execKstep
  exact perform_safe (fun _ _ ht => ite_run trivial (newKey_safe ht)) hs

theorem execKget_safe {d : GReg} {k : KReg} {part : BitVec 1} (hs : MemorySafe s) :
    NextSafe (execKget d k part s) := by
  unfold execKget
  exact perform_safe (fun _ _ ht => ite_run ht (ite_run trivial ht)) hs

theorem execRdraw_safe {d : GReg} {k : KReg} {b : GReg} {index : BitVec 4} (hs : MemorySafe s) :
    NextSafe (execRdraw d k b index s) := by
  unfold execRdraw
  exact perform_safe (fun _ _ ht => ite_run trivial ht) hs

/-! ## Machine/LoadStore -/

theorem storeEffect_safe {t : Thread} {ea : Word} {n : Nat} (hs : MemorySafe s) : EffectSafe (storeEffect s t ea n) :=
  hs

theorem execLd_safe {q : LdQual} {size : BitVec 3} {d base : GReg} {off : BitVec 11} (hs : MemorySafe s) :
    NextSafe (execLd q size d base off s) := by
  unfold execLd
  refine perform_safe ?_ hs
  intro _ _ ht
  refine map_safe (loadBytes_safe ht) ?_
  intro _ hu
  split
  exact hu

theorem execSt_safe {q : StQual} {size : BitVec 3} {d base : GReg} {off : BitVec 11} (hs : MemorySafe s) :
    NextSafe (execSt q size d base off s) := by
  unfold execSt
  exact perform_safe (fun _ _ ht => map_safe (storeBytes_safe ht) (fun _ hu => storeEffect_safe hu)) hs

theorem execLdv_safe {q : LdQual} {v : VReg} {base : GReg} {off : BitVec 11} (hs : MemorySafe s) :
    NextSafe (execLdv q v base off s) := by
  unfold execLdv
  refine perform_safe ?_ hs
  intro _ _ ht
  refine map_safe (loadBytes_safe ht) ?_
  intro _ hu
  split
  exact hu

theorem execStv_safe {q : StQual} {v : VReg} {base : GReg} {off : BitVec 11} (hs : MemorySafe s) :
    NextSafe (execStv q v base off s) := by
  unfold execStv
  exact perform_safe (fun _ _ ht => map_safe (storeBytes_safe ht) (fun _ hu => storeEffect_safe hu)) hs

theorem execLdw_safe {size : BitVec 3} {d base : GReg} {off : BitVec 11} (hs : MemorySafe s) :
    NextSafe (execLdw size d base off s) := by
  unfold execLdw
  refine perform_safe ?_ hs
  intro _ _ ht
  refine map_safe (loadFull_safe ht) ?_
  intro _ hu
  split
  exact hu

theorem execLdc_safe {size : BitVec 3} {d base : GReg} {off : BitVec 11} (hs : MemorySafe s) :
    NextSafe (execLdc size d base off s) := by
  unfold execLdc
  refine perform_safe ?_ hs
  intro _ _ ht
  refine map_safe (loadFull_safe ht) ?_
  intro _ hu
  split
  exact hu

theorem execStf_safe {size : BitVec 3} {d base : GReg} {off : BitVec 11} (hs : MemorySafe s) :
    NextSafe (execStf size d base off s) := by
  unfold execStf
  exact perform_safe (fun _ _ ht => map_safe (storeFull_safe ht) (fun _ hu => storeEffect_safe hu)) hs

theorem execClrf_safe {base : GReg} {off : BitVec 11} (hs : MemorySafe s) : NextSafe (execClrf base off s) := by
  unfold execClrf
  exact perform_safe (fun _ _ ht => map_safe (clearFull_safe ht) (fun _ hu => storeEffect_safe hu)) hs

theorem execStoreDrain_safe {core n : Nat} (hs : MemorySafe s) : NextSafe (execStoreDrain core n s) := by
  unfold execStoreDrain
  split
  · exact hs
  · exact ite_next hs (releaseStores_safe (performStore_safe (modCore_safe (fun _ hk => hk) hs)))

theorem wakeLine_safe {core : Nat} (hs : MemorySafe s) : MemorySafe (wakeLine s core) := fields_safe hs

theorem execInstructionLineFill_safe {core n : Nat} (hs : MemorySafe s) :
    NextSafe (execInstructionLineFill core n s) := by
  unfold execInstructionLineFill
  split
  · exact hs
  · split
    next hf => exact wakeLine_safe (modCore_safe (fun _ hk => hk) (safe_of_snd_snd (translate_safe hs) hf))
    next hf => exact wakeLine_safe (modCore_safe (fun _ hk => hk) (safe_of_snd_snd (translate_safe hs) hf))

/-! ## Machine/Mgmt -/

theorem execClearFaultRecord_safe (hs : MemorySafe s) : NextSafe (execClearFaultRecord s) := by
  unfold execClearFaultRecord
  exact ite_safe (modSelected_safe hs) hs

theorem execResetContext_safe (hs : MemorySafe s) : NextSafe (execResetContext s) := by
  unfold execResetContext
  exact ite_next hs (logModeWritten_safe (modSelected_safe hs))

theorem dropTranslations_safe {ctx lo hi : Nat} (hs : MemorySafe s) : MemorySafe (dropTranslations s ctx lo hi) :=
  fields_safe hs

theorem beginInvalidate_safe {lo hi : Nat} (hs : MemorySafe s) : MemorySafe (beginInvalidate s lo hi) := by
  unfold beginInvalidate
  exact ite_safe hs (modSelected_safe (dropTranslations_safe hs))

theorem execInvalidateContext_safe (hs : MemorySafe s) : NextSafe (execInvalidateContext s) := beginInvalidate_safe hs

theorem execInvalidateRange_safe (hs : MemorySafe s) : NextSafe (execInvalidateRange s) := beginInvalidate_safe hs

theorem releaseDeferred_safe {d : Deferred} (hs : MemorySafe s) : MemorySafe (releaseDeferred s d) := by
  unfold releaseDeferred
  split
  · exact modEdge_safe hs
  · exact wakeOne_safe hs

theorem endInvalidate_safe {ctx lo hi : Nat} (hs : MemorySafe s) : MemorySafe (endInvalidate s ctx lo hi) := by
  unfold endInvalidate
  exact rimRoom_safe (foldl_safe (fun _ _ ht => releaseDeferred_safe ht) (fields_safe (dropTranslations_safe hs)))

theorem completeInvalidate_safe {ctx : Nat} (hs : MemorySafe s) : MemorySafe (completeInvalidate s ctx) := by
  unfold completeInvalidate
  split
  · exact firePhysical_safe (modCtx_safe (endInvalidate_safe hs))
  · exact hs

theorem execInvalidateComplete_safe (hs : MemorySafe s) : NextSafe (execInvalidateComplete s) := by
  unfold execInvalidateComplete
  split
  · exact hs
  · exact completeInvalidate_safe hs
  · split
    next hf => exact completeInvalidate_safe (safe_of_snd (choose_safe hs) hf)

theorem endCommand_safe {refused : Bool} (hs : MemorySafe s) : MemorySafe (endCommand s refused) := by
  unfold endCommand
  exact firePhysical_safe (fields_safe hs)

theorem execPreempt_safe {v : Word} (hs : MemorySafe s) : NextSafe (execPreempt v s) := by
  unfold execPreempt
  refine ite_next hs ?_
  split
  · refine ite_next (endCommand_safe hs) ?_
    dsimp only
    split
    · exact setLaunch_safe (markLaunch_safe (fields_safe hs))
    · exact markLaunch_safe (fields_safe hs)
  · exact endCommand_safe hs

theorem execResume_safe {v : Word} (hs : MemorySafe s) : NextSafe (execResume v s) := by
  unfold execResume
  refine ite_next hs ?_
  split
  · exact ite_next (endCommand_safe hs) (endCommand_safe (modCluster_safe (setLaunch_safe hs)))
  · exact endCommand_safe hs

theorem releaseFault_safe {i : Nat} (hs : MemorySafe s) : MemorySafe (releaseFault s i) := by
  unfold releaseFault
  exact tmap_cores_safe (fun _ _ hk => hk) hs

theorem execFqresume_safe {v : Word} (hs : MemorySafe s) : NextSafe (execFqresume v s) := releaseFault_safe hs

theorem execLctWrite_safe {v : Word} (hs : MemorySafe s) : NextSafe (execLctWrite v s) := by
  unfold execLctWrite
  extract_lets lc e next n gains t u v
  have ht : MemorySafe t := ite_safe (switchContext_safe hs) hs
  have hu : MemorySafe u := ite_safe (modCore_safe (fun _ hk => hk) ht) ht
  have hv : MemorySafe v := setLct_safe hu
  clear_value v
  exact ite_safe (modCore_safe (fun _ hk => hk) hv) hv

theorem execPotZeroingComplete_safe {core : Nat} (hs : MemorySafe s) : NextSafe (execPotZeroingComplete core s) := by
  unfold execPotZeroingComplete
  exact ite_next hs (modCore_safe (fun _ _ => rfl) hs)

theorem newctlThread_safe {v : Word} (hs : MemorySafe s) : SomeSafe (fun r => MemorySafe r.2) (newctlThread s v) := by
  unfold newctlThread
  exact ite_some trivial (createThread_safe hs)

theorem execNewctl_safe {v : Word} (hs : MemorySafe s) : NextSafe (execNewctl v s) := by
  unfold execNewctl
  split
  next he =>
    refine firePhysical_safe ?_
    refine fields_safe ?_
    split
    · exact modCore_safe (fun _ hk => hk) ((newctlThread_safe hs).some he)
    · exact (newctlThread_safe hs).some he
  · exact firePhysical_safe (fields_safe hs)

theorem execSvcrsp_safe (hs : MemorySafe s) : NextSafe (execSvcrsp s) := by
  unfold execSvcrsp
  exact answerHost_safe (dropReply_safe hs)

/-! ## Machine/Places -/

theorem execXnew_safe {d a : GReg} (hs : MemorySafe s) : NextSafe (execXnew d a s) := by
  unfold execXnew
  exact perform_safe (fun _ _ ht => ite_run trivial (ite_run ht (setCluster_safe ht))) hs

theorem execXfree_safe {a : GReg} (hs : MemorySafe s) : NextSafe (execXfree a s) := by
  unfold execXfree
  refine perform_safe ?_ hs
  intro _ _ ht
  dsimp only
  split
  · trivial
  · exact ite_run trivial (modCluster_safe ht)

theorem passesLogged_safe {t : Thread} (hs : MemorySafe s) :
    RunSafe (fun r => MemorySafe r.2) (passesLogged s t) := by
  unfold passesLogged
  split
  next he => exact (logNext_safe hs).error he
  next he => exact (logNext_safe hs).ok he
  next he => exact (logNext_safe hs).ok he

theorem execXreq_safe {d a b : GReg} (hs : MemorySafe s) : NextSafe (execXreq d a b s) := by
  unfold execXreq
  refine perform_safe ?_ hs
  intro _ _ ht
  dsimp only
  split
  · trivial
  · refine ite_run trivial (ite_run ht ?_)
    split
    next hf => exact RunSafe.error (p := (fun r => MemorySafe r.2)) (ite_run ht (passesLogged_safe ht)) hf
    · trivial
    next hf =>
      split
      next hg =>
        exact (decide_safe (modObj_safe (modCluster_safe
          (RunSafe.ok (p := (fun r => MemorySafe r.2)) (ite_run ht (passesLogged_safe ht)) hf)))).error hg
      next hg =>
        exact (decide_safe (modObj_safe (modCluster_safe
          (RunSafe.ok (p := (fun r => MemorySafe r.2)) (ite_run ht (passesLogged_safe ht)) hf)))).ok hg

theorem execXwait_safe {a : GReg} (hs : MemorySafe s) : NextSafe (execXwait a s) := by
  unfold execXwait
  refine perform_safe ?_ hs
  intro _ _ ht
  dsimp only
  split
  next he => exact ownPlace_safe.error he
  · split
    · exact ht
    · exact acquireFor_safe ht
    · trivial

theorem execXtry_safe {d a : GReg} (hs : MemorySafe s) : NextSafe (execXtry d a s) := by
  unfold execXtry
  refine perform_safe ?_ hs
  intro _ _ ht
  split
  next he => exact ownPlace_safe.error he
  · exact ite_safe (acquireFor_safe ht) ht

theorem execXgive_safe {a b : GReg} (hs : MemorySafe s) : NextSafe (execXgive a b s) := by
  unfold execXgive
  refine perform_safe ?_ hs
  intro _ _ ht
  dsimp only
  split
  next he => exact ownPlace_safe.error he
  · refine ite_run trivial (ite_run ht ?_)
    split
    next hf => exact RunSafe.error (p := (fun _ => True)) (ite_run (drained_safe ht) trivial) hf
    · exact modPlace_safe ht

theorem execXswap_safe {a b : GReg} (hs : MemorySafe s) : NextSafe (execXswap a b s) := by
  unfold execXswap
  refine perform_safe ?_ hs
  intro _ _ ht
  dsimp only
  split
  next he => exact ownPlace_safe.error he
  · refine ite_run trivial ?_
    split
    · exact ite_run trivial (map_safe (decide_safe (ite_safe (modPlace_safe (modPlace_safe ht)) (modObj_safe ht)))
        (fun _ hu => hu))
    · trivial

theorem releaseFor_safe {t : Thread} {i : Nat} (hs : MemorySafe s) : RunSafe EffectSafe (releaseFor s t i) := by
  unfold releaseFor
  split
  next he => exact (drained_safe hs).error he
  · exact map_safe (releasePlace_safe hs) (fun _ ht => ht)

theorem execXdrop_safe {a : GReg} (hs : MemorySafe s) : NextSafe (execXdrop a s) := by
  unfold execXdrop
  refine perform_safe ?_ hs
  intro _ _ ht
  dsimp only
  split
  next he => exact ownPlace_safe.error he
  · split
    · exact releaseFor_safe ht
    · exact map_safe (dropQueued_safe ht) (fun _ hu => hu)
    · exact ht

theorem execXrel_safe {a : GReg} (hs : MemorySafe s) : NextSafe (execXrel a s) := by
  unfold execXrel
  refine perform_safe ?_ hs
  intro _ _ ht
  dsimp only
  split
  next he => exact ownPlace_safe.error he
  · exact ite_run (releaseFor_safe ht) trivial

theorem execXstat_safe {d a : GReg} (hs : MemorySafe s) : NextSafe (execXstat d a s) := by
  unfold execXstat
  refine perform_safe ?_ hs
  intro _ _ ht
  dsimp only
  split
  · trivial
  · exact ht
  · exact ht

theorem execReleaseWalk_safe {cl obj : Nat} (hs : MemorySafe s) : NextSafe (execReleaseWalk cl obj s) := by
  unfold execReleaseWalk
  split
  · exact hs
  · refine ite_next hs ?_
    split
    next hf => exact (walkObject_safe hs).ok hf
    · exact hs

/-! ## Machine/Ports -/

theorem namedPot_safe {t : Thread} {x : Word} (hs : MemorySafe s) :
    SomeSafe (fun r => MemorySafe r.2) (namedPot s t x) := by
  unfold namedPot
  split
  · trivial
  · exact hs
  · split
    next hf => exact safe_of_snd (choose_safe hs) hf

theorem portOf_safe {t : Thread} {x : Word} (hs : MemorySafe s) :
    SomeSafe (fun r => MemorySafe r.2) (portOf s t x) := by
  unfold portOf
  refine ite_some trivial ?_
  split
  · exact hs
  · exact option_map_safe (namedPot_safe hs) (fun _ ht => ht)
  · split
    · exact hs
    · trivial

theorem bindEnd_safe {t : Thread} {ch : ChSlot} {desc : Nat} {out : Bool} (hs : MemorySafe s) :
    MemorySafe (bindEnd s t ch desc out) := by
  unfold bindEnd
  exact setThread_safe (dropChan_safe hs)

theorem execBindPort_safe {ch : ChSlot} {b : GReg} (hs : MemorySafe s) : NextSafe (execBindPort ch b s) := by
  unfold execBindPort
  refine perform_safe ?_ hs
  intro _ _ ht
  refine ite_run (ite_run trivial (ite_run trivial (bindEnd_safe ht))) (ite_run trivial ?_)
  split
  · trivial
  next he => exact retrySources_safe (bindEnd_safe (setPort_safe ((portOf_safe ht).some he)))

/-! ## Machine/Service -/

theorem takeRequest_safe {src : SvcSrc} (hs : MemorySafe s) : MemorySafe (takeRequest s src) := by
  unfold takeRequest
  split
  · exact fields_safe hs
  · dsimp only
    split
    · exact wakeSlot_safe (fields_safe hs)
    · exact fields_safe hs

theorem reply_safe {src : SvcSrc} {status : Nat} (hs : MemorySafe s) : MemorySafe (reply s src status) := by
  unfold reply
  split
  · exact firePhysical_safe (fields_safe hs)
  · refine ite_safe hs ?_
    split
    next he =>
      dsimp only
      split
      · exact wakeSlot_safe (fields_safe (safe_of_snd (arrive_safe hs) he))
      · exact fields_safe (safe_of_snd (arrive_safe hs) he)

theorem readFor_safe {src : SvcSrc} {addr n : Nat} (hs : MemorySafe s) :
    SomeSafe (fun r => MemorySafe r.2) (readFor s src addr n) := by
  unfold readFor
  split
  · exact ite_some hs trivial
  · split
    · trivial
    · exact ite_some trivial (toOption_safe (readVirt_safe hs))

theorem writeFor_safe {src : SvcSrc} {addr : Nat} {b : List Byte} (hs : MemorySafe s) :
    SomeSafe MemorySafe (writeFor s src addr b) := by
  unfold writeFor
  split
  · exact ite_some (writePhys_safe hs) trivial
  · split
    · trivial
    · exact ite_some trivial (writeVirt_safe hs)

theorem serve_safe {src : SvcSrc} {mine : State → Word → Word → Bool} {f : State → Word → Word → Nat × State}
    (hf : ∀ s a b, MemorySafe s → MemorySafe (f s a b).2) (hs : MemorySafe s) :
    NextSafe (serve s src mine f) := by
  unfold serve
  split
  · exact hs
  · exact ite_next hs (reply_safe (hf _ _ _ (takeRequest_safe hs)))

theorem verifyStatus_safe {src : SvcSrc} {a b : Word} (hs : MemorySafe s) :
    MemorySafe (verifyStatus s src a b).2 := by
  unfold verifyStatus
  refine ite_snd_safe ?_ ?_
  · exact hs
  · split
    · exact hs
    · split
      · exact hs
      next hf =>
        refine ite_snd_safe ?_ ?_
        · exact (readFor_safe hs).some hf
        · refine ite_snd_safe ?_ ?_
          · exact (readFor_safe hs).some hf
          · split
            · exact (readFor_safe hs).some hf
            next hg => exact (readFor_safe ((readFor_safe hs).some hf)).some hg

theorem execVerifyImage_safe {src : SvcSrc} (hs : MemorySafe s) : NextSafe (execVerifyImage src s) := by
  unfold execVerifyImage
  exact serve_safe (fun _ _ _ ht => verifyStatus_safe ht) hs

theorem execAttestationQuote_safe {src : SvcSrc} (hs : MemorySafe s) : NextSafe (execAttestationQuote src s) := by
  unfold execAttestationQuote
  refine serve_safe ?_ hs
  intro _ _ _ ht
  refine ite_snd_safe ?_ ?_
  · exact ht
  · refine ite_snd_safe ?_ ?_
    · exact ht
    · split
      · exact ht
      next he =>
        split
        · exact (readFor_safe ht).some he
        next hf => exact fields_safe ((writeFor_safe ((readFor_safe ht).some he)).some hf)

theorem installFirmware_safe {x : List Byte} (hs : MemorySafe s) : MemorySafe (installFirmware s x) := fields_safe hs

theorem execInstallGeneralFirmware_safe {src : SvcSrc} (hs : MemorySafe s) :
    NextSafe (execInstallGeneralFirmware src s) := by
  unfold execInstallGeneralFirmware
  refine serve_safe ?_ hs
  intro _ _ _ ht
  refine ite_snd_safe ?_ ?_
  · exact ht
  · split
    · exact ht
    next he =>
      exact ite_snd_safe ((readFor_safe ht).some he)
        (ite_snd_safe ((readFor_safe ht).some he) (installFirmware_safe ((readFor_safe ht).some he)))

theorem serveRecord_safe {src : SvcSrc} {op : Nat} {f : State → List Byte → Nat × State}
    (hf : ∀ s r, MemorySafe s → MemorySafe (f s r).2) (hs : MemorySafe s) :
    NextSafe (serveRecord s src op f) := by
  unfold serveRecord
  refine serve_safe (fun _ _ _ ht => ?_) hs
  split
  · exact ht
  next he => exact ite_snd_safe (hf _ _ ((readFor_safe ht).some he)) ((readFor_safe ht).some he)

theorem entryMoved_safe {chip : Nat} {old : Word} (hs : MemorySafe s) : MemorySafe (entryMoved s chip old) := by
  unfold entryMoved
  exact ite_safe (resendAll_safe (setDest_safe hs)) hs

theorem takesOver_safe {chip : Nat} (hs : MemorySafe s) : MemorySafe (takesOver s chip).2 := by
  unfold takesOver
  refine ite_snd_safe ?_ ?_
  · exact hs
  · refine ite_snd_safe ?_ ?_
    · exact hs
    · split
      next he => exact safe_of_snd (choose_safe hs) he

theorem assumeNumber_safe {chip : Nat} (hs : MemorySafe s) : MemorySafe (assumeNumber s chip) := by
  unfold assumeNumber
  split
  next he => exact fields_safe (safe_of_snd (takesOver_safe hs) he)

theorem execWriteEntry_safe {src : SvcSrc} (hs : MemorySafe s) : NextSafe (execWriteEntry src s) := by
  unfold execWriteEntry
  exact serveRecord_safe (fun _ _ ht => ite_snd_safe ht
    (ite_snd_safe ht (ite_snd_safe ht (entryMoved_safe (fields_safe (ite_safe (assumeNumber_safe ht) ht)))))) hs

theorem execReadFabricState_safe {src : SvcSrc} (hs : MemorySafe s) : NextSafe (execReadFabricState src s) := by
  unfold execReadFabricState
  refine serveRecord_safe ?_ hs
  intro _ _ ht
  dsimp only
  split
  · exact ht
  next he => exact fields_safe ((writeFor_safe ht).some he)

theorem restoreChip_safe {b : List Byte} {chip : Nat} (hs : MemorySafe s) : MemorySafe (restoreChip b s chip) := by
  unfold restoreChip
  exact setDest_safe (setSource_safe hs)

theorem execRestoreFabricState_safe {src : SvcSrc} (hs : MemorySafe s) : NextSafe (execRestoreFabricState src s) := by
  unfold execRestoreFabricState
  refine serveRecord_safe ?_ hs
  intro _ _ ht
  refine ite_snd_safe ?_ ?_
  · exact ht
  · split
    · exact ht
    next he => exact fields_safe (foldl_safe (fun _ _ hu => restoreChip_safe hu) ((readFor_safe ht).some he))

theorem execPublishHorizon_safe {src : SvcSrc} (hs : MemorySafe s) : NextSafe (execPublishHorizon src s) := by
  unfold execPublishHorizon
  exact serveRecord_safe (fun _ _ ht => foldl_safe (fun _ _ hu => emitMsg_safe hu) ht) hs

theorem physFor_safe {src : SvcSrc} {addr : Nat} (hs : MemorySafe s) :
    SomeSafe (fun r => MemorySafe r.2) (physFor s src addr) := by
  cases src with
  | host => exact hs
  | thread tid =>
    refine bind_safe (p := fun _ => True) (by cases requesterCtx s tid <;> trivial) fun _ _ => ite_some trivial ?_
    exact bind_safe (mapVirt_safe hs) fun _ hr => option_map_any fun _ => hr

theorem execSetRetentionLog_safe {src : SvcSrc} (hs : MemorySafe s) : NextSafe (execSetRetentionLog src s) := by
  unfold execSetRetentionLog
  refine serveRecord_safe ?_ hs
  intro _ _ ht
  split
  · exact ht
  next he =>
    exact ite_snd_safe (((physFor_safe ht).some he :))
      (wakeSenders_safe (fields_safe (((physFor_safe ht).some he :))))

/-! ## Machine/Issue -/

theorem restoreOne_safe {lc : Nat} (hs : MemorySafe s) : SomeSafe MemorySafe (restoreOne s lc) := by
  unfold restoreOne
  split
  · trivial
  · split
    · exact setThread_safe hs
    · split
      · exact setThread_safe (setThread_safe hs)
      · trivial

theorem restoreAll_safe {lc n : Nat} (hs : MemorySafe s) : MemorySafe (restoreAll lc n s) := by
  induction n generalizing s with
  | zero => exact hs
  | succ n ih =>
    unfold restoreAll
    split
    next he => exact ih ((restoreOne_safe hs).some he)
    · exact hs

theorem preemptThread_safe {tid : Nat} (hs : MemorySafe s) : MemorySafe (preemptThread s tid) := by
  unfold preemptThread
  split
  · exact hs
  · split
    · exact hs
    · exact foldContext_safe (setThread_safe (setThread_safe (fields_safe hs)))

theorem expireSlice_safe {tid : Nat} (hs : MemorySafe s) : MemorySafe (expireSlice s tid) := by
  unfold expireSlice
  split
  · exact hs
  · exact ite_safe hs (ite_safe (takeTrap_safe (setThread_safe hs)) (preemptThread_safe (setThread_safe hs)))

theorem tickThreads_safe {lc : Nat} (hs : MemorySafe s) : MemorySafe (tickThreads s lc) := fields_safe hs

theorem expireWait_safe {tid : Nat} (hs : MemorySafe s) : MemorySafe (expireWait s tid) := by
  unfold expireWait
  split
  · exact ite_safe (endWait_safe hs) hs
  · exact hs

theorem openSlot_safe {lc : Nat} (hs : MemorySafe s) : MemorySafe (openSlot s lc) := by
  unfold openSlot
  exact foldl_safe (fun _ _ ht => expireSlice_safe ht)
    (restoreAll_safe (foldl_safe (fun _ _ ht => expireWait_safe ht) (tickThreads_safe hs)))

theorem fetchAt_safe {t : Thread} (hs : MemorySafe s) : MemorySafe (fetchAt s t).2 := by
  unfold fetchAt
  refine ite_snd_safe ?_ ?_
  · exact hs
  · refine ite_snd_safe ?_ ?_
    · exact hs
    · split
      next he => split <;> exact safe_of_snd_snd (translate_safe hs) he
      next he => exact safe_of_snd_snd (translate_safe hs) he

theorem missLine_safe {tid : Nat} {t : Thread} (hs : MemorySafe s) : MemorySafe (missLine s tid t) := by
  unfold missLine
  exact setThread_safe (modCore_safe (fun _ hk => hk) hs)

theorem dropStale_safe {tid : Nat} (hs : MemorySafe s) : MemorySafe (dropStale s tid) := by
  unfold dropStale
  split
  · exact hs
  · exact ite_safe (dropTurns_safe hs) hs

theorem issueThread_safe {tid : Nat} (hs : MemorySafe s) : IssueSafe (issueThread s tid) := by
  unfold issueThread
  dsimp only
  split
  · exact dropStale_safe (takeReport_safe (fields_safe hs))
  · split
    next hf => exact takeTrap_safe (safe_of_snd (fetchAt_safe (dropStale_safe (takeReport_safe (fields_safe hs)))) hf)
    next hf => exact missLine_safe (safe_of_snd (fetchAt_safe (dropStale_safe (takeReport_safe (fields_safe hs)))) hf)
    next hf => split <;> exact safe_of_snd (fetchAt_safe (dropStale_safe (takeReport_safe (fields_safe hs)))) hf

theorem issueSlot_safe {lc : Nat} (hs : MemorySafe s) : IssueSafe (issueSlot s lc) := by
  unfold issueSlot
  refine ite_issue hs ?_
  dsimp only
  split
  · exact openSlot_safe hs
  · exact issueThread_safe (modCore_safe (fun _ hk => hk) (openSlot_safe hs))

/-! ## Machine/System -/

theorem execTrap_safe {n : BitVec 7} (hs : MemorySafe s) : NextSafe (execTrap n s) := by
  unfold execTrap
  exact perform_safe (fun _ _ ht => ht) hs

theorem execBrk_safe {n : BitVec 7} (hs : MemorySafe s) : NextSafe (execBrk n s) := by
  unfold execBrk
  exact perform_safe (fun _ _ _ => trivial) hs

theorem execRett_safe (hs : MemorySafe s) : NextSafe (execRett s) := by
  unfold execRett
  exact perform_safe (fun _ _ ht => ite_run trivial (ite_run trivial ht)) hs

theorem execCsrr_safe {d : GReg} {csr : BitVec 7} (hs : MemorySafe s) : NextSafe (execCsrr d csr s) := by
  unfold execCsrr
  exact perform_safe (fun _ _ ht => ht) hs

theorem execCsrw_safe {d a : GReg} {csr : BitVec 7} (hs : MemorySafe s) : NextSafe (execCsrw d a csr s) := by
  unfold execCsrw
  exact perform_safe (fun _ _ ht => csrAccess_safe ht) hs

theorem execCsrs_safe {d a : GReg} {csr : BitVec 7} (hs : MemorySafe s) : NextSafe (execCsrs d a csr s) := by
  unfold execCsrs
  exact perform_safe (fun _ _ ht => csrAccess_safe ht) hs

theorem execCsrc_safe {d a : GReg} {csr : BitVec 7} (hs : MemorySafe s) : NextSafe (execCsrc d a csr s) := by
  unfold execCsrc
  exact perform_safe (fun _ _ ht => csrAccess_safe ht) hs

theorem execSpawn_safe {d a : GReg} {off : BitVec 12} (hs : MemorySafe s) : NextSafe (execSpawn d a off s) := by
  unfold execSpawn
  refine perform_safe ?_ hs
  intro _ _ ht
  split
  next he => exact (drained_safe ht).error he
  · dsimp only
    split
    next hf => exact (createThread_safe ht).some hf
    · exact ht

theorem execExit_safe (hs : MemorySafe s) : NextSafe (execExit s) := by
  unfold execExit
  refine perform_safe ?_ hs
  intro _ _ ht
  split
  next he => exact (drained_safe ht).error he
  · exact map_safe (retireThread_safe ht) (fun _ hu => hu)

theorem execYield_safe (hs : MemorySafe s) : NextSafe (execYield s) := by
  unfold execYield
  split
  · exact hs
  · exact ite_next (preemptThread_safe (modThread_safe (finish_safe hs))) (finish_safe hs)

theorem execWait_safe {a : GReg} (hs : MemorySafe s) : NextSafe (execWait a s) := by
  unfold execWait
  exact perform_safe (fun _ _ ht => ite_run ht (ite_run ht (modThread_safe ht))) hs

theorem execMigrate_safe {a : GReg} (hs : MemorySafe s) : NextSafe (execMigrate a s) := by
  unfold execMigrate
  exact perform_safe (fun _ _ ht => ite_run trivial (ite_run trivial (ite_run ht ht))) hs

theorem execChkerr_safe {d : GReg} (hs : MemorySafe s) : NextSafe (execChkerr d s) := by
  unfold execChkerr
  exact perform_safe (fun _ _ ht => foldContext_safe ht) hs

theorem execWakeWord_safe {n : Nat} (hs : MemorySafe s) : NextSafe (execWakeWord n s) := by
  unfold execWakeWord
  split
  · exact hs
  · dsimp only
    split
    · exact ite_safe (endWait_safe (fields_safe hs)) (fields_safe hs)
    · exact fields_safe hs

theorem execSliceExpiry_safe {tid : Nat} (hs : MemorySafe s) : NextSafe (execSliceExpiry tid s) := expireSlice_safe hs

theorem execWaitCountExpiry_safe {tid : Nat} (hs : MemorySafe s) : NextSafe (execWaitCountExpiry tid s) :=
  expireWait_safe hs

theorem execImpreciseReport_safe {m : ReportMove} (hs : MemorySafe s) : NextSafe (execImpreciseReport m s) := by
  unfold execImpreciseReport
  split
  · split
    · exact deliverReport_safe (fields_safe hs)
    · exact hs
  · exact takeReport_safe hs

theorem execUndefinedInstruction_safe {w : W32} (hs : MemorySafe s) : NextSafe (execUndefinedInstruction w s) :=
  takeTrap_safe hs

/-! ## Machine/Vectors -/

theorem vectorStep_safe {op : LaneOp} {rnd : Rnd} {sat : Bool} {ty : Ty} {d a b : VReg} (hs : MemorySafe s) :
    NextSafe (vectorStep op rnd sat ty d a b s) :=
  regStep_safe hs

theorem execVadd_safe {rnd : Rnd} {sat : Bool} {ty : Ty} {d a b : VReg} (hs : MemorySafe s) :
    NextSafe (execVadd rnd sat ty d a b s) :=
  vectorStep_safe hs

theorem execVsub_safe {rnd : Rnd} {sat : Bool} {ty : Ty} {d a b : VReg} (hs : MemorySafe s) :
    NextSafe (execVsub rnd sat ty d a b s) :=
  vectorStep_safe hs

theorem execVmul_safe {rnd : Rnd} {sat : Bool} {ty : Ty} {d a b : VReg} (hs : MemorySafe s) :
    NextSafe (execVmul rnd sat ty d a b s) :=
  vectorStep_safe hs

theorem execVmin_safe {rnd : Rnd} {sat : Bool} {ty : Ty} {d a b : VReg} (hs : MemorySafe s) :
    NextSafe (execVmin rnd sat ty d a b s) :=
  vectorStep_safe hs

theorem execVmax_safe {rnd : Rnd} {sat : Bool} {ty : Ty} {d a b : VReg} (hs : MemorySafe s) :
    NextSafe (execVmax rnd sat ty d a b s) :=
  vectorStep_safe hs

theorem execVand_safe {rnd : Rnd} {sat : Bool} {ty : Ty} {d a b : VReg} (hs : MemorySafe s) :
    NextSafe (execVand rnd sat ty d a b s) :=
  vectorStep_safe hs

theorem execVor_safe {rnd : Rnd} {sat : Bool} {ty : Ty} {d a b : VReg} (hs : MemorySafe s) :
    NextSafe (execVor rnd sat ty d a b s) :=
  vectorStep_safe hs

theorem execVxor_safe {rnd : Rnd} {sat : Bool} {ty : Ty} {d a b : VReg} (hs : MemorySafe s) :
    NextSafe (execVxor rnd sat ty d a b s) :=
  vectorStep_safe hs

theorem execVshl_safe {rnd : Rnd} {sat : Bool} {ty : Ty} {d a b : VReg} (hs : MemorySafe s) :
    NextSafe (execVshl rnd sat ty d a b s) :=
  vectorStep_safe hs

theorem execVshr_safe {rnd : Rnd} {sat : Bool} {ty : Ty} {d a b : VReg} (hs : MemorySafe s) :
    NextSafe (execVshr rnd sat ty d a b s) :=
  vectorStep_safe hs

theorem execVsra_safe {rnd : Rnd} {sat : Bool} {ty : Ty} {d a b : VReg} (hs : MemorySafe s) :
    NextSafe (execVsra rnd sat ty d a b s) :=
  vectorStep_safe hs

theorem execVcmpeq_safe {rnd : Rnd} {sat : Bool} {ty : Ty} {d a b : VReg} (hs : MemorySafe s) :
    NextSafe (execVcmpeq rnd sat ty d a b s) :=
  vectorStep_safe hs

theorem execVcmplt_safe {rnd : Rnd} {sat : Bool} {ty : Ty} {d a b : VReg} (hs : MemorySafe s) :
    NextSafe (execVcmplt rnd sat ty d a b s) :=
  vectorStep_safe hs

theorem execVcmple_safe {rnd : Rnd} {sat : Bool} {ty : Ty} {d a b : VReg} (hs : MemorySafe s) :
    NextSafe (execVcmple rnd sat ty d a b s) :=
  vectorStep_safe hs

theorem execVmulh_safe {rnd : Rnd} {sat : Bool} {ty : Ty} {d a b : VReg} (hs : MemorySafe s) :
    NextSafe (execVmulh rnd sat ty d a b s) :=
  vectorStep_safe hs

theorem execVfma_safe {rnd : Rnd} {sat : Bool} {ty : Ty} {d a b : VReg} (hs : MemorySafe s) :
    NextSafe (execVfma rnd sat ty d a b s) :=
  vectorStep_safe hs

theorem execVabs_safe {rnd : Rnd} {sat : Bool} {ty : Ty} {d a : VReg} (hs : MemorySafe s) :
    NextSafe (execVabs rnd sat ty d a s) :=
  vectorStep_safe hs

theorem execVneg_safe {rnd : Rnd} {sat : Bool} {ty : Ty} {d a : VReg} (hs : MemorySafe s) :
    NextSafe (execVneg rnd sat ty d a s) :=
  vectorStep_safe hs

theorem execVexp2_safe {rnd : Rnd} {sat : Bool} {ty : Ty} {d a : VReg} (hs : MemorySafe s) :
    NextSafe (execVexp2 rnd sat ty d a s) :=
  vectorStep_safe hs

theorem execVlog2_safe {rnd : Rnd} {sat : Bool} {ty : Ty} {d a : VReg} (hs : MemorySafe s) :
    NextSafe (execVlog2 rnd sat ty d a s) :=
  vectorStep_safe hs

theorem execVrcp_safe {rnd : Rnd} {sat : Bool} {ty : Ty} {d a : VReg} (hs : MemorySafe s) :
    NextSafe (execVrcp rnd sat ty d a s) :=
  vectorStep_safe hs

theorem execVrsqrt_safe {rnd : Rnd} {sat : Bool} {ty : Ty} {d a : VReg} (hs : MemorySafe s) :
    NextSafe (execVrsqrt rnd sat ty d a s) :=
  vectorStep_safe hs

theorem execVcvt_safe {rnd : Rnd} {dt st : Ty} {d a : VReg} {k : KReg} {cg : BitVec 4} (hs : MemorySafe s) :
    NextSafe (execVcvt rnd dt st d a k cg s) := by
  unfold execVcvt
  exact perform_safe (fun _ _ ht => ite_run trivial ht) hs

/-! ## Machine/Dispatch -/

/-- Every instruction and every event keeps memory canonical. -/
theorem exec_safe {i : Instr} (hs : MemorySafe s) : NextSafe (exec i s) := by
  cases i with
  | add | sub | mul | mulh | div | rem | adds | subs | and | or | xor | andn | sll | srl | sra | rotl | seq | slt
  | sle | min | max | sel | bfx | bfi | clz | popc | addi | andi | ori | xori | slti | lui | addpc | slli | srli
  | srai | rotli | nop | vsel | vperm | vbcast | vins | vext | vrot | vred => exact regStep_safe hs
  | beq | bne | blt | bge | bltn | bgen | j | jl | loop => exact branchStep_safe hs
  | jlr => exact execJlr_safe hs
  | ld => exact execLd_safe hs
  | st => exact execSt_safe hs
  | ldv => exact execLdv_safe hs
  | stv => exact execStv_safe hs
  | ldw => exact execLdw_safe hs
  | ldc => exact execLdc_safe hs
  | stf => exact execStf_safe hs
  | clrf => exact execClrf_safe hs
  | amo => exact execAmo_safe hs
  | fence => exact execFence_safe hs
  | rst => exact execRst_safe hs
  | rat => exact execRat_safe hs
  | send => exact execSend_safe hs
  | recv => exact execRecv_safe hs
  | bindIn => exact execBindIn_safe hs
  | bindOut => exact execBindOut_safe hs
  | unbind => exact execUnbind_safe hs
  | poll => exact execPoll_safe hs
  | bindPort => exact execBindPort_safe hs
  | join => exact execJoin_safe hs
  | leave => exact execLeave_safe hs
  | gbar => exact execGbar_safe hs
  | gsize => exact execGsize_safe hs
  | grank => exact execGrank_safe hs
  | xnew => exact execXnew_safe hs
  | xfree => exact execXfree_safe hs
  | xreq => exact execXreq_safe hs
  | xwait => exact execXwait_safe hs
  | xtry => exact execXtry_safe hs
  | xgive => exact execXgive_safe hs
  | xswap => exact execXswap_safe hs
  | xdrop => exact execXdrop_safe hs
  | xrel => exact execXrel_safe hs
  | xstat => exact execXstat_safe hs
  | kset => exact execKset_safe hs
  | kstep => exact execKstep_safe hs
  | kget => exact execKget_safe hs
  | rdraw => exact execRdraw_safe hs
  | bcinit => exact execBcinit_safe hs
  | bcpost => exact execBcpost_safe hs
  | bcwait => exact execBcwait_safe hs
  | cfgld => exact execCfgld_safe hs
  | cfgswap => exact execCfgswap_safe hs
  | cfgdrop => exact execCfgdrop_safe hs
  | launch => exact execLaunch_safe hs
  | lwait => exact execLwait_safe hs
  | inject => exact execInject_safe hs
  | mark => exact execMark_safe hs
  | copy => exact execCopy_safe hs
  | cpwait => exact execCpwait_safe hs
  | rate => exact execRate_safe hs
  | solve => exact execSolve_safe hs
  | rstat => exact execRstat_safe hs
  | trap => exact execTrap_safe hs
  | rett => exact execRett_safe hs
  | csrr => exact execCsrr_safe hs
  | csrw => exact execCsrw_safe hs
  | csrs => exact execCsrs_safe hs
  | csrc => exact execCsrc_safe hs
  | spawn => exact execSpawn_safe hs
  | exit => exact execExit_safe hs
  | yield => exact execYield_safe hs
  | wait => exact execWait_safe hs
  | waitany => exact execWaitany_safe hs
  | migrate => exact execMigrate_safe hs
  | brk => exact execBrk_safe hs
  | chkerr => exact execChkerr_safe hs
  | vadd => exact execVadd_safe hs
  | vsub => exact execVsub_safe hs
  | vmul => exact execVmul_safe hs
  | vfma => exact execVfma_safe hs
  | vmin => exact execVmin_safe hs
  | vmax => exact execVmax_safe hs
  | vabs => exact execVabs_safe hs
  | vneg => exact execVneg_safe hs
  | vand => exact execVand_safe hs
  | vor => exact execVor_safe hs
  | vxor => exact execVxor_safe hs
  | vshl => exact execVshl_safe hs
  | vshr => exact execVshr_safe hs
  | vsra => exact execVsra_safe hs
  | vcmpeq => exact execVcmpeq_safe hs
  | vcmplt => exact execVcmplt_safe hs
  | vcmple => exact execVcmple_safe hs
  | vexp2 => exact execVexp2_safe hs
  | vlog2 => exact execVlog2_safe hs
  | vrcp => exact execVrcp_safe hs
  | vrsqrt => exact execVrsqrt_safe hs
  | vmulh => exact execVmulh_safe hs
  | vcvt => exact execVcvt_safe hs
  | wakeWord => exact execWakeWord_safe hs
  | sliceExpiry => exact execSliceExpiry_safe hs
  | waitCountExpiry => exact execWaitCountExpiry_safe hs
  | instructionLineFill => exact execInstructionLineFill_safe hs
  | storeDrain => exact execStoreDrain_safe hs
  | impreciseReport => exact execImpreciseReport_safe hs
  | releaseWalk => exact execReleaseWalk_safe hs
  | launchAdmission => exact execLaunchAdmission_safe hs
  | launchEnd => exact execLaunchEnd_safe hs
  | checkpointComplete => exact execCheckpointComplete_safe hs
  | preemptionComplete => exact execPreemptionComplete_safe hs
  | copyTile => exact execCopyTile_safe hs
  | copyForward => exact execCopyForward_safe hs
  | monitorWindowEnd => exact execMonitorWindowEnd_safe hs
  | regulatorSettled => exact execRegulatorSettled_safe hs
  | settleTimeout => exact execSettleTimeout_safe hs
  | telemetrySample => exact execTelemetrySample_safe hs
  | droop => exact execDroop_safe hs
  | droopRecovery => exact execDroopRecovery_safe hs
  | inputBelow38V => exact execInputBelow38V_safe hs
  | quiesce => exact execQuiesce_safe hs
  | sequencerStop => exact execSequencerStop_safe hs
  | inputRestored => exact execInputRestored_safe hs
  | holdUpExhausted => exact execHoldUpExhausted_safe hs
  | thermalTrip => exact execThermalTrip_safe hs
  | capFloorTimeout => exact execCapFloorTimeout_safe hs
  | replicaFailure => exact execReplicaFailure_safe hs
  | configScrub => exact execConfigScrub_safe hs
  | configReload => exact execConfigReload_safe hs
  | tileSwap => exact execTileSwap_safe hs
  | tileConfigToken => exact execTileConfigToken_safe hs
  | loadComplete => exact execLoadComplete_safe hs
  | solveComplete => exact execSolveComplete_safe hs
  | stageFiring => exact execStageFiring_safe hs
  | switchForward => exact execSwitchForward_safe hs
  | scratchpadWrite => exact execScratchpadWrite_safe hs
  | streamBufferPush => exact execStreamBufferPush_safe hs
  | streamBufferPop => exact execStreamBufferPop_safe hs
  | atomicPipelineUpdate => exact execAtomicPipelineUpdate_safe hs
  | mandolineWindow => exact execMandolineWindow_safe hs
  | controllerPermit => exact execControllerPermit_safe hs
  | controllerDone => exact execControllerDone_safe hs
  | steer => exact execSteer_safe hs
  | merge => exact execMerge_safe hs
  | loopCarry => exact execLoopCarry_safe hs
  | spoutReadRound => exact execSpoutReadRound_safe hs
  | spoutWriteRound => exact execSpoutWriteRound_safe hs
  | spoutReinject => exact execSpoutReinject_safe hs
  | indirectGather => exact execIndirectGather_safe hs
  | networkPortTransfer => exact execNetworkPortTransfer_safe hs
  | translationWalk => exact execTranslationWalk_safe hs
  | invalidateComplete => exact execInvalidateComplete_safe hs
  | memoryAtomic => exact execMemoryAtomic_safe hs
  | memoryReply => exact execMemoryReply_safe hs
  | dieLinkFlit => exact execDieLinkFlit_safe hs
  | peerFlit => exact execPeerFlit_safe hs
  | linkRetrain => exact execLinkRetrain_safe hs
  | messageTransit => exact execMessageTransit_safe hs
  | peerRst => exact execPeerRst_safe hs
  | peerRat => exact execPeerRat_safe hs
  | peerCopyData => exact execPeerCopyData_safe hs
  | peerReducingData => exact execPeerReducingData_safe hs
  | peerChannelToken => exact execPeerChannelToken_safe hs
  | acknowledgement => exact execAcknowledgement_safe hs
  | ratReply => exact execRatReply_safe hs
  | horizon => exact execHorizon_safe hs
  | replayTimeout => exact execReplayTimeout_safe hs
  | powerOn => exact execPowerOn_safe hs
  | reset => exact execReset_safe
  | clearFaultRecord => exact execClearFaultRecord_safe hs
  | invalidateContext => exact execInvalidateContext_safe hs
  | invalidateRange => exact execInvalidateRange_safe hs
  | resetContext => exact execResetContext_safe hs
  | cap => exact execCap_safe hs
  | hbeat v => exact execHbeat_safe (v := v) hs
  | preempt => exact execPreempt_safe hs
  | resume => exact execResume_safe hs
  | fqresume => exact execFqresume_safe hs
  | lctWrite => exact execLctWrite_safe hs
  | newctl => exact execNewctl_safe hs
  | svcrsp => exact execSvcrsp_safe hs
  | verifyImage => exact execVerifyImage_safe hs
  | attestationQuote => exact execAttestationQuote_safe hs
  | writeEntry => exact execWriteEntry_safe hs
  | readFabricState => exact execReadFabricState_safe hs
  | restoreFabricState => exact execRestoreFabricState_safe hs
  | publishHorizon => exact execPublishHorizon_safe hs
  | setRetentionLog => exact execSetRetentionLog_safe hs
  | installGeneralFirmware => exact execInstallGeneralFirmware_safe hs
  | ingressTailWrite => exact execIngressTailWrite_safe hs
  | egressHeadWrite => exact execEgressHeadWrite_safe hs
  | attachmentWrite => exact execAttachmentWrite_safe hs
  | ingressPush => exact execIngressPush_safe hs
  | egressSlotWrite => exact execEgressSlotWrite_safe hs
  | apertureRead => exact execApertureRead_safe hs
  | apertureWrite => exact execApertureWrite_safe hs
  | msixUnmask => exact execMsixUnmask_safe hs
  | registerWrite => exact execRegisterWrite_safe hs
  | undefinedInstruction => exact execUndefinedInstruction_safe hs
  | occupancyExchange => exact execOccupancyExchange_safe hs
  | linkTrained => exact execLinkTrained_safe hs
  | potZeroingComplete => exact execPotZeroingComplete_safe hs
  | ceilingRaise => exact execCeilingRaise_safe hs

/-! ## Machine/Schedule -/

theorem defaultMove_safe (hs : MemorySafe s) : MemorySafe (defaultMove s).2 := by
  unfold defaultMove
  refine ite_snd_safe hs ?_
  extract_lets es t
  have ht : MemorySafe t := fields_safe hs
  clear_value t es
  split
  · exact ht
  · exact ite_snd_safe ht (fields_safe ht)
  · exact fields_safe ht
  · exact ht

theorem nextMove_safe (hs : MemorySafe s) : MemorySafe (nextMove s).2 := by
  unfold nextMove
  split
  · exact fields_safe hs
  · exact defaultMove_safe hs

/-! ## Machine/Step -/

theorem slotStep_safe {lc : Nat} (hs : MemorySafe s) : NextSafe (slotStep s lc) := by
  unfold slotStep
  split
  next he => exact (issueSlot_safe hs).idle he
  next he => exact exec_safe ((issueSlot_safe hs).instr he)

/-- Every step that answers a next state keeps memory canonical. -/
theorem step_safe (hs : MemorySafe s) : NextSafe (step s) := by
  unfold step
  split
  next he => exact exec_safe (safe_of_snd (nextMove_safe hs) he)
  next he => exact slotStep_safe (safe_of_snd (nextMove_safe hs) he)

end

/-! ## The obligation -/

/-- Settles O59: by `step_safe`, which goes through every function of the machine that answers a state. -/
theorem everyStepKeepsMemoryCanonical : Obligations.EveryStepKeepsMemoryCanonical := by
  unfold Obligations.EveryStepKeepsMemoryCanonical
  intro s s' hs h
  exact (step_safe hs).next h

end Sys2Proof.Machine
end

section
/-! PROOFS. CFGLD, CFGSWAP and CFGDROP (R222 to R225, R338): what a load waits for, checks and takes, and what is left of a graph
that is swapped or dropped. -/

namespace Sys2Proof.Machine

open Sys2Proof

/-! ## What a dropped graph leaves of memory (R225) -/

section
variable (s : State) (h : Nat) (x : Handle)

@[simp] theorem dropShadows_mem : (dropShadows s h x).mem = s.mem := by
  refine foldl_field _ State.mem (fun s e => ?_) _ s
  split
  · split <;> rfl
  · rfl

@[simp] theorem idleTile_mem (l : TileLoc) : (idleTile s l).mem = s.mem := by
  simp only [idleTile, emptyLinks, Bool.false_and, Bool.false_eq_true, if_false, State.modTile_mem]
  split
  · exact leaveRims_mem s l
  · rfl

@[simp] theorem idleGraph_mem : (idleGraph s h x).mem = s.mem := by
  refine foldl_field _ State.mem (fun s e => ?_) _ s
  split
  · split
    · exact idleTile_mem s e.loc
    · rfl
  · rfl

@[simp] theorem orphanTiles_mem : (orphanTiles s h x).mem = s.mem :=
  foldl_field _ State.mem (fun _ _ => by rfl) x.entries s

variable (cl : Nat)

@[simp] theorem preemptDone_mem : (preemptDone s).mem = s.mem := by
  unfold preemptDone
  split
  · rw [firePhysical_frame]
  · rfl

@[simp] theorem forgetLaunch_mem : (forgetLaunch s cl h).mem = s.mem := by
  simp only [forgetLaunch]
  rw [wakeWhere_frame]
  simp only [unqueue, State.modCluster_mem]
  split
  · exact preemptDone_mem s
  · rfl

@[simp] theorem completeReports_mem : (completeReports s cl h).mem = s.mem := by
  unfold completeReports
  split <;> rfl

/-! ## A freed handle (R222, R225, R283) -/

/-- The entry of a logical core says nothing of the handles. -/
@[simp] theorem State.handle_setLct (n : Nat) (e : LctEntry) (cl h : Nat) : (s.setLct n e).handle? cl h = s.handle? cl h := by
  unfold State.handle? State.setLct
  rw [State.cluster_modCluster]
  split
  · next hc => rw [hc]
  · rfl

/-- A core that may leave its context leaves memory as it is (R283). -/
theorem graphDropped_mem (lc : Nat) : (graphDropped s lc).mem = s.mem := by
  simp only [graphDropped, leaveSpent, leaveCore]
  split
  · split <;> rfl
  · rfl

/-- A core that may leave its context leaves the handles as they are (R283). -/
theorem graphDropped_handle (lc cl h : Nat) : (graphDropped s lc).handle? cl h = s.handle? cl h := by
  simp only [graphDropped, leaveSpent, leaveCore]
  split
  · split <;> simp only [State.handle_modCore, State.handle_setLct]
  · exact State.handle_setLct ..

@[simp] theorem freeGraph_mem : (freeGraph s cl h x).mem = s.mem :=
  (foldl_field _ State.mem graphDropped_mem _ _).trans (completeReports_mem s h cl)

/-- A freed handle names nothing. -/
@[simp] theorem freeGraph_handle : (freeGraph s cl h x).handle? cl h = none := by
  refine (foldl_field _ (State.handle? · cl h) (fun s lc => graphDropped_handle s lc cl h) _ _).trans ?_
  simp [State.handle?]

end

section
variable {s : State} {t : Thread} {d a b : GReg}

/-! ## CFGLD (R223, R224, R338) -/

theorem exec_cfgld (d a b : GReg) (s : State) : exec (.cfgld d a b) s = execCfgld d a b s := by rfl

/-- A load begins with its handle loading (R223). -/
theorem beginLoad_loading (cl h ctx loader dest : Nat) (image : Word) (len : Nat) (o : Origin) (delta : Option Nat)
    (ps : List Placed) (dict : List W32) :
    ((beginLoad s cl h (Handle.start ctx loader dest image len o delta ps) dict).handle? cl h).map Handle.state =
      some .loading := by
  simp only [beginLoad, State.handle_setHandle_same, Option.map_some]
  rfl

variable {ga gb : Word}

/-- The image lies at a multiple of 64 (R224 check 1). -/
theorem cfgldChecks_misaligned (ha : ga.toNat % 64 ≠ 0) : cfgldChecks s t ga gb = .error (.trap .align ga) := if_pos ha

/-- The image lies in global memory (R224 check 2). -/
theorem cfgldChecks_reserved (ha : ga.toNat % 64 = 0) (hz : ga.extractLsb 63 52 ≠ 0) :
    cfgldChecks s t ga gb = .error (.trap .protect ga) := by
  rw [cfgldChecks, if_neg (not_not.2 ha), if_pos (mt (bits_zero ..).1 hz)]
  rfl

variable (ht : Issues s t)
include ht

/-- The image is read after the thread's stores have drained (R338, log 63). -/
theorem cfgld_undrained (hs : hasStores s (s.coreOf t) s.cur = true) : Waits s (.cfgld d a b) s .storeBuffer :=
  waits_of_perform (exec_cfgld ..) ht (by simp only [drained_wait hs])

variable (hs : hasStores s (s.coreOf t) s.cur = false)
include hs

/-- A check that fails decides (R224). -/
theorem cfgld_traps {c : Cause} {v : Word} (hn : t.inTrap = false)
    (hc : cfgldChecks s t (readG t a) (readG t b) = .error (.trap c v)) : Traps s t (.cfgld d a b) c v :=
  traps_of_perform (exec_cfgld ..) ht hn (by simp only [drained_ok hs, hc])

variable {im : Image} {o : Origin} {ps : List Placed} {s1 : State}
  (hc : cfgldChecks s t (readG t a) (readG t b) = .ok (im, o, ps, s1))
include hc

/-- Without a free handle CFGLD gives 0 (R223). -/
theorem cfgld_full (hf : 1024 ≤ freeKey 0 (s1.cluster (t.lcore / 128)).handles) :
    Completes s (.cfgld d a b) s1 (fun r => writeG r d 0) (t.pc + 4) :=
  completes_of_effect (exec_cfgld ..) ht (by simp only [drained_ok hs, hc, if_pos hf]; rfl)

variable (hf : freeKey 0 (s1.cluster (t.lcore / 128)).handles < 1024)
include hf

/-- A load waits for another one into one of its cores (R224). -/
theorem cfgld_blocked (hl : loadBlocked s1 (t.lcore / 128) ps = true) : Waits s (.cfgld d a b) s1 .load :=
  waits_of_perform (exec_cfgld ..) ht (by simp only [drained_ok hs, hc, if_neg (not_le.2 hf), if_pos hl])

/-- A load that begins takes the lowest free handle, and its thread waits for it (R223). -/
theorem cfgld_begins (hl : loadBlocked s1 (t.lcore / 128) ps = false) {db : List Byte} {s2 : State}
    (hb : imageBytes s1 t.ctx (!t.system) ((readG t a).toNat + im.dictOff) (4 * im.dicts) = .ok (db, s2)) :
    Waits s (.cfgld d a b)
      (beginLoad s2 (t.lcore / 128) (freeKey 0 (s1.cluster (t.lcore / 128)).handles)
        (Handle.start t.ctx s2.cur d.toNat (readG t a) im.len o im.delta ps) (wordsOf im.dicts db)) .load :=
  waits_of_perform (exec_cfgld ..) ht (by
    simp only [drained_ok hs, hc, if_neg (not_le.2 hf), hl, Bool.false_eq_true, if_false, hb])

end

/-! ## CFGSWAP and CFGDROP (R225) -/

theorem exec_cfgswap (a : GReg) (s : State) : exec (.cfgswap a) s = execCfgswap a s := by rfl

theorem exec_cfgdrop (a : GReg) (s : State) : exec (.cfgdrop a) s = execCfgdrop a s := by rfl

section
variable {s : State} {t : Thread} {a : GReg} (ht : Issues s t)
include ht

/-- CFGSWAP of a value that names no handle raises HANDLE (R225). -/
theorem cfgswap_unnamed (hn : t.inTrap = false) (hg : graphOf s t (readG t a) = none) :
    Traps s t (.cfgswap a) .handle (readG t a) :=
  traps_of_perform (exec_cfgswap ..) ht hn (by simp only [hg, trapWith])

/-- CFGDROP of a value that names no handle raises HANDLE (R225). -/
theorem cfgdrop_unnamed (hn : t.inTrap = false) (hg : graphOf s t (readG t a) = none) :
    Traps s t (.cfgdrop a) .handle (readG t a) :=
  traps_of_perform (exec_cfgdrop ..) ht hn (by simp only [hg, trapWith])

variable {h : Nat} {x : Handle} (hg : graphOf s t (readG t a) = some (h, x))
include hg

/-- CFGSWAP arms a loaded graph (R225). -/
theorem cfgswap_arms (hx : x.state = .loaded) :
    Completes s (.cfgswap a) (graphChange (armGraph s (t.lcore / 128) h) (t.lcore / 128) h) id (t.pc + 4) :=
  completes_of_effect (exec_cfgswap ..) ht (by simp only [hg, if_neg (not_not.2 hx)]; rfl)

/-- CFGSWAP of a graph in another state raises HANDLE (R225). -/
theorem cfgswap_notLoaded (hx : x.state ≠ .loaded) (hn : t.inTrap = false) :
    Traps s t (.cfgswap a) .handle (readG t a) :=
  traps_of_perform (exec_cfgswap ..) ht hn (by simp only [hg, if_pos hx, trapWith])

/-- CFGDROP does what the state of the handle says (R225). -/
theorem cfgdrop_completes {s1 : State} (hd : dropGraph s (t.lcore / 128) h x = some s1) :
    Completes s (.cfgdrop a) s1 id (t.pc + 4) :=
  completes_of_effect (exec_cfgdrop ..) ht (by simp only [hg, hd]; rfl)

/-- CFGDROP in a state that it refuses raises HANDLE (R225, log 34). -/
theorem cfgdrop_refused (hd : dropGraph s (t.lcore / 128) h x = none) (hn : t.inTrap = false) :
    Traps s t (.cfgdrop a) .handle (readG t a) :=
  traps_of_perform (exec_cfgdrop ..) ht hn (by simp only [hg, hd, trapWith])

end

section
variable {s : State} {cl h : Nat} {x : Handle}

/-- A rejected handle, a loaded one and an active one whose launch does not run are freed, and memory stays (R225). -/
theorem dropGraph_frees (hx : x.state = .rejected ∨ x.state = .loaded ∨ x.state = .active ∧ launchRuns s cl h = false) :
    ∃ s1, dropGraph s cl h x = some s1 ∧ s1.handle? cl h = none ∧ s1.mem = s.mem := by
  unfold dropGraph
  obtain hx | hx | ⟨hx, hr⟩ := hx
  · simp only [hx]
    exact ⟨_, rfl, freeGraph_handle .., by simp⟩
  · simp only [hx]
    exact ⟨_, rfl, freeGraph_handle .., by simp⟩
  · simp only [hx, hr, Bool.false_eq_true, if_false]
    exact ⟨_, rfl, freeGraph_handle .., by simp⟩

/-- An active handle whose launch runs and a frozen one are refused (R225, log 34). -/
theorem dropGraph_refuses (hx : x.state = .active ∧ launchRuns s cl h = true ∨ x.state = .frozen) :
    dropGraph s cl h x = none := by
  unfold dropGraph
  obtain ⟨hx, hr⟩ | hx := hx
  · simp only [hx, hr, if_true]
  · simp only [hx]

end

/-- Settles O38: CFGLD along its chain of waits and checks, CFGSWAP and CFGDROP by the state of the handle. -/
theorem graphsAreLoadedSwappedAndDropped : Obligations.GraphsAreLoadedSwappedAndDropped := by
  unfold Obligations.GraphsAreLoadedSwappedAndDropped
  intro s t d a b ht
  refine ⟨cfgld_undrained ht, fun im o ps s1 hs hc => ?loads, fun hs hn ha => ?misaligned, fun hs hn ha hz => ?reserved,
    fun h x hg => ?named, fun hg hn => ⟨cfgswap_unnamed ht hn hg, cfgdrop_unnamed ht hn hg⟩⟩
  case loads =>
    exact ⟨cfgld_full ht hs hc, cfgld_blocked ht hs hc, fun db s2 hf hl hb =>
      ⟨cfgld_begins ht hs hc hf hl hb, beginLoad_loading ..⟩⟩
  case misaligned => exact cfgld_traps ht hs hn (cfgldChecks_misaligned ha)
  case reserved => exact cfgld_traps ht hs hn (cfgldChecks_reserved ha hz)
  case named =>
    refine ⟨cfgswap_arms ht hg, cfgswap_notLoaded ht hg, fun hx => ?_, fun hx hr => ?_, fun hx => ?_⟩
    · obtain ⟨s1, hd, hfree, hmem⟩ := dropGraph_frees hx
      exact ⟨s1, cfgdrop_completes ht hg hd, hfree, hmem⟩
    · exact cfgdrop_refused ht hg (dropGraph_refuses (.inl ⟨hx, hr⟩))
    · exact cfgdrop_refused ht hg (dropGraph_refuses (.inr hx))

end Sys2Proof.Machine
end

section
/-! PROOFS. Rates as threads see them (R198, R222, R252 to R254, R259, R266): what RATE and SOLVE do, and the numbers that RSTAT
reads. -/

namespace Sys2Proof.Machine

open Sys2Proof

section
variable {s : State} {t : Thread} {d a b : GReg} {h : Nat} {x : Handle}

/-! ## RATE (R252) -/

theorem exec_rate (d a b : GReg) (s : State) : exec (.rate d a b) s = execRate d a b s := by rfl

section
variable (ht : Issues s t) (hg : solvable s t (readG t d) = .ok (h, x))
include ht hg

/-- RATE records its counts and asks for a solution (R252). -/
theorem rate_records (ha : rateCount (readG t a) = true) (hb : rateCount (readG t b) = true) :
    Completes s (.rate d a b) (requestSolve (s.setHandle (t.lcore / 128) h
      { x with rate := some ((readG t a).toNat, (readG t b).toNat) }) (t.lcore / 128) h [] false) id (t.pc + 4) :=
  completes_of_effect (exec_rate ..) ht (by simp only [hg, ha, hb]; rfl)

/-- A count that RATE does not take raises HANDLE (R252). -/
theorem rate_refused (ha : rateCount (readG t a) = false) (hn : t.inTrap = false) :
    Traps s t (.rate d a b) .handle (readG t a) :=
  traps_of_perform (exec_rate ..) ht hn (by simp only [hg, ha]; rfl)

end

/-! ## SOLVE (R62, R253) -/

/-- A solution changes the handle alone, whether it succeeds or not (R253). -/
theorem solveHandle_setHandle (s : State) (cl h : Nat) (x : Handle) :
    ∃ y, (solveHandle s cl h x).2 = s.setHandle cl h y := by
  unfold solveHandle
  extract_lets v y
  by_cases hv : v.status = 0
  · exact ⟨_, if_pos hv⟩
  · exact ⟨_, if_neg hv⟩

@[simp] theorem solveHandle_cur (s : State) (cl h : Nat) (x : Handle) : (solveHandle s cl h x).2.cur = s.cur := by
  obtain ⟨y, hy⟩ := solveHandle_setHandle s cl h x
  rw [hy]
  rfl

@[simp] theorem solveHandle_mem (s : State) (cl h : Nat) (x : Handle) : (solveHandle s cl h x).2.mem = s.mem := by
  obtain ⟨y, hy⟩ := solveHandle_setHandle s cl h x
  rw [hy]
  rfl

@[simp] theorem solveHandle_thread (s : State) (cl h : Nat) (x : Handle) (n : Nat) :
    (solveHandle s cl h x).2.thread? n = s.thread? n := by
  obtain ⟨y, hy⟩ := solveHandle_setHandle s cl h x
  rw [hy]
  rfl

/-- SOLVE writes its result, goes on, and holds its thread (R62, R253). -/
theorem exec_solve (ht : Issues s t) (hg : solvable s t (readG t a) = .ok (h, x)) :
    let r := solveHandle s (t.lcore / 128) h x
    exec (.solve d a) s = .next ((chargeQueue (r.2.modThread s.cur fun y => advance (writeG y d r.1) (t.pc + 4)) t).modThread
      s.cur fun y => { y with run := .waiting .solve, waitedSlots := 0 }) := by
  have hi : exec (.solve d a) s = execSolve d a s := rfl
  have ht' : s.thread? s.cur = some t := ht
  simp only [hi, execSolve, ht', hg, finish_eq (afterTrap_onRegs ..), solveHandle_cur]
  rfl

/-- The end of a solution makes its thread ready, and no other (R253). -/
theorem solveComplete_readies {tid : Nat} {y : Thread} (hy : s.thread? tid = some y) (hr : y.run = .waiting .solve) :
    ∃ s', exec (.solveComplete tid) s = .next s' ∧ s'.thread? tid = some { y with run := .ready, waitedSlots := 0 } ∧
      (∀ n, n ≠ tid → s'.thread? n = s.thread? n) ∧ s'.mem = s.mem := by
  refine ⟨_, rfl, ?_, fun n hn => ?_, release_mem ..⟩
  · simp only [release_thread, hy, Option.map_some, hr, decide_true, Bool.and_self, if_true]
  · simp only [release_thread, hn, decide_false, Bool.false_and, Bool.false_eq_true, if_false]
    cases s.thread? n with
    | none => rfl
    | some z => cases hz : z.run <;> simp only [Option.map_some, hz]

/-! ## The selector of RSTAT (R254) -/

/-- The fields of a selector: group, index and field (R254). -/
theorem selector_fields {w : Word} {group idx f : Nat} (hw : w = BitVec.ofNat 64 (group + 16 * idx + 65536 * f)) (hg : group < 8)
    (hi : idx < 4096) (hf : f < 16) : bits w 3 0 = group ∧ bits w 15 4 = idx ∧ bits w 19 16 = f ∧ bits w 63 20 = 0 := by
  have hb := bits_w64 (group + 16 * idx + 65536 * f)
  rw [w64, ← hw] at hb
  simp only [hb]
  omega

/-- RSTAT goes by its selector: groups 0 to 3 read the handle, 4 to 7 the core (R254). -/
theorem exec_rstat_selector {group idx f : Nat} (hb : readG t b = BitVec.ofNat 64 (group + 16 * idx + 65536 * f)) (hg : group < 8)
    (hi : idx < 4096) (hf : f < 16) (ha : group = 6 → (readG t a).toNat < 128) :
    ∃ m, exec (.rstat d a b) s = perform s m ∧ m s t =
      if group < 4 then rstatHandle s t d (readG t a) (readG t b) group idx f
      else rstatCore s t d (readG t a) (readG t b) group idx f := by
  obtain ⟨hgroup, hidx, hfield, hzero⟩ := selector_fields hb hg hi hf
  have ha' : ¬(group = 6 ∧ bits (readG t a) 63 7 ≠ 0) := by
    rintro ⟨h6, hn⟩
    have := ha h6
    simp only [bits] at hn
    omega
  have hexec : exec (.rstat d a b) s = execRstat d a b s := rfl
  refine ⟨_, hexec, ?_⟩
  simp only [hgroup, hidx, hfield, hzero]
  rw [if_neg (by omega), if_neg ha']

section
variable (ht : Issues s t) {group idx f : Nat} (hb : readG t b = BitVec.ofNat 64 (group + 16 * idx + 65536 * f))
  (hi : idx < 4096) (hf : f < 16)
include ht hb hi hf

/-- RSTAT of a handle completes with what its group answers (R254). -/
theorem rstat_of_handle (hg : group < 4) {s1 : State} {y : Thread → Thread}
    (he : rstatHandle s t d (readG t a) (readG t b) group idx f = .ok (.onRegs s1 t y)) :
    Completes s (.rstat d a b) s1 y (t.pc + 4) := by
  obtain ⟨m, hm, hst⟩ := exec_rstat_selector (d := d) (a := a) (s := s) hb (by omega) hi hf (by omega)
  exact completes_of_effect hm ht (by rw [hst, if_pos hg, he]; rfl)

variable (hg : 4 ≤ group ∧ group < 8) (ha : group = 6 → (readG t a).toNat < 128)
include hg ha

/-- RSTAT of a core, a pot or the context completes with what its group answers (R254). -/
theorem rstat_of_core {v : Word}
    (he : rstatCore s t d (readG t a) (readG t b) group idx f = .ok (.onRegs s t fun y => writeG y d v)) :
    WritesG s t (.rstat d a b) d v := by
  obtain ⟨m, hm, hst⟩ := exec_rstat_selector (d := d) (a := a) (s := s) hb (by omega) hi hf ha
  exact completes_of_effect hm ht (by rw [hst, if_neg (by omega), he]; rfl)

/-- RSTAT of a core, a pot or the context traps as its group does (R254). -/
theorem rstat_traps_of_core {c : Cause} {v : Word} (hn : t.inTrap = false)
    (he : rstatCore s t d (readG t a) (readG t b) group idx f = .error (.trap c v)) : Traps s t (.rstat d a b) c v := by
  obtain ⟨m, hm, hst⟩ := exec_rstat_selector (d := d) (a := a) (s := s) hb (by omega) hi hf ha
  exact traps_of_perform hm ht hn (by rw [hst, if_neg (by omega), he])

end

/-! ## RSTAT of a handle (R254, R259) -/

section
variable {ga gb : Word} (hg : graphOf s t ga = some (h, x))
include hg

theorem rstatHandle_status : rstatHandle s t d ga gb 0 0 0 = .ok (.onRegs s t fun y => writeG y d (loadStatus x)) := by
  rw [rstatHandle, hg]
  rfl

theorem rstatHandle_result : rstatHandle s t d ga gb 0 0 1 = .ok (.onRegs s t fun y => writeG y d x.result) := by
  rw [rstatHandle, hg]
  rfl

theorem rstatHandle_steps : rstatHandle s t d ga gb 0 0 2 = .ok (.onRegs s t fun y => writeG y d (w64 x.steps)) := by
  rw [rstatHandle, hg]
  rfl

theorem rstatHandle_snapshot :
    rstatHandle s t d ga gb 1 0 0 = .ok (.onRegs (takeSnapshot s (t.lcore / 128) h x) t fun y => writeG y d 0) := by
  rw [rstatHandle, hg]
  rfl

theorem rstatHandle_bound {i f : Nat} (hi : i < (graphBounds s x).length) (hf : f < 4) : rstatHandle s t d ga gb 2 i f =
    .ok (.onRegs s t fun y => writeG y d (w64 (boundField (tgetD x.snapBounds i (0, 0, 0, 0)) f))) := by
  rw [rstatHandle, hg]
  exact if_neg (not_or.2 ⟨not_le.2 hi, not_le.2 hf⟩)

theorem rstatHandle_sieve {i f : Nat} (hi : i < (graphSieves x).length) (hf : f < 7) : rstatHandle s t d ga gb 3 i f =
    .ok (.onRegs s t fun y => writeG y d (w64 (sieveField (tgetD x.snapSieves i SieveCounts.zero) f))) := by
  rw [rstatHandle, hg]
  exact if_neg (not_or.2 ⟨not_le.2 hi, not_le.2 hf⟩)

end

/-! ## RSTAT of cores, pots and energy (R254, R266) -/

section
variable {ga gb : Word} {i f : Nat}

theorem rstatCore_island (hi : i < 128) (hf : f < 7) (ho : ownCore s t i = true) : rstatCore s t d ga gb 4 i f =
    .ok (.onRegs s t fun y => writeG y d (islandField s (128 * (t.lcore / 128) + i) f)) :=
  (if_neg (not_or.2 ⟨not_le.2 hi, not_le.2 hf⟩)).trans (if_neg (by simp [ho]))

theorem rstatCore_core (hi : i < 128) (hf : f < 5) (ho : ownCore s t i = true) : rstatCore s t d ga gb 5 i f =
    .ok (.onRegs s t fun y => writeG y d (coreField s (128 * (t.lcore / 128) + i) f)) :=
  (if_neg (not_or.2 ⟨not_le.2 hi, not_le.2 hf⟩)).trans (if_neg (by simp [ho]))

/-- The core of a pot is named by ga, and must be the context's (R254). -/
theorem rstatCore_pot (ha : ga.toNat < 128) (hi : i < 48) (hf : f < 2) : rstatCore s t d ga gb 6 i f =
    if ownCore s t ga.toNat then
      .ok (.onRegs s t fun y => writeG y d (potField s (128 * (t.lcore / 128) + ga.toNat) i f))
    else .error (.trap .protect ga) := by
  refine (if_neg (not_or.2 ⟨not_le.2 hi, not_le.2 hf⟩)).trans ?_
  simp only [if_true, Nat.mod_eq_of_lt ha]
  cases ownCore s t ga.toNat <;> rfl

theorem rstatCore_pot_beyond (hi : 48 ≤ i) : rstatCore s t d ga gb 6 i f = .error (.trap .handle ga) :=
  if_pos (.inl hi)

theorem rstatCore_energy (hf : f < 2) : rstatCore s t d ga gb 7 0 f =
    .ok (.onRegs s t fun y => writeG y d (energyField (s.ctx t.ctx) f)) :=
  if_neg (not_or.2 ⟨by decide, not_le.2 hf⟩)

end

/-- A selector of a pot with a wrong field, or beyond the last pot, raises HANDLE with ga (R254). -/
theorem rstat_pot_refused (ht : Issues s t) (hn : t.inTrap = false) (h6 : (readG t b).extractLsb 3 0 = 6)
    (hb : (readG t b).extractLsb 63 20 ≠ 0 ∨ 48 ≤ ((readG t b).extractLsb 15 4).toNat) :
    Traps s t (.rstat d a b) .handle (readG t a) := by
  have hi : exec (.rstat d a b) s = execRstat d a b s := rfl
  refine traps_of_perform hi ht hn ?_
  have hgroup : bits (readG t b) 3 0 = 6 := by rw [bits_extract _ 3 0, h6]; rfl
  rw [ne_eq, ← bits_zero _ _ _ (by decide), ← bits_extract _ _ _ (by decide)] at hb
  simp only [hgroup, if_true, true_and]
  split
  · rfl
  next hz =>
    split
    · rfl
    · exact rstatCore_pot_beyond (hb.resolve_left fun h => hz (.inr h))

end

/-! ## Snapshots (R198, R254, R259) -/

/-- A table of a list's elements at their positions holds each element's value. -/
theorem tget_map_zipIdx {α β : Type} (g : α → β) (l : List α) (n i : Nat) :
    tget ((l.zipIdx n).map fun p => (p.2, g p.1)) (n + i) = l[i]?.map g := by
  induction l generalizing n i with
  | nil => rfl
  | cons y r ih =>
    cases i with
    | zero => simp [tget]
    | succ i =>
      have hs := ih (n + 1) i
      rw [Nat.add_right_comm] at hs
      have hn : n ≠ n + i + 1 := by omega
      simp [tget, hs, hn, ← Nat.add_assoc]

/-- A snapshot keeps the counts of every boundary link and of every sieve (R254, R259). -/
theorem takeSnapshot_counts {s : State} {cl h : Nat} {x x' : Handle} (hx : (takeSnapshot s cl h x).handle? cl h = some x') :
    (∀ i p, (graphBounds s x)[i]? = some p → tget x'.snapBounds i = some (boundCounts s h p)) ∧
    (∀ i p, (graphSieves x)[i]? = some p → tget x'.snapSieves i = some (sieveCounts s h p)) := by
  rw [takeSnapshot, State.handle_setHandle_same] at hx
  cases hx
  refine ⟨fun i p hp => ?_, fun i p hp => ?_⟩
  · have := tget_map_zipIdx (boundCounts s h) (graphBounds s x) 0 i
    rwa [Nat.zero_add, hp] at this
  · have := tget_map_zipIdx (sieveCounts s h) (graphSieves x) 0 i
    rwa [Nat.zero_add, hp] at this

/-- The counts of a link and of a sieve are those of a tile that the handle has configured (R198, R254). -/
theorem counts_of_active {s : State} {h : Nat} {l : TileLoc} {c : TileCfg} (hc : (s.tile l).active = some c) (hh : c.handle = h)
    (key : Nat) :
    let k := (s.tile l).bound key
    boundCounts s h (l, key) = (k.sent, k.taken - k.dropped, k.sent - k.taken, k.dropped) ∧
    sieveCounts s h (l, key) = (tgetD (s.tile l).stages key StageSt.start).sieve := by
  simp only [boundCounts, sieveCounts, hc, hh, ne_eq, not_true_eq_false, if_false, if_true, and_self]

/-- Settles O45: RATE and SOLVE by the handle they name, RSTAT by the group of its selector, and snapshots by position. -/
theorem ratesAreRequestedSolvedAndRead : Obligations.RatesAreRequestedSolvedAndRead := by
  unfold Obligations.RatesAreRequestedSolvedAndRead
  intro s t d a b ht
  refine ⟨fun h x hg => rate_records ht hg, fun h x hg => rate_refused ht hg, fun h x hg => ?solve,
    fun tid y => solveComplete_readies, fun h x hg => ?handle, fun h x x' => takeSnapshot_counts,
    fun h l key c hc hh => counts_of_active hc hh key, fun i f ha hi hf hb => ?pot,
    fun i f hi ho => ⟨fun hf hb => ?island, fun hf hb => ?core⟩, fun h6 hb hn => rstat_pot_refused ht hn h6 hb,
    fun hb => ?energy, fun hb => ?shared⟩
  case solve =>
    have ht' : s.thread? s.cur = some t := ht
    exact ⟨_, exec_solve ht hg, by simp, by simp [ht']⟩
  case handle =>
    refine ⟨fun hb => ?_, fun hb => ?_, fun hb => ?_, fun hb => ?_, fun i f hi hf hb h4096 => ?_, fun i f hi hf hb h4096 => ?_⟩
    · exact rstat_of_handle (group := 0) (idx := 0) (f := 0) ht hb (by decide) (by decide) (by decide) (rstatHandle_status hg)
    · exact rstat_of_handle (group := 0) (idx := 0) (f := 1) ht hb (by decide) (by decide) (by decide) (rstatHandle_result hg)
    · exact rstat_of_handle (group := 0) (idx := 0) (f := 2) ht hb (by decide) (by decide) (by decide) (rstatHandle_steps hg)
    · exact rstat_of_handle (group := 1) (idx := 0) (f := 0) ht hb (by decide) (by decide) (by decide) (rstatHandle_snapshot hg)
    · exact rstat_of_handle ht hb h4096 (by omega) (by decide) (rstatHandle_bound hg hi hf)
    · exact rstat_of_handle ht hb h4096 (by omega) (by decide) (rstatHandle_sieve hg hi hf)
  case pot =>
    have hpot := rstatCore_pot (s := s) (t := t) (d := d) (gb := readG t b) ha hi hf
    refine ⟨fun ho => ?_, fun ho hn => ?_⟩
    · obtain rfl | rfl : f = 0 ∨ f = 1 := by omega
      all_goals exact rstat_of_core ht hb (by omega) (by omega) (by decide) (fun _ => ha) (hpot.trans (if_pos ho))
    · exact rstat_traps_of_core ht hb (by omega) (by omega) (by decide) (fun _ => ha) hn (hpot.trans (if_neg (by simp [ho])))
  case island => exact rstat_of_core ht hb (by omega) (by omega) (by decide) (by omega) (rstatCore_island hi hf ho)
  case core => exact rstat_of_core ht hb (by omega) (by omega) (by decide) (by omega) (rstatCore_core hi hf ho)
  case energy =>
    exact rstat_of_core (group := 7) (idx := 0) (f := 0) ht hb (by decide) (by decide) (by decide) (by omega)
      (rstatCore_energy (by decide))
  case shared =>
    have h1 := rstat_of_core (group := 7) (idx := 0) (f := 1) ht hb (by decide) (by decide) (by decide) (by omega)
      (rstatCore_energy (s := s) (t := t) (d := d) (ga := readG t a) (gb := readG t b) (by decide))
    cases hs : (s.ctx t.ctx).shared <;> simpa [energyField, hs, w64] using h1

end Sys2Proof.Machine
end

section
/-! PROOFS. Rates as the machine sets them (R250, R255, R257, R260 to R263, R265, R266, R334): steps, samples of power and of the
input, ceilings and the end of a cool window. -/

namespace Sys2Proof.Machine

open Sys2Proof

variable {s : State}

/-! ## Steps (R250, R257) -/

/-- The regulators that settle end phase 1 of the step in progress (R257). -/
theorem regulatorSettled_strobes {cl : Nat} {st : RateStep} (hst : (s.cluster cl).step = some st) :
    exec (.regulatorSettled cl) s =
      .next (resolveWaiting (applyStep (s.modCluster cl fun c => { c with step := none }) cl st) cl) := by
  have hi : exec (.regulatorSettled cl) s = execRegulatorSettled cl s := rfl
  rw [hi, execRegulatorSettled, hst]

/-- Without a step regulators settle for nothing (log 17). -/
theorem regulatorSettled_idle {cl : Nat} (hst : (s.cluster cl).step = none) : exec (.regulatorSettled cl) s = .next s := by
  have hi : exec (.regulatorSettled cl) s = execRegulatorSettled cl s := rfl
  rw [hi, execRegulatorSettled, hst]

/-! ## Samples of power (R260, R262, R266) -/

/-- A sample adds to the energy, and lowers the islands where it is above the cluster's budget (R262, R266). -/
theorem exec_telemetrySample (cl : Nat) (codes : List (Nat × Nat)) (s : State) :
    let p := (codes.map fun (core, code) => railPower s cl core (code % 1024)).sum
    let s1 := s.modCluster cl fun c => { c with samples := (p :: c.samples).take 4096, energy := c.energy + p }
    exec (.telemetrySample cl codes) s = .next (if (s.cluster cl).budget < p then lowerAll s1 cl else s1) := by
  have hi : exec (.telemetrySample cl codes) s = execTelemetrySample cl codes s := rfl
  simp only [hi, execTelemetrySample, State.cluster_modCluster_same]

/-! ## Samples of the input (R263, R334) -/

@[simp] theorem noteInput_mgmt (s : State) (v : BitVec 16) : (noteInput s v).mgmt =
    { s.mgmt with input := inputWord v (bit s.mgmt.input 17 && v.toNat < 3800) (bit s.mgmt.input 18) } := by
  rw [noteInput, setInput_frame]

/-- INPUT[15:0] is the sample (R334). -/
theorem inputWord_sample (v : BitVec 16) (low38 quiescing : Bool) : (inputWord v low38 quiescing).extractLsb 15 0 = v := by
  refine extractLsb_of_bits (by decide) ?_
  have hv := v.isLt
  rw [inputWord, bits_w64]
  split <;> split <;> split <;> omega

/-- INPUT[16] is set below 44 V (R334). -/
theorem inputWord_low44 (v : BitVec 16) (low38 quiescing : Bool) :
    (inputWord v low38 quiescing).getLsbD 16 = Decidable.decide (v.toNat < 4400) := by
  have hv := v.isLt
  have h16 : bits (inputWord v low38 quiescing) 16 16 = if v.toNat < 4400 then 1 else 0 := by
    rw [inputWord, bits_w64]
    split <;> split <;> split <;> omega
  rw [← bit_eq, bit]
  rw [bits] at h16
  split at h16 <;> simp_all

theorem exec_droop_off {v : BitVec 16} (hp : s.power = .off) : exec (.droop v) s = .next s := if_pos hp

theorem exec_droopRecovery_off {v : BitVec 16} (hp : s.power = .off) : exec (.droopRecovery v) s = .next s := if_pos (.inr hp)

theorem exec_droopRecovery_low {v : BitVec 16} (hv : v.toNat < 4400) : exec (.droopRecovery v) s = .next s := if_pos (.inl hv)

section
variable (hp : s.power ≠ .off) {v : BitVec 16}
include hp

/-- A sample below 44 V is a droop, which both clusters answer (R263). -/
theorem exec_droop_low (hv : v.toNat < 4400) : exec (.droop v) s = .next (droopCluster (droopCluster
    { noteInput s v with mgmt := { (noteInput s v).mgmt with droop := true } } 0) 1) :=
  (if_neg hp).trans (if_neg (not_le.2 hv))

/-- A sample at 44 V or above is noted alone (R334). -/
theorem exec_droop_noted (hv : 4400 ≤ v.toNat) : exec (.droop v) s = .next (noteInput s v) :=
  (if_neg hp).trans (if_pos hv)

variable (hv : 4400 ≤ v.toNat)
include hv

/-- Without a droop a recovery is a sample alone (R334). -/
theorem exec_droopRecovery_noted (hd : s.mgmt.droop = false) : exec (.droopRecovery v) s = .next (noteInput s v) :=
  (if_neg (by simp [hp, hv])).trans (if_pos (by simp [hd]))

/-- The end of a droop solves every running launch again (R255, R263). -/
theorem exec_droopRecovery_ends (hd : s.mgmt.droop = true) : exec (.droopRecovery v) s = .next (resolveAll (resolveAll
    { noteInput s v with mgmt := { (noteInput s v).mgmt with droop := false } } 0) 1) :=
  (if_neg (by simp [hp, hv])).trans (if_neg (by simp [hd]))

end

/-- A droop holds every island's ceiling at 1/4 (R263). -/
theorem ceilingOf_droop (hd : s.mgmt.droop = true) (i : Nat) : ceilingOf s i ≤ 1 / 4 := by
  simp only [ceilingOf, hd, if_true]
  exact min_le_right ..

/-! ## The budget agent (R262, R332) -/

/-- A change of a cluster that keeps its logical core table keeps what backs a logical core (R281). -/
theorem State.lct_modCluster (s : State) {cl : Nat} {f : Cluster → Cluster} (hf : (f (s.cluster cl)).lct = (s.cluster cl).lct)
    (n : Nat) : (s.modCluster cl f).lct n = s.lct n := by
  unfold State.lct
  rw [State.cluster_modCluster]
  split
  next h => rw [hf, h]
  · rfl

/-- The state after the agent has set a cluster's budget, within what the other one leaves (R332). -/
def budgeted (s : State) (cl budget : Nat) : State :=
  s.modCluster cl fun c => { c with budget := Nat.min budget (budgetLeft s cl) }

@[simp] theorem lct_budgeted (s : State) (cl b n : Nat) : (budgeted s cl b).lct n = s.lct n := by
  rw [budgeted, State.lct_modCluster]
  rfl

@[simp] theorem backed_budgeted (s : State) (cl b n : Nat) : (budgeted s cl b).backed n = s.backed n := by
  simp only [State.backed, lct_budgeted]

@[simp] theorem phys_budgeted (s : State) (cl b n : Nat) : (budgeted s cl b).phys n = s.phys n := by
  simp only [State.phys, backed_budgeted, lct_budgeted]

@[simp] theorem core_budgeted (s : State) (cl b n : Nat) : (budgeted s cl b).core n = s.core n := State.core_modCluster ..

/-- One ceiling of a backed core is raised where it lies below the new one (R262). -/
theorem exec_ceilingRaise_one {cl b i p q : Nat} (hb : s.backed (128 * cl + i) = true) (hp : 0 < p) (hpq : p ≤ q) :
    let f := fareyDown ((p : ℚ) / q)
    let n := s.phys (128 * cl + i)
    exec (.ceilingRaise cl b [(i, p, q)]) s = .next (if f ≤ (s.core n).powerCeil.rat then budgeted s cl b
      else (budgeted s cl b).modCore n fun k => { k with powerCeil := fracOf f }) := by
  have hi : exec (.ceilingRaise cl b [(i, p, q)]) s = execCeilingRaise cl b [(i, p, q)] s := rfl
  have hq0 : q ≠ 0 := by omega
  have hp0 : p ≠ 0 := by omega
  rw [hi]
  show Host.Outcome.next (List.foldl _ (budgeted s cl b) [(i, p, q)]) = _
  simp only [List.foldl_cons, List.foldl_nil, backed_budgeted, phys_budgeted, core_budgeted, hb, hq0, hp0,
    not_lt.2 hpq, ge_iff_le, decide_false, Bool.not_true, Bool.or_self, Bool.false_or, decide_eq_true_eq]

/-- What the budget agent leaves: the budget, and the ceiling where it lay below the new one (R262, R332). -/
theorem ceilingRaise_one {cl b i p q : Nat} (hb : s.backed (128 * cl + i) = true) (hp : 0 < p) (hpq : p ≤ q) :
    let k := s.core (s.phys (128 * cl + i))
    let f := fareyDown ((p : ℚ) / q)
    ∃ s', exec (.ceilingRaise cl b [(i, p, q)]) s = .next s' ∧ s'.mem = s.mem ∧
      (s'.cluster cl).budget = min b (budgetLeft s cl) ∧
      (k.powerCeil.rat < f → (s'.core (s.phys (128 * cl + i))).powerCeil = fracOf f) ∧
      (f ≤ k.powerCeil.rat → s'.core (s.phys (128 * cl + i)) = k) := by
  intro k f
  have hbudget : ((budgeted s cl b).cluster cl).budget = min b (budgetLeft s cl) := by
    rw [budgeted, State.cluster_modCluster_same]
  by_cases hf : f ≤ k.powerCeil.rat
  · exact ⟨_, (exec_ceilingRaise_one hb hp hpq).trans (congrArg _ (if_pos hf)), rfl, hbudget, fun h => absurd hf (not_le.2 h),
      fun _ => core_budgeted ..⟩
  · refine ⟨_, (exec_ceilingRaise_one hb hp hpq).trans (congrArg _ (if_neg hf)), rfl, ?_, fun _ => ?_, fun h => absurd h hf⟩
    · rw [State.cluster_modCore, hbudget]
    · rw [State.core_modCore_same]

/-! ## The end of a window (R255, R265) -/

/-- A core after a window below 95 °C (R265). -/
def coolCore (k : Core) (temp : Int) : Core :=
  let n := if temp < 360 then k.coolWindows + 1 else 0
  { k with temp := temp, thermalRequest := false, hotWindows := 0, coolWindows := n,
           thermCeil := if 16 ≤ n then { p := 1, q := 1 } else k.thermCeil }

/-- The later of two writes of a core stands. -/
theorem State.setCore_setCore (s : State) (c : Nat) (k k' : Core) : (s.setCore c k).setCore c k' = s.setCore c k' := by
  simp only [State.setCore, tset_tset]

theorem thermalWindow_cool {core : Nat} {temp : Int} (ht : temp < 380) :
    thermalWindow s core temp = s.setCore core (coolCore (s.core core) temp) := by
  rw [thermalWindow]
  simp only [if_neg (not_le.2 ht), State.core_setCore_same, State.setCore_setCore]
  rfl

/-- A window of a cluster without running launches and without an abandoned step latches its counts alone (R255). -/
theorem exec_monitorWindowEnd_still {core : Nat} {temp : Int}
    (hrun : ∀ x ∈ ((thermalWindow s core temp).cluster (core / 132)).handles,
      sourcesRun (thermalWindow s core temp) (core / 132) x.1 = false)
    (hretry : ((thermalWindow s core temp).cluster (core / 132)).retry = none) :
    exec (.monitorWindowEnd core temp) s = .next (latchWindow (thermalWindow s core temp) core) := by
  have hi : exec (.monitorWindowEnd core temp) s = execMonitorWindowEnd core temp s := rfl
  have hnone : (((thermalWindow s core temp).cluster (core / 132)).handles.filterMap fun (h, _) =>
      if sourcesRun (thermalWindow s core temp) (core / 132) h then some h else none) = [] :=
    List.filterMap_eq_nil_iff.2 fun x hx => by simp [hrun x hx]
  rw [hi, execMonitorWindowEnd]
  simp only [hnone, List.foldl_nil, latchWindow, State.cluster_modCore, hretry]

/-- Settles O51: each event by what it finds, and the fields of INPUT by arithmetic. -/
theorem ratesFollowRegulatorsPowerAndHeat : Obligations.RatesFollowRegulatorsPowerAndHeat := by
  unfold Obligations.RatesFollowRegulatorsPowerAndHeat
  intro s
  refine ⟨fun cl st hst => ⟨regulatorSettled_strobes hst, rfl⟩, fun cl => regulatorSettled_idle, fun cl codes => ?sample,
    fun v hv hp => exec_droop_low hp hv, fun v hv hp => ⟨exec_droop_noted hp hv, exec_droopRecovery_noted hp hv⟩,
    fun v hp => ⟨exec_droop_off hp, exec_droopRecovery_off hp⟩, fun v => exec_droopRecovery_low, fun v => ?input,
    fun v hv hp => exec_droopRecovery_ends hp hv, ceilingOf_droop,
    fun cl b i p q hb hq hp => ceilingRaise_one hb hp, fun core temp ht hrun hretry => ?window⟩
  case sample =>
    have h := exec_telemetrySample cl codes s
    exact ⟨fun hp => h.trans (congrArg _ (if_neg (not_lt.2 hp))), fun hp => h.trans (congrArg _ (if_pos hp))⟩
  case input =>
    rw [noteInput_mgmt]
    exact ⟨inputWord_sample .., inputWord_low44 ..⟩
  case window =>
    have hcool := thermalWindow_cool (s := s) (core := core) ht
    refine ⟨_, exec_monitorWindowEnd_still (hcool ▸ hrun) (hcool ▸ hretry), ?_⟩
    rw [hcool, latchWindow]
    refine ⟨rfl, rfl, ?_⟩
    rw [State.core_modCore_same, State.core_setCore_same]
    exact ⟨rfl, rfl, rfl, rfl, rfl, rfl, rfl⟩

end Sys2Proof.Machine
end

section
/-! PROOFS. Numbered messages at their destination (R356, R359): one that has been applied is acknowledged again, and the next in
sequence is applied once. -/

namespace Sys2Proof.Machine

open Sys2Proof

/-! ## What is applied already (R356, R359) -/

@[simp] theorem sendAck_mem (s : State) (chip : Nat) : (sendAck s chip).mem = s.mem := emitMsg_mem ..
@[simp] theorem sendAck_cores (s : State) (chip : Nat) : (sendAck s chip).cores = s.cores := emitMsg_cores ..
@[simp] theorem sendAck_threads (s : State) (chip : Nat) : (sendAck s chip).threads = s.threads := emitMsg_threads ..
@[simp] theorem sendAck_ports (s : State) (chip : Nat) : (sendAck s chip).fabric.ports = s.fabric.ports := emitMsg_ports ..
@[simp] theorem sendAck_source (s : State) (chip c : Nat) : (sendAck s chip).source c = s.source c := emitMsg_source ..

/-- A message that is applied already is acknowledged again, behind the reply that its RAT had (R356, R359). -/
theorem arriveNumbered_again {s : State} {m : Msg} (h : seqLe m.seq (s.source m.src.toNat).applied = true) :
    arriveNumbered s m = sendAck s m.src.toNat ∨
      ∃ r, arriveNumbered s m = sendAck (emitMsg s r) m.src.toNat := by
  simp only [arriveNumbered, h, if_true]
  split
  · split
    · exact .inr ⟨_, rfl⟩
    · exact .inl rfl
  · exact .inl rfl

/-- A message that comes again leaves what applying it would change (R356). -/
theorem arriveNumbered_again_keeps {s : State} {m : Msg} (h : seqLe m.seq (s.source m.src.toNat).applied = true) :
    (arriveNumbered s m).mem = s.mem ∧ (arriveNumbered s m).cores = s.cores ∧ (arriveNumbered s m).threads = s.threads ∧
      (arriveNumbered s m).fabric.ports = s.fabric.ports ∧
      (arriveNumbered s m).source m.src.toNat = s.source m.src.toNat := by
  obtain hs | ⟨r, hs⟩ := arriveNumbered_again h <;> simp [hs]

/-! ## The next in sequence (R356) -/

theorem seqLe_succ (a : BitVec 32) : seqLe (a + 1) a = false := by
  rw [seqLe, sub_add_cancel_left]
  rfl

/-- The next in sequence is the only message that its source's window holds (R356). -/
structure HeldAlone (s : State) (m : Msg) : Prop where
  window : (s.source m.src.toNat).window = [m]
  next : m.seq = (s.source m.src.toNat).applied + 1

/-- What applying a message leaves of the state: its sequence is passed, and the reply of a RAT is sent (R356, R359). -/
def passApplied (s : State) (m : Msg) : Option Word → State
  | none => passHeld s m.src.toNat m [] []
  | some old =>
    let s1 := passHeld s m.src.toNat m [(m.seq, old)] []
    emitMsg s1 (fromHere s1 (replyMsg m.src.toNat m.seq m.requester old))

theorem passApplied_keeps (s : State) (m : Msg) (reply : Option Word) :
    (passApplied s m reply).mem = s.mem ∧ (passApplied s m reply).threads = s.threads ∧
      (passApplied s m reply).fabric.ports = s.fabric.ports ∧
      ((passApplied s m reply).source m.src.toNat).applied = m.seq ∧
      ((passApplied s m reply).source m.src.toNat).window =
        (s.source m.src.toNat).window.filter fun x => x.seq ≠ m.seq := by
  cases reply with
  | none => simp only [passApplied, passHeld, source_setSource, if_true]; exact ⟨rfl, rfl, rfl, trivial, trivial⟩
  | some old =>
    simp only [passApplied, emitMsg_mem, emitMsg_threads, emitMsg_ports, emitMsg_source, passHeld, source_setSource, if_true]
    exact ⟨rfl, rfl, rfl, trivial, trivial⟩

theorem applyHeld_empty {s : State} {chip : Nat} (h : (s.source chip).window = []) (n : Nat) : applyHeld chip n s = s := by
  cases n with
  | zero => rfl
  | succ n => simp [applyHeld, h]

/-- A message that is alone in its window is applied, and no other is (R356). -/
theorem applyHeld_alone {s s2 : State} {m : Msg} {reply : Option Word} (hm : HeldAlone s m) (ha : applyMsg s m = .done s2 reply)
    (n : Nat) : applyHeld m.src.toNat (n + 1) s = passApplied s2 m reply := by
  have hsource : s2.source m.src.toNat = s.source m.src.toNat := by
    unfold State.source; rw [applyMsg_sources ha]
  have hempty : ((passApplied s2 m reply).source m.src.toNat).window = [] := by
    obtain ⟨-, -, -, -, hw⟩ := passApplied_keeps s2 m reply
    simp [hw, hsource, hm.window]
  have hfind : (s.source m.src.toNat).window.find? (fun x => x.seq = (s.source m.src.toNat).applied + 1) = some m := by
    simp [hm.window, hm.next]
  simp only [applyHeld, hfind, ha]
  cases reply <;> exact applyHeld_empty hempty n

/-- The next in sequence enters the empty window of its source, is applied and acknowledged (R356). -/
theorem arriveNumbered_next {s s2 : State} {m : Msg} {reply : Option Word}
    (hseq : m.seq = (s.source m.src.toNat).applied + 1) (hw : (s.source m.src.toNat).window = [])
    (ha : applyMsg (s.setSource m.src.toNat { s.source m.src.toNat with window := [m] }) m = .done s2 reply) :
    arriveNumbered s m = sendAck (passApplied s2 m reply) m.src.toNat := by
  have hone : m.seq - (s.source m.src.toNat).applied = 1 := by bv_omega
  have halone : HeldAlone (s.setSource m.src.toNat { s.source m.src.toNat with window := [m] }) m :=
    ⟨by simp, by simpa using hseq⟩
  have hadvanced : ((passApplied s2 m reply).source m.src.toNat).applied ≠ (s.source m.src.toNat).applied := by
    obtain ⟨-, -, -, happlied, -⟩ := passApplied_keeps s2 m reply
    rw [happlied, hseq]
    bv_omega
  have hnew : seqLe m.seq (s.source m.src.toNat).applied = false := hseq ▸ seqLe_succ _
  simp only [arriveNumbered, hnew, hone, hw, List.any_nil, List.nil_append, advanceSource, applyHeld_alone halone ha 63,
    source_setSource, if_true, if_neg hadvanced]
  rfl

/-! ## The five kinds (R355) -/

/-- The event by which a numbered message arrives (R355). -/
def IsArrival (i : Instr) (n : Nat) (m : Msg) : Prop :=
  m.type = 0 ∧ i = .peerRst n ∨ m.type = 1 ∧ i = .peerRat n ∨ m.type = 2 ∧ i = .peerCopyData n ∨
    m.type = 3 ∧ i = .peerReducingData n ∨ m.type = 4 ∧ i = .peerChannelToken n

theorem numberedStep_arrives {s : State} {n type : Nat} {m : Msg} (hin : s.fabric.inbox[n]? = some m)
    (hm : m.type.toNat = type) : numberedStep s n type = .next (arriveNumbered (inboxTaken s n) m) := by
  simp only [numberedStep, takeInbox_some hin (types := [type]) (by simp [hm])]

theorem exec_arrival {s : State} {n : Nat} {m : Msg} {i : Instr} (hin : s.fabric.inbox[n]? = some m) (hi : IsArrival i n m) :
    exec i s = .next (arriveNumbered (inboxTaken s n) m) := by
  obtain ⟨hm, rfl⟩ | ⟨hm, rfl⟩ | ⟨hm, rfl⟩ | ⟨hm, rfl⟩ | ⟨hm, rfl⟩ := hi
  · exact numberedStep_arrives (type := 0) hin (by rw [hm]; rfl)
  · exact numberedStep_arrives (type := 1) hin (by rw [hm]; rfl)
  · exact numberedStep_arrives (type := 2) hin (by rw [hm]; rfl)
  · exact numberedStep_arrives (type := 3) hin (by rw [hm]; rfl)
  · exact numberedStep_arrives (type := 4) hin (by rw [hm]; rfl)

/-- Settles O18: every kind arrives as a numbered message; one that comes again only sends, the next in sequence is applied alone. -/
theorem numberedMessagesAreAppliedExactlyOnce : Obligations.NumberedMessagesAreAppliedExactlyOnce := by
  unfold Obligations.NumberedMessagesAreAppliedExactlyOnce
  intro s n m i hin hi chip d s0
  have hexec := exec_arrival hin hi
  refine ⟨fun hdup => ⟨_, hexec, ?again⟩, fun hseq hw s2 reply ha => ⟨_, hexec, ?next⟩⟩
  case again =>
    obtain ⟨hmem, hcores, hthreads, hports, hsource⟩ := arriveNumbered_again_keeps (s := inboxTaken s n) hdup
    exact ⟨hmem, hcores, hthreads, hports, congrArg SourceSt.applied hsource⟩
  case next =>
    obtain ⟨hmem, hthreads, hports, happlied, -⟩ := passApplied_keeps s2 m reply
    rw [arriveNumbered_next (s := inboxTaken s n) hseq hw ha, sendAck_mem, sendAck_threads, sendAck_ports, sendAck_source]
    exact ⟨hmem, hthreads, hports, happlied⟩

end Sys2Proof.Machine
end

section
/-! PROOFS. Links (R293, R352 to R355): what traffic leaves of a link's training, what a flit does by its checks, and what the
router does with the messages of a flit. -/

namespace Sys2Proof.Machine

open Sys2Proof

/-! ## What traffic leaves of a link (R353, R354) -/

/-- What training gives a link, and the sequence that it expects: sending changes none of it. -/
structure Training where
  state : LinkState
  lanes : Nat
  failures : Nat
  expected : BitVec 12

def PeerLink.training (p : PeerLink) : Training :=
  { state := p.state, lanes := p.lanes, failures := p.failures, expected := p.expected }

@[simp] theorem pumpLink_training (n : Nat) (p : PeerLink) : (pumpLink n p).training = p.training := by
  induction n generalizing p with
  | zero => rfl
  | succ n ih =>
    unfold pumpLink
    split
    · rfl
    · exact ih _

@[simp] theorem resendFlits_training (p : PeerLink) : (resendFlits p).training = p.training := by
  unfold resendFlits
  generalize p.retry = l
  induction l generalizing p with
  | nil => rfl
  | cons f l ih => exact ih _

@[simp] theorem answerLink_training (n : Nat) (p : PeerLink) : (answerLink n p).training = p.training := by
  unfold answerLink
  split <;> rfl

@[simp] theorem ackFlits_training (p : PeerLink) (a : BitVec 12) : (ackFlits p a).training = p.training := by
  unfold ackFlits
  split <;> rfl

theorem countNak_expected (p : PeerLink) (a : BitVec 12) : (countNak p a).expected = p.expected := by
  unfold countNak
  dsimp only
  generalize (if p.naks ≠ 0 ∧ p.nakSeq = a + 1 then p.naks + 1 else 1) = n
  split <;> rfl

theorem expected_of_training {p q : PeerLink} (h : p.training = q.training) : p.expected = q.expected :=
  congrArg Training.expected h

/-! ## What sending leaves (R354, R357) -/

@[simp] theorem linkSend_training (s : State) (l n : Nat) (m : Msg) :
    ((linkSend s l m).link n).training = (s.link n).training := by
  rw [linkSend, link_setLink]
  split
  next h => rw [pumpLink_training, h]; rfl
  next => rfl

@[simp] theorem emitMsg_training (s : State) (m : Msg) (n : Nat) : ((emitMsg s m).link n).training = (s.link n).training := by
  obtain h | h | ⟨l, h⟩ | ⟨l, h⟩ := emitMsg_cases s m <;> rw [h]
  · rw [takeOwn_frame]; rfl
  · exact linkSend_training ..
  · exact linkSend_training s l n m

@[simp] theorem emitMsg_replay (s : State) (m : Msg) (chip : Nat) :
    ((emitMsg s m).dest chip).replay = (s.dest chip).replay := by
  obtain h | h | ⟨l, h⟩ | ⟨l, h⟩ := emitMsg_cases s m <;> rw [h]
  · rw [takeOwn_frame]; rfl
  · rfl
  · rw [dest_setDest]
    split
    next hc => subst hc; rfl
    next => rfl

/-- What sending a message keeps, sending everything that a link owes keeps (R357). -/
theorem resendLink_keeps {β : Type} (f : State → β) (h : ∀ s m, f (emitMsg s m) = f s) (s : State) (link : Nat) :
    f (resendLink s link) = f s :=
  foldl_field resendAll f (fun _ _ => foldl_emit f h _ _) _ _

/-! ## The router (R355, R360) -/

/-- A message is for this package (R360). -/
def ownMsg (s : State) (m : Msg) : Bool := idSelf s m.dest.toNat && idValid s m.dest.toNat

/-- The router changes the fabric alone: what it counts, whose link it notes, and where it puts the message. -/
theorem routerTake_frame (s : State) (link : Nat) (m : Msg) :
    routerTake s link m = { s with fabric := { s.fabric with
      dropped := (routerTake s link m).fabric.dropped, sources := (routerTake s link m).fabric.sources,
      inbox := (routerTake s link m).fabric.inbox, transit := (routerTake s link m).fabric.transit } } := by
  unfold routerTake
  split
  · rfl
  · split
    · rw [takeOwn_frame]; rfl
    · rfl

theorem foldl_routerTake_keeps {β : Type} (f : State → β) (h : ∀ s link m, f (routerTake s link m) = f s) (link : Nat)
    (ms : List Msg) (s : State) : f (ms.foldl (fun s m => routerTake s link m) s) = f s :=
  foldl_field (fun s m => routerTake s link m) f (fun s m => h s link m) ms s

theorem ownMsg_routerTake (s : State) (link : Nat) (m : Msg) : ownMsg (routerTake s link m) = ownMsg s := by
  rw [routerTake_frame]; rfl

theorem awaiting_routerTake (s : State) (link : Nat) (m : Msg) :
    (routerTake s link m).fabric.awaiting = s.fabric.awaiting := by
  rw [routerTake_frame]

section
variable {s : State} {link : Nat}

theorem routerTake_own {m : Msg} (hm : m.type.toNat < 8) (ho : ownMsg s m = true) : routerTake s link m =
    takeOwn (s.setSource m.src.toNat { s.source m.src.toNat with link := link }) m :=
  (if_neg (not_le.2 hm)).trans (if_pos ho)

theorem routerTake_onward {m : Msg} (hm : m.type.toNat < 8) (ho : ownMsg s m = false) : routerTake s link m =
    { s with fabric := { s.fabric with transit := s.fabric.transit ++ [(link / 8, m)] } } :=
  (if_neg (not_le.2 hm)).trans (if_neg (ne_true_of_eq_false ho))

/-- The messages for others transit, in their order (R360). -/
theorem foldl_routerTake_transit {ms : List Msg} (hms : ∀ m ∈ ms, m.type.toNat < 8) :
    (ms.foldl (fun s m => routerTake s link m) s).fabric.transit =
      s.fabric.transit ++ (ms.filter fun m => !ownMsg s m).map (link / 8, ·) := by
  induction ms generalizing s with
  | nil => exact (List.append_nil _).symm
  | cons m ms ih =>
    obtain ⟨hm, hrest⟩ := List.forall_mem_cons.1 hms
    rw [List.foldl_cons, ih hrest, ownMsg_routerTake]
    cases ho : ownMsg s m with
    | true => rw [routerTake_own hm ho, takeOwn_frame]; simp [State.setSource, ho]
    | false => simp [routerTake_onward hm ho, ho]

/-- The messages for this package join its inbox, in their order (R355). -/
theorem foldl_routerTake_inbox {ms : List Msg} (hms : ∀ m ∈ ms, m.type.toNat < 8) (ha : s.fabric.awaiting = false) :
    (ms.foldl (fun s m => routerTake s link m) s).fabric.inbox = s.fabric.inbox ++ ms.filter (ownMsg s) := by
  induction ms generalizing s with
  | nil => exact (List.append_nil _).symm
  | cons m ms ih =>
    obtain ⟨hm, hrest⟩ := List.forall_mem_cons.1 hms
    rw [List.foldl_cons, ih hrest ((awaiting_routerTake ..).trans ha), ownMsg_routerTake]
    cases ho : ownMsg s m with
    | true => simp [routerTake_own hm ho, takeOwn, State.setSource, ha, ho]
    | false => simp [routerTake_onward hm ho, ho]

end

/-! ## A flit (R352 to R354) -/

/-- The header word of a flit (R352). -/
def flitHead (bytes : List Byte) : Word := w64 (leNat (bytes.take 8))

/-- A flit has its length and its CRC (R352). -/
def FlitIntact (bytes : List Byte) : Prop := bytes.length = 256 ∧ crc32c (bytes.take 252) = leNat (bytes.drop 252)

/-- The messages that an intact flit carries (R352, R355). -/
def flitMsgs (bytes : List Byte) : List Msg :=
  msgsOfSlots (bits (flitHead bytes) 28 27) ((bytes.drop 8).take (80 * bits (flitHead bytes) 28 27))

/-- A link that has asked for a flit again, in an idle flit of its own (R353, R354). -/
def PeerLink.asking (p : PeerLink) : PeerLink :=
  { p with wire := p.wire ++ [{ seq := p.nextSeq, through := p.expected - 1, nak := true, kind := 1, msgs := [] }]
           sendNak := false }

/-- The link has taken the acknowledgement and the nak of a header (R353, R354). -/
def PeerLink.heard (p : PeerLink) (h : Word) : PeerLink :=
  let through := BitVec.ofNat 12 (bits h 23 12)
  if bit h 24 then countNak (ackFlits p through) through else { ackFlits p through with naks := 0 }

/-- The link sends again what a nak asks for, and what waits (R353). -/
def PeerLink.resumed (p : PeerLink) (h : Word) : PeerLink :=
  let p := if bit h 24 ∧ p.state = .up then resendFlits p else p
  pumpLink p.waiting.length p

theorem PeerLink.heard_expected (p : PeerLink) (h : Word) : (p.heard h).expected = p.expected := by
  have hack (a : BitVec 12) : (ackFlits p a).expected = p.expected := expected_of_training (ackFlits_training ..)
  unfold PeerLink.heard
  dsimp only
  split
  · rw [countNak_expected, hack]
  · exact hack _

theorem PeerLink.resumed_expected (p : PeerLink) (h : Word) : (p.resumed h).expected = p.expected := by
  refine expected_of_training ?_
  unfold PeerLink.resumed
  dsimp only
  rw [pumpLink_training]
  split
  · exact resendFlits_training p
  · rfl

section
variable {s : State} {link : Nat} {bytes : List Byte}

theorem flitGood_iff {p : PeerLink} : flitGood p bytes = true ↔
    FlitIntact bytes ∧ (flitHead bytes).extractLsb 11 0 = p.expected := by
  have hseq : bits (flitHead bytes) 11 0 = p.expected.toNat ↔ (flitHead bytes).extractLsb 11 0 = p.expected := by
    rw [bits_extract (flitHead bytes) 11 0]
    exact ⟨fun h => BitVec.eq_of_toNat_eq h, fun h => congrArg BitVec.toNat h⟩
  rw [← hseq]
  simp only [flitGood, Bool.and_eq_true, decide_eq_true_eq, FlitIntact, flitHead]

theorem peerFlit_notUp (hu : (s.link link).state ≠ .up) : exec (.peerFlit link bytes) s = .next s :=
  if_pos (.inl hu)

theorem not_flitGood_false {p : PeerLink} (h : flitGood p bytes = true) : ¬(!flitGood p bytes) = true := by
  rw [h]; decide

section
variable (hlink : link < 16) (hup : (s.link link).state = .up)
include hlink hup

/-- The link is up and has a number of R3. -/
theorem peerFlit_runs : ¬((s.link link).state ≠ .up ∨ peerLinks ≤ link) :=
  not_or.2 ⟨not_not.2 hup, not_le.2 hlink⟩

/-- A flit that is discarded is asked for again (R353, R354). -/
theorem peerFlit_discarded (hbad : flitGood (s.link link) bytes = false) :
    exec (.peerFlit link bytes) s = .next (s.setLink link (s.link link).asking) := by
  have hidle : answerLink (s.link link).wire.length { s.link link with sendNak := true } = (s.link link).asking :=
    if_pos ⟨hup, rfl⟩
  rw [← hidle]
  exact (if_neg (peerFlit_runs hlink hup)).trans (if_pos (by rw [hbad]; rfl))

variable (hgood : flitGood (s.link link) bytes = true)
include hgood

/-- The expected flit moves the sequence on, and its messages go to the router (R353, R355). -/
theorem peerFlit_expected (hkind : bits (flitHead bytes) 26 25 = 0) :
    ∃ p : PeerLink, p.expected = (s.link link).expected + 1 ∧ exec (.peerFlit link bytes) s =
      .next ((flitMsgs bytes).foldl (fun s m => routerTake s link m) (s.setLink link p)) := by
  let p := (s.link link).heard (flitHead bytes)
  refine ⟨answerLink (s.link link).wire.length
    (PeerLink.resumed { p with expected := p.expected + 1, sendNak := false } (flitHead bytes)), ?_, ?_⟩
  · rw [expected_of_training (answerLink_training ..), PeerLink.resumed_expected]
    exact congrArg (· + 1) (PeerLink.heard_expected ..)
  · exact (if_neg (peerFlit_runs hlink hup)).trans
      ((if_neg (not_flitGood_false hgood)).trans (if_neg (not_not.2 hkind)))

/-- An idle flit is heard, and takes nothing (R352). -/
theorem peerFlit_idle (hkind : bits (flitHead bytes) 26 25 ≠ 0) :
    ∃ p : PeerLink, p.expected = (s.link link).expected ∧ exec (.peerFlit link bytes) s = .next (s.setLink link p) := by
  refine ⟨PeerLink.resumed { (s.link link).heard (flitHead bytes) with sendNak := false } (flitHead bytes), ?_, ?_⟩
  · rw [PeerLink.resumed_expected]
    exact PeerLink.heard_expected ..
  · exact (if_neg (peerFlit_runs hlink hup)).trans ((if_neg (not_flitGood_false hgood)).trans (if_pos hkind))

end
end

/-! ## Training (R353, R354, R357) -/

section
variable {s : State} {link : Nat} (hlink : link < 16)
include hlink

/-- Lane lock that is lost takes a link to training (R354). -/
theorem linkRetrain_lost (hup : (s.link link).state = .up) :
    exec (.linkRetrain link true false) s = .next (s.setLink link { s.link link with state := .training }) := by
  show execLinkRetrain link true false s = _
  simp [execLinkRetrain, peerLinks, hlink, hup]

theorem linkRetrain_fails (ht : (s.link link).state = .training) (hf : (s.link link).failures < 2) :
    exec (.linkRetrain link false true) s =
      .next (s.setLink link { s.link link with failures := (s.link link).failures + 1 }) := by
  show execLinkRetrain link false true s = _
  simp [execLinkRetrain, peerLinks, hlink, ht, not_le.2 hf]

/-- The third failed training in a row takes the link down, and what it owes is sent by other links (R354, R357). -/
theorem linkRetrain_down (ht : (s.link link).state = .training) (hf : 2 ≤ (s.link link).failures) :
    exec (.linkRetrain link false true) s = .next (resendLink (s.setLink link
      { s.link link with state := .down, failures := 3, retry := [], waiting := [] }) link) := by
  show execLinkRetrain link false true s = _
  simp [execLinkRetrain, peerLinks, hlink, ht, hf]

/-- A link that has trained is up on its lanes (R354). -/
theorem linkTrained_up {lanes : Nat} (expected : BitVec 12) (ht : (s.link link).state = .training)
    (hl : lanes = 8 ∨ lanes = 4 ∨ lanes = 2) :
    ∃ p : PeerLink, p.training =
        { state := .up, lanes := lanes, failures := 0, expected := (s.link link).expected } ∧
      exec (.linkTrained link lanes expected) s = .next (s.setLink link p) := by
  have hgo : ¬((s.link link).state ≠ .training ∨ (!(lanes = 8 || lanes = 4 || lanes = 2)) = true ∨ peerLinks ≤ link) := by
    simp [ht, peerLinks, hlink]; omega
  refine ⟨_, ?_, if_neg hgo⟩
  rw [pumpLink_training, resendFlits_training]
  rfl

end

/-- A flit between dies is delivered within its class, or asked for again (R293). -/
theorem dieLinkFlit_delivers {s : State} {link : Nat} (hlink : link < 10) (f : DieFlit) :
    ∃ s', exec (.dieLinkFlit link f) s = .next s' ∧ s'.mem = s.mem ∧ s'.threads = s.threads ∧
      ∀ l, tget s.fabric.dieLinks link = some l → tget s'.fabric.dieLinks link = some
        (if f.bytes.length = 256 ∧ crc32c (f.bytes.take 252) = leNat (f.bytes.drop 252) then
          { l with delivered := tset l.delivered f.cls (tgetD l.delivered f.cls 0 + 1), retry := nsDel l.retry f.cls }
         else { l with retry := nsAdd l.retry f.cls, retries := l.retries + 1 }) := by
  refine ⟨_, if_neg (not_le.2 hlink), rfl, rfl, fun l hl => ?_⟩
  simp only [tmod, tget_tset_same, tgetD, hl, Option.getD_some]

/-! ## Slots (R355) -/

/-- Two slots hold two messages, or one that goes on (R355, log 10). -/
theorem msgsOfSlots_two (b : List Byte) : msgsOfSlots 2 b =
    if (msgOfSlot b).goesOn then [{ msgOfSlot b with payload := (msgOfSlot b).payload ++ (b.drop 96).take 16 }]
    else [msgOfSlot b, msgOfSlot (b.drop 80)] := rfl

/-- Settles O21: a flit by its checks, a training by its outcome, and the messages of a flit by induction over them. -/
theorem linksDeliverFlitsInOrder : Obligations.LinksDeliverFlitsInOrder := by
  unfold Obligations.LinksDeliverFlitsInOrder
  intro s link bytes hlink p h
  have hkind : bits (flitHead bytes) 26 25 = 0 ↔ h.extractLsb 26 25 = 0 := bits_zero (flitHead bytes) 26 25
  have hcount : bits (flitHead bytes) 28 27 = (h.extractLsb 28 27).toNat := bits_extract (flitHead bytes) 28 27
  refine ⟨fun hup hbad => peerFlit_discarded hlink hup ?crc,
    fun hup hlen hcrc => ⟨fun hseq hk => ?expected, fun hseq hk => ?idle, fun hseq => peerFlit_discarded hlink hup ?seq⟩,
    fun m b => ⟨rfl, fun hg => ?two, fun hm hg => ?goesOn⟩, peerFlit_notUp, linkRetrain_lost hlink, linkRetrain_fails hlink,
    fun ht hf => ⟨_, linkRetrain_down hlink ht hf, ?down⟩, fun lanes expected ht hl => ?trained,
    fun cls hdie => dieLinkFlit_delivers hdie { cls := cls, bytes := bytes }⟩
  case crc =>
    refine Bool.eq_false_iff.2 fun hgood => ?_
    obtain ⟨⟨hlen, hcrc⟩, -⟩ := flitGood_iff.1 hgood
    exact hbad.elim (· hlen) (· hcrc)
  case seq =>
    exact Bool.eq_false_iff.2 fun hgood => hseq (flitGood_iff.1 hgood).2
  case expected =>
    have hgood : flitGood p bytes = true := flitGood_iff.2 ⟨⟨hlen, hcrc⟩, hseq⟩
    obtain ⟨q, hq, hexec⟩ := peerFlit_expected hlink hup hgood (hkind.2 hk)
    have hms : flitMsgs bytes = msgsOfSlots (h.extractLsb 28 27).toNat ((bytes.drop 8).take (80 * (h.extractLsb 28 27).toNat)) := by
      rw [flitMsgs, hcount]
    intro n ms own
    rw [hms] at hexec
    refine ⟨_, hexec, ?_, ?_, ?_, fun htypes => ⟨foldl_routerTake_transit htypes, foldl_routerTake_inbox (s := s.setLink link q) htypes⟩⟩
    · rw [foldl_routerTake_keeps (fun s => s.link link) fun s l m => by rw [routerTake_frame]; rfl, link_setLink, if_pos rfl]
      exact hq
    · exact foldl_routerTake_keeps State.mem (fun s l m => by rw [routerTake_frame]) ..
    · exact foldl_routerTake_keeps State.threads (fun s l m => by rw [routerTake_frame]) ..
  case idle =>
    obtain ⟨q, hq, hexec⟩ := peerFlit_idle hlink hup (flitGood_iff.2 ⟨⟨hlen, hcrc⟩, hseq⟩) (mt hkind.1 hk)
    refine ⟨_, hexec, ?_, rfl, rfl, rfl⟩
    rw [link_setLink, if_pos rfl]
    exact hq
  case two =>
    rw [msgsOfSlots_two, if_neg (ne_true_of_eq_false hg)]
  case goesOn =>
    rw [msgsOfSlots_two, ← hm, if_pos hg]
  case down =>
    have htraining := resendLink_keeps (fun s => (s.link link).training) (fun s m => emitMsg_training s m link)
      (s.setLink link { p with state := .down, failures := 3, retry := [], waiting := [] }) link
    rw [link_setLink, if_pos rfl] at htraining
    exact ⟨congrArg Training.state htraining, congrArg Training.failures htraining,
      resendLink_keeps State.mem emitMsg_mem _ _, resendLink_keeps State.threads emitMsg_threads _ _,
      fun chip => resendLink_keeps (fun s => (s.dest chip).replay) (fun s m => emitMsg_replay s m chip) _ _⟩
  case trained =>
    obtain ⟨q, hq, hexec⟩ := linkTrained_up hlink expected ht hl
    refine ⟨_, hexec, ?_⟩
    rw [link_setLink, if_pos rfl]
    exact ⟨congrArg Training.state hq, congrArg Training.lanes hq, congrArg Training.failures hq, rfl⟩

end Sys2Proof.Machine
end

section
/-! PROOFS. Launches as threads and system software ask for them (R268, R269, R272 to R274, R276, R313, R334, R338): LAUNCH, LWAIT,
INJECT and MARK, admission, and the commands of pre-emption. -/

namespace Sys2Proof.Machine

open Sys2Proof

/-! ## The record and the queue of a launch (R143, R268, R274) -/

theorem markLaunch_of_launch {s : State} {cl h : Nat} {v : Launch} (hv : s.launch? cl h = some v) :
    markLaunch s cl h = s.setLaunch cl h { v with marks := v.marks + 1 } := by
  simp only [markLaunch, hv]

/-- A marker that is due changes one launch alone (R274). -/
theorem markLaunch_frame (s : State) (cl h : Nat) :
    markLaunch s cl h = { s with clusters := (markLaunch s cl h).clusters } := by
  unfold markLaunch
  split <;> rfl

theorem markLaunch_launch {s : State} {cl h : Nat} {v : Launch} (hv : s.launch? cl h = some v) :
    (markLaunch s cl h).launch? cl h = some { v with marks := v.marks + 1 } := by
  rw [markLaunch_of_launch hv, State.launch_setLaunch_same]

@[simp] theorem setLaunch_queues (s : State) (cl h n : Nat) (v : Launch) :
    ((s.setLaunch cl h v).cluster n).queues = (s.cluster n).queues := by
  rw [State.setLaunch, State.cluster_modCluster]
  split
  next hn => rw [hn]
  next => rfl

/-- Completed reports stand in the launch and its context: no queue changes (R143). -/
@[simp] theorem completeReports_queues (s : State) (cl h n : Nat) :
    ((completeReports s cl h).cluster n).queues = (s.cluster n).queues := by
  unfold completeReports
  split
  · rw [State.cluster_modCtx, setLaunch_queues]
  · rfl

/-- A launch whose record is set and which joins a queue of its cluster at a place that f gives (R268, R276). -/
def queueLaunch (s : State) (cl h : Nat) (v : Launch) (f : List Nat → List Nat) : State :=
  (s.setLaunch cl h v).modCluster cl fun c => { c with queues := tmod c.queues v.queue [] f }

theorem queueLaunch_launch (s : State) (cl h : Nat) (v : Launch) (f : List Nat → List Nat) :
    (queueLaunch s cl h v f).launch? cl h = some v := by
  rw [State.launch?, queueLaunch, State.cluster_modCluster_same]
  exact State.launch_setLaunch_same ..

theorem queueLaunch_queue (s : State) (cl h : Nat) (v : Launch) (f : List Nat → List Nat) :
    tgetD ((queueLaunch s cl h v f).cluster cl).queues v.queue [] = f (tgetD (s.cluster cl).queues v.queue []) := by
  rw [queueLaunch, State.cluster_modCluster_same, tmod, tgetD_tset_same, setLaunch_queues]

/-! ## LAUNCH (R268, R270, R338) -/

theorem exec_launch (wave : Bool) (a b : GReg) (s : State) : exec (.launch wave a b) s = execLaunch wave a b s := by rfl

theorem exec_lwait (a : GReg) (s : State) : exec (.lwait a) s = execLwait a s := by rfl

theorem exec_inject (a b : GReg) (s : State) : exec (.inject a b) s = execInject a b s := by rfl

theorem exec_mark (a : GReg) (s : State) : exec (.mark a) s = execMark a s := by rfl

/-- A handle that LAUNCH refuses: in another state, without a solution, or with a launch that has not ended (R270). -/
def LaunchRefused (s : State) (cl h : Nat) (x : Handle) : Prop :=
  (x.state ≠ .loaded ∧ x.state ≠ .active) ∨ x.solution.isNone = true ∨ launchLive s cl h = true

section
variable {s : State} {t : Thread} {wave : Bool} {a b : GReg} {h : Nat} {x : Handle} (ht : Issues s t)
  (hg : graphOf s t (readG t a) = some (h, x))
include ht hg

theorem launch_refused (hr : LaunchRefused s (t.lcore / 128) h x) (hn : t.inTrap = false) :
    Traps s t (.launch wave a b) .handle (readG t a) :=
  traps_of_perform (exec_launch ..) ht hn (by simp only [hg]; exact if_pos hr)

section
variable (hr : ¬LaunchRefused s (t.lcore / 128) h x) (ho : launchOperand (readG t b) = true)
include hr ho

/-- LAUNCH is a release: it waits for the thread's stores (R338). -/
theorem launch_undrained (hs : hasStores s (s.coreOf t) s.cur = true) : Waits s (.launch wave a b) s .storeBuffer := by
  refine waits_of_perform (exec_launch ..) ht ?_
  simp only [hg, ho, drained_wait hs]
  exact if_neg hr

/-- The launch stands at the tail of its queue (R268). -/
theorem launch_queues (hs : hasStores s (s.coreOf t) s.cur = false) (hk : badKey s h x t.k = false) :
    Completes s (.launch wave a b)
      (queueLaunch (completeReports s (t.lcore / 128) h) (t.lcore / 128) h
        (Launch.start (completeReports s (t.lcore / 128) h) t wave (readG t b)) (· ++ [h])) id (t.pc + 4) := by
  refine completes_of_effect (exec_launch ..) ht ?_
  simp only [hg, ho, drained_ok hs, hk]
  exact if_neg hr

end

/-! ## LWAIT (R272) -/

section
variable {v : Launch} (hv : s.launch? (t.lcore / 128) h = some v)
include hv

theorem lwait_ended (he : v.state = .ended) :
    Completes s (.lwait a) (acquireFor (foldLaunch s (t.lcore / 128) h) t) id (t.pc + 4) :=
  completes_of_effect (exec_lwait ..) ht (by simp only [hg, hv]; exact if_neg (not_not.2 he))

theorem lwait_waits (he : v.state ≠ .ended) : Waits s (.lwait a) s (.launchEnd h) :=
  waits_of_perform (exec_lwait ..) ht (by simp only [hg, hv]; exact if_pos he)

end

/-! ## INJECT and MARK (R273, R274, R338) -/

section
variable (hr : launchRuns s (t.lcore / 128) h = false) (hn : t.inTrap = false)
include hr hn

theorem mark_refused : Traps s t (.mark a) .handle (readG t a) :=
  traps_of_perform (exec_mark ..) ht hn (by simp only [hg, hr]; rfl)

theorem inject_refused : Traps s t (.inject a b) .handle (readG t a) :=
  traps_of_perform (exec_inject ..) ht hn (by simp only [hg, hr]; rfl)

end

variable (hr : launchRuns s (t.lcore / 128) h = true)
include hr

theorem mark_completes : Completes s (.mark a) (markLaunch s (t.lcore / 128) h) id (t.pc + 4) :=
  completes_of_effect (exec_mark ..) ht (by simp only [hg, hr]; rfl)

/-- INJECT is a release: it waits for the thread's stores (R338). -/
theorem inject_undrained (hs : hasStores s (s.coreOf t) s.cur = true) : Waits s (.inject a b) s .storeBuffer :=
  waits_of_perform (exec_inject ..) ht (by simp only [hg, hr, drained_wait hs]; rfl)

section
variable {bytes : List Byte} {s1 : State} {k : Tok} {i : Nat} {l : TileLoc} (hs : hasStores s (s.coreOf t) s.cur = false)
  (hb : injectBytes s t (readG t b) = .ok (bytes, s1)) (hk : injectRecord bytes = some (k, i))
  (hl : sourceAt s1 h x i = some l)
include hs hb hk hl

theorem inject_pushes (ho : sourceOpen s1 h l = true) :
    Completes s (.inject a b) (pushSource s1 l k) id (t.pc + 4) :=
  completes_of_effect (exec_inject ..) ht (by simp only [hg, hr, drained_ok hs, hb, hk, hl, ho]; rfl)

theorem inject_waits (ho : sourceOpen s1 h l = false) : Waits s (.inject a b) s1 (.inject h) :=
  waits_of_perform (exec_inject ..) ht (by simp only [hg, hr, drained_ok hs, hb, hk, hl, ho]; rfl)

end
end

/-- Settles O41: each instruction along its chain of checks and waits, and the queue that LAUNCH leaves. -/
theorem launchesAreQueuedAwaitedFedAndMarked : Obligations.LaunchesAreQueuedAwaitedFedAndMarked := by
  unfold Obligations.LaunchesAreQueuedAwaitedFedAndMarked
  intro s t wave a b h x ht ga gb cl settled hg
  have hstores (hs : ¬settled) : hasStores s (s.coreOf t) s.cur = true := eq_true_of_ne_false hs
  have hgo (hx : x.state = .loaded ∨ x.state = .active) (hsol : x.solution ≠ none) (hlive : launchLive s cl h = false) :
      ¬LaunchRefused s cl h x := by
    rintro (⟨hloaded, hactive⟩ | hnone | hl)
    · exact hx.elim hloaded hactive
    · exact hsol (Option.isNone_iff_eq_none.1 hnone)
    · exact absurd (hlive.symm.trans hl) (by decide)
  refine ⟨fun hx hsol hlive ho hs hk => ⟨launch_queues ht hg (hgo hx hsol hlive) ho hs hk, ?record, ?queue⟩,
    fun hx hsol hlive ho hs => launch_undrained ht hg (hgo hx hsol hlive) ho (hstores hs),
    fun hr hs => inject_undrained ht hg hr (hstores hs), fun href hn => launch_refused ht hg ?refused hn,
    fun v hv => ⟨lwait_ended ht hg hv, lwait_waits ht hg hv⟩,
    fun hr => ⟨⟨mark_completes ht hg hr, fun v => markLaunch_launch⟩, fun bytes s1 k i l hs hb hk hl =>
      ⟨inject_pushes ht hg hr hs hb hk hl, inject_waits ht hg hr hs hb hk hl⟩⟩,
    fun hr hn => ⟨mark_refused ht hg hr hn, inject_refused ht hg hr hn⟩⟩
  case record => exact congrArg (Option.map Launch.state) (queueLaunch_launch ..)
  case queue => exact (queueLaunch_queue ..).trans (by rw [completeReports_queues])
  case refused => exact href.imp_right (Or.imp_left Option.isNone_iff_eq_none.2)

/-! ## Admission (R268, R269) -/

theorem drr_nil (n : Nat) (d : Tbl Int) : drr n [] d = (none, d) := by
  induction n with
  | zero => rfl
  | succ n ih => exact ih

/-- The queues whose head is admissible, in the order in which the arbiter visits them (R268, R269). -/
def visited (s : State) (cl : Nat) : List (Nat × Nat) := afterQueue (s.cluster cl).lastQueue (candidates s cl)

section
variable {s : State} {cl : Nat}

/-- The arbiter serves the queue that deficit round robin takes (R269). -/
theorem launchAdmission_admits {q h : Nat} {ds : Tbl Int}
    (hd : drr 65536 (visited s cl) (s.cluster cl).deficits = (some (q, h), ds)) :
    exec (.launchAdmission cl) s = .next (admitHead (s.modCluster cl fun c => { c with deficits := ds }) cl q h) := by
  have hvisit : (if visited s cl = [] then [] else visited s cl) = visited s cl := by split <;> simp [*]
  show execLaunchAdmission cl s = _
  rw [← hvisit] at hd
  simp only [execLaunchAdmission]
  rw [visited] at hd
  simp only [hd]

/-- Without a head that can be admitted, nothing is (R268). -/
theorem launchAdmission_idle (hc : candidates s cl = []) :
    exec (.launchAdmission cl) s = .next (s.modCluster cl fun c => { c with deficits := (s.cluster cl).deficits }) := by
  have hvisit : afterQueue (s.cluster cl).lastQueue (candidates s cl) = [] := by rw [hc]; rfl
  show execLaunchAdmission cl s = _
  simp only [execLaunchAdmission, hvisit, if_true, drr_nil]

end

/-! ## Pre-emption commands (R276, R334) -/

theorem namedLaunch_launch {s : State} {w : Word} {cl h : Nat} {x : Launch} (hn : namedLaunch s w = some (cl, h, x)) :
    s.launch? cl h = some x := by
  simp only [namedLaunch] at hn
  split at hn
  · rw [Option.map_eq_some_iff] at hn
    obtain ⟨v, hv, heq⟩ := hn
    cases heq
    exact hv
  · cases hn

section
variable {s : State} {w : Word}

theorem preempt_busy (hb : s.mgmt.preBusy = true) : exec (.preempt w) s = .next s := if_pos hb

theorem resume_busy (hb : s.mgmt.preBusy = true) : exec (.resume w) s = .next s := if_pos hb

variable {cl h : Nat} {x : Launch} (hb : s.mgmt.preBusy = false) (hw : namedLaunch s w = some (cl, h, x))
include hb hw

/-- A running launch gets a marker, after which its sources stop (R276). -/
theorem preempt_marks (hr : launchRuns s cl h = true) : exec (.preempt w) s =
    .next ((markLaunch { s with mgmt := { s.mgmt with preBusy := true, preRefused := false } } cl h).setLaunch cl h
      { x with marks := x.marks + 1, preempting := true }) := by
  have hmarked : (markLaunch { s with mgmt := { s.mgmt with preBusy := true, preRefused := false } } cl h).launch? cl h =
      some { x with marks := x.marks + 1 } := markLaunch_launch (namedLaunch_launch hw)
  show execPreempt w s = _
  simp only [execPreempt, hb, hw, hr, hmarked]
  rfl

theorem preempt_refused (hr : launchRuns s cl h = false) : exec (.preempt w) s = .next (endCommand s true) := by
  show execPreempt w s = _
  simp only [execPreempt, hb, hw, hr]
  rfl

/-- A suspended launch stands at the head of its queue (R276). -/
theorem resume_requeues (hx : x.state = .suspended) : exec (.resume w) s =
    .next (endCommand (queueLaunch s cl h { x with state := .queued, resumed := true } (h :: ·)) false) := by
  show execResume w s = _
  simp only [execResume, hb, hw, hx]
  rfl

theorem resume_refused (hx : x.state ≠ .suspended) : exec (.resume w) s = .next (endCommand s true) := by
  show execResume w s = _
  simp only [execResume, hb, hw, if_pos hx]
  rfl

end

/-- Settles O43: admission by what deficit round robin gives, PREEMPT and RESUME by the launch that they name. -/
theorem admissionPreemptionAndResumption : Obligations.AdmissionPreemptionAndResumption := by
  unfold Obligations.AdmissionPreemptionAndResumption
  intro s
  refine ⟨fun cl q h ds hd => launchAdmission_admits hd, fun cl hc => ⟨_, launchAdmission_idle hc, rfl, rfl, rfl, ?idle⟩,
    fun w cl h x hb hw => ⟨fun hr v hv => ?marked, preempt_refused hb hw, fun hx => ?requeued, resume_refused hb hw⟩,
    fun w hb => ⟨preempt_busy hb, resume_busy hb⟩, fun w => ?fault⟩
  case idle => rw [State.cluster_modCluster_same]
  case marked =>
    obtain rfl : x = v := Option.some.inj ((namedLaunch_launch hw).symm.trans hv)
    refine ⟨_, preempt_marks hb hw hr, State.launch_setLaunch_same .., ?_, ?_⟩ <;> rw [markLaunch_frame] <;> rfl
  case requeued =>
    exact ⟨_, resume_requeues hb hw hx, queueLaunch_launch .., queueLaunch_queue s cl h { x with state := .queued, resumed := true } _, rfl⟩
  case fault =>
    show execFqresume w s = _
    rw [execFqresume, bits_extract w 15 0]

end Sys2Proof.Machine
end

section
/-! PROOFS. Copies (R276 to R280, R290, R338, R363): what COPY and CPWAIT do, and the steps of the copy engine. -/

namespace Sys2Proof.Machine

open Sys2Proof

/-! ## COPY (R277 to R279, R338) -/

theorem exec_copy (d a : GReg) (s : State) : exec (.copy d a) s = execCopy d a s := by rfl

theorem exec_cpwait (a : GReg) (s : State) : exec (.cpwait a) s = execCpwait a s := by rfl

/-- The 64-byte accesses of a descriptor, by the number of dimensions that its first word names (R277). -/
def descAccesses (b : List Byte) : Nat := (48 + 16 * Nat.min 10 (bits (w64 (field b 0 8)) 11 8) + 63) / 64

/-- The copy that a thread's descriptor asks for, as COPY reads and accepts it (R277 to R279). -/
structure CopyAsked (s : State) (t : Thread) (ga : Word) (s3 : State) (c : Copy) : Prop where
  owned : (formOwned s3 (t.lcore / 128) t.ctx c.src && formOwned s3 (t.lcore / 128) t.ctx c.dst &&
    formOwned s3 (t.lcore / 128) t.ctx c.barrier) = true
  read : ∃ loc s1 b1 s2 b2, located s t ga 64 .read = .ok (loc, s1) ∧ hasStores s1 (s1.coreOf t) s1.cur = false ∧
    descBytes t ga 1 s1 = .ok (b1, s2) ∧ descBytes t ga (descAccesses b1) s2 = .ok (b2, s3) ∧ copyFields t s3.cur b2 = some c

/-- A copy stands under a number of its cluster (R278). -/
def copyStarted (s : State) (cl n : Nat) (c : Copy) (zero : Bool) : State :=
  s.modCluster cl fun k => { k with copies := tset k.copies n { c with toZero := zero } }

/-- The open choice that a copy takes where two rules read its destination differently (log 81). -/
def copyChoice (s : State) (c : Copy) : Nat × State := if namesZero s c then s.choose else (0, s)

/-- A copy's number is free, and its next handle has a new generation (R123, R279). -/
def copyFreed (s : State) (cl n : Nat) : State :=
  s.modCluster cl fun k =>
    { k with copies := tdel k.copies n, copyGens := tset k.copyGens n (nextGen (tgetD k.copyGens n 1)) }

section
variable {s : State} {t : Thread} {d a : GReg} (ht : Issues s t)
include ht

/-- COPY is a release: it waits for the thread's stores (R338). -/
theorem copy_undrained {loc : Loc} {s1 : State} (hl : located s t (readG t a) 64 .read = .ok (loc, s1))
    (hs : hasStores s1 (s1.coreOf t) s1.cur = true) : Waits s (.copy d a) s1 .storeBuffer :=
  waits_of_perform (exec_copy ..) ht (by simp only [hl, drained_wait hs])

section
variable {s3 : State} {c : Copy} (hc : CopyAsked s t (readG t a) s3 c)
include hc

/-- Without a free number COPY gives 0 (R278). -/
theorem copy_full (hn : 4096 ≤ freeKey 0 (s3.cluster (t.lcore / 128)).copies) :
    Completes s (.copy d a) s3 (fun r => writeG r d 0) (t.pc + 4) := by
  obtain ⟨hown, loc, s1, b1, s2, b2, hl, hs, hb1, hb2, hf⟩ := hc
  rw [descAccesses] at hb2
  refine completes_of_effect (exec_copy ..) ht ?_
  simp only [hl, drained_ok hs, hb1, hb2, hf, hown, if_pos hn]
  rfl

variable (hn : freeKey 0 (s3.cluster (t.lcore / 128)).copies < 4096)
include hn

/-- A copy takes the lowest free number (R278). -/
theorem copy_starts :
    Completes s (.copy d a)
      (copyStarted (copyChoice s3 c).2 (t.lcore / 128) (freeKey 0 (s3.cluster (t.lcore / 128)).copies) c
        ((copyChoice s3 c).1 % 2 = 1))
      (fun r => writeG r d (copyWord s3 (t.lcore / 128) (freeKey 0 (s3.cluster (t.lcore / 128)).copies))) (t.pc + 4) := by
  obtain ⟨hown, loc, s1, b1, s2, b2, hl, hs, hb1, hb2, hf⟩ := hc
  rw [descAccesses] at hb2
  refine completes_of_effect (exec_copy ..) ht ?_
  simp only [hl, drained_ok hs, hb1, hb2, hf, hown, if_neg (not_le.2 hn)]
  rfl

end

/-! ## CPWAIT (R279) -/

theorem cpwait_unnamed (hc : copyOf s t (readG t a) = none) (hn : t.inTrap = false) :
    Traps s t (.cpwait a) .handle (readG t a) :=
  traps_of_perform (exec_cpwait ..) ht hn (by simp only [hc, trapWith])

section
variable {n : Nat} {c : Copy} (hc : copyOf s t (readG t a) = some (n, c))
include hc

theorem cpwait_waits (hd : c.done = false) : Waits s (.cpwait a) s (.copyDone n) :=
  waits_of_perform (exec_cpwait ..) ht (by simp only [hc, hd]; rfl)

/-- The number of a copy that is done is free again (R279). -/
theorem cpwait_frees (hd : c.done = true) :
    ∃ s1, Completes s (.cpwait a) s1 id (t.pc + 4) ∧ tget (s1.cluster (t.lcore / 128)).copies n = none ∧ s1.mem = s.mem := by
  refine ⟨acquireFor (copyFreed s (t.lcore / 128) n) t,
    completes_of_effect (exec_cpwait ..) ht (by simp only [hc, hd]; rfl), ?_, rfl⟩
  rw [acquireFor, acquire, State.cluster_modCore, copyFreed, State.cluster_modCluster_same, tget_tdel, if_pos rfl]

end
end

/-! ## The engine's steps (R278, R280, R363) -/

/-- Waking the threads that wait for a copy changes no cluster. -/
@[simp] theorem wakeCopies_cluster (s : State) (cl : Nat) : (wakeCopies s).cluster cl = s.cluster cl := by
  rw [wakeCopies, wakeWhere_frame]
  rfl

@[simp] theorem wakeCopies_mem (s : State) : (wakeCopies s).mem = s.mem := by
  rw [wakeCopies, wakeWhere_frame]

/-- The engine has no step for a copy: it is done, suspended, or held at a core (R278, R285). -/
def CopyStill (s : State) (cl n : Nat) (c : Copy) : Prop := c.done = true ∨ c.suspended.isSome = true ∨ heldFor s cl n = true

/-- The runs of a resolved tile that go to a peer (R363). -/
def tileRuns (s : State) (c : Copy) (ms : List Move1) : List (Word × List Nat) :=
  peerRuns (copyWidth c.ty) (peerElems s c ms)

section
variable {s : State} {cl n : Nat} {c : Copy} (hc : tget (s.cluster cl).copies n = some c)
include hc

theorem copyTile_still (hs : CopyStill s cl n c) : exec (.copyTile cl n) s = .next s := by
  show execCopyTile cl n s = _
  simp only [execCopyTile, hc]
  exact if_pos hs

variable (hs : ¬CopyStill s cl n c)
include hs

section
variable (hp : copyTiles c ≤ c.next)
include hp

/-- Past its last tile a copy is done when its messages are acknowledged (R278). -/
theorem copyTile_done (hu : c.unacked = []) : ∃ s', exec (.copyTile cl n) s = .next s' ∧
    tget (s'.cluster cl).copies n = some { c with done := true } ∧ s'.mem = s.mem := by
  have hexec : exec (.copyTile cl n) s = .next (wakeCopies (modCopy s cl n fun c => { c with done := true })) := by
    show execCopyTile cl n s = _
    simp only [execCopyTile, hc]
    exact (if_neg hs).trans (by rw [if_pos hp, if_pos hu])
  refine ⟨_, hexec, ?_, ?_⟩
  · simp only [wakeCopies_cluster, modCopy, hc, State.cluster_modCluster_same, tget_tset_same]
  · simp only [wakeCopies_mem, modCopy, hc, State.modCluster_mem]

theorem copyTile_unacked (hu : c.unacked ≠ []) : exec (.copyTile cl n) s = .next s := by
  show execCopyTile cl n s = _
  simp only [execCopyTile, hc]
  exact (if_neg hs).trans (by rw [if_pos hp, if_neg hu])

end

variable (hp : c.next < copyTiles c)
include hp

/-- A translation that fails suspends the copy (R278). -/
theorem copyTile_suspends {p : Word} {r : WalkResult} {acc : Access}
    (hm : copyMoves cl c (tileElems (sourceDims c)) 0 s = .error (p, r, acc)) :
    exec (.copyTile cl n) s = .next (suspendCopy s cl n c p r acc) := by
  show execCopyTile cl n s = _
  simp only [execCopyTile, hc, hm]
  exact (if_neg hs).trans (if_neg (not_le.2 hp))

variable {ms : List Move1} {s1 : State} (hm : copyMoves cl c (tileElems (sourceDims c)) 0 s = .ok (ms, s1))
include hm

/-- A tile that is translated: its runs to a peer first, then the tile (R278, R363). -/
theorem copyTile_moves : exec (.copyTile cl n) s =
    if tileRuns s1 c ms = [] then .next (performTile s1 cl n c ms)
    else match (tileRuns s1 c ms)[c.sent]? with
      | some run => .next (sendRun (if (ms.any fun m => (moveValue s1 c m).2) then noteConsumed s1 c.ctx else s1) cl n c run)
      | none => .next (if c.unacked = [] then performTile s1 cl n c ms else s1) := by
  show execCopyTile cl n s = _
  simp only [execCopyTile, hc, hm]
  exact (if_neg hs).trans (if_neg (not_le.2 hp))

theorem copyTile_performs (hr : tileRuns s1 c ms = [] ∨ (tileRuns s1 c ms)[c.sent]? = none ∧ c.unacked = []) :
    exec (.copyTile cl n) s = .next (performTile s1 cl n c ms) := by
  rw [copyTile_moves hc hs hp hm]
  split
  · rfl
  next hne =>
    obtain ⟨hnone, hu⟩ := hr.resolve_left hne
    rw [hnone, if_pos hu]

/-- The tile waits for what was sent of it to be acknowledged (R363). -/
theorem copyTile_awaits (hr : tileRuns s1 c ms ≠ []) (hnone : (tileRuns s1 c ms)[c.sent]? = none) (hu : c.unacked ≠ []) :
    exec (.copyTile cl n) s = .next s1 := by
  rw [copyTile_moves hc hs hp hm, if_neg hr, hnone, if_neg hu]

theorem copyTile_sends {run : Word × List Nat} (hr : (tileRuns s1 c ms)[c.sent]? = some run) :
    exec (.copyTile cl n) s =
      .next (sendRun (if (ms.any fun m => (moveValue s1 c m).2) then noteConsumed s1 c.ctx else s1) cl n c run) := by
  have hne : tileRuns s1 c ms ≠ [] := fun h => by rw [h] at hr; cases hr
  rw [copyTile_moves hc hs hp hm, if_neg hne, hr]

end

/-! ## What is held at a core (R285, R290) -/

section
variable {s : State} {core : Nat}

theorem copyForward_idle (hh : (s.core core).held.find? (heldReady s) = none) : exec (.copyForward core) s = .next s := by
  show execCopyForward core s = _
  simp only [execCopyForward, hh]

/-- The state without a write or an arrival that was held at a core (R290). -/
def heldOut (s : State) (core : Nat) (h : HeldWrite) : State := s.modCore core fun k => { k with held := k.held.erase h }

variable {h : HeldWrite} (hh : (s.core core).held.find? (heldReady s) = some h)
include hh

theorem copyForward_arrives {bytes : Nat} (ha : h.arrival = some bytes) :
    exec (.copyForward core) s = .next (barrierArrive (heldOut s core h) (s.phys h.lcore) h.addr bytes) := by
  show execCopyForward core s = _
  simp only [execCopyForward, hh, ha]
  rfl

theorem copyForward_writes (ha : h.arrival = none) :
    exec (.copyForward core) s = .next (putPot (h.copy / 4096) (heldOut s core h) h) := by
  show execCopyForward core s = _
  simp only [execCopyForward, hh, ha]
  rfl

end

/-- Settles O44: COPY and CPWAIT by their checks, and each step of the engine by what the copy's record and its tile say. -/
theorem copiesAreStartedAwaitedAndForwarded : Obligations.CopiesAreStartedAwaitedAndForwarded := by
  unfold Obligations.CopiesAreStartedAwaitedAndForwarded
  intro s t d a ht ga cl
  have hruns {n : Nat} {c : Copy} (hd : c.done = false) (hsus : c.suspended = none) (hheld : heldFor s cl n = false) :
      ¬CopyStill s cl n c := by
    simp [CopyStill, hd, hsus, hheld]
  refine ⟨fun loc s1 hl hs => copy_undrained ht hl hs, fun loc s1 b1 s2 b2 s3 c hl hs hb1 hb2 hf hown => ?starts,
    fun n c hc => ⟨cpwait_waits ht hc, cpwait_frees ht hc⟩, cpwait_unnamed ht,
    fun n c hc hd hsus hheld hp hu => copyTile_done hc (hruns hd hsus hheld) hp hu, fun n c hc => ⟨fun hstill => ?still, ?steps⟩,
    fun core => copyForward_idle, fun core h hh => ⟨fun bytes => copyForward_arrives hh, copyForward_writes hh⟩⟩
  case starts =>
    have hasked : CopyAsked s t ga s3 c := ⟨hown, loc, s1, b1, s2, b2, hl, hs, hb1, hb2, hf⟩
    have hstarts := copy_starts (d := d) ht hasked
    refine ⟨fun hn hz => ?_, fun hn hz => ?_, copy_full ht hasked⟩
    · rw [copyChoice, if_neg (ne_true_of_eq_false hz)] at hstarts
      exact hstarts hn
    · rw [copyChoice, if_pos hz] at hstarts
      exact hstarts hn
  case still =>
    exact copyTile_still hc (hstill.imp_right (Or.imp_left Option.isSome_iff_ne_none.2))
  case steps =>
    intro hd hsus hheld
    have hrun := hruns hd hsus hheld
    exact ⟨copyTile_unacked hc hrun, fun p r acc hp hm => copyTile_suspends hc hrun hp hm, fun ms s1 hp hm =>
      ⟨copyTile_performs hc hrun hp hm, copyTile_awaits hc hrun hp hm, fun run => copyTile_sends hc hrun hp hm⟩⟩

end Sys2Proof.Machine
end

section
/-! PROOFS. The host's side (R301, R319 to R325, R334): rings and attachments, tokens in and out of a window, the aperture and the
other regions, vectors, and management registers. -/

namespace Sys2Proof.Machine

open Sys2Proof

/-! ## Windows as they are written -/

@[simp] theorem window_setWindow_same (s : State) (e : Bool) (win : Nat) (w : Window) :
    (s.setWindow e win w).window e win = w := by
  cases e <;> exact tgetD_tset_same ..

@[simp] theorem setWindow_mem (s : State) (e : Bool) (win : Nat) (w : Window) : (s.setWindow e win w).mem = s.mem := by
  cases e <;> rfl

/-- A field from bit 0 on is the word cut to it. -/
theorem w64_bits_zero (v : Word) (n : Nat) : w64 (bits v n 0) = (v.setWidth (n + 1)).setWidth 64 := by
  apply BitVec.eq_of_toNat_eq
  simp [w64, bits]

theorem regionsOpen_physical {s : State} {fn : Nat} (hfn : fn < 32) (hp : fn % 16 = 0) (hr : bit s.mgmt.ready 0 = true) :
    regionsOpen s fn = true := by
  simp [regionsOpen, isPhysical, hfn, hp, hr]

/-- Before the ready flag, and for a virtual function that serves no context, the regions are closed (R301, R320). -/
theorem regionsOpen_closed {s : State} {fn : Nat} (h : bit s.mgmt.ready 0 = false ∨ fn % 16 ≠ 0 ∧ vfContext s fn = none) :
    regionsOpen s fn = false := by
  obtain hr | ⟨hp, hv⟩ := h
  · simp [regionsOpen, hr]
  · simp [regionsOpen, isPhysical, hp, hv]

section
variable {s : State} {win : Nat}

/-! ## Indices of a ring (R321, R323) -/

section
variable (ho : windowOpen s win = true)
include ho

/-- The write of a window that is open is taken. -/
theorem window_taken : ¬(!windowOpen s win) = true := by rw [ho]; decide

/-- A tail that lies beyond the ring, or lowers the published count, is ignored and flagged (R323). -/
theorem ingressTailWrite_flags {v : Word} (hv : 767 < v.toNat ∨
      ringCount (s.window false win).head v.toNat < ringCount (s.window false win).head (s.window false win).tail) :
    exec (.ingressTailWrite win v) s = .next (s.setWindow false win ((s.window false win).flag 0)) :=
  (if_neg (window_taken ho)).trans (if_pos hv)

theorem ingressTailWrite_moves {v : Word} (hv : v.toNat ≤ 767)
    (hc : ringCount (s.window false win).head (s.window false win).tail ≤ ringCount (s.window false win).head v.toNat) :
    exec (.ingressTailWrite win v) s = .next (s.setWindow false win { s.window false win with tail := v.toNat }) :=
  (if_neg (window_taken ho)).trans (if_neg (not_or.2 ⟨not_lt.2 hv, not_lt.2 hc⟩))

/-- A head that lies beyond the ring, or that the ring has not reached, is ignored and flagged (R321). -/
theorem egressHeadWrite_flags {v : Word} (hv : 767 < v.toNat ∨
      ringCount (s.window true win).head (s.window true win).tail < ringCount (s.window true win).head v.toNat) :
    exec (.egressHeadWrite win v) s = .next (s.setWindow true win ((s.window true win).flag 0)) :=
  (if_neg (window_taken ho)).trans (if_pos hv)

theorem egressHeadWrite_moves {v : Word} (hv : v.toNat ≤ 767)
    (hc : ringCount (s.window true win).head v.toNat ≤ ringCount (s.window true win).head (s.window true win).tail) :
    exec (.egressHeadWrite win v) s = .next (s.setWindow true win { s.window true win with head := v.toNat }) :=
  (if_neg (window_taken ho)).trans (if_neg (not_or.2 ⟨not_lt.2 hv, not_lt.2 hc⟩))

/-! ## Attachments (R321, R323) -/

/-- A window with ATTS written. -/
def attached (s : State) (e : Bool) (win : Nat) (v : Word) : Window :=
  { s.window e win with atts := (v.setWidth 17).setWidth 64 }

theorem attachmentWrite_eq (e : Bool) (v : Word) : exec (.attachmentWrite e win v) s = .next
    (if bit v 16 && (windowPot s e win (attached s e win v)).isNone then refuseAttachment s e win (attached s e win v)
     else s.setWindow e win (attached s e win v)) := by
  have hatts : ({ s.window e win with atts := w64 (bits v 16 0) } : Window) = attached s e win v :=
    congrArg (fun x => ({ s.window e win with atts := x } : Window)) (w64_bits_zero v 16)
  show execAttachmentWrite e win v s = _
  simp only [execAttachmentWrite, if_neg (window_taken ho), hatts]
  split <;> rfl

/-- An attachment to no pot is refused (R323). -/
theorem attachmentWrite_refused {e : Bool} {v : Word} (hv : v.getLsbD 16 = true)
    (hp : windowPot s e win (attached s e win v) = none) :
    ∃ s', exec (.attachmentWrite e win v) s = .next s' ∧ (s'.window e win).atts = (v.setWidth 16).setWidth 64 ∧
      (s'.window e win).werr = (s.window e win).werr ||| 4 ∧ s'.mem = s.mem := by
  have hcond : (bit v 16 && (windowPot s e win (attached s e win v)).isNone) = true := by rw [bit_eq, hv, hp]; rfl
  refine ⟨_, (attachmentWrite_eq ho e v).trans (congrArg _ (if_pos hcond)), ?_, ?_, ?_⟩ <;> rw [refuseAttachment]
  · rw [window_setWindow_same]
    show w64 (bits ((v.setWidth 17).setWidth 64) 15 0) = _
    rw [w64_bits_zero]
    simp
  · rw [window_setWindow_same]; rfl
  · exact setWindow_mem ..

theorem attachmentWrite_taken {e : Bool} {v : Word}
    (h : v.getLsbD 16 = false ∨ windowPot s e win (attached s e win v) ≠ none) :
    exec (.attachmentWrite e win v) s = .next (s.setWindow e win (attached s e win v)) := by
  have hcond : ¬(bit v 16 && (windowPot s e win (attached s e win v)).isNone) = true := by
    rw [bit_eq, Bool.and_eq_true, Option.isNone_iff_eq_none]
    exact fun ⟨hv, hp⟩ => h.elim (fun h0 => absurd (h0.symm.trans hv) (by decide)) (· hp)
  exact (attachmentWrite_eq ho e v).trans (congrArg _ (if_neg hcond))

end

/-! ## Tokens in and out (R323, R325) -/

section
variable (ha : bit (s.window false win).atts 16 = true) (ht : (s.window false win).head ≠ (s.window false win).tail)
include ha ht

/-- The window is attached and has a slot published. -/
theorem ingress_published :
    ¬((!bit (s.window false win).atts 16) = true ∨ (s.window false win).head = (s.window false win).tail) := by
  rw [ha]
  exact not_or.2 ⟨by decide, ht⟩

variable {cl h : Nat} {l : TileLoc} (hp : windowPot s false win (s.window false win) = some (cl, h, l))
include hp

theorem ingressPush_idle (hr : launchRuns s cl h = false) : exec (.ingressPush win) s = .next s := by
  show execIngressPush win s = _
  simp only [execIngressPush, hp, hr]
  exact if_neg (ingress_published ha ht)

variable (hr : launchRuns s cl h = true)
include hr

/-- A slot of a kind that is refused is skipped and flagged (R323). -/
theorem ingressPush_skips (hk : slotTok (tgetD (s.window false win).slots (s.window false win).head (0, 0)) = none) :
    exec (.ingressPush win) s = .next (advanceHead s win ((s.window false win).flag 1)) := by
  show execIngressPush win s = _
  simp only [execIngressPush, hp, hr, hk]
  exact if_neg (ingress_published ha ht)

variable {k : Tok} (hk : slotTok (tgetD (s.window false win).slots (s.window false win).head (0, 0)) = some k)
include hk

theorem ingressPush_pushes (ho : sourceOpen s h l = true) :
    exec (.ingressPush win) s = .next (advanceHead (pushSource s l k) win (s.window false win)) := by
  show execIngressPush win s = _
  simp only [execIngressPush, hp, hr, hk, ho]
  exact if_neg (ingress_published ha ht)

theorem ingressPush_full (ho : sourceOpen s h l = false) : exec (.ingressPush win) s = .next s := by
  show execIngressPush win s = _
  simp only [execIngressPush, hp, hr, hk, ho]
  exact if_neg (ingress_published ha ht)

end

section
variable {cl h : Nat} {l : TileLoc} {c : TileCfg} (ha : bit (s.window true win).atts 16 = true)
  (hp : windowPot s true win (s.window true win) = some (cl, h, l)) (hc : (s.tile l).active = some c) (hh : c.handle = h)
include ha hp hc hh

theorem egressSlotWrite_full (hf : ringCount (s.window true win).head (s.window true win).tail = 767) :
    exec (.egressSlotWrite win) s = .next s := by
  show execEgressSlotWrite win s = _
  simp [execEgressSlotWrite, ha, hp, hc, hh, hf]

theorem egressSlotWrite_publishes {k : Tok} {s1 : State}
    (hf : ringCount (s.window true win).head (s.window true win).tail ≠ 767)
    (ht : egressTake s l = some (some k, s1)) :
    exec (.egressSlotWrite win) s = .next (publishSlot s1 win (s.window true win) k) := by
  show execEgressSlotWrite win s = _
  simp [execEgressSlotWrite, ha, hp, hc, hh, hf, ht]

end
end

/-! ## Regions that the host reads and writes (R301, R320, R321) -/

/-- The physical addresses of an aperture access by a physical function (R320). -/
def apertureAddrs (s : State) (off n : Nat) : List Nat := (List.range n).map fun i => s.mgmt.apBase.toNat + off + i

section
variable {s : State} {fn off : Nat}

theorem apertureMap_physical (hp : fn % 16 = 0) (n : Nat) (acc : Access) : apertureMap s fn off n acc =
    if (apertureAddrs s off n).all populated then some (apertureAddrs s off n, s) else none :=
  if_pos (by simp [isPhysical, hp])

section
variable (hfn : fn < 32) (hp : fn % 16 = 0) (hr : bit s.mgmt.ready 0 = true)
include hfn hp hr

theorem apertureRead_physical {n : Nat} (hn : off + n ≤ 2 ^ 36) : exec (.apertureRead ⟨.aperture, fn⟩ off n) s =
    .next (answerHost s (if (apertureAddrs s off n).all populated then some ((apertureAddrs s off n).map (mread s.mem))
      else none)) := by
  have hin : ¬((!regionsOpen s fn) = true ∨ apertureSize < off + n) := by
    rw [regionsOpen_physical hfn hp hr]
    exact not_or.2 ⟨by decide, not_lt.2 hn⟩
  show Host.Outcome.next (apertureRead s fn off n) = _
  simp only [apertureRead, if_neg hin, apertureMap_physical hp]
  by_cases hall : (apertureAddrs s off n).all populated = true
  · simp only [if_pos hall]
  · simp only [if_neg hall]

/-- A write of the aperture is performed whole, or counted (R320). -/
theorem apertureWrite_physical {b : List Byte} (hn : off + b.length ≤ 2 ^ 36) : exec (.apertureWrite fn off b) s =
    .next (if (apertureAddrs s off b.length).all populated then writePhys s ((apertureAddrs s off b.length).zip b)
      else { s with mgmt := { s.mgmt with
        apFault := if s.mgmt.apFault = BitVec.allOnes 32 then s.mgmt.apFault else s.mgmt.apFault + 1 } }) := by
  have hopen : ¬(!regionsOpen s fn) = true := by rw [regionsOpen_physical hfn hp hr]; decide
  have hin : ¬apertureSize < off + b.length := not_lt.2 hn
  show execApertureWrite fn off b s = _
  simp only [execApertureWrite, if_neg hopen, if_neg hin, apertureMap_physical hp]
  by_cases hall : (apertureAddrs s off b.length).all populated = true
  · simp only [if_pos hall]
  · simp only [if_neg hall]

end

/-- The fault counter of the aperture saturates (R334). -/
theorem apFault_counts (x : BitVec 32) :
    (if x = BitVec.allOnes 32 then x else x + 1).toNat = min (x.toNat + 1) (2 ^ 32 - 1) := by
  split
  next h => rw [h]; decide
  next h =>
    have hne : x.toNat ≠ 2 ^ 32 - 1 := fun hx => h (BitVec.eq_of_toNat_eq hx)
    bv_omega

theorem windowsRead_open {n : Nat} (ho : regionsOpen s fn = true) (hn : off + n ≤ 0x200000) :
    exec (.apertureRead ⟨.windows, fn⟩ off n) s = .next (answerHost s (some ((List.range n).map fun i =>
      windowRead (s.window (0x100000 ≤ off + i) (16 * fn + (off + i) / 0x10000 % 16)) ((off + i) % 0x10000)))) := by
  have hin : ¬((!regionsOpen s fn) = true ∨ 0x200000 < off + n) := by
    rw [ho]
    exact not_or.2 ⟨by decide, not_lt.2 hn⟩
  exact congrArg Host.Outcome.next (if_neg hin)

/-- A read that ends before SVCRSP removes no reply (R334). -/
theorem registersRead_low {n : Nat} (hfn : fn < 32) (hn : off + n ≤ 0x208) :
    exec (.apertureRead ⟨.registers, fn⟩ off n) s = .next (answerHost s (some ((List.range n).map fun i =>
      byteOf (regionRead s fn ((off + i) / 8 * 8)) ((off + i) % 8)))) := by
  have hin : ¬(32 ≤ fn ∨ 0x10000 < off + n) := by omega
  have hkeep : ¬(isPhysical fn && Decidable.decide (off ≤ 0x20F) && Decidable.decide (0x208 < off + n)) = true := by
    simp; omega
  show Host.Outcome.next (registersRead s fn off n) = _
  simp only [registersRead, if_neg hin, if_neg hkeep]

section
variable (hc : regionsOpen s fn = false)
include hc

theorem aperture_closed (n : Nat) : exec (.apertureRead ⟨.aperture, fn⟩ off n) s = .next (answerHost s none) :=
  congrArg Host.Outcome.next (if_pos (.inl (by rw [hc]; rfl)))

theorem windows_closed (n : Nat) : exec (.apertureRead ⟨.windows, fn⟩ off n) s = .next (answerHost s none) :=
  congrArg Host.Outcome.next (if_pos (.inl (by rw [hc]; rfl)))

theorem apertureWrite_closed (b : List Byte) : exec (.apertureWrite fn off b) s = .next s :=
  if_pos (by rw [hc]; rfl)

theorem windowWrite_closed (b : List Byte) : exec (.registerWrite (.window fn off b)) s = .next s :=
  congrArg Host.Outcome.next (if_neg (ne_true_of_eq_false hc))

end
end

/-! ## Vectors (R322) -/

@[simp] theorem maskVector_msixOf (s : State) (fn vec : Nat) : (maskVector s fn vec false).msixOf fn =
    { s.msixOf fn with masked := nsDel (s.msixOf fn).masked vec, pending := nsDel (s.msixOf fn).pending vec,
                       sent := if nsMem (s.msixOf fn).pending vec then (s.msixOf fn).sent ++ [(s.msixOf fn).message vec]
                         else (s.msixOf fn).sent } :=
  tgetD_tset_same ..

/-- A vector that is unmasked delivers what is pending (R322). -/
theorem msixUnmask_delivers {s : State} {fn vec : Nat} (hfn : fn < 32) (hvec : vec < 34) :
    exec (.msixUnmask fn vec) s = .next (maskVector s fn vec false) :=
  congrArg Host.Outcome.next (if_pos ⟨hfn, hvec⟩)

/-! ## Management registers (R320, R334) -/

theorem mgmtWrite_virtual {s : State} {fn off : Nat} (v : Word) (hfn : fn < 32) (ho : off < 0x8000) (hp : fn % 16 ≠ 0) :
    exec (.registerWrite (.mgmt fn off v)) s = .next s := by
  have hvirtual : ¬isPhysical fn = true := by simp [isPhysical, hp]
  exact (if_neg (not_le.2 hfn)).trans ((if_neg (not_le.2 ho)).trans (congrArg _ (if_neg hvirtual)))

/-- A physical function's write of a register (R334). -/
theorem mgmtWrite_physical {s : State} {fn off : Nat} (v : Word) (hfn : fn = 0 ∨ fn = 16) (ho : off < 0x8000) :
    exec (.registerWrite (.mgmt fn off v)) s = .next (mgmtWrite s off v) := by
  have hphysical : isPhysical fn = true := by obtain rfl | rfl := hfn <;> rfl
  exact (if_neg (by omega)).trans ((if_neg (not_le.2 ho)).trans (congrArg _ (if_pos hphysical)))

/-- Settles O53: windows and the aperture by their checks, vectors and registers by what is written. -/
theorem windowsApertureAndRegistersActForTheHost : Obligations.WindowsApertureAndRegistersActForTheHost := by
  unfold Obligations.WindowsApertureAndRegistersActForTheHost
  intro s
  refine ⟨fun win v ho => ⟨ingressTailWrite_flags ho, ingressTailWrite_moves ho⟩,
    fun win v ho => ⟨egressHeadWrite_flags ho, egressHeadWrite_moves ho⟩,
    fun e win v ho => ⟨attachmentWrite_refused ho, attachmentWrite_taken ho⟩,
    fun win cl h l ha ht hp => ⟨ingressPush_idle ha ht hp, ingressPush_skips ha ht hp, fun k hr hk =>
      ⟨ingressPush_pushes ha ht hp hr hk, ingressPush_full ha ht hp hr hk⟩⟩,
    fun win cl h l c ha hp hc hh => ⟨egressSlotWrite_full ha hp hc hh, fun k s1 => egressSlotWrite_publishes ha hp hc hh⟩,
    fun fn off n hfn hp hr hn => ?read, fun fn off n => windowsRead_open, fun fn off n => registersRead_low,
    fun fn off b hfn hp hr hn => ?write, fun fn off n b hclosed => ?closed, fun fn vec hfn hvec => ?vector,
    fun fn off v hfn ho hp => mgmtWrite_virtual v hfn ho hp, fun fn v hfn => ?registers⟩
  case read =>
    have hread := apertureRead_physical hfn hp hr hn
    exact ⟨fun hall => hread.trans (congrArg (Host.Outcome.next <| answerHost s ·) (if_pos hall)),
      fun hall => hread.trans (congrArg (Host.Outcome.next <| answerHost s ·) (if_neg (ne_true_of_eq_false hall)))⟩
  case write =>
    have hwrite := apertureWrite_physical hfn hp hr hn
    exact ⟨fun hall => hwrite.trans (congrArg _ (if_pos hall)),
      fun hall => ⟨_, hwrite.trans (congrArg _ (if_neg (ne_true_of_eq_false hall))), rfl, apFault_counts _⟩⟩
  case closed =>
    have hc := regionsOpen_closed hclosed
    exact ⟨aperture_closed hc n, windows_closed hc n, apertureWrite_closed hc b, windowWrite_closed hc b⟩
  case vector =>
    refine ⟨_, msixUnmask_delivers hfn hvec, ?_, ?_, rfl, ?_, ?_⟩ <;> rw [maskVector_msixOf]
    · simp
    · simp
  case registers =>
    have hwrite (off : Nat) (ho : off < 0x8000) := mgmtWrite_physical (s := s) v hfn ho
    refine ⟨hwrite 0x38 (by decide), (hwrite 0x40 (by decide)).trans ?_, (hwrite 0x48 (by decide)).trans ?_,
      hwrite 0xE0 (by decide), hwrite 0x200 (by decide)⟩
    · simp only [mgmtWrite, clearLow_eq_and]; rfl
    · simp only [mgmtWrite, clearLow_eq_and]; rfl

end Sys2Proof.Machine
end

section
/-! PROOFS. The service channel (R314, R328, R329, R358, R361): a request that is served is answered once, with the status of its
command. -/

namespace Sys2Proof.Machine

open Sys2Proof

/-! ## One reply for each request (R314) -/

/-- An event answers a request of the host with a status, and leaves what its command has made of the state (R314, R322). -/
def Answers (s : State) (e : Instr) (status : Nat) (s2 : State) : Prop :=
  ∃ s', exec e s = .next s' ∧
    s'.mgmt = { s2.mgmt with svcRsp := s2.mgmt.svcRsp ++ [BitVec.ofNat 64 status] } ∧
    s' = { s2 with mgmt := s'.mgmt, msix := s'.msix }

/-- The state as a request of the host has left the buffer (R314). -/
def requestTaken (s : State) (rest : List Word) : State := { s with mgmt := { s.mgmt with svcReq := rest } }

theorem command_eq (a : Word) : command a = (a.setWidth 8).toNat := by simp [command, bits]

/-! ## The events of the channel (R314, R329, R361) -/

theorem exec_verifyImage (s : State) : exec (.verifyImage .host) s = execVerifyImage .host s := by rfl

theorem exec_attestationQuote (s : State) : exec (.attestationQuote .host) s = execAttestationQuote .host s := by rfl

theorem exec_installGeneralFirmware (s : State) :
    exec (.installGeneralFirmware .host) s = execInstallGeneralFirmware .host s := by rfl

theorem exec_writeEntry (s : State) : exec (.writeEntry .host) s = execWriteEntry .host s := by rfl

theorem exec_readFabricState (s : State) : exec (.readFabricState .host) s = execReadFabricState .host s := by rfl

theorem exec_restoreFabricState (s : State) : exec (.restoreFabricState .host) s = execRestoreFabricState .host s := by rfl

theorem exec_publishHorizon (s : State) : exec (.publishHorizon .host) s = execPublishHorizon .host s := by rfl

theorem exec_setRetentionLog (s : State) : exec (.setRetentionLog .host) s = execSetRetentionLog .host s := by rfl

/-- The host has given command 3 a record of an operation, which the firmware reads (R329, R361). -/
structure RecordRead (s : State) (a b : Word) (rest : List Word) (op : Nat) (r : List Byte) : Prop where
  command : command a = 3
  operation : field r 0 1 = op
  known : op ≤ 4
  before : readFor s .host b.toNat 32 = some (r, s)
  after : readFor (requestTaken s rest) .host b.toNat 32 = some (r, requestTaken s rest)

theorem RecordRead.mine {s : State} {a b : Word} {rest : List Word} {op : Nat} {r : List Byte} (hr : RecordRead s a b rest op r) :
    (Machine.command a = 3 && recordOperation s .host b = op) = true := by
  have hrecord : recordOperation s .host b = op := by
    simp only [recordOperation, hr.before, hr.operation, if_pos hr.known]
  simp [hr.command, hrecord]

/-- An entry has been written, and its destination sent what it is owed (R357, R360, R365). -/
def entryWritten (s : State) (chip : Nat) (entry : Word) : State :=
  entryMoved { s with fabric := { s.fabric with
    identity := tset s.fabric.identity chip (newEntry (identity s chip) entry false) } } chip (identity s chip)

/-- The record's entry and chip are ones that WRITE_ENTRY takes (R360, R361). -/
structure EntryFits (r : List Byte) : Prop where
  chip : field r 2 2 ≤ 255
  low : bits (w64 (field r 8 8)) 15 10 = 0
  high : bits (w64 (field r 8 8)) 63 51 = 0

theorem EntryFits.taken {r : List Byte} (h : EntryFits r) :
    ¬(255 < field r 2 2 ∨ bits (w64 (field r 8 8)) 15 10 ≠ 0 ∨ bits (w64 (field r 8 8)) 63 51 ≠ 0) :=
  not_or.2 ⟨not_lt.2 h.chip, not_or.2 ⟨not_not.2 h.low, not_not.2 h.high⟩⟩

section
variable {s : State} {a b : Word} {rest : List Word} (hq : s.mgmt.svcReq = a :: b :: rest)
include hq

section
variable {e : Instr} {mine : State → Word → Word → Bool} {f : State → Word → Word → Nat × State}
  (he : exec e s = serve s .host mine f)
include he

theorem serve_answers (hm : mine s a b = true) {status : Nat} {s2 : State}
    (hf : f (requestTaken s rest) a b = (status, s2)) : Answers s e status s2 := by
  obtain ⟨hnext, htake⟩ := nextRequest_host s a b rest hq
  have hf' : f (takeRequest s .host) a b = (status, s2) := by rw [htake]; exact hf
  refine ⟨reply s2 .host status, he.trans ?_, rfl, reply_host s2 status⟩
  simp only [serve, hnext, hm, hf']
  rfl

/-- A request of another command is left to the event that serves it. -/
theorem serve_leaves (hm : mine s a b = false) : exec e s = .next s := by
  rw [he]
  simp only [serve, (nextRequest_host s a b rest hq).1, hm]
  rfl

end

variable {e : Instr} {op : Nat} {r : List Byte} {f : State → List Byte → Nat × State}
  (he : exec e s = serveRecord s .host op f) (hr : RecordRead s a b rest op r)
include he hr

/-- A record that is well formed is answered by its operation (R361). -/
theorem serveRecord_answers (hok : recordOk a r = true) {status : Nat} {s2 : State}
    (hf : f (requestTaken s rest) r = (status, s2)) : Answers s e status s2 :=
  serve_answers hq he hr.mine (by simp only [hr.after, hok, if_true, hf])

theorem serveRecord_malformed (hok : recordOk a r = false) : Answers s e 5 (requestTaken s rest) :=
  serve_answers hq he hr.mine (by simp only [hr.after, hok]; rfl)

end

/-! ## Command 1: signatures (R314) -/

/-- A request of command 1 that R314 makes malformed, or a command that does not exist. -/
def VerifyMalformed (a b : Word) : Prop :=
  command a ≠ 1 ∨ bits a 63 16 ≠ 0 ∨ 7 < bits a 15 8 ∨ b.toNat % 64 ≠ 0

theorem verifyMalformed_iff (a b : Word) : VerifyMalformed a b ↔
    (a.setWidth 8).toNat ≠ 1 ∨ a.extractLsb 63 16 ≠ 0 ∨ 7 < (a.extractLsb 15 8).toNat ∨ b.toNat % 64 ≠ 0 := by
  have hzero := bits_zero a 63 16
  have hslot := bits_extract a 15 8
  simp only [VerifyMalformed, command_eq, ne_eq, hzero, hslot]

section
variable {s : State} {src : SvcSrc} {a b : Word}

theorem verifyStatus_malformed (hm : VerifyMalformed a b) : verifyStatus s src a b = (5, s) := if_pos hm

variable (hm : ¬VerifyMalformed a b)
include hm

theorem verifyStatus_noKey (hk : tget s.flash.keys (bits a 15 8) = none) : verifyStatus s src a b = (4, s) := by
  refine (if_neg hm).trans ?_
  rw [hk]

variable {key hd : List Byte} {s1 : State} (hk : tget s.flash.keys (bits a 15 8) = some key)
  (hr : readFor s src b.toNat 64 = some (hd, s1))
include hk hr

theorem verifyStatus_unsigned (ho : field hd 20 4 = 0) : verifyStatus s src a b = (2, s1) := by
  refine (if_neg hm).trans ?_
  simp only [hk, hr, if_pos ho]

variable (ho : field hd 20 4 ≠ 0)
include ho

theorem verifyStatus_badHeader (hl : field hd 24 4 ≠ lmsLength ∨ field hd 0 4 < field hd 20 4) :
    verifyStatus s src a b = (3, s1) := by
  refine (if_neg hm).trans ?_
  simp only [hk, hr, if_neg ho, if_pos hl]

theorem verifyStatus_verdict (hl : field hd 24 4 = lmsLength) (hle : field hd 20 4 ≤ field hd 0 4) {x : List Byte} {s2 : State}
    (hx : readFor s1 src b.toNat (field hd 20 4 + lmsLength) = some (x, s2)) :
    verifyStatus s src a b = (if lmsVerify key (x.take (field hd 20 4)) (x.drop (field hd 20 4)) then 0 else 1, s2) := by
  have hgood : ¬(field hd 24 4 ≠ lmsLength ∨ field hd 0 4 < field hd 20 4) := not_or.2 ⟨not_not.2 hl, not_lt.2 hle⟩
  refine (if_neg hm).trans ?_
  simp only [hk, hr, if_neg ho, if_neg hgood, hx]

end

section
variable {s : State} {a b : Word} {rest : List Word} (hq : s.mgmt.svcReq = a :: b :: rest)
include hq

/-- VERIFY_IMAGE leaves commands 2 to 4 (R314). -/
theorem verifyImage_leaves (hc : command a = 2 ∨ command a = 3 ∨ command a = 4) : exec (.verifyImage .host) s = .next s := by
  refine serve_leaves hq (exec_verifyImage s) ?_
  obtain hc | hc | hc := hc <;> rw [hc] <;> rfl

/-- VERIFY_IMAGE answers every other command by the verdict (R314). -/
theorem verifyImage_answers (h2 : command a ≠ 2) (h3 : command a ≠ 3) (h4 : command a ≠ 4) {status : Nat} {s2 : State}
    (hv : verifyStatus (requestTaken s rest) .host a b = (status, s2)) : Answers s (.verifyImage .host) status s2 :=
  serve_answers hq (exec_verifyImage s) (by simp [h2, h3, h4]) hv

/-! ## Command 2: quotes (R328, R329) -/

section
variable (hc : command a = 2)
include hc

theorem attestationQuote_malformed (hz : bits a 63 8 ≠ 0) : Answers s (.attestationQuote .host) 5 (requestTaken s rest) :=
  serve_answers hq (exec_attestationQuote s) (by simp [hc]) (if_pos hz)

variable (hz : bits a 63 8 = 0)
include hz

/-- No quote without attestation, or after the last one of the power-up (R328, R329). -/
theorem attestationQuote_refused (ha : s.trivet.attest = false ∨ 32768 ≤ s.trivet.quotes) :
    Answers s (.attestationQuote .host) 6 (requestTaken s rest) :=
  serve_answers hq (exec_attestationQuote s) (by simp [hc])
    ((if_neg (not_not.2 hz)).trans (if_pos (ha.imp_left fun h => by show (!s.trivet.attest) = true; rw [h]; rfl)))

theorem attestationQuote_writes (ha : s.trivet.attest = true) (hn : s.trivet.quotes < 32768) {nonce : List Byte} {s2 : State}
    (hr : readFor (requestTaken s rest) .host b.toNat 32 = some (nonce, requestTaken s rest))
    (hw : writeFor (requestTaken s rest) .host (b.toNat + 32) (quoteBytes (requestTaken s rest) nonce) = some s2) :
    Answers s (.attestationQuote .host) 0 { s2 with trivet := { s2.trivet with quotes := s2.trivet.quotes + 1 } } := by
  have hgo : ¬((!(requestTaken s rest).trivet.attest) = true ∨ 32768 ≤ (requestTaken s rest).trivet.quotes) := by
    refine not_or.2 ⟨?_, not_le.2 hn⟩
    show ¬(!s.trivet.attest) = true
    rw [ha]
    decide
  refine serve_answers hq (exec_attestationQuote s) (by simp [hc]) ((if_neg (not_not.2 hz)).trans ((if_neg hgo).trans ?_))
  simp only [hr, hw]

end

/-! ## Command 4: general firmware (R328, R329) -/

section
variable (hc : command a = 4)
include hc

theorem installFirmware_malformed (hz : bits a 63 8 ≠ 0) :
    Answers s (.installGeneralFirmware .host) 5 (requestTaken s rest) :=
  serve_answers hq (exec_installGeneralFirmware s) (by simp [hc]) (if_pos hz)

/-- An image that is read is installed when it is well formed and verifies (R329). -/
theorem installFirmware_answers (hz : bits a 63 8 = 0) {x : List Byte}
    (hr : readFor (requestTaken s rest) .host b.toNat Config.firmwareBytes = some (x, requestTaken s rest))
    {status : Nat} {s2 : State}
    (hv : (if !Config.firmwareWellFormed x then (3, requestTaken s rest)
      else if !firmwareVerifies x then (1, requestTaken s rest) else (0, installFirmware (requestTaken s rest) x)) =
        (status, s2)) :
    Answers s (.installGeneralFirmware .host) status s2 := by
  refine serve_answers hq (exec_installGeneralFirmware s) (by simp [hc]) ((if_neg (not_not.2 hz)).trans ?_)
  simp only [hr, hv]

end

/-! ## Command 3: identity tables and fabric state (R358, R360, R361) -/

section
variable {r : List Byte}

theorem writeEntry_malformed (hr : RecordRead s a b rest 0 r) (hok : recordOk a r = false) :
    Answers s (.writeEntry .host) 5 (requestTaken s rest) :=
  serveRecord_malformed hq (exec_writeEntry s) hr hok

variable (hok : recordOk a r = true)
include hok

section
variable (hr : RecordRead s a b rest 0 r) (hfit : EntryFits r)
include hr hfit

/-- An entry of another generation is not written (R360, R361). -/
theorem writeEntry_stale (hg : bits (identity s (field r 2 2)) 47 32 ≠ field r 4 2) :
    Answers s (.writeEntry .host) 7 (requestTaken s rest) :=
  serveRecord_answers hq (exec_writeEntry s) hr hok ((if_neg hfit.taken).trans (if_pos hg))

theorem writeEntry_writes (hg : bits (identity s (field r 2 2)) 47 32 = field r 4 2) (hflag : field r 1 1 = 0) :
    Answers s (.writeEntry .host) 0 (entryWritten (requestTaken s rest) (field r 2 2) (w64 (field r 8 8))) := by
  refine serveRecord_answers hq (exec_writeEntry s) hr hok
    ((if_neg hfit.taken).trans ((if_neg (not_not.2 hg)).trans ?_))
  simp only [hflag]
  rfl

end

theorem readFabricState_writes (hr : RecordRead s a b rest 1 r) {s2 : State}
    (hw : writeFor (requestTaken s rest) .host (field r 8 8)
      (((List.range 256).map (chipState (requestTaken s rest))).flatMap chipBytes) = some s2) :
    Answers s (.readFabricState .host) 0
      { s2 with fabric := { s2.fabric with snapshot := (List.range 256).map (chipState (requestTaken s rest)) } } :=
  serveRecord_answers hq (exec_readFabricState s) hr hok (by simp only [hw])

section
variable (hr : RecordRead s a b rest 2 r)
include hr

/-- The fabric state is not restored while a launch runs (R361). -/
theorem restoreFabricState_refused (hl : anyLaunchRuns (requestTaken s rest) = true) :
    Answers s (.restoreFabricState .host) 5 (requestTaken s rest) :=
  serveRecord_answers hq (exec_restoreFabricState s) hr hok (if_pos hl)

theorem restoreFabricState_restores (hl : anyLaunchRuns (requestTaken s rest) = false) {x : List Byte} {s2 : State}
    (hx : readFor (requestTaken s rest) .host (field r 8 8) 4096 = some (x, requestTaken s rest))
    (hs : (List.range 256).foldl (restoreChip x) (requestTaken s rest) = s2) :
    Answers s (.restoreFabricState .host) 0 { s2 with fabric := { s2.fabric with awaiting := false } } :=
  serveRecord_answers hq (exec_restoreFabricState s) hr hok
    ((if_neg (ne_true_of_eq_false hl)).trans (by simp only [hx, hs]))

end

/-- The horizon goes to every valid chip of the last snapshot (R358, R361). -/
theorem publishHorizon_sends (hr : RecordRead s a b rest 3 r) : Answers s (.publishHorizon .host) 0
    (((requestTaken s rest).fabric.snapshot.filter fun x => idValid (requestTaken s rest) x.1).foldl
      (fun s x => emitMsg s (fromHere s (horizonMsg x))) (requestTaken s rest)) :=
  serveRecord_answers hq (exec_publishHorizon s) hr hok rfl

section
variable (hr : RecordRead s a b rest 4 r)
include hr

theorem setRetentionLog_takes (hl : logFits (field r 8 8) (field r 16 8) = true) :
    Answers s (.setRetentionLog .host) 0 (wakeSenders { requestTaken s rest with
      fabric := { (requestTaken s rest).fabric with logAddr := field r 8 8, logSize := some (field r 16 8) } }) :=
  serveRecord_answers hq (exec_setRetentionLog s) hr hok (by simp only [physFor, hl]; rfl)

theorem setRetentionLog_refused (hl : logFits (field r 8 8) (field r 16 8) = false) :
    Answers s (.setRetentionLog .host) 3 (requestTaken s rest) :=
  serveRecord_answers hq (exec_setRetentionLog s) hr hok (by simp only [physFor, hl]; rfl)

end
end
end

/-- Settles O54: the commands one by one, each by the status that its checks give. -/
theorem serviceRequestsAreAnsweredInTurn : Obligations.ServiceRequestsAreAnsweredInTurn := by
  unfold Obligations.ServiceRequestsAreAnsweredInTurn
  intro s a b rest hq s1 answers cmd ext
  have hcmd : command a = cmd := command_eq a
  have hext : bits a 63 8 = 0 ↔ ext = 0 := bits_zero a 63 8
  refine ⟨fun h2 h3 h4 => ?verify, fun hc => verifyImage_leaves hq (hcmd ▸ hc), fun hc => ?quote, fun hc => ?firmware,
    fun r hc hr1 hr => ?record⟩
  case verify =>
    rw [← hcmd] at h2 h3 h4
    refine ⟨fun hm => verifyImage_answers hq h2 h3 h4 (verifyStatus_malformed ((verifyMalformed_iff a b).2 hm)),
      fun key hd h1 hz hslot hb => ?_⟩
    have hm : ¬VerifyMalformed a b := by
      rw [verifyMalformed_iff]
      rintro (hn | hn | hn | hn)
      · exact hn h1
      · exact hn hz
      · exact absurd hslot (not_le.2 hn)
      · exact hn hb
    rw [← bits_extract a 15 8]
    refine ⟨fun hk => verifyImage_answers hq h2 h3 h4 (verifyStatus_noKey hm hk), fun hk hr => ⟨fun ho => ?_, fun ho hl => ?_,
      fun x ho hl hle hx => ?_⟩⟩
    · exact verifyImage_answers hq h2 h3 h4 (verifyStatus_unsigned hm hk hr ho)
    · exact verifyImage_answers hq h2 h3 h4 (verifyStatus_badHeader hm hk hr ho hl)
    · exact verifyImage_answers hq h2 h3 h4 (verifyStatus_verdict (s := s1) hm hk hr ho hl hle hx)
  case quote =>
    have hc' : command a = 2 := hcmd.trans hc
    exact ⟨fun hz => attestationQuote_malformed hq hc' (mt hext.1 hz),
      fun hz => attestationQuote_refused hq hc' (hext.2 hz),
      fun nonce s2 hz ha hn hr hw => attestationQuote_writes hq hc' (hext.2 hz) ha hn hr hw⟩
  case firmware =>
    have hc' : command a = 4 := hcmd.trans hc
    refine ⟨fun hz => installFirmware_malformed hq hc' (mt hext.1 hz), fun x hz hr =>
      ⟨fun hw => ?_, fun hw hv => ?_, fun hw hv => ?_⟩⟩ <;>
      refine installFirmware_answers hq hc' (hext.2 hz) hr ?_
    · rw [hw]; rfl
    · rw [hw, hv]; rfl
    · rw [hw, hv]; rfl
  case record =>
    intro op chip entry
    have hread (n : Nat) (hn : n ≤ 4) (hop : op = n) : RecordRead s a b rest n r := ⟨hcmd.trans hc, hop, hn, hr, hr1⟩
    refine ⟨fun hok hop => writeEntry_malformed hq (hread 0 (by decide) hop) hok, fun hok => ⟨fun hop hchip hlow hhigh => ?entry,
      fun s2 hop => readFabricState_writes hq hok (hread 1 (by decide) hop),
      fun hop => restoreFabricState_refused hq hok (hread 2 (by decide) hop),
      fun x hop hl hx => restoreFabricState_restores hq hok (hread 2 (by decide) hop) hl hx rfl,
      fun hop => publishHorizon_sends hq hok (hread 3 (by decide) hop),
      fun hop => ⟨setRetentionLog_takes hq hok (hread 4 (by decide) hop),
        setRetentionLog_refused hq hok (hread 4 (by decide) hop)⟩⟩⟩
    case entry =>
      have hfit : EntryFits r := ⟨hchip, (bits_zero _ 15 10).2 hlow, (bits_zero _ 63 51).2 hhigh⟩
      exact ⟨writeEntry_stale hq hok (hread 0 (by decide) hop) hfit, writeEntry_writes hq hok (hread 0 (by decide) hop) hfit⟩

end Sys2Proof.Machine
end
